-- ==== Sys2Proof/Word.lean ====
section
/-! DEFINITION. The word types of the device: bytes, 32-bit register words and 64-bit list words. -/
namespace Sys2Proof

/-- One byte of a memory (R440). -/
abbrev Byte := BitVec 8
/-- One 4 B register word (R425). -/
abbrev W32 := BitVec 32
/-- One 8 B word: a command-list word, a page-table entry, an edge-time count. -/
abbrev W64 := BitVec 64

/-- A sparse table: the entries that differ from what an unlisted index holds, indices strictly rising.
It is the one form in which the state holds registers in number, records by index and memories. -/
abbrev Tbl (α : Type) := List (Nat × α)

end Sys2Proof
end

