-- ==== Sys2Proof/Syntax.lean ====
section
/-! DEFINITION. The commands: one constructor for each row of spec/opcode_table.json, in the table's order. The
table gives its rows no operand bits; a command's operands are what the rules make it depend on beside the state:
the register or unit it names, the value written, and what is measured or arrives from outside the device. -/
namespace Sys2Proof

/-- Fields of a vector-slot instruction (R280 Table 5, format V). -/
structure VOperands where
  /-- T: false complex lanes, true real lanes -/
  t : Bool
  vd : Nat
  va : Nat
  vb : Nat
  k : Nat
  /-- F: ACC [0], CA [1], CB [2], NEG [3] -/
  f : Nat
  deriving DecidableEq, Repr

/-- Fields of a memory-slot instruction (R280 Table 5, format M) and the slot that holds it. -/
structure MOperands where
  /-- false for L0, true for L1 -/
  l1 : Bool
  vr : Nat
  p : Nat
  o : Nat
  mode : Nat
  /-- the 13-bit immediate field, unsigned as it stands in the word -/
  imm : Nat
  deriving DecidableEq, Repr

/-- Whose read request reached its completion timeout (R442). -/
inductive TimeoutSource where
  /-- an operation of the segment on unit `u` of class `cls` read host memory -/
  | operation (cls u : Nat)
  /-- a page-table walk of that segment, for a read or a write at device address `va` -/
  | walk (cls u va : Nat) (write : Bool)
  /-- the fetch of the next descriptor of ring `r`, or the walk before it -/
  | fetch (r : Nat) (table : Bool)
  /-- the read of the command list that the arbiter grants next, or the walk before it -/
  | list (table : Bool)
  /-- the read of a poll record, or the walk before it -/
  | poll (r : Nat) (table : Bool)
  /-- an access to a completion history or queue of ring `r`: the read of a duplicate's entry, or a walk -/
  | history (r : Nat) (table : Bool)
  /-- the read of the ring entry of a RING_SETUP, or the walk before it -/
  | ringEntry (table : Bool)
  /-- the read of the sections of an RA_BIND of ring `r`, or the walk before it -/
  | bind (r : Nat) (table : Bool)
  /-- the read of a table that is published, or the walk before it -/
  | publish (table : Bool)
  /-- the read of the calibration profile of link `k`, or the walk before it -/
  | profile (k : Nat) (table : Bool)
  /-- the read of an entry of the PTP transmit queue, or the walk before it -/
  | ptpQueue (table : Bool)
  /-- the configuration request of the PEER_CFG that Ezdan executes -/
  | peerCfg
  deriving DecidableEq, Repr

/-- The configuration registers that the rules name; the spec gives them no offsets (R119, R123, R442). -/
inductive CfgReg where
  /-- vendor and device ID -/
  | ident
  | deviceCapabilities
  | deviceControl
  | deviceCapabilities2
  | deviceControl2
  /-- SR-IOV: InitialVFs and TotalVFs -/
  | sriov
  /-- SR-IOV: First VF Offset and VF Stride -/
  | sriovStride
  /-- SR-IOV: VF Device ID -/
  | vfDeviceId
  /-- SR-IOV: Supported Page Sizes -/
  | pageSizes
  /-- SR-IOV: System Page Size -/
  | systemPageSize
  /-- base address register n -/
  | bar (n : Nat)
  /-- SR-IOV: VF base address register n -/
  | vfBar (n : Nat)
  /-- MSI-X capability: Message Control -/
  | msixControl
  /-- MSI-X capability: Table Offset and BIR -/
  | msixTable
  /-- MSI-X capability: PBA Offset and BIR -/
  | msixPba
  /-- header of the extended capability of an ID -/
  | extCap (id : Nat)
  | other (off : Nat)
  deriving DecidableEq, Repr

/-- Where a register write goes: an offset in an address window of the host port (R123 Table 1). -/
inductive Window where
  /-- BAR0 of the physical function -/
  | setup (off : Nat)
  /-- BAR2 of a function: its doorbell pages -/
  | doorbells (fn off : Nat)
  /-- BAR4 of a function: its MSI-X table -/
  | msix (fn off : Nat)
  deriving DecidableEq, Repr

/-- A millisecond that an instance spends below CRIT_PCT: the instance, and the tries of a VOUT_COMMAND of this millisecond
that stay without acknowledgement (R70, R80). -/
structure CritTick where
  inst : Nat
  naks : Nat
  deriving DecidableEq, Repr

/-- The commands of the block, one constructor per row of spec/opcode_table.json. -/
inductive Instr where
  /-- PWROK_ASSERT: the board asserts PWROK (R78) -/
  | pwrokAssert
  /-- COLD_RESET: PWROK goes low, or power comes up (R98) -/
  | coldReset
  /-- PERST_ASSERT: PERST# is asserted with PWROK high (R98) -/
  | perstAssert
  /-- PERST_DEASSERT: PERST# is deasserted (R106) -/
  | perstDeassert
  /-- DL_DOWN: DL_Down on the host port (R98) -/
  | dlDown
  /-- PF_FLR: function-level reset of the physical function (R128) -/
  | pfFlr
  /-- TAP_RESET: TRST_N low (R97) -/
  | tapReset
  /-- BOOT_IMAGE_CHECK: the boot ROM has read and verified (R101, R102) -/
  | bootImageCheck
  /-- FW_UP: firmware is running (R106) -/
  | fwUp
  /-- MAP_DONE: self-test ends; the units that failed as (ERR_RETIRE_CMD type, index), whether a router failed, the die-to-die links that failed (R113, R118) -/
  | mapDone (failed : List (Nat × Nat)) (hedgerowBad : Bool) (d2dBad : List Nat)
  /-- READY: the feature offer becomes valid (R129) -/
  | ready
  /-- CONFIG_REQUEST: a configuration request to a function's register, with data for a write (R107) -/
  | configRequest (fn : Nat) (reg : CfgReg) (wr : Option W32)
  /-- LINK_RETRAIN: the host port has retrained to a width and a rate in GT/s, 2 standing for 2.5 (R121) -/
  | linkRetrain (width gts : Nat)
  /-- VF_ENABLE_CHANGE: VF Enable is written (R127) -/
  | vfEnableChange (enable : Bool) (numVfs : Nat)
  /-- VF_FLR: function-level reset of virtual function k (R128) -/
  | vfFlr (k : Nat)
  /-- LOCKSTEP_MISMATCH: the Ezdan cores disagree (R104, R419) -/
  | lockstepMismatch
  /-- FW_WATCHDOG_EXPIRE: firmware misses its watchdog service (R419) -/
  | fwWatchdogExpire
  /-- EZDAN_RESUME: Ezdan resumes after a restart (R419) -/
  | ezdanResume
  /-- LOG_READ: mailbox command 0x01 (R105) -/
  | logRead
  /-- FLASH_WRITE: mailbox command 0x02 (R105) -/
  | flashWrite
  /-- FLASH_ACTIVATE: mailbox command 0x03 (R105) -/
  | flashActivate
  /-- WARM_RESET: mailbox command 0x04 (R99, R105) -/
  | warmReset
  /-- SVN_COMMIT: mailbox command 0x05 (R103) -/
  | svnCommit
  /-- MBOX_UNKNOWN: a mailbox command code outside Table 2 (R105) -/
  | mboxUnknown (code : Nat)
  /-- MBOX_DONE: the mailbox command in progress finishes (R105) -/
  | mboxDone
  /-- SMB_BOOT_STAGE: SMBus command 0x01 (R112) -/
  | smbBootStage
  /-- SMB_TJ_MAX: SMBus command 0x02 (R112) -/
  | smbTjMax
  /-- SMB_SHED_STATE: SMBus command 0x03 (R112) -/
  | smbShedState
  /-- SMB_RETIRED_COUNT: SMBus command 0x04 (R112) -/
  | smbRetiredCount
  /-- SMB_ERROR_CODES: SMBus command 0x05 (R112) -/
  | smbErrorCodes
  /-- SEAL: 1 is written to FEAT_CTRL.SEAL (R131) -/
  | seal
  /-- REGISTER_WRITE: a write of size bytes at an offset of the physical function's BAR0 (R425) -/
  | registerWrite (w : Window) (size : Nat) (val : W64)
  /-- ETU_TIME_LATCH: a read of ETU_TIME_LO (R29) -/
  | etuTimeLatch
  /-- XCYC_LATCH: a read of CLK_XCYC_LOn (R62) -/
  | xcycLatch (n : Nat)
  /-- SREF_LATCH: a read of CV_LINKk_SREF_LO (R372) -/
  | srefLatch (k : Nat)
  /-- CAP_READ: a read of ETU_CAP_HIn (R49) -/
  | capRead (n : Nat)
  /-- MIN_CLR: 1 is written to MON_PAT_STATn.MIN_CLR (R69) -/
  | minClr (n : Nat)
  /-- OCC_CLR: EVX_OCC_CLR clears one occurrence counter (R204) -/
  | occClr (id : Nat)
  /-- OCC_CLR_ROW: EVX_OCC_CLR with bit 31 clears the row of an ID (R204) -/
  | occClrRow (id : Nat)
  /-- HOSTEV_ADD: EVX_HOSTEV_CMD with OP 0 (R201) -/
  | hostevAdd (evc : Nat)
  /-- HOSTEV_SET: EVX_HOSTEV_CMD with OP 1; the adds of the same NCLK cycle (R202) -/
  | hostevSet (evc : Nat) (adds : List W32)
  /-- REF_CFG_WRITE: a write to ETU_REF_CFGn (R434) -/
  | refCfgWrite (n : Nat) (val : W32)
  /-- TIME_RESET: ETU command 0x1 (R52) -/
  | timeReset
  /-- FORCE_HOLDOVER: ETU command 0x2 (R52) -/
  | forceHoldover
  /-- KEEP_REF: ETU command 0x3 (R52) -/
  | keepRef
  /-- CLEAR_SUSPECT: ETU command 0x4 (R35) -/
  | clearSuspect (n : Nat)
  /-- RELEASE_HOLDOVER: ETU command 0x5 (R52) -/
  | releaseHoldover
  /-- PTP_MEAS: ETU_PTP_MEAS_HI is written: the measurement commits (R443) -/
  | ptpMeas (hi : W32)
  /-- TOD_SEC: ETU_TOD_SEC_HI is written: the second commits (R34) -/
  | todSec (hi : W32)
  /-- PPS_PULSE: a rising edge on PPS_IN (R443) -/
  | ppsPulse
  /-- REF_QUALIFIED: input n has met its criterion for QUAL_S seconds (R34) -/
  | refQualified (n : Nat)
  /-- REF_CRITERION_LOST: input n stops meeting its criterion (R34) -/
  | refCriterionLost (n : Nat)
  /-- ENTER_LOCKED: the lock conditions have held for 16 s (R31) -/
  | enterLocked
  /-- PULL_IN_DONE: the phase error is within 100 Tc after pull-in (R32) -/
  | pullInDone
  /-- HOLD_EXPIRED: HOLD_LIMIT seconds of HOLDOVER have elapsed (R33) -/
  | holdExpired
  /-- DRIFT_WINDOW: a 16 s window ends; each qualified input's measured frequency in ppb against TCLK (R38) -/
  | driftWindow (freq : List (Nat × Int))
  /-- DIE_UNSYNCED: the timing lane of I/O die d loses alignment (R54) -/
  | dieUnsynced (d : Nat)
  /-- DIE_REALIGN: the master realigns the slave count of die d (R54) -/
  | dieRealign (d : Nat)
  /-- TRIG_ARM: ETU_TRIG_CTRLn is written with ARM = 1 (R44) -/
  | trigArm (n : Nat) (ctrl : W32)
  /-- TRIG_DISARM: ETU_TRIG_CTRLn is written with ARM = 0 (R47) -/
  | trigDisarm (n : Nat) (ctrl : W32)
  /-- TRIG_FIRE: the comparators whose time the count has reached fire in one cycle (R45, R50) -/
  | trigFire (ns : List Nat)
  /-- CAPTURE_EDGE: an edge of a capture source, coded as ETU_CAP_CFGn.SRC (R49) -/
  | captureEdge (src : Nat) (rising : Bool)
  /-- EXCURSION: the first cycle below the floor frequency of instance n (R59) -/
  | excursion (n : Nat)
  /-- PATINA_SAMPLE: monitor m samples its slack in per cent (R69) -/
  | patinaSample (m slack : Nat)
  /-- PATINA_CRIT_TICK: a millisecond under CRIT for instance n; the tries of a VOUT_COMMAND left without acknowledgement (R70) -/
  | patinaCritTick (c : CritTick)
  /-- MARGIN_FAIL: instance n stayed below CRIT_PCT at 0.85 V for 10 ms (R70) -/
  | marginFail (n : Nat)
  /-- PATINA_RECOVERY_TICK: 100 ms of clean samples for instance n (R70) -/
  | patinaRecoveryTick (n : Nat)
  /-- JD_WINDOW: a window of jitter and duty monitor n ends (R71) -/
  | jdWindow (n jitter duty : Nat) (ppm : Int)
  /-- JD_LOSS: the clock that monitor n watches is lost (R71) -/
  | jdLoss (n : Nat)
  /-- CAP_RAMP_TICK: 100 SCLK cycles of a cap ramp of instance n (R84) -/
  | capRampTick (n : Nat)
  /-- STEP_ADMIT: the ledgers are tested for the first waiting step (R82) -/
  | stepAdmit
  /-- SETPOINT_STEP: a millisecond of the move to the fused setpoint; the tries left without acknowledgement (R79) -/
  | setpointStep (naks : Nat)
  /-- PMBUS_STATUS_POLL: the 1 ms read of STATUS_WORD; the tries left without acknowledgement (R80) -/
  | pmbusStatusPoll (naks : Nat)
  /-- PMBUS_TELEMETRY_POLL: the 10 ms read of READ_VOUT or READ_IOUT; the tries left without acknowledgement (R80) -/
  | pmbusTelemetryPoll (naks : Nat)
  /-- VR_ALERT: VR_ALERT_N changes (R80) -/
  | vrAlert (asserted : Bool)
  /-- TJ_UPDATE: TJ_MAX is updated, signed (R93, R444) -/
  | tjUpdate (t : Byte)
  /-- THERMTRIP: the condition of THERMTRIP_N is tested (R94) -/
  | thermtrip
  /-- PFW_N_LOW: PFW_N has been low for 3 SCLK cycles (R87) -/
  | pfwNLow
  /-- SHED: PWR_CMD 0x1 (R87) -/
  | shed
  /-- SHED_RAMP_STEP: an interval of the shedding ramp ends (R87) -/
  | shedRampStep
  /-- RESUME: PWR_CMD 0x2 (R90) -/
  | resume
  /-- OUTPUT_ENABLE: an enable condition begins to hold: 0 to 11 Ethernet ports, 16 to 21 links, 32 the host port,
  33 SPI and the TAP (R91) -/
  | outputEnable (ifc : Nat)
  /-- OUTPUT_DISABLE: a disable condition holds for an interface (R91) -/
  | outputDisable (ifc : Nat)
  /-- PROBE_BURST: the 100 ms probe burst of port p (R92) -/
  | probeBurst (p : Nat)
  /-- SUBMIT: a SUBMIT record commits on a function's doorbell page (R144) -/
  | submit (fn page : Nat) (producer gen : W32)
  /-- CANCEL: a CANCEL record commits on a function's doorbell page (R155) -/
  | cancel (fn page target : Nat)
  /-- POLL_READ: ring r reads its doorbell record (R143) -/
  | pollRead (r : Nat)
  /-- DESCRIPTOR_FETCH: the next announced descriptor of ring r is fetched (R145) -/
  | descriptorFetch (r : Nat)
  /-- GRANT: the ring arbiter makes one grant (R148) -/
  | grant
  /-- ADMIN_TAKE: Ezdan takes the next admin descriptor (R135) -/
  | adminTake
  /-- RING_SETUP: the admin descriptor taken executes as RING_SETUP (R138) -/
  | ringSetup
  /-- RING_TEARDOWN: as RING_TEARDOWN (R157) -/
  | ringTeardown
  /-- RING_RESET: as RING_RESET (R159) -/
  | ringReset
  /-- EVC_ASSIGN: as EVC_ASSIGN (R136) -/
  | evcAssign
  /-- XLT_CTX_SET: as XLT_CTX_SET (R215) -/
  | xltCtxSet
  /-- XLT_INVALIDATE: as XLT_INVALIDATE (R220) -/
  | xltInvalidate
  /-- VF_LIMITS: as VF_LIMITS (R136) -/
  | vfLimits
  /-- PEER_CFG: as PEER_CFG (R122) -/
  | peerCfg
  /-- RING_ADMIN_CTRL: RING_ADMIN_CTRL.EN is written (R139) -/
  | ringAdminCtrl (mask : Byte)
  /-- RING_ADMIN_RESET: RING_ADMIN_RESET is written (R161) -/
  | ringAdminReset (mask : Byte)
  /-- NOP: the unit u of a class executes NOP (R167) -/
  | nop (cls u : Nat)
  /-- WAIT: it executes WAIT (R171) -/
  | wait (cls u : Nat)
  /-- WAIT_PASS: its blocked WAIT passes (R171) -/
  | waitPass (cls u : Nat)
  /-- SIGNAL: it executes SIGNAL (R172) -/
  | signal (cls u : Nat)
  /-- SIGNAL_LOCAL: it executes SIGNAL_LOCAL (R173) -/
  | signalLocal (cls u : Nat)
  /-- TVC_RUN: RX unit u executes TVC_RUN (R284) -/
  | tvcRun (u : Nat)
  /-- TMU_RUN: RX unit u executes TMU_RUN (R287) -/
  | tmuRun (u : Nat)
  /-- MQ_BIND: RX unit u executes MQ_BIND (R309) -/
  | mqBind (u : Nat)
  /-- RA_BIND: the oldest run-ahead list of ring r that has not bound executes RA_BIND (R185) -/
  | raBind (r : Nat)
  /-- LDPC_DEC: CD unit u executes LDPC_DEC (R321) -/
  | ldpcDec (u : Nat)
  /-- HARQ_ENTRY_TAKE: CD unit u takes the HARQ entry it waits for (R332) -/
  | harqEntryTake (u : Nat)
  /-- LDPC_ENC: CD unit u executes LDPC_ENC (R327) -/
  | ldpcEnc (u : Nat)
  /-- POLAR_DEC: CD unit u executes POLAR_DEC (R328) -/
  | polarDec (u : Nat)
  /-- POLAR_ENC: CD unit u executes POLAR_ENC (R328) -/
  | polarEnc (u : Nat)
  /-- HARQ_FREE: CD unit u executes HARQ_FREE (R335) -/
  | harqFree (u : Nat)
  /-- PA_MATMUL: array a executes PA_MATMUL (R249) -/
  | paMatmul (a : Nat)
  /-- PA_CONV: array a executes PA_CONV (R253) -/
  | paConv (a : Nat)
  /-- PA_STORE: array a executes PA_STORE (R250) -/
  | paStore (a : Nat)
  /-- PA_REDUCE_F: array a executes PA_REDUCE_F (R251) -/
  | paReduceF (a : Nat)
  /-- PA_ACCUM_X: array a executes PA_ACCUM_X (R252) -/
  | paAccumX (a : Nat)
  /-- PA_COLLECT: array a runs its batch, or meets PA_COLLECT outside one (R258) -/
  | paCollect (a : Nat)
  /-- HOLD_EXPIRE: the hold timer of collector c expires (R256) -/
  | holdExpire (c : Nat)
  /-- PREEMPT_HANDOVER: array a reaches a block boundary with a radio segment queued (R263) -/
  | preemptHandover (a : Nat)
  /-- PREEMPT_RESUME: the preempted segment of array a resumes (R194) -/
  | preemptResume (a : Nat)
  /-- TE_CYCLE: planner core c executes TE_CYCLE (R388) -/
  | teCycle (c : Nat)
  /-- PLANNING_CYCLE_START: line 16 + c has fired for the waiting TE_CYCLE; the ranks whose searches end before the next event (R398) -/
  | planningCycleStart (c upto : Nat)
  /-- SEARCH_BOUND: the search in progress reaches 500 000 cycles; the ranks that end after it (R398) -/
  | searchBound (c upto : Nat)
  /-- FX_SECTIONS: port p executes FX_SECTIONS (R357) -/
  | fxSections (p : Nat)
  /-- FX_UPLANE: port p executes FX_UPLANE (R358) -/
  | fxUplane (p : Nat)
  /-- WINDOW_OPEN: the window of the message port p waits for is open (R357) -/
  | windowOpen (p : Nat)
  /-- CV_START: link k executes CV_START (R373) -/
  | cvStart (k : Nat)
  /-- CV_AGC: link k executes CV_AGC (R377) -/
  | cvAgc (k : Nat)
  /-- AGC_ENTRY: the count has reached the AGC entry link k waits for (R377) -/
  | agcEntry (k : Nat)
  /-- MV_COPY: mover channel ch copies one chunk (R239) -/
  | mvCopy (ch : Nat)
  /-- MV_FILL: mover channel ch fills one chunk (R239) -/
  | mvFill (ch : Nat)
  /-- SEGMENT_STOP: a segment marked to stop on a unit reaches a stop point (R178) -/
  | segmentStop (cls u : Nat)
  /-- LATE_EVENT: the count has passed the deadline of the oldest running descriptor of ring r that asks for the late event (R184) -/
  | lateEvent (r : Nat)
  /-- DESCRIPTOR_END: the oldest running descriptor of ring r that can end does so (R170) -/
  | descriptorEnd (r : Nat)
  /-- COMPLETION_WRITE: the next completion of ring r is handed to the host port (R150) -/
  | completionWrite (r : Nat)
  /-- MSIX_MESSAGE: the moderation conditions of vector v hold (R210) -/
  | msixMessage (v : Nat)
  /-- CROSSBAR_ARRIVAL: the inputs whose arrivals reach the crossbar in one cycle, one entry for each arrival (R195, R199) -/
  | crossbarArrival (inputs : List Nat)
  /-- EVC_PARITY: event counter n fails parity (R414) -/
  | evcParity (n : Nat)
  /-- HEDGEROW_UE: an uncorrectable Hedgerow header error (R415) -/
  | hedgerowUe (router : Nat)
  /-- D2D_RETRY: a flit of die-to-die link d is replayed; whether its replays exceed 1000 in a millisecond (R416) -/
  | d2dRetry (d : Nat) (many : Bool)
  /-- D2D_DOWN: die-to-die link d is declared DOWN (R417) -/
  | d2dDown (d : Nat)
  /-- WAIT_STUCK: the WAIT of a unit has blocked for WAIT_MS ms (R418) -/
  | waitStuck (cls u : Nat)
  /-- ERR_RETIRE_CMD: ERR_RETIRE_CMD is written (R421) -/
  | errRetireCmd (typ idx : Nat)
  /-- LOG_FLASH_COPY: Ezdan copies the next log entry to flash; whether the flash write succeeds (R423) -/
  | logFlashCopy (ok : Bool)
  /-- SCRUB: the scrubber reads the unit of an HBM offset (R224) -/
  | scrub (unit off : Nat)
  /-- LAY_INV_HANDLE: LAY_INV is written with ALL = 0 (R234) -/
  | layInvHandle (ctx handle : Nat)
  /-- LAY_INV_ALL: LAY_INV is written with ALL = 1 (R234) -/
  | layInvAll (ctx : Nat)
  /-- LAY_INV_DONE: the layout invalidation finishes (R234) -/
  | layInvDone
  /-- PEER_INBOUND: a peer request: a write of data, or a read of len bytes (R226) -/
  | peerInbound (die addr : Nat) (data : Option (List Byte)) (len : Nat)
  /-- PUBLISH: MQ_PUB_CMD PUBLISH (R305) -/
  | publish (func table sfn sf : Nat)
  /-- WITHDRAW: MQ_PUB_CMD WITHDRAW (R308) -/
  | withdraw (entry : Nat)
  /-- PUBLISH_DONE: the publish in progress finishes (R306) -/
  | publishDone
  /-- PORT_UP: port p gains block lock with its lanes enabled (R342) -/
  | portUp (p : Nat)
  /-- PORT_DOWN: port p loses lock or its ECLK (R342) -/
  | portDown (p : Nat)
  /-- RESTART: FH_PORTp_CMD.RESTART is written (R342) -/
  | restart (p : Nat)
  /-- FRAME_RECEIVE: a frame arrives on port p, from its destination address, without FCS: 0 sound, 1 with a bad check sequence, 2 with an uncorrectable FEC codeword; 3 a request to verify frame preemption, 4, 5 and 6 the first, a middle and the last fragment of a preempted frame (R362); whether the steering FIFO is full (R343) -/
  | frameReceive (p check : Nat) (fifoFull : Bool) (bytes : List Byte)
  /-- RX_WINDOW_CLOSE: the receive window of a symbol closes (R351) -/
  | rxWindowClose (c sfn slot sym : Nat)
  /-- ADMISSION_OPEN: the first slot boundary of carrier c at which the conditions hold (R346) -/
  | admissionOpen (c : Nat)
  /-- PLACEMENT_EFFECT: a slot boundary of carrier c with a written placement (R349) -/
  | placementEffect (c : Nat)
  /-- EGRESS_GRANT: the wire of port p is free (R361) -/
  | egressGrant (p : Nat)
  /-- CP_CANCEL_SECTION: FH_CP_CANCEL with one section (R363) -/
  | cpCancelSection (c sfn slot sec : Nat)
  /-- CP_CANCEL_ALL: FH_CP_CANCEL with ALL (R363) -/
  | cpCancelAll (c sfn slot : Nat)
  /-- TQ_TRANSMIT: the device takes a host PTP queue transmit entry (R367) -/
  | tqTransmit
  /-- LINK_SYNC: the R111 conditions are tested for link k (R370) -/
  | linkSync (k : Nat)
  /-- SYSREF_EDGE: a SYSREF edge on link k (R372) -/
  | sysrefEdge (k : Nat)
  /-- LANE_LOCK: every configured lane of link k has locked (R370) -/
  | laneLock (k : Nat)
  /-- CONVERTER_START: output line k fires (R373) -/
  | converterStart (k : Nat)
  /-- LINK_LOSS: a loss condition of R371 holds for link k (R371) -/
  | linkLoss (k : Nat)
  /-- NR_SYMBOL: the samples of a symbol are complete, per stream (R374) -/
  | nrSymbol (k sfn slot sym : Nat) (samples : List (List (Int × Int)))
  /-- TX_SYMBOL: the header-read time of a transmit symbol (R384) -/
  | txSymbol (k sfn slot sym : Nat)
  /-- STS_WINDOW: an STS window of link k ends; its power in 1/16 dBFS (R378) -/
  | stsWindow (k : Nat) (power : Int)
  /-- START_DETECTION: the STS autocorrelation has held; the window's power in 1/16 dBFS and the data symbols of the captured burst received before it (R381) -/
  | startDetection (k : Nat) (power : Int) (symsBefore : Nat)
  /-- BURST_DETECTED: the LTS peak; the power and the frequency estimate in 2^-16 of the spacing (R381) -/
  | burstDetected (k : Nat) (power cfo : Int)
  /-- BURST_END: the capture ends; its erased and clipped data symbols and the symbols received (R383) -/
  | burstEnd (k : Nat) (erased clipped : List Nat) (syms : Nat)
  /-- LISTEN_EXPIRE: the LISTEN window of link k expires (R381) -/
  | listenExpire (k : Nat)
  /-- CV_PROF_LOAD: CV_PROF_LOAD is written (R379) -/
  | cvProfLoad (p : Nat)
  /-- DMA_DONE: the oldest DMA of TVC v of tile t completes (R282) -/
  | dmaDone (t v : Nat)
  /-- TVC_RUNAWAY: its TVC_RUN has run 600 000 cycles (R286) -/
  | tvcRunaway (t v : Nat)
  /-- TVC_NOP: TVC v of tile t: opcode 0x00 in a slot, 0 scalar, 1 vector, 2 L0, 3 L1 (R280) -/
  | tvcNop (t v slot : Nat)
  /-- LI: LI sd, imm (R280) -/
  | tvcLi (t v sd imm : Nat)
  /-- LIH: LIH sd, imm (R280) -/
  | tvcLih (t v sd imm : Nat)
  /-- ADD: ADD (R280) -/
  | tvcAdd (t v sd sa sb : Nat)
  /-- SUB: SUB (R280) -/
  | tvcSub (t v sd sa sb : Nat)
  /-- ADDI: ADDI (R280) -/
  | tvcAddi (t v sd sa imm : Nat)
  /-- AND: AND (R280) -/
  | tvcAnd (t v sd sa sb : Nat)
  /-- OR: OR (R280) -/
  | tvcOr (t v sd sa sb : Nat)
  /-- SHL: SHL (R280) -/
  | tvcShl (t v sd sa sb : Nat)
  /-- SHR: SHR (R280) -/
  | tvcShr (t v sd sa sb : Nat)
  /-- LOOP: LOOP (R280) -/
  | tvcLoop (t v sa body imm : Nat)
  /-- BNZ: BNZ (R281) -/
  | tvcBnz (t v sa imm : Nat)
  /-- MOVP: MOVP (R280) -/
  | tvcMovp (t v pt sa : Nat)
  /-- SETRM: SETRM (R276) -/
  | tvcSetrm (t v imm : Nat)
  /-- RDCYC: RDCYC (R280) -/
  | tvcRdcyc (t v sd : Nat)
  /-- DMA: DMA (R282) -/
  | tvcDma (t v sa : Nat)
  /-- DMAW: DMAW (R280) -/
  | tvcDmaw (t v : Nat)
  /-- END: END (R284) -/
  | tvcEnd (t v : Nat)
  /-- VADD: VADD (R280) -/
  | tvcVadd (t v : Nat) (o : VOperands)
  /-- VSUB: VSUB (R280) -/
  | tvcVsub (t v : Nat) (o : VOperands)
  /-- VCMUL: VCMUL (R280) -/
  | tvcVcmul (t v : Nat) (o : VOperands)
  /-- VMAG: VMAG (R280) -/
  | tvcVmag (t v : Nat) (o : VOperands)
  /-- VSTA: VSTA (R276) -/
  | tvcVsta (t v : Nat) (o : VOperands)
  /-- VRCP: VRCP (R280) -/
  | tvcVrcp (t v : Nat) (o : VOperands)
  /-- VMOV: VMOV (R280) -/
  | tvcVmov (t v : Nat) (o : VOperands)
  /-- VBCST: VBCST (R280) -/
  | tvcVbcst (t v : Nat) (o : VOperands)
  /-- VMAX: VMAX (R280) -/
  | tvcVmax (t v : Nat) (o : VOperands)
  /-- VMIN: VMIN (R280) -/
  | tvcVmin (t v : Nat) (o : VOperands)
  /-- VCLIP: VCLIP (R280) -/
  | tvcVclip (t v : Nat) (o : VOperands)
  /-- VPACK8: VPACK8 (R280) -/
  | tvcVpack8 (t v : Nat) (o : VOperands)
  /-- CSEL: CSEL (R295) -/
  | tvcCsel (t v : Nat) (o : VOperands)
  /-- LD: LD (R278) -/
  | tvcLd (t v : Nat) (o : MOperands)
  /-- ST: ST (R278) -/
  | tvcSt (t v : Nat) (o : MOperands)
  /-- LDB: LDB (R278) -/
  | tvcLdb (t v : Nat) (o : MOperands)
  /-- REF_CRITERION_MET: input n begins to meet its criterion (R35) -/
  | refCriterionMet (n : Nat)
  /-- PFW_N_RELEASE: PFW_N returns high (R87) -/
  | pfwNRelease
  /-- COMPLETION_TIMEOUT: a read request of the device reaches its completion timeout (R442) -/
  | completionTimeout (src : TimeoutSource)
  /-- AIR_TIME_END: the air time of a symbol ends while link k is in RESET (R371) -/
  | airTimeEnd (k sfn slot sym : Nat)
  /-- MSIX_UNMASK: the host unmasks an entry of a function's MSI-X table (R127) -/
  | msixUnmask (fn entry : Nat)
  /-- TCK_EDGE: an edge of TCK with the levels of TMS and TDI (R97) -/
  | tckEdge (tms tdi : Bool)
  deriving DecidableEq, Repr

end Sys2Proof
end

