-- ==== Sys2Proof/Config.lean ====
section
/-! DEFINITION. What the spec leaves open or takes from documents outside it: constants without a body.
Nothing in Lean can evaluate them, so a statement that holds of the model holds for every value of them.
Each is named in the assumption log. -/
namespace Sys2Proof.Config

/-- What a byte of a device memory holds that nothing has written since its contents became undefined
(R89, R100, R441): memory kind, loss epoch, address (log entry 5). -/
opaque freeByte : Nat → Nat → Nat → Byte
/-- What a byte of host or peer memory holds that the state does not list (log entry 6): space, address. -/
opaque outsideByte : Nat → Nat → Byte
/-- A value the spec does not state, by choice number (log entry 4). -/
opaque freeNat : Nat → Nat
/-- A value the spec does not state of an operation that R180 makes a function of its inputs: which value, its inputs
(log entry 4). -/
opaque freeFor : Nat → List Nat → Nat
/-- Whether a flash program or erase fails or outlasts its bound (R105), by choice number. -/
opaque flashFails : Nat → Bool
/-- What verification finds in a slot whose bytes have changed (R101): choice number ↦ certificate, signature, SVN,
names the core die. -/
opaque imageVerdict : Nat → Bool × Bool × Nat × Bool
/-- Whether HCLK of the host port completes a cycle at the n-th TCLK edge; domains have no phase relation (R55). -/
opaque hclkEdge : Nat → Bool
/-- Whether SCLK completes a cycle at the n-th TCLK edge (R55). -/
opaque sclkEdge : Nat → Bool
/-- The frequency in MHz that the local supply of XCLK instance i allows at the n-th TCLK edge (R56). -/
opaque supplyFreq : Nat → Nat → Nat
/-- Whether the device keeps using a cached page-table entry (R219): choice number, context, entry address. -/
opaque keepsEntry : Nat → Nat → Nat → Bool
/-- Whether a write whose later page faults has already been made in its i-th page (R213): choice number, page. -/
opaque earlierWritten : Nat → Nat → Bool
/-- What a byte of host memory holds after a poisoned TLP has written it (R408): choice number, address. -/
opaque hostPoison : Nat → Nat → Byte
/-- Whether the device keeps using a cached layout descriptor (R233): choice number, context, handle. -/
opaque keepsLayout : Nat → Nat → Nat → Bool
/-- The silicon stepping in GLB_IDENT (R429, fused). -/
opaque silicon : BitVec 8
/-- The vendor ID (R123 names it without a value). -/
opaque vendorId : BitVec 16
/-- A configuration-space word the spec does not lay out: function, register, choice number (R119, R123). -/
opaque configWord : Nat → Nat → Nat → W32
/-- The data a peer device returns to a configuration request (R136 PEER_CFG): die, segment, request, choice. -/
opaque peerConfig : Nat → Nat → Nat → Nat → W64
/-- The TAP's IDCODE (R97; the BSDL files are not in the spec). -/
opaque idcode : W32
/-- Length of the TAP's instruction register (R97; BSDL). -/
opaque irLength : Nat
/-- The TAP instruction a shifted-in code selects: 0 BYPASS, 1 IDCODE, 2 SAMPLE/PRELOAD, 3 EXTEST (R97; BSDL). -/
opaque irSelects : List Bool → Nat
/-- Length of the boundary register by assembly (R97; BSDL). -/
opaque boundaryLength : Nat → Nat
/-- What a ball reads into its boundary cell (R97): tick, cell. -/
opaque ballLevel : Nat → Nat → Bool
/-- The output interface a boundary cell drives, for R91: cell ↦ interface number (R97; BSDL). -/
opaque cellInterface : Nat → Nat
/-- TS 38.212 base graphs, cited by R320 and not in the spec: base graph (0 for BG1), lifting set, row ↦ the
columns of the row with their shifts. -/
opaque baseGraphRow : Nat → Nat → Nat → List (Nat × Nat)
/-- The hard decision of a posterior of 0 (R323 does not say). -/
opaque hardZero : Bool
/-- Which of the two iterations R324 allows is written under ET = 1: choice number, block ↦ the later one. -/
opaque etTakesLater : Nat → Nat → Bool
/-- The polar sequence of TS 38.212 Table 5.3.1.2-1, cited by R328 and not in the spec: place, from the least reliable ↦
bit index below 1024. -/
opaque polarSeq : Nat → Nat
/-- The interleaving pattern of TS 38.212 Table 5.3.1.1-1, cited by R328: place below 164 ↦ place. -/
opaque polarIl : Nat → Nat
/-- The paths that list decoding keeps (R318, whose arithmetic neither R328 nor TS 38.212 gives), best first: list size, N,
the positions of the information and parity-check bits, those of the latter, the LLRs of the N coded bits (none: known to be
0) ↦ the information bits of each path, with its metric in 2^-16. -/
opaque polarPaths : Nat → Nat → List Nat → List Nat → List (Option Int) → List (List Bool × Nat)
/-- The fixed tree in which an array adds 128 products (R243): the size of the left part of the subtree of n leaves that
begins at a leaf, and a key that orders the leaves. -/
opaque treeLeft : Nat → Nat → Nat
/-- See treeLeft. -/
opaque treeLeaf : Nat → Nat
/-- The order in which PA_REDUCE_F adds its regions for one element (R251): choice number, element ↦ a key that
orders the regions. -/
opaque reduceKey : Nat → Nat → Nat → Nat
/-- Espalier's sine table of 65 536 entries per turn, in 2^-32 (R393 gives its form and not its entries). -/
opaque sinTable : Nat → Int
/-- 2^48 / (2π) as Espalier's arithmetic rounds it, for the yaw that an arc turns (R393 gives no format for it). -/
opaque turnScale : Int
/-- R395 gives the path search of MODE = SMOOTH no tie rule: the trajectory at time scale f (0 to 3 for 1, 3/4, 1/2, 1/4)
with its derived stop, as (x, y, yaw, v) per sample in the units of Pose, from parameter record, robot record, start
pose, scale, choice number; none when there is no path. -/
opaque smoothPlan : List Byte → List Byte → List Int → Nat → Nat → Option (List (List Int) × List (List Int))
/-- The FFT of one NR symbol (R374 calls it bit-exact and gives no algorithm): the NFFT compensated samples of the FFT
window, a subcarrier relative to DC ↦ its component. -/
opaque fft : List (Int × Int) → Int → Int × Int
/-- The inverse FFT and scaling of one transmit symbol (R384): the NPRB × 12 subcarriers centred on DC, NFFT, the scale, a
sample number ↦ the sample. -/
opaque ifft : List (Int × Int) → Nat → Nat → Nat → Int × Int
/-- The OFDM bins the burst receiver writes for a burst (R383), from link, burst number ↦ bytes. -/
opaque burstBins : Nat → Nat → Nat → Byte
/-- Clipping of a data symbol of a burst that ends before its end (R382, R383): link, burst number, symbol ↦ 0 none,
1 CV_CLIP, 2 ERASED as well. -/
opaque burstClip : Nat → Nat → Nat → Nat
/-- Where the 8 B references of R356 stand among the bytes of a section's extensions 1 and 11, whose layout is O-RAN's:
extension bytes ↦ offsets, rising. -/
opaque bfwPlaces : List Byte → List Nat
/-- The flash configuration block (R106, R122, R341), which the spec does not lay out: port ↦ word. -/
opaque flashPortCfg : Nat → W32
/-- Port addresses in the flash configuration block (R368). -/
opaque flashPortMac : Nat → BitVec 48
/-- Peer-port bifurcation mode in the flash configuration block (R122): die ↦ 0 x16, 1 x8x8, 2 x4x4x4x4. -/
opaque flashBifurcation : Nat → Nat
/-- Which of two same-cycle writers a nibble race leaves (R230) and other unordered pairs: choice number. -/
opaque raceWinner : Nat → Bool
/-- The learned frequency offset the loop follows and other loop figures the spec gives no dynamics for (R32, R37). -/
opaque loopStep : Nat → Int

end Sys2Proof.Config
end

