-- ==== Sys2Proof/Machine/Table.lean ====
section
/-! DEFINITION. Sparse tables in canonical form, bit fields of words, and little-endian byte order (R440). -/
namespace Sys2Proof.Machine

/-- The entry at index `i`, if one is listed. -/
def tblGet? {α : Type} : Tbl α → Nat → Option α
  | [], _ => none
  | (j, a) :: t, i => if i = j then some a else if i < j then none else tblGet? t i

/-- List `a` at index `i`, keeping the indices strictly rising. -/
def tblPut {α : Type} : Tbl α → Nat → α → Tbl α
  | [], i, a => [(i, a)]
  | (j, b) :: t, i, a =>
    if i < j then (i, a) :: (j, b) :: t
    else if i = j then (i, a) :: t
    else (j, b) :: tblPut t i a

/-- Unlist index `i`. -/
def tblDel {α : Type} : Tbl α → Nat → Tbl α
  | [], _ => []
  | (j, b) :: t, i => if i = j then t else (j, b) :: tblDel t i

/-- Read index `i` of a table whose unlisted indices hold `d`. -/
def tblGet {α : Type} (d : α) (t : Tbl α) (i : Nat) : α := (tblGet? t i).getD d

/-- Write index `i` of a table whose unlisted indices hold `d`: no entry equal to `d` is listed. -/
def tblSet {α : Type} [DecidableEq α] (d : α) (t : Tbl α) (i : Nat) (a : α) : Tbl α :=
  if a = d then tblDel t i else tblPut t i a

/-- Change index `i` by `f`. -/
def tblMod {α : Type} [DecidableEq α] (d : α) (t : Tbl α) (i : Nat) (f : α → α) : Tbl α :=
  tblSet d t i (f (tblGet d t i))

/-- The canonical form: indices strictly rising. -/
def tblWf {α : Type} (t : Tbl α) : Bool := (t.map (·.1)).Pairwise (· < ·)

/-- The canonical form of a table whose unlisted indices hold `d`. -/
def tblWfD {α : Type} [DecidableEq α] (d : α) (t : Tbl α) : Bool := tblWf t && t.all (fun e => e.2 ≠ d)

/-- Field [hi:lo] of a word. -/
def bits (w hi lo : Nat) : Nat := (w / 2 ^ lo) % 2 ^ (hi + 1 - lo)

/-- Bit i of a word. -/
def bitAt (w i : Nat) : Bool := (w / 2 ^ i) % 2 == 1

/-- A Bool as the bit that a register shows. -/
def b2n (b : Bool) : Nat := if b then 1 else 0

/-- The two's-complement value of the low n bits of a word. -/
def sext (n w : Nat) : Int :=
  let v := w % 2 ^ n
  if v < 2 ^ (n - 1) then (v : Int) else (v : Int) - (2 ^ n : Nat)

/-- The low n bits that hold an integer in two's complement. -/
def trunc (n : Nat) (v : Int) : Nat := (v % ((2 ^ n : Nat) : Int)).toNat

/-- The n bytes of a word, the lowest address first (R440). -/
def leBytes : Nat → Nat → List Byte
  | 0, _ => []
  | n + 1, w => BitVec.ofNat 8 w :: leBytes n (w / 256)

/-- The word that bytes hold, the lowest address first (R440). -/
def ofLe : List Byte → Nat
  | [] => 0
  | b :: t => b.toNat + 256 * ofLe t

/-- The n bytes from offset `o` of a byte list. -/
def sub (l : List Byte) (o n : Nat) : List Byte := (l.drop o).take n

/-- The 4 B word at offset `o` of a record. -/
def w32At (l : List Byte) (o : Nat) : Nat := ofLe (sub l o 4)

/-- The 8 B word at offset `o` of a record. -/
def w64At (l : List Byte) (o : Nat) : Nat := ofLe (sub l o 8)

/-- Add one to a counter that saturates at `m`. -/
def satInc (m n : Nat) : Nat := if n < m then n + 1 else m

/-- A division that rounds half to even (R236, R276). -/
def roundHalfEven (x : Int) (k : Nat) : Int :=
  let d : Int := ((2 ^ k : Nat) : Int)
  let q := x.fdiv d
  let r := x.fmod d
  if 2 * r < d then q else if d < 2 * r then q + 1 else if q % 2 = 0 then q else q + 1

/-- Limit a value to a range. -/
def clampInt (lo hi x : Int) : Int := if x < lo then lo else if hi < x then hi else x

/-- The magnitude of an integer. -/
def absInt (x : Int) : Int := if x < 0 then -x else x

/-- The words of 8 B that bytes hold. -/
def words64 (l : List Byte) : Nat → List W64
  | 0 => []
  | n + 1 => BitVec.ofNat 64 (ofLe (l.take 8)) :: words64 (l.drop 8) n

end Sys2Proof.Machine
end

