-- ==== Sys2Proof/Machine/State.lean ====
section
/-! DEFINITION. The state of the device: every register, queue, buffer, counter, mode and pin that the spec gives it,
as plain data. Things in number are sparse tables (`Tbl`) whose unlisted indices hold the default of their type, so
State.reset lists nothing. A reset value in a comment is the spec's; log entry 3 names every other. -/
namespace Sys2Proof.Machine

/-- Faults: there is none. The spec gives every command an effect in every state, so no meaning stops in a fault. -/
inductive Fault where
  deriving DecidableEq, Repr

/-- Refusals. -/
inductive Refusal where
  /-- No meaning is written yet for the row. Raised by Dispatch alone. Safe. -/
  | notModelled (mnemonic : String)
  deriving DecidableEq, Repr

/-! ### Fuses, flash, boot (chapter 5) -/

/-- Fused facts, kept by every reset (R1, R79, R101, R429). -/
structure Fuse where
  /-- GLB_IDENT.ASSY: 1 M1, 2 M2, 3 M3 -/
  assy : Nat := 3
  /-- fused security version counter -/
  svn : Nat := 0
  /-- fused VDD_CORE setpoint in mV, 700 to 780 -/
  vset : Nat := 750
  /-- SHA-384 of the root public key -/
  rootHash : BitVec 384 := 0
  lifecycle : Nat := 0
  deriving DecidableEq, Repr

/-- What verification of a flash slot finds, the four conditions of R101. -/
structure Image where
  certOk : Bool := false
  sigOk : Bool := false
  svn : Nat := 0
  namesCore : Bool := false
  deriving DecidableEq, Repr

/-- The SPI NOR flash (R101, R105, R423): unlisted bytes read 0xFF. -/
structure Flash where
  /-- the slot the header marks active: 0 A, 1 B -/
  active : Nat := 0
  imageA : Image := {}
  imageB : Image := {}
  bytesA : Tbl Byte := []
  bytesB : Tbl Byte := []
  log : Tbl Byte := []
  deriving DecidableEq, Repr

/-- Start-up (R78, R98 to R107, R419). -/
structure Boot where
  /-- PWROK is high -/
  pwrok : Bool := false
  /-- PERST# is asserted -/
  perst : Bool := true
  /-- the 7-bit address that the transactions of the board's SMBus controller name: the board's, from outside the device
  (R112, log entry 6) -/
  smbTo : Nat := 0x5A
  /-- GLB_STATUS.BOOT_STAGE -/
  stage : Nat := 0
  fwUp : Bool := false
  mapDone : Bool := false
  ready : Bool := false
  sealed : Bool := false
  /-- GLB_STATUS.FLOOR -/
  floor : Nat := 0
  /-- GLB_STATUS.FLOOR_CAP -/
  floorCap : Nat := 0
  /-- GLB_STATUS.BOOT_SLOT -/
  slot : Nat := 0
  /-- GLB_STATUS.SLOT_FALLBACK, RWS -/
  fallback : Bool := false
  /-- SVN of the running image -/
  runSvn : Nat := 0
  /-- recovery: no image verified (R102) -/
  recovery : Bool := false
  /-- lockstep failed before FW_UP: halted until cold reset (R104) -/
  halted : Bool := false
  /-- an Ezdan restart is in progress (R419) -/
  restarting : Bool := false
  /-- Ezdan is halted by a second restart within 1 s (R419) -/
  ezHalted : Bool := false
  /-- SCLK count of the last Ezdan restart -/
  lastRestart : Option Nat := none
  /-- RING_ADMIN_RESET bits written during a restart, held until it ends (R161) -/
  heldAdminReset : Nat := 0
  /-- a uncorrectable Hedgerow header error or a failed router: FLOOR_CAP is 0 (R114, R415) -/
  hedgerowBad : Bool := false
  /-- the bad state came from an error in service: the next warm reset reruns self-test (R415) -/
  hedgerowUe : Bool := false
  /-- the retirement map has been published since the last self-test that was due (R98) -/
  published : Bool := false
  /-- the capacity register GLB_CAP (R118) -/
  cap : W32 := 0
  /-- units that a Patina sample below CRIT_PCT failed during self-test, as ERR_RETIRE_CMD type and index (R113) -/
  testFailed : List (Nat × Nat) := []
  deriving DecidableEq, Repr

/-- The management mailbox (R105). -/
structure Mbox where
  busy : Bool := false
  /-- the command in progress -/
  code : Nat := 0
  /-- the result to post when it finishes -/
  due : Nat := 0
  /-- GLB_MBOX_STAT.RESULT -/
  result : Nat := 0
  /-- GLB_MBOX_DATA, 4 KiB -/
  window : Tbl Byte := []
  deriving DecidableEq, Repr

/-! ### Host link and features (chapter 6) -/

/-- One entry of the MSI-X pool (R127): reset masked. -/
structure Msix where
  addr : W64 := 0
  data : W32 := 0
  masked : Bool := true
  pending : Bool := false
  deriving DecidableEq, Repr

/-- The answer to the last configuration request (R107). -/
inductive CfgAnswer where
  | none
  /-- Configuration Request Retry Status -/
  | retry
  | data (fn : Nat) (w : W32)
  deriving DecidableEq, Repr

/-- The host port (R119, R121, R127, R442). -/
structure Link where
  trained : Bool := false
  width : Nat := 0
  gts : Nat := 0
  vfEnable : Bool := false
  numVfs : Nat := 0
  /-- Completion Timeout Value field of Device Control 2 -/
  timeoutCode : Nat := 0
  /-- Enable Relaxed Ordering, by function -/
  relaxed : Tbl Bool := []
  /-- Max_Payload_Size [7:5] and Max_Read_Request_Size [14:12] of Device Control, by function (R119) -/
  sizes : Tbl Nat := []
  /-- base address registers by function × 16 + number; VF BARs of the SR-IOV capability at 1024 + number (R123) -/
  bars : Tbl W32 := []
  /-- the MSI-X pool by entry -/
  msix : Tbl Msix := []
  /-- Function Mask of the MSI-X capability, by function -/
  fnMask : Tbl Bool := []
  answer : CfgAnswer := .none
  /-- words 0x0, 0x4 and 0x8 staged on a doorbell page, by function × 1024 + page (R143) -/
  staged : Tbl (List W32) := []
  /-- the bifurcation mode of dies 1 and 2 (R122) -/
  bifurcation : Tbl Nat := []
  /-- the configuration requests issued on peer ports, and the last one: die, segment, request type and register,
  requester data (R136) -/
  peerReqs : Nat := 0
  peerReq : Option (Nat × Nat × Nat × Nat) := none
  deriving DecidableEq, Repr

/-- The feature agreement (R129 to R131). FEAT_ACCEPT is in the register table. -/
structure Feat where
  offer : BitVec 128 := 0
  /-- FEAT_RESULT.CODE -/
  code : Nat := 0
  /-- FEAT_RESULT.BAD_BIT -/
  badBit : Nat := 0
  deriving DecidableEq, Repr

/-- VF_LIMITS of a function (R136): both default to their maximum. -/
structure Limits where
  rings : Nat := 64
  arrays : Nat := 8
  deriving DecidableEq, Repr

/-! ### Edge time (chapter 2) -/

/-- One reference input (R34, R35, R38). -/
structure RefIn where
  /-- 0 DISABLED, 1 QUALIFYING, 2 QUALIFIED, 3 SUSPECT, 4 FAILED -/
  st : Nat := 0
  /-- it meets its criterion now -/
  crit : Bool := false
  /-- SCLK cycle since which it has met the criterion without a break -/
  since : Nat := 0
  dev : Int := 0
  driftCnt : Nat := 0
  deriving DecidableEq, Repr

/-- One trigger comparator's values in use (R44 to R47); the staged ones are in the register table. -/
structure Trig where
  armed : Bool := false
  periodic : Bool := false
  die : Nat := 0
  target : Nat := 0
  cmp : W64 := 0
  period : Nat := 0
  deriving DecidableEq, Repr

/-- One capture input (R49): up to 4 timestamps, oldest first. -/
structure Cap where
  fifo : List W64 := []
  deriving DecidableEq, Repr

/-- The edge time unit. -/
structure Etu where
  /-- the master count, or the value it holds while TCLK is lost (R27, R73) -/
  count : W64 := 0
  /-- slave count less master count of dies 1 and 2 (R30) -/
  skew : Tbl Int := []
  /-- dies whose slave count is out of alignment (R54) -/
  unsynced : Tbl Bool := []
  /-- TCLK of die 0 has edges now -/
  tclkEdges : Bool := true
  /-- TCLK_LOST holds until the count load of a TIME_RESET (R73) -/
  tclkLost : Bool := false
  /-- such a TIME_RESET has come, and the transitions of Table 13 take place again (R73, R420) -/
  recovering : Bool := false
  /-- 0 FREE_RUN, 1 ACQUIRING, 2 LOCKED, 3 HOLDOVER -/
  state : Nat := 0
  pulling : Bool := false
  everLocked : Bool := false
  /-- FORCE_HOLDOVER is in force -/
  forced : Bool := false
  /-- the count has been loaded since the last TIME_RESET (R443) -/
  loaded : Bool := false
  /-- TIME_STEP_REQUIRED waits for the host (R32) -/
  stepWait : Bool := false
  timeSel : Nat := 7
  freqSel : Nat := 7
  refs : Tbl RefIn := []
  /-- inputs whose drift windows are not counted since DRIFT_AMBIGUOUS (R40) -/
  ambiguous : Tbl Bool := []
  /-- build-out offset carried by a role (R37), 0 time, 1 frequency, in 2^-16 Tc -/
  buildOut : Tbl Int := []
  /-- the last committed PTP measurement, in 2^-16 Tc -/
  lastMeas : Int := 0
  /-- what the last PPS pulse measured in the same unit, edge time less the second it marks -/
  ppsMeas : Int := 0
  /-- TAI second of the next pulse, once written (R34) -/
  tod : Option Nat := none
  /-- the committed PTP measurements of the last seconds, the oldest first: SCLK cycle, offset in 2^-16 Tc (R34) -/
  meas : List (Nat × Int) := []
  /-- the count at the last PPS pulse and at the one before, and the TAI second the last one marked -/
  ppsAt : Option W64 := none
  ppsPrev : Option W64 := none
  ppsSec : Option Nat := none
  /-- the latched count of R29 -/
  latch : W64 := 0
  trig : Tbl Trig := []
  cap : Tbl Cap := []
  deriving DecidableEq, Repr

/-! ### Clocks, monitors, power (chapters 3 and 4) -/

/-- One XCLK instance (R56 to R62). -/
structure Inst where
  run : Bool := false
  /-- current cap in MHz, 0 while stopped -/
  cap : Nat := 0
  /-- Patina has lowered the cap, which holds until its recovery (R70) -/
  held : Bool := false
  /-- heat has lowered it (R93) -/
  hot : Bool := false
  /-- a stop is under way: the cap falls to the floor before the stop step (R84 step 2) -/
  stopping : Bool := false
  /-- monitors whose last sample since the start lies below CRIT_PCT, and below WARN_PCT (R70) -/
  crit : List Nat := []
  warn : List Nat := []
  cycles : BitVec 48 := 0
  latch : BitVec 48 := 0
  /-- how far the cycle in progress has come, in 1/196608 of a cycle: a TCLK edge brings 100 for each MHz (R56) -/
  phase : Nat := 0
  /-- the millisecond that FREQ measures next: its first SCLK cycle, the cycles in it, the highest cap in it (R59) -/
  winStart : Nat := 0
  winCycles : Nat := 0
  winCap : Nat := 0
  /-- CLK_XSTATn.FREQ -/
  freq : Nat := 0
  deriving DecidableEq, Repr

/-- One Patina monitor (R69); its WARN and CRIT are status flags. -/
structure Pat where
  slack : Nat := 0
  min : Nat := 255
  deriving DecidableEq, Repr

/-- One jitter and duty monitor (R72). -/
structure Jd where
  jit : Nat := 0
  duty : Nat := 0
  src : Nat := 0
  /-- the watched clocks found lost and not yet whole again: SRC, SRC2 -/
  lostA : Bool := false
  lostB : Bool := false
  /-- with SCAN, the next window watches SRC2 -/
  second : Bool := false
  deriving DecidableEq, Repr

/-- What a step of the ledger does once admitted (R82, R84, R85). -/
inductive StepKind where
  | start (inst : Nat)
  | stop (inst : Nat)
  /-- column ramp of an array to a count -/
  | cols (array : Nat) (count : Nat)
  | fabric (on : Bool)
  deriving DecidableEq, Repr

/-- A step and its ledger value in 1/1280 A. -/
structure LedgerStep where
  kind : StepKind
  amount : Nat
  rising : Bool
  /-- admitted with the radio steps (R86) -/
  radio : Bool
  deriving DecidableEq, Repr

/-- Armature (R78 to R94). -/
structure Power where
  /-- 0 NORMAL, 1 SHEDDING, 2 SHED, 3 RESUMING -/
  shed : Nat := 0
  /-- step of Table 8 that comes next while shedding, group that comes next while resuming -/
  shedStep : Nat := 0
  /-- PFW_N is low -/
  pfw : Bool := false
  /-- VR_ALERT_N is asserted -/
  vrAlert : Bool := false
  /-- the regulator acknowledged the last PMBus transaction -/
  ack : Bool := true
  /-- SCLK cycle of the last move of the setpoint, which go no faster than one a millisecond (R70, R79) -/
  vsetAt : Option Nat := none
  /-- Armature drives the setpoint -/
  driving : Bool := false
  /-- the next telemetry read is READ_IOUT -/
  readIout : Bool := false
  /-- VDD_CORE setpoint, mV -/
  vset : Nat := 750
  /-- TJ_MAX, signed -/
  tj : Byte := 0
  tjValid : Bool := false
  /-- milliseconds since TJ_MAX was last at or above TJ_THROTTLE -/
  coolMs : Nat := 0
  /-- inference grants are held for heat (R93) -/
  thermHold : Bool := false
  /-- THERMTRIP_N is asserted -/
  thermtrip : Bool := false
  /-- the ledgers: (value, SCLK cycle of admission) -/
  rise : List (Nat × Nat) := []
  fall : List (Nat × Nat) := []
  /-- steps waiting, in request order -/
  waiting : List LedgerStep := []
  /-- Hedgerow and the SSRAM banks run -/
  fabric : Bool := false
  /-- HBM3 is in self-refresh (R87 step 10) -/
  selfRefresh : Bool := false
  /-- outputs enabled by interface (R91): 0-11 Ethernet, 16-21 links, 32 the host port, 33 SPI and the TAP -/
  outputs : Tbl Bool := []
  /-- partner power-good inputs ETHPG_n and JPG_n, same numbering -/
  powerGood : Tbl Bool := []
  /-- probe bursts sent, by port (R92) -/
  probes : Tbl Nat := []
  deriving DecidableEq, Repr

/-- The TAP of IEEE 1149.1 (R97): its controller state in that standard's numbering used here, 0 Test-Logic-Reset. -/
structure Tap where
  state : Nat := 0
  /-- 0 BYPASS, 1 IDCODE, 2 SAMPLE/PRELOAD, 3 EXTEST -/
  instr : Nat := 1
  ir : List Bool := []
  dr : List Bool := []
  /-- the update stage of the boundary register -/
  boundary : List Bool := []
  tdo : Bool := false
  deriving DecidableEq, Repr

/-! ### Rings (chapter 7) -/

/-- What a completion will carry (R150). -/
structure Outcome where
  status : Nat := 0
  result : Nat := 0
  detail : Nat := 0
  /-- DETAIL[15:8] of an RX completion, which a FLUSHED one keeps (R312) -/
  rx : Nat := 0
  varUsed : Bool := false
  fallback : Bool := false
  /-- the count at the grant; none for a descriptor never granted -/
  grant : Option W64 := none
  /-- the run whose dispatch place and in-flight place it holds until its completion is handed over (R169) -/
  place : Option Nat := none
  deriving DecidableEq, Repr

/-- Where a descriptor slot stands. -/
inductive SlotState where
  /-- accepted and waiting for the arbiter -/
  | waiting
  /-- dispatched, as the run of that number -/
  | running (run : Nat)
  /-- its outcome is decided; its completion waits for its turn -/
  | decided (o : Outcome)
  /-- a duplicate of an accepted sequence number (R145) -/
  | duplicate
  deriving DecidableEq, Repr

/-- One fetched descriptor slot (R141). -/
structure Slot where
  /-- free-running slot count k of R142 -/
  k : Nat
  seq : Nat
  kind : Nat := 0
  irq : Bool := false
  redeliver : Bool := false
  cmdLen : Nat := 0
  cmdAddr : Nat := 0
  deadline : W64 := 0
  tag : W64 := 0
  args : List W32 := []
  st : SlotState := .waiting
  /-- Maquette version entries its list bound, released when its completion is written (R306) -/
  binds : List Nat := []
  cancelLate : Bool := false
  /-- its sequence number was accepted, so that its completion has a history entry (R145, R147) -/
  accepted : Bool := true
  deriving DecidableEq, Repr

/-- One ring (R138, R145, R157, R163). -/
structure Ring where
  /-- 0 UNCONFIGURED, 1 RUNNING, 2 HALTED, 3 RESETTING -/
  st : Nat := 0
  fn : Nat := 0
  vfSlot : Nat := 0
  /-- engine class: 0 RX, 1 CD, 2 PA, 3 TE, 4 FX, 5 CV, 6 MV; 7 for an admin ring -/
  cls : Nat := 0
  /-- 0 radio-critical, 1 radio, 2 inference, 3 background -/
  prio : Nat := 0
  descBase : Nat := 0
  compBase : Nat := 0
  histBase : Nat := 0
  dbAddr : Nat := 0
  log2 : Nat := 6
  poll : Bool := false
  pollInt : Nat := 0
  inflight : Nat := 1
  vector : Nat := 0
  /-- descriptors announced, fetched and completed since RING_SETUP, not reduced modulo 2^32 -/
  producer : Nat := 0
  fetched : Nat := 0
  completed : Nat := 0
  nextSeq : Nat := 0
  accepted : Nat := 0
  dup : Nat := 0
  cancelMiss : Nat := 0
  badDb : Nat := 0
  /-- GEN last acted on in poll mode -/
  gen : Option Nat := none
  /-- marked cancels of sequence numbers not yet fetched (R156) -/
  cancels : List Nat := []
  /-- fetched slots whose completion is not written, in slot order -/
  slots : List Slot := []
  /-- flush boundary P while RESETTING (R159) -/
  flushTo : Nat := 0
  /-- an admin RING_RESET waits for this ring: the admin ring that carries it -/
  resetBy : Option Nat := none
  deriving DecidableEq, Repr

/-- The admin descriptor Ezdan executes (R135). -/
structure AdminJob where
  ring : Nat
  k : Nat
  opcode : Nat
  args : List W32
  /-- the count when Ezdan took it, its grant (R149) -/
  grant : Nat := 0
  /-- its hardware action has begun (R419) -/
  begun : Bool := false
  deriving DecidableEq, Repr

/-- Arbiters (R135, R148). -/
structure Arb where
  /-- ring last granted, by priority class -/
  last : Tbl Nat := []
  adminLast : Nat := 7
  admin : Option AdminJob := none
  /-- dispatches so far: the number of the next run -/
  runs : Nat := 0
  deriving DecidableEq, Repr

/-! ### Command lists (chapter 8) -/

/-- One operation of a dispatched list: its header fields, its extra words and what it fails with when reached. -/
structure ListOp where
  idx : Nat
  opc : Nat
  unit : Nat
  evc : Nat
  imm : Nat
  extra : List W64
  /-- result code of the check it fails on being reached, 0 for none (R164, R167, R168) -/
  bad : Nat := 0
  deriving DecidableEq, Repr

/-- A message that an FX operation has still to reach (R357, R358). -/
structure FxMsg where
  carrier : Nat
  /-- 0 C-plane, 1 U-plane -/
  plane : Nat
  /-- DIR: 0 uplink, 1 downlink -/
  dir : Nat
  sfn : Nat
  slot : Nat
  sym : Nat
  /-- eAxC table entry -/
  eaxc : Nat
  sections : List Nat
  /-- C-plane: the section entries with the bytes of their extensions -/
  entries : List (List Byte × List Byte) := []
  /-- U-plane: where the PRBs stand in the tile buffer, the first PRB and their number -/
  tile : Nat := 0
  addr : Nat := 0
  prb : Nat := 0
  num : Nat := 0
  deriving DecidableEq, Repr

/-- What a CD operation read at its start: its parameter record, and the min-sum weights of its bound table by layer of
each iteration; none of them with fixed weights (R319, R323). -/
structure CdJob where
  params : List Byte := []
  weights : Option (List Nat) := none
  /-- the content of its HARQ entry as read when it took it (R332) -/
  stored : List Byte := []
  /-- a bound table was asked for and the fixed weight serves instead -/
  fallback : Bool := false
  deriving DecidableEq, Repr

/-- Where a segment stands inside its operation. -/
inductive SegPhase where
  /-- at the boundary before its next operation -/
  | ready
  /-- blocked in WAIT (R171); whether its stuck wait is already logged (R418) -/
  | blocked (stuckLogged : Bool)
  /-- inside a TVC_RUN -/
  | tvc
  /-- waiting for a HARQ entry (R332): its turn, and the key it waits for, none for every key of its function -/
  | harq (turn : Nat) (key : Option Nat) (job : CdJob)
  /-- decoding, with the entry it holds, none when nothing will be stored (R333), the flags of its record so far, and
  whether it combines with the stored values -/
  | decoding (job : CdJob) (entry : Option Nat) (flags : Nat) (combine : Bool)
  /-- sending messages (R357) -/
  | fx (msgs : List FxMsg)
  /-- waiting for a firing: converter start (R373), planning cycle (R388) -/
  | awaitLine
  /-- walking AGC entries (R377) -/
  | agc (entries : List (Nat × Nat × Nat))
  /-- a STOP waits for the symbol boundary (R385) -/
  | stopping
  /-- moved chunks of an MV operation (R239) -/
  | chunks (n : Nat)
  /-- a planning cycle is running (R398) -/
  | planning
  /-- inside a PA operation on n columns (R244, R245): the block that comes next, the stationary tile by column, and the
  64 KiB units of its accumulator rows that another function wrote before it (R247) -/
  | pa (block n : Nat) (tile : List (List Nat)) (foreign : List Nat)
  deriving DecidableEq, Repr

/-- One segment of a dispatched list (R168). -/
structure Seg where
  unit : Nat
  ops : List ListOp
  phase : SegPhase := .ready
  /-- marked to stop at the next stop point (R158, R176) -/
  stop : Bool := false
  /-- stopped, or ended -/
  ended : Bool := false
  /-- preempted on its array (R192) -/
  preempted : Bool := false
  /-- the copies of layout descriptors that its operation uses, by handle (R233) -/
  copies : List (Nat × List Byte) := []
  deriving DecidableEq, Repr

/-- Why a running list will not end normally. -/
inductive StopCause where
  | failed (status result detail unit : Nat)
  | flushed
  /-- 0 CONTRADICTED, 1 UNCONFIRMED (R189) -/
  | squashed (cause : Nat)
  | powerShed
  /-- its function was reset: no completion (R128) -/
  | discarded
  deriving DecidableEq, Repr

/-- A run-ahead binding (R185). -/
structure Binding where
  carrier : Nat
  sfn : Nat
  slot : Nat
  /-- section IDs and their predicted entries -/
  entries : List (Nat × List Byte)
  /-- staging region in SSRAM, 64 KiB units -/
  stgOff : Nat
  stgSize : Nat
  confirmed : Bool := false
  deriving DecidableEq, Repr

/-- A Maquette binding of a list (R306, R309). -/
structure TableBind where
  /-- version entry, none when unusable -/
  entry : Option Nat
  kind : Nat
  carrier : Nat
  sfn : Nat
  slot : Nat
  deriving DecidableEq, Repr

/-- One dispatched descriptor (R164 to R176). -/
structure Run where
  /-- its number in dispatch order -/
  id : Nat
  ring : Nat
  k : Nat
  seq : Nat
  fn : Nat
  cls : Nat
  prio : Nat
  deadline : W64
  redeliver : Bool
  args : List W32
  grant : W64
  lateEvt : Bool
  ra : Bool
  segs : List Seg
  /-- operations that name no unit: RA_BIND, PA_COLLECT -/
  loose : List ListOp := []
  /-- held signals: word index, counter, operand (R172) -/
  held : List (Nat × Nat × Nat) := []
  /-- totals added by SIGNAL_LOCAL (R173) -/
  locals : Tbl Nat := []
  cause : Option StopCause := none
  lateSent : Bool := false
  /-- a list of a reset function has had its binding squashed (R128, R189) -/
  squashed : Bool := false
  varUsed : Bool := false
  fallback : Bool := false
  detail : Nat := 0
  bind : Option Binding := none
  tables : List TableBind := []
  /-- 4 KiB units of tile memory the list wrote, as tile × 256 + unit (R189 step 4) -/
  tiles : List Nat := []
  /-- collect requests of a batch, in column order: (slot k, X operand, Y operand) (R257) -/
  batch : List (Nat × Nat × Nat) := []
  /-- it is a batch; PA_COLc_B and PA_COLc_C as read at its grant -/
  isBatch : Bool := false
  colB : Nat := 0
  colC : Nat := 0
  /-- the bytes of W's descriptor as read at the grant; none when the read failed with this status and result, in a
  translation fault or not -/
  colDesc : List Byte := []
  colFail : Option (Nat × Nat × Bool) := none
  /-- the request that failed a check: slot, status, result, DETAIL (R258) -/
  reqFail : Option (Nat × Nat × Nat × Nat) := none
  deriving DecidableEq, Repr

/-- Run-ahead counters (R191). -/
structure RaCount where
  confirmed : Nat := 0
  squashed : Nat := 0
  stray : Nat := 0
  /-- carrier, frame and slot whose first FX_SECTIONS has resolved (R188); frames as frameNo counts them -/
  resolved : List (Nat × Int × Nat) := []
  deriving DecidableEq, Repr

/-! ### Events (chapter 9) -/

/-- One event counter (R171, R414). -/
structure Evc where
  val : W32 := 0
  owner : Option Nat := none
  frozen : Bool := false
  deriving DecidableEq, Repr

/-- One vector's collected requests (R210), HCLK counts. -/
structure VecReq where
  n : Nat := 0
  first : Nat := 0
  lastMsg : Option Nat := none
  /-- messages sent -/
  sent : Nat := 0
  deriving DecidableEq, Repr

/-- An arrival on its way to a crossbar input (R195), with the comparator that sent it. -/
structure Arrival where
  input : Nat
  comparator : Option Nat := none
  /-- the count of which die and at which value the comparator fired -/
  die : Nat := 0
  fired : Int := 0
  deriving DecidableEq, Repr

/-- The crossbar, its counters and the interrupt collector. -/
structure Events where
  evc : Tbl Evc := []
  inFlight : List Arrival := []
  /-- firings of output lines not yet taken by their destination: line, count of its home die -/
  fired : List (Nat × Int) := []
  /-- firings not yet taken by the capture inputs whose source is the line, oldest first: line, several merged, count of
  the line's home die (R49, R199, R200) -/
  toCapture : List (Nat × Bool × Int) := []
  vec : Tbl VecReq := []
  deriving DecidableEq, Repr

/-! ### Memory (chapter 10) -/

/-- One translation context (R215, R218). -/
structure Ctx where
  en : Bool := false
  /-- it has been enabled since reset (log entry 57) -/
  wasEn : Bool := false
  root : Nat := 0
  faultAddr : Nat := 0
  faultCause : Nat := 0
  faultWrite : Bool := false
  faultValid : Bool := false
  deriving DecidableEq, Repr

/-- A cached page-table entry: context, entry address, device pages covered as (first page, pages), content (R219). -/
structure XltEntry where
  ctx : Nat
  addr : Nat
  firstPage : Nat
  pages : Nat
  word : W64
  deriving DecidableEq, Repr

/-- ECC counts of a stack or bank (R223). -/
structure EccCount where
  ce : Nat := 0
  ue : Nat := 0
  deriving DecidableEq, Repr

/-- The memories and what guards them. In the device memories an unlisted byte is undefined (Config.freeByte at the
memory's loss epoch); in host and peer memory it is Config.outsideByte. HBM is kept by stack and offset in the stack. -/
structure Memory where
  host : Tbl Byte := []
  hbm : Tbl Byte := []
  ssram : Tbl Byte := []
  peer : Tbl Byte := []
  hbmEpoch : Nat := 0
  ssramEpoch : Nat := 0
  /-- ranges of SSRAM cleared to 0 and not written since, as (offset, bytes) (R189) -/
  ssramZero : List (Nat × Nat) := []
  /-- how the host answers reads of a 4 KiB page: 0 data, 1 Unsupported Request or Completer Abort, 2 poisoned -/
  hostAnswer : Tbl Nat := []
  /-- state of the cells of a 32 B HBM unit, by its place in the stacks: 0 sound, 1 correctable, 2 uncorrectable,
  3 poisoned -/
  hbmCell : Tbl Nat := []
  /-- same, of a 64-bit SSRAM word -/
  ssramCell : Tbl Nat := []
  ecc : Tbl EccCount := []
  ueOffset : Nat := 0
  ueUnit : Nat := 0
  ctx : Tbl Ctx := []
  xlt : List XltEntry := []
  /-- cached layout descriptors: context, handle, bytes (R233) -/
  lay : List (Nat × Nat × List Byte) := []
  /-- what the last peer request got: none for Unsupported Request, the bytes of a read and whether they are marked
  poisoned (R223, R226) -/
  peerAnswer : Option (List Byte × Bool) := none
  /-- the No Snoop attribute of the last HOST access (R214) -/
  noSnoop : Bool := false
  /-- the read that the command in hand makes of the host next stays without an answer: 1 a read that is no table read,
  2 a table read; 0 when none does (R442) -/
  timesOut : Nat := 0
  /-- the invalidation in progress (R234) -/
  layInv : Option (Nat × Option Nat) := none
  deriving DecidableEq, Repr

/-! ### Plinth arrays (chapter 11) -/

/-- A column ramp that runs (R85): where it goes, the instance's cycle count at its start, its length in cycles. -/
structure Ramp where
  dest : Nat
  start : BitVec 48
  len : Nat
  deriving DecidableEq, Repr

/-- One array (R245 to R263). -/
structure Arr where
  /-- accumulators at row × 128 + column; an unlisted one is undefined -/
  acc : Tbl W32 := []
  /-- function that last wrote a 64 KiB unit -/
  owner : Tbl Nat := []
  epoch : Nat := 0
  /-- active column count, while a ramp runs the one it started from -/
  cols : Nat := 0
  /-- the ramp that runs -/
  ramp : Option Ramp := none
  /-- a ramp's step waits for its ledger -/
  asked : Bool := false
  /-- the count wanted once the ramp that runs or waits is over, and whether for radio work (R261) -/
  want : Option (Nat × Bool) := none
  /-- 0 idle, 1 inference or background, 2 radio -/
  occupant : Nat := 0
  func : Nat := 0
  /-- the run whose segment holds the array (R192, R261) -/
  holder : Option Nat := none
  preempted : Bool := false
  /-- PA_PREEMPTa -/
  handovers : Nat := 0
  /-- state of the cells of a 64-bit staging word: 0 sound, 1 correctable, 2 uncorrectable, 3 poisoned -/
  cell : Tbl Nat := []
  ce : Nat := 0
  ue : Nat := 0
  deriving DecidableEq, Repr

/-- One batch collector (R254 to R256). -/
structure Collector where
  batches : Nat := 0
  /-- HCLK cycle at which the hold timer that runs started -/
  timing : Option Nat := none
  /-- the hold has expired and the batch is pending -/
  expired : Bool := false
  deriving DecidableEq, Repr

/-! ### Receiver tiles (chapter 12) -/

/-- The registers of a TVC (R274). -/
structure TvcRegs where
  s : Tbl W32 := []
  p : Tbl (BitVec 20) := []
  o : Tbl (BitVec 20) := []
  b : Tbl (BitVec 20) := []
  l : Tbl (BitVec 20) := []
  v : Tbl (BitVec 512) := []
  a : Tbl (BitVec 1280) := []
  rmode : BitVec 4 := 0
  sat : Bool := false
  deriving DecidableEq, Repr

/-- An active loop: first and last bundle of its body, repetitions left. -/
structure LoopLevel where
  first : Nat
  last : Nat
  left : Nat
  deriving DecidableEq, Repr

/-- One tile vector core: its resident program and the bundle it executes. -/
structure Tvc where
  /-- a TVC_RUN is in progress -/
  active : Bool := false
  /-- function, PROG, LEN of the resident program -/
  progFn : Nat := 0
  prog : Nat := 0
  len : Nat := 0
  resident : Bool := false
  /-- 32-bit words of the resident program, four for each bundle -/
  words : List W32 := []
  extWr : Nat := 0
  pc : Nat := 0
  /-- slot of the bundle that executes next: 0 scalar, 1 vector, 2 L0, 3 L1 -/
  slot : Nat := 0
  /-- registers as the bundle reads them -/
  old : TvcRegs := {}
  /-- registers as the bundle leaves them -/
  new : TvcRegs := {}
  /-- vector registers written by the bundle so far, with the latency of each write -/
  wrote : List (Nat × Nat) := []
  /-- pointer-file register that a MOVP of the bundle writes -/
  moved : Option Nat := none
  /-- stores of the bundle, in slot order -/
  stores : List (Nat × List Byte) := []
  loops : List LoopLevel := []
  /-- branch or loop decision of the bundle: target bundle -/
  branch : Option Int := none
  /-- loop opened by the bundle -/
  opened : Option LoopLevel := none
  /-- body bundles a LOOP with COUNT 0 skips -/
  skip : Nat := 0
  ending : Bool := false
  /-- outstanding DMAs, oldest first: DM address of the block and its 32 bytes -/
  dmas : List (Nat × List Byte) := []
  deriving DecidableEq, Repr

/-- One receiver tile (R266 to R270). -/
structure Tile where
  /-- the tile address space; an unlisted byte is undefined -/
  mem : Tbl Byte := []
  epoch : Nat := 0
  /-- times a 4 KiB unit was left undefined by a squash (R189) -/
  unitEpoch : Tbl Nat := []
  /-- writer of a 4 KiB unit: function + 1, or 100 for ingress and converter receive, which everyone may read -/
  owner : Tbl Nat := []
  tmuFn : Option Nat := none
  /-- source of a 64 B line of the Maquette cache: context and device address (R270, R309) -/
  src : Tbl (Nat × Nat) := []
  /-- state of the cells of a 64-bit word: 0 sound, 1 correctable, 2 uncorrectable -/
  cell : Tbl Nat := []
  ce : Nat := 0
  mq : Nat := 0
  ue : Nat := 0
  /-- TILE_SATt -/
  sats : Nat := 0
  tvc0 : Tvc := {}
  tvc1 : Tvc := {}
  deriving DecidableEq, Repr

/-! ### Learned receiver (chapter 13) -/

/-- One version entry (R306). -/
structure Ver where
  /-- 0 FREE, 1 PENDING, 2 CURRENT, 3 SUPERSEDED -/
  st : Nat := 0
  func : Nat := 0
  table : Nat := 0
  kind : Nat := 0
  version : Nat := 0
  sfn : Nat := 0
  sf : Nat := 0
  inUse : Nat := 0
  len : Nat := 0
  addr : Nat := 0
  /-- publish order -/
  order : Nat := 0
  deriving DecidableEq, Repr

/-- Selector counters of a carrier (R297, R300). -/
structure SelCount where
  learned : Nat := 0
  classical : Nat := 0
  exclSlots : Nat := 0
  deriving DecidableEq, Repr

/-- A publish in progress (R305). -/
structure PubJob where
  func : Nat
  table : Nat
  sfn : Nat
  sf : Nat
  addr : Nat
  deriving DecidableEq, Repr

/-- The Maquette logic. -/
structure Maquette where
  ver : Tbl Ver := []
  published : Nat := 0
  pub : Option PubJob := none
  result : Nat := 0
  entry : Nat := 0
  sel : Tbl SelCount := []
  /-- carrier, frame and slot with EXCL set (R300) -/
  excl : List (Nat × Int × Nat) := []
  /-- the same with a symbol flagged POSSIBLE_CLIP, and with a symbol erased (R312) -/
  clipped : List (Nat × Int × Nat) := []
  erased : List (Nat × Int × Nat) := []
  /-- keys already resolved, by (function, table) (R305 PUB_LATE) -/
  bound : List (Nat × Nat × Nat) := []
  deriving DecidableEq, Repr

/-! ### Coding (chapter 14) -/

/-- One HARQ entry (R330 to R334). -/
structure Harq where
  /-- 0 FREE, 1 OPEN, 2 DECODED -/
  st : Nat := 0
  func : Nat := 0
  key : Nat := 0
  ndi : Bool := false
  tbs : Nat := 0
  bg : Nat := 0
  ncb : Nat := 0
  tx : Nat := 0
  /-- the HBM pages that hold its content (HBM offset / 4096): the soft values of the code blocks in block order (OPEN), or
  the transport block's bytes and the stored result record (DECODED) -/
  pages : List Nat := []
  /-- time of last use in SCLK cycles -/
  used : Nat := 0
  /-- pages reserved for the content that the operation in progress will commit (R333) -/
  reserved : List Nat := []
  /-- held by an operation: CD unit -/
  heldBy : Option Nat := none
  deriving DecidableEq, Repr

/-- The coding engine. -/
structure Coding where
  harq : Tbl Harq := []
  /-- operations that have come to wait for an entry -/
  turns : Nat := 0
  evict : Nat := 0
  noStore : Nat := 0
  already : Nat := 0
  drop : Nat := 0
  deriving DecidableEq, Repr

/-! ### Fronthaul (chapter 15) -/

/-- A frame queued for egress (R361). -/
structure EgFrame where
  /-- 0 C-plane, 1 U-plane, 2 PTP, 3 ESMC, 4 DELAY -/
  kind : Nat
  /-- window close, for a message -/
  close : Int := 0
  /-- when it was queued -/
  queued : Int := 0
  carrier : Nat := 0
  sfn : Nat := 0
  slot : Nat := 0
  sections : List Nat := []
  /-- run of the FX operation that queued it: ring, slot count -/
  ring : Nat := 0
  k : Nat := 0
  /-- host tag of a PTP queue entry -/
  tag : W64 := 0
  /-- bytes from the destination address -/
  bytes : List Byte := []
  deriving DecidableEq, Repr

/-- One Ethernet port (R341 to R345, R361). -/
structure Port where
  /-- block lock and FEC alignment hold -/
  lock : Bool := false
  /-- UP; DISABLED follows MODE and the retirement map -/
  up : Bool := false
  queue : List EgFrame := []
  /-- frames granted and the last one -/
  sent : Nat := 0
  lastFrame : List Byte := []
  /-- tokens used in the policers of PTP, ESMC and DELAY, in 10^-8 frame, and the SCLK cycle of the last refill -/
  used : Tbl Nat := []
  refill : Tbl Nat := []
  /-- counters of Table 8 -/
  cnt : Tbl Nat := []
  /-- transmit-timestamp ring: (host tag, time), at most 64 (R42) -/
  txTime : List (W64 × W64) := []
  /-- timestamps dropped with that ring full -/
  txDrop : Nat := 0
  /-- the fragments of a preemptable frame received so far, and the answers given to preemption verification (R362) -/
  frag : Option (List Byte) := none
  verified : Nat := 0
  deriving DecidableEq, Repr

/-- The configuration of a carrier in force (R349): the CFG and PLACE words. -/
structure Placed where
  cfg : W32 := 0
  place : W32 := 0
  deriving DecidableEq, Repr

/-- A section requested for an uplink slot (R351). -/
structure ReqSection where
  frame : Int
  slot : Nat
  sec : Nat
  stream : Nat
  startPrb : Nat
  numPrb : Nat
  startSym : Nat
  numSym : Nat
  deriving DecidableEq, Repr

/-- A part of a section of a symbol that has arrived (R351). -/
structure Piece where
  frame : Int
  slot : Nat
  sym : Nat
  sec : Nat
  stream : Nat
  startPrb : Nat
  numPrb : Nat
  deriving DecidableEq, Repr

/-- An earlier placement of a carrier (R349): it stays in force for the slots that begin before `until_`, with the
admission those slots have. -/
structure PastPlace where
  until_ : Int
  pl : Placed
  open_ : Bool
  openAt : Int
  deriving DecidableEq, Repr

/-- One carrier (R346, R349, R351). -/
structure Carrier where
  now : Placed := {}
  /-- the earlier placements, oldest first -/
  past : List PastPlace := []
  pending : Bool := false
  open_ : Bool := false
  /-- the boundary B at which admission opened (R346) -/
  openAt : Int := 0
  requested : List ReqSection := []
  arrived : List Piece := []
  /-- symbols whose arrival was sent: frame, slot, symbol -/
  announced : List (Int × Nat × Nat) := []
  /-- PRBs at maximum counted in a symbol: frame, slot, symbol, count, and whether it has POSSIBLE_CLIP (R313) -/
  maxed : List (Int × Nat × Nat × Nat × Bool) := []
  /-- symbols with POSSIBLE_CLIP -/
  clips : Nat := 0
  deriving DecidableEq, Repr

/-- Sequence fields of an eAxC entry (R359, R366): next IDs. -/
structure EaxcSeq where
  cp : Nat := 0
  up : Nat := 0
  rx : Nat := 0
  /-- a frame has set the receive expectation since the port became UP -/
  rxKnown : Bool := false
  deriving DecidableEq, Repr

/-- The ESMC PDUs of a port that the ETU has consumed (R34): their number, the SCLK cycle of the last one, its quality
level. -/
structure Esmc where
  n : Nat := 0
  at_ : Option Nat := none
  ql : Nat := 15
  deriving DecidableEq, Repr

/-- The fronthaul block. -/
structure Fronthaul where
  port : Tbl Port := []
  carrier : Tbl Carrier := []
  seq : Tbl EaxcSeq := []
  /-- FH_TQ_RX_PROD, FH_TQ_TX_CONS -/
  rxProd : Nat := 0
  txCons : Nat := 0
  /-- withdrawn: carrier, frame, slot, section or none for ALL (R363) -/
  cancels : List (Nat × Int × Nat × Option Nat) := []
  /-- ESMC PDUs consumed by the ETU, by port -/
  esmc : Tbl Esmc := []
  deriving DecidableEq, Repr

/-! ### Converters (chapter 16) -/

/-- The burst in progress on a link (R381 to R383). -/
structure Burst where
  /-- 0 idle, 1 acquiring after start detection, 2 capturing -/
  st : Nat := 0
  frozen : Bool := false
  power : Int := 0
  cfo : Int := 0
  time : W64 := 0
  code : Nat := 0
  stronger : Bool := false
  moves : Nat := 0
  /-- the time before which no STS window begins that acquisition takes, after a move (R378) -/
  quiet : Option Int := none
  /-- the profile's words, copied at the start (R379) -/
  prof : List W32 := []
  deriving DecidableEq, Repr

/-- One JESD204C link (R369 to R386). -/
structure CvLink where
  /-- 0 RESET, 1 SYNC, 2 READY, 3 RUN -/
  st : Nat := 0
  /-- CFG, LAT and AGC as read when it left RESET -/
  cfg : W32 := 0
  lat : W32 := 0
  agc : W32 := 0
  lanes : Bool := false
  sref : W64 := 0
  srefSeen : Bool := false
  srefLatch : W64 := 0
  /-- edge time of sample 0 -/
  t0 : W64 := 0
  /-- enabled sides while running: bit 0 receive, bit 1 transmit -/
  dir : Nat := 0
  /-- AGC code driven now, by channel -/
  codes : Tbl Nat := []
  /-- codes before the changes that symbols in progress still see, and those changes, oldest first: the time of the first
  sample a change governs, channel, code (R376) -/
  oldCodes : Tbl Nat := []
  changes : List (Int × Nat × Nat) := []
  /-- function of the list that started it, for its tile reads (R269, R384) -/
  fn : Nat := 0
  listening : Bool := false
  burst : Burst := {}
  bursts : Nat := 0
  /-- records written since reset -/
  records : Nat := 0
  aborted : Nat := 0
  overlap : Nat := 0
  late : Nat := 0
  mid : Nat := 0
  erased : Nat := 0
  underrun : Nat := 0
  /-- the slot in progress when the link was lost: frame, slot, and the symbols of it that have still to arrive empty
  (R371) -/
  lostSlot : Option (Int × Nat × List Nat) := none
  lastSym : Option (Nat × Nat × Nat) := none
  /-- shedding has passed and no trigger of the link has been armed since (R90) -/
  rearm : Bool := false
  /-- a one-shot comparator routed to the link has fired since it left RESET: the comparator condition stands -/
  spent : Bool := false
  /-- samples last sent to the DACs -/
  tx : List (Int × Int) := []
  deriving DecidableEq, Repr

/-- One burst profile (R379): valid, and its words and sequence table as loaded. -/
structure Prof where
  valid : Bool := false
  words : List W32 := []
  seq : List Byte := []
  deriving DecidableEq, Repr

/-- The converter block. -/
structure Converters where
  link : Tbl CvLink := []
  prof : Tbl Prof := []
  lastValid : Bool := false
  cause : Nat := 0
  deriving DecidableEq, Repr

/-! ### Espalier (chapter 17) -/

/-- A pose (R392, R393): x and y in 2^-16 mm, yaw in 2^-32 turn, v in 2^-16 mm/s. -/
structure Pose where
  x : Int := 0
  y : Int := 0
  yaw : Int := 0
  v : Int := 0
  deriving DecidableEq, Repr

/-- A robot of the cycle in progress; its rank is its place in the list (R392, R397). -/
structure Robot where
  record : List Byte
  active : Bool
  start : Pose := {}
  /-- the standing stop, one pose for each sample -/
  stop : List Pose := []
  reseeded : Bool := false
  stopOk : Bool := true
  confSample : Nat := 0
  confWith : Nat := 0
  /-- the emitted trajectory, once decided -/
  emitted : List Pose := []
  decided : Bool := false
  deriving DecidableEq, Repr

/-- One planner core (R398, R404). -/
structure Core where
  /-- 0 idle, 1 waiting for start, 2 validate, 3 plan -/
  phase : Nat := 0
  rank : Nat := 0
  func : Nat := 0
  cycles : Nat := 0
  late : Nat := 0
  conflict : Nat := 0
  poison : Nat := 0
  /-- the parameter record and the occupancy volume's descriptor as the cycle read them -/
  param : List Byte := []
  occDesc : List Byte := []
  robots : List Robot := []
  deriving DecidableEq, Repr

/-! ### Faults (chapter 18) -/

/-- One log entry (R423). -/
structure LogEntry where
  time : W64
  code : Nat
  func : Nat := 0
  ring : Nat := 0
  seq : Nat := 0
  index : Nat := 0
  arg0 : Nat := 0
  arg1 : Nat := 0
  micros : Nat := 0
  number : Nat := 0
  deriving DecidableEq, Repr

/-- A die-to-die link (R416, R417). -/
structure D2d where
  degraded : Bool := false
  down : Bool := false
  retry : Nat := 0
  deriving DecidableEq, Repr

/-- Error reporting. -/
structure Errors where
  /-- RAM log, by n mod 256 -/
  log : Tbl LogEntry := []
  head : Nat := 0
  /-- entries Ezdan has still to copy to flash -/
  toFlash : List Nat := []
  /-- number of the last entry copied to flash since cold reset, plus 1 -/
  flashNext : Nat := 0
  d2d : Tbl D2d := []
  strayDb : Nat := 0
  presealDb : Nat := 0
  /-- ERR_EVC_PAR: the counter and VALID -/
  evcPar : Nat := 0
  evcParValid : Bool := false
  /-- uncorrectable errors of a unit since cold reset, by type × 256 + index -/
  ueCount : Tbl Nat := []
  deriving DecidableEq, Repr

/-! ### The whole -/

/-- The device. -/
structure State where
  /-- commands that wait, first in first out -/
  pending : List Instr := []
  fuse : Fuse := {}
  flash : Flash := {}
  boot : Boot := {}
  mbox : Mbox := {}
  link : Link := {}
  feat : Feat := {}
  limits : Tbl Limits := []
  /-- stored RW, RWS and RWL words, by BAR0 byte offset; an unlisted one holds its reset value (chapter 19) -/
  regs : Tbl W32 := []
  /-- held lower words of split fields (R426), by BAR0 byte offset of the lower word -/
  held : Tbl W32 := []
  /-- status flags by flag ID (R203) -/
  flags : Tbl Bool := []
  /-- occurrence counters by flag ID (R204) -/
  occ : Tbl Nat := []
  etu : Etu := {}
  inst : Tbl Inst := []
  pat : Tbl Pat := []
  jd : Tbl Jd := []
  power : Power := {}
  tap : Tap := {}
  ring : Tbl Ring := []
  arb : Arb := {}
  runs : List Run := []
  ra : RaCount := {}
  ev : Events := {}
  mem : Memory := {}
  arr : Tbl Arr := []
  col : Tbl Collector := []
  tile : Tbl Tile := []
  mq : Maquette := {}
  ce : Coding := {}
  fh : Fronthaul := {}
  cv : Converters := {}
  core : Tbl Core := []
  err : Errors := {}
  /-- retirement map by ERR_RETIRE_CMD type × 256 + index (R115) -/
  retired : Tbl Bool := []
  /-- the bytes the last SMBus command returned (R112) -/
  smb : List Byte := []
  /-- the word the last latching read returned (R29, R49, R62, R372) -/
  readOut : W32 := 0
  /-- TCLK edges that have passed on an empty queue (log entry 2), and cycles of SCLK and HCLK among them -/
  tick : Nat := 0
  sclk : Nat := 0
  hclk : Nat := 0
  /-- the model's own counter of free choices (log entry 4) -/
  choice : Nat := 0
  deriving DecidableEq, Repr

/-- The device after a cold reset with power good still low: every field at the reset value of its register. -/
def State.reset : State := {}

end Sys2Proof.Machine
end

