-- ==== Sys2Proof/Machine/Registers.lean ====
section
/-! DEFINITION. The stored fields of the setup registers: for each word of the physical function's BAR0 which bits
software sets (RW), which of them survive a warm reset (RWS), which lock at the seal (RWL), and the reset value
(R7, R428, R438 and the register tables of the chapters). -/
namespace Sys2Proof.Machine

/-- Masks of one 32-bit word: bits software sets, the RWS ones and the RWL ones among them; its reset value. -/
structure RegSpec where
  rw : Nat := 0
  rws : Nat := 0
  rwl : Nat := 0
  reset : Nat := 0
  deriving DecidableEq, Repr

/-- A word software sets whole or in part. -/
def rwReg (mask reset : Nat) : RegSpec := { rw := mask, reset := reset }

/-- A word whose settable bits survive a warm reset. -/
def rwsReg (mask reset : Nat) : RegSpec := { rw := mask, rws := mask, reset := reset }

/-- A word whose settable bits lock at the seal. -/
def rwlReg (mask reset : Nat) : RegSpec := { rw := mask, rwl := mask, reset := reset }

/-- Offset `o` lies in the group of `count` instances at `first` with stride `stride` (R428 Table 1). -/
def inGrp (o first stride count : Nat) : Bool := first ≤ o && o < first + stride * count

/-- GLB_ (R429 Table 2). -/
def specGlb (o : Nat) : RegSpec :=
  if inGrp o 0x48 4 4 then rwReg 0xFFFFFFFF 0 else {}

/-- FEAT_ (R431 Table 4). -/
def specFeat (o : Nat) : RegSpec :=
  if inGrp o 0x10 4 4 then rwlReg 0xFFFFFFFF 0 else {}

/-- RING_ (R432 Table 5): the fields of the admin ring entries (R138 Table 1). -/
def specRing (o : Nat) : RegSpec :=
  if !inGrp o 0 0x40 8 || 0x28 ≤ o % 0x40 then {}
  else if o % 0x40 = 0x10 then rwReg 0x1FFF1F 0
  else if o % 0x40 = 0x14 then rwReg 0x7FFFFFF 0
  else rwReg 0xFFFFFFFF 0

/-- EVX_ (R433 Table 6; fields of chapter 9). -/
def specEvx (o : Nat) : RegSpec :=
  if o = 0 then rwReg 0xFFFFFFFF 0
  else if inGrp o 0x400 4 128 then rwReg 0xFFFFFFFF 0
  else if inGrp o 0x600 4 128 then rwReg 0x7FF 0
  else if inGrp o 0x800 4 16 then rwReg 0x800007FF 0
  else if inGrp o 0x1000 4 2048 then rwReg 0xFFFF0FFF 0 -- see R210 Table 5: HOLD [11:0], CNT [19:16], GAP [31:20]
  else if inGrp o 0x4000 4 4096 then rwReg 0x80FF8FFF 0
  else {}

/-- Default priorities of the reference inputs, with QUAL_S 10 (R34 Table 14, R434 Table 8). -/
def refCfgReset : Nat → Nat
  | 0 => 0x0A000520
  | 1 => 0x0A000410
  | 2 => 0x0A0001F0
  | 3 => 0x0A0002F0
  | 4 => 0x0A0003F0
  | _ => 0x0A000FF0

/-- ETU_ (R434 Tables 7 to 9). -/
def specEtu (o : Nat) : RegSpec :=
  if o = 0x08 then rwsReg 0xFFFFFFFF 0
  else if o = 0x10 then { rw := 0x00FFFF03, rws := 0x00FFFF02, rwl := 0x1, reset := 0x000A6400 }
  else if o = 0x1C then rwsReg 0xFFFFFFFF 0
  else if inGrp o 0x100 0x10 6 then
    if (o - 0x100) % 0x10 = 0 then rwsReg 0xFF0F0FF3 (refCfgReset ((o - 0x100) / 0x10)) else {}
  else if inGrp o 0x200 8 12 then rwsReg 0xFFFF 0
  else if inGrp o 0x1000 0x20 64 then
    match (o - 0x1000) % 0x20 with
    | 0x0 => rwReg 0xFFFFFFFF 0
    | 0x4 => rwReg 0xFFFFFFFF 0
    | 0x8 => rwReg 0xFFFFFFFF 0
    | 0xC => rwReg 0xFFFF 0
    | 0x10 => rwReg 0x0FFF000E 0
    | _ => {}
  else if inGrp o 0x2000 0x10 32 then
    if (o - 0x2000) % 0x10 = 0 then rwReg 0x33FF 0 else {}
  else {}

/-- PWR_ (R435 Table 10; R94 Table 10). -/
def specPwr (o : Nat) : RegSpec :=
  if o = 0x00 then rwReg 0xFFFF 0x5F30
  else if o = 0x14 then rwReg 0x7F 0x40
  else if o = 0x18 then rwlReg 0xFFFFFF 0
  else if o = 0x1C then rwsReg 0x7F 0x5A
  else {}

/-- MON_JD_CFGn after reset (R71 Tables 23, 24). -/
def jdCfgReset (n : Nat) : Nat :=
  if n < 3 then 0x05190001 + n
  else if n < 9 then 0x0A320004 + (n - 3)
  else if n < 15 then 0x0A322000 + (0x0A + 2 * (n - 9)) + (0x0B + 2 * (n - 9)) * 256
  else 0x0A320000

/-- MON_ (R436 Table 11). -/
def specMon (o : Nat) : RegSpec :=
  if o = 0x04 then rwReg 0xFFFF 0x040A
  else if inGrp o 0x400 8 16 then
    if (o - 0x400) % 8 = 0 then rwReg 0x0FFF3F1F (jdCfgReset ((o - 0x400) / 8)) else {}
  else {}

/-- ERR_ (R424 Table 9). -/
def specErr (o : Nat) : RegSpec :=
  if o = 0x10 then rwReg 0x1FFF 0x0710
  else if o = 0x18 then rwReg 0xFFFF 0
  else {}

/-- MEM_ (R237 Table 9). -/
def specMem (o : Nat) : RegSpec :=
  if o = 0x00 then rwlReg 0x3 0
  else if o = 0x08 then rwReg 0xFF 24
  else {}

/-- XLT_: the peer windows (R226 Table 4). -/
def specXlt (o : Nat) : RegSpec :=
  if inGrp o 0x2000 0x20 16 then
    match (o - 0x2000) % 0x20 with
    | 0x00 => rwlReg 0x3F0F 0x0C00
    | 0x08 => rwlReg 0xFFFFF000 0
    | 0x0C => rwlReg 0xFFFFFFFF 0
    | 0x10 => rwlReg 0xFFFFF000 0
    | 0x14 => rwlReg 0xFFFFFFFF 0
    | 0x18 => rwlReg 0xFFFFF000 0
    | 0x1C => rwlReg 0xFFFF 0
    | _ => {}
  else {}

/-- LAY_: the layout tables of the contexts (R229, R237 Table 9). -/
def specLay (o : Nat) : RegSpec :=
  if inGrp o 0 0x10 64 then
    match o % 0x10 with
    | 0x0 => rwReg 0xFFFFFFFF 0
    | 0x4 => rwReg 0xFFFF 0
    | 0x8 => rwReg 0x1FFFF 0
    | _ => {}
  else {}

/-- PA_: the collectors (R265 Table 6). -/
def specPa (o : Nat) : RegSpec :=
  if inGrp o 0 0x10 64 then
    match o % 0x10 with
    | 0x0 => rwReg 0xFFF783FF 0
    | 0x4 => rwReg 0xFFFBFFFF 0
    | 0x8 => rwReg 0x1FFF 0
    | _ => {}
  else {}

/-- CE_ (R340 Table 9). -/
def specCe (o : Nat) : RegSpec :=
  if o = 0x00 then rwReg 0xFF7F 0xC014
  else if o = 0x10 || o = 0x14 then rwlReg 0xFFFFFFFF 0
  else if o = 0x18 then rwReg 0xFFFF 100
  else if inGrp o 0x100 8 64 then (if (o - 0x100) % 8 = 0 then rwReg 0xFFFFFFFF 0 else {})
  else {}

/-- One word of a carrier group (R349 Table 7). -/
def specCarrier (w : Nat) : RegSpec :=
  if w = 0x00 then rwReg 0x1FF3FFFF 0
  else if w = 0x04 then rwReg 0xFFFFFFFF 0
  else if w = 0x08 then rwReg 0xFFFFFFFF 0
  else if w = 0x0C then rwReg 0xFFFF 0
  else if 0x10 ≤ w && w ≤ 0x2C then rwReg 0xFFFFFF 0
  else {}

/-- FH_ (R368 Table 7; FH_CLIP of R313 Table 8). -/
def specFh (o : Nat) : RegSpec :=
  if inGrp o 0 0x20 12 then
    let p := o / 0x20
    match o % 0x20 with
    | 0x00 => { rw := 0x3FFF001F, rwl := 0xF, reset := 1500 * 2 ^ 16 + (Config.flashPortCfg p).toNat % 16 }
    | 0x0C => rwReg 0x177FFF 0x177000
    | 0x10 => rwReg 0xFFFFFFFF ((Config.flashPortMac p).toNat % 2 ^ 32)
    | 0x14 => rwReg 0xFFFF ((Config.flashPortMac p).toNat / 2 ^ 32)
    | _ => {}
  else if o = 0x400 || o = 0x408 then rwReg 0xFFFFFFFF 0
  else if o = 0x404 || o = 0x40C then rwReg 0xFFFF 0
  else if o = 0x410 then rwReg 0x3FF 0
  else if o = 0x418 || o = 0x41C then rwReg 0xFFF 0
  else if inGrp o 0x3000 8 128 then (if o % 8 = 0 then rwReg 0x101FF 8 else {})
  else if inGrp o 0x4000 0x40 128 then specCarrier (o % 0x40)
  else if inGrp o 0x8000 8 2048 then (if o % 8 = 0 then rwReg 0x9FFFFFFF 0 else {})
  else {}

/-- One word of a converter link group (R386 Table 5). -/
def specLink (w : Nat) : RegSpec :=
  if w = 0x00 then rwReg 0x7F7F77FF 0
  else if w = 0x04 || w = 0x08 then rwReg 0xFFFFFF 0
  else if w = 0x0C then rwReg 0xFFFFFFFF 0
  else if w = 0x20 then rwReg 0xFFFFFFFF (16 * 2 ^ 16 + 32767)
  else if w = 0x24 then rwReg 0xFFFF0FFF 0x242000C4
  else if w = 0x28 then rwReg 0xF0F3F 0
  else if 0x40 ≤ w && w < 0x60 then rwReg 0xFFFFFFFF 0
  else if 0x80 ≤ w && w < 0xC0 then rwReg 0xFFFF 0x400
  else if w = 0xC0 then rwReg 0xFFFFFFFF 0x19
  else if w = 0xC4 then rwReg 0x3F3F 0
  else if w = 0xC8 then rwReg 0xFFFFF 0
  else {}

/-- CV_ (R386 Table 5). -/
def specCv (o : Nat) : RegSpec :=
  if inGrp o 0 0x100 6 then specLink (o % 0x100)
  else if inGrp o 0x1000 0x20 4 then
    match o % 0x20 with
    | 0x00 => rwReg 0xFF1FFFFF 0
    | 0x04 => rwReg 0xFFFFFF 0
    | 0x08 => rwReg 0xFFFFFFFF 0
    | 0x0C => rwReg 0xFFFF 0
    | 0x10 => rwReg 0xFF 160
    | _ => {}
  else {}

/-- MQ_ (R317 Table 8). -/
def specMq (o : Nat) : RegSpec :=
  if o = 0x00 then rwReg 0x3F0F7F 0x200439
  else if o = 0x10 then rwReg 0xFFFFFFFF 0
  else if o = 0x14 then rwReg 0xFFFF 0
  else {}

/-- The specification of the word at a BAR0 offset; a word that stores nothing has no mask (R124 Table 2). -/
def regSpec (off : Nat) : RegSpec :=
  let o := off % 0x10000
  match off / 0x10000 with
  | 0x0 => specGlb o
  | 0x1 => specFeat o
  | 0x2 => specRing o
  | 0x3 => specEvx o
  | 0x4 => specEtu o
  | 0x5 => specPwr o
  | 0x7 => specMon o
  | 0x8 => specErr o
  | 0x9 => specMem o
  | 0xA => specXlt o
  | 0xB => specLay o
  | 0xC => specPa o
  | 0xE => specCe o
  | 0xF => specFh o
  | 0x10 => specCv o
  | 0x12 => specMq o
  | _ => {}

/-- The lower word of a field that two words hold (R426). -/
def splitLow (off : Nat) : Bool :=
  let o := off % 0x10000
  match off / 0x10000 with
  | 0x2 => inGrp o 0 0x40 8 && [0x00, 0x08, 0x18, 0x20].contains (o % 0x40)
  | 0x4 => inGrp o 0x1000 0x20 64 && [0x0, 0x8].contains (o % 0x20)
  | 0xA => inGrp o 0x2000 0x20 16 && [0x08, 0x10, 0x18].contains (o % 0x20)
  | 0xB => inGrp o 0 0x10 64 && o % 0x10 = 0
  | 0xF => (inGrp o 0 0x20 12 && o % 0x20 = 0x10) || o = 0x400 || o = 0x408
      || (inGrp o 0x4000 0x40 128 && o % 0x40 = 0x08)
  | 0x10 => inGrp o 0x1000 0x20 4 && o % 0x20 = 0x08
  | 0x12 => o = 0x10
  | _ => false

/-- The stored word at a BAR0 offset: the value in effect of the bits that software sets. -/
def reg (s : State) (off : Nat) : Nat :=
  match tblGet? s.regs off with
  | some w => w.toNat
  | none => (regSpec off).reset

/-- Field [hi:lo] of a stored word. -/
def fld (s : State) (off hi lo : Nat) : Nat := bits (reg s off) hi lo

/-- The 64-bit value of two stored words. -/
def reg64 (s : State) (off : Nat) : Nat := reg s off + reg s (off + 4) * 2 ^ 32

/-- Store a word; a word at its reset value is not listed. -/
def putReg (s : State) (off w : Nat) : State :=
  { s with regs := if w = (regSpec off).reset then tblDel s.regs off else tblPut s.regs off (BitVec.ofNat 32 w) }

/-- Replace the bits of `old` that `mask` has by those of `new`. -/
def mergeMask (old new mask : Nat) : Nat := Nat.land new mask + Nat.land old (Nat.xor 0xFFFFFFFF mask)

/-- Write a word by its masks: bits that are reserved or read-only keep, RWL bits only before the seal (R7, R8, R438). -/
def mergeReg (s : State) (off val : Nat) : State :=
  let sp := regSpec off
  let m := if s.boot.sealed then Nat.xor sp.rw sp.rwl else sp.rw
  if m = 0 then s else putReg s off (mergeMask (reg s off) val m)

/-- The stored words after a warm reset: RWS bits keep, all others return to reset (R7, R428). -/
def warmRegs (s : State) : Tbl W32 :=
  s.regs.filterMap fun e =>
    let sp := regSpec e.1
    let w := mergeMask sp.reset e.2.toNat sp.rws
    if w = sp.reset then none else some (e.1, BitVec.ofNat 32 w)

end Sys2Proof.Machine
end

