-- ==== Sys2Proof/Machine/Flags.lean ====
section
/-! DEFINITION. Status flags, their occurrence counters, and the interrupt requests they make (R203 to R211). -/
namespace Sys2Proof.Machine

/-- The function that owns an entry of the MSI-X pool: entries 32k to 32k + 31 pass to virtual function k while VF
Enable is 1 (R127). -/
def poolOwner (s : State) (v : Nat) : Nat :=
  if s.link.vfEnable && 32 ≤ v && v / 32 ≤ s.link.numVfs then v / 32 else 0

/-- The entry is masked, by itself or by the Function Mask of its owner (R127). -/
def vecMasked (s : State) (v : Nat) : Bool := (tblGet {} s.link.msix v).masked || tblGet false s.link.fnMask (poolOwner s v)

/-- Collect one request on a pool entry; a masked entry sets its pending bit (R206, R210). -/
def collect (s : State) (v : Nat) : State :=
  let q := tblGet {} s.ev.vec v
  let e := tblGet {} s.link.msix v
  { s with
    ev := { s.ev with vec := tblSet {} s.ev.vec v { q with n := q.n + 1, first := if q.n = 0 then s.hclk else q.first } }
    link := if vecMasked s v then { s.link with msix := tblSet {} s.link.msix v { e with pending := true } } else s.link }

/-- IDs of OCC_SAT and INT_MISROUTED (R209). -/
def idOccSat : Nat := 896
/-- ID of INT_MISROUTED (R209). -/
def idMisrouted : Nat := 897

/-- Set a flag and count the set; the counter saturates at 0xFFFF (R204). -/
def bump (s : State) (id : Nat) : State :=
  { s with flags := tblSet false s.flags id true, occ := tblMod 0 s.occ id (satInc 0xFFFF) }

/-- This set saturates the flag's counter for the first time (R204). -/
def saturates (s : State) (id : Nat) : Bool := tblGet 0 s.occ id = 0xFFFE

/-- The enable bit of a flag in EVX_IENr (R207). -/
def irqEnabled (s : State) (id : Nat) : Bool := bitAt (reg s (0x30400 + 4 * (id / 32))) (id % 32)

/-- The vector of a flag's row in EVX_IVECr (R207). -/
def rowVector (s : State) (id : Nat) : Nat := fld s (0x30600 + 4 * (id / 32)) 10 0

/-- INT_MISROUTED is set and requests its row's vector when it can be; a request that cannot is discarded and does not
set it again (R207). -/
def bumpMisrouted (s : State) : State :=
  let t := bump s idMisrouted
  if irqEnabled s idMisrouted && poolOwner s (rowVector s idMisrouted) = 0 then collect t (rowVector s idMisrouted) else t

/-- A misrouted request sets INT_MISROUTED once. When that saturates its counter, the set of OCC_SAT makes its own request,
which may be misrouted in its turn (R204, R206, R207). -/
def misrouted (s : State) : State :=
  let t := bumpMisrouted s
  if !saturates s idMisrouted then t
  else
    let t := bump t idOccSat
    if !irqEnabled t idOccSat then t
    else if poolOwner t (rowVector t idOccSat) = 0 then collect t (rowVector t idOccSat)
    else bumpMisrouted t

/-- A request of the physical function: it is discarded as misrouted on an entry of a virtual function (R207). -/
def requestPf (s : State) (v : Nat) : State :=
  if poolOwner s v = 0 then collect s v else misrouted s

/-- The request a set flag makes under R207. -/
def requestRow (s : State) (id : Nat) : State :=
  if irqEnabled s id then requestPf s (rowVector s id) else s

/-- A flag is set: the bit, the counter, OCC_SAT at a first saturation, and the requests (R203, R204, R206). -/
def setFlag (s : State) (id : Nat) : State :=
  let t := requestRow (bump s id) id
  if saturates s id then requestRow (bump t idOccSat) idOccSat else t

/-- Set several flags in turn. -/
def setFlags (s : State) (ids : List Nat) : State := ids.foldl setFlag s

/-- Set a flag when a condition holds. -/
def setFlagIf (c : Bool) (id : Nat) (s : State) : State := if c then setFlag s id else s

/-- A flag reads 1. -/
def flag (s : State) (id : Nat) : Bool := tblGet false s.flags id

/-- Software writes 1 to a flag: only the bit clears (R7, R204). -/
def clearFlag (s : State) (id : Nat) : State := { s with flags := tblSet false s.flags id false }

/-- Clear the flags of a row that a written word has 1 in, W1C (R7). -/
def clearRow (s : State) (base mask : Nat) : State :=
  { s with flags := s.flags.filter fun e => !(base ≤ e.1 && e.1 < base + 32 && bitAt mask (e.1 - base)) }

/-- The 32 bits of a flag row as its register shows them (R203). -/
def rowWord (s : State) (base : Nat) : Nat :=
  s.flags.foldl (fun w e => if e.2 && base ≤ e.1 && e.1 < base + 32 then w + 2 ^ (e.1 - base) else w) 0

/-- A request by ring `fn`'s vector: entries of the function's own table (R206, R207). -/
def requestVec (s : State) (fn v : Nat) : State :=
  if fn = 0 then requestPf s v else collect s (32 * fn + v % 32)

/-- The flags whose registers keep across a warm reset: none is RWS (R428), so every counter returns to 0 (R205). -/
def flagSurvivesWarm (_id : Nat) : Bool := false

end Sys2Proof.Machine
end

