-- ==== Sys2Proof/Machine/Ops.lean ====
section
/-! DEFINITION. Operations the whole device shares: which units exist and work, the sealed features, edge time and
radio frames, the error log, the service floors, and event counters. -/
namespace Sys2Proof.Machine

/-- What a command answers: it always goes on. -/
def done (s : State) : Host.Outcome State Fault Refusal := .next s

/-- The next free choice (log entry 4). -/
def takeChoice (s : State) : State := { s with choice := s.choice + 1 }

/-! ### Units -/

/-- Units of a type of ERR_RETIRE_CMD in the assembly (R9, R11, R424): tiles, arrays, LDPC decoders and encoders, polar
decoders and encoders, planner cores, sphere groups, SSRAM banks, HBM3 stacks, Ethernet ports, JESD204C links, peer
PCIe ports (numbered by their die, log entry 12). -/
def unitExists (s : State) (typ idx : Nat) : Bool :=
  match typ with
  | 0 => idx < 64
  | 1 => idx < 8
  | 2 => idx < 24
  | 3 => idx < 8
  | 4 => idx < 4
  | 5 => idx < 2
  | 6 => idx < 4
  | 7 => idx < 8
  | 8 => idx < 16
  | 9 => idx < 2 * s.fuse.assy
  | 10 => idx < 4 * s.fuse.assy
  | 11 => idx < 2 * s.fuse.assy
  | 12 => 1 ≤ idx && idx < s.fuse.assy
  | _ => false

/-- The unit's bit in the retirement map (R115). -/
def retired (s : State) (typ idx : Nat) : Bool := tblGet false s.retired (typ * 256 + idx)

/-- The unit is present and not retired. -/
def working (s : State) (typ idx : Nat) : Bool := unitExists s typ idx && !retired s typ idx

/-- Working units of a type below a count. -/
def workingCount (s : State) (typ n : Nat) : Nat := (List.range n).countP (working s typ)

/-- Number of retired units (R112, R115). -/
def retiredCount (s : State) : Nat := s.retired.countP (·.2)

/-- I/O die of an Ethernet port (R11). -/
def portDie (p : Nat) : Nat := p / 4

/-- I/O die of a JESD204C link (R11, R197). -/
def linkDie (k : Nat) : Nat := k / 2

/-- XCLK instance of a unit: tiles 0 to 63, arrays 64 to 71, the coding engine 72, Espalier 73 (R55). -/
def instOfType (typ idx : Nat) : Option Nat :=
  match typ with
  | 0 => some idx
  | 1 => some (64 + idx)
  | _ => none

/-- An XCLK instance of the state. -/
def instOf (s : State) (n : Nat) : Inst := tblGet {} s.inst n

/-- Change an XCLK instance. -/
def setInst (s : State) (n : Nat) (i : Inst) : State := { s with inst := tblSet {} s.inst n i }

/-- The instance never runs: its unit is retired; the coding engine and Espalier when nothing of them works (R115). -/
def instRetired (s : State) (n : Nat) : Bool :=
  if n < 64 then retired s 0 n
  else if n < 72 then retired s 1 (n - 64)
  else if n = 72 then
    workingCount s 2 24 + workingCount s 3 8 + workingCount s 4 4 + workingCount s 5 2 = 0
  else workingCount s 6 4 = 0 && workingCount s 7 8 = 0

/-- The units of an instance as ERR_RETIRE_CMD types and indices (R55, R424). -/
def instUnits (n : Nat) : List (Nat × Nat) :=
  if n < 64 then [(0, n)]
  else if n < 72 then [(1, n - 64)]
  else if n = 72 then
    (List.range 24).map (fun i => (2, i)) ++ (List.range 8).map (fun i => (3, i))
      ++ (List.range 4).map (fun i => (4, i)) ++ (List.range 2).map (fun i => (5, i))
  else (List.range 4).map (fun i => (6, i)) ++ (List.range 8).map fun i => (7, i)

/-! ### Features -/

/-- Bit b is in the sealed set (R129, R132). -/
def feat (s : State) (b : Nat) : Bool := s.boot.sealed && bitAt (reg s (0x10010 + 4 * (b / 32))) (b % 32)

/-! ### Edge time (R6, R28) -/

/-- Tc in one radio frame. -/
def frameTc : Int := 19660800

/-- The GNSS epoch in edge time. -/
def gpsEpoch : Int := 621212111339520000

/-- FRAME_OFFSET, signed. -/
def frameOfs (s : State) : Int := sext 32 (reg s 0x40008)

/-- The master count as an integer. -/
def now (s : State) : Int := s.etu.count.toNat

/-- The count of an I/O die. While the die is synchronised the model's slave count is the master count; R30 allows a
difference of up to 2 Tc (DESIGN CHOICE, log entry 13). -/
def dieCount (s : State) (d : Nat) : Int :=
  if d = 0 then now s else now s + tblGet 0 s.etu.skew d

/-- Frames from the GNSS epoch to the frame an instant lies in. -/
def frameNo (s : State) (t : Int) : Int := (t - frameOfs s - gpsEpoch).fdiv frameTc

/-- System frame number of an instant. -/
def sfnAt (s : State) (t : Int) : Nat := ((frameNo s t).emod 1024).toNat

/-- Tc since the frame boundary of an instant. -/
def inFrame (s : State) (t : Int) : Nat := ((t - frameOfs s - gpsEpoch).fmod frameTc).toNat

/-- Subframe of an instant, 0 to 9. -/
def subframeAt (s : State) (t : Int) : Nat := inFrame s t / 1966080

/-- Slots in a frame at numerology μ (TS 38.211). -/
def slotsPerFrame (mu : Nat) : Nat := 10 * 2 ^ mu

/-- Tc of a slot at numerology μ. -/
def slotTc (mu : Nat) : Nat := 1966080 / 2 ^ mu

/-- Slot in frame of an instant at numerology μ. -/
def slotAt (s : State) (mu : Nat) (t : Int) : Nat := inFrame s t / slotTc mu

/-- The frame that an SFN names: of those with that SFN the one nearest to now (SFNs repeat every 10.24 s). -/
def absFrame (s : State) (sfn : Nat) : Int :=
  let f := frameNo s (now s)
  let d := ((sfn : Int) - f).emod 1024
  f + (if d < 512 then d else d - 1024)

/-- Start of a slot in frame of an SFN. -/
def slotStart (s : State) (mu sfn slot : Nat) : Int :=
  absFrame s sfn * frameTc + gpsEpoch + frameOfs s + (slot * slotTc mu : Nat)

/-- Start of a symbol from the slot start: 14 symbols with the normal cyclic prefix of TS 38.211, in Tc. A symbol lasts
(2048 + 144) · 64 / 2^μ Tc, and each symbol 0 or 7 · 2^μ of a subframe lasts 16 · 64 Tc more. -/
def symbolOfs (mu slot sym : Nat) : Nat :=
  let body := 2192 * 64 / 2 ^ mu
  let first := (slot % 2 ^ mu) * 14
  let long := (List.range sym).countP fun i => (first + i) % (7 * 2 ^ mu) = 0
  sym * body + long * 1024

/-- End of a symbol's air time. -/
def symbolEnd (s : State) (mu sfn slot sym : Nat) : Int :=
  slotStart s mu sfn slot + symbolOfs mu slot (sym + 1)

/-- A deadline has passed at the master count; 0 is no deadline (R51). -/
def late (s : State) (deadline : W64) : Bool := deadline ≠ 0 && deadline.toNat < s.etu.count.toNat

/-- The ETU condition of radio service (R110, R116): LOCKED, HOLDOVER after a lock, FREE_RUN with LAB_FREERUN. -/
def etuServes (s : State) : Bool :=
  s.etu.state = 2 || (s.etu.state = 3 && s.etu.everLocked) || (s.etu.state = 0 && bitAt (reg s 0x40010) 0)

/-- The first condition of R110 for U-plane admission: LOCKED, LOCKED before and now HOLDOVER, or LAB_FREERUN, which acts
in FREE_RUN alone, since Table 12 has admission closed in ACQUIRING (log entry 15). -/
def etuAdmits (s : State) : Bool := etuServes s && !s.etu.tclkLost

/-- The first condition of R110 as R111 takes it for converter links, which Table 12 does not speak of: LAB_FREERUN holds
in every state (R370, log entry 15). -/
def etuFirst (s : State) : Bool :=
  (s.etu.state = 2 || (s.etu.state = 3 && s.etu.everLocked) || bitAt (reg s 0x40010) 0) && !s.etu.tclkLost

/-! ### The error log (R423) -/

/-- Write one entry to the RAM log; UNIT, TIMING and DEVICE entries wait for their copy to flash. -/
def pushLog (s : State) (e : LogEntry) : State :=
  let n := s.err.head
  let e := { e with time := s.etu.count, micros := s.sclk / 100 % 2 ^ 32, number := n % 65536 }
  let c := e.code / 4096
  { s with err := { s.err with
      log := tblPut s.err.log (n % 256) e
      head := n + 1
      toFlash := if c = 3 ∨ c = 4 ∨ c = 5 then s.err.toFlash ++ [n] else s.err.toFlash } }

/-- An entry without a descriptor: code, INDEX, ARG0, ARG1. -/
def logEvent (s : State) (code index arg0 arg1 : Nat) : State :=
  pushLog s { time := 0, code := code, index := index, arg0 := arg0, arg1 := arg1 }

/-- A CORRECTED counter of a unit counted once more: each 256th count makes an entry (R423 Table 8). -/
def corrected (s : State) (typ idx count : Nat) : State :=
  if count % 256 = 0 && count ≠ 0 then logEvent s 0x0101 idx typ count else s

/-- The bytes of a log entry (R423 Table 7). -/
def logBytes (e : LogEntry) : List Byte :=
  leBytes 8 e.time.toNat ++ leBytes 4 (e.code + e.func * 2 ^ 16 + e.ring * 2 ^ 22) ++
  leBytes 4 (e.seq + e.index * 2 ^ 16) ++ leBytes 4 e.arg0 ++ leBytes 4 e.arg1 ++ leBytes 4 e.micros ++
  leBytes 4 e.number

/-! ### Service floors (R114, R116, R118) -/

/-- Working tiles of a quadrant. -/
def quadTiles (s : State) (q : Nat) : Nat := (List.range 16).countP fun i => working s 0 (16 * q + i)

/-- w of R118: working tiles in quadrants that have at least 4. -/
def capTiles (s : State) : Nat :=
  (List.range 4).foldl (fun a q => if 4 ≤ quadTiles s q then a + quadTiles s q else a) 0

/-- Die-to-die link d is DOWN (R417). -/
def d2dDown (s : State) (d : Nat) : Bool := (tblGet {} s.err.d2d d).down

/-- FLOOR_CAP from the working units (R114, R116 Table 9). -/
def floorCapOf (s : State) : Nat :=
  if s.boot.hedgerowBad || s.boot.hedgerowUe || d2dDown s 0 || workingCount s 9 6 = 0 || workingCount s 1 8 = 0 then 0
  else if (List.range 4).any (fun q => 4 ≤ quadTiles s q) && 2 ≤ workingCount s 2 24 && 1 ≤ workingCount s 3 8
      && 1 ≤ workingCount s 10 12 + workingCount s 11 6 then 2
  else 1

/-- FLOOR at the moment (R116 Table 9, R419). -/
def floorOf (s : State) : Nat :=
  if s.boot.ezHalted || !s.boot.ready || s.boot.floorCap = 0 then 0
  else if s.boot.floorCap = 2 && etuServes s then 2 else 1

/-- FLOOR follows its conditions; a change sets FLOOR_CHANGED (R116). -/
def updateFloor (s : State) : State :=
  let f := floorOf s
  if f = s.boot.floor then s else setFlag { s with boot := { s.boot with floor := f } } 1

/-- GLB_CAP (R118). -/
def capOf (s : State) : Nat :=
  let w := capTiles s
  let d := workingCount s 2 24
  let e := workingCount s 3 8
  let h := workingCount s 9 6
  let p := workingCount s 10 12 + workingCount s 11 6
  let a := s.fuse.assy
  let scale (t : Nat) : Nat :=
    if s.boot.floorCap < 2 then 0
    else min (min (min (t * w / 64) (t * d / 24)) (min (t * e / 8) (t * h / (2 * a)))) (t * p / (6 * a))
  scale (6 * a) + scale (24 * a) * 2 ^ 8 + w * 2 ^ 16 + d * 2 ^ 24

/-- Firmware writes GLB_CAP and recomputes FLOOR_CAP and FLOOR (R116, R118, R422 step 5). -/
def recap (s : State) : State :=
  if s.boot.mapDone then
    let s := { s with boot := { s.boot with floorCap := floorCapOf s } }
    updateFloor { s with boot := { s.boot with cap := BitVec.ofNat 32 (capOf s) } }
  else s

/-- Every register block answers: firmware runs, not the recovery service, and die 0's link is up (R102, R417, R427). -/
def served (s : State) : Bool := s.boot.fwUp && !s.boot.recovery && !d2dDown s 0

/-- The FEAT_ and ERR_ blocks answer: also when die 0's link is down (R417). -/
def servedIo (s : State) : Bool := s.boot.fwUp && !s.boot.recovery

/-! ### Event counters (R171, R174, R199, R202, R414) -/

/-- An event counter. -/
def evc (s : State) (n : Nat) : Evc := tblGet {} s.ev.evc n

/-- Put an event counter. -/
def setEvc (s : State) (n : Nat) (e : Evc) : State := { s with ev := { s.ev with evc := tblSet {} s.ev.evc n e } }

/-- Add to a counter modulo 2^32; a frozen counter discards the add (R414). -/
def evcAdd (s : State) (n : Nat) (v : W32) : State :=
  let e := evc s n
  if e.frozen then s else setEvc s n { e with val := e.val + v }

/-- Set a counter, which restores valid parity, and then add that cycle's adds (R202, R414). -/
def evcSet (s : State) (n : Nat) (v : W32) (adds : List W32) : State :=
  setEvc s n { evc s n with val := adds.foldl (· + ·) v, frozen := false }

/-- The counter satisfies a WAIT on a target (R171). -/
def evcReached (s : State) (n : Nat) (imm : Nat) : Bool :=
  ((evc s n).val - BitVec.ofNat 32 imm).toNat < 2 ^ 31

/-- An arrival starts on its way to a crossbar input (R195, R198). -/
def arrive (s : State) (input : Nat) : State :=
  { s with ev := { s.ev with inFlight := s.ev.inFlight ++ [{ input := input }] } }

/-! ### Bytes of the device memories -/

/-- A byte of HBM; one that nothing has written since the contents became undefined is free (R100, R441). -/
def hbmByte (s : State) (a : Nat) : Byte := (tblGet? s.mem.hbm a).getD (Config.freeByte 1 s.mem.hbmEpoch a)

/-- A byte of SSRAM. -/
def ssramByte (s : State) (a : Nat) : Byte :=
  (tblGet? s.mem.ssram a).getD
    (if s.mem.ssramZero.any (fun z => z.1 ≤ a && a < z.1 + z.2) then 0 else Config.freeByte 2 s.mem.ssramEpoch a)

/-- A byte of host memory at a bus address. -/
def hostByte (s : State) (a : Nat) : Byte := (tblGet? s.mem.host a).getD (Config.outsideByte 0 a)

/-- Key of a byte behind a peer port. -/
def peerKey (die a : Nat) : Nat := die * 2 ^ 64 + a

/-- A byte of peer memory behind the port of a die. -/
def peerByte (s : State) (die a : Nat) : Byte :=
  (tblGet? s.mem.peer (peerKey die a)).getD (Config.outsideByte die a)

/-- n bytes from an address through a byte read. -/
def bytesAt (f : Nat → Byte) (a n : Nat) : List Byte := (List.range n).map fun i => f (a + i)

/-- List bytes from an address. -/
def putBytes (t : Tbl Byte) (a : Nat) : List Byte → Tbl Byte
  | [] => t
  | b :: rest => putBytes (tblPut t a b) (a + 1) rest

/-- Unlist a range of a table: its contents become undefined. -/
def dropRange {α : Type} (t : Tbl α) (a n : Nat) : Tbl α := t.filter fun e => !(a ≤ e.1 && e.1 < a + n)

end Sys2Proof.Machine
end

