-- ==== Sys2Proof/Machine/Radio.lean ====
section
/-! DEFINITION. What closes and resets the radio side: tile-buffer writes by ingress and converters, slot areas and
status blocks (R292, R350), admission (R110, R346), converter links entering RESET (R371), burst records (R383). -/
namespace Sys2Proof.Machine

/-- A receiver tile. -/
def tileOf (s : State) (t : Nat) : Tile := tblGet {} s.tile t

/-- Put a receiver tile. -/
def setTile (s : State) (t : Nat) (x : Tile) : State := { s with tile := tblSet {} s.tile t x }

/-- A byte of a tile's address space; one never written is free (R269, R441). -/
def tileByte (s : State) (t a : Nat) : Byte :=
  (tblGet? (tileOf s t).mem a).getD
    (Config.freeByte (16 + t) ((tileOf s t).epoch + 2 ^ 32 * tblGet 0 (tileOf s t).unitEpoch (a / 4096)) a)

/-- The bytes at an address of a tile are another function's (R269): of DM0, DM1 and the tile buffer those of a unit it
wrote, of the TMU accumulators all after its TMU_RUN. The Maquette cache carries no function. -/
def othersTile (s : State) (t fn a : Nat) : Bool :=
  let x := tileOf s t
  if a < 0x80000 then
    let o := tblGet 0 x.owner (a / 4096)
    o ≠ 0 && o ≠ 100 && o ≠ fn + 1
  else if a < 0x90000 then false
  else match x.tmuFn with
  | some f => f ≠ fn
  | none => false

/-- A byte of a tile as a function reads it: another function's reads 0 (R269). -/
def tileRead (s : State) (t fn a : Nat) : Byte := if othersTile s t fn a then 0 else tileByte s t a

/-- Mark the 4 KiB units of a range as last written by an agent (R269). -/
def ownUnits (o : Tbl Nat) (a n who : Nat) : Tbl Nat :=
  if n = 0 then o
  else (List.range ((a + n - 1) / 4096 + 1 - a / 4096)).foldl (fun o i => tblPut o (a / 4096 + i) who) o

/-- A write heals the cells of the 64-bit words it covers whole; a word written in part keeps an uncorrectable error
(R270, after the rule of R225). -/
def healWords (cell : Tbl Nat) (a n : Nat) : Tbl Nat :=
  cell.filter fun e => !(a ≤ 8 * e.1 && 8 * e.1 + 8 ≤ a + n) && !(e.2 = 1 && 8 * e.1 < a + n && a < 8 * e.1 + 8)

/-- Store bytes in a tile, the writer being `who` (a function plus 1, or 100 for ingress and converter receive). -/
def tileStore (s : State) (t a : Nat) (bytes : List Byte) (who : Nat) : State :=
  let x := tileOf s t
  setTile s t { x with
    mem := putBytes x.mem a bytes
    owner := ownUnits x.owner a bytes.length who
    cell := healWords x.cell a bytes.length }

/-- Writes of ingress and converters for a retired tile are discarded (R422 Table 5). -/
def ingressStore (s : State) (t a : Nat) (bytes : List Byte) : State :=
  if working s 0 t then tileStore s t a bytes 100 else s

/-! ### Carriers and their slot areas (R349, R350) -/

/-- A carrier. -/
def carrierOf (s : State) (c : Nat) : Carrier := tblGet {} s.fh.carrier c

/-- Put a carrier. -/
def setCarrier (s : State) (c : Nat) (x : Carrier) : State :=
  { s with fh := { s.fh with carrier := tblSet {} s.fh.carrier c x } }

/-- PORT of a placement. -/
def plPort (p : Placed) : Nat := bits p.cfg.toNat 3 0
/-- QUAD. -/
def plQuad (p : Placed) : Nat := bits p.cfg.toNat 5 4
/-- MU. -/
def plMu (p : Placed) : Nat := bits p.cfg.toNat 7 6
/-- NPRB. -/
def plNprb (p : Placed) : Nat := bits p.cfg.toNat 16 8
/-- EN, with a numerology that the device supports: R5 Table 3 does not have μ = 2, so such a carrier is served as one
that is not enabled (DEDUCED, log entry 61). -/
def plEn (p : Placed) : Bool := bitAt p.cfg.toNat 17 && plMu p ≠ 2
/-- TILE_MASK. -/
def plMask (p : Placed) : Nat := bits p.place.toNat 15 0
/-- AREA. -/
def plArea (p : Placed) : Nat := bits p.place.toNat 21 16
/-- NSTREAM. -/
def plStreams (p : Placed) : Nat := bits p.place.toNat 27 22 + 1
/-- DEPTH, 0 acting as 14. -/
def plDepth (p : Placed) : Nat := let d := bits p.place.toNat 31 28; if d = 0 then 14 else d

/-- The earlier placement in force for a slot, by the slot's start under each (R349). -/
def pastOf (x : Carrier) (start : Placed → Int) : Option PastPlace := x.past.find? fun e => start e.pl < e.until_

/-- The placement in force for a slot (R349). -/
def inForce (x : Carrier) (start : Placed → Int) : Placed :=
  match pastOf x start with
  | some e => e.pl
  | none => x.now

/-- Start of the slot of an SFN under a placement. -/
def startIn (s : State) (sfn slot : Nat) (p : Placed) : Int := slotStart s (plMu p) sfn slot

/-- The placement of a carrier in force for the slot of an SFN. -/
def slotPl (s : State) (c sfn slot : Nat) : Placed := inForce (carrierOf s c) (startIn s sfn slot)

/-- The tiles of a placement, in ascending order (R350). -/
def plTiles (p : Placed) : List Nat :=
  (List.range 16).filterMap fun i => if bitAt (plMask p) i then some (16 * plQuad p + i) else none

/-- Bytes of one symbol in a tile (R350). -/
def symBytes (p : Placed) : Nat :=
  let n := max (plTiles p).length 1
  ((plStreams p + n - 1) / n * plNprb p * 48 + 63) / 64 * 64

/-- Bytes of one parity's area (R350). -/
def areaSize (p : Placed) (depth : Nat) : Nat := 64 + depth * symBytes p

/-- Tile-buffer address of an area of a slot parity. -/
def areaBase (p : Placed) (area depth par : Nat) : Nat := 0x40000 + area * 4096 + par * areaSize p depth

/-- Address of an RE (R350). -/
def reAddr (p : Placed) (area depth slot sym stream prb re : Nat) : Nat :=
  let n := max (plTiles p).length 1
  areaBase p area depth (slot % 2) + 64 + sym % depth * symBytes p + (stream / n * plNprb p + prb) * 48 + re * 4

/-- Tile of a stream (R350). -/
def streamTile (p : Placed) (stream : Nat) : Nat :=
  let ts := plTiles p
  ts.getD (stream % max ts.length 1) 64

/-- The tag a slot area header carries in a tile (R350). -/
def slotTag (s : State) (t base : Nat) : Nat := ofLe (bytesAt (tileByte s t) (base + 16) 4) % 2 ^ 17

/-- A new slot on its parity: the status block is cleared and the tag written, in every tile of the mask (R350). -/
def openSlot (s : State) (p : Placed) (sfn slot : Nat) : State :=
  let base := areaBase p (plArea p) (plDepth p) (slot % 2)
  let tag := sfn + slot * 1024
  (plTiles p).foldl (fun s t =>
    if slotTag s t base = tag then s
    else ingressStore s t base (List.replicate 16 0 ++ leBytes 4 tag)) s

/-- Set bits of a symbol's status byte in every tile of the mask; ERASED sets EXCL (R292). -/
def markSymbol (s : State) (p : Placed) (sfn slot sym v : Nat) : State :=
  let s := openSlot s p sfn slot
  let base := areaBase p (plArea p) (plDepth p) (slot % 2)
  (plTiles p).foldl (fun s t =>
    let s := ingressStore s t (base + sym) [tileByte s t (base + sym) ||| BitVec.ofNat 8 v]
    if bitAt v 2 then ingressStore s t (base + 14) [tileByte s t (base + 14) ||| 1] else s) s

/-- Add to a list without repeats. -/
def insertNew {α : Type} [DecidableEq α] (a : α) (l : List α) : List α := if l.contains a then l else l ++ [a]

/-- What the MQ_ logic keeps of a symbol's status: EXCL and its count, POSSIBLE_CLIP, ERASED (R300, R312). -/
def noteSymbol (s : State) (c sfn slot v : Nat) : State :=
  let key := (c, absFrame s sfn, slot)
  let m := s.mq
  let m := if bitAt v 1 then { m with clipped := insertNew key m.clipped } else m
  let m := if bitAt v 2 then
      let m := { m with erased := insertNew key m.erased }
      if m.excl.contains key then m
      else { m with excl := m.excl ++ [key],
                    sel := tblMod {} m.sel c fun x => { x with exclSlots := satInc 65535 x.exclSlots } }
    else m
  { s with mq := m }

/-- A symbol's status as the carrier's header and the MQ_ logic take it (R292, R300). -/
def symbolStatus (s : State) (c : Nat) (p : Placed) (sfn slot sym v : Nat) : State :=
  noteSymbol (markSymbol s p sfn slot sym v) c sfn slot v

/-! ### Admission (R110, R346) -/

/-- An Ethernet port. -/
def portOf (s : State) (p : Nat) : Port := tblGet {} s.fh.port p

/-- Put an Ethernet port. -/
def setPort (s : State) (p : Nat) (x : Port) : State := { s with fh := { s.fh with port := tblSet {} s.fh.port p x } }

/-- FH_PORTp_CFG. -/
def portCfg (s : State) (p : Nat) : Nat := reg s (0xF0000 + 0x20 * p)

/-- DISABLED (0), DOWN (1) or UP (2) (R342). -/
def portState (s : State) (p : Nat) : Nat :=
  if !working s 10 p || bits (portCfg s p) 1 0 = 0 then 0 else if (portOf s p).up then 2 else 1

/-- The die's slave count is aligned (R30, R54). -/
def dieSynced (s : State) (d : Nat) : Bool := d = 0 || !(tblGet false s.etu.unsynced d)

/-- The conditions of R346 for a carrier's port. -/
def admits (s : State) (port : Nat) : Bool :=
  etuAdmits s && s.boot.sealed && portState s port = 2 && bitAt (portCfg s port) 4 && s.power.shed = 0
  && dieSynced s (portDie port)

/-- Count on a port counter of Table 8, which saturates (R368). -/
def countPort (s : State) (p k : Nat) : State :=
  let x := portOf s p
  setPort s p { x with cnt := tblMod 0 x.cnt k (satInc 0xFFFFFFFF) }

/-- Count a received frame or section that is dropped, with RX_DROP of the port (R368). -/
def dropRx (s : State) (p k : Nat) : State := setFlag (countPort s p k) (2080 + p)

/-- Count a frame that is not sent, with TX_LATE of the port (R368); no flag of a retired port is set (R203). -/
def dropTx (s : State) (p k : Nat) : State := setFlagIf (working s 10 p) (2092 + p) (countPort s p k)

/-- DETAIL of an FX completion with a message sent, or not sent, more: two counts that saturate at 255 (R360). -/
def fxCount (d : Nat) (sent : Bool) : Nat :=
  if sent then d / 256 * 256 + satInc 255 (d % 256) else satInc 255 (d / 256) * 256 + d % 256

/-- The FX operation of a run counts a message (R360). -/
def noteMsg (s : State) (ring k : Nat) (sent : Bool) : State :=
  { s with runs := s.runs.map fun x =>
      if x.cls = 4 && x.ring = ring && x.k = k then { x with detail := fxCount x.detail sent } else x }

/-- Frames of a port's queue are discarded; each message among them counts on counter k and as not sent. -/
def discardFrames (s : State) (p k : Nat) (which : EgFrame → Bool) : State :=
  let x := portOf s p
  let s := setPort s p { x with queue := x.queue.filter fun f => !which f }
  (x.queue.filter fun f => which f && f.kind < 2).foldl (fun s f => noteMsg (dropTx s p k) f.ring f.k false) s

/-- The queued messages of a property are discarded on every port (R365). -/
def discardMsgs (s : State) (which : EgFrame → Bool) : State :=
  (List.range 12).foldl (fun s p =>
    if (portOf s p).queue.any (fun f => f.kind < 2 && which f)
    then discardFrames s p 16 (fun f => f.kind < 2 && which f) else s) s

/-- A carrier closes: no admission and no transmission, and its queued messages are discarded (R346, R365). Nothing of
its slots is the count's any more, which is loaded anew (R52). -/
def closeCarrier (s : State) (c : Nat) : State :=
  discardMsgs (setCarrier s c { carrierOf s c with open_ := false, past := [] }) fun f => f.carrier = c

/-- A placement has the conditions of R346. -/
def placeAdmits (s : State) (p : Placed) : Bool := plEn p && admits s (plPort p)

/-- What a carrier's conditions no longer hold for closes at once: its slots to come, or those of an earlier placement; the
messages queued for these are discarded (R346, R349, R365). -/
def narrowCarrier (s : State) (c : Nat) : State :=
  let x := carrierOf s c
  let s := setCarrier s c { x with
    open_ := x.open_ && placeAdmits s x.now
    past := x.past.map fun e => { e with open_ := e.open_ && placeAdmits s e.pl } }
  discardMsgs s fun f => f.carrier = c && !placeAdmits s (slotPl s c f.sfn f.slot)

/-- See narrowCarrier. -/
def closeCarriers (s : State) : State := s.fh.carrier.foldl (fun s e => narrowCarrier s e.1) s

/-! ### Converter links (R370, R371) -/

/-- A converter link. -/
def linkOf (s : State) (k : Nat) : CvLink := tblGet {} s.cv.link k

/-- Put a converter link. -/
def setLink (s : State) (k : Nat) (x : CvLink) : State := { s with cv := { s.cv with link := tblSet {} s.cv.link k x } }

/-- Register offset of a link group. -/
def linkReg (k w : Nat) : Nat := 0x100000 + 0x100 * k + w

/-- The comparator condition of R370 for link k. -/
def startArmed (s : State) (k : Nat) : Bool :=
  s.etu.trig.any fun e => e.2.armed &&
    (let r := reg s (0x34000 + 4 * e.2.target); bitAt r 31 && bits r 23 16 = k)

/-- The comparator condition stands: a comparator is armed, or it has ended by its firing since the link left RESET
(R111, R370). -/
def startStands (s : State) (k : Nat) : Bool := startArmed s k || (linkOf s k).spent

/-- The conditions of R111, none of the standing loss conditions of R371, and after shedding a re-armed trigger
(R90). -/
def linkMayRun (s : State) (k : Nat) : Bool :=
  startStands s k && etuFirst s && working s 11 k && tblGet false s.power.powerGood (16 + k)
  && dieSynced s (linkDie k) && s.power.shed = 0 && !(linkOf s k).rearm

/-- MODE of a link as it left RESET: burst. -/
def cvBurst (x : CvLink) : Bool := bitAt x.cfg.toNat 20

/-- Ts in Tc. -/
def cvTs (x : CvLink) : Nat := 4 * 2 ^ bits x.cfg.toNat 14 12

/-- Carrier of a link. -/
def cvCarrier (x : CvLink) : Nat := bits x.cfg.toNat 30 24

/-- NFFT of burst-profile words. -/
def profNfft (w : List W32) : Nat := 2 ^ bits ((w.getD 0 0).toNat) 3 0
/-- NCP. -/
def profNcp (w : List W32) : Nat := bits ((w.getD 0 0).toNat) 15 4
/-- DATA_SYM. -/
def profData (w : List W32) : Nat := bits ((w.getD 0 0).toNat) 31 24
/-- NUM_SC. -/
def profNumSc (w : List W32) : Nat := bits ((w.getD 1 0).toNat) 23 12

/-- Size of a burst buffer, rounded up to 64 B (R383). -/
def burstSize (w : List W32) : Nat := (64 + 256 + (2 + profData w) * profNumSc w * 4 + 63) / 64 * 64

/-- Data symbols of the burst wholly received at a time (R382, R383). -/
def burstSyms (x : CvLink) (t : Int) : Nat :=
  let n : Int := profNfft x.burst.prof
  let c : Int := profNcp x.burst.prof
  let d := t - x.burst.time.toNat - 2 * n * cvTs x
  if d < 0 then 0 else min (profData x.burst.prof) (d / ((n + c) * cvTs x)).toNat

/-- Write the buffer of the burst in capture, then its arrival (R383): the record's status, the data symbols written,
the erased and the clipped ones. -/
def writeBurst (s : State) (k status syms : Nat) (erased clipped : List Nat) : State :=
  let x := linkOf s k
  let b := x.burst
  let buf := reg s (linkReg k 0xC4)
  let count := max (bits buf 13 8) 1
  let tile := bits buf 5 0
  let addr := reg s (linkReg k 0xC8) + burstSize b.prof * (x.records % count)
  let nsc := profNumSc b.prof
  let stat := (List.range 256).map fun i =>
    BitVec.ofNat 8 (if i < syms then (if erased.contains i then 4 else 0) + (if clipped.contains i || erased.contains i then 8 else 0) else 0)
  let bins := (List.range ((2 + syms) * nsc * 4)).map fun i =>
    let sym := i / (nsc * 4)
    if 2 ≤ sym && erased.contains (sym - 2) then 0 else Config.burstBins k x.records i
  let er := (erased.filter (· < syms)).length
  let record := leBytes 4 (status + b2n b.stronger * 16 + syms * 2 ^ 8 + b.code * 2 ^ 16 + x.records % 256 * 2 ^ 24)
    ++ leBytes 4 0 ++ leBytes 8 b.time.toNat ++ leBytes 4 (trunc 32 b.cfo) ++ leBytes 4 (trunc 16 b.power)
    ++ leBytes 4 er ++ List.replicate 36 0
  let s := ingressStore s tile (addr + 64) (stat ++ bins)
  let s := ingressStore s tile addr record
  let s := setLink s k { x with burst := {}, bursts := satInc 65535 x.bursts, records := x.records + 1 }
  arrive s (392 + k)

/-- A burst still in capture when its link leaves RUN ends TRUNCATED (R383). -/
def truncateBurst (s : State) (k : Nat) : State :=
  let x := linkOf s k
  if x.burst.st = 2 then
    let n := burstSyms x (dieCount s (linkDie k))
    let sts := List.range n
    writeBurst s k 2 n (sts.filter fun i => Config.burstClip k x.records i = 2)
      (sts.filter fun i => Config.burstClip k x.records i = 1)
  else setLink s k { x with burst := {} }

/-- RX_OFS or TX_OFS, signed. -/
def cvOfs (s : State) (k w : Nat) : Int := sext 24 (reg s (linkReg k w))

/-- The placement in force at an instant (R349). -/
def placedNow (x : Carrier) (t : Int) : Placed := inForce x fun _ => t

/-- Link k enters RESET (R371): LINK_ERR from READY or RUN, the symbol in progress gets its arrival with ARRIVED 0, and
the later symbols of that slot follow at the end of their air time. -/
def linkReset (s : State) (k : Nat) : State :=
  let x := linkOf s k
  if x.st = 0 then s
  else
    let s := setFlagIf (2 ≤ x.st) (2304 + k) s
    let s := if x.st = 3 then truncateBurst s k else s
    let t := dieCount s (linkDie k) - cvOfs s k 0x04
    let p := placedNow (carrierOf s (cvCarrier x)) t
    let mu := plMu p
    let sfn := sfnAt s t
    let slot := slotAt s mu t
    let live := x.st = 3 && !cvBurst x && bitAt x.dir 0 && plEn p && (x.t0.toNat : Int) ≤ t + cvOfs s k 0x04
    let sym := ((List.range 14).filter fun j => slotStart s mu sfn slot + symbolOfs mu slot j ≤ t).length - 1
    let s := if live && x.lastSym ≠ some (sfn, slot, sym) then
        arrive (symbolStatus s (cvCarrier x) p sfn slot sym 0) (384 + k)
      else s
    let y := linkOf s k
    setLink s k { y with
      st := 0, dir := 0, lanes := false, srefSeen := false, tx := [], listening := false, spent := false
      lostSlot := if live then some (absFrame s sfn, slot, (List.range 14).drop (sym + 1)) else y.lostSlot }

/-- Links that may not run enter RESET, and carriers that may not be open close (R346, R371). -/
def settleRadio (s : State) : State :=
  let s := closeCarriers s
  (List.range 6).foldl (fun s k => if linkMayRun s k then s else linkReset s k) s

end Sys2Proof.Machine
end

