-- ==== Sys2Proof/Machine/EdgeTime.lean ====
section
/-! DEFINITION. The edge time unit: its states, reference inputs, count loads, comparators and captures (chapter 2,
R73, R434, R443). -/
namespace Sys2Proof.Machine

/-! ### Reference inputs and their selection (R34 to R37, R434) -/

/-- A reference input. -/
def refOf (s : State) (n : Nat) : RefIn := tblGet {} s.etu.refs n

/-- Put a reference input. -/
def setRef (s : State) (n : Nat) (x : RefIn) : State := { s with etu := { s.etu with refs := tblSet {} s.etu.refs n x } }

/-- ETU_REF_CFGn. -/
def refCfg (s : State) (n : Nat) : Nat := reg s (0x40100 + 0x10 * n)

/-- Priority of an input for a role, 0 time and 1 frequency: what R434 makes act (R36, R434). -/
def refPrio (s : State) (role n : Nat) : Nat :=
  if role = 0 then (if n < 2 then bits (refCfg s n) 7 4 else 15)
  else if n < 5 then bits (refCfg s n) 11 8 else 15

/-- The input is QUALIFIED. -/
def refGood (s : State) (n : Nat) : Bool := n < 6 && (refOf s n).st = 2

/-- What an input needs of the device's own state to give a reference: EN, the host's QUAL bit for PTP, and for SyncE a
port that is present, not retired and not disabled (R34, R434). -/
def refSignal (s : State) (n : Nat) : Bool :=
  bitAt (refCfg s n) 0
  && (match n with
    | 0 => bitAt (refCfg s n) 1
    | 2 => portState s (bits (refCfg s n) 19 16) ≠ 0
    | 3 => portState s (bits (refCfg s n) 19 16) ≠ 0
    | _ => true)

/-- ±1 µs in 2^-16 Tc, times 100. -/
def microBound : Int := 12884901888

/-- QUAL_S of an input in SCLK cycles. -/
def qualCycles (s : State) (n : Nat) : Nat := bits (refCfg s n) 31 24 * 100000000

/-- The offsets committed in the last `c` SCLK cycles. -/
def measIn (s : State) (c : Nat) : List Int := (s.etu.meas.filter fun m => s.sclk ≤ m.1 + c).map (·.2)

/-- Table 14 for PTP: 8 measurements in the last second; in HOLDOVER those of QUAL_S seconds within 1 µs of their own
mean, else, once time is loaded, the offset within 1 µs (R34, R443). -/
def ptpMeets (s : State) : Bool :=
  let l := measIn s (max (qualCycles s 0) 100000000)
  8 ≤ (measIn s 100000000).length
  && (if s.etu.state = 3 then l.all fun x => 100 * absInt ((l.length : Int) * x - l.sum) ≤ (l.length : Int) * microBound
      else !s.etu.loaded || 100 * absInt s.etu.lastMeas ≤ microBound)

/-- A distance in Tc is a whole number of seconds within 200 Tc. -/
def wholeSeconds (d : Int) : Bool := (d + 200) % 1966080000 ≤ 400

/-- Table 14 for GNSS: a time of day for the pulse, no more than one pulse missed in a row; in HOLDOVER successive pulses
whole seconds apart, else, once time is loaded, the pulse within 200 Tc of its second (R34, R443). -/
def ppsMeets (s : State) : Bool :=
  match s.etu.ppsAt, s.etu.ppsSec with
  | some c, some _ =>
    now s - c.toNat ≤ 2 * 1966080000 + 200
    && (if s.etu.state = 3 then s.etu.ppsPrev.all fun p => wholeSeconds ((c.toNat : Int) - p.toNat)
        else !s.etu.loaded || absInt s.etu.ppsMeas ≤ 200 * 65536)
  | _, _ => false

/-- Table 14 for SyncE: an ESMC PDU of the input's port in the last 5 s whose quality level is not DNU (15). -/
def esmcMeets (s : State) (n : Nat) : Bool :=
  let e := tblGet {} s.fh.esmc (bits (refCfg s n) 19 16)
  e.at_.any (fun t => s.sclk ≤ t + 500000000) && e.ql ≠ 15

/-- What the device itself can tell of an input's criterion (R34 Table 14). That a signal is present and within 4.6 ppm is
for the environment to say, with REF_CRITERION_MET and REF_CRITERION_LOST. -/
def refMeets (s : State) (n : Nat) : Bool :=
  refSignal s n
  && (match n with
    | 0 => ptpMeets s
    | 1 => ppsMeets s
    | 2 => esmcMeets s 2
    | 3 => esmcMeets s 3
    | _ => true)

/-- The qualified input of the lowest priority value below 0xF for a role, the lower index among equals (R36). -/
def bestRef (s : State) (role : Nat) : Option Nat :=
  (List.range 6).foldl (fun (b : Option Nat) n =>
    if refGood s n && refPrio s role n < 15 then
      match b with
      | some m => if refPrio s role n < refPrio s role m then some n else b
      | none => some n
    else b) none

/-- The selected input of a role; 7 for none. -/
def selRef (s : State) (role : Nat) : Nat := if role = 0 then s.etu.timeSel else s.etu.freqSel

/-- The next selection of a role (R36): with REVERTIVE = 0 a selected qualified input is kept. -/
def nextRef (s : State) (role : Nat) : Nat :=
  let cur := selRef s role
  match bestRef s role with
  | none => if refGood s cur then cur else 7
  | some b =>
    if !refGood s cur then b
    else if bitAt (reg s 0x40010) 1 && refPrio s role b < refPrio s role cur then b
    else cur

/-- What a time input last measured: edge time less its time, in 2^-16 Tc (R443). -/
def refPhase (s : State) (n : Nat) : Int := if n = 0 then s.etu.lastMeas else if n = 1 then s.etu.ppsMeas else 0

/-- Select an input for a role; a switch from another input carries the phase difference as build-out offset (R37),
which is measured between time inputs and a free value between frequency inputs. An input that neither role had has no
deviation yet. Windows that R40 left uncounted stay so (R40). -/
def setSel (s : State) (role n : Nat) : State :=
  let cur := selRef s role
  if n = cur then s
  else
    let off : Int := if cur = 7 || n = 7 then 0
      else if role = 0 then refPhase s n - refPhase s cur else Config.loopStep s.choice
    let s := takeChoice s
    let s := if n < 6 && n ≠ selRef s (1 - role) then setRef s n { refOf s n with dev := 0, driftCnt := 0 } else s
    { s with etu := { s.etu with
      timeSel := if role = 0 then n else s.etu.timeSel
      freqSel := if role = 1 then n else s.etu.freqSel
      buildOut := tblSet 0 s.etu.buildOut role off } }

/-- The ensemble of an input: every other QUALIFIED one (R38). -/
def ensemble (s : State) (n : Nat) : List Nat := (List.range 6).filter fun m => m ≠ n && refGood s m

/-- DEV and DRIFT_CNT of a selected input whose ensemble is empty read 0 (R38). -/
def clearDrift (s : State) (n : Nat) : State :=
  if n < 6 && (ensemble s n).isEmpty then setRef s n { refOf s n with dev := 0, driftCnt := 0 } else s

/-- Both roles are selected anew (R36). -/
def selectRefs (s : State) : State :=
  let s := setSel s 0 (nextRef s 0)
  let s := setSel s 1 (nextRef s 1)
  clearDrift (clearDrift s s.etu.timeSel) s.etu.freqSel

/-- A time reference and a frequency reference are qualified (Table 13). -/
def refsReady (s : State) : Bool := refGood s s.etu.timeSel && refGood s s.etu.freqSel

/-! ### States (R31 to R33, R73) -/

/-- The transitions of Table 13 take place: TCLK is not lost, or a TIME_RESET has come since it was restored. -/
def etuLive (s : State) : Bool := !s.etu.tclkLost || s.etu.recovering

/-- The count that a load puts in: the time the selected time reference gives (R27, R443). With the count held, how far
the reference has moved since its last measurement is a free value. A PTP offset that is no whole number of Tc is rounded
down before it is taken off; the spec does not say how (DESIGN CHOICE, log entry 11). -/
def loadValue (s : State) : W64 :=
  let e := s.etu
  if e.tclkLost then BitVec.ofNat 64 (Config.freeNat s.choice)
  else if e.timeSel = 0 then BitVec.ofInt 64 (now s - e.lastMeas.fdiv 65536)
  else match e.ppsAt, e.ppsSec with
  | some c, some sec => BitVec.ofInt 64 ((sec : Int) * 1966080000 + (now s - c.toNat))
  | _, _ => BitVec.ofNat 64 (Config.freeNat s.choice)

/-- The count is loaded (R27, R48): every comparator is disarmed, the hold of TCLK_LOST ends, and earlier measurements
count as the load leaves them. -/
def countLoad (s : State) : State :=
  let v := loadValue s
  let d : Int := (v.toNat : Int) - now s
  let s := takeChoice s
  let e := s.etu
  setFlag { s with etu := { e with
    count := v, loaded := true, tclkLost := false, recovering := false, trig := []
    lastMeas := e.lastMeas + d * 65536, ppsMeas := e.ppsMeas + d * 65536
    meas := e.meas.map fun m => (m.1, m.2 + d * 65536)
    buildOut := tblSet 0 e.buildOut 0 0
    ppsAt := e.ppsAt.map fun c => BitVec.ofInt 64 ((c.toNat : Int) + d)
    ppsPrev := e.ppsPrev.map fun c => BitVec.ofInt 64 ((c.toNat : Int) + d) } } 39

/-- LOCKED is left for HOLDOVER: HOLDOVER_ENTERED and the arrival (R31, R198). -/
def enterHoldover (s : State) : State :=
  arrive (setFlag { s with etu := { s.etu with state := 3, pulling := false, stepWait := false } } 34) 457

/-- The phase correction is within STEP_LIMIT µs: 1 µs is 1966.08 Tc (R32). -/
def stepOk (s : State) : Bool :=
  100 * absInt (refPhase s s.etu.timeSel) ≤ (fld s 0x40010 23 16 : Int) * 12884901888

/-- In HOLDOVER with references qualified again the correction is judged (R32). A wait for the host that has begun goes on
when the selected time reference is lost while another is qualified already: R32 ends it by the loss of "the qualified
time reference" and does not speak of a second one (DESIGN CHOICE, log entry 11). -/
def judgeStep (s : State) : State :=
  if s.etu.forced || s.etu.pulling || s.etu.stepWait then s
  else if stepOk s then { s with etu := { s.etu with pulling := true } }
  else setFlag { s with etu := { s.etu with stepWait := true } } 35

/-- HOLDOVER without both references: pull-in ends, and with the time reference the wait of R32. -/
def holdOn (s : State) : State :=
  { s with etu := { s.etu with pulling := false, stepWait := s.etu.stepWait && refGood s s.etu.timeSel } }

/-- Selection and the transitions of Table 13 that follow from the references (R31, R36). -/
def settleEtu (s : State) : State :=
  if etuLive s then
    let s := selectRefs s
    let s := match s.etu.state, refsReady s with
      | 0, true => countLoad { s with etu := { s.etu with state := 1 } }
      | 1, false => { s with etu := { s.etu with state := 0 } }
      | 2, false => enterHoldover s
      | 3, true => judgeStep s
      | 3, false => holdOn s
      | _, _ => s
    updateFloor (settleRadio s)
  else s

/-- The ETU enters LOCKED: its arrival, and at the first time LOCK_REACHED and EVER_LOCKED (R31, R53). The phase error
that steering has removed leaves no build-out offset of the time reference (R37). -/
def lockEtu (s : State) : State :=
  let first := !s.etu.everLocked
  let s := { s with etu := { s.etu with
    state := 2, pulling := false, everLocked := true, buildOut := tblSet 0 s.etu.buildOut 0 0 } }
  updateFloor (arrive (setFlagIf first 42 s) 456)

/-- A QUALIFIED input fails at once (R34, R35). -/
def failRef (s : State) (n : Nat) : State := setFlag (setRef s n { refOf s n with st := 4, crit := false }) 37

/-- Qualified inputs that no longer meet what the device can tell of their criterion fail (R34, R434). -/
def refsRecheck (s : State) : State :=
  if etuLive s && (List.range 6).any (fun n => refGood s n && !refMeets s n) then
    settleEtu ((List.range 6).foldl (fun s n => if refGood s n && !refMeets s n then failRef s n else s) s)
  else s

/-- An input's criterion begins to hold: a FAILED input starts qualifying again, and QUAL_S counts from now (R34, R35). -/
def meetRef (s : State) (n : Nat) : State :=
  let x := refOf s n
  setRef s n { x with st := if x.st = 4 then 1 else x.st, crit := true, since := if x.crit then x.since else s.sclk }

/-- An input's criterion ends: a QUALIFIED input fails at once, any other stays as it is and starts its QUAL_S time
again (R34, R35). -/
def loseRef (s : State) (n : Nat) : State :=
  if (refOf s n).st = 2 then settleEtu (failRef s n)
  else if (refOf s n).st = 0 then s
  else setRef s n { refOf s n with crit := false }

/-- The criterion of input 0 or 1, which the device can tell whole, is judged anew (R34, R443). -/
def refEval (s : State) (n : Nat) : State :=
  if !etuLive s || (refOf s n).st = 0 then s
  else if refMeets s n then meetRef s n else if (refOf s n).crit then loseRef s n else s

/-- REF_QUALIFIED (R34): the criterion has held for QUAL_S seconds. -/
def execRefQualified (n : Nat) (s : State) : Host.Outcome State Fault Refusal :=
  done (
    let x := refOf s n
    if n < 6 && x.st = 1 && x.crit && refMeets s n && x.since + qualCycles s n ≤ s.sclk && etuLive s then
      settleEtu (setRef s n { x with st := 2 })
    else s)

/-- REF_CRITERION_LOST (R34, R35). Inputs 0 and 1 lose their criterion when the device's measurements say so. -/
def execRefCriterionLost (n : Nat) (s : State) : Host.Outcome State Fault Refusal :=
  done (if 6 ≤ n || !etuLive s || (n < 2 && refMeets s n) then s else loseRef s n)

/-- REF_CRITERION_MET (R34, R35): a FAILED input starts qualifying again. -/
def execRefCriterionMet (n : Nat) (s : State) : Host.Outcome State Fault Refusal :=
  done (if 6 ≤ n || !etuLive s || (refOf s n).st = 0 || !refMeets s n then s else meetRef s n)

/-- EN of an input takes effect on its state (R434). -/
def refEnable (s : State) (n : Nat) : State :=
  let x := refOf s n
  if !bitAt (refCfg s n) 0 then (if x.st = 0 then s else setRef s n { x with st := 0, crit := false })
  else if x.st = 0 then setRef s n { x with st := 1, crit := false } else s

/-- REF_CFG_WRITE (R434). While TCLK is lost the states wait for the TIME_RESET (R73). -/
def execRefCfgWrite (n : Nat) (val : W32) (s : State) : Host.Outcome State Fault Refusal :=
  done (
    if 6 ≤ n || !served s then s
    else
      let s := mergeReg s (0x40100 + 0x10 * n) val.toNat
      if etuLive s then settleEtu (refsRecheck (refEnable s n)) else s)

/-! ### ETU commands (R52) and the measurements of the references -/

/-- TIME_RESET (R31, R48, R52, R73, R420): admission closes, and the ETU enters ACQUIRING with a count load or FREE_RUN.
Without TCLK edges it has no effect. It ends a FORCE_HOLDOVER in force, of which the spec says only that
RELEASE_HOLDOVER ends it (DESIGN CHOICE, log entry 11). -/
def execTimeReset (s : State) : Host.Outcome State Fault Refusal :=
  done (
    if !served s || (s.etu.tclkLost && !s.etu.tclkEdges) then s
    else
      let e := s.etu
      let s := s.fh.carrier.foldl (fun s c => closeCarrier s c.1) s
      let s := { s with
        etu := { e with state := 0, pulling := false, stepWait := false, forced := false, loaded := false
                        recovering := e.tclkLost } }
      let s := settleEtu s
      if e.tclkLost then settleEtu (refsRecheck ((List.range 6).foldl refEnable s)) else s)

/-- FORCE_HOLDOVER (R52, R40). -/
def execForceHoldover (s : State) : Host.Outcome State Fault Refusal :=
  done (
    if !served s || !etuLive s || s.etu.state < 2 then s
    else
      let s := if s.etu.state = 2 then enterHoldover s else s
      updateFloor (settleRadio
        { s with etu := { s.etu with forced := true, pulling := false, ambiguous := [] } }))

/-- KEEP_REF (R52, R40). -/
def execKeepRef (s : State) : Host.Outcome State Fault Refusal :=
  done (
    if !served s then s
    else
      let restart (s : State) (n : Nat) : State := if n < 6 then setRef s n { refOf s n with driftCnt := 0 } else s
      let s := restart (restart s s.etu.timeSel) s.etu.freqSel
      clearFlag { s with etu := { s.etu with ambiguous := [] } } 33)

/-- CLEAR_SUSPECT (R35, R52). -/
def execClearSuspect (n : Nat) (s : State) : Host.Outcome State Fault Refusal :=
  done (
    if served s && n < 6 && etuLive s && (refOf s n).st = 3 then
      setRef s n { refOf s n with st := 1, since := s.sclk }
    else s)

/-- RELEASE_HOLDOVER (R52). -/
def execReleaseHoldover (s : State) : Host.Outcome State Fault Refusal :=
  done (if served s && s.etu.forced then settleEtu { s with etu := { s.etu with forced := false } } else s)

/-- The measurements that a criterion can still look at: those of the last QUAL_S seconds, and of the last second. -/
def keepMeas (s : State) : List (Nat × Int) :=
  s.etu.meas.filter fun m => s.sclk ≤ m.1 + max (qualCycles s 0) 100000000

/-- PTP_MEAS (R34, R443): the held lower half and the written upper half commit, and the criterion is judged. -/
def execPtpMeas (hi : W32) (s : State) : Host.Outcome State Fault Refusal :=
  done (
    if !served s then s
    else
      let v := (tblGet 0 s.held 0x40020).toNat + hi.toNat * 2 ^ 32
      refEval { s with etu := { s.etu with lastMeas := sext 64 v, meas := keepMeas s ++ [(s.sclk, sext 64 v)] } } 0)

/-- TOD_SEC (R34, R443): the TAI second of the next pulse commits. -/
def execTodSec (hi : W32) (s : State) : Host.Outcome State Fault Refusal :=
  done (
    if !served s then s
    else { s with etu := { s.etu with
      tod := some ((tblGet 0 s.held 0x40028).toNat + hi.toNat % 65536 * 2 ^ 32) } })

/-- PPS_PULSE (R34, R443): the pulse marks the second written for it, and the criterion is judged. -/
def execPpsPulse (s : State) : Host.Outcome State Fault Refusal :=
  done (
    let e := s.etu
    let m : Int := match e.tod with
      | some sec => (now s - (sec : Int) * 1966080000) * 65536
      | none => e.ppsMeas
    refEval { s with etu := { e with
      ppsAt := some e.count, ppsPrev := e.ppsAt, ppsSec := e.tod, ppsMeas := m, tod := none } } 1)

/-- ENTER_LOCKED (R31). -/
def execEnterLocked (s : State) : Host.Outcome State Fault Refusal :=
  done (if s.etu.state = 1 && refsReady s && etuLive s then lockEtu s else s)

/-- PULL_IN_DONE (R31, R32): the phase error has come within 100 Tc. In LOCKED it is the build-out offset of a new time
reference that steering has removed (R37). -/
def execPullInDone (s : State) : Host.Outcome State Fault Refusal :=
  done (
    if s.etu.state = 3 && s.etu.pulling && refsReady s && !s.etu.forced && etuLive s then lockEtu s
    else if s.etu.state = 2 && etuLive s then { s with etu := { s.etu with buildOut := tblSet 0 s.etu.buildOut 0 0 } }
    else s)

/-- HOLD_EXPIRED (R33). -/
def execHoldExpired (s : State) : Host.Outcome State Fault Refusal :=
  done (if s.etu.state = 3 && reg s 0x4001C ≠ 0 then setFlag s 36 else s)

/-! ### Slow drift (R38 to R40) -/

/-- Insert in rising order. -/
def insertInt (a : Int) : List Int → List Int
  | [] => [a]
  | b :: t => if a ≤ b then a :: b :: t else b :: insertInt a t

/-- Twice the median. -/
def median2 (l : List Int) : Int :=
  let m := l.foldl (fun a x => insertInt x a) []
  m.getD ((m.length - 1) / 2) 0 + m.getD (m.length / 2) 0

/-- DRIFT_THRESH, 0 acting as 1. -/
def driftThresh (s : State) : Nat := max 1 (fld s 0x40010 15 8)

/-- The deviation of a selected input in one window: its DEV and its count. The mean of the middle two can lie between
two whole ppb; DEV then shows either neighbour. -/
def measureDrift (s : State) (freq : Nat → Int) (n : Nat) : State :=
  let x := refOf s n
  let ens := ensemble s n
  if ens.isEmpty then setRef s n { x with dev := 0, driftCnt := 0 }
  else
    let d2 := 2 * freq n - median2 (ens.map freq)
    let dev := d2.fdiv 2 + (if d2 % 2 ≠ 0 && Config.raceWinner s.choice then 1 else 0)
    let cnt := if tblGet false s.etu.ambiguous n then x.driftCnt
      else if 2 * (driftThresh s : Int) < absInt d2 then min 3 (x.driftCnt + 1) else 0
    setRef (takeChoice s) n { x with dev := clampInt (-32767) 32767 dev, driftCnt := cnt }

/-- The third window in a row beyond the threshold: SUSPECT with two members or more, DRIFT_AMBIGUOUS with one. -/
def actDrift (s : State) (members n : Nat) : State :=
  if (refOf s n).driftCnt = 3 && !tblGet false s.etu.ambiguous n then
    if 2 ≤ members then setFlag (setRef s n { refOf s n with st := 3 }) 32
    else setFlag { s with etu := { s.etu with ambiguous := tblSet false s.etu.ambiguous n true } } 33
  else s

/-- DRIFT_WINDOW (R38 to R40). A qualified input that the operand does not list is taken as measured at 0 ppb: the window
measures every one, and the operand is what it measured (DESIGN CHOICE, log entry 10). -/
def execDriftWindow (freq : List (Nat × Int)) (s : State) : Host.Outcome State Fault Refusal :=
  done (
    if !etuLive s then s
    else
      let f (n : Nat) : Int := match freq.find? (fun e => e.1 = n) with
        | some e => e.2
        | none => 0
      let sel := ([s.etu.timeSel, s.etu.freqSel].foldl (fun l n => insertNew n l) []).filter (refGood s)
      let members := sel.map fun n => (n, (ensemble s n).length)
      let s := sel.foldl (fun s n => measureDrift s f n) s
      settleEtu (members.foldl (fun s e => if e.2 = 0 then s else actDrift s e.2 e.1) s))

/-! ### Reads that latch -/

/-- ETU_TIME_LATCH (R29): the whole count is latched and the lower half read. -/
def execEtuTimeLatch (s : State) : Host.Outcome State Fault Refusal :=
  done (
    if !served s then { s with readOut := 0 }
    else { s with etu := { s.etu with latch := s.etu.count }, readOut := s.etu.count.setWidth 32 })

/-- CAP_READ (R49): the upper half of the oldest entry, which goes; of an empty FIFO the value is free. -/
def execCapRead (n : Nat) (s : State) : Host.Outcome State Fault Refusal :=
  done (
    if 32 ≤ n || !served s then { s with readOut := 0 }
    else match (tblGet {} s.etu.cap n).fifo with
    | [] => { takeChoice s with readOut := BitVec.ofNat 32 (Config.freeNat s.choice) }
    | t :: rest => { s with
        etu := { s.etu with cap := tblSet {} s.etu.cap n { fifo := rest } }
        readOut := BitVec.ofNat 32 (t.toNat / 2 ^ 32) })

/-! ### Comparators (R44 to R50) -/

/-- A trigger comparator. -/
def trigOf (s : State) (n : Nat) : Trig := tblGet {} s.etu.trig n

/-- Put a trigger comparator. -/
def setTrig (s : State) (n : Nat) (x : Trig) : State := { s with etu := { s.etu with trig := tblSet {} s.etu.trig n x } }

/-- EVX_ROUTEi: the line an input fires, when LINE_EN is 1 (R195). -/
def routeLine (s : State) (i : Nat) : Option Nat :=
  let r := reg s (0x34000 + 4 * i)
  if bitAt r 31 then some (bits r 23 16) else none

/-- The first compare time later than the count that whole periods reach (R46). -/
def nextCompare (cmp period count : Nat) : Nat := cmp + ((count - cmp) / period + 1) * period

/-- A comparator whose compare time is not later than its die's count does not fire for it (R46, R54). -/
def lateArm (s : State) (n : Nat) : State :=
  let t := trigOf s n
  let c := (dieCount s t.die).toNat
  if t.armed && t.cmp.toNat ≤ c then
    let t' := if t.periodic then { t with cmp := BitVec.ofNat 64 (nextCompare t.cmp.toNat t.period c) }
      else { t with armed := false }
    setFlag (setTrig s n t') 38
  else s

/-- Offset of a comparator group. -/
def trigReg (n w : Nat) : Nat := 0x41000 + 0x20 * n + w

/-- The links that a comparator's route starts may run again after shedding (R90). -/
def rearmLinks (s : State) (n : Nat) : State :=
  match routeLine s (trigOf s n).target with
  | some k => if k < 6 && (trigOf s n).armed then setLink s k { linkOf s k with rearm := false } else s
  | none => s

/-- TRIG_ARM (R44 to R46). -/
def execTrigArm (n : Nat) (ctrl : W32) (s : State) : Host.Outcome State Fault Refusal :=
  done (
    if 64 ≤ n || !served s then s
    else
      let s := mergeReg s (trigReg n 0x10) ctrl.toNat
      let c := ctrl.toNat
      let period := reg64 s (trigReg n 0x8) % 2 ^ 48
      let die := if bits c 3 2 < s.fuse.assy then bits c 3 2 else 0
      let t : Trig := { armed := !(bitAt c 1 && period < 1024), periodic := bitAt c 1, die := die
                        target := bits c 27 16, cmp := BitVec.ofNat 64 (reg64 s (trigReg n 0x0)), period := period }
      settleRadio (rearmLinks (lateArm (setTrig s n t) n) n))

/-- The comparator fires now: it is armed, its die is synchronised, and the die's count is its compare time (R45, R54). -/
def trigDue (s : State) (n : Nat) : Bool :=
  let t := trigOf s n
  n < 64 && t.armed && dieSynced s t.die && (t.cmp.toNat : Int) = dieCount s t.die

/-- Home die of an output line (R197 Table 2). -/
def lineHome (j : Nat) : Nat :=
  if j < 6 then linkDie j else if 8 ≤ j && j < 14 then linkDie (j - 8) else 0

/-- The line has a destination that is present and works, or serves as a capture source (R197 Table 2). -/
def lineLive (s : State) (j : Nat) : Bool :=
  if j < 6 then working s 11 j
  else if 8 ≤ j && j < 14 then working s 11 (j - 8)
  else if 16 ≤ j && j < 20 then working s 6 (j - 16)
  else 32 ≤ j && j < 80

/-- One comparator fires into the crossbar; a periodic one advances by its period, a one-shot disarms (R44, R45). The
link that a one-shot starts keeps its comparator condition. -/
def fireTrig (s : State) (n : Nat) : State :=
  let t := trigOf s n
  let a : Arrival := { input := t.target, comparator := some n, die := t.die, fired := t.cmp.toNat }
  let s := { s with ev := { s.ev with inFlight := s.ev.inFlight ++ [a] } }
  let s := match routeLine s t.target with
    | some k => if k < 6 && !t.periodic && (linkOf s k).st ≠ 0 then setLink s k { linkOf s k with spent := true } else s
    | none => s
  setTrig s n (if t.periodic then { t with cmp := t.cmp + BitVec.ofNat 64 t.period } else { t with armed := false })

/-- TRIG_FIRE (R45, R198): every comparator named that is due fires. Which firings merge shows where they reach a line
(R196, R199). -/
def execTrigFire (ns : List Nat) (s : State) : Host.Outcome State Fault Refusal :=
  done (settleRadio (((List.range 64).filter fun n => ns.contains n && trigDue s n).foldl fireTrig s))

/-- TRIG_DISARM (R44, R47): a firing of the same cycle takes place. -/
def execTrigDisarm (n : Nat) (ctrl : W32) (s : State) : Host.Outcome State Fault Refusal :=
  done (
    if 64 ≤ n || !served s then s
    else
      let s := mergeReg s (trigReg n 0x10) ctrl.toNat
      let s := if trigDue s n then fireTrig s n else s
      settleRadio (setTrig s n { trigOf s n with armed := false }))

/-! ### Captures (R49, R50) -/

/-- ETU_CAP_CFGn. -/
def capCfg (s : State) (n : Nat) : Nat := reg s (0x42000 + 0x10 * n)

/-- The capture input records this edge of its source: EDGE 1 rising, 2 falling, 3 both. -/
def capSelects (s : State) (n src : Nat) (rising : Bool) : Bool :=
  bits (capCfg s n) 9 0 = src && bitAt (capCfg s n) (if rising then 12 else 13)

/-- I/O die on which a capture source enters, when it gives edges. -/
def capDie (s : State) (src : Nat) : Option Nat :=
  let d := if src < 256 then lineHome src else if 0x110 ≤ src then linkDie (src - 0x110) else 0
  if (src < 256 || (0x100 ≤ src && src ≤ 0x108) || (0x110 ≤ src && src < 0x116)) && d < s.fuse.assy then some d else none

/-- One capture input records a timestamp; a full FIFO discards it with CAP_OVERFLOW, and the arrival is sent either
way (R49, R198). -/
def recordCap (s : State) (n : Nat) (t : W64) : State :=
  let x := tblGet {} s.etu.cap n
  let s := if x.fifo.length < 4 then
      { s with etu := { s.etu with cap := tblSet {} s.etu.cap n { fifo := x.fifo ++ [t] } } }
    else setFlag s 40
  arrive s (408 + n)

/-- An edge of a source at an edge time reaches the capture inputs that select it; one that several firings made sets
their TRIG_MERGED (R49, R50). -/
def captureEdge (s : State) (src : Nat) (rising merged : Bool) (t : Int) : State :=
  (List.range 32).foldl (fun s n =>
    if capSelects s n src rising then setFlagIf merged (608 + n) (recordCap s n (BitVec.ofInt 64 t)) else s) s

/-- CAPTURE_EDGE (R49, R50, R199). An output line gives a rising edge for each of its firings, and one for those that
merged, at the count at which the firing reached the line: 6 Tc after the compare time of a comparator of the line's home
die (R200). -/
def execCaptureEdge (src : Nat) (rising : Bool) (s : State) : Host.Outcome State Fault Refusal :=
  done (
    match capDie s src with
    | none => s
    | some d =>
      if 256 ≤ src then captureEdge s src rising false (dieCount s d)
      else match s.ev.toCapture.find? fun e => e.1 = src with
      | none => s
      | some (_, merged, t) =>
        if !rising then s
        else
          captureEdge { s with ev := { s.ev with toCapture := s.ev.toCapture.eraseP fun e => e.1 = src } } src true merged t)

/-! ### Dies (R30, R54) -/

/-- A die loses alignment (R54): its ports close, its links reset, its count is free. -/
def unsyncDie (s : State) (d : Nat) : State :=
  let s := { takeChoice s with etu := { s.etu with
    unsynced := tblSet false s.etu.unsynced d true
    skew := tblSet 0 s.etu.skew d (Config.loopStep s.choice) } }
  settleRadio (logEvent (setFlag s 41) 0x4002 d d 0)

/-- DIE_UNSYNCED (R54). -/
def execDieUnsynced (d : Nat) (s : State) : Host.Outcome State Fault Refusal :=
  done (if 1 ≤ d && d < s.fuse.assy && dieSynced s d then unsyncDie s d else s)

/-- DIE_REALIGN (R30, R54): the slave count becomes the master count; comparators whose time has passed are late. -/
def execDieRealign (d : Nat) (s : State) : Host.Outcome State Fault Refusal :=
  done (
    if d = 0 || dieSynced s d || d2dDown s d then s
    else
      let s := { s with etu := { s.etu with
        unsynced := tblSet false s.etu.unsynced d false, skew := tblSet 0 s.etu.skew d 0 } }
      settleRadio ((List.range 64).foldl (fun s n => if (trigOf s n).die = d then lateArm s n else s) s))

end Sys2Proof.Machine
end

