-- ==== Sys2Proof/Machine/Power.lean ====
section
/-! DEFINITION. The load-step ledgers, oscillators and column ramps (R82 to R86), and the start of emergency shedding
(R87). Amounts are in 1/1280 A, in which every value of Table 6 is whole. -/
namespace Sys2Proof.Machine

/-- The cap of each ledger: 25.0 A. -/
def ledgerMax : Nat := 32000

/-- Oscillator step of an instance (R82 Table 6): tile 0.75 A, array 2.0 A, coding engine 8.0 A, Espalier 4.0 A. -/
def oscAmount (n : Nat) : Nat := if n < 64 then 960 else if n < 72 then 2560 else if n = 72 then 10240 else 5120

/-- Column ramp: 9.0 A × change / 128. -/
def rampAmount (change : Nat) : Nat := 90 * change

/-- Hedgerow and SSRAM together: 20.0 A. -/
def fabricAmount : Nat := 25600

/-- Steps still in the window: a step stays for its cycle and the next 99 SCLK cycles (R82). -/
def inWindow (s : State) (l : List (Nat × Nat)) : List (Nat × Nat) := l.filter fun e => s.sclk < e.2 + 100

/-- The sum a ledger holds now. -/
def ledgerSum (s : State) (l : List (Nat × Nat)) : Nat := (inWindow s l).foldl (fun a e => a + e.1) 0

/-- The step fits its ledger (R82). -/
def stepFits (s : State) (x : LedgerStep) : Bool :=
  ledgerSum s (if x.rising then s.power.rise else s.power.fall) + x.amount ≤ ledgerMax

/-- A Plinth array. -/
def arrOf (s : State) (a : Nat) : Arr := tblGet {} s.arr a

/-- Put a Plinth array. -/
def setArr (s : State) (a : Nat) (x : Arr) : State := { s with arr := tblSet {} s.arr a x }

/-- ARRAY_RAMP in cycles of an array's instance: values below 16 act as 16 and above 128 as 128 (R85, R94 Table 10). -/
def rampLen (s : State) : Nat := min 128 (max 16 (fld s 0x50000 7 0))

/-- A ramp of an array that starts now. -/
def rampTo (s : State) (a n : Nat) : Option Ramp :=
  some { dest := n, start := (instOf s (64 + a)).cycles, len := rampLen s }

/-- What an admitted step does: an oscillator starts at the floor with its cycle count at 0, or stops; a column ramp
starts; Hedgerow and the SSRAM banks start or stop (R62, R84, R85). -/
def applyStep (s : State) (k : StepKind) : State :=
  match k with
  | .start n =>
    if instRetired s n then s
    else setInst s n { latch := (instOf s n).latch, run := true, cap := 1400, winStart := s.sclk, winCap := 1400 }
  | .stop n => setInst s n { latch := (instOf s n).latch, cycles := (instOf s n).cycles }
  | .cols a n => setArr s a { (arrOf s a) with asked := false, ramp := rampTo s a n }
  | .fabric on => { s with power := { s.power with fabric := on } }

/-- Debit a step and let it happen. -/
def admitStep (s : State) (x : LedgerStep) : State :=
  let p := s.power
  let p := if x.rising then { p with rise := inWindow s p.rise ++ [(x.amount, s.sclk)] }
           else { p with fall := inWindow s p.fall ++ [(x.amount, s.sclk)] }
  applyStep { s with power := p } x.kind

/-- A step must wait behind a waiting one of the same ledger: radio, oscillator and fabric steps go before inference
ones, and equals in request order (R86). -/
def behindWaiting (s : State) (x : LedgerStep) : Bool :=
  s.power.waiting.any fun w => w.rising = x.rising && (w.radio || !x.radio)

/-- Request a step: it is admitted now, or waits and sets STEP_DEFER (R82). -/
def requestStep (s : State) (x : LedgerStep) : State :=
  if stepFits s x && !behindWaiting s x then admitStep s x
  else setFlag { s with power := { s.power with waiting := s.power.waiting ++ [x] } } 98

/-- The waiting steps in the order of R86. -/
def waitingOrder (s : State) : List LedgerStep :=
  s.power.waiting.filter (·.radio) ++ s.power.waiting.filter (!·.radio)

/-- The first waiting step, of each ledger in the order of R86, that fits now. -/
def nextStep (s : State) : Option LedgerStep :=
  let l := waitingOrder s
  let heads := (l.filter (·.rising)).head?.toList ++ (l.filter (!·.rising)).head?.toList
  heads.find? (stepFits s)

/-- A start step of an instance. -/
def startStep (n : Nat) : LedgerStep := { kind := .start n, amount := oscAmount n, rising := true, radio := true }

/-- A stop step of an instance. -/
def stopStep (n : Nat) : LedgerStep := { kind := .stop n, amount := oscAmount n, rising := false, radio := true }

/-- Lower a running instance's cap by 25 MHz. One that is to stop requests its stop step when the cap reaches the floor
(R58, R84 step 2). -/
def lowerCap (s : State) (n : Nat) (i : Inst) : State :=
  let s := setInst s n { i with cap := i.cap - 25 }
  if i.stopping && i.cap ≤ 1425 then requestStep s (stopStep n) else s

/-- Begin to stop an oscillator: its cap falls to the floor first, and at the floor the stop step is requested
(R84 step 2). -/
def beginStop (s : State) (n : Nat) : State :=
  let i := instOf s n
  if !i.run || i.stopping then s
  else
    let s := setInst s n { i with stopping := true }
    if i.cap ≤ 1400 then requestStep s (stopStep n) else s

/-- Cycles of the array's instance that a ramp has run. -/
def rampDone (s : State) (a : Nat) (r : Ramp) : Nat := ((instOf s (64 + a)).cycles - r.start).toNat

/-- The active column count: a ramp moves it linearly over its cycles (R85). -/
def colsNow (s : State) (a : Nat) : Nat :=
  let x := arrOf s a
  match x.ramp with
  | none => x.cols
  | some r =>
    if r.len ≤ rampDone s a r then r.dest
    else if x.cols < r.dest then x.cols + (r.dest - x.cols) * rampDone s a r / r.len
    else x.cols - (x.cols - r.dest) * rampDone s a r / r.len

/-- A ramp of the array runs now. -/
def rampRuns (s : State) (a : Nat) : Bool :=
  match (arrOf s a).ramp with
  | some r => rampDone s a r < r.len
  | none => false

/-- The column ramp of an array with no other one in hand to n columns; on preemption and for radio work it is a radio
step (R85, R86, R263). -/
def askCols (s : State) (a n : Nat) (radio : Bool) : State :=
  let x := arrOf s a
  if x.cols = n then s
  else requestStep (setArr s a { x with asked := true })
    { kind := .cols a n, amount := rampAmount (if x.cols < n then n - x.cols else x.cols - n),
      rising := x.cols < n, radio := radio }

/-- A ramp that has run its cycles is over, and the count wanted meanwhile is asked for (R85, R261). -/
def settleRamp (s : State) (a : Nat) : State :=
  let x := arrOf s a
  match x.ramp with
  | none => s
  | some r =>
    if rampDone s a r < r.len then s
    else
      let s := setArr s a { x with cols := r.dest, ramp := none, want := none }
      match x.want with
      | some (n, radio) => askCols s a n radio
      | none => s

/-- The array is to have n columns. A ramp in progress always completes, and the new count waits for its end (R261).
While shedding lasts no ramp is asked for (R87). -/
def requestCols (s : State) (a n : Nat) (radio : Bool) : State :=
  if s.power.shed ≠ 0 then s
  else
    let s := settleRamp s a
    let x := arrOf s a
    if x.ramp.isSome || x.asked then setArr s a { x with want := some (n, radio) }
    else askCols (setArr s a { x with want := none }) a n radio

/-- A ramp of an array that still waits for its ledger is withdrawn (R263). -/
def withdrawCols (s : State) (a : Nat) : State :=
  if (arrOf s a).asked then
    setArr { s with power := { s.power with waiting := s.power.waiting.filter fun w =>
        match w.kind with
        | .cols b _ => b ≠ a
        | _ => true } } a { (arrOf s a) with asked := false }
  else s

/-- The array stands at n columns, with no ramp in hand. -/
def colsReady (s : State) (a n : Nat) : Bool :=
  (arrOf s a).cols = n && (arrOf s a).ramp.isNone && !(arrOf s a).asked

/-- Emergency shedding starts (R87): the cause is logged, grants stop, carriers close, links are reset, what still waits
in the ledger is dropped. It starts from NORMAL, or from RESUMING, where the restart stops. -/
def startShed (s : State) (cause : Nat) : State :=
  if s.power.shed = 0 || s.power.shed = 3 then
    let s := setFlagIf (cause = 0) 96 s
    let s := { s with power := { s.power with shed := 1, shedStep := 1, waiting := [] } }
    let s := { s with arr := s.arr.map fun e => (e.1, { e.2 with asked := false, want := none }) }
    let s := arrive (logEvent s 0x5004 0 cause 0) 458
    let s := settleRadio s
    (List.range 6).foldl (fun s k => setLink s k { (linkOf s k) with rearm := true }) s
  else s

/-- VR_FAULT: the flag and the shedding it starts (R80, R87). -/
def vrFault (s : State) : State := startShed (setFlag s 101) 1

/-- One PMBus transaction, of which `naks` tries in a row stay without acknowledgement: it is tried three times, and three
such tries are a VR_FAULT; a try before that which is acknowledged ends it (R80, log entry 58). -/
def pmbus (s : State) (naks : Nat) : State :=
  let s := { s with power := { s.power with ack := Decidable.decide (naks < 3) } }
  if naks < 3 then s else vrFault s

/-- The setpoint may move now: it does so no faster than 5 mV a millisecond (R70, R79). -/
def vsetDue (s : State) : Bool := s.power.vsetAt.all fun t => t + 100000 ≤ s.sclk

/-- A VOUT_COMMAND to a new setpoint, which holds once the regulator acknowledges it (R79, R80). -/
def voutCommand (s : State) (v naks : Nat) : State :=
  let p := s.power
  pmbus { s with power := { p with driving := true, vsetAt := some s.sclk, vset := if naks < 3 then v else p.vset } } naks

end Sys2Proof.Machine
end

