-- ==== Sys2Proof/Machine/Runs.lean ====
section
/-! DEFINITION. Rings, dispatched lists and their ends: deciding a descriptor's status, halting a ring (R158, R410),
stopping and failing a list (R175, R176, R189, R190), and the segments of the units (R168). -/
namespace Sys2Proof.Machine

/-! ### Rings and slots -/

/-- A ring. -/
def ringOf (s : State) (r : Nat) : Ring := tblGet {} s.ring r

/-- Put a ring. -/
def setRing (s : State) (r : Nat) (g : Ring) : State := { s with ring := tblSet {} s.ring r g }

/-- Depth of a ring in slots. -/
def depth (g : Ring) : Nat := 2 ^ g.log2

/-- A fetched slot whose completion is not written. -/
def slotOf (g : Ring) (k : Nat) : Option Slot := g.slots.find? fun x => x.k = k

/-- Change a slot of a ring. -/
def modSlot (s : State) (r k : Nat) (f : Slot → Slot) : State :=
  let g := ringOf s r
  setRing s r { g with slots := g.slots.map fun x => if x.k = k then f x else x }

/-- The run whose dispatch place a slot holds: it runs, or its outcome waits for its completion (R169). -/
def slotPlace (x : Slot) : Option Nat :=
  match x.st with
  | .running id => some id
  | .decided o => o.place
  | _ => none

/-- RUN: dispatched, uncompleted descriptors; the requests of one batch count as one (R163, R255). -/
def inFlight (g : Ring) : Nat := ((g.slots.filterMap slotPlace).foldl (fun l i => insertNew i l) []).length

/-- A status that halts the ring (R151 Table 6); admin results and NO_FLOOR do not. -/
def halts (r : Nat) (o : Outcome) : Bool :=
  o.status = 4 || o.status = 5 || (o.status = 6 && o.result ≠ 0xE2 && !(r < 8 && o.result ≤ 8))

/-! ### Collectors and their rings (R254) -/

/-- PA_COLc_A. -/
def colA (s : State) (c : Nat) : Nat := reg s (0xC0000 + 0x10 * c)

/-- An enabled collector. -/
def colEnabled (s : State) (c : Nat) : Bool := bitAt (colA s c) 15

/-- RING of a collector. -/
def colRing (s : State) (c : Nat) : Nat := bits (colA s c) 9 0

/-- ARRAY of a collector. -/
def colArray (s : State) (c : Nat) : Nat := bits (colA s c) 18 16

/-- The collector is valid (R254). -/
def colValid (s : State) (c : Nat) : Bool :=
  let g := ringOf s (colRing s c)
  colEnabled s c && g.st ≠ 0 && g.cls = 2 && 2 ≤ g.prio
  && !((List.range 64).any fun d => d ≠ c && colEnabled s d && colRing s d = colRing s c)
  && working s 1 (colArray s c)

/-- The valid collector of a ring. -/
def ringCollector (s : State) (r : Nat) : Option Nat :=
  (List.range 64).find? fun c => colRing s c = r && colValid s c

/-- Collectors that are enabled and not valid set COL_CFG_BAD when they come to be so (R254). -/
def watchCols (before after : State) : State :=
  (List.range 64).foldl (fun t c =>
    setFlagIf (colEnabled after c && !colValid after c && (colValid before c || !colEnabled before c)) 3208 t) after

/-! ### Runs -/

/-- The run of a number. -/
def findRun (s : State) (id : Nat) : Option Run := s.runs.find? fun x => x.id = id

/-- Change a run. -/
def modRun (s : State) (id : Nat) (f : Run → Run) : State :=
  { s with runs := s.runs.map fun x => if x.id = id then f x else x }

/-- Change a run's segment on a unit. -/
def modSeg (s : State) (id u : Nat) (f : Seg → Seg) : State :=
  modRun s id fun x => { x with segs := x.segs.map fun g => if g.unit = u then f g else g }

/-- Every segment of the run has ended or stopped. -/
def allEnded (x : Run) : Bool := x.segs.all (·.ended)

/-- The run holds a binding that is not resolved (R185). -/
def unresolved (x : Run) : Bool :=
  match x.bind with
  | some b => !b.confirmed
  | none => false

/-- A staging region is cleared to 0 (R189 step 3). -/
def clearStaging (s : State) (b : Binding) : State :=
  let a := b.stgOff * 65536
  let n := b.stgSize * 65536
  { s with mem := { s.mem with
      ssram := dropRange s.mem.ssram a n
      ssramCell := dropRange s.mem.ssramCell (a / 8) (n / 8)
      ssramZero := s.mem.ssramZero ++ [(a, n)] } }

/-- Tile memories a squashed list wrote are left undefined (R189 step 4). -/
def undefineUnits (s : State) (units : List Nat) : State :=
  units.foldl (fun s u =>
    let x := tileOf s (u / 256)
    setTile s (u / 256) { x with
      mem := dropRange x.mem (u % 256 * 4096) 4096
      unitEpoch := tblMod 0 x.unitEpoch (u % 256) (· + 1) }) s

/-- Names a list's completion binds to: its Maquette bindings or its RA_BIND (R312). -/
def boundSlots (x : Run) : List (Nat × Nat × Nat) :=
  if x.tables.isEmpty then
    match x.bind with
    | some b => [(b.carrier, b.sfn, b.slot)]
    | none => []
  else x.tables.map fun t => (t.carrier, t.sfn, t.slot)

/-- DETAIL[15:8] of an RX completion, as the run ends (R312 Table 5). -/
def rxDetail (s : State) (x : Run) : Nat :=
  let b := (boundSlots x).map fun t => (t.1, absFrame s t.2.1, t.2.2)
  let ex := b.any fun t => s.mq.excl.contains t
  bits x.detail 9 9 * 0x200 + b2n ex * 0x100 + b2n (b.any fun t => s.mq.clipped.contains t) * 0x400
    + b2n (b.any fun t => s.mq.erased.contains t) * 0x800

/-- FALLBACK_CLASSICAL of an RX completion (R300, R312): only with LEARNED_RX sealed. -/
def rxFallback (s : State) (x : Run) : Bool :=
  feat s 2 && (x.fallback || (boundSlots x).any fun t => s.mq.excl.contains (t.1, absFrame s t.2.1, t.2.2))

/-- What the run's completion will carry, by how it ended (R151, R176, R189, R312). -/
def runOutcome (s : State) (x : Run) : Outcome :=
  let rx := if x.cls = 0 then rxDetail s x else 0
  let o : Outcome := { rx := rx, varUsed := x.varUsed, fallback := if x.cls = 0 then rxFallback s x else x.fallback, grant := some x.grant, place := some x.id }
  match x.cause with
  | none => { o with detail := if x.cls = 0 then rx + bits x.detail 1 0 else x.detail }
  | some (.failed st res d _) => { o with status := st, result := res, detail := d % 65536 }
  | some .flushed => { o with status := 7, result := 0xF1, detail := rx }
  | some (.squashed c) => { o with status := 3, detail := rx + c * 4 }
  | some .powerShed => { o with status := 8 }
  | some .discarded => o

/-- Log INDEX of a unit: the tile number for RX (R423). -/
def unitIndex (cls u : Nat) : Nat := if cls = 0 then u % 64 else u

/-- A descriptor whose failure is decided makes a LIST entry (R423 Table 8). -/
def logList (s : State) (r : Nat) (seq unit : Nat) (o : Outcome) : State :=
  pushLog s { time := 0, code := 0x1001, func := (ringOf s r).fn, ring := r, seq := seq, index := unit,
              arg0 := o.status + o.result * 256, arg1 := o.detail }

/-- Slots not dispatched complete FLUSHED with NOT_DISPATCHED (R158, R159). -/
def flushWaiting (l : List Slot) : List Slot :=
  l.map fun x =>
    match x.st with
    | .waiting => { x with st := .decided { status := 7, result := 0xF0 } }
    | _ => x

/-- The runs of a ring's slots beyond slot k. -/
def runsAfter (g : Ring) (k : Nat) : List Nat :=
  g.slots.filterMap fun x =>
    match x.st with
    | .running id => if k < x.k then some id else none
    | _ => none

/-- Mark a run to stop for a cause, unless it has one; its segments stop at their next stop points (R158, R176). -/
def markStop (s : State) (id : Nat) (c : StopCause) : State :=
  modRun s id fun x => { x with cause := some (x.cause.getD c), segs := x.segs.map fun g => { g with stop := true } }

/-- A ring halts at slot k (R158, R206): nothing of it is granted, what waits is flushed, what runs behind it is
marked to stop, its halt bit is set and its vector requested. -/
def haltRing (s : State) (r k : Nat) : State :=
  let g := ringOf s r
  let s := setRing s r { g with st := 2, slots := flushWaiting g.slots }
  let s := requestVec (setFlag s (1024 + r)) g.fn g.vector
  (runsAfter g k).foldl (fun s id => markStop s id .flushed) s

/-- A descriptor's outcome is decided. A halting status halts a RUNNING ring; on a HALTED or RESETTING ring the
descriptor completes FLUSHED with STOPPED, an RX one with its DETAIL[15:8], and its fault stays in the log (R158, R312,
R410). -/
def decide (s : State) (r k unit : Nat) (o : Outcome) : State :=
  let g := ringOf s r
  match slotOf g k with
  | none => s
  | some x =>
    if halts r o then
      let s := logList s r x.seq unit o
      if g.st = 1 then haltRing (modSlot s r k fun x => { x with st := .decided o }) r k
      else modSlot s r k fun x => { x with st := .decided { o with status := 7, result := 0xF1, detail := o.rx } }
    else modSlot s r k fun x => { x with st := .decided o }

/-- The slots a run stands for. -/
def runSlots (g : Ring) (id : Nat) : List Nat :=
  g.slots.filterMap fun x => if x.st = .running id then some x.k else none

/-- The outcome of one slot of a run. In a batch that ended, a request that ran carries its column and the batch size
less 1, the one that failed a check its failure, and those after it FLUSHED with STOPPED (R258, R260). -/
def slotOutcome (x : Run) (k : Nat) (o : Outcome) : Outcome :=
  if !x.isBatch || x.cause.isSome then o
  else match x.reqFail with
  | some (f, st, res, d) =>
    if k = f then { o with status := st, result := res, detail := d % 65536 }
    else if f < k then { o with status := 7, result := 0xF1, detail := 0 }
    else { o with detail := (x.batch.findIdx fun e => e.1 = k) + (x.batch.length - 1) * 256 }
  | none => { o with detail := (x.batch.findIdx fun e => e.1 = k) + (x.batch.length - 1) * 256 }

/-- What a run that did not end normally takes back: SIGNAL_LOCAL totals, its binding with the region cleared, and for
a squash the tile memories it wrote (R173, R189, R190). A confirmed list keeps its region. -/
def takeBack (s : State) (x : Run) : State :=
  match x.cause with
  | none => s
  | some .discarded =>
    let s := match x.bind with
      | some b => if b.confirmed then s else clearStaging s b
      | none => s
    if x.squashed then undefineUnits s x.tiles else s
  | some c =>
    let s := x.locals.foldl (fun s e => evcAdd s e.1 (- BitVec.ofNat 32 e.2)) s
    let s := match x.bind with
      | some b => if b.confirmed then s else clearStaging s b
      | none => s
    match c with
    | .squashed _ => undefineUnits s x.tiles
    | _ => s

/-- One version entry's binding is released (R306): a SUPERSEDED entry whose count reaches 0 becomes FREE. -/
def releaseVer (s : State) (e : Nat) : State :=
  let v := tblGet {} s.mq.ver e
  let n := v.inUse - 1
  let v := if v.st = 3 && n = 0 then ({} : Ver) else { v with inUse := n }
  { s with mq := { s.mq with ver := tblSet {} s.mq.ver e v } }

/-- The unit that failed a run, for the log. -/
def failedUnit (x : Run) : Nat :=
  match x.cause with
  | some (.failed _ _ _ u) => unitIndex x.cls u
  | _ => 0

/-- Its end releases the Maquette bindings at once: a squash, and a reset function's list, which writes no completion
(R306, R310). -/
def releasesNow (x : Run) : Bool :=
  match x.cause with
  | some (.squashed _) => true
  | some .discarded => true
  | _ => false

/-- A run ends: what it takes back, then its slots' outcomes; a discarded one completes nothing (R128, R170). -/
def finishRun (s : State) (id : Nat) : State :=
  match findRun s id with
  | none => s
  | some x =>
    let s := takeBack s x
    let o := runOutcome s x
    let binds := x.tables.filterMap (·.entry)
    let s := { s with runs := s.runs.filter fun y => y.id ≠ id }
    let s := if releasesNow x then binds.foldl releaseVer s else s
    let left := if releasesNow x then [] else binds
    if x.cause = some .discarded then s
    else
      (runSlots (ringOf s x.ring) id).foldl (fun s k =>
        decide (modSlot s x.ring k fun y => { y with binds := left }) x.ring k (failedUnit x) (slotOutcome x k o)) s

/-- A run that has a cause to end and no segment left ends. -/
def finishIfEnded (s : State) (id : Nat) : State :=
  match findRun s id with
  | some x => if x.cause.isSome && x.cause ≠ some .discarded && allEnded x then finishRun s id else s
  | none => s

/-- A list's binding can be squashed: it runs, or it is a reset function's, which runs to its end all the same (R128). -/
def squashable (x : Run) : Bool := x.cause.isNone || (x.cause = some .discarded && !x.squashed)

/-- A list's binding is squashed, and TILE_RA_CNT counts it (R189, R191): 0 CONTRADICTED, 1 UNCONFIRMED. Its segments
stop; a reset function's list stays without a completion. -/
def squash (s : State) (id c : Nat) : State :=
  match findRun s id with
  | some x =>
    if squashable x then
      modRun (markStop { s with ra := { s.ra with squashed := satInc 0xFFFF s.ra.squashed } } id (.squashed c)) id fun y =>
        { y with squashed := true }
    else s
  | none => s

/-- A run of a ring that takes its late event now: it asks for it, and the count has passed its deadline (R184). -/
def takesLate (s : State) (r : Nat) (x : Run) : Bool :=
  x.ring = r && x.lateEvt && x.deadline ≠ 0 && !x.lateSent && late s x.deadline

/-- Stop a run for a cause. -/
def stopRun (s : State) (id : Nat) (c : StopCause) : State := finishIfEnded (markStop s id c) id

/-- Runs whose every segment had already ended when they were marked to stop end now. -/
def sweepRuns (s : State) : State := (s.runs.map (·.id)).foldl finishIfEnded s

/-! ### Segments on units -/

/-- The segment that holds an array (R192). -/
def holding (s : State) (a : Nat) : Option (Run × Seg) :=
  match (arrOf s a).holder with
  | none => none
  | some id =>
    match findRun s id with
    | none => none
    | some x => (x.segs.find? fun g => g.unit = a && !g.ended && !g.preempted).map fun g => (x, g)

/-- The segment a unit runs: of the runs of its class in dispatch order the first with one there that has not ended; on
an array the one that holds it (R168, R192). -/
def current (s : State) (cls u : Nat) : Option (Run × Seg) :=
  if cls = 2 && u < 8 then holding s u
  else s.runs.findSome? fun x =>
    if x.cls = cls then (x.segs.find? fun g => g.unit = u && !g.ended).map fun g => (x, g) else none

/-- The first segment in dispatch order on an array of the runs with a property. -/
def firstOn (s : State) (a : Nat) (p : Run → Seg → Bool) : Option (Run × Seg) :=
  s.runs.findSome? fun x =>
    if x.cls = 2 then (x.segs.find? fun g => g.unit = a && !g.ended && !g.stop && p x g).map fun g => (x, g) else none

/-- The radio segment that an array is given next: a radio-critical one first (R18), those of one class in dispatch order
(R192). Read alone, R192 would have segments of both classes in dispatch order (DESIGN CHOICE, log entry 60). -/
def radioNext (s : State) (a : Nat) : Option (Run × Seg) :=
  match firstOn s a fun x _ => x.prio = 0 with
  | some z => some z
  | none => firstOn s a fun x _ => x.prio = 1

/-- The preempted segment of an array. -/
def preemptedOn (s : State) (a : Nat) : Option (Run × Seg) := firstOn s a fun _ g => g.preempted

/-- The segment that gets a free array: radio segments first; while one is preempted, no other inference segment (R192,
R194, R261). -/
def arrayNext (s : State) (a : Nat) : Option (Run × Seg) :=
  match radioNext s a with
  | some z => some z
  | none => if (preemptedOn s a).isSome then none else firstOn s a fun _ _ => true

/-- N of a PA operation (R248 Table 3); none for PA_COLLECT, and for what is no PA operation. -/
def opN (o : ListOp) : Option Nat :=
  match o.opc with
  | 0x30 => some (bits ((o.extra.getD 3 0).toNat) 40 33)
  | 0x31 => some (bits ((o.extra.getD 4 0).toNat) 27 20)
  | 0x32 => some (bits o.imm 20 13)
  | 0x33 => some (bits ((o.extra.getD 1 0).toNat) 20 13)
  | 0x34 => some (bits o.imm 20 13)
  | _ => none

/-- The column count a segment needs next (R261): N of the operation it is in, or of its next PA operation; none for a
batch whose requests are not checked yet. -/
def opColumns (x : Run) (g : Seg) : Option Nat :=
  match g.phase with
  | .pa _ n _ _ => some n
  | _ => if x.isBatch then none else some (min ((g.ops.findSome? opN).getD 0) 128)

/-- The array ramps to what a segment needs. A ramp-down from radio work is a radio step, whoever comes next (R86). -/
def rampFor (s : State) (a : Nat) (x : Run) (g : Seg) (wasRadio : Bool) : State :=
  match opColumns x g with
  | some n => requestCols s a n (x.prio < 2 || (wasRadio && Decidable.decide (n < (arrOf s a).cols)))
  | none => s

/-- A segment gets an array: the array ramps to its N (R261). -/
def giveArray (s : State) (a : Nat) (x : Run) (g : Seg) : State :=
  let was := (arrOf s a).occupant = 2
  let s := setArr s a { (arrOf s a) with occupant := if x.prio < 2 then 2 else 1, func := x.fn, holder := some x.id }
  rampFor s a x g was

/-- A free array goes to the next segment; without one it is idle and ramps to 0, or to the N of the segment that will
resume (R261). The ramp-down at the end of radio work is a radio step (R85, R86). -/
def leaveArray (s : State) (a : Nat) : State :=
  match arrayNext s a with
  | some (x, g) => giveArray s a x g
  | none =>
    let was := (arrOf s a).occupant = 2
    let s := setArr s a { (arrOf s a) with occupant := 0, holder := none }
    match preemptedOn s a with
    | some (x, g) => rampFor s a x g was
    | none => requestCols s a 0 was

/-- What a unit held for the segment it leaves: a TVC stops, a CD unit gives its HARQ entries back, a planner core is
idle. -/
def freeUnit (s : State) (cls u : Nat) : State :=
  match cls with
  | 0 =>
    let x := tileOf s (u % 64)
    if u < 64 then setTile s u { x with tvc0 := { x.tvc0 with active := false, dmas := [] } }
    else if u < 128 then setTile s (u % 64) { x with tvc1 := { x.tvc1 with active := false, dmas := [] } }
    else s
  | 1 =>
    let h := s.ce.harq.filterMap fun e =>
      if e.2.heldBy ≠ some u then some e
      else if e.2.st = 0 then none
      else some (e.1, { e.2 with heldBy := none, reserved := [] })
    { s with ce := { s.ce with harq := h } }
  | 3 => { s with core := tblMod {} s.core u fun c => { c with phase := 0 } }
  | _ => s

/-- The unit runs the segment of run `id` now. -/
def runsNow (s : State) (cls u id : Nat) : Bool :=
  match current s cls u with
  | some (y, _) => y.id = id
  | none => false

/-- An array whose preempted segment has ended no longer holds one; if it is free it goes to the next segment. -/
def dropPreempted (s : State) (a : Nat) : State :=
  let s := setArr s a { (arrOf s a) with preempted := false }
  if (holding s a).isNone then leaveArray s a else s

/-- A segment is over; when its unit was running it the unit is free for the next one. -/
def endSeg (s : State) (x : Run) (u : Nat) : State :=
  let now := runsNow s x.cls u x.id
  let held := x.segs.any fun g => g.unit = u && g.preempted && !g.ended
  let s := modSeg s x.id u fun g => { g with ended := true }
  if now then
    let s := freeUnit s x.cls u
    if x.cls = 2 && u < 8 then leaveArray s u else s
  else if x.cls = 2 && u < 8 && held then dropPreempted s u
  else s

/-- An operation fails on a unit: its segment ends, the others stop, and the descriptor fails (R175, R176). A list that
already has a cause keeps it. -/
def failSeg (s : State) (x : Run) (u status result detail : Nat) : State :=
  let s := endSeg s x u
  if x.cause = some .discarded then modRun s x.id fun y => { y with segs := y.segs.map fun g => { g with stop := true } }
  else stopRun s x.id (.failed status result detail u)

/-- UNIT is in Table 3 and names a working unit (R168 Table 3). -/
def unitWorks (s : State) (cls u : Nat) : Bool :=
  match cls with
  | 0 => u < 192 && working s 0 (u % 64)
  | 1 => if u < 24 then working s 2 u else if u < 32 then working s 3 (u - 24)
    else if u < 36 then working s 4 (u - 32) else u < 38 && working s 5 (u - 36)
  | 2 => working s 1 u
  | 3 => working s 6 u
  | 4 => working s 10 u
  | 5 => working s 11 u
  | 6 => u < 16
  | _ => false

/-- A segment reaches its next operation: it ends when none is left, or fails on a check (R164, R167, R168). -/
def reachOp (s : State) (x : Run) (g : Seg) : State :=
  match g.ops with
  | [] => endSeg s x g.unit
  | o :: _ =>
    if o.bad ≠ 0 then failSeg s x g.unit 6 o.bad o.idx
    else if !unitWorks s x.cls g.unit then failSeg s x g.unit 6 0xC5 o.idx
    else s

/-- Segments that become a unit's current one are tested on their first operation, at most one per run left. -/
def settleUnitAux : Nat → State → Nat → Nat → State
  | 0, s, _, _ => s
  | n + 1, s, cls, u =>
    match current s cls u with
    | none => s
    | some (x, g) =>
      if g.stop || g.phase ≠ .ready then s
      else
        let t := reachOp s x g
        if t.runs.countP (fun y => y.segs.any fun h => h.unit = u && !h.ended) <
            s.runs.countP (fun y => y.segs.any fun h => h.unit = u && !h.ended)
        then settleUnitAux n t cls u else t

/-- See settleUnitAux; a free array first goes to its next segment. -/
def settleUnit (s : State) (cls u : Nat) : State :=
  let s := if cls = 2 && u < 8 && (holding s u).isNone then leaveArray s u else s
  settleUnitAux (s.runs.length + 1) s cls u

/-- An operation has ended: its segment goes on to the next one (R168). -/
def advance (s : State) (x : Run) (u : Nat) : State :=
  let s := modSeg s x.id u fun g => { g with ops := g.ops.tail, phase := .ready, copies := [] }
  settleUnit s x.cls u

/-- The FX operation of a port has no message left, neither to reach nor queued: it ends, and its counts are whole (R360). -/
def settleFx (s : State) (p : Nat) : State :=
  match current s 4 p with
  | some (x, g) =>
    if g.phase = .fx [] && !(portOf s p).queue.any (fun f => f.kind < 2 && f.ring = x.ring && f.k = x.k)
    then advance s x p else s
  | none => s

/-- An operation fails; then the unit's next segment is tested. -/
def failOp (s : State) (x : Run) (u status result detail : Nat) : State :=
  settleUnit (failSeg s x u status result detail) x.cls u

end Sys2Proof.Machine
end

