-- ==== Sys2Proof/Machine/Retire.lean ====
section
/-! DEFINITION. Live retirement of a unit (R421, R422). -/
namespace Sys2Proof.Machine

/-- Class and UNIT values of the segments that run on a unit of an ERR_RETIRE_CMD type (R168 Table 3). -/
def unitSegs (typ idx : Nat) : Nat × List Nat :=
  match typ with
  | 0 => (0, [idx, 64 + idx, 128 + idx])
  | 1 => (2, [idx])
  | 2 => (1, [idx])
  | 3 => (1, [24 + idx])
  | 4 => (1, [32 + idx])
  | 5 => (1, [36 + idx])
  | 6 => (3, [idx])
  | 10 => (4, [idx])
  | 11 => (5, [idx])
  | _ => (7, [])

/-- Word index of the operation a segment executes, 0 when none is left. -/
def segWord (g : Seg) : Nat := match g.ops with | [] => 0 | o :: _ => o.idx

/-- The runs with a segment on the unit and one that has not ended fail with UNIT_FAULT; their segments there stop at
once, whatever their stop points (R422 step 2). -/
def faultSegs (s : State) (cls : Nat) (units : List Nat) : State :=
  s.runs.foldl (fun t x =>
    match x.segs.find? (fun g => units.contains g.unit) with
    | some g =>
      if x.cls = cls && !allEnded x then
        let live := x.segs.find? fun g => units.contains g.unit && !g.ended
        let t := markStop t x.id (.failed 6 0xCB (segWord (live.getD g)) g.unit)
        units.foldl (fun t u => if x.segs.any (fun g => g.unit = u && !g.ended) then endSeg t x u else t) t
      else t
    | none => t) s

/-- Every dispatched engine descriptor fails with UNIT_FAULT, under R176 (R422 Table 5, HBM3 stack). -/
def faultAll (s : State) : State :=
  s.runs.foldl (fun t x =>
    match x.segs.find? (fun g => !g.ended) with
    | some g => markStop t x.id (.failed 6 0xCB (segWord g) g.unit)
    | none => t) s

/-- Drop the HARQ entries that `which` picks, each counted, the count saturating at 32 bits (R336). -/
def dropHarq (s : State) (which : Nat → Harq → Bool) : State :=
  let n := s.ce.harq.countP fun e => e.2.st ≠ 0 && which e.1 e.2
  { s with ce := { s.ce with
      harq := s.ce.harq.filter fun e => !which e.1 e.2
      drop := min 0xFFFFFFFF (s.ce.drop + n) } }

/-- ID of HARQ_DROPPED (CE_FLAGS, R340). -/
def idHarqDropped : Nat := 2564

/-- A port is UP no more: its queue is discarded, an FX operation that waited for nothing else goes on, and what its
carriers had open closes (R342, R346, R360, R365). On becoming DOWN it has its arrival and LINK_DOWN; on becoming DISABLED,
which is no change between DOWN and UP, neither. -/
def portLeave (s : State) (p : Nat) : State :=
  let x := portOf s p
  let s := discardFrames (setPort s p { x with lock := false, up := false, frag := none }) p 16 (fun _ => true)
  let s := if x.up && portState s p = 1 then arrive (setFlag s (2048 + p)) (464 + p) else s
  settleFx (settleRadio s) p

/-- An SSRAM bank holds part of a staging region. -/
def regionInBank (b : Binding) (bank : Nat) : Bool :=
  b.stgOff * 65536 < (bank + 1) * 8388608 && bank * 8388608 < (b.stgOff + b.stgSize) * 65536

/-- Further effects by unit (R422 Table 5), once the unit's bit is set. -/
def retireEffects (s : State) (typ idx : Nat) : State :=
  match typ with
  | 8 => s.runs.foldl (fun t x =>
      match x.bind with
      | some b => if !b.confirmed && regionInBank b idx then squash t x.id 1 else t
      | none => t) s
  | 9 =>
    let s := { s with mem := { s.mem with hbm := [], hbmCell := [], hbmEpoch := s.mem.hbmEpoch + 1 } }
    setFlag (dropHarq s fun _ _ => true) idHarqDropped
  | 10 => refsRecheck (portLeave s idx)
  | 11 => settleRadio s
  | _ => s

/-- XCLK instance that stops with the unit: a tile's, an array's, the one of the coding engine or of Espalier once
nothing of it works. -/
def retireInst (s : State) (typ idx : Nat) : Option Nat :=
  if typ = 0 then some idx
  else if typ = 1 then some (64 + idx)
  else if 2 ≤ typ && typ ≤ 5 && instRetired s 72 then some 72
  else if (typ = 6 || typ = 7) && instRetired s 73 then some 73
  else none

/-- Live retirement of one unit without its log entry; none when the unit is absent or already retired (R421). -/
def retireUnit (s : State) (typ idx : Nat) : Option State :=
  if working s typ idx then
    let (cls, units) := unitSegs typ idx
    let s := faultSegs s cls units
    let s := if typ = 9 then faultAll s else s
    let t := { s with retired := tblSet false s.retired (typ * 256 + idx) true }
    let t := match retireInst t typ idx with
      | some n => if (instOf t n).run then requestStep t (stopStep n) else t
      | none => t
    some (setFlag (watchCols s (recap (retireEffects t typ idx))) 3072)
  else none

/-- The descriptors that the retirement stopped end, and units left without their first segment go on. -/
def afterRetire (s : State) : State :=
  s.runs.foldl (fun t x => x.segs.foldl (fun t g => if g.ended then t else settleUnit t x.cls g.unit) t) (sweepRuns s)

/-- Live retirement with its UNIT log entry: code, ARG1 (R422 step 6, R423). -/
def retire (s : State) (typ idx code arg1 : Nat) : State :=
  match retireUnit s typ idx with
  | none => s
  | some t => afterRetire (logEvent t code idx typ arg1)

/-- Units of I/O die 1 or 2: ports, links, stacks, peer port (R11, R422 Table 5). -/
def dieUnits (d : Nat) : List (Nat × Nat) :=
  [(10, 4 * d), (10, 4 * d + 1), (10, 4 * d + 2), (10, 4 * d + 3), (11, 2 * d), (11, 2 * d + 1),
   (9, 2 * d), (9, 2 * d + 1), (12, d)]

/-- The units of a die are retired together, with the one entry 0x3004 (R417, R422, R423). -/
def retireDie (s : State) (d : Nat) : State :=
  let t := (dieUnits d).foldl (fun t u => (retireUnit t u.1 u.2).getD t) s
  afterRetire (logEvent t 0x3004 d d 0)

/-- The automatic retirement types of ERR_RETIRE_CFG.AUTO: tiles, arrays, CE cores, SSRAM banks, HBM3 stacks (R424). -/
def autoBit (typ : Nat) : Option Nat :=
  match typ with
  | 0 => some 8
  | 1 => some 9
  | 2 | 3 | 4 | 5 => some 10
  | 8 => some 11
  | 9 => some 12
  | _ => none

/-- One uncorrectable error more of a unit; on reaching UE_LIMIT with AUTO set the unit is retired (R421). -/
def countUe (s : State) (typ idx : Nat) : State :=
  let n := tblGet 0 s.err.ueCount (typ * 256 + idx) + 1
  let s := { s with err := { s.err with ueCount := tblSet 0 s.err.ueCount (typ * 256 + idx) n } }
  let cfg := reg s 0x80010
  let auto := match autoBit typ with
    | some b => bitAt cfg b
    | none => false
  if auto && bits cfg 7 0 ≠ 0 && n = bits cfg 7 0 then retire s typ idx 0x3002 n else s

end Sys2Proof.Machine
end

