-- ==== Sys2Proof/Machine/Mem.lean ====
section
/-! DEFINITION. Device addresses: translation, its faults and its caches (R212 to R220), HBM3 and SSRAM with their ECC
and poison (R222 to R225, R408), host and peer memory, and the staging regions of run-ahead lists (R187). -/
namespace Sys2Proof.Machine

/-- Who makes an access: its translation context, its engine class (7 when no engine makes it), the run it is made
for and the unit whose operation makes it, whether its writes are discarded (R128), and whether it is the machinery of an
admin ring (R139). -/
structure Agent where
  ctx : Nat
  cls : Nat
  run : Option Nat := none
  unit : Option Nat := none
  discard : Bool := false
  admin : Bool := false
  deriving DecidableEq, Repr

/-- The agent of a run, on one of its units. -/
def agentOf (x : Run) (unit : Option Nat := none) : Agent :=
  { ctx := x.fn, cls := x.cls, run := some x.id, unit := unit, discard := x.cause = some .discarded }

/-- Why an access or a check failed: status and result of the completion. -/
structure Fail where
  status : Nat
  result : Nat
  /-- a translation fault in fetching a layout descriptor: DETAIL is 0xFFFF (R218) -/
  fetch : Bool
  deriving DecidableEq, Repr

/-- What an access answers. -/
inductive Res (α : Type) where
  | ok (a : α)
  | fail (f : Fail)
  deriving DecidableEq, Repr

/-- Go on with what an access answered. -/
def afterRes {α β : Type} (p : State × Res α) (ok : State → α → β) (fail : State → Fail → β) : β :=
  match p with
  | (s, .ok a) => ok s a
  | (s, .fail f) => fail s f

/-- A place in a target space (R212 Table 1): 0 HOST, 1 HBM, 2 SSRAM, 3 PEER. A PEER address is that behind the port of
`die`; a HOST access may carry No Snoop (R214). -/
structure Place where
  tgt : Nat
  addr : Nat
  die : Nat := 0
  noSnoop : Bool := false
  deriving DecidableEq, Repr

/-- A poisoned part of what a read returned: where in the data, and where in memory. -/
structure Poison where
  ofs : Nat
  len : Nat
  tgt : Nat
  addr : Nat
  deriving DecidableEq, Repr

/-- What a read returned. -/
structure Data where
  bytes : List Byte := []
  poison : List Poison := []
  deriving DecidableEq, Repr

/-! ### Translation -/

/-- A translation context. -/
def ctxOf (s : State) (c : Nat) : Ctx := tblGet {} s.mem.ctx c

/-- How the host answers reads at a bus address. -/
def hostAns (s : State) (a : Nat) : Nat := tblGet 0 s.mem.hostAnswer (a / 4096)

/-- An aligned 8 B read of host memory by bus address; none when it returns a PCIe error or poison (R217, R219). -/
def hostWord (s : State) (a : Nat) : Option Nat :=
  if hostAns s a = 0 then some (ofLe (bytesAt (hostByte s) a 8)) else none

/-- A cached entry is a leaf that passes the checks of Table 2 (R216); `pages` says its level. -/
def goodLeaf (e : XltEntry) : Bool :=
  bitAt e.word.toNat 2 && (e.pages = 1 || (e.pages = 512 && bits e.word.toNat 20 12 = 0))

/-- The content of a page-table entry that the device uses: what memory holds, or what some cache still holds (R219). The
read from memory may stay without an answer (R442). -/
def pteWord (s : State) (c ea : Nat) : Option Nat :=
  let m := if s.mem.timesOut = 2 then none else hostWord s ea
  match s.mem.xlt.find? (fun e => e.ctx = c && e.addr = ea && !goodLeaf e && some e.word.toNat ≠ m
      && Config.keepsEntry s.choice c ea) with
  | some e => some e.word.toNat
  | none => m

/-- A finished walk: leaf word with W cleared where an entry above has W = 0, its address and its level's shift. -/
structure Leaf where
  word : Nat
  addr : Nat
  shift : Nat
  deriving DecidableEq, Repr

/-- The walk from a table at a bus address through the levels with these shifts (R215, R216): the cause of a failed
check or the leaf, and the entries read with P = 1. -/
def walkLevels (s : State) (c va : Nat) (wr : Bool) : List Nat → Nat → Bool → List XltEntry → Res Leaf × List XltEntry
  | [], _, _, seen => (.fail ⟨5, 0xDA, false⟩, seen)
  | sh :: rest, base, w, seen =>
    let ea := base + 8 * (va / 2 ^ sh % 512)
    match pteWord s c ea with
    | none => (.fail ⟨5, 0xDF, false⟩, seen)
    | some e =>
      if !bitAt e 0 then (.fail ⟨5, 0xD8, false⟩, seen)
      else
        let leaf := bitAt e 2
        let w := w && bitAt e 1
        let word := if leaf && !w && bitAt e 1 then e - 2 else e
        let seen := seen ++ [{ ctx := c, addr := ea, firstPage := va / 2 ^ sh * 2 ^ (sh - 12), pages := 2 ^ (sh - 12),
                               word := BitVec.ofNat 64 word }]
        if (leaf && 30 ≤ sh) || (!leaf && sh = 12) || (leaf && sh = 21 && bits e 20 12 ≠ 0) then (.fail ⟨5, 0xDA, false⟩, seen)
        else if wr && !bitAt e 1 then (.fail ⟨5, 0xD9, false⟩, seen)
        else if leaf then (.ok ⟨word, ea, sh⟩, seen)
        else walkLevels s c va wr rest (bits e 51 12 * 4096) w seen

/-- A cached leaf that covers the page and differs from what the walk finds may still be used (R219). -/
def staleLeaf (s : State) (c va : Nat) (fresh : Res Leaf) : Option XltEntry :=
  s.mem.xlt.find? fun e =>
    e.ctx = c && goodLeaf e && e.firstPage ≤ va / 4096 && va / 4096 < e.firstPage + e.pages
    && (match fresh with | .ok l => l.word ≠ e.word.toNat || l.shift ≠ (if e.pages = 1 then 12 else 21) | .fail _ => true)
    && Config.keepsEntry s.choice c e.addr

/-- The leaf an access uses, and the caches after it: a walk adds the present entries it read (R219). -/
def findLeaf (s : State) (c va : Nat) (wr : Bool) : State × Res Leaf :=
  let (r, seen) := walkLevels s c va wr [39, 30, 21, 12] (ctxOf s c).root true []
  match staleLeaf s c va r with
  | some e =>
    let l : Leaf := ⟨e.word.toNat, e.addr, if e.pages = 1 then 12 else 21⟩
    (takeChoice s, if wr && !bitAt l.word 1 then .fail ⟨5, 0xD9, false⟩ else .ok l)
  | none =>
    let fresh := seen.filter fun e => !(s.mem.xlt.contains e)
    ({ takeChoice s with mem := { s.mem with
        xlt := s.mem.xlt ++ fresh, timesOut := if s.mem.timesOut = 2 then 0 else s.mem.timesOut } }, r)

/-- Number of working stacks. -/
def workStacks (s : State) : List Nat := (List.range 6).filter (working s 9)

/-- HBM_CAP in bytes (R222). -/
def hbmCap (s : State) : Nat := (workStacks s).length * 24 * 2 ^ 30

/-- Interleave granularity in bytes (R222, Table 9). -/
def granularity (s : State) : Nat :=
  match fld s 0x90000 1 0 with
  | 1 => 65536
  | 2 => 2097152
  | _ => 4096

/-- Stack of an HBM offset (R222). -/
def stackOf (s : State) (off : Nat) : Nat :=
  let w := workStacks s
  w.getD (off / granularity s % max w.length 1) 0

/-- Bytes of a stack: 24 GiB. -/
def stackBytes : Nat := 24 * 2 ^ 30

/-- Where an HBM offset lies: 24 GiB for each stack before its own, and its place in that one (R222 `local`). -/
def hbmPlace (s : State) (off : Nat) : Nat :=
  let g := granularity s
  stackOf s off * stackBytes + (off / g / max (workStacks s).length 1 * g + off % g)

/-- The HBM offset of a place in a working stack (R222). -/
def hbmOffset (s : State) (a : Nat) : Nat :=
  let g := granularity s
  let w := workStacks s
  (a % stackBytes / g * w.length + w.findIdx (· = a / stackBytes)) * g + a % stackBytes % g

/-- log2 of a peer window's size (R226). -/
def winSize (s : State) (w : Nat) : Nat :=
  let z := fld s (0xA2000 + 0x20 * w) 13 8
  if 12 ≤ z && z ≤ 40 then z else 12

/-- DIE of a window whose port works; a window without one is disabled (R226, R422). -/
def winDie (s : State) (w : Nat) : Option Nat :=
  let d := fld s (0xA2000 + 0x20 * w) 3 2
  if working s 12 d then some d else none

/-- The place a leaf maps a device address to, or the failing check (R217 steps 4 and 5). -/
def placeOf (s : State) (cls va : Nat) (l : Leaf) : Res Place :=
  let a := bits l.word 51 12 * 4096 + va % 2 ^ l.shift
  match bits l.word 5 4 with
  | 0 => .ok { tgt := 0, addr := a, noSnoop := bitAt l.word 3 }
  | 1 => if a < hbmCap s then .ok { tgt := 1, addr := hbmPlace s a } else .fail ⟨5, 0xDB, false⟩
  | 2 => if a < 2 ^ 27 && working s 8 (a / 2 ^ 23) then .ok { tgt := 2, addr := a } else .fail ⟨5, 0xDB, false⟩
  | _ =>
    if cls ≠ 6 then .fail ⟨5, 0xDE, false⟩
    else
      let w := bits l.word 11 8
      match winDie s w with
      | some d =>
        if bitAt (reg s (0xA2000 + 0x20 * w)) 0 && a < 2 ^ winSize s w
        then .ok { tgt := 3, addr := bits (reg64 s (0xA2008 + 0x20 * w)) 63 12 * 4096 + a, die := d }
        else .fail ⟨5, 0xDB, false⟩
      | none => .fail ⟨5, 0xDB, false⟩

/-- A translation fault: XLT_FAULT with its count, WALK_ERR for that cause, and the fault registers when they hold none
(R218). -/
def recordFault (s : State) (c va cause : Nat) (wr : Bool) : State :=
  let s := setFlagIf (cause = 0xDF) 2978 (setFlag s 2976)
  let x := ctxOf s c
  if x.faultValid then s
  else
    let x := { x with faultAddr := va % 2 ^ 48, faultCause := cause, faultWrite := wr, faultValid := true }
    { s with mem := { s.mem with ctx := tblSet {} s.mem.ctx c x } }

/-- Translation of one access inside a page, its checks in the order of R217. Only an admin command enables context 0
(R136, R215), so until one has, the admin rings' own accesses go to host memory by bus address (log entry 57). -/
def xlate (s : State) (g : Agent) (va : Nat) (wr : Bool) : State × Res Place :=
  let fail (s : State) (f : Fail) : State × Res Place := (recordFault s g.ctx va f.result wr, .fail f)
  if 2 ^ 48 ≤ va then fail s ⟨5, 0xDD, false⟩
  else if !(ctxOf s g.ctx).en then
    if g.admin && !(ctxOf s g.ctx).wasEn then (s, .ok { tgt := 0, addr := va }) else fail s ⟨5, 0xDC, false⟩
  else
    match findLeaf s g.ctx va wr with
    | (s, .fail f) => fail s f
    | (s, .ok l) =>
      match placeOf s g.cls va l with
      | .ok p => (s, .ok p)
      | .fail f => fail s f

/-- The parts of a range page by page (R213). -/
def pieces (va n : Nat) : List (Nat × Nat) :=
  if n = 0 then []
  else (List.range ((va + n - 1) / 4096 - va / 4096 + 1)).map fun i =>
    let lo := max va ((va / 4096 + i) * 4096)
    let hi := min (va + n) ((va / 4096 + i + 1) * 4096)
    (lo, hi - lo)

/-! ### ECC and poison of HBM3 and SSRAM (R223, R225) -/

/-- Bytes of a protected unit: 32 in HBM, 8 in SSRAM. -/
def cellBytes (tgt : Nat) : Nat := if tgt = 1 then 32 else 8

/-- The cells of a space. -/
def cellsOf (s : State) (tgt : Nat) : Tbl Nat := if tgt = 1 then s.mem.hbmCell else s.mem.ssramCell

/-- Put the cells of a space. -/
def setCells (s : State) (tgt : Nat) (c : Tbl Nat) : State :=
  if tgt = 1 then { s with mem := { s.mem with hbmCell := c } } else { s with mem := { s.mem with ssramCell := c } }

/-- MEM_ECC index of a place, and the unit's retirement type and number. -/
def eccUnit (tgt off : Nat) : Nat × Nat × Nat :=
  if tgt = 1 then (off / stackBytes, 9, off / stackBytes) else (6 + off / 2 ^ 23, 8, off / 2 ^ 23)

/-- One correction: the CE count, MEM_CE, and the log at each 256th. -/
def countCe (s : State) (tgt off : Nat) : State :=
  let (n, typ, idx) := eccUnit tgt off
  let e := tblGet {} s.mem.ecc n
  let c := satInc 0xFFFF e.ce
  let s := setFlag { s with mem := { s.mem with ecc := tblSet {} s.mem.ecc n { e with ce := c } } } 2944
  if c = e.ce then s else corrected s typ idx c

/-- One uncorrectable read: the UE count, MEM_UE_ADDR, MEM_UE and the limit of R421. -/
def countMemUe (s : State) (tgt off : Nat) : State :=
  let (n, typ, idx) := eccUnit tgt off
  let at_ := if tgt = 1 then hbmOffset s off else off
  let e := tblGet {} s.mem.ecc n
  let s := { s with mem := { s.mem with
    ecc := tblSet {} s.mem.ecc n { e with ue := satInc 0xFFFF e.ue }, ueOffset := at_, ueUnit := n } }
  countUe (setFlag s 2945) typ idx

/-- Listed cells that a range touches. -/
def cellsIn (s : State) (tgt a n : Nat) : List (Nat × Nat) :=
  let b := cellBytes tgt
  (cellsOf s tgt).filter fun e => e.1 * b < a + n && a < (e.1 + 1) * b

/-- The error of one cell is found by a read. -/
def senseCell (s : State) (tgt : Nat) (e : Nat × Nat) : State :=
  let off := e.1 * cellBytes tgt
  match e.2 with
  | 1 => countCe s tgt off
  | 2 => countMemUe (setCells s tgt (tblSet 0 (cellsOf s tgt) e.1 3)) tgt off
  | _ => s

/-- The poison that cells of a range put on what a read returns; `d` is the range's offset in the data. -/
def cellPoison (tgt a n d : Nat) (cells : List (Nat × Nat)) : List Poison :=
  let b := cellBytes tgt
  cells.filterMap fun e =>
    if 2 ≤ e.2 then
      let lo := max a (e.1 * b)
      let hi := min (a + n) ((e.1 + 1) * b)
      some { ofs := d + lo - a, len := hi - lo, tgt := tgt, addr := lo }
    else none

/-- Cells after a write of a range: a whole unit is sound again, a partial write heals a correctable one, finds an
uncorrectable one, and leaves a poisoned one (R223). -/
def writeCells (s : State) (tgt a n : Nat) : State :=
  let b := cellBytes tgt
  (cellsIn s tgt a n).foldl (fun s e =>
    if a ≤ e.1 * b && (e.1 + 1) * b ≤ a + n then setCells s tgt (tblDel (cellsOf s tgt) e.1)
    else match e.2 with
      | 1 => setCells s tgt (tblDel (cellsOf s tgt) e.1)
      | 2 => senseCell s tgt e
      | _ => s) s

/-- Units of a written range whose data is poisoned become poisoned (R408). -/
def poisonCells (s : State) (tgt a n : Nat) : State :=
  let b := cellBytes tgt
  if n = 0 then s
  else (List.range ((a + n - 1) / b - a / b + 1)).foldl
    (fun s i => setCells s tgt (tblPut (cellsOf s tgt) (a / b + i) 3)) s

/-! ### Accesses -/

/-- The run whose unresolved binding holds an SSRAM offset (R187). -/
def stagedBy (s : State) (off : Nat) : Option Nat :=
  (s.runs.find? fun x => match x.bind with
    | some b => !b.confirmed && b.stgOff * 65536 ≤ off && off < (b.stgOff + b.stgSize) * 65536
    | none => false).map (·.id)

/-- Another list's staging region: the access is counted in TILE_RA_STRAY. -/
def strayRa (s : State) : State := { s with ra := { s.ra with stray := satInc 0xFFFF s.ra.stray } }

/-- The access meets a staging region of another list. -/
def foreign (s : State) (g : Agent) (off : Nat) : Bool :=
  match stagedBy s off with
  | some id => g.run ≠ some id
  | none => false

/-- A HOST access is made with its No Snoop attribute (R214). -/
def snoopAs (s : State) (p : Place) : State := { s with mem := { s.mem with noSnoop := p.noSnoop } }

/-- A read of host memory at a bus address: what the host answers, or nothing until the completion timeout (R407, R442). -/
def readHost (s : State) (a n d : Nat) : State × Res Data :=
  if s.mem.timesOut = 1 then (setFlag { s with mem := { s.mem with timesOut := 0 } } 3080, .fail ⟨6, 0xCC, false⟩)
  else match hostAns s a with
  | 0 => (s, .ok { bytes := bytesAt (hostByte s) a n })
  | 1 => (setFlag s 3080, .fail ⟨6, 0xCC, false⟩)
  | _ => (s, .ok { bytes := bytesAt (hostByte s) a n, poison := [⟨d, n, 0, a⟩] })

/-- Read n bytes at a place inside one page. -/
def readPlace (s : State) (g : Agent) (p : Place) (n d : Nat) : State × Res Data :=
  match p.tgt with
  | 0 => readHost (snoopAs s p) p.addr n d
  | 1 =>
    let c := cellsIn s 1 p.addr n
    (c.foldl (fun s e => senseCell s 1 e) s,
     .ok { bytes := bytesAt (hbmByte s) p.addr n, poison := cellPoison 1 p.addr n d c })
  | 2 =>
    if foreign s g p.addr then (strayRa s, .ok { bytes := List.replicate n 0 })
    else
      let c := cellsIn s 2 p.addr n
      (c.foldl (fun s e => senseCell s 2 e) s,
       .ok { bytes := bytesAt (ssramByte s) p.addr n, poison := cellPoison 2 p.addr n d c })
  | _ => (s, .ok { bytes := bytesAt (peerByte s p.die) p.addr n })

/-- Read page by page: the first failing page ends the access. -/
def readPieces (s : State) (g : Agent) : List (Nat × Nat) → Data → State × Res Data
  | [], acc => (s, .ok acc)
  | (va, n) :: rest, acc =>
    match xlate s g va false with
    | (s, .fail f) => (s, .fail f)
    | (s, .ok p) =>
      match readPlace s g p n acc.bytes.length with
      | (s, .fail f) => (s, .fail f)
      | (s, .ok x) => readPieces s g rest ⟨acc.bytes ++ x.bytes, acc.poison ++ x.poison⟩

/-- Read n bytes at a device address. -/
def readDev (s : State) (g : Agent) (va n : Nat) : State × Res Data := readPieces s g (pieces va n) {}

/-- Poisoned data is consumed (R408): the flag and the log entry 0x1002. -/
def consumed (s : State) (g : Agent) (p : Poison) : State :=
  pushLog (setFlag s 3073) { time := 0, code := 0x1002, func := g.ctx, arg0 := p.addr % 2 ^ 32, arg1 := p.tgt }

/-- Read n bytes for an operation that consumes them: poison fails it with POISONED (R408). -/
def readUse (s : State) (g : Agent) (va n : Nat) : State × Res (List Byte) :=
  match readDev s g va n with
  | (s, .fail f) => (s, .fail f)
  | (s, .ok x) =>
    match x.poison with
    | [] => (s, .ok x.bytes)
    | p :: _ => (consumed s g p, .fail ⟨6, 0xCA, false⟩)

/-- Store bytes at a place inside one page. -/
def storePlace (s : State) (g : Agent) (p : Place) (bytes : List Byte) : State :=
  if g.discard then s
  else match p.tgt with
  | 0 =>
    let s := snoopAs s p
    { s with mem := { s.mem with host := putBytes s.mem.host p.addr bytes } }
  | 1 =>
    let s := writeCells s 1 p.addr bytes.length
    { s with mem := { s.mem with hbm := putBytes s.mem.hbm p.addr bytes } }
  | 2 =>
    if foreign s g p.addr then strayRa s
    else
      let s := writeCells s 2 p.addr bytes.length
      { s with mem := { s.mem with ssram := putBytes s.mem.ssram p.addr bytes } }
  | _ => { s with mem := { s.mem with peer := putBytes s.mem.peer (peerKey p.die p.addr) bytes } }

/-- The poison of forwarded data on the bytes just stored at a place: units become poisoned, and the host has taken a
poisoned TLP (R408). `d` is the place's offset in the data. -/
def storePoison (s : State) (g : Agent) (p : Place) (d n : Nat) (poison : List Poison) : State :=
  if g.discard then s
  else poison.foldl (fun s q =>
    let lo := max d q.ofs
    let hi := min (d + n) (q.ofs + q.len)
    if hi ≤ lo then s
    else
      let a := p.addr + (lo - d)
      match p.tgt with
      | 0 => { takeChoice s with mem := { s.mem with
          host := putBytes s.mem.host a (bytesAt (Config.hostPoison s.choice) a (hi - lo)) } }
      | 1 => poisonCells s 1 a (hi - lo)
      | 2 => if foreign s g a then s else poisonCells s 2 a (hi - lo)
      | _ => s) s

/-- Translate the parts of a write, up to the first that fails. -/
def xlatePieces (s : State) (g : Agent) : List (Nat × Nat) → List Place → State × List Place × Option Fail
  | [], acc => (s, acc, none)
  | (va, _) :: rest, acc =>
    match xlate s g va true with
    | (s, .fail f) => (s, acc, some f)
    | (s, .ok p) => xlatePieces s g rest (acc ++ [p])

/-- Store data over translated parts, which lie one behind the other in the data. -/
def storeParts (s : State) (g : Agent) (keep : Nat → Bool) (data : Data) :
    List (Nat × Place) → Nat → Nat → State
  | [], _, _ => s
  | (n, p) :: rest, d, i =>
    let s := if keep i then storePoison (storePlace s g p (sub data.bytes d n)) g p d n data.poison else s
    storeParts s g keep data rest (d + n) (i + 1)

/-- Write data at a device address. When a later page faults, the parts in earlier pages are made or not (R213). -/
def writeDev (s : State) (g : Agent) (va : Nat) (data : Data) : State × Res Unit :=
  let ps := pieces va data.bytes.length
  match xlatePieces s g ps [] with
  | (s, pl, none) => (storeParts s g (fun _ => true) data ((ps.map (·.2)).zip pl) 0 0, .ok ())
  | (s, pl, some f) =>
    (storeParts (takeChoice s) g (Config.earlierWritten s.choice) data ((ps.map (·.2)).zip pl) 0 0, .fail f)

/-- Write plain bytes at a device address. -/
def writeBytes (s : State) (g : Agent) (va : Nat) (bytes : List Byte) : State × Res Unit :=
  writeDev s g va { bytes := bytes }

end Sys2Proof.Machine
end

