-- ==== Sys2Proof/Machine/Shed.lean ====
section
/-! DEFINITION. The groups of the shedding ramp (R87 Table 8), what their stop does to dispatched work (R88, R89), and
the resets of the device (R98 to R100, R441). -/
namespace Sys2Proof.Machine

/-- Dispatched runs that hold an engine which stops end POWER_SHED, whatever their segments were doing; a run of a reset
function ends without a completion (R88, R128). -/
def shedRuns (s : State) (p : Run → Bool) : State :=
  (s.runs.filter p).foldl (fun s x =>
    let s := x.segs.foldl (fun s g => if runsNow s x.cls g.unit x.id then freeUnit s x.cls g.unit else s) s
    let s := modRun s x.id fun y => { y with
      segs := y.segs.map (fun g => { g with ended := true })
      cause := some (if y.cause = some .discarded then .discarded else .powerShed) }
    finishRun s x.id) s

/-- Oscillators stop with the ledger bypassed (R84 step 3). -/
def stopInsts (s : State) (l : List Nat) : State := l.foldl (fun s n => applyStep s (.stop n)) s

/-- The columns of arrays ramp to 0 with the ledger bypassed (R87 steps 1 and 2). A ramp-up that ran when shedding started
has completed its cycles by then. -/
def dropCols (s : State) (l : List Nat) : State :=
  l.foldl (fun s a =>
    let x := arrOf s a
    let c := match x.ramp with | some r => r.dest | none => x.cols
    setArr s a { x with cols := c, asked := false, want := none, ramp := if c = 0 then none else rampTo s a 0 }) s

/-- The columns are gone once the oscillators stop (R87 step 3). -/
def endCols (s : State) : State :=
  { s with arr := s.arr.map fun e => (e.1, { e.2 with cols := 0, ramp := none, asked := false, want := none }) }

/-- A run has a segment on a tile of a quadrant. -/
def onQuadrant (q : Nat) (x : Run) : Bool := x.cls = 0 && x.segs.any fun g => g.unit % 64 / 16 = q

/-- Every tile's memory becomes undefined (R269, R441). -/
def loseTiles (s : State) : Tbl Tile :=
  (List.range 64).map fun t => (t, { epoch := (tileOf s t).epoch + 1 : Tile })

/-- A tile core without power: nothing runs there. -/
def haltTvc (c : Tvc) : Tvc := { c with active := false, dmas := [] }

/-- Every tile after emergency shedding: its memory is undefined, its counters and resident programs stay (R269, R290). -/
def shedTiles (s : State) : Tbl Tile :=
  (List.range 64).map fun t =>
    let x := tileOf s t
    (t, { x with mem := [], epoch := x.epoch + 1, unitEpoch := [], owner := [], tmuFn := none, src := [], cell := []
                 tvc0 := haltTvc x.tvc0, tvc1 := haltTvc x.tvc1 })

/-- Every array's staging memory becomes undefined (R247, R441). -/
def loseArrays (s : State) : Tbl Arr :=
  (List.range 8).map fun a => (a, { epoch := (arrOf s a).epoch + 1 : Arr })

/-- SSRAM becomes undefined (R89, R100). -/
def loseSsram (m : Memory) : Memory :=
  { m with ssram := [], ssramCell := [], ssramZero := [], ssramEpoch := m.ssramEpoch + 1 }

/-- No segment holds or waits preempted on an array. -/
def freeArrays (s : State) : State :=
  { s with arr := s.arr.map fun e => (e.1, { e.2 with occupant := 0, holder := none, preempted := false }) }

/-- One step of Table 8. The Ethernet ports, which are the FX engines, run on (R89). -/
def shedGroup (s : State) (n : Nat) : State :=
  match n with
  | 1 => dropCols s [0, 1, 2, 3]
  | 2 => dropCols s [4, 5, 6, 7]
  | 3 => endCols (stopInsts (freeArrays (shedRuns s fun x => x.cls = 2 || x.cls = 3)) [64, 65, 66, 67, 68, 69, 70, 71, 73])
  | 4 => stopInsts (shedRuns s fun x => x.cls = 1) [72]
  | 5 | 6 | 7 | 8 =>
    stopInsts (shedRuns s (onQuadrant (n - 5))) ((List.range 16).map fun i => 16 * (n - 5) + i)
  | 9 =>
    let s := shedRuns s fun x => x.cls ≠ 4
    let arrs := (List.range 8).map fun a =>
      (a, { arrOf s a with acc := [], owner := [], cell := [], epoch := (arrOf s a).epoch + 1 })
    { s with power := { s.power with fabric := false }, mem := loseSsram s.mem, arr := arrs, tile := shedTiles s }
  | 10 => { s with power := { s.power with selfRefresh := true } }
  | _ => setFlag { s with power := { s.power with shed := 2, shedStep := 0 } } 97

/-- The pins of the device, which no reset moves. -/
def pinsOnly (p : Power) : Power :=
  { pfw := p.pfw, vrAlert := p.vrAlert, powerGood := p.powerGood }

/-- A cold reset (R98, R100, R441): everything at its reset value but fuses, flash, pins, what stands outside the device,
and the contents of memories, which become undefined. -/
def coldReset (s : State) : State :=
  { State.reset with
    pending := s.pending
    fuse := s.fuse
    flash := s.flash
    boot := { perst := s.boot.perst, smbTo := s.boot.smbTo }
    etu := { tclkEdges := s.etu.tclkEdges }
    power := pinsOnly s.power
    mem := { host := s.mem.host, hostAnswer := s.mem.hostAnswer, peer := s.mem.peer
             hbmEpoch := s.mem.hbmEpoch + 1, ssramEpoch := s.mem.ssramEpoch + 1 }
    arr := loseArrays s
    tile := loseTiles s
    tick := s.tick
    hclk := s.hclk
    choice := s.choice }

/-- The edge time unit after a warm reset (R100): the state, the count and EVER_LOCKED stay, with the selections and what
each input has reached; drift figures, measurements, FORCE_HOLDOVER, comparators and captures return to reset. -/
def warmEtu (e : Etu) : Etu :=
  { e with
    refs := e.refs.map fun x => (x.1, { x.2 with dev := 0, driftCnt := 0 })
    ambiguous := [], forced := false, stepWait := false, lastMeas := 0, ppsMeas := 0, meas := [], tod := none
    ppsAt := none, ppsPrev := none, ppsSec := none, latch := 0, trig := [], cap := [] }

/-- Inputs that a warm reset leaves without what their criterion needs stop meeting it, a QUALIFIED one failing, until
the host's writes and the port's messages resume (R100). -/
def warmRefs (s : State) : State :=
  refsRecheck { s with etu := { s.etu with
    refs := s.etu.refs.map fun x => (x.1, { x.2 with crit := x.2.crit && refMeets s x.1 }) } }

/-- A warm reset (R98 to R100, R428) up to the start of the boot ROM: what it keeps, and everything else as at cold
reset. The shedding ramp's steps 1 to 10 have run. It has no effect on a device that lockstep failure halted (R104). -/
def warmReset (s : State) : State :=
  if s.boot.halted then s
  else
    let c := coldReset s
    let t : State := { c with
      boot := { c.boot with
        pwrok := s.boot.pwrok
        fallback := s.boot.fallback
        hedgerowBad := s.boot.hedgerowBad
        published := s.boot.published && !s.boot.hedgerowUe }
      link := { trained := s.link.trained, width := s.link.width, gts := s.link.gts }
      regs := warmRegs s
      etu := warmEtu s.etu
      power := { pinsOnly s.power with outputs := s.power.outputs, thermtrip := s.power.thermtrip }
      tap := s.tap
      mem := { c.mem with hbmCell := s.mem.hbmCell }
      fh := { seq := s.fh.seq.map fun e => (e.1, { e.2 with rxKnown := false }) }
      err := { log := s.err.log, head := s.err.head, toFlash := s.err.toFlash, flashNext := s.err.flashNext
               ueCount := s.err.ueCount }
      retired := s.retired
      sclk := s.sclk }
    warmRefs (setFlag t 39)

end Sys2Proof.Machine
end

