-- ==== Sys2Proof/Machine/Boot.lean ====
section
/-! DEFINITION. Start-up, resets, the management mailbox, SMBus and the TAP (chapter 5; R97, R419). -/
namespace Sys2Proof.Machine

/-! ### Power good and the resets -/

/-- PWROK_ASSERT (R78, R106 Table 4 step 1): the boot ROM starts. -/
def execPwrokAssert (s : State) : Host.Outcome State Fault Refusal :=
  done (if s.boot.pwrok then s else { s with boot := { s.boot with pwrok := true } })

/-- COLD_RESET (R98, R100, R441). -/
def execColdReset (s : State) : Host.Outcome State Fault Refusal := done (coldReset s)

/-- The host port's link is down. -/
def linkOff (s : State) : State :=
  { s with link := { s.link with trained := false, width := 0, gts := 0, answer := .none } }

/-- The host port's lanes are disabled and its link is down (R91 Table 9). -/
def portOff (s : State) : State :=
  let s := linkOff s
  { s with power := { s.power with outputs := tblSet false s.power.outputs 32 false } }

/-- PERST_ASSERT (R98): with PWROK high it causes a warm reset. The host port is off while PERST# is asserted. -/
def execPerstAssert (s : State) : Host.Outcome State Fault Refusal :=
  let s := portOff { s with boot := { s.boot with perst := true } }
  done (if s.boot.pwrok then warmReset s else s)

/-- PERST_DEASSERT (R99, R106 step 4): link training may begin. -/
def execPerstDeassert (s : State) : Host.Outcome State Fault Refusal :=
  done { s with boot := { s.boot with perst := false } }

/-- DL_DOWN (R98): the link is down, which causes a warm reset. -/
def execDlDown (s : State) : Host.Outcome State Fault Refusal :=
  done (if s.link.trained then warmReset (linkOff s) else s)

/-- PF_FLR (R98, R128): a warm reset. It comes over the trained link once configuration requests are answered. -/
def execPfFlr (s : State) : Host.Outcome State Fault Refusal :=
  done (if s.link.trained && s.boot.fwUp then warmReset s else s)

/-! ### Boot ROM and firmware -/

/-- An image passes the four conditions of R101. -/
def accepts (s : State) (i : Image) : Bool := i.certOk && i.sigOk && i.namesCore && s.fuse.svn ≤ i.svn

/-- The image in a slot. -/
def imageOf (s : State) (slot : Nat) : Image := if slot = 0 then s.flash.imageA else s.flash.imageB

/-- Start an accepted image: BOOT_STAGE LOADING. -/
def loadImage (s : State) (slot : Nat) (fallback : Bool) : State :=
  { s with boot := { s.boot with
      stage := 1, slot := slot, fallback := fallback, runSvn := (imageOf s slot).svn, recovery := false } }

/-- BOOT_IMAGE_CHECK (R101, R102): the active slot, then the other one, else recovery. -/
def execBootImageCheck (s : State) : Host.Outcome State Fault Refusal :=
  done (
    if !s.boot.pwrok || s.boot.halted || s.boot.stage ≠ 0 || s.boot.fwUp then s
    else
      let a := s.flash.active % 2
      if accepts s (imageOf s a) then loadImage s a false
      else if accepts s (imageOf s (1 - a)) then loadImage s (1 - a) true
      else { s with boot := { s.boot with stage := 0xE, recovery := true, fallback := false } })

/-- Firmware starts Hedgerow with the SSRAM banks and every oscillator, each start a step (R82, R106 step 6). -/
def startAll (s : State) : State :=
  let s := requestStep s { kind := .fabric true, amount := fabricAmount, rising := true, radio := true }
  (List.range 74).foldl (fun s n => if instRetired s n then s else requestStep s (startStep n)) s

/-- FW_UP (R106 step 5, R107): firmware, or the recovery service of the ROM, runs. BOOT_STAGE is SELFTEST at once when a
self-test is due (R98, R113), FW_RUNNING otherwise. The flash configuration block gives bifurcation (R122). -/
def execFwUp (s : State) : Host.Outcome State Fault Refusal :=
  done (
    if s.boot.halted || s.boot.perst || s.boot.fwUp || !s.boot.pwrok then s
    else if s.boot.recovery then { s with boot := { s.boot with fwUp := true } }
    else if s.boot.stage = 1 then
      let b := (List.range 2).foldl (fun t i => tblSet 0 t (i + 1) (Config.flashBifurcation (i + 1))) s.link.bifurcation
      startAll { s with
        boot := { s.boot with fwUp := true, stage := if s.boot.published then 2 else 3, testFailed := [] }
        link := { s.link with bifurcation := b } }
    else s)

/-- Units that fail self-test are retired (R113, R115). -/
def retireFailed (s : State) (failed : List (Nat × Nat)) : State :=
  failed.foldl (fun s u =>
    if unitExists s u.1 u.2 then { s with retired := tblSet false s.retired (u.1 * 256 + u.2) true } else s) s

/-- A failed die-to-die link (R114): that of die 0 limits FLOOR_CAP to 0, that of another die retires the die. -/
def failD2d (s : State) (d : Nat) : State :=
  if s.fuse.assy ≤ d then s
  else
    let s := { s with err := { s.err with d2d := tblMod {} s.err.d2d d fun x => { x with down := true } } }
    if d = 0 then s else retireFailed s (dieUnits d)

/-- Oscillators of retired units stop, and starts of them that wait are dropped (R115). -/
def dropRetired (s : State) : State :=
  let keep (w : LedgerStep) : Bool := match w.kind with
    | .start n => !instRetired s n
    | _ => true
  let s := { s with power := { s.power with waiting := s.power.waiting.filter keep } }
  (List.range 74).foldl (fun s n => if instRetired s n then beginStop s n else s) s

/-- Every test can have run: each instance with a unit to test runs with its cap at the nominal frequency (R113). -/
def testsRan (s : State) : Bool :=
  (List.range 74).all fun n =>
    instRetired s n || (instUnits n).all (s.boot.testFailed.contains ·) || ((instOf s n).run && (instOf s n).cap = 1750)

/-- MAP_DONE (R113 to R118): the retirement map and the capacity registers are published. Units fail a self-test by its
tests or by a Patina sample; without a self-test nothing new fails. -/
def execMapDone (failed : List (Nat × Nat)) (hedgerowBad : Bool) (d2dBad : List Nat) (s : State) :
    Host.Outcome State Fault Refusal :=
  done (
    if !s.boot.fwUp || s.boot.recovery || s.boot.mapDone || (!s.boot.published && !testsRan s) then s
    else
      let s := if s.boot.published then s
        else
          let s := retireFailed s (failed ++ s.boot.testFailed)
          let s := d2dBad.foldl failD2d s
          { s with boot := { s.boot with hedgerowBad := hedgerowBad, published := true } }
      let s := dropRetired s
      recap { s with boot := { s.boot with mapDone := true } })

/-- The bits offered at READY (R130 Table 3). -/
def offerOf (s : State) : Nat :=
  let radio := s.boot.floorCap = 2
  let ports := 1 ≤ workingCount s 10 12
  let esp := radio && 1 ≤ workingCount s 6 4 && 1 ≤ workingCount s 7 8
  1 + b2n radio * 2 + b2n radio * 4 + b2n radio * 8 + b2n esp * 16 + b2n ports * 32 + b2n (radio && ports) * 64
    + 128 + b2n radio * 256

/-- READY (R106 step 8, R129): the feature offer is valid. -/
def execReady (s : State) : Host.Outcome State Fault Refusal :=
  done (
    if !s.boot.mapDone || s.boot.ready then s
    else updateFloor { s with
      feat := { s.feat with offer := BitVec.ofNat 128 (offerOf s) }
      boot := { s.boot with ready := true, stage := 4 } })

/-- An Ezdan restart begins (R419): a second one within 1 s of SCLK halts Ezdan instead. -/
def restartEzdan (s : State) (cause : Nat) : State :=
  if s.boot.ezHalted then s
  else if s.boot.lastRestart.any (fun t => s.sclk < t + 100000000) then
    updateFloor (logEvent { s with boot := { s.boot with ezHalted := true, restarting := false, stage := 0xF } } 0x5003 0 0 0)
  else logEvent { s with boot := { s.boot with restarting := true, lastRestart := some s.sclk } } 0x5001 0 cause 0

/-- LOCKSTEP_MISMATCH (R104, R419). -/
def execLockstepMismatch (s : State) : Host.Outcome State Fault Refusal :=
  done (
    if !s.boot.pwrok || s.boot.halted then s
    else if s.boot.fwUp then restartEzdan s 0
    else linkOff { s with boot := { s.boot with halted := true, stage := 0xF } })

/-- FW_WATCHDOG_EXPIRE (R419): the watchdog watches from FW_UP. -/
def execFwWatchdogExpire (s : State) : Host.Outcome State Fault Refusal :=
  done (if s.boot.fwUp && !s.boot.halted then restartEzdan s 1 else s)

/-! ### The management mailbox (R105) -/

/-- BUSY of GLB_MBOX_STAT: a command runs, or Ezdan restarts or is halted (R105, R419). -/
def mboxBusy (s : State) : Bool := s.mbox.busy || s.boot.restarting || s.boot.ezHalted

/-- A command code is written: it is not served before FW_UP, is turned away with MBOX_OVERRUN while BUSY, and otherwise
runs; `f` does its work and answers the result to post. -/
def mboxCommand (s : State) (code : Nat) (f : State → State × Nat) : State :=
  if !s.boot.fwUp then s
  else if mboxBusy s then setFlag s 0
  else
    let (t, r) := f s
    { t with mbox := { t.mbox with busy := true, code := code, due := r } }

/-- GLB_MBOX_ARG0. -/
def mboxArg0 (s : State) : Nat := reg s 0x48

/-- List n bytes as a table, those equal to what an unlisted index holds left out. -/
def fillTbl (d : Byte) (t : Tbl Byte) (a : Nat) (l : List Byte) : Tbl Byte :=
  (l.zipIdx).foldl (fun t e => tblSet d t (a + e.2) e.1) t

/-- LOG_READ (R105): copies 4 KiB of the flash log region. -/
def execLogRead (s : State) : Host.Outcome State Fault Refusal :=
  done (mboxCommand s 1 fun s =>
    let o := mboxArg0 s
    if 1048576 < o + 4096 then (s, 4)
    else ({ s with mbox := { s.mbox with window := fillTbl 0 [] 0 (bytesAt (tblGet 0xFF s.flash.log) o 4096) } }, 0))

/-- What a slot holds once its bytes have changed: the verdict is open (R101). -/
def openImage (c : Nat) : Image :=
  let v := Config.imageVerdict c
  { certOk := v.1, sigOk := v.2.1, svn := v.2.2.1, namesCore := v.2.2.2 }

/-- FLASH_WRITE (R105): writes the data window to the inactive slot; a flash that fails leaves the bytes as they were or
changed. -/
def execFlashWrite (s : State) : Host.Outcome State Fault Refusal :=
  done (mboxCommand s 2 fun s =>
    let o := mboxArg0 s
    if 4194304 < o + 4096 then (s, 4)
    else
      let c := s.choice
      let fail := Config.flashFails c
      let data := bytesAt (fun i => if fail then Config.freeByte 3 c i else tblGet 0 s.mbox.window i) 0 4096
      let f := s.flash
      let f := if f.active % 2 = 0 then { f with bytesB := fillTbl 0xFF f.bytesB o data, imageB := openImage c }
        else { f with bytesA := fillTbl 0xFF f.bytesA o data, imageA := openImage c }
      (takeChoice { s with flash := f }, if fail then 3 else 0))

/-- FLASH_ACTIVATE (R105): the inactive slot is marked active only if it verifies; whether a failing header write took
is open. -/
def execFlashActivate (s : State) : Host.Outcome State Fault Refusal :=
  done (mboxCommand s 3 fun s =>
    let other := 1 - s.flash.active % 2
    if !accepts s (imageOf s other) then (s, 2)
    else
      let fail := Config.flashFails s.choice
      let took := !fail || Config.raceWinner s.choice
      (takeChoice (if took then { s with flash := { s.flash with active := other } } else s), if fail then 3 else 0))

/-- WARM_RESET (R99, R105): posts DONE, then the warm reset. -/
def execWarmReset (s : State) : Host.Outcome State Fault Refusal :=
  done (
    if !s.boot.fwUp then s
    else if mboxBusy s then setFlag s 0
    else warmReset s)

/-- SVN_COMMIT (R103): the fused SVN advances to that of the running image. With none running, in recovery, nothing
advances and the result is open. -/
def execSvnCommit (s : State) : Host.Outcome State Fault Refusal :=
  done (mboxCommand s 5 fun s =>
    if s.boot.recovery then (takeChoice s, Config.freeNat s.choice % 256)
    else ({ s with fuse := { s.fuse with svn := max s.fuse.svn s.boot.runSvn } }, 0))

/-- MBOX_UNKNOWN (R105): any other code completes with UNKNOWN. -/
def execMboxUnknown (code : Nat) (s : State) : Host.Outcome State Fault Refusal :=
  done (mboxCommand s code fun s => (s, 1))

/-- MBOX_DONE (R105): the result is posted and BUSY returns to 0. -/
def execMboxDone (s : State) : Host.Outcome State Fault Refusal :=
  done (
    if !s.mbox.busy || s.boot.restarting || s.boot.ezHalted then s
    else { s with mbox := { s.mbox with busy := false, result := s.mbox.due } })

/-! ### SMBus (R112) -/

/-- SMBus answers a transaction that names the 7-bit address PWR_SMB_ADDR holds; the always-on logic runs from PWROK. -/
def smbAnswer (s : State) (l : List Byte) : State :=
  if s.boot.pwrok && s.boot.smbTo = fld s 0x5001C 6 0 then { s with smb := l } else s

/-- SMB_BOOT_STAGE: command 0x01. -/
def execSmbBootStage (s : State) : Host.Outcome State Fault Refusal :=
  done (smbAnswer s (leBytes 1 (s.boot.stage + s.boot.floor * 16)))

/-- SMB_TJ_MAX: command 0x02. -/
def execSmbTjMax (s : State) : Host.Outcome State Fault Refusal := done (smbAnswer s [s.power.tj])

/-- SMB_SHED_STATE: command 0x03. -/
def execSmbShedState (s : State) : Host.Outcome State Fault Refusal :=
  done (smbAnswer s (leBytes 1 s.power.shed))

/-- SMB_RETIRED_COUNT: command 0x04. -/
def execSmbRetiredCount (s : State) : Host.Outcome State Fault Refusal :=
  done (smbAnswer s (leBytes 2 (retiredCount s)))

/-- The code of the entry i back from the newest, 0 where there is none. -/
def logCodeBack (s : State) (i : Nat) : Nat :=
  if i < s.err.head then match tblGet? s.err.log ((s.err.head - 1 - i) % 256) with
    | some e => e.code
    | none => 0
  else 0

/-- SMB_ERROR_CODES: command 0x05. -/
def execSmbErrorCodes (s : State) : Host.Outcome State Fault Refusal :=
  done (smbAnswer s ((List.range 16).flatMap fun i => leBytes 2 (logCodeBack s i)))

/-! ### The TAP (R97) -/

/-- TAP_RESET: TRST_N low puts the controller into Test-Logic-Reset with IDCODE selected. -/
def execTapReset (s : State) : Host.Outcome State Fault Refusal :=
  done { s with tap := { s.tap with state := 0, instr := 1, ir := [], dr := [], tdo := false } }

/-- The next controller state of IEEE 1149.1: 0 Test-Logic-Reset, 1 Run-Test/Idle, 2 Select-DR, 3 Capture-DR, 4 Shift-DR,
5 Exit1-DR, 6 Pause-DR, 7 Exit2-DR, 8 Update-DR, 9 Select-IR, 10 Capture-IR, 11 Shift-IR, 12 Exit1-IR, 13 Pause-IR,
14 Exit2-IR, 15 Update-IR. -/
def tapNext (st : Nat) (tms : Bool) : Nat :=
  match st, tms with
  | 0, true => 0
  | 0, false => 1
  | 1, true => 2
  | 1, false => 1
  | 2, true => 9
  | 2, false => 3
  | 3, true => 5
  | 3, false => 4
  | 4, true => 5
  | 4, false => 4
  | 5, true => 8
  | 5, false => 6
  | 6, true => 7
  | 6, false => 6
  | 7, true => 8
  | 7, false => 4
  | 8, true => 2
  | 8, false => 1
  | 9, true => 0
  | 9, false => 10
  | 10, true => 12
  | 10, false => 11
  | 11, true => 12
  | 11, false => 11
  | 12, true => 15
  | 12, false => 13
  | 13, true => 14
  | 13, false => 13
  | 14, true => 15
  | 14, false => 11
  | 15, true => 2
  | _, _ => 1

/-- The bits of a word, least significant first. -/
def lsbBits (n w : Nat) : List Bool := (List.range n).map (bitAt w)

/-- What Capture-DR loads (IEEE 1149.1): a 0 for BYPASS, the identification code, or the levels of the balls. -/
def captureDr (s : State) : List Bool :=
  match s.tap.instr with
  | 1 => lsbBits 32 Config.idcode.toNat
  | 2 | 3 => (List.range (Config.boundaryLength s.fuse.assy)).map (Config.ballLevel s.tick)
  | _ => [false]

/-- A chain shifted one place toward TDO with TDI at its far end. -/
def shiftIn (l : List Bool) (tdi : Bool) : List Bool := l.drop 1 ++ [tdi]

/-- TCK_EDGE: the rising edge of TCK acts in the controller state it leaves (IEEE 1149.1). Under EXTEST an output toward
a partner whose power-good input is low stays high-impedance whatever its cell holds (R91): the cells hold what was
shifted in, and `drivenBalls` says what leaves the device. -/
def execTckEdge (tms tdi : Bool) (s : State) : Host.Outcome State Fault Refusal :=
  let t := s.tap
  let t' : Tap := match t.state with
    | 3 => { t with dr := captureDr s }
    | 4 => { t with dr := shiftIn t.dr tdi, tdo := t.dr.headD false }
    | 8 => if t.instr = 2 ∨ t.instr = 3 then { t with boundary := t.dr } else t
    | 10 => { t with ir := true :: List.replicate (Config.irLength - 1) false }
    | 11 => { t with ir := shiftIn t.ir tdi, tdo := t.ir.headD false }
    | 15 => { t with instr := Config.irSelects t.ir }
    | _ => t
  let n := tapNext t.state tms
  let t' := if n = 0 then { t' with instr := 1 } else t'
  done (if s.boot.pwrok then { s with tap := { t' with state := n } } else s)

/-- What EXTEST drives from a boundary cell: nothing toward a partner whose power-good input is low, which a port or a link
has and no other interface does (R91, R97). -/
def drivenBall (s : State) (cell : Nat) : Option Bool :=
  let i := Config.cellInterface cell
  let partner := i < 12 || (16 ≤ i && i < 22)
  if s.tap.instr = 3 && (!partner || tblGet false s.power.powerGood i) then s.tap.boundary[cell]? else none

end Sys2Proof.Machine
end

