-- ==== Sys2Proof/Machine/Float.lean ====
section
/-! DEFINITION. Binary floating point: FP32, FP16 and BF16 values, rounding to nearest even with subnormals kept, and
the canonical quiet NaN (R236, R243). -/
namespace Sys2Proof.Machine

/-- A value of a binary format: not a number, an infinity, or sign, m × 2^e. -/
inductive Flt where
  | nan
  | inf (neg : Bool)
  | fin (neg : Bool) (m : Nat) (e : Int)
  deriving DecidableEq, Repr

/-- The value that bits hold, with eb exponent and mb mantissa bits. -/
def fltUnpack (eb mb w : Nat) : Flt :=
  let neg := bitAt w (eb + mb)
  let x := w / 2 ^ mb % 2 ^ eb
  let m := w % 2 ^ mb
  let emin : Int := 2 - (2 ^ (eb - 1) : Nat)
  if x = 2 ^ eb - 1 then (if m = 0 then .inf neg else .nan)
  else if x = 0 then .fin neg m (emin - mb)
  else .fin neg (m + 2 ^ mb) (emin - mb + (x - 1 : Nat))

/-- A natural divided by 2^k, rounded half to even. -/
def rneNat (m k : Nat) : Nat := (roundHalfEven m k).toNat

/-- The bits of a value, rounded to nearest even; NaN is canonical (R236). -/
def fltPack (eb mb : Nat) (f : Flt) : Nat :=
  let top := 2 ^ (eb + mb)
  let infBits := (2 ^ eb - 1) * 2 ^ mb
  match f with
  | .nan => infBits + 2 ^ (mb - 1)
  | .inf neg => b2n neg * top + infBits
  | .fin neg m e =>
    if m = 0 then b2n neg * top
    else
      let emin : Int := 2 - (2 ^ (eb - 1) : Nat)
      let x := max (e + Nat.log2 m) emin
      let q := x - mb
      let r := if q ≤ e then m * 2 ^ (e - q).toNat else rneNat m (q - e).toNat
      let w := (x - emin).toNat * 2 ^ mb + r
      b2n neg * top + (if infBits ≤ w then infBits else w)

/-- The exact sum of two values; an exact zero sum is +0 unless both are −0 (round to nearest even). -/
def fltAdd : Flt → Flt → Flt
  | .nan, _ => .nan
  | _, .nan => .nan
  | .inf a, .inf b => if a = b then .inf a else .nan
  | .inf a, _ => .inf a
  | _, .inf b => .inf b
  | .fin na ma ea, .fin nb mb eb =>
    let e := min ea eb
    let x : Int := (if na then -1 else 1) * (ma * 2 ^ (ea - e).toNat : Nat)
    let y : Int := (if nb then -1 else 1) * (mb * 2 ^ (eb - e).toNat : Nat)
    let z := x + y
    if z = 0 then .fin (na && nb) 0 e else .fin (z < 0) z.natAbs e

/-- The exact product; infinity times zero is NaN (R243). -/
def fltMul : Flt → Flt → Flt
  | .nan, _ => .nan
  | _, .nan => .nan
  | .inf a, .inf b => .inf (a != b)
  | .inf a, .fin b m _ => if m = 0 then .nan else .inf (a != b)
  | .fin a m _, .inf b => if m = 0 then .nan else .inf (a != b)
  | .fin a ma ea, .fin b mb eb => .fin (a != b) (ma * mb) (ea + eb)

/-- An integer as a value. -/
def fltOfInt (v : Int) : Flt := .fin (v < 0) v.natAbs 0

/-- The value of FP32 bits. -/
def f32Val (w : Nat) : Flt := fltUnpack 8 23 w
/-- The FP32 bits of a value. -/
def f32Bits (f : Flt) : Nat := fltPack 8 23 f
/-- FP32 addition on bits (R243). -/
def f32Add (a b : Nat) : Nat := f32Bits (fltAdd (f32Val a) (f32Val b))
/-- FP32 multiplication on bits. -/
def f32Mul (a b : Nat) : Nat := f32Bits (fltMul (f32Val a) (f32Val b))

/-- A value as an integer, toward −∞ or half to even (R236); none for NaN, a bound's side for an infinity. -/
def fltToInt (rne : Bool) : Flt → Option (Int × Bool)
  | .nan => none
  | .inf neg => some (if neg then -(2 ^ 200) else 2 ^ 200, true)
  | .fin neg m e =>
    let v : Int := (if neg then -1 else 1) * (m : Int)
    if 0 ≤ e then some (v * (2 ^ e.toNat : Nat), false)
    else if rne then some (roundHalfEven v (-e).toNat, false)
    else some (v.fdiv (2 ^ (-e).toNat : Nat), false)

end Sys2Proof.Machine
end

