-- ==== Sys2Proof/Machine/Layout.lean ====
section
/-! DEFINITION. Layout descriptors and operands (R227 to R234), and the transforms fused on store (R235 to R237). -/
namespace Sys2Proof.Machine

/-- A layout descriptor (R229 Table 5): extents of the five dimensions, 1 at and above RANK; strides likewise 0. -/
structure Layout where
  base : Nat
  fmt : Nat
  rank : Nat
  dims : List Nat
  strides : List Nat
  xform : Nat
  deriving DecidableEq, Repr

/-- An operand of one operation: the descriptor copy it uses and its OOB mode (R228). -/
structure Operand where
  lay : Layout
  oob : Nat
  deriving DecidableEq, Repr

/-- Element size in half bytes (R229 Table 6); 0 for an invalid format. -/
def fmtNib (fmt : Nat) : Nat :=
  match fmt with
  | 0 => 1
  | 1 | 2 => 2
  | 3 | 5 | 6 => 4
  | 4 | 7 | 8 | 9 => 8
  | 0xA => 16
  | _ => 0

/-- The fields of 64 descriptor bytes. -/
def parseLayout (b : List Byte) : Layout :=
  let w (o : Nat) : Nat := w64At b o
  let rank := bits (w 0) 54 52
  let dims := [bits (w 8) 19 0, bits (w 8) 39 20, bits (w 8) 59 40, bits (w 16) 19 0, bits (w 16) 39 20]
  let strides := [0, bits (w 24) 47 0, bits (w 32) 47 0, bits (w 40) 47 0, bits (w 48) 47 0]
  { base := bits (w 0) 47 0, fmt := bits (w 0) 51 48, rank := rank
    dims := (dims.take rank ++ List.replicate 5 1).take 5
    strides := (strides.take rank ++ List.replicate 5 0).take 5
    xform := w 56 }

/-- Place of an element in half bytes (R230). -/
def elemAt (l : Layout) (idx : List Nat) : Nat :=
  2 * l.base + idx.getD 0 0 * fmtNib l.fmt
    + 2 * ((List.range 4).foldl (fun a d => a + idx.getD (d + 1) 0 * l.strides.getD (d + 1) 0) 0)

/-- The descriptor checks in the order of R231: the cause of the first that fails. -/
def layoutBad (l : Layout) (store : Bool) : Option Nat :=
  let unit := max 1 (fmtNib l.fmt / 2)
  if 0xB ≤ l.fmt then some 0xD1
  else if l.rank = 0 || 5 < l.rank || l.dims.any (· = 0) then some 0xD2
  else if 2 ^ 49 < elemAt l (l.dims.map (· - 1)) + fmtNib l.fmt then some 0xD2
  else if l.base % unit ≠ 0 || l.strides.any (· % unit ≠ 0) then some 0xD3
  else if store && (List.range 4).any (fun d => d + 1 < l.rank && l.strides.getD (d + 1) 0 = 0 && 1 < l.dims.getD (d + 1) 1)
    then some 0xD4
  else none

/-- The bytes of a handle's descriptor in memory (R227, R229). -/
def freshDescriptor (s : State) (g : Agent) (h : Nat) : State × Res (List Byte) :=
  let base := reg s (0xB0000 + 0x10 * g.ctx) + bits (reg s (0xB0004 + 0x10 * g.ctx)) 15 0 * 2 ^ 32
  afterRes (readUse s g (base + 64 * h) 64) (fun t b => (t, .ok b)) fun t f => (t, .fail { f with fetch := f.status = 5 })

/-- A copy of a handle's descriptor is cached in place of the one before. -/
def cacheDescriptor (s : State) (g : Agent) (h : Nat) (b : List Byte) : State :=
  { s with mem := { s.mem with lay := s.mem.lay.filter (fun e => !(e.1 = g.ctx && e.2.1 = h)) ++ [(g.ctx, h, b)] } }

/-- The copy of a handle's descriptor that the operation of an agent already uses (R233, R234). -/
def usedCopy (s : State) (g : Agent) (h : Nat) : Option (List Byte) :=
  match g.run, g.unit with
  | some id, some u =>
    match findRun s id with
    | some x =>
      match x.segs.find? fun z => z.unit = u with
      | some z => tblGet? z.copies h
      | none => none
    | none => none
  | _, _ => none

/-- The operation of an agent goes on with the copy it has read of a descriptor (R233). -/
def useCopy (s : State) (g : Agent) (h : Nat) (b : List Byte) : State :=
  match g.run, g.unit with
  | some id, some u => modSeg s id u fun z => { z with copies := tblPut z.copies h b }
  | _, _ => s

/-- The descriptor of a handle at an operation's first use of it (R227, R233): what is cached, unless it is read afresh. A
fresh read is cached. -/
def firstCopy (s : State) (g : Agent) (h : Nat) : State × Res (List Byte) :=
  if bits (reg s (0xB0008 + 0x10 * g.ctx)) 16 0 ≤ h then (s, .fail ⟨4, 0xD0, false⟩)
  else
    let fresh := freshDescriptor s g h
    match s.mem.lay.find? (fun e => e.1 = g.ctx && e.2.1 = h) with
    | some e =>
      if fresh.2 = .ok e.2.2 || Config.keepsLayout s.choice g.ctx h then (takeChoice s, .ok e.2.2)
      else afterRes fresh (fun t b => (takeChoice (cacheDescriptor t g h b), .ok b)) fun t f => (takeChoice t, .fail f)
    | none => afterRes fresh (fun t b => (cacheDescriptor t g h b, .ok b)) fun t f => (t, .fail f)

/-- The descriptor copy of a handle: every access of one operation uses one copy (R233). -/
def descriptor (s : State) (g : Agent) (h : Nat) : State × Res (List Byte) :=
  match usedCopy s g h with
  | some b => (s, .ok b)
  | none => afterRes (firstCopy s g h) (fun t b => (useCopy t g h b, .ok b)) fun t f => (t, .fail f)

/-- An operand reference (R228) with its descriptor checked. -/
def operand (s : State) (g : Agent) (ref : Nat) (store : Bool) : State × Res Operand :=
  match descriptor s g (bits ref 15 0) with
  | (s, .fail f) => (s, .fail f)
  | (s, .ok b) =>
    let l := parseLayout b
    match layoutBad l store with
    | some c => (s, .fail ⟨4, c, false⟩)
    | none => (s, .ok { lay := l, oob := bits ref 17 16 % 3 })

/-- The window check of an operand in ERROR mode: origin and extent by dimension (R232). -/
def windowOk (o : Operand) (org : List Int) (ext : List Nat) : Bool :=
  o.oob ≠ 0 || (List.range 5).all fun d =>
    0 ≤ org.getD d 0 && org.getD d 0 + (ext.getD d 1 : Int) ≤ (o.lay.dims.getD d 1 : Int)

/-- An index lies inside every extent. -/
def inExtents (l : Layout) (idx : List Int) : Bool :=
  (List.range 5).all fun d => 0 ≤ idx.getD d 0 && idx.getD d 0 < (l.dims.getD d 1 : Int)

/-- The nearest index inside the extents, dimension by dimension. -/
def clampIdx (l : Layout) (idx : List Int) : List Nat :=
  (List.range 5).map fun d => (clampInt 0 ((l.dims.getD d 1 : Int) - 1) (idx.getD d 0)).toNat

/-- Read one element's bits (R230, R232). -/
def readElem (s : State) (g : Agent) (o : Operand) (idx : List Int) : State × Res Nat :=
  let ok := inExtents o.lay idx
  if !ok && o.oob = 2 then (s, .ok 0)
  else if !ok && o.oob = 0 then (s, .fail ⟨4, 0xD5, false⟩)
  else
    let a := elemAt o.lay (clampIdx o.lay idx)
    let n := fmtNib o.lay.fmt
    match readUse s g (a / 2) ((n + 1) / 2) with
    | (s, .ok b) => (s, .ok (if n = 1 then ofLe b / 16 ^ (a % 2) % 16 else ofLe b))
    | (s, .fail f) => (s, .fail f)

/-- Read elements in order; the first failing access ends it. -/
def readElems (s : State) (g : Agent) (o : Operand) : List (List Int) → List Nat → State × Res (List Nat)
  | [], acc => (s, .ok acc)
  | i :: rest, acc =>
    match readElem s g o i with
    | (s, .ok w) => readElems s g o rest (acc ++ [w])
    | (s, .fail f) => (s, .fail f)

/-- The byte a place holds, without sensing its cell. -/
def peekPlace (s : State) (p : Place) : Byte :=
  match p.tgt with
  | 0 => hostByte s p.addr
  | 1 => hbmByte s p.addr
  | 2 => ssramByte s p.addr
  | _ => peerByte s p.die p.addr

/-- Write one element's bits. A write outside the extents is discarded in the clamp modes. An INT4 element keeps the
other half of its byte, but for the unused upper half at the end of a row of odd extent, which becomes 0 (R230). -/
def writeElem (s : State) (g : Agent) (o : Operand) (idx : List Int) (w : Nat) : State × Res Unit :=
  if !inExtents o.lay idx then (s, if o.oob = 0 then .fail ⟨4, 0xD5, false⟩ else .ok ())
  else
    let i := idx.map Int.toNat
    let a := elemAt o.lay i
    let n := fmtNib o.lay.fmt
    if n = 1 then
      match xlate s g (a / 2) true with
      | (s, .fail f) => (s, .fail f)
      | (s, .ok p) =>
        let d0 := o.lay.dims.getD 0 1
        let old := (peekPlace s p).toNat
        let b := if a % 2 = 1 then old % 16 + w % 16 * 16
          else if d0 % 2 = 1 && i.getD 0 0 + 1 = d0 then w % 16
          else old / 16 * 16 + w % 16
        (storePlace s g p [BitVec.ofNat 8 b], .ok ())
    else writeBytes s g (a / 2) (leBytes (n / 2) w)

/-! ### Transforms fused on store -/

/-- An accumulator value: INT32, FP32 bits, or the two INT32 parts of a CINT16 result. -/
inductive AccVal where
  | int (v : Int)
  | fp (w : Nat)
  | cint (re im : Int)
  deriving DecidableEq, Repr

/-- Range of an integer format; none for a float or complex one. -/
def intRange (fmt : Nat) : Option (Int × Int) :=
  match fmt with
  | 0 => some (-8, 7)
  | 1 => some (-128, 127)
  | 2 => some (0, 255)
  | 3 => some (-32768, 32767)
  | 4 => some (-2147483648, 2147483647)
  | _ => none

/-- Format of one part of a complex format, or the format itself. -/
def partFmt (fmt : Nat) : Nat :=
  match fmt with
  | 8 => 3
  | 9 => 6
  | 0xA => 7
  | f => f

/-- A complex format. -/
def isComplex (fmt : Nat) : Bool := fmt = 8 || fmt = 9 || fmt = 0xA

/-- SCALE_MODE with 3 acting as 0. -/
def scaleMode (x : Nat) : Nat := bits x 25 24 % 3

/-- The integer path applies (R235). -/
def intPath (a : AccVal) (fmt : Nat) : Bool :=
  match a with
  | .int _ => fmt ≤ 4
  | _ => false

/-- The integer path: element bits, and whether it saturated (R235). -/
def xformInt (x fmt : Nat) (acc m : Int) : Nat × Bool :=
  let p := acc * m
  let q := if bitAt x 3 then roundHalfEven p (bits x 8 4) else p.fdiv (2 ^ bits x 8 4 : Nat)
  let zp := sext 8 (bits x 23 16)
  let r := q + zp
  let r := if bits x 2 0 = 1 then max r zp else r
  let (lo, hi) := (intRange fmt).getD (0, 0)
  let c := clampInt lo hi r
  (trunc (4 * fmtNib fmt) c, c ≠ r)

/-- The bits of a value in a float format. -/
def fltTo (fmt : Nat) (v : Flt) : Nat :=
  match fmt with
  | 5 => fltPack 8 7 v
  | 6 => fltPack 5 10 v
  | _ => fltPack 8 23 v

/-- The value that bits hold in a float format. -/
def fltFrom (fmt w : Nat) : Flt :=
  match fmt with
  | 5 => fltUnpack 8 7 w
  | 6 => fltUnpack 5 10 w
  | _ => fltUnpack 8 23 w

/-- The float path for one part (R236): FP32 bits of the value and of the scale. -/
def xformFlt (x fmt v scale : Nat) : Nat × Bool :=
  let y := f32Mul v scale
  let y := if bits x 2 0 = 1 then
      (match f32Val y with
      | .nan => y
      | .inf neg => if neg then 0 else y
      | .fin neg m _ => if neg || m = 0 then 0 else y)
    else y
  let y := f32Add y (f32Bits (fltOfInt (sext 8 (bits x 23 16))))
  match intRange fmt with
  | some (lo, hi) =>
    match fltToInt (bitAt x 3) (f32Val y) with
    | none => (0, false)
    | some (r, _) => let c := clampInt lo hi r
                     (trunc (4 * fmtNib fmt) c, c ≠ r)
  | none => (fltTo fmt (f32Val y), false)

/-- FP32 bits of a real part. -/
def partBits (v : Int) : Nat := f32Bits (fltOfInt v)

/-- The element bits stored for an accumulator value, and whether it saturated (R235, R236). `scale` is the entry of
the scale in use: an INT32 on the integer path, FP32 bits on the float path, 1 or 1.0 without one. -/
def xform (x fmt : Nat) (a : AccVal) (scale : Nat) : Nat × Bool :=
  match a with
  | .int v =>
    if fmt ≤ 4 then xformInt x fmt v (sext 32 scale)
    else if isComplex fmt then
      let (r, sr) := xformFlt x (partFmt fmt) (partBits v) scale
      let (i, si) := xformFlt x (partFmt fmt) 0 scale
      (r + i * 16 ^ (fmtNib fmt / 2), sr || si)
    else xformFlt x fmt (partBits v) scale
  | .fp w =>
    if isComplex fmt then
      let (r, sr) := xformFlt x (partFmt fmt) w scale
      let (i, si) := xformFlt x (partFmt fmt) 0 scale
      (r + i * 16 ^ (fmtNib fmt / 2), sr || si)
    else xformFlt x fmt w scale
  | .cint re im =>
    if isComplex fmt then
      let (r, sr) := xformFlt x (partFmt fmt) (partBits re) scale
      let (i, si) := xformFlt x (partFmt fmt) (partBits im) scale
      (r + i * 16 ^ (fmtNib fmt / 2), sr || si)
    else xformFlt x fmt (partBits re) scale

/-- FP32 bits of 1.0. -/
def f32One : Nat := 0x3F800000

/-- The scale layout of a destination in mode 2, checked (R237); none in the other modes. `real` says that the
accumulators are INT32. -/
def scaleOperand (s : State) (g : Agent) (o : Operand) (real : Bool) : State × Res (Option Operand) :=
  let x := o.lay.xform
  if scaleMode x ≠ 2 then (s, .ok none)
  else if o.lay.rank ≤ bits x 28 26 then (s, .fail ⟨4, 0xD6, false⟩)
  else
    match operand s g (bits x 47 32) false with
    | (s, .fail f) => (s, .fail f)
    | (s, .ok q) =>
      let want := if real && o.lay.fmt ≤ 4 then 4 else 7
      if q.lay.rank ≠ 1 || q.lay.dims.getD 0 0 ≠ o.lay.dims.getD (bits x 28 26) 0 || q.lay.fmt ≠ want
      then (s, .fail ⟨4, 0xD6, false⟩) else (s, .ok (some q))

/-- The scale entry for an element of a destination. -/
def scaleAt (s : State) (g : Agent) (o : Operand) (q : Option Operand) (intp : Bool) (idx : List Int) : State × Res Nat :=
  match q with
  | some q => readElem s g q [idx.getD (bits o.lay.xform 28 26) 0]
  | none =>
    (s, .ok (if scaleMode o.lay.xform = 1 then bits o.lay.xform 63 32 else if intp then 1 else f32One))

/-- Store accumulator values through a destination, in the order given (R230, R250): the count of saturated ones. -/
def storeAccs (s : State) (g : Agent) (o : Operand) (q : Option Operand) :
    List (List Int × AccVal) → Nat → State × Res Nat
  | [], n => (s, .ok n)
  | (idx, a) :: rest, n =>
    if !inExtents o.lay idx && o.oob ≠ 0 then storeAccs s g o q rest n
    else
      match scaleAt s g o q (intPath a o.lay.fmt) idx with
      | (s, .fail f) => (s, .fail f)
      | (s, .ok sc) =>
        let (w, sat) := xform o.lay.xform o.lay.fmt a sc
        match writeElem s g o idx w with
        | (s, .fail f) => (s, .fail f)
        | (s, .ok ()) => storeAccs s g o q rest (n + b2n sat)

end Sys2Proof.Machine
end

