-- ==== Sys2Proof/Machine/Operands.lean ====
section
/-! DEFINITION. The forms that operands take in memory: descriptors and their admin arguments (R141 Tables 2, 3),
doorbell records (R142), ring-table entries (R138), completions (R150), command lists and their operations
(R164 to R168). -/
namespace Sys2Proof.Machine

/-! ### Descriptors -/

/-- A descriptor's fields (R141 Table 2). -/
structure Desc where
  seq : Nat
  kind : Nat
  irq : Bool
  redeliver : Bool
  cmdLen : Nat
  /-- CMD_ADDR, whose low byte is OPCODE in an admin descriptor -/
  cmdAddr : Nat
  deadline : W64
  tag : W64
  args : List W32
  deriving DecidableEq, Repr

/-- The fields of 64 descriptor bytes. -/
def parseDesc (b : List Byte) : Desc :=
  let w0 := w32At b 0
  { seq := bits w0 15 0, kind := bits w0 19 16, irq := bitAt w0 24, redeliver := bitAt w0 25
    cmdLen := bits (w32At b 4) 23 0, cmdAddr := w64At b 8
    deadline := BitVec.ofNat 64 (w64At b 16), tag := BitVec.ofNat 64 (w64At b 24)
    args := (List.range 8).map fun i => BitVec.ofNat 32 (w32At b (32 + 4 * i)) }

/-- ARGi of a descriptor. -/
def argAt (args : List W32) (i : Nat) : Nat := (args.getD i 0).toNat

/-- The 64-bit argument in ARGi and ARGi+1. -/
def arg64 (args : List W32) (i : Nat) : Nat := argAt args i + argAt args (i + 1) * 2 ^ 32

/-- A ring-table entry (R138 Table 1). -/
structure RingEntry where
  descBase : Nat
  compBase : Nat
  log2 : Nat
  mode : Nat
  pollInt : Nat
  inflight : Nat
  firstSeq : Nat
  vector : Nat
  dbAddr : Nat
  histBase : Nat
  deriving DecidableEq, Repr

/-- The fields of the 64 bytes of an entry. -/
def parseEntry (b : List Byte) : RingEntry :=
  let c := w32At b 16
  let d := w32At b 20
  { descBase := w64At b 0, compBase := w64At b 8, log2 := bits c 4 0, mode := bits c 11 8, pollInt := bits c 15 12
    inflight := bits c 20 16, firstSeq := bits d 15 0, vector := bits d 26 16, dbAddr := w64At b 24
    histBase := w64At b 32 }

/-- The constraints of Table 1; `poll` says that poll mode is in effect, `vectors` how many MSI-X entries the function
has. -/
def entryOk (e : RingEntry) (poll : Bool) (vectors : Nat) : Bool :=
  e.descBase % 4096 = 0 && e.compBase % 4096 = 0 && 6 ≤ e.log2 && e.log2 ≤ 16 && e.mode < 2 && e.pollInt ≤ 8
  && 1 ≤ e.inflight && e.inflight ≤ 16 && e.vector < vectors && (!poll || e.dbAddr % 16 = 0)
  && e.histBase % 4096 = 0 && e.histBase ≠ 0

/-- The 32 bytes of a completion (R150 Table 5). -/
def completionBytes (seq : Nat) (o : Outcome) (cancelLate phase : Bool) (tag : W64) (egress : W64) : List Byte :=
  let run : Nat := match o.grant with
    | some g => min (egress.toNat - g.toNat) 0xFFFFFFFF
    | none => 0
  leBytes 4 (seq + o.status * 2 ^ 16 + o.result * 2 ^ 24)
  ++ leBytes 4 (b2n cancelLate * 2 + b2n o.varUsed * 4 + b2n o.fallback * 8 + o.detail % 65536 * 256 + b2n phase * 2 ^ 31)
  ++ leBytes 8 tag.toNat ++ leBytes 8 egress.toNat ++ leBytes 4 run ++ leBytes 4 0

/-! ### Command lists -/

/-- Class (7 for all classes) and extra words of an opcode (R167 Table 2). -/
def opSpec (opc : Nat) : Option (Nat × Nat) :=
  match opc with
  | 0x00 => some (7, 0)
  | 0x01 => some (7, 1)
  | 0x04 => some (7, 0)
  | 0x05 => some (7, 0)
  | 0x06 => some (7, 0)
  | 0x10 => some (0, 2)
  | 0x11 => some (0, 2)
  | 0x12 => some (0, 1)
  | 0x18 => some (0, 2)
  | 0x20 => some (1, 3)
  | 0x21 => some (1, 3)
  | 0x22 => some (1, 2)
  | 0x23 => some (1, 2)
  | 0x24 => some (1, 1)
  | 0x30 => some (2, 4)
  | 0x31 => some (2, 5)
  | 0x32 => some (2, 2)
  | 0x33 => some (2, 3)
  | 0x34 => some (2, 3)
  | 0x35 => some (2, 1)
  | 0x40 => some (3, 3)
  | 0x50 => some (4, 2)
  | 0x51 => some (4, 2)
  | 0x58 => some (5, 2)
  | 0x59 => some (5, 2)
  | 0x60 => some (6, 3)
  | 0x61 => some (6, 2)
  | _ => none

/-- The check an operation fails on being reached: LIST_OVERRUN, then ILLEGAL_OP; 0 for none (R164, R167). -/
def opBad (cls opc xw left : Nat) : Nat :=
  if left < xw then 0xC4
  else match opSpec opc with
  | some (c, n) => if (c = 7 || c = cls) && n = xw then 0 else 0xC3
  | none => 0xC3

/-- The unit that runs an operation. MQ_BIND names a tile and ignores UNIT [7:6] (R309); it stands in the segment of the
tile's TVC 0 (DEDUCED, log entry 20). -/
def opUnit (opc u : Nat) : Nat := if opc = 0x12 then u % 64 else u

/-- The operation whose header is the word at index `i`, with the words after it (R165 Table 1). -/
def parseOp (cls i : Nat) (h : W64) (rest : List W64) : ListOp :=
  let w := h.toNat
  let xw := bits w 11 8
  { idx := i, opc := bits w 7 0, unit := opUnit (bits w 7 0) (bits w 19 12), evc := bits w 31 20, imm := bits w 63 32
    extra := rest.take xw, bad := opBad cls (bits w 7 0) xw rest.length }

/-- The operations of a list from word index `i` on; each consumes its header and its extra words. The first argument
bounds the recursion by the number of words. -/
def parseOps : Nat → Nat → Nat → List W64 → List ListOp
  | 0, _, _, _ => []
  | _, _, _, [] => []
  | n + 1, cls, i, h :: rest =>
    let o := parseOp cls i h rest
    let xw := bits h.toNat 11 8
    o :: parseOps n cls (i + 1 + xw) (rest.drop xw)

/-- An operation that names no unit of its own: RA_BIND and PA_COLLECT (R185, R248). -/
def isLoose (o : ListOp) : Bool := (o.opc = 0x18 || o.opc = 0x35) && o.bad = 0

/-- The operations that a unit executes: HDR is the list's header and runs nowhere. -/
def unitOps (ops : List ListOp) : List ListOp := ops.filter fun o => !isLoose o && !(o.opc = 0x01 && o.bad = 0)

/-- The segments of a list: its operations by UNIT, in list order (R168). -/
def segmentsOf (ops : List ListOp) : List Seg :=
  (ops.foldl (fun l o => insertNew o.unit l) []).map fun u => { unit := u, ops := ops.filter fun o => o.unit = u }

/-- CLASS, LATE_EVT, RA, ABI and REQ_FEAT of HDR (R166). -/
structure Hdr where
  cls : Nat
  lateEvt : Bool
  ra : Bool
  abi : Nat
  reqFeat : Nat
  deriving DecidableEq, Repr

/-- The header of a list's words, when word 0 is HDR with its one extra word. -/
def parseHdr (words : List W64) : Option Hdr :=
  match words with
  | h :: x :: _ =>
    let w := h.toNat
    if bits w 7 0 = 0x01 && bits w 11 8 = 1 then
      some { cls := bits w 34 32, lateEvt := bitAt w 40, ra := bitAt w 41, abi := bits w 55 48
             reqFeat := bits x.toNat 8 0 }
    else none
  | _ => none

/-- The dispatch checks of R166: the result of the first that fails. A list that ends before HDR's extra word overruns
(R164). -/
def hdrBad (s : State) (cls : Nat) (deadline : W64) (words : List W64) : Option Nat :=
  match parseHdr words with
  | none => some (match words with
    | [h] => if bits h.toNat 7 0 = 0x01 && bits h.toNat 11 8 = 1 then 0xC4 else 0xC0
    | _ => 0xC0)
  | some h =>
    if h.abi ≠ 1 || (h.ra && h.cls ≠ 0) then some 0xC0
    else if h.cls ≠ cls then some 0xC1
    else if (List.range 9).any (fun b => bitAt h.reqFeat b && !feat s b) || (h.ra && !feat s 1) then some 0xC2
    else if h.ra && (bits ((words.getD 2 0).toNat) 7 0 ≠ 0x18 || deadline = 0) then some 0xC9
    else none

end Sys2Proof.Machine
end

