-- ==== Sys2Proof/Machine/Rings.lean ====
section
/-! DEFINITION. Doorbells, descriptor fetch and completions (R140 to R147, R150 to R156, R409), and the end of a ring
reset (R159). -/
namespace Sys2Proof.Machine

/-- The agent of a ring's machinery: the ring's function, no engine class. -/
def ringAgent (r : Nat) (g : Ring) : Agent := { ctx := g.fn, cls := 7, admin := r < 8 }

/-! ### Doorbells -/

/-- The function exists for the host: the physical one, or an enabled virtual one. -/
def fnExists (s : State) (fn : Nat) : Bool := fn = 0 || (s.link.vfEnable && fn ≤ s.link.numVfs)

/-- The configured ring whose doorbell page a function writes (R123 Table 1, R126). -/
def pageRing (s : State) (fn page : Nat) : Option Nat :=
  if fn = 0 then (if page < 1024 && (ringOf s page).st ≠ 0 && (ringOf s page).fn = 0 then some page else none)
  else (s.ring.find? fun e => e.2.st ≠ 0 && e.2.fn = fn && e.2.vfSlot = page).map (·.1)

/-- What every doorbell record meets first: before the seal it is only counted (R108), in recovery too, of which R102 has
nothing but GLB_, the mailbox and configuration space answer and does not speak of the count (DESIGN CHOICE, log entry 59);
on a page without a ring of the function it is a stray (R126). -/
def doorbell (s : State) (fn page : Nat) (f : Nat → State) : State :=
  if !fnExists s fn then s
  else if !s.boot.sealed then { s with err := { s.err with presealDb := satInc 0xFFFFFFFF s.err.presealDb } }
  else match pageRing s fn page with
  | none => { s with err := { s.err with strayDb := satInc 0xFFFFFFFF s.err.strayDb } }
  | some r => f r

/-- A SUBMIT record's PRODUCER (R144). -/
def applySubmit (s : State) (r producer : Nat) : State :=
  let g := ringOf s r
  let d := (producer + 2 ^ 32 - g.producer % 2 ^ 32) % 2 ^ 32
  if d = 0 then s
  else if d < 2 ^ 31 && g.producer + d - g.completed ≤ depth g then setRing s r { g with producer := g.producer + d }
  else setRing s r { g with badDb := satInc 0xFF g.badDb }

/-- Words 0x0, 0x4 and 0x8 of a doorbell page as staged (R143). -/
def stagedWord (s : State) (fn page i : Nat) : Nat :=
  ((tblGet [] s.link.staged (fn * 1024 + page)).getD i 0).toNat

/-- Words 0x0, 0x4 and 0x8 of a doorbell page are staged (R143). -/
def stageWords (s : State) (fn page : Nat) (w0 w1 w2 : Nat) : State :=
  { s with link := { s.link with
      staged := tblPut s.link.staged (fn * 1024 + page) [BitVec.ofNat 32 w0, BitVec.ofNat 32 w1, BitVec.ofNat 32 w2] } }

/-- SUBMIT (R142 to R144): one 16 B write stages its words and commits them. -/
def execSubmit (fn page : Nat) (producer _gen : W32) (s : State) : Host.Outcome State Fault Refusal :=
  done (
    let s := stageWords s fn page producer.toNat 1 0
    doorbell s fn page fun r => applySubmit s r producer.toNat)

/-- The target of a cancel is a fetched slot (R155 Table 8). -/
def cancelSlot (s : State) (r : Nat) (x : Slot) : State :=
  let g := ringOf s r
  match x.st with
  | .waiting => if g.st = 1 then modSlot s r x.k fun y => { y with st := .decided { status := 1 } } else s
  | .running _ => modSlot s r x.k fun y => { y with cancelLate := true }
  | .decided o => if o.grant.isSome then modSlot s r x.k fun y => { y with cancelLate := true } else s
  | .duplicate => s

/-- A cancel that misses (R155, R156). -/
def cancelMiss (s : State) (r : Nat) : State :=
  let g := ringOf s r
  setRing s r { g with cancelMiss := satInc 0xFF g.cancelMiss }

/-- A CANCEL record's TARGET_SEQ on a ring (R155, R156). -/
def applyCancel (s : State) (r t : Nat) : State :=
  let g := ringOf s r
  match g.slots.find? (fun x => x.accepted && x.seq = t && x.st ≠ .duplicate) with
  | some x => cancelSlot s r x
  | none =>
    let ahead := (t + 65536 - g.nextSeq) % 65536
    if 4096 < ahead then cancelMiss s r
    else if g.st ≠ 1 || g.cancels.contains t then s
    else if 16 ≤ g.cancels.length then cancelMiss s r
    else setRing s r { g with cancels := g.cancels ++ [t] }

/-- CANCEL (R143, R155, R156): one 16 B write stages its words and commits them. -/
def execCancel (fn page target : Nat) (s : State) : Host.Outcome State Fault Refusal :=
  done (
    let s := stageWords s fn page 0 (2 + target % 65536 * 65536) 0
    doorbell s fn page fun r => applyCancel s r (target % 65536))

/-- One word written to a doorbell page: words 0x0, 0x4 and 0x8 are staged, and word 0xC commits them (R143). -/
def pageWrite (s : State) (fn off v : Nat) : State :=
  let page := off / 0x1000
  let w := stagedWord s fn page
  match off % 0x1000 with
  | 0x0 => stageWords s fn page v (w 1) (w 2)
  | 0x4 => stageWords s fn page (w 0) v (w 2)
  | 0x8 => stageWords s fn page (w 0) (w 1) v
  | 0xC =>
    doorbell s fn page fun r =>
      match bits (w 1) 3 0 with
      | 1 => applySubmit s r (w 0)
      | 2 => applyCancel s r (bits (w 1) 31 16)
      | _ => s
  | _ => s

/-- POLL_READ (R143): the record at DB_ADDR is read and acted on when its GEN is new; a record of another operation than
SUBMIT is ignored, its GEN with it. A fault of the read is recorded and nothing else happens. -/
def execPollRead (r : Nat) (s : State) : Host.Outcome State Fault Refusal :=
  done (
    let g := ringOf s r
    if g.st = 0 || !g.poll then s
    else match readUse s (ringAgent r g) g.dbAddr 16 with
    | (s, .fail _) => s
    | (s, .ok b) =>
      let gen := w32At b 12
      if g.gen = some gen || bits (w32At b 4) 3 0 ≠ 1 then s
      else applySubmit (setRing s r { g with gen := some gen }) r (w32At b 0))

/-! ### Collectors (R254 to R256) -/

/-- The collect requests that wait on a ring, in slot order. -/
def waitingSlots (g : Ring) : List Slot := g.slots.filter fun x => x.st = .waiting

/-- A collector. -/
def colOf (s : State) (c : Nat) : Collector := tblGet {} s.col c

/-- Put a collector. -/
def setCol (s : State) (c : Nat) (x : Collector) : State := { s with col := tblSet {} s.col c x }

/-- A fetched request that finds no other waiting starts its collector's hold timer (R256). -/
def startHold (s : State) (r : Nat) : State :=
  match ringCollector s r with
  | some c =>
    if (waitingSlots (ringOf s r)).length = 1 then
      setCol s c { colOf s c with timing := some s.hclk, expired := false } else s
  | none => s

/-! ### Fetch -/

/-- A slot that may be fetched now: announced, in reach of the oldest undispatched descriptor, and not beyond the flush
boundary of a reset (R145, R159, R255). -/
def fetchDue (s : State) (r : Nat) : Bool :=
  let g := ringOf s r
  let reach := if (ringCollector s r).isSome then 128 else 8
  let oldest := match waitingSlots g with
    | [] => g.fetched
    | x :: _ => x.k
  g.st ≠ 0 && g.fetched < g.producer && g.fetched < oldest + reach && (g.st ≠ 3 || g.fetched < g.flushTo)

/-- Append a fetched slot. -/
def addSlot (s : State) (r : Nat) (x : Slot) : State :=
  let g := ringOf s r
  setRing s r { g with slots := g.slots ++ [x], fetched := g.fetched + 1 }

/-- An accepted sequence number (R145). -/
def acceptSeq (s : State) (r : Nat) : State :=
  let g := ringOf s r
  setRing s r { g with nextSeq := (g.nextSeq + 1) % 65536, accepted := satInc 4096 g.accepted }

/-- The slot of a fetched descriptor. -/
def slotFrom (k : Nat) (d : Desc) : Slot :=
  { k := k, seq := d.seq, kind := d.kind, irq := d.irq, redeliver := d.redeliver, cmdLen := d.cmdLen
    cmdAddr := d.cmdAddr, deadline := d.deadline, tag := d.tag, args := d.args }

/-- An accepted descriptor: marked cancelled before its fetch, flushed on a ring that is not RUNNING, or waiting. -/
def acceptSlot (s : State) (r : Nat) (x : Slot) : State :=
  let g := ringOf s r
  let s := acceptSeq s r
  if g.cancels.contains x.seq then
    let s := addSlot s r { x with st := .decided { status := 1 } }
    setRing s r { ringOf s r with cancels := g.cancels.filter (· ≠ x.seq) }
  else if g.st ≠ 1 then addSlot s r { x with st := .decided { status := 7, result := 0xF0 } }
  else startHold (addSlot s r x) r

/-- A fetched descriptor (R145). -/
def takeDesc (s : State) (r : Nat) (d : Desc) : State :=
  let g := ringOf s r
  let dist := (g.nextSeq + 65536 - d.seq) % 65536
  let x := slotFrom g.fetched d
  if dist = 0 then acceptSlot s r x
  else if dist ≤ g.accepted then
    addSlot (setRing s r { g with dup := satInc 0xFF g.dup }) r { x with st := .duplicate }
  else decide (addSlot s r { x with accepted := false }) r g.fetched 0 { status := 6, result := 0xE0 }

/-- A fault in fetching takes the descriptor as accepted, with SEQ as expected and TAG 0 (R409). -/
def fetchFault (s : State) (r : Nat) (f : Fail) : State :=
  let g := ringOf s r
  let s := addSlot (acceptSeq s r) r { k := g.fetched, seq := g.nextSeq }
  decide s r g.fetched 0 { status := f.status, result := f.result, detail := 0xFFFF }

/-- DESCRIPTOR_FETCH (R145). -/
def execDescriptorFetch (r : Nat) (s : State) : Host.Outcome State Fault Refusal :=
  done (
    let g := ringOf s r
    if !fetchDue s r then s
    else match readUse s (ringAgent r g) (g.descBase + 64 * (g.fetched % depth g)) 64 with
    | (s, .ok b) => takeDesc s r (parseDesc b)
    | (s, .fail f) => fetchFault s r f)

/-! ### Completions -/

/-- Ezdan's admin descriptor ends (R135, R137). -/
def adminDone (s : State) (status result : Nat) : State :=
  match s.arb.admin with
  | none => s
  | some j =>
    let s := { s with arb := { s.arb with admin := none } }
    match slotOf (ringOf s j.ring) j.k with
    | none => s
    | some x =>
      match x.st with
      | .running id =>
        -- a reset or a halt of its ring has overtaken it (R158, R159)
        let o : Outcome := if (ringOf s j.ring).st ≠ 1 then { status := 7, result := 0xF1 }
          else { status := status, result := result }
        decide s j.ring j.k 0 { o with grant := some (BitVec.ofNat 64 j.grant), place := some id }
      | _ => s

/-- The admin RING_RESET that waits for ring r on the admin ring `by_` completes OK, after an Ezdan restart that is under
way (R159 step 4, R419). -/
def resetEnds (s : State) (r : Nat) (by_ : Option Nat) : State :=
  match by_, s.arb.admin with
  | some n, some j =>
    if j.ring = n && j.opcode = 3 && j.begun && bits (argAt j.args 0) 9 0 = r && !s.boot.restarting && !s.boot.ezHalted
    then adminDone s 0 0 else s
  | _, _ => s

/-- A reset ends once every completion up to the boundary is written: the ring is RUNNING, its halt bit is clear, and an
admin RING_RESET that waits for it completes, after an Ezdan restart that is under way (R159, R419). -/
def finishReset (s : State) (r : Nat) : State :=
  let g := ringOf s r
  if g.st = 3 && g.flushTo ≤ g.completed then
    resetEnds (clearFlag (setRing s r { g with st := 1, resetBy := none }) (1024 + r)) r g.resetBy
  else s

/-- The history entry of a sequence number (R147). -/
def histAddr (g : Ring) (seq : Nat) : Nat := g.histBase + 32 * (seq % 4096)

/-- The slot of a completion in its array. -/
def compAddr (g : Ring) (k : Nat) : Nat := g.compBase + 32 * (k % depth g)

/-- PHASE of a slot (R150). -/
def phaseOf (g : Ring) (k : Nat) : Bool := k / depth g % 2 = 0

/-- The completion of slot x, whose outcome is o, is written: history first (R147), then the slot (R150). With the
outcome of a history fault. -/
def writeOutcome (s : State) (r : Nat) (x : Slot) (o : Outcome) : State × Option Outcome :=
  let g := ringOf s r
  let a := ringAgent r g
  let o := if o.status = 0 && late s x.deadline then { o with status := 2 } else o
  let bytes (o : Outcome) (ph : Bool) := completionBytes x.seq o x.cancelLate ph x.tag s.etu.count
  if x.accepted then
    match writeBytes s a (histAddr g x.seq) (bytes o false) with
    | (s, .ok ()) => ((writeBytes s a (compAddr g x.k) (bytes o (phaseOf g x.k))).1, none)
    | (s, .fail f) =>
      let o := { o with status := f.status, result := f.result, detail := 0xFFFF }
      ((writeBytes s a (compAddr g x.k) (bytes o (phaseOf g x.k))).1, some o)
  else ((writeBytes s a (compAddr g x.k) (bytes o (phaseOf g x.k))).1, none)

/-- A duplicate's completion: its history entry with DUPLICATE set and its own PHASE (R145, R147). -/
def writeDuplicate (s : State) (r : Nat) (x : Slot) : State × Option Outcome :=
  let g := ringOf s r
  let a := ringAgent r g
  match readUse s a (histAddr g x.seq) 32 with
  | (s, .ok b) =>
    let w1 := w32At b 4 / 2 * 2 + 1 + b2n (phaseOf g x.k) * 2 ^ 31
    ((writeBytes s a (compAddr g x.k) (b.take 4 ++ leBytes 4 w1 ++ b.drop 8)).1, none)
  | (s, .fail f) =>
    let o : Outcome := { status := f.status, result := f.result, detail := 0xFFFF }
    let b := completionBytes x.seq o false (phaseOf g x.k) x.tag s.etu.count
    ((writeBytes s a (compAddr g x.k) b).1, some o)

/-- A history fault halts the ring (R147). -/
def historyHalt (s : State) (r : Nat) (x : Slot) (bad : Option Outcome) : State :=
  match bad with
  | some o =>
    let s := logList s r x.seq 0 o
    if (ringOf s r).st = 1 then haltRing s r x.k else s
  | none => s

/-- COMPLETION_WRITE (R150, R152, R153, R162): the completion of the oldest slot, once decided. -/
def execCompletionWrite (r : Nat) (s : State) : Host.Outcome State Fault Refusal :=
  done (
    let g := ringOf s r
    match g.slots with
    | [] => s
    | x :: _ =>
      let finish (t : State × Option Outcome) : State :=
        let s := historyHalt t.1 r x t.2
        let h := ringOf s r
        let s := setRing s r { h with slots := h.slots.tail, completed := h.completed + 1 }
        let s := x.binds.foldl releaseVer s
        let s := if x.irq then requestVec s g.fn g.vector else s
        finishReset s r
      if g.st = 0 then s
      else match x.st with
      | .decided o => finish (writeOutcome s r x o)
      | .duplicate => finish (writeDuplicate s r x)
      | _ => s)

end Sys2Proof.Machine
end

