-- ==== Sys2Proof/Machine/HostLink.lean ====
section
/-! DEFINITION. The host port, the functions, the feature agreement and MSI-X messages (chapter 6, R210). -/
namespace Sys2Proof.Machine

/-! ### The host port -/

/-- Link widths and rates in GT/s, 2 standing for 2.5 (R119). -/
def linkForm (width gts : Nat) : Bool := [1, 2, 4, 8, 16].contains width && [2, 5, 8, 16, 32].contains gts

/-- LINK_RETRAIN (R91, R119, R121): the port, its lanes enabled, has trained; below x16 or 32 GT/s LINK_DEGRADED is set. -/
def execLinkRetrain (width gts : Nat) (s : State) : Host.Outcome State Fault Refusal :=
  done (
    if !s.boot.pwrok || s.boot.perst || s.boot.halted || !tblGet false s.power.outputs 32 || !linkForm width gts then s
    else
      let s := { s with link := { s.link with trained := true, width := width, gts := gts } }
      setFlagIf (!(width = 16 && gts = 32)) 2 s)

/-- Log2 of the size of a base address register of the physical function, or of the virtual ones (R123 Table 1). -/
def barBits (vf : Bool) (n : Nat) : Nat :=
  match n / 2 with
  | 0 => if vf then 16 else 21
  | 1 => if vf then 18 else 22
  | _ => if vf then 12 else 16

/-- A base address register as it reads: 64-bit, non-prefetchable, with the address bits below its size 0. -/
def barRead (s : State) (vf : Bool) (n : Nat) : Nat :=
  let w := (tblGet 0 s.link.bars (if vf then 1024 + n else n)).toNat
  if n % 2 = 1 then w else w / 2 ^ barBits vf n * 2 ^ barBits vf n + 4

/-- The function has the extended capability: Advanced Error Reporting, SR-IOV; no ATS, PRI or PASID (R119, R123). -/
def hasExtCap (fn id : Nat) : Option Bool :=
  match id with
  | 0x01 => some true
  | 0x10 => some (fn = 0)
  | 0x0F | 0x13 | 0x1B => some false
  | _ => none

/-- A configuration register as a read returns it (R119, R123, R442). The places of the fields are PCIe Base 5.0's, which
R119 cites (PRESUMED, log entry 52). -/
def configRead (s : State) (fn : Nat) (r : CfgReg) : W32 :=
  match r with
  | .ident => BitVec.ofNat 32 (Config.vendorId.toNat + (if fn = 0 then 0x7A10 else 0x7A11) * 65536)
  | .deviceCapabilities => BitVec.ofNat 32 (mergeMask (Config.configWord fn 0 s.choice).toNat 0x10000002 0x10000007)
  | .deviceControl =>
    BitVec.ofNat 32 (mergeMask (Config.configWord fn 1 s.choice).toNat
      (b2n (tblGet false s.link.relaxed fn) * 16 + tblGet 0x2000 s.link.sizes fn) 0x70F0)
  | .deviceCapabilities2 => BitVec.ofNat 32 (mergeMask (Config.configWord fn 2 s.choice).toNat 0x3000F 0x3001F)
  | .deviceControl2 =>
    BitVec.ofNat 32 (mergeMask (Config.configWord fn 3 s.choice).toNat (if fn = 0 then s.link.timeoutCode else 0) 0x1F)
  | .sriov => if fn = 0 then 0x003F003F else 0
  | .sriovStride => if fn = 0 then 0x00010001 else 0
  | .vfDeviceId => if fn = 0 then 0x7A110000 else 0
  | .pageSizes => if fn = 0 then 1 else 0
  | .systemPageSize => if fn = 0 then 1 else 0
  | .bar n => if fn = 0 && n < 6 then BitVec.ofNat 32 (barRead s false n) else 0
  | .vfBar n => if fn = 0 && n < 6 then BitVec.ofNat 32 (barRead s true n) else 0
  | .msixControl =>
    BitVec.ofNat 32 (mergeMask (Config.configWord fn 4 s.choice).toNat
      (0x11 + (if fn = 0 then 2047 else 31) * 2 ^ 16 + b2n (tblGet false s.link.fnMask fn) * 2 ^ 30) 0x47FF00FF)
  | .msixTable => 4
  | .msixPba => if fn = 0 then 0x8004 else 0x0804
  | .extCap id =>
    match hasExtCap fn id with
    | some true => BitVec.ofNat 32 (mergeMask (Config.configWord fn 5 s.choice).toNat id 0xFFFF)
    | some false => 0
    | none => Config.configWord fn (2 ^ 16 + id) s.choice
  | .other off => Config.configWord fn (16 + off) s.choice

/-- A write of a configuration register: Device Control (R119, R120), the completion timeout (R442), base address registers
(R123) and Function Mask (R127). -/
def configWrite (s : State) (fn : Nat) (r : CfgReg) (w : W32) : State :=
  match r with
  | .deviceControl => { s with link := { s.link with
      relaxed := tblSet false s.link.relaxed fn (bitAt w.toNat 4)
      sizes := tblSet 0x2000 s.link.sizes fn (Nat.land w.toNat 0x70E0) } }
  | .deviceControl2 =>
    if fn = 0 then { s with link := { s.link with timeoutCode := bits w.toNat 3 0 } } else s
  | .bar n => if fn = 0 && n < 6 then { s with link := { s.link with bars := tblSet 0 s.link.bars n w } } else s
  | .vfBar n => if fn = 0 && n < 6 then { s with link := { s.link with bars := tblSet 0 s.link.bars (1024 + n) w } } else s
  | .msixControl => { s with link := { s.link with fnMask := tblSet false s.link.fnMask fn (bitAt w.toNat 30) } }
  | _ => s

/-- CONFIG_REQUEST (R107): Retry Status from the end of link training until FW_UP, a full answer from then on. -/
def execConfigRequest (fn : Nat) (r : CfgReg) (wr : Option W32) (s : State) : Host.Outcome State Fault Refusal :=
  done (
    if !s.link.trained then s
    else if !s.boot.fwUp then { s with link := { s.link with answer := .retry } }
    else if !fnExists s fn then { s with link := { s.link with answer := .none } }
    else match wr with
    | some w => let s := configWrite s fn r w
                { s with link := { s.link with answer := .data fn w } }
    | none => takeChoice { s with link := { s.link with answer := .data fn (configRead s fn r) } })

/-- Completion timeout of the host port in µs (R442 Table 1a). -/
def timeoutMicros (s : State) : Nat :=
  match s.link.timeoutCode with
  | 0x1 => 75
  | 0x2 => 5000
  | 0x5 => 32000
  | 0x6 => 130000
  | 0x9 => 500000
  | 0xA => 2000000
  | 0xD => 8000000
  | 0xE => 30000000
  | _ => 40000

/-! ### MSI-X messages (R127, R210) -/

/-- The moderation conditions of R210 for a pool entry. -/
def messageDue (s : State) (v : Nat) : Bool :=
  let q := tblGet {} s.ev.vec v
  let m := reg s (0x31000 + 4 * v)
  1 ≤ q.n && ((bits m 19 16 ≠ 0 && bits m 19 16 ≤ q.n) || q.first + bits m 11 0 * 1024 ≤ s.hclk)
  && (match q.lastMsg with
      | some t => t + bits m 31 20 * 1024 ≤ s.hclk
      | none => true)

/-- A message is issued: it covers every collected request and clears the pending bit. -/
def issueMessage (s : State) (v : Nat) : State :=
  let q := tblGet {} s.ev.vec v
  { s with
    ev := { s.ev with vec := tblSet {} s.ev.vec v { q with n := 0, first := 0, lastMsg := some s.hclk, sent := q.sent + 1 } }
    link := { s.link with msix := tblMod {} s.link.msix v fun e => { e with pending := false } } }

/-- MSIX_MESSAGE (R210): issued when its conditions hold and the entry is not masked. -/
def execMsixMessage (v : Nat) (s : State) : Host.Outcome State Fault Refusal :=
  done (if messageDue s v && !vecMasked s v then issueMessage s v else s)

/-- Pool entry of an entry of a function's table (R127). -/
def poolEntry (s : State) (fn entry : Nat) : Option Nat :=
  if fn = 0 then (if entry < 2048 && poolOwner s entry = 0 then some entry else none)
  else if fnExists s fn && entry < 32 then some (32 * fn + entry) else none

/-- Change a table entry. -/
def modMsix (s : State) (v : Nat) (f : Msix → Msix) : State :=
  { s with link := { s.link with msix := tblMod {} s.link.msix v f } }

/-- A pool entry is unmasked: a pending message is sent, under its moderation (R127). -/
def unmask (s : State) (v : Nat) : State :=
  let e := tblGet {} s.link.msix v
  let s := modMsix s v fun e => { e with masked := false }
  if e.pending && messageDue s v && !vecMasked s v then issueMessage s v else s

/-- MSIX_UNMASK (R127). -/
def execMsixUnmask (fn entry : Nat) (s : State) : Host.Outcome State Fault Refusal :=
  done (
    match poolEntry s fn entry with
    | none => s
    | some v => unmask s v)

/-- Words of a function's MSI-X table; the pending-bit array follows at twice that many for the physical function, at
0x800 for a virtual one (R123 Table 1). -/
def tableWords (fn : Nat) : Nat := if fn = 0 then 8192 else 128

/-- A write of one word of an MSI-X table: the entry's address, data and mask bit as in PCIe Base 5.0. Entries that belong
to another function ignore it, and so does the pending-bit array (R127). -/
def tableWrite (s : State) (fn off v : Nat) : State :=
  if tableWords fn * 4 ≤ off then s
  else match poolEntry s fn (off / 16) with
  | none => s
  | some n =>
    match off % 16 with
    | 0 => modMsix s n fun e => { e with addr := BitVec.ofNat 64 (e.addr.toNat / 2 ^ 32 * 2 ^ 32 + v / 4 * 4) }
    | 4 => modMsix s n fun e => { e with addr := BitVec.ofNat 64 (e.addr.toNat % 2 ^ 32 + v * 2 ^ 32) }
    | 8 => modMsix s n fun e => { e with data := BitVec.ofNat 32 v }
    | 12 => if bitAt v 0 then modMsix s n fun e => { e with masked := true } else unmask s n
    | _ => s

/-- A word of a function's MSI-X table or pending-bit array as it reads (R123 Table 1, R127): 0 for an entry that belongs to
another function. -/
def tableRead (s : State) (fn off : Nat) : Nat :=
  let pba := if fn = 0 then 0x8000 else 0x800
  let entry (i : Nat) : Msix := match poolEntry s fn i with
    | some n => tblGet {} s.link.msix n
    | none => { masked := false }
  if off < tableWords fn * 4 then
    let e := entry (off / 16)
    match off % 16 with
    | 0 => e.addr.toNat % 2 ^ 32
    | 4 => e.addr.toNat / 2 ^ 32
    | 8 => e.data.toNat
    | 12 => b2n e.masked
    | _ => 0
  else if pba ≤ off && off < pba + tableWords fn / 32 then
    (List.range 32).foldl (fun w i => w + b2n (entry ((off - pba) / 4 * 32 + i)).pending * 2 ^ i) 0
  else 0

/-- Table entries and collected requests of virtual function k's pool entries go back to reset; when each last sent a
message stays, since the moderation goes on (R127, R128, R210). -/
def resetEntries (s : State) (k : Nat) : State :=
  { s with link := { s.link with msix := dropRange s.link.msix (32 * k) 32 }
           ev := { s.ev with vec := s.ev.vec.map fun e =>
             if 32 * k ≤ e.1 && e.1 < 32 * k + 32 then (e.1, { e.2 with n := 0, first := 0 }) else e } }

/-! ### Function-level reset (R128) -/

/-- The rings of a function are torn down; an admin RING_RESET that waits for one ends OK, its action having begun. -/
def dropRings (s : State) (k : Nat) : State :=
  (s.ring.filter fun e => e.2.st ≠ 0 && e.2.fn = k).foldl (fun s e =>
    resetEnds (clearFlag (setRing s e.1 {}) (1024 + e.1)) e.1 e.2.resetBy) s

/-- HARQ entries of a function are dropped, each counted (R336). -/
def dropHarqOf (s : State) (k : Nat) : State := dropHarq s fun _ h => h.func = k

/-- The reset of virtual function k: steps 1 to 5, with its TENANT log entry (R128, R423); a
collector of one of its rings is no longer valid (R254). -/
def resetFunction (s : State) (k : Nat) : State :=
  let s := { s with runs := s.runs.map fun x => if x.fn = k then { x with cause := some .discarded } else x }
  let s := watchCols s (dropRings s k)
  let evc := s.ev.evc.map fun e => if e.2.owner = some k then (e.1, { e.2 with val := 0 }) else e
  let s := { s with ev := { s.ev with evc := evc }
                    mem := { s.mem with xlt := s.mem.xlt.filter fun e => e.ctx ≠ k } }
  let s := resetEntries (dropHarqOf s k) k
  pushLog (setFlag s (128 + k)) { time := 0, code := 0x2002, func := k, index := k, arg0 := k }

/-- VF_FLR (R128). -/
def execVfFlr (k : Nat) (s : State) : Host.Outcome State Fault Refusal :=
  done (if s.link.vfEnable && 1 ≤ k && k ≤ s.link.numVfs then resetFunction s k else s)

/-- VF_ENABLE_CHANGE (R127, R128): clearing VF Enable resets every enabled virtual function; the pool entries that pass
start in reset state under their new owner. -/
def execVfEnableChange (enable : Bool) (numVfs : Nat) (s : State) : Host.Outcome State Fault Refusal :=
  done (
    if !s.boot.fwUp || enable = s.link.vfEnable then s
    else
      let n := if enable then numVfs else s.link.numVfs
      let ks := (List.range n).map (· + 1)
      let s := if enable then s else ks.foldl resetFunction s
      let s := ks.foldl resetEntries s
      { s with link := { s.link with vfEnable := enable, numVfs := n } })

/-! ### Accept and seal (R131) -/

/-- The bit that an accepted bit requires (R130 Table 3). -/
def featNeeds (b : Nat) : Option Nat := if b = 3 then some 2 else none

/-- Bit b of FEAT_ACCEPT. -/
def accepted (s : State) (b : Nat) : Bool := bitAt (reg s (0x10010 + 4 * (b / 32))) (b % 32)

/-- The first refusal found from bit 0 upward: CODE and BAD_BIT. -/
def sealRefusal (s : State) : Option (Nat × Nat) :=
  (List.range 128).findSome? fun b =>
    if !accepted s b then none
    else if !s.feat.offer.getLsbD b then some (3, b)
    else match featNeeds b with
    | some n => if accepted s n then none else some (4, b)
    | none => none

/-- SEAL (R131): the evaluation and FEAT_RESULT. Converter links and carriers see the seal at their next condition. -/
def execSeal (s : State) : Host.Outcome State Fault Refusal :=
  done (
    if !servedIo s || s.boot.sealed then s
    else if !s.boot.ready then { s with feat := { s.feat with code := 2, badBit := 0 } }
    else match sealRefusal s with
    | some (c, b) => { s with feat := { s.feat with code := c, badBit := b } }
    | none => { s with feat := { s.feat with code := 1, badBit := 0 }, boot := { s.boot with sealed := true } })

end Sys2Proof.Machine
end

