-- ==== Sys2Proof/Machine/Admin.lean ====
section
/-! DEFINITION. Admin rings and the admin commands (R135 to R139, R157 to R161, R215, R220, R419). -/
namespace Sys2Proof.Machine

/-! ### Taking an admin descriptor -/

/-- The oldest undispatched descriptor of an admin ring that Ezdan may take. -/
def adminReady (s : State) (n : Nat) : Option Slot :=
  let g := ringOf s n
  if g.st = 1 && inFlight g = 0 then (waitingSlots g).head? else none

/-- A slot that Ezdan has taken and whose completion is not written. -/
def takenSlot (x : Slot) : Bool :=
  match x.st with
  | .running _ => true
  | .decided o => o.grant.isSome
  | _ => false

/-- Every admin descriptor taken so far has completed (R135). -/
def adminIdle (s : State) : Bool := (List.range 8).all fun n => !(ringOf s n).slots.any takenSlot

/-- The next admin ring in round-robin order with a descriptor to take (R135). -/
def nextAdmin (s : State) : Option (Nat × Slot) :=
  (List.range 8).findSome? fun i =>
    let n := (s.arb.adminLast + 1 + i) % 8
    (adminReady s n).map fun x => (n, x)

/-- Ezdan can take and run admin commands (R135, R419). -/
def ezdanRuns (s : State) : Bool :=
  s.boot.fwUp && !s.boot.recovery && s.boot.sealed && !s.boot.restarting && !s.boot.ezHalted

/-- ADMIN_TAKE (R135, R141, R149): the deadline check counts as at a grant; a late descriptor is late-cut, one that is no
admin descriptor or names no command completes with BAD_OPCODE. -/
def execAdminTake (s : State) : Host.Outcome State Fault Refusal :=
  done (
    if !ezdanRuns s || s.arb.admin.isSome || !adminIdle s then s
    else match nextAdmin s with
    | none => s
    | some (n, x) =>
      let s := { s with arb := { s.arb with adminLast := n } }
      let g : Option W64 := some s.etu.count
      if late s x.deadline then decide s n x.k 0 { status := 2, grant := g }
      else if x.kind ≠ 1 || x.cmdAddr % 256 = 0 || 8 < x.cmdAddr % 256 then
        decide s n x.k 0 { status := 6, result := 1, grant := g }
      else
        let id := s.arb.runs
        let s := modSlot s n x.k fun y => { y with st := .running id }
        { s with arb := { s.arb with
            runs := id + 1
            admin := some { ring := n, k := x.k, opcode := x.cmdAddr % 256, args := x.args, grant := s.etu.count.toNat } } })

/-- Run the admin command of an opcode that Ezdan has taken and not begun; one whose ring has halted meanwhile is stopped
before it acts (R158). -/
def adminRun (s : State) (opcode : Nat) (f : AdminJob → State) : State :=
  match s.arb.admin with
  | some j =>
    if ezdanRuns s && j.opcode = opcode && !j.begun then
      if (ringOf s j.ring).st = 1 then f j else adminDone s 7 0xF1
    else s
  | none => s

/-- A command that cannot act completes with its result and changes nothing else (R137). -/
def adminFail (s : State) (result : Nat) : State := adminDone s 6 result

/-! ### Commands -/

/-- A function is no tenant now (R137 BAD_FUNCTION). -/
def badFunction (s : State) (fn : Nat) : Bool := !fnExists s fn

/-- Ring 256 to 1023 without RING_EXT (R130, R137 BAD_RING). -/
def beyondRings (s : State) (r : Nat) : Bool := 256 ≤ r && !feat s 0

/-- An engine class has a working unit (R137). -/
def classWorks (s : State) (cls : Nat) : Bool :=
  match cls with
  | 0 => 1 ≤ workingCount s 0 64
  | 1 => 1 ≤ workingCount s 2 24 + workingCount s 3 8 + workingCount s 4 4 + workingCount s 5 2
  | 2 => 1 ≤ workingCount s 1 8
  | 3 => 1 ≤ workingCount s 6 4
  | 4 => 1 ≤ workingCount s 10 12
  | 5 => 1 ≤ workingCount s 11 6
  | 6 => true
  | _ => false

/-- Rings a function owns. -/
def ringsOf (s : State) (fn : Nat) : Nat := s.ring.countP fun e => e.2.st ≠ 0 && e.2.fn = fn && 8 ≤ e.1

/-- VF_LIMITS of a function. -/
def limitsOf (s : State) (fn : Nat) : Limits := tblGet {} s.limits fn

/-- The function may have no further ring: the physical function is limited only once VF_LIMITS has named it. -/
def ringsFull (s : State) (fn : Nat) : Bool :=
  (fn ≠ 0 || (tblGet? s.limits 0).isSome) && (limitsOf s fn).rings ≤ ringsOf s fn

/-- MSI-X entries of a function's table. -/
def vectorsOf (fn : Nat) : Nat := if fn = 0 then 2048 else 32

/-- The entry may configure a ring of the function: its constraints, and a vector of the physical function's own (R138,
R207). -/
def entryFits (s : State) (e : RingEntry) (fn : Nat) (poll : Bool) : Bool :=
  entryOk e poll (vectorsOf fn) && (fn ≠ 0 || poolOwner s e.vector = 0)

/-- A ring as an entry sets it up: RUNNING, counts at 0 (R138, R145, R157). -/
def ringFrom (e : RingEntry) (fn vfSlot cls prio inflight : Nat) (poll : Bool) : Ring :=
  { st := 1, fn := fn, vfSlot := vfSlot, cls := cls, prio := prio, descBase := e.descBase, compBase := e.compBase
    histBase := e.histBase, dbAddr := e.dbAddr, log2 := e.log2, poll := poll, pollInt := e.pollInt
    inflight := inflight, vector := e.vector, nextSeq := e.firstSeq }

/-- The first failing check of RING_SETUP that needs no entry, in the order of Table 6. -/
def setupRefusal (s : State) (r fn slot cls : Nat) : Option Nat :=
  if r < 8 || beyondRings s r then some 2
  else if (ringOf s r).st ≠ 0 then some 3
  else if (cls = 3 && !feat s 4) || (fn ≠ 0 && (cls < 2 || (3 ≤ cls && cls ≤ 5)) && !feat s 8) then some 4
  else if badFunction s fn then some 5
  else if (fn ≠ 0 && s.ring.any fun e => e.2.st ≠ 0 && e.2.fn = fn && e.2.vfSlot = slot) || ringsFull s fn then some 6
  else if 7 ≤ cls || !classWorks s cls then some 7
  else none

/-- RING_SETUP (R138). An entry that the device cannot read completes with BAD_ARGUMENT; the spec names no admin result for
it (DESIGN CHOICE, log entry 59). -/
def execRingSetup (s : State) : Host.Outcome State Fault Refusal :=
  done (adminRun s 1 fun j =>
    let a0 := argAt j.args 0
    let a1 := argAt j.args 1
    let r := bits a0 9 0
    let fn := bits a0 21 16
    let cls := bits a1 2 0
    match setupRefusal s r fn (bits a0 29 24) cls with
    | some c => adminFail s c
    | none =>
      afterRes (readUse s { ctx := 0, cls := 7 } (arg64 j.args 2) 64)
        (fun s b =>
          let e := parseEntry b
          let poll := e.mode = 1 && feat s 7
          if entryFits s e fn poll then
            adminDone (setRing s r (ringFrom e fn (bits a0 29 24) cls (bits a1 5 4) e.inflight poll)) 0 0
          else adminFail s 7)
        fun s _ => adminFail s 7)

/-- RING_TEARDOWN (R157): a ring with nothing outstanding. -/
def execRingTeardown (s : State) : Host.Outcome State Fault Refusal :=
  done (adminRun s 2 fun j =>
    let r := bits (argAt j.args 0) 9 0
    let g := ringOf s r
    if r < 8 || beyondRings s r || g.st = 0 then adminFail s 2
    else if g.completed < g.producer || g.st = 3 then adminFail s 3
    else adminDone (watchCols s (clearFlag (setRing s r {}) (1024 + r))) 0 0)

/-- Steps 1 and 2 of R159: the flush boundary, what waits is flushed, what runs is stopped. -/
def startReset (s : State) (r : Nat) (byRing : Option Nat) : State :=
  let g := ringOf s r
  let s := setRing s r { g with st := 3, flushTo := g.producer, resetBy := byRing, slots := flushWaiting g.slots }
  let ids := (s.runs.filter fun x => x.ring = r && x.cause ≠ some .discarded).map (·.id)
  sweepRuns (ids.foldl (fun s id => markStop s id .flushed) s)

/-- RING_RESET (R159): completes once the flush has ended. -/
def execRingReset (s : State) : Host.Outcome State Fault Refusal :=
  done (adminRun s 3 fun j =>
    let r := bits (argAt j.args 0) 9 0
    if r = j.ring || beyondRings s r || (ringOf s r).st = 0 then adminFail s 2
    else
      let s := { s with arb := { s.arb with admin := some { j with begun := true } } }
      let s := if (ringOf s r).st = 3 then setRing s r { ringOf s r with resetBy := some j.ring }
        else startReset s r (some j.ring)
      finishReset s r)

/-- EVC_ASSIGN (R136, R174, R414): the range is the function's and reads 0. -/
def execEvcAssign (s : State) : Host.Outcome State Fault Refusal :=
  done (adminRun s 4 fun j =>
    let first := bits (argAt j.args 0) 11 0
    let count := bits (argAt j.args 1) 12 0
    let fn := bits (argAt j.args 2) 5 0
    let range := (List.range count).map (first + ·)
    if badFunction s fn then adminFail s 5
    else if range.any (fun n => match (evc s n).owner with | some f => f ≠ fn | none => false) then adminFail s 6
    else if count = 0 || 4096 < first + count then adminFail s 7
    else adminDone (range.foldl (fun s n => setEvc s n { val := 0, owner := some fn, frozen := false }) s) 0 0)

/-- XLT_CTX_SET (R215, R221): it drops every cached translation of its context. -/
def execXltCtxSet (s : State) : Host.Outcome State Fault Refusal :=
  done (adminRun s 5 fun j =>
    let c := bits (argAt j.args 0) 5 0
    let root := arg64 j.args 2
    if root % 4096 ≠ 0 || 2 ^ 52 ≤ root then adminFail s 7
    else
      let en := bitAt (argAt j.args 0) 8
      let x := { ctxOf s c with en := en, wasEn := (ctxOf s c).wasEn || en, root := root }
      adminDone { s with mem := { s.mem with
        ctx := tblSet {} s.mem.ctx c x, xlt := s.mem.xlt.filter fun e => e.ctx ≠ c } } 0 0)

/-- XLT_INVALIDATE (R220). -/
def execXltInvalidate (s : State) : Host.Outcome State Fault Refusal :=
  done (adminRun s 6 fun j =>
    let c := bits (argAt j.args 0) 5 0
    let all := bitAt (argAt j.args 0) 8
    let base := arg64 j.args 2
    let pages := arg64 j.args 4
    if !all && (pages = 0 || 2 ^ 48 < base + pages * 4096) then adminFail s 7
    else
      let lo := base / 4096
      let hi := (base + pages * 4096 - 1) / 4096
      let keep (e : XltEntry) : Bool := e.ctx ≠ c || (!all && (hi < e.firstPage || e.firstPage + e.pages ≤ lo))
      adminDone { s with mem := { s.mem with xlt := s.mem.xlt.filter keep } } 0 0)

/-- VF_LIMITS (R136). -/
def execVfLimits (s : State) : Host.Outcome State Fault Refusal :=
  done (adminRun s 7 fun j =>
    let fn := bits (argAt j.args 0) 5 0
    let rings := bits (argAt j.args 1) 6 0
    let arrays := bits (argAt j.args 2) 3 0
    if badFunction s fn then adminFail s 5
    else if rings = 0 || 64 < rings || arrays = 0 || 8 < arrays then adminFail s 7
    else adminDone { s with limits := tblPut s.limits fn { rings := rings, arrays := arrays } } 0 0)

/-- Segments of a peer port by its bifurcation mode (R122). -/
def peerSegments (s : State) (d : Nat) : Nat :=
  match tblGet 0 s.link.bifurcation d with
  | 0 => 1
  | 1 => 2
  | _ => 4

/-- The configuration request is issued with its requester data; what the peer device answers, which only it knows, reaches
the result buffer (R136). A buffer that the device cannot write completes with BAD_ARGUMENT; the spec names no admin result
for it (DESIGN CHOICE, log entry 59). -/
def peerResult (s : State) (j : AdminJob) : State :=
  let d := bits (argAt j.args 0) 1 0
  let g := bits (argAt j.args 0) 5 4
  let w := Config.peerConfig d g (argAt j.args 1) s.choice
  let s := { s with link := { s.link with
    peerReqs := s.link.peerReqs + 1, peerReq := some (d, g, argAt j.args 1, arg64 j.args 2) } }
  afterRes (writeBytes (takeChoice s) { ctx := 0, cls := 7 } (arg64 j.args 4) (leBytes 4 w.toNat))
    (fun s _ => adminDone s 0 0) (fun s _ => adminFail s 7)

/-- PEER_CFG (R122, R136): a working peer port and one of its segments. -/
def execPeerCfg (s : State) : Host.Outcome State Fault Refusal :=
  done (adminRun s 8 fun j =>
    let d := bits (argAt j.args 0) 1 0
    if !working s 12 d || peerSegments s d ≤ bits (argAt j.args 0) 5 4 then adminFail s 7 else peerResult s j)

/-! ### Admin rings by register (R139, R161) -/

/-- The 64 bytes of RING_ADMIN_ENTn. -/
def adminEntry (s : State) (n : Nat) : List Byte :=
  (List.range 16).flatMap fun i => leBytes 4 (reg s (0x20000 + 0x40 * n + 4 * i))

/-- Admin ring n is configured from its entry, in nudge mode whatever MODE holds and with INFLIGHT acting as 1 (R139). An
entry that breaks another constraint of Table 1 configures nothing and the EN bit stays 0: R138 says so of RING_SETUP, and
nothing says what a refused RING_ADMIN_CTRL.EN write leaves (DESIGN CHOICE, log entry 59). -/
def configAdmin (s : State) (n : Nat) : State :=
  let e := { parseEntry (adminEntry s n) with mode := 0, inflight := 1 }
  if (ringOf s n).st ≠ 0 || !entryFits s e 0 false then s
  else setRing s n (ringFrom e 0 n 7 0 1 false)

/-- RING_ADMIN_CTRL (R139): each bit written with 1 configures its ring. -/
def execRingAdminCtrl (mask : Byte) (s : State) : Host.Outcome State Fault Refusal :=
  done (if served s then (List.range 8).foldl (fun s n => if mask.getLsbD n then configAdmin s n else s) s else s)

/-- A reset of admin ring n by register: its descriptor in execution is stopped; one that carries a RING_RESET whose flush
has begun lets that flush run on (R161). -/
def adminReset (s : State) (n : Nat) : State :=
  let g := ringOf s n
  if g.st = 0 || g.st = 3 then s
  else
    let s := { s with ring := s.ring.map fun e => if e.2.resetBy = some n then (e.1, { e.2 with resetBy := none }) else e }
    let s := startReset s n none
    let s := match s.arb.admin with
      | some j => if j.ring = n then adminDone s 7 0xF1 else s
      | none => s
    finishReset s n

/-- RING_ADMIN_RESET (R161): held during an Ezdan restart. -/
def execRingAdminReset (mask : Byte) (s : State) : Host.Outcome State Fault Refusal :=
  done (
    if !served s then s
    else if s.boot.restarting then
      { s with boot := { s.boot with heldAdminReset := Nat.lor s.boot.heldAdminReset mask.toNat } }
    else (List.range 8).foldl (fun s n => if mask.getLsbD n then adminReset s n else s) s)

/-- EZDAN_RESUME (R419): EZDAN_RESTART is set; a command whose action had not begun completes with MGMT_RESTART; held ring
resets act. -/
def execEzdanResume (s : State) : Host.Outcome State Fault Refusal :=
  done (
    if !s.boot.restarting then s
    else
      let held := s.boot.heldAdminReset
      let s := setFlag { s with boot := { s.boot with restarting := false, heldAdminReset := 0 } } 3078
      let s := match s.arb.admin with
        | some j =>
          if !j.begun then adminDone s 6 8
          else if (ringOf s (bits (argAt j.args 0) 9 0)).resetBy = some j.ring then s
          else adminDone s 0 0
        | none => s
      (List.range 8).foldl (fun s n => if bitAt held n then adminReset s n else s) s)

end Sys2Proof.Machine
end

