-- ==== Sys2Proof/Machine/Lists.lean ====
section
/-! DEFINITION. What units do with their segments whatever the class (R167 to R178, R185, R418, R442). -/
namespace Sys2Proof.Machine

/-! ### Reaching an operation -/

/-- The clock of a unit runs: its XCLK instance, for the units that have one (R55). -/
def unitClocked (s : State) (cls u : Nat) : Bool :=
  match cls with
  | 0 => (instOf s (u % 64)).run
  | 1 => (instOf s 72).run
  | 2 => (instOf s (64 + u)).run
  | 3 => (instOf s 73).run
  | _ => true

/-- The operation with an opcode that a unit is about to execute: its segment stands before it, is not to stop, and the
list's RA_BIND has run (R168, R176, R185). -/
def atOp (s : State) (cls u opc : Nat) : Option (Run × Seg × ListOp) :=
  match current s cls u with
  | some (x, g) =>
    match g.ops with
    | o :: _ =>
      if o.opc = opc && o.bad = 0 && unitWorks s cls u && unitClocked s cls u && !g.stop && g.phase = .ready
        && !(x.ra && x.bind.isNone && x.loose.any fun l => l.opc = 0x18)
      then some (x, g, o) else none
    | [] => none
  | none => none

/-- Run the effect of an operation that a unit is about to execute. -/
def onOp (s : State) (cls u opc : Nat) (f : Run → Seg → ListOp → State) : State :=
  match atOp s cls u opc with
  | some (x, g, o) => f x g o
  | none => s

/-- The segment that a unit executes, with its operation, while it is not to stop. -/
def inOp (s : State) (cls u : Nat) : Option (Run × Seg × ListOp) :=
  match current s cls u with
  | some (x, g) =>
    match g.ops with
    | o :: _ => if g.stop then none else some (x, g, o)
    | [] => none
  | none => none

/-- Put a segment into a phase of its operation. -/
def setPhase (s : State) (x : Run) (u : Nat) (ph : SegPhase) : State := modSeg s x.id u fun g => { g with phase := ph }

/-- An operation fails; a fault in fetching a layout descriptor has DETAIL 0xFFFF (R175, R218). -/
def failWith (s : State) (x : Run) (u idx : Nat) (f : Fail) : State :=
  failOp s x u f.status f.result (if f.fetch then 0xFFFF else idx)

/-- An operation fails ENGINE_ERROR with a result. -/
def failResult (s : State) (x : Run) (u idx result : Nat) : State := failOp s x u 6 result idx

/-- A VAR operation runs (R181). -/
def useVar (s : State) (x : Run) : State := modRun s x.id fun y => { y with varUsed := true }

/-- Extra word i of an operation. -/
def xw (o : ListOp) (i : Nat) : Nat := ((o.extra.getD (i - 1) 0)).toNat

/-- The operation's list is not yet confirmed: its segment waits at the confirmation barrier before an operation that
writes elsewhere than the tile's memories or its staging region (R186). -/
def barred (s : State) (x : Run) : Bool :=
  match findRun s x.id with
  | some y => unresolved y
  | none => false

/-! ### Operations of every class -/

/-- NOP (R167). -/
def execNop (cls u : Nat) (s : State) : Host.Outcome State Fault Refusal :=
  done (onOp s cls u 0x00 fun x _ _ => advance s x u)

/-- The counter an operation names is owned by its ring's function (R125). -/
def ownsEvc (s : State) (x : Run) (o : ListOp) : Bool := (evc s o.evc).owner = some x.fn

/-- A WAIT on the counter passes: its condition holds and its parity is good (R171, R414). -/
def waitPasses (s : State) (o : ListOp) : Bool := evcReached s o.evc o.imm && !(evc s o.evc).frozen

/-- WAIT (R171): it passes at once or blocks its unit. -/
def execWait (cls u : Nat) (s : State) : Host.Outcome State Fault Refusal :=
  done (onOp s cls u 0x04 fun x _ o =>
    if !ownsEvc s x o then failResult s x u o.idx 0xC6
    else if waitPasses s o then advance s x u
    else setPhase s x u (.blocked false))

/-- WAIT_PASS (R171): the blocked WAIT of a unit passes. -/
def execWaitPass (cls u : Nat) (s : State) : Host.Outcome State Fault Refusal :=
  done (
    match inOp s cls u with
    | some (x, g, o) =>
      match g.phase with
      | .blocked _ => if waitPasses s o then advance s x u else s
      | _ => s
    | none => s)

/-- SIGNAL (R172): the add is held until the list ends. -/
def execSignal (cls u : Nat) (s : State) : Host.Outcome State Fault Refusal :=
  done (onOp s cls u 0x05 fun x _ o =>
    if !ownsEvc s x o then failResult s x u o.idx 0xC6
    else advance (modRun s x.id fun y => { y with held := y.held ++ [(o.idx, o.evc, o.imm)] }) x u)

/-- SIGNAL_LOCAL (R173): the add is made at once and remembered, unless the counter discards it, held with a parity error
(R414); a reset function's list signals nothing (R128). -/
def execSignalLocal (cls u : Nat) (s : State) : Host.Outcome State Fault Refusal :=
  done (onOp s cls u 0x06 fun x _ o =>
    if !ownsEvc s x o then failResult s x u o.idx 0xC6
    else if x.cause = some .discarded || (evc s o.evc).frozen then advance s x u
    else
      let s := evcAdd s o.evc (BitVec.ofNat 32 o.imm)
      advance (modRun s x.id fun y =>
        { y with locals := tblMod 0 y.locals o.evc fun t => (t + o.imm) % 2 ^ 32 }) x u)

/-! ### Run-ahead binding (R185, R175) -/

/-- Keys bound in the binding table. -/
def boundKeys (s : State) : List (Nat × Nat × Nat × Nat) :=
  s.runs.flatMap fun x => match x.bind with
    | some b => b.entries.map fun e => (b.carrier, b.sfn, b.slot, e.1)
    | none => []

/-- Staging regions bound, as (first unit, units) of 64 KiB; a confirmed list keeps its keys until it ends, and its
region is ordinary SSRAM (R187, R189). -/
def boundRegions (s : State) : List (Nat × Nat) :=
  s.runs.filterMap fun x => match x.bind with
    | some b => if b.confirmed then none else some (b.stgOff, b.stgSize)
    | none => none

/-- Section ID of a section entry (R356 Table 6). -/
def sectionId (e : List Byte) : Nat := bits (w32At e 0) 11 0

/-- The section entries of a list of n, 32 B each (R356). -/
def cutEntries (b : List Byte) : Nat → List (List Byte)
  | 0 => []
  | n + 1 => b.take 32 :: cutEntries (b.drop 32) n

/-- The list has the same element twice. -/
def repeats : List Nat → Bool
  | [] => false
  | a :: t => t.contains a || repeats t

/-- Why a binding cannot be entered: RA_FULL before RA_CONFLICT (R185, R175 Table 4). -/
def bindBad (s : State) (b : Binding) : Option Nat :=
  let keys := boundKeys s
  let regs := boundRegions s
  if 1024 < keys.length + b.entries.length || 512 < regs.foldl (fun a z => a + z.2) b.stgSize || 32 < b.stgSize then some 0xC7
  else if repeats (b.entries.map (·.1)) || b.entries.any (fun e => keys.contains (b.carrier, b.sfn, b.slot, e.1))
      || b.stgSize = 0 || 2048 < b.stgOff + b.stgSize
      || (List.range 16).any (fun k => !working s 8 k && regionInBank b k)
      || regs.any (fun z => z.1 < b.stgOff + b.stgSize && b.stgOff < z.1 + z.2) then some 0xC8
  else none

/-- The binding is entered. One whose list has had its late event already can be confirmed by nothing that would not come
too late: it is squashed at once as UNCONFIRMED (DEDUCED from R184 and R189, log entry 20). -/
def enterBinding (s : State) (id : Nat) (b : Binding) (sent : Bool) : State :=
  let s := modRun s id fun y => { y with bind := some b }
  if sent then finishIfEnded (squash s id 1) id else s

/-- RA_BIND of a list (R185). The number of entries stands in [56:48] of word 1, as in FX_SECTIONS (log entry 20). -/
def raBindList (s : State) (x : Run) (o : ListOp) : State :=
  let rest (s : State) : State := modRun s x.id fun y => { y with loose := y.loose.filter fun l => l.idx ≠ o.idx }
  let failed (s : State) (f : Fail) : State := stopRun (rest s) x.id (.failed f.status f.result o.idx o.unit)
  let n := bits (xw o 1) 56 48
  if !x.ra || x.bind.isSome then failed s ⟨6, 0xC9, false⟩
  else if n = 0 || 64 < n then failed s ⟨6, 0xC7, false⟩
  else
    match readUse s (agentOf x) (bits (xw o 1) 47 0) (32 * n) with
    | (s, .fail f) => failed s f
    | (s, .ok b) =>
      let bnd : Binding := {
        carrier := bits o.imm 6 0, sfn := bits o.imm 16 7, slot := bits o.imm 23 17
        entries := (cutEntries b n).map fun e => (sectionId e, e)
        stgOff := bits (xw o 2) 10 0, stgSize := bits (xw o 2) 26 16 }
      match bindBad s bnd with
      | some c => failed s ⟨6, c, false⟩
      | none => enterBinding (rest s) x.id bnd x.lateSent

/-- RA_BIND: the oldest run of ring r with an RA_BIND to execute (R185). -/
def execRaBind (r : Nat) (s : State) : Host.Outcome State Fault Refusal :=
  done (
    match s.runs.find? fun x => x.ring = r && x.cause.isNone && x.loose.any fun l => l.opc = 0x18 with
    | none => s
    | some x =>
      match x.loose.find? fun l => l.opc = 0x18 with
      | none => s
      | some o =>
        let s := raBindList s x o
        x.segs.foldl (fun s g => settleUnit s x.cls g.unit) s)

/-! ### Ends -/

/-- A stop takes effect in this phase of a segment: the stop points of R178. A TVC program, a coding operation and a
planning cycle have none inside (R326, R332). -/
def stopsAt (g : Seg) : Bool :=
  g.preempted || (match g.phase with
    | .tvc => false
    | .planning => false
    | .harq _ _ _ => false
    | .decoding _ _ _ _ => false
    | _ => true)

/-- The oldest run with a segment on a unit that is to stop and can. -/
def toStop (s : State) (cls u : Nat) : Option Run :=
  s.runs.find? fun x => x.cls = cls && x.segs.any fun g => g.unit = u && g.stop && !g.ended && stopsAt g

/-- A run that was marked to stop has no segment left to stop (R158); a reset function's list ends in silence once its
binding, if it has one, is resolved (R128, R186). -/
def endsStopped (x : Run) : Bool :=
  allEnded x && (match x.cause with
    | none => false
    | some .discarded => !unresolved x || x.squashed
    | some _ => true)

/-- A run that has a cause to end and no segment left ends, a reset function's without a completion. -/
def finishStopped (s : State) (id : Nat) : State :=
  match findRun s id with
  | some x => if endsStopped x then finishRun s id else s
  | none => s

/-- Queued messages of an FX operation that stops are withdrawn and counted (R364). -/
def withdrawFx (s : State) (x : Run) (u : Nat) : State :=
  if x.cls ≠ 4 then s else discardFrames s u 15 fun f => f.kind < 2 && f.ring = x.ring && f.k = x.k

/-- SEGMENT_STOP (R176, R178, R194): a segment marked to stop stops, and with the last one its list ends. -/
def execSegmentStop (cls u : Nat) (s : State) : Host.Outcome State Fault Refusal :=
  done (
    match toStop s cls u with
    | none => s
    | some x => settleUnit (finishStopped (endSeg (withdrawFx s x u) x u) x.id) cls u)

/-- A run that can end normally: every segment has, nothing else is left of its list, and a binding is confirmed (R170,
R186). -/
def canEnd (x : Run) : Bool := allEnded x && x.cause.isNone && x.loose.isEmpty && !unresolved x

/-- The held signals of a list are committed in list order (R172). -/
def commitHeld (s : State) (x : Run) : State :=
  let order := x.held.foldl (fun (l : List (Nat × Nat × Nat)) e =>
    l.filter (fun a => a.1 < e.1) ++ [e] ++ l.filter (fun a => !(a.1 < e.1))) []
  order.foldl (fun s e => evcAdd s e.2.1 (BitVec.ofNat 32 e.2.2)) s

/-- DESCRIPTOR_END (R170, R172): the oldest run of ring r that can end does. -/
def execDescriptorEnd (r : Nat) (s : State) : Host.Outcome State Fault Refusal :=
  done (
    match s.runs.find? fun x => x.ring = r && (canEnd x || endsStopped x) with
    | none => s
    | some x => finishRun (if x.cause.isNone then commitHeld s x else s) x.id)

/-! ### Watchdog -/

/-- WAIT_STUCK (R418): one flag and one log entry for each blocking, while the watchdog is armed. -/
def execWaitStuck (cls u : Nat) (s : State) : Host.Outcome State Fault Refusal :=
  done (
    match inOp s cls u with
    | some (x, g, o) =>
      if g.phase = .blocked false && reg s 0x80018 ≠ 0 then
        let s := setPhase (setFlag s 3079) x u (.blocked true)
        pushLog s { time := 0, code := 0x2003, func := x.fn, ring := x.ring, seq := x.seq, index := unitIndex cls u
                    arg0 := o.evc, arg1 := o.imm }
      else s
    | none => s)

end Sys2Proof.Machine
end

