-- ==== Sys2Proof/Machine/Arb.lean ====
section
/-! DEFINITION. The ring arbiter (R148, R149, R117, R164 to R169, R183), batches (R255 to R258), hold timers (R256). -/
namespace Sys2Proof.Machine

/-! ### Eligibility -/

/-- Dispatch places of a class (R169 Table 3). -/
def classPlaces (cls : Nat) : Nat := [64, 48, 16, 4, 24, 12, 32].getD cls 0

/-- Dispatch places of a class in use; a reset function's list holds one until it ends. -/
def placesUsed (s : State) (cls : Nat) : Nat :=
  s.ring.foldl (fun n e => if e.2.cls = cls then n + inFlight e.2 else n) 0
    + s.runs.countP fun x => x.cls = cls && x.cause = some .discarded

/-- Arrays that a function's dispatched inference and background lists hold (R136, R194, R255). -/
def heldArrays (s : State) (fn : Nat) : List Nat :=
  s.runs.foldl (fun l x =>
    if x.fn = fn && x.cls = 2 && 2 ≤ x.prio then
      x.segs.foldl (fun l g => if g.unit < 8 && !g.ended then insertNew g.unit l else l) l
    else l) []

/-- Maximum arrays of a function (R136). -/
def arrayLimit (s : State) (fn : Nat) : Nat := (tblGet {} s.limits fn).arrays

/-- A tenant limit or the thermal hold keeps an inference or background PA ring back (R93, R148). -/
def ringHeld (s : State) (r : Nat) (g : Ring) : Bool :=
  g.cls = 2 && 2 ≤ g.prio &&
    (s.power.thermHold ||
      (let held := heldArrays s g.fn
       arrayLimit s g.fn ≤ held.length && arrayLimit s g.fn < 8
       && !(match ringCollector s r with | some c => held.contains (colArray s c) | none => false)))

/-- A batch of a collector ring is due (R255). -/
def batchDue (s : State) (g : Ring) (c : Nat) : Bool :=
  128 ≤ (waitingSlots g).length || ((colOf s c).expired && !(waitingSlots g).isEmpty)

/-- The ring may be granted now (R148, R255). -/
def eligible (s : State) (r : Nat) (g : Ring) : Bool :=
  8 ≤ r && g.st = 1 && !(waitingSlots g).isEmpty && inFlight g < g.inflight
  && placesUsed s g.cls < classPlaces g.cls && !ringHeld s r g
  && (match ringCollector s r with | some c => batchDue s g c | none => true)

/-- The next ring of a priority class in round-robin order (R148). -/
def nextOfPrio (s : State) (p : Nat) : Option Nat :=
  let l := (s.ring.filter fun e => e.2.prio = p && eligible s e.1 e.2).map (·.1)
  (l.find? fun r => tblGet 0 s.arb.last p < r).or l.head?

/-- The ring that is granted: the highest priority class first (R148). -/
def nextGrant (s : State) : Option Nat := [0, 1, 2, 3].findSome? (nextOfPrio s)

/-- The arbiter runs: sealed, die 0's link up, not shedding, its header path sound (R87, R415, R417). -/
def arbiterRuns (s : State) : Bool :=
  s.boot.sealed && s.power.shed = 0 && !d2dDown s 0 && !s.boot.hedgerowUe && !s.boot.halted

/-! ### One list -/

/-- The words of a list (R164). -/
def fetchList (s : State) (a : Agent) (x : Slot) : State × Res (List W64) :=
  match readUse s a x.cmdAddr (8 * x.cmdLen) with
  | (s, .ok b) => (s, .ok (words64 b x.cmdLen))
  | (s, .fail f) => (s, .fail f)

/-- DETAIL of a failure before any operation runs: 0xFFFF for a translation fault in fetching the list (R175, R218). -/
def fetchDetail (f : Fail) : Nat := if f.status = 5 then 0xFFFF else 0

/-- FLOOR_CAP that an engine class needs (R117). -/
def classFloor (cls : Nat) : Nat := if cls = 2 || cls = 6 then 1 else 2

/-- A descriptor ends at its grant and runs nothing; it takes no in-flight place (R117, R149, R175). -/
def endAtGrant (s : State) (r k status result detail : Nat) : State :=
  decide s r k 0 { status := status, result := result, detail := detail, grant := some s.etu.count }

/-- A list that passed the dispatch checks is dispatched: its segments go to their units, and one that holds only HDR
ends at once (R166, R168, R170). -/
def dispatch (s : State) (r : Nat) (g : Ring) (x : Slot) (words : List W64) : State :=
  let id := s.arb.runs
  let ops := parseOps words.length g.cls 0 words
  let hdr := parseHdr words
  let ra := match hdr with | some h => h.ra | none => false
  let lateEvt := match hdr with | some h => h.lateEvt || h.ra | none => false
  let run : Run := {
    id := id, ring := r, k := x.k, seq := x.seq, fn := g.fn, cls := g.cls, prio := g.prio, deadline := x.deadline
    redeliver := x.redeliver, args := x.args, grant := s.etu.count, lateEvt := lateEvt, ra := ra
    segs := segmentsOf (unitOps ops), loose := ops.filter isLoose }
  let s := modSlot s r x.k fun y => { y with st := .running id }
  let s := { s with arb := { s.arb with runs := id + 1 }, runs := s.runs ++ [run] }
  if run.segs.isEmpty && run.loose.isEmpty then finishRun s id
  else run.segs.foldl (fun s g => settleUnit s run.cls g.unit) s

/-- The grant of a ring's oldest undispatched descriptor: late-cut, then the checks in their order (R117, R141, R149,
R164, R166). -/
def grantOne (s : State) (r : Nat) (g : Ring) (x : Slot) : State :=
  if late s x.deadline then endAtGrant s r x.k 2 0 0
  else if x.kind ≠ 0 then endAtGrant s r x.k 6 0xE1 0
  else if s.boot.floorCap < classFloor g.cls then endAtGrant s r x.k 6 0xE2 0
  else match fetchList s { ctx := g.fn, cls := g.cls } x with
  | (s, .fail f) => endAtGrant s r x.k f.status f.result (fetchDetail f)
  | (s, .ok w) =>
    match hdrBad s g.cls x.deadline w with
    | some c => endAtGrant s r x.k 6 c 0
    | none => dispatch s r g x w

/-! ### Batches -/

/-- The list of a collect request: HDR of class PA and one PA_COLLECT (R258), then the checks of R166. Its X and Y
operand references, or the failure as status, result, DETAIL. -/
def collectList (s : State) (g : Ring) (x : Slot) : State × (Nat × Nat ⊕ Nat × Nat × Nat) :=
  if x.kind ≠ 0 then (s, .inr (6, 0xE1, 0))
  else if x.cmdLen ≠ 4 then (s, .inr (6, 0x31, 0))
  else match fetchList s { ctx := g.fn, cls := 2 } x with
  | (s, .fail f) => (s, .inr (f.status, f.result, fetchDetail f))
  | (s, .ok w) =>
    let op := parseOp 2 2 (w.getD 2 0) (w.drop 3)
    match parseHdr w with
    | none => (s, .inr (6, 0x31, 0))
    | some h =>
      if h.cls ≠ 2 || op.opc ≠ 0x35 || op.bad ≠ 0 then (s, .inr (6, 0x31, 0))
      else match hdrBad s 2 x.deadline w with
      | some c => (s, .inr (6, c, 0))
      | none => (s, .inl ((w.getD 3 0).toNat, bits op.imm 17 0))

/-- The requests of a batch up to the first whose list fails. -/
def collectLists (s : State) (g : Ring) :
    List Slot → List (Nat × Nat × Nat) → State × List (Nat × Nat × Nat) × Option (Nat × Nat × Nat × Nat)
  | [], acc => (s, acc, none)
  | x :: rest, acc =>
    match collectList s g x with
    | (s, .inl (xr, yr)) => collectLists s g rest (acc ++ [(x.k, xr, yr)])
    | (s, .inr (st, res, d)) => (s, acc, some (x.k, st, res, d))

/-- A batch is dispatched to its collector's array; the collector registers and W's descriptor are read now (R257). -/
def dispatchBatch (s : State) (r c : Nat) (g : Ring) (taken : List Slot) : State :=
  let id := s.arb.runs
  let colB := reg s (0xC0004 + 0x10 * c)
  let (s, reqs, bad) := collectLists s g taken []
  let (s, w) := descriptor s { ctx := g.fn, cls := 2, run := some id } (bits colB 15 0)
  let first := taken.headD { k := 0, seq := 0 }
  let run : Run := {
    id := id, ring := r, k := first.k, seq := first.seq, fn := g.fn, cls := 2, prio := g.prio, deadline := 0
    redeliver := first.redeliver, args := [], grant := s.etu.count, lateEvt := false, ra := false
    segs := [{ unit := colArray s c
               ops := [{ idx := 2, opc := 0x35, unit := colArray s c, evc := 0, imm := 0, extra := [] }] }]
    batch := reqs, isBatch := true, reqFail := bad, colB := colB, colC := reg s (0xC0008 + 0x10 * c)
    colDesc := match w with | .ok b => b | .fail _ => []
    colFail := match w with | .ok _ => none | .fail f => some (f.status, f.result, f.fetch) }
  let s := taken.foldl (fun s x => modSlot s r x.k fun y => { y with st := .running id }) s
  let s := { s with arb := { s.arb with runs := id + 1 }, runs := s.runs ++ [run] }
  let x := colOf s c
  let s := setCol s c { batches := satInc 65535 x.batches }
  settleUnit s 2 (colArray s c)

/-- The grant of a collector ring: up to 128 requests, the late ones cut (R257). -/
def grantBatch (s : State) (r c : Nat) (g : Ring) : State :=
  let taken := (waitingSlots g).take 128
  let cut := taken.filter fun x => late s x.deadline
  let rest := taken.filter fun x => !late s x.deadline
  let s := cut.foldl (fun s x => endAtGrant s r x.k 2 0 0) s
  if rest.isEmpty then setCol s c { colOf s c with timing := none, expired := false }
  else if s.boot.floorCap < 1 then
    setCol (rest.foldl (fun s x => endAtGrant s r x.k 6 0xE2 0) s) c { colOf s c with timing := none, expired := false }
  else dispatchBatch s r c g rest

/-- GRANT (R148). -/
def execGrant (s : State) : Host.Outcome State Fault Refusal :=
  done (
    if !arbiterRuns s then s
    else match nextGrant s with
    | none => s
    | some r =>
      let g := ringOf s r
      let s := { s with arb := { s.arb with last := tblPut s.arb.last g.prio r } }
      match ringCollector s r with
      | some c => grantBatch s r c g
      | none =>
        match waitingSlots g with
        | [] => s
        | x :: _ => grantOne s r g x)

/-- HOLD of a collector in HCLK cycles: 0 acts as 1 µs (R256, R265). -/
def holdCycles (s : State) (c : Nat) : Nat := max 1 (bits (colA s c) 31 20) * 1000

/-- The hold time of a collector is over: its timer has counted it, and a request still waits (R256). -/
def holdOver (s : State) (c : Nat) : Bool :=
  match (colOf s c).timing with
  | some t => c < 64 && t + holdCycles s c ≤ s.hclk && !(waitingSlots (ringOf s (colRing s c))).isEmpty
  | none => false

/-- HOLD_EXPIRE (R256): the batch of a collector is due, or pending until its ring is eligible. -/
def execHoldExpire (c : Nat) (s : State) : Host.Outcome State Fault Refusal :=
  done (if holdOver s c then setCol s c { colOf s c with timing := none, expired := true } else s)

end Sys2Proof.Machine
end

