-- ==== Sys2Proof/Machine/Converter.lean ====
section
/-! DEFINITION. Converter links and the burst receiver (chapter 16). -/
namespace Sys2Proof.Machine

/-! ### Link state (R370 to R372) -/

/-- Length of an extended multiblock times NSTREAM, in Tc: it holds 256 · E octets of each lane (JESD204C 64b/66b), and a
sample of the link 4 · NSTREAM octets. -/
def embScaled (x : CvLink) : Nat := 64 * (bits x.cfg.toNat 19 16 + 1) * bits x.cfg.toNat 4 0 * cvTs x

/-- NSTREAM of a link. -/
def cvStreams (x : CvLink) : Nat := bits x.cfg.toNat 10 5 + 1

/-- A CV_START with OP = STOP that waits on a link which is READY now has ended (R385). -/
def endStop (s : State) (k : Nat) : State :=
  match inOp s 5 k with
  | some (x, g, _) => if g.phase = .stopping && (linkOf s k).st = 2 then advance s x k else s
  | none => s

/-- SYNC ends once the lanes have lock and a SYSREF edge is accepted (R370). -/
def trySync (s : State) (k : Nat) : State :=
  let x := linkOf s k
  if x.st = 1 && x.lanes && x.srefSeen then endStop (setLink s k { x with st := 2 }) k else s

/-- LINK_SYNC (R111, R370, R386): the link leaves RESET and reads its configuration. -/
def execLinkSync (k : Nat) (s : State) : Host.Outcome State Fault Refusal :=
  done (
    let x := linkOf s k
    if k < 6 && x.st = 0 && linkMayRun s k then
      let r (w : Nat) : W32 := BitVec.ofNat 32 (reg s (linkReg k w))
      setLink s k { x with st := 1, cfg := r 0x00, lat := r 0x0C, agc := r 0x24, lanes := false, srefSeen := false }
    else s)

/-- LANE_LOCK (R370). -/
def execLaneLock (k : Nat) (s : State) : Host.Outcome State Fault Refusal :=
  done (
    let x := linkOf s k
    if x.st = 1 then trySync (setLink s k { x with lanes := true }) k else s)

/-- A later SYSREF edge lies more than 2 Tc from every extended-multiblock boundary (R372). -/
def misaligned (x : CvLink) (t : Int) : Bool :=
  let n : Int := cvStreams x
  let m : Int := embScaled x
  let r := ((t - x.sref.toNat) * n).fmod m
  2 * n < r && 2 * n < m - r

/-- SYSREF_EDGE (R372): the first edge in SYNC is accepted; a later one is only checked. -/
def execSysrefEdge (k : Nat) (s : State) : Host.Outcome State Fault Refusal :=
  done (
    let x := linkOf s k
    let t := dieCount s (linkDie k)
    if x.st = 0 then s
    else if !x.srefSeen then
      trySync (arrive (setLink s k { x with sref := BitVec.ofInt 64 t, srefSeen := true }) (400 + k)) k
    else setFlagIf (misaligned x t) (2310 + k) s)

/-- SREF_LATCH (R372): a read of CV_LINKk_SREF_LO. -/
def execSrefLatch (k : Nat) (s : State) : Host.Outcome State Fault Refusal :=
  done (
    if 6 ≤ k || !unitExists s 11 k || !served s then { s with readOut := 0 }
    else
      let x := linkOf s k
      { setLink s k { x with srefLatch := x.sref } with readOut := x.sref.setWidth 32 })

/-- LINK_LOSS (R371): lane lock lost on a configured lane, or another loss condition. -/
def execLinkLoss (k : Nat) (s : State) : Host.Outcome State Fault Refusal :=
  done (if k < 6 then linkReset s k else s)

/-- AIR_TIME_END (R371): each later symbol of the slot in which the link was lost arrives with ARRIVED = 0, once, when its
air time is over. -/
def execAirTimeEnd (k sfn slot sym : Nat) (s : State) : Host.Outcome State Fault Refusal :=
  done (
    let x := linkOf s k
    let c := cvCarrier x
    let p := slotPl s c sfn slot
    match x.lostSlot with
    | some (f, n, syms) =>
      if f = absFrame s sfn && n = slot && syms.contains sym
          && startIn s sfn slot p + symbolOfs (plMu p) slot (sym + 1) ≤ dieCount s (linkDie k) then
        let rest := syms.erase sym
        let s := arrive (symbolStatus s c p sfn slot sym 0) (384 + k)
        setLink s k { linkOf s k with lostSlot := if rest.isEmpty then none else some (f, n, rest) }
      else s
    | none => s)

/-! ### CV_START (R369, R373, R374, R385) -/

/-- The parameters lie outside Table 1: lanes, sample period, and the lane rate 33 · NSTREAM · fs / L of 6.0 to
24.75 Gb/s (R369). -/
def linkParamBad (x : CvLink) : Bool :=
  let l := bits x.cfg.toNat 4 0
  let bitsPerTc := 33 * cvStreams x * 1966080000
  !([1, 2, 4, 8, 12, 16].contains l) || 4 < bits x.cfg.toNat 14 12
  || bitsPerTc < 6000000000 * l * cvTs x || 24750000000 * l * cvTs x < bitsPerTc

/-- NFFT of a carrier on a link: the sample rate over the subcarrier spacing (R374). -/
def nrNfft (x : CvLink) (p : Placed) : Nat := 131072 / (cvTs x * 2 ^ plMu p)

/-- NFFT is no power of two, above 4096 or too small for the carrier (R374). -/
def nrParamBad (x : CvLink) (p : Placed) : Bool :=
  let n := nrNfft x p
  n * (cvTs x * 2 ^ plMu p) ≠ 131072 || 4096 < n || n < 12 * plNprb p

/-- The configuration that a CV_START would run: as read when the link left RESET, or as it stands. -/
def linkSetup (s : State) (k : Nat) : CvLink :=
  let x := linkOf s k
  if x.st = 0 then { x with cfg := BitVec.ofNat 32 (reg s (linkReg k 0)), agc := BitVec.ofNat 32 (reg s (linkReg k 0x24)) }
  else x

/-- PROFILE of a link. -/
def cvProfile (s : State) (k : Nat) : Prof := tblGet {} s.cv.prof (fld s (linkReg k 0xC0) 15 14)

/-- Why a CV_START fails when it is reached: CV_PARAM and CV_PROFILE for one that would run the link, CV_LINK for either
OP (R369, R379, R385). -/
def startBad (s : State) (k imm : Nat) : Option Nat :=
  let x := linkSetup s k
  let p := (carrierOf s (cvCarrier x)).now
  if !bitAt imm 0 && (linkParamBad x || (!cvBurst x && nrParamBad x p)) then some 0x50
  else if !bitAt imm 0 && cvBurst x && !(cvProfile s k).valid then some 0x51
  else if (bitAt imm 2 && !bitAt x.cfg.toNat 21) || (bitAt imm 3 && !bitAt x.cfg.toNat 22)
      || bitAt (reg s (linkReg k 0)) 20 ≠ cvBurst x then some 0x52
  else none

/-- A STOP takes effect: RUN is left for READY (R385). -/
def stopLink (s : State) (k : Nat) : State :=
  let s := truncateBurst s k
  endStop (setLink s k { (linkOf s k) with st := 2, dir := 0, tx := [], listening := false }) k

/-- CV_START (R373, R385): a START waits for its firing, a STOP for the symbol boundary or for READY. -/
def execCvStart (k : Nat) (s : State) : Host.Outcome State Fault Refusal :=
  done (onOp s 5 k 0x58 fun x _ o =>
    match startBad s k o.imm with
    | some c => failResult s x k o.idx c
    | none =>
      if !bitAt o.imm 0 then setPhase s x k .awaitLine
      else
        let s := setPhase s x k .stopping
        let l := linkOf s k
        if l.st = 3 && cvBurst l then stopLink s k else endStop s k)

/-- The first extended-multiblock boundary at or after a firing, with LAT: T0 (R373). -/
def startTime (x : CvLink) (fire : Int) : Int :=
  let n : Int := cvStreams x
  let m : Int := embScaled x
  let d := (fire - x.sref.toNat) * n
  let i := if d ≤ 0 then 0 else (d + m - 1).fdiv m
  x.sref.toNat + bits x.lat.toNat 15 0 + (i * m).fdiv n

/-- CONVERTER_START (R373): the firing of line k reaches the CV_START that waits for it. -/
def execConverterStart (k : Nat) (s : State) : Host.Outcome State Fault Refusal :=
  done (
    match s.ev.fired.find? (fun e => e.1 = k), inOp s 5 k with
    | some (_, fire), some (x, g, o) =>
      let s := { s with ev := { s.ev with fired := s.ev.fired.filter fun e => e.1 ≠ k } }
      if g.phase ≠ .awaitLine then s
      else if (linkOf s k).st ≠ 2 then
        let s := modRun s x.id fun y => { y with detail := y.detail ||| 1 }
        advance (setFlag s (2316 + k)) x k
      else
        let l := linkOf s k
        let t0 := startTime l fire
        let s := setLink s k { l with st := 3, t0 := BitVec.ofInt 64 t0, dir := bits o.imm 3 2, burst := {}, fn := x.fn }
        match writeBytes s (agentOf x) (bits (xw o 1) 47 0) (leBytes 8 (trunc 64 t0) ++ leBytes 8 l.sref.toNat) with
        | (s, .ok ()) => advance s x k
        | (s, .fail f) => failWith s x k o.idx f
    | _, _ => { s with ev := { s.ev with fired := s.ev.fired.filter fun e => e.1 ≠ k } })

/-! ### Symbols -/

/-- Start of a symbol's air time. -/
def airTime (s : State) (mu sfn slot sym : Nat) : Int := slotStart s mu sfn slot + symbolOfs mu slot sym

/-- Samples of the cyclic prefix of a symbol. -/
def cpSamples (x : CvLink) (mu slot sym : Nat) : Nat :=
  (symbolOfs mu slot (sym + 1) - symbolOfs mu slot sym - 131072 / 2 ^ mu) / cvTs x

/-- The symbol's first sample c_j, ties rounding up (R374). -/
def firstSample (s : State) (k : Nat) (x : CvLink) (mu sfn slot sym : Nat) : Int :=
  let ts : Int := cvTs x
  (2 * (airTime s mu sfn slot sym + cvOfs s k 0x04 - x.t0.toNat) + ts).fdiv (2 * ts)

/-- AGC channel of a stream (R376). -/
def agcChannel (s : State) (k stream : Nat) : Nat :=
  bits (reg s (linkReg k (0x40 + 4 * (stream / 8)))) (stream % 8 * 4 + 3) (stream % 8 * 4)

/-- The code that governs a sample (R376). -/
def codeAt (x : CvLink) (ch : Nat) (t : Int) : Nat :=
  x.changes.foldl (fun c e => if e.2.1 = ch && e.1 ≤ t then e.2.2 else c) (tblGet 0 x.oldCodes ch)

/-- Compensation of one component (R376). -/
def compensate (s : State) (k code : Nat) (v : Int) : Int :=
  clampInt (-32768) 32767 (roundHalfEven (v * (fld s (linkReg k (0x80 + 4 * code)) 15 0 : Nat)) 10)

/-- A sample clips (R375). -/
def clips (level : Nat) (z : Int × Int) : Bool := (level : Int) ≤ absInt z.1 || (level : Int) ≤ absInt z.2

/-- The compensated samples of one stream of a symbol. -/
def compStream (s : State) (k : Nat) (x : CvLink) (c0 : Int) (stream : Nat) (l : List (Int × Int)) : List (Int × Int) :=
  let ch := agcChannel s k stream
  l.zipIdx.map fun z =>
    let code := codeAt x ch (x.t0.toNat + (c0 + z.2) * cvTs x)
    (compensate s k code z.1.1, compensate s k code z.1.2)

/-- Bytes of CINT16 values. -/
def cintBytes (l : List (Int × Int)) : List Byte := l.flatMap fun z => leBytes 2 (trunc 16 z.1) ++ leBytes 2 (trunc 16 z.2)

/-- Changes that no later symbol sees are taken into the codes before it. -/
def foldChanges (x : CvLink) (t : Int) : CvLink :=
  { x with
    oldCodes := x.changes.foldl (fun c e => if e.1 ≤ t then tblSet 0 c e.2.1 e.2.2 else c) x.oldCodes
    changes := x.changes.filter fun e => !(e.1 ≤ t) }

/-- A STOP that waits for the symbol boundary takes effect (R385). -/
def symbolBoundary (s : State) (k : Nat) : State :=
  match inOp s 5 k with
  | some (_, g, _) => if g.phase = .stopping && (linkOf s k).st = 3 then stopLink s k else s
  | none => s

/-- FFT_ADV of a link. -/
def fftAdv (x : CvLink) : Nat := bits x.lat.toNat 31 16

/-- Samples by which the FFT window begins before the symbol's first sample, when FFT_ADV passes the cyclic prefix. -/
def winLead (x : CvLink) (mu slot sym : Nat) : Nat := fftAdv x - cpSamples x mu slot sym

/-- Samples of a stream that a symbol needs: those of its CP and its FFT window, from c_j or, if that is earlier, from
c_j + NCP_j - FFT_ADV on (R374, R375). -/
def symSamples (x : CvLink) (p : Placed) (slot sym : Nat) : Nat :=
  let cp := cpSamples x (plMu p) slot sym
  max (winLead x (plMu p) slot sym + cp) (winLead x (plMu p) slot sym + cp - fftAdv x + nrNfft x p)

/-- The subcarriers of a symbol: NPRB × 12 centred on DC, of the FFT over the window that begins NCP_j - FFT_ADV after the
symbol's first sample (R374). -/
def symBins (x : CvLink) (p : Placed) (slot sym : Nat) (l : List (Int × Int)) : List (Int × Int) :=
  let o := winLead x (plMu p) slot sym + cpSamples x (plMu p) slot sym - fftAdv x
  let w := (l.drop o).take (nrNfft x p)
  (List.range (12 * plNprb p)).map fun i => Config.fft w ((i : Int) - (6 * plNprb p : Nat))

/-- The received symbol is written: clips are counted, samples compensated, the FFT's bins stored, the status byte
written, and the arrival sent (R374 to R376). The slot's placement applies (R349). -/
def receiveSymbol (s : State) (k sfn slot sym : Nat) (samples : List (List (Int × Int))) : State :=
  let x := linkOf s k
  let c := cvCarrier x
  let p := slotPl s c sfn slot
  let mu := plMu p
  let clip := reg s (linkReg k 0x20)
  let streams := (samples.take (plStreams p)).map fun l => l.take (symSamples x p slot sym)
  let n := (streams.map fun l => l.countP (clips (bits clip 15 0))).sum
  let erased := bits clip 31 16 < n
  let c0 := firstSample s k x mu sfn slot sym - winLead x mu slot sym
  let s := openSlot s p sfn slot
  let s := streams.zipIdx.foldl (fun s l =>
    let bins := symBins x p slot sym (compStream s k x c0 l.2 l.1)
    ingressStore s (streamTile p l.2) (reAddr p (plArea p) (plDepth p) slot sym l.2 0 0) (cintBytes bins)) s
  let v := 1 + (if 0 < n then 8 else 0) + (if erased then 4 else 0)
  let s := arrive (symbolStatus s c p sfn slot sym v) (384 + k)
  let s := setFlagIf erased (2336 + k) s
  let y := linkOf s k
  let last := x.t0.toNat + (c0 + (symSamples x p slot sym : Nat)) * cvTs x
  setLink s k { foldChanges y last with
    erased := if erased then satInc 65535 y.erased else y.erased, lastSym := some (sfn, slot, sym) }

/-- The command has all samples of the symbol, of every stream. -/
def symWhole (x : CvLink) (p : Placed) (slot sym : Nat) (samples : List (List (Int × Int))) : Bool :=
  plStreams p ≤ samples.length && samples.all fun l => symSamples x p slot sym ≤ l.length

/-- NR_SYMBOL (R374 to R376), once its samples are complete; then the symbol boundary. -/
def execNrSymbol (k sfn slot sym : Nat) (samples : List (List (Int × Int))) (s : State) :
    Host.Outcome State Fault Refusal :=
  done (
    let x := linkOf s k
    if x.st = 3 && !cvBurst x && sym < 14 then
      let p := slotPl s (cvCarrier x) sfn slot
      let s := if bitAt x.dir 0 && plEn p && symWhole x p slot sym samples then receiveSymbol s k sfn slot sym samples else s
      symbolBoundary s k
    else s)

/-! ### AGC (R376 to R378) -/

/-- The sample of edge time t lies in the FFT window of a symbol of the slot in which edge time a falls (R374). -/
def inSlotWindow (s : State) (k : Nat) (x : CvLink) (t a : Int) : Bool :=
  let p := placedNow (carrierOf s (cvCarrier x)) a
  let mu := plMu p
  let slot := slotAt s mu a
  let n := (t - x.t0.toNat).fdiv (cvTs x)
  (List.range 14).any fun j =>
    let b := firstSample s k x mu (sfnAt s a) slot j + cpSamples x mu slot j - bits x.lat.toNat 31 16
    b ≤ n && n < b + nrNfft x p

/-- A sample instant lies in the FFT window of a symbol that is received (R374, R376). RX_OFS and FFT_ADV say which
air time the sample belongs to, and c_j is rounded by up to half a sample. -/
def inFftWindow (s : State) (k : Nat) (x : CvLink) (t : Int) : Bool :=
  let ts : Int := cvTs x
  let a := t - cvOfs s k 0x04 + ts * bits x.lat.toNat 31 16
  x.st = 3 && !cvBurst x && bitAt x.dir 0 && (inSlotWindow s k x t (a - ts) || inSlotWindow s k x t (a + ts))

/-- Drive a code on a channel: it governs samples from DELAY samples on; a change inside an FFT window counts MID. -/
def driveCode (s : State) (k ch code : Nat) : State :=
  let x := linkOf s k
  if tblGet 0 x.codes ch = code then s
  else
    let t := dieCount s (linkDie k) + bits x.agc.toNat 31 28 * cvTs x
    setLink s k { x with
      codes := tblSet 0 x.codes ch code
      changes := x.changes ++ [(t, ch, code)]
      mid := if inFftWindow s k x t then satInc 65535 x.mid else x.mid }

/-- Drive a code on the channels of a mask. -/
def driveMask (s : State) (k mask code : Nat) : State :=
  (List.range 16).foldl (fun s ch => if bitAt mask ch then driveCode s k ch code else s) s

/-- STREAM of the burst receiver. -/
def burstStream (s : State) (k : Nat) : Nat := fld s (linkReg k 0xC0) 13 8

/-- Count in a byte of a run's DETAIL, saturating. -/
def addDetail (s : State) (x : Run) (lo n : Nat) : State :=
  modRun s x.id fun y =>
    let v := bits y.detail (lo + 7) lo
    { y with detail := y.detail - v * 2 ^ lo + min 255 (v + n) * 2 ^ lo }

/-- One AGC entry is applied: in MODE = BURST the channel of the burst stream is skipped and counted; a passed one is
late (R377). -/
def applyEntry (s : State) (x : Run) (k mask code : Nat) (isLate : Bool) : State :=
  let own := cvBurst (linkSetup s k) && bitAt mask (agcChannel s k (burstStream s k))
  let mask := if own then mask - 2 ^ agcChannel s k (burstStream s k) else mask
  let s := if own then addDetail s x 8 1 else s
  let s := if isLate then
      let l := linkOf s k
      addDetail (setFlag (setLink s k { l with late := satInc 65535 l.late }) (2322 + k)) x 0 1
    else s
  driveMask s k mask code

/-- Entries whose time has passed are applied at once, in order; the operation ends after the last (R377). -/
def walkAgc (s : State) (x : Run) (k : Nat) : List (Nat × Nat × Nat) → State
  | [] => advance s x k
  | (t, m, c) :: rest =>
    if (t : Int) < dieCount s (linkDie k) then walkAgc (applyEntry s x k m c true) x k rest
    else setPhase s x k (.agc ((t, m, c) :: rest))

/-- The entries of a list of n, 16 B each (R377). -/
def agcEntries (b : List Byte) : Nat → List (Nat × Nat × Nat)
  | 0 => []
  | n + 1 => (w64At b 0, bits (w32At b 8) 15 0, bits (w32At b 8) 19 16) :: agcEntries (b.drop 16) n

/-- CV_AGC (R377). -/
def execCvAgc (k : Nat) (s : State) : Host.Outcome State Fault Refusal :=
  done (onOp s 5 k 0x59 fun x _ o =>
    let n := bits (xw o 1) 56 48
    if n = 0 || 256 < n then failResult s x k o.idx 0x50
    else match readUse s (agentOf x) (bits (xw o 1) 47 0) (16 * n) with
    | (s, .ok b) => walkAgc s x k (agcEntries b n)
    | (s, .fail f) => failWith s x k o.idx f)

/-- AGC_ENTRY (R377): the count has reached the time of the entry that the operation waits for. -/
def execAgcEntry (k : Nat) (s : State) : Host.Outcome State Fault Refusal :=
  done (
    match inOp s 5 k with
    | some (x, g, _) =>
      match g.phase with
      | .agc ((t, m, c) :: rest) =>
        if (t : Int) ≤ dieCount s (linkDie k) then walkAgc (applyEntry s x k m c false) x k rest else s
      | _ => s
    | none => s)

/-- The link runs the burst receiver (R381). -/
def burstRuns (x : CvLink) : Bool := x.st = 3 && cvBurst x && bitAt x.dir 0

/-- Steps of the code that bring a window's power to the target: the nearest whole number; between two the choice is
open, and with STEP = 0 there is none (R378). -/
def acqSteps (s : State) (dev step : Int) : Int :=
  if step = 0 then Config.loopStep s.choice
  else
    let q := (2 * dev + step).fdiv (2 * step)
    if (2 * dev + step).fmod (2 * step) = 0 && Config.raceWinner s.choice then q - 1 else q

/-- A window of NFFT/4 samples that ends now begins within the SETTLE samples after a move (R378). -/
def settling (s : State) (k : Nat) (x : CvLink) : Bool :=
  match x.burst.quiet with
  | some t =>
    dieCount s (linkDie k) - (profNfft (cvProfile s k).words / 4 * cvTs x : Nat) < t
  | none => false

/-- STS_WINDOW (R378): fast acquisition of the burst channel, powers in 1/16 dBFS, as the window ends. -/
def execStsWindow (k : Nat) (power : Int) (s : State) : Host.Outcome State Fault Refusal :=
  done (
    let x := linkOf s k
    let dev := power + 16 * bits x.agc.toNat 11 4
    let step : Int := 8 * bits x.agc.toNat 3 0
    if !burstRuns x || x.burst.frozen || bits x.agc.toNat 27 24 ≤ x.burst.moves || settling s k x
        || 2 * absInt dev ≤ step then s
    else
      let ch := agcChannel s k (burstStream s k)
      let code := (clampInt 0 15 (((tblGet 0 x.codes ch : Nat) : Int) + acqSteps s dev step)).toNat
      let quiet := dieCount s (linkDie k) + (bits x.agc.toNat 23 16 * cvTs x : Nat)
      driveCode (takeChoice (setLink s k { x with burst :=
        { x.burst with moves := x.burst.moves + 1, quiet := some quiet } })) k ch code)

/-! ### Bursts (R379 to R383) -/

/-- Output line 8 + k fires: with LISTEN ≠ 0 the listening window opens or starts anew (R381). -/
def armBurst (s : State) (k : Nat) : State :=
  let x := linkOf s k
  if burstRuns x && fld s (linkReg k 0xC0) 31 16 ≠ 0 then setLink s k { x with listening := true } else s

/-- LISTEN_EXPIRE (R381). -/
def execListenExpire (k : Nat) (s : State) : Host.Outcome State Fault Refusal :=
  done (setLink s k { linkOf s k with listening := false })

/-- The burst stream is listened to (R381). -/
def listens (s : State) (k : Nat) : Bool := (linkOf s k).listening || fld s (linkReg k 0xC0) 31 16 = 0

/-- A burst is acquired from its start detection on, with the profile's own copy (R379). The code moves on the windows
of its STS before the detection count among its ACQ_MAX moves (R378). -/
def newBurst (s : State) (k : Nat) (power : Int) : State :=
  let b := (linkOf s k).burst
  setLink s k { linkOf s k with burst :=
    { st := 1, power := power, prof := (cvProfile s k).words, moves := if b.st = 0 then b.moves else 0
      quiet := if b.st = 0 then b.quiet else none } }

/-- One overlap is counted. -/
def countOverlap (s : State) (k : Nat) : State :=
  let x := linkOf s k
  setLink s k { x with overlap := satInc 255 x.overlap }

/-- A stronger start detection during a capture, by POLICY (R382); the value 3 acts as KEEP. -/
def strongerStart (s : State) (k : Nat) (power : Int) (syms : Nat) : State :=
  let x := linkOf s k
  match fld s (linkReg k 0xC0) 1 0 with
  | 1 =>
    let d := List.range syms
    let s := writeBurst s k 1 syms (d.filter fun i => Config.burstClip k x.records i = 2)
      (d.filter fun i => Config.burstClip k x.records i = 1)
    let y := linkOf s k
    newBurst (setFlag (setLink s k { y with aborted := satInc 255 y.aborted }) (2342 + k)) k power
  | 2 =>
    let s := setFlag (countOverlap s k) (2348 + k)
    setLink s k { linkOf s k with burst := { (linkOf s k).burst with stronger := true } }
  | _ => setFlag (countOverlap s k) (2348 + k)

/-- START_DETECTION (R381, R382). -/
def execStartDetection (k : Nat) (power : Int) (symsBefore : Nat) (s : State) : Host.Outcome State Fault Refusal :=
  done (
    let x := linkOf s k
    let stronger := x.burst.power + 16 * fld s (linkReg k 0xC0) 7 2 ≤ power
    if !burstRuns x || !listens s k then s
    else match x.burst.st with
    | 0 => if (cvProfile s k).valid then newBurst s k power else s
    | 1 => if stronger then newBurst (countOverlap s k) k power else s
    | _ => if stronger then strongerStart s k power (min symsBefore (profData x.burst.prof)) else countOverlap s k)

/-- BURST_DETECTED (R381, R378): the LTS peak; the channel freezes. -/
def execBurstDetected (k : Nat) (power cfo : Int) (s : State) : Host.Outcome State Fault Refusal :=
  done (
    let x := linkOf s k
    if burstRuns x && x.burst.st = 1 then
      setLink s k { x with burst := { x.burst with
        st := 2, frozen := true, power := power, cfo := cfo, time := BitVec.ofInt 64 (dieCount s (linkDie k))
        code := tblGet 0 x.codes (agcChannel s k (burstStream s k)) } }
    else s)

/-- BURST_END (R383): the capture is complete. -/
def execBurstEnd (k : Nat) (erased clipped : List Nat) (syms : Nat) (s : State) : Host.Outcome State Fault Refusal :=
  done (
    let x := linkOf s k
    if burstRuns x && x.burst.st = 2 then writeBurst s k 0 (min syms (profData x.burst.prof)) erased clipped else s)

/-- The words of a profile pass the checks of R379 and R380. -/
def profOk (w : List W32) : Bool :=
  let w0 := (w.getD 0 0).toNat
  let n := profNfft w
  let c := profNcp w
  let d := profData w
  6 ≤ bits w0 3 0 && bits w0 3 0 ≤ 12 && 1 ≤ c && 4 * c ≤ n && 4 ≤ bits w0 19 16 && 1 ≤ d
  && bits ((w.getD 1 0).toNat) 11 0 + profNumSc w ≤ n && (d + 1) * (n + c) ≤ 12500 * c
  && (bitAt w0 20 || 4 * d * (n + c) ≤ 25 * n)

/-- CV_PROF_LOAD (R379). The spec numbers no causes: CAUSE of a failed load is free. -/
def execCvProfLoad (p : Nat) (s : State) : Host.Outcome State Fault Refusal :=
  done (
    if 4 ≤ p || !served s then s
    else
      let base := 0x101000 + 0x20 * p
      let w := (List.range 5).map fun i => BitVec.ofNat 32 (reg s (base + 4 * i))
      let addr := reg s (base + 8) + reg s (base + 12) % 65536 * 2 ^ 32
      let failed (s : State) : State := setFlag { takeChoice s with cv := { s.cv with
        prof := tblSet {} s.cv.prof p {}, lastValid := false, cause := Config.freeNat s.choice % 16 } } 2354
      if !profOk w then failed s
      else match readUse s { ctx := 0, cls := 7 } addr (8 * profNumSc w) with
      | (s, .fail _) => failed s
      | (s, .ok b) => { s with cv := { s.cv with
          prof := tblSet {} s.cv.prof p { valid := true, words := w, seq := b }, lastValid := true, cause := 0 } })

end Sys2Proof.Machine
end

