-- ==== Sys2Proof/Machine/Events.lean ====
section
/-! DEFINITION. The event crossbar, host event-sets and occurrence counters (chapter 9). -/
namespace Sys2Proof.Machine

/-! ### Output lines (R197, R199, R200, R208) -/

/-- The count of its home die at which a firing reaches a line: 6 Tc after the compare time of a comparator of the home
die, else now (R200). -/
def fireTime (s : State) (j : Nat) (a : Arrival) : Int :=
  if a.comparator.isSome && lineHome j = a.die then a.fired + 6 else dieCount s (lineHome j)

/-- Some capture input takes the rising edge of a line. -/
def captured (s : State) (j : Nat) : Bool := (List.range 32).any fun n => capSelects s n j true

/-- A CV_START on the link waits for its line (R373). -/
def awaitsLine (s : State) (k : Nat) : Bool :=
  match inOp s 5 k with
  | some (_, g, _) => g.phase = .awaitLine
  | none => false

/-- A firing is kept until the destination of its line takes it. -/
def keepFiring (s : State) (j : Nat) (t : Int) : State :=
  { s with ev := { s.ev with fired := s.ev.fired.filter (fun e => e.1 ≠ j) ++ [(j, t)] } }

/-- Interrupt line k requests the vector in EVX_LINEVECk (R208). -/
def fireInterrupt (s : State) (k : Nat) : State :=
  let v := reg s (0x30800 + 4 * k)
  if bitAt v 31 then requestPf s (bits v 10 0) else s

/-- Output line j fires once, at a count of its home die. -/
def fireLine (s : State) (j : Nat) (t : Int) (merged : Bool) : State :=
  if !lineLive s j then s
  else
    let s := if captured s j then
        { s with ev := { s.ev with toCapture := s.ev.toCapture ++ [(j, merged, t)] } }
      else s
    if j < 6 then (if awaitsLine s j then keepFiring s j t else s)
    else if j < 14 then armBurst s (j - 8)
    else if j < 20 then (if (tblGet {} s.core (j - 16)).phase = 1 then keepFiring s j t else s)
    else if j < 64 then s
    else fireInterrupt s (j - 64)

/-! ### Arrivals (R195 to R199) -/

/-- Take the first arrival in flight at an input. -/
def takeArrival (input : Nat) : List Arrival → Option (Arrival × List Arrival)
  | [] => none
  | a :: t =>
    if a.input = input then some (a, t)
    else (takeArrival input t).map fun z => (z.1, a :: z.2)

/-- The arrivals that a list of inputs names, and those that stay in flight. -/
def takeArrivals : List Nat → List Arrival → List Arrival × List Arrival
  | [], l => ([], l)
  | i :: t, l =>
    match takeArrival i l with
    | some (a, rest) => let z := takeArrivals t rest; (a :: z.1, z.2)
    | none => takeArrivals t l

/-- Line, die and compare time of a comparator's firing that reaches its line a fixed time later, by the route in force:
on the home die (R200), and for a planning-cycle line, as the chapter's example of coinciding ticks shows. -/
def fixedPath (s : State) (a : Arrival) : Option (Nat × Nat × Int) :=
  match routeLine s a.input with
  | some j =>
    if a.comparator.isSome && (lineHome j = a.die || (16 ≤ j && j < 20)) then some (j, a.die, a.fired) else none
  | none => none

/-- Comparators' firings of one edge reach their line together (R50, R199). -/
def joins (s : State) (taken : List Arrival) (a : Arrival) : Bool :=
  (fixedPath s a).isSome && taken.any fun b => fixedPath s b = fixedPath s a

/-- An arrival adds 1 to the counter of its route (R195). -/
def countArrival (s : State) (a : Arrival) : State :=
  let r := reg s (0x34000 + 4 * a.input)
  if bitAt r 15 then evcAdd s (bits r 11 0) 1 else s

/-- The source of a merged firing whose TRIG_MERGED is set: a comparator, or a capture input (R50, R199). -/
def mergedFlag (a : Arrival) : Option Nat :=
  match a.comparator with
  | some n => some (544 + n)
  | none => if 408 ≤ a.input && a.input < 440 then some (608 + (a.input - 408)) else none

/-- The firings that reach line j in one cycle make one firing, flagged once (R199). -/
def fireGroup (s : State) (l : List Arrival) (j : Nat) : State :=
  match l.filter fun a => routeLine s a.input = some j with
  | [] => s
  | a :: rest =>
    let s' := if !rest.isEmpty && lineLive s j then setFlag (setFlags s ((a :: rest).filterMap mergedFlag)) (640 + j) else s
    fireLine s' j (fireTime s j a) (!rest.isEmpty)

/-- CROSSBAR_ARRIVAL (R195, R196, R199): the arrivals named reach the crossbar in one cycle, by the routes in force. -/
def execCrossbarArrival (inputs : List Nat) (s : State) : Host.Outcome State Fault Refusal :=
  done (
    let z := takeArrivals inputs s.ev.inFlight
    let l := z.1 ++ z.2.filter (joins s z.1)
    let s := { s with ev := { s.ev with inFlight := z.2.filter fun a => !joins s z.1 a } }
    let lines := (l.filterMap fun a => routeLine s a.input).foldl (fun q j => insertNew j q) []
    lines.foldl (fun s j => fireGroup s l j) (l.foldl countArrival s))

/-! ### Host event-set and occurrence counters (R201, R202, R204) -/

/-- HOSTEV_ADD (R201): EVX_HOSTEV_VAL is added modulo 2^32. -/
def execHostevAdd (n : Nat) (s : State) : Host.Outcome State Fault Refusal :=
  done (if served s && n < 4096 then evcAdd s n (BitVec.ofNat 32 (reg s 0x30000)) else s)

/-- HOSTEV_SET (R201, R202): the counter becomes EVX_HOSTEV_VAL, and the adds of that cycle follow. -/
def execHostevSet (n : Nat) (adds : List W32) (s : State) : Host.Outcome State Fault Refusal :=
  done (if served s && n < 4096 then evcSet s n (BitVec.ofNat 32 (reg s 0x30000)) adds else s)

/-- OCC_CLR (R204): the occurrence counter of one flag ID returns to 0. -/
def execOccClr (id : Nat) (s : State) : Host.Outcome State Fault Refusal :=
  done (if served s && id < 4096 then { s with occ := tblSet 0 s.occ id 0 } else s)

/-- OCC_CLR_ROW (R204): the 32 counters of the ID's row return to 0. -/
def execOccClrRow (id : Nat) (s : State) : Host.Outcome State Fault Refusal :=
  done (if served s && id < 4096 then { s with occ := dropRange s.occ (id / 32 * 32) 32 } else s)

end Sys2Proof.Machine
end

