-- ==== Sys2Proof/Machine/Clocks.lean ====
section
/-! DEFINITION. Compute oscillators, Patina monitors, and jitter and duty monitors (chapter 3). -/
namespace Sys2Proof.Machine

/-! ### Oscillators (R57 to R62, R84) -/

/-- XCYC_LATCH (R62): a read of CLK_XCYC_LOn latches the whole count. -/
def execXcycLatch (n : Nat) (s : State) : Host.Outcome State Fault Refusal :=
  done (
    if 74 ≤ n || !served s then { s with readOut := 0 }
    else
      let i := instOf s n
      { setInst s n { i with latch := i.cycles } with readOut := i.cycles.setWidth 32 })

/-- EXCURSION (R59): the first cycle of each excursion sets BELOW_FLOOR and FLOOR_BREACH. -/
def execExcursion (n : Nat) (s : State) : Host.Outcome State Fault Refusal :=
  done (if n < 74 && (instOf s n).run then setFlag (setFlag s (192 + n)) 67 else s)

/-- CAP_RAMP_TICK (R58, R84): in a start ramp the cap of a running instance rises by 25 MHz to the nominal frequency,
unless Patina or heat holds it lower; in a stop ramp it falls by 25 MHz, and at the floor the stop step is requested. -/
def execCapRampTick (n : Nat) (s : State) : Host.Outcome State Fault Refusal :=
  done (
    let i := instOf s n
    if 74 ≤ n || !i.run then s
    else if i.stopping then
      if 1400 < i.cap then lowerCap s n i else s
    else if !i.held && !i.hot && i.cap < 1750 then setInst s n { i with cap := i.cap + 25 }
    else s)

/-! ### Patina (R69, R70) -/

/-- Instance of a Patina monitor (R69 Table 21). -/
def patInst (m : Nat) : Nat := if m < 64 then m else if m < 88 then 64 + (m - 64) / 3 else if m < 94 then 72 else 73

/-- The Patina monitors of an instance. -/
def patOf (n : Nat) : List Nat := (List.range 96).filter fun m => patInst m = n

/-- A Patina monitor's slack and minimum. -/
def patinaOf (s : State) (m : Nat) : Pat := tblGet {} s.pat m

/-- SLACK as it reads: 0 while the instance is stopped (R69). -/
def slackNow (s : State) (m : Nat) : Nat := if (instOf s (patInst m)).run then (patinaOf s m).slack else 0

/-- CRIT_PCT and WARN_PCT of MON_PAT_CFG. -/
def critPct (s : State) : Nat := fld s 0x70004 15 8
/-- See critPct. -/
def warnPct (s : State) : Nat := fld s 0x70004 7 0

/-- MIN_CLR (R69). -/
def execMinClr (n : Nat) (s : State) : Host.Outcome State Fault Refusal :=
  done (
    if n < 96 && served s then { s with pat := tblSet {} s.pat n { patinaOf s n with min := 255 } } else s)

/-- A monitor in or out of the list of those whose last sample lies below a threshold. -/
def mark (l : List Nat) (m : Nat) (c : Bool) : List Nat := if c then insertNew m l else l.filter (· ≠ m)

/-- The last sample since the start of some monitor of an instance lies below CRIT_PCT. -/
def underCrit (s : State) (n : Nat) : Bool := (instOf s n).run && !(instOf s n).crit.isEmpty

/-- PATINA_CRIT_TICK (R70 steps 1 and 2): the cap falls by 25 MHz to the floor, and then the setpoint, which all instances
share and which moves once a millisecond, rises by 5 mV to 0.85 V; `c.naks` tries of its VOUT_COMMAND stay without
acknowledgement. -/
def execPatinaCritTick (c : CritTick) (s : State) : Host.Outcome State Fault Refusal :=
  done (
    let n := c.inst
    if n < 74 && underCrit s n then
      let i := instOf s n
      if 1400 < i.cap then lowerCap s n { i with held := true }
      else
        let s := setInst s n { i with held := true }
        if s.power.vset < 850 && vsetDue s then voutCommand s (min 850 (s.power.vset + 5)) c.naks else s
    else s)

/-- PATINA_SAMPLE (R69, R70, R113): a running instance's monitor samples its slack. During self-test a sample below
CRIT_PCT fails the units of the instance. -/
def execPatinaSample (m slack : Nat) (s : State) : Host.Outcome State Fault Refusal :=
  done (
    let n := patInst m
    if m < 96 && slack ≤ 100 && (instOf s n).run then
      let s := { s with pat := tblSet {} s.pat m { slack := slack, min := min slack (patinaOf s m).min } }
      let i := instOf s n
      let s := setInst s n { i with
        crit := mark i.crit m (Decidable.decide (slack < critPct s))
        warn := mark i.warn m (Decidable.decide (slack < warnPct s)) }
      let s := if slack < warnPct s then setFlag (setFlag s (288 + 2 * m)) 64 else s
      if slack < critPct s then
        let s := setFlag (setFlag s (289 + 2 * m)) 65
        if s.boot.stage = 3 then
          { s with boot := { s.boot with testFailed := (instUnits n).foldl (fun l u => insertNew u l) s.boot.testFailed } }
        else s
      else s
    else s)

/-- MARGIN_FAIL (R70 step 3, R421, R422): the units of the instance are retired; the log has the lowest last slack. -/
def execMarginFail (n : Nat) (s : State) : Host.Outcome State Fault Refusal :=
  done (
    if n < 74 && underCrit s n && (instOf s n).cap ≤ 1400 && s.power.vset = 850 then
      let slack := (patOf n).foldl (fun a m => min a (patinaOf s m).slack) 255
      (instUnits n).foldl (fun s u => retire s u.1 u.2 0x3001 slack) (setFlag s 66)
    else s)

/-- PATINA_RECOVERY_TICK (R70, R93): after 100 ms of clean samples the cap rises by 25 MHz to the nominal frequency; one
that heat has lowered waits until TJ_MAX has stayed below TJ_THROTTLE for 100 ms, and the cap of one that is to stop does
not rise. -/
def execPatinaRecoveryTick (n : Nat) (s : State) : Host.Outcome State Fault Refusal :=
  done (
    let i := instOf s n
    if n < 74 && i.run && !i.stopping && (i.held || i.hot) && i.warn.isEmpty && !(i.hot && s.power.coolMs < 100) then
      let c := min 1750 (i.cap + 25)
      setInst s n { i with cap := c, held := i.held && c < 1750, hot := i.hot && c < 1750 }
    else s)

/-! ### Jitter and duty monitors (R71 to R73) -/

/-- A jitter and duty monitor. -/
def jdOf (s : State) (n : Nat) : Jd := tblGet {} s.jd n

/-- Put a jitter and duty monitor. -/
def setJd (s : State) (n : Nat) (x : Jd) : State := { s with jd := tblSet {} s.jd n x }

/-- MON_JD_CFGn. -/
def jdCfg (s : State) (n : Nat) : Nat := reg s (0x70400 + 8 * n)

/-- The monitor watches SRC2 in this window. -/
def jdSecond (s : State) (n : Nat) : Bool := bitAt (jdCfg s n) 13 && (jdOf s n).second

/-- The source that the monitor watches in this window. -/
def jdSource (s : State) (n : Nat) : Nat := if jdSecond s n then bits (jdCfg s n) 12 8 else bits (jdCfg s n) 4 0

/-- A source is measured: its die is present, its port enabled and up, its link out of reset (R71). -/
def jdMeasured (s : State) (src : Nat) : Bool :=
  if 1 ≤ src && src ≤ 3 then src - 1 < s.fuse.assy
  else if 4 ≤ src && src ≤ 9 then (linkOf s (src - 4)).st ≠ 0
  else 0x0A ≤ src && src ≤ 0x15 && portState s (src - 0x0A) = 2

/-- The monitor goes on to its next window. -/
def jdNext (s : State) (n : Nat) : State :=
  setJd s n { jdOf s n with second := bitAt (jdCfg s n) 13 && !(jdSecond s n) }

/-- Flags of one finding: the monitor's own bit i, and JD_JITTER to JD_LOSS in MON_FLAGS (R72). -/
def jdFlag (n i : Nat) (c : Bool) (s : State) : State := if c then setFlag (setFlag s (480 + 4 * n + i)) (68 + i) else s

/-- JD_WINDOW (R71, R72): a whole window of the watched clock ends, so that a later loss is reported anew, and TCLK of
I/O die 0 has edges again. -/
def execJdWindow (n jitter duty : Nat) (ppm : Int) (s : State) : Host.Outcome State Fault Refusal :=
  done (
    if 16 ≤ n then s
    else
      let src := jdSource s n
      if !jdMeasured s src then jdNext s n
      else
        let x := jdOf s n
        let y := if jdSecond s n then { x with lostB := false } else { x with lostA := false }
        let cfg := jdCfg s n
        let t := setJd s n { y with jit := min 255 jitter, duty := min 100 duty, src := src }
        let t := if src = 1 then { t with etu := { t.etu with tclkEdges := true } } else t
        let dev := if duty < 50 then 50 - duty else duty - 50
        let t := jdFlag n 0 (bits cfg 23 16 < jitter) t
        let t := jdFlag n 1 (bits cfg 27 24 < dev) t
        jdNext (jdFlag n 2 (100 < absInt ppm) t) n)

/-- TCLK of I/O die 0 is lost (R73, R420 step 1). -/
def tclkLoss (s : State) : State :=
  let first := s.etu.tclkEdges
  let s := setFlag { s with etu := { s.etu with tclkLost := true, tclkEdges := false, recovering := false } } 72
  settleRadio (if first then logEvent s 0x4001 0 0 0 else s)

/-- What the loss of a clock does to its die, link or port (R73, R342, R371). -/
def clockLoss (s : State) (src : Nat) : State :=
  if src = 1 then tclkLoss s
  else if src = 2 || src = 3 then (if dieSynced s (src - 1) then unsyncDie s (src - 1) else s)
  else if src < 0x0A then linkReset s (src - 4)
  else portLeave s (src - 0x0A)

/-- JD_LOSS (R71 to R73): reported once for each loss. The window of a lost clock cannot end; with SCAN = 1 the monitor
goes on to the other source then, which R71 does not say but needs, since the two are followed separately (log
entry 45). -/
def execJdLoss (n : Nat) (s : State) : Host.Outcome State Fault Refusal :=
  done (
    let src := jdSource s n
    let x := jdOf s n
    if 16 ≤ n then s
    else if !jdMeasured s src || (if jdSecond s n then x.lostB else x.lostA) then jdNext s n
    else
      let y := if jdSecond s n then { x with lostB := true } else { x with lostA := true }
      jdNext (clockLoss (jdFlag n 3 true (setJd s n y)) src) n)

end Sys2Proof.Machine
end

