-- ==== Sys2Proof/Machine/PowerCmds.lean ====
section
/-! DEFINITION. Supplies, the step ledger, heat, shedding and resuming, and outputs toward partners (chapter 4). -/
namespace Sys2Proof.Machine

/-! ### The step ledger (R82, R86) -/

/-- The restart after RESUME has ended: no step waits any more (R90). -/
def finishResume (s : State) : State :=
  if s.power.shed = 3 && s.power.waiting.isEmpty then
    settleRadio (arrive { s with power := { s.power with shed := 0, shedStep := 0 } } 459)
  else s

/-- STEP_ADMIT (R82, R85, R86): column ramps that are over ask for the count wanted meanwhile, and the first waiting step
that fits its ledger is admitted. -/
def execStepAdmit (s : State) : Host.Outcome State Fault Refusal :=
  done (
    let s := (List.range 8).foldl settleRamp s
    match nextStep s with
    | none => s
    | some x => finishResume (admitStep { s with power := { s.power with waiting := s.power.waiting.erase x } } x))

/-! ### The regulator (R79, R80) -/

/-- SETPOINT_STEP (R70, R79, R80): one VOUT_COMMAND a millisecond moves the setpoint by at most 5 mV to the fused value,
`naks` tries of it without acknowledgement. A part fused at 0.75 V is driven there once. While Patina holds an instance
the setpoint stays where R70 has put it. -/
def execSetpointStep (naks : Nat) (s : State) : Host.Outcome State Fault Refusal :=
  done (
    let p := s.power
    if !s.boot.pwrok || s.boot.halted || !vsetDue s || (p.vset = s.fuse.vset && p.driving) || s.inst.any (fun e => e.2.held)
    then s
    else voutCommand s (if p.vset < s.fuse.vset then min s.fuse.vset (p.vset + 5) else max s.fuse.vset (p.vset - 5)) naks)

/-- PMBUS_STATUS_POLL (R80): `naks` tries stay without acknowledgement. -/
def execPmbusStatusPoll (naks : Nat) (s : State) : Host.Outcome State Fault Refusal :=
  done (if s.power.driving then pmbus s naks else s)

/-- PMBUS_TELEMETRY_POLL (R80): READ_VOUT and READ_IOUT in turn. -/
def execPmbusTelemetryPoll (naks : Nat) (s : State) : Host.Outcome State Fault Refusal :=
  done (
    if s.power.driving then pmbus { s with power := { s.power with readIout := !s.power.readIout } } naks else s)

/-- VR_ALERT (R80): an assertion is a VR_FAULT. -/
def execVrAlert (asserted : Bool) (s : State) : Host.Outcome State Fault Refusal :=
  done (
    let was := s.power.vrAlert
    let s := { s with power := { s.power with vrAlert := asserted } }
    if asserted && !was && s.boot.pwrok then vrFault s else s)

/-! ### Heat (R93, R94, R444) -/

/-- TJ_MAX in °C. -/
def tjMax (s : State) : Int := s.power.tj.toInt

/-- TJ_THROTTLE in °C: values above 105 act as 105, and the comparison is signed (R94 Table 10, R444). -/
def tjThrottle (s : State) : Int := min 105 (sext 8 (fld s 0x50000 15 8))

/-- The arrays that run inference work. -/
def inferenceArrays (s : State) : List Nat := (List.range 8).filter fun a => (arrOf s a).occupant = 1

/-- The caps of the arrays that run inference work fall by 25 MHz (R93). -/
def throttleArrays (s : State) : State :=
  (inferenceArrays s).foldl (fun s a =>
    let i := instOf s (64 + a)
    if i.run && 1400 < i.cap then setInst s (64 + a) { i with cap := i.cap - 25, hot := true } else s) s

/-- Every array that runs inference work has its cap at the floor. -/
def atFloor (s : State) : Bool := (inferenceArrays s).all fun a => (instOf s (64 + a)).cap ≤ 1400

/-- What the new temperature does to inference work (R93). -/
def actHeat (s : State) : State :=
  let t := tjMax s
  let th := tjThrottle s
  let s := if th < t then throttleArrays s else s
  let hold := if t < th then false else s.power.thermHold || (Decidable.decide (th + 5 ≤ t) && atFloor s)
  { s with power := { s.power with thermHold := hold, coolMs := if t < th then min 100 (s.power.coolMs + 1) else 0 } }

/-- TJ_UPDATE (R93, R94, R444): the millisecond update of TJ_MAX. THERM_CRIT is set, and shedding started, when TJ_MAX comes
to 115 °C from below; R94 does not say whether it is set again while TJ_MAX stays there (DESIGN CHOICE, log entry 16). -/
def execTjUpdate (t : Byte) (s : State) : Host.Outcome State Fault Refusal :=
  done (
    if !s.boot.pwrok then s
    else
      let was := tjMax s
      let s := { s with power := { s.power with tj := t, tjValid := true } }
      let s := setFlagIf (was ≤ tjThrottle s && tjThrottle s < tjMax s) 99 s
      let s := actHeat s
      if 115 ≤ tjMax s && was < 115 then startShed (setFlag s 100) 2 else s)

/-- THERMTRIP (R94). -/
def execThermtrip (s : State) : Host.Outcome State Fault Refusal :=
  done (
    if s.power.tjValid && 120 ≤ tjMax s && s.power.shed = 2 then
      { s with power := { s.power with thermtrip := true } }
    else s)

/-! ### Shedding and resuming (R87 to R90) -/

/-- PFW_N_LOW (R87): the pin has been low for 3 cycles. -/
def execPfwNLow (s : State) : Host.Outcome State Fault Refusal :=
  done (
    let s := { s with power := { s.power with pfw := true } }
    if s.boot.pwrok then startShed s 0 else s)

/-- PFW_N_RELEASE (R87): the ramp goes on. -/
def execPfwNRelease (s : State) : Host.Outcome State Fault Refusal :=
  done { s with power := { s.power with pfw := false } }

/-- SHED (R87). -/
def execShed (s : State) : Host.Outcome State Fault Refusal :=
  done (if served s then startShed s 3 else s)

/-- SHED_RAMP_STEP (R87 Table 8). -/
def execShedRampStep (s : State) : Host.Outcome State Fault Refusal :=
  done (
    if s.power.shed = 1 then
      let n := s.power.shedStep
      let s := { s with power := { s.power with shedStep := n + 1 } }
      shedGroup s n
    else s)

/-- The conditions of R90. -/
def mayResume (s : State) : Bool :=
  s.power.shed = 2 && !s.power.pfw && !s.power.vrAlert && s.power.ack && tjMax s < 115

/-- The start steps of the groups of Table 8 in reverse order: Hedgerow and SSRAM, the tiles from quadrant 3 down, the
coding engine, the arrays and Espalier. -/
def resumeSteps (s : State) : List LedgerStep :=
  let tiles := [3, 2, 1, 0].flatMap fun q => (List.range 16).map fun i => 16 * q + i
  { kind := .fabric true, amount := fabricAmount, rising := true, radio := true } ::
    ((tiles ++ [72, 64, 65, 66, 67, 68, 69, 70, 71, 73]).filter fun n => !instRetired s n).map startStep

/-- RESUME (R90): the stacks leave self-refresh and every group is restarted as steps. -/
def execResume (s : State) : Host.Outcome State Fault Refusal :=
  done (
    if served s && mayResume s then
      let s := { s with power := { s.power with shed := 3, selfRefresh := false } }
      finishResume ((resumeSteps s).foldl requestStep s)
    else s)

/-! ### Outputs (R91, R92) -/

/-- ETH_MODE of a port. -/
def ethMode (s : State) (p : Nat) : Nat := fld s 0x50018 (2 * p + 1) (2 * p)

/-- The output interface exists: 0 to 11 Ethernet ports, 16 to 21 links, 32 the host port, 33 SPI and the TAP. -/
def outputExists (s : State) (i : Nat) : Bool :=
  if i < 12 then unitExists s 10 i else if 16 ≤ i && i < 22 then unitExists s 11 (i - 16) else i = 32 || i = 33

/-- An interface whose condition is its partner's power-good input: ETHPG_n with ETH_MODE 0, and with 3, which acts as 0
(R435); JPG_n. -/
def byPowerGood (s : State) (i : Nat) : Bool :=
  (i < 12 && (ethMode s i = 0 || ethMode s i = 3)) || (16 ≤ i && i < 22)

/-- An interface's outputs and its partner's power-good input, or with ETH_MODE 1 the block lock that is its condition. -/
def setOutput (s : State) (i : Nat) (on : Bool) : State :=
  let s := { s with power := { s.power with
      outputs := tblSet false s.power.outputs i on
      powerGood := if byPowerGood s i then tblSet false s.power.powerGood i on else s.power.powerGood } }
  if i < 12 && ethMode s i = 1 then setPort s i { portOf s i with lock := on } else s

/-- OUTPUT_ENABLE (R91 Table 9). The host port's lanes wait for PERST#. -/
def execOutputEnable (ifc : Nat) (s : State) : Host.Outcome State Fault Refusal :=
  done (if outputExists s ifc && !(ifc = 32 && s.boot.perst) then setOutput s ifc true else s)

/-- OUTPUT_DISABLE (R91 Table 9): a port goes DOWN, a link enters RESET (R342, R371). With ETH_MODE 2 a port's outputs
have no disable condition; the host port's condition is PERST_ASSERT, that of SPI and the TAP power-on reset. -/
def execOutputDisable (ifc : Nat) (s : State) : Host.Outcome State Fault Refusal :=
  done (
    if !outputExists s ifc || 32 ≤ ifc || (ifc < 12 && ethMode s ifc = 2) then s
    else
      let s := setOutput s ifc false
      if ifc < 12 then portLeave s ifc else settleRadio s)

/-- PROBE_BURST (R92): with ETH_MODE 1 and no block lock. -/
def execProbeBurst (p : Nat) (s : State) : Host.Outcome State Fault Refusal :=
  done (
    if p < 12 && working s 10 p && bits (portCfg s p) 1 0 ≠ 0 && ethMode s p = 1 && !(portOf s p).lock then
      { s with power := { s.power with probes := tblMod 0 s.power.probes p (· + 1) } }
    else s)

end Sys2Proof.Machine
end

