-- ==== Sys2Proof/Machine/Mover.lean ====
section
/-! DEFINITION. The data mover, the patrol scrubber, layout invalidation and peer requests (chapter 10). -/
namespace Sys2Proof.Machine

/-! ### The data mover (R238 to R240) -/

/-- Bytes of a chunk. -/
def chunkBytes : Nat := 65536

/-- The MV operation of a channel with the number of the chunk it moves next. -/
def atChunk (s : State) (ch opc : Nat) : Option (Run × ListOp × Nat) :=
  match atOp s 6 ch opc with
  | some (x, _, o) => some (x, o, 0)
  | none =>
    match inOp s 6 ch with
    | some (x, g, o) => (match g.phase with
      | .chunks n => if o.opc = opc then some (x, o, n) else none
      | _ => none)
    | none => none

/-- A chunk has been moved: the operation goes on or has ended. -/
def nextChunk (s : State) (x : Run) (ch n length : Nat) : State :=
  if length ≤ (n + 1) * chunkBytes then advance s x ch else setPhase s x ch (.chunks (n + 1))

/-- The check MV_LENGTH (R240 Table 11): addresses and LENGTH. -/
def mvLengthBad (addrs : List Nat) (length : Nat) : Bool := length = 0 || addrs.any fun a => 2 ^ 48 < a + length

/-- One chunk of a copy: read whole, then written; poison is forwarded and noted in DETAIL[0] (R239, R408). -/
def copyChunk (s : State) (x : Run) (ch idx src dst length n : Nat) : State :=
  let o := n * chunkBytes
  match readDev s (agentOf x) (src + o) (min chunkBytes (length - o)) with
  | (s, .fail f) => failWith s x ch idx f
  | (s, .ok d) =>
    match writeDev s (agentOf x) (dst + o) d with
    | (s, .fail f) => failWith s x ch idx f
    | (s, .ok ()) =>
      let s := if d.poison.isEmpty then s else modRun s x.id fun y => { y with detail := y.detail ||| 1 }
      nextChunk s x ch n length

/-- MV_COPY (R239). -/
def execMvCopy (ch : Nat) (s : State) : Host.Outcome State Fault Refusal :=
  done (
    match atChunk s ch 0x60 with
    | none => s
    | some (x, o, n) =>
      let src := bits (xw o 1) 47 0
      let dst := bits (xw o 2) 47 0
      let len := bits (xw o 3) 39 0
      if n = 0 && mvLengthBad [src, dst] len then failResult s x ch o.idx 0x70
      else copyChunk s x ch o.idx src dst len n)

/-- One chunk of a fill. -/
def fillChunk (s : State) (x : Run) (ch idx dst length n pattern : Nat) : State :=
  let o := n * chunkBytes
  let m := min chunkBytes (length - o)
  match writeBytes s (agentOf x) (dst + o) (List.replicate (m / 4) (leBytes 4 pattern)).flatten with
  | (s, .fail f) => failWith s x ch idx f
  | (s, .ok ()) => nextChunk s x ch n length

/-- MV_FILL (R239). -/
def execMvFill (ch : Nat) (s : State) : Host.Outcome State Fault Refusal :=
  done (
    match atChunk s ch 0x61 with
    | none => s
    | some (x, o, n) =>
      let dst := bits (xw o 1) 47 0
      let len := bits (xw o 2) 39 0
      if n = 0 && mvLengthBad [dst] len then failResult s x ch o.idx 0x70
      else if n = 0 && (dst % 4 ≠ 0 || len % 4 ≠ 0) then failResult s x ch o.idx 0x71
      else fillChunk s x ch o.idx dst len n o.imm)

/-! ### The patrol scrubber (R223, R224) -/

/-- SCRUB: a read of one 32 B unit at an HBM offset, which writes corrected data back. It pauses in self-refresh. -/
def execScrub (unit off : Nat) (s : State) : Host.Outcome State Fault Refusal :=
  done (
    if reg s 0x90008 = 0 || s.power.selfRefresh || hbmCap s ≤ off || stackOf s off ≠ unit then s
    else
      let cell := hbmPlace s off / 32
      match tblGet? s.mem.hbmCell cell with
      | none => s
      | some e =>
        let s := senseCell s 1 (cell, e)
        if e = 1 then setCells s 1 (tblDel s.mem.hbmCell cell) else s)

/-! ### Layout invalidation (R233, R234) -/

/-- A write to LAY_INV: one that finds BUSY = 1 sets LAY_INV_OVERRUN. -/
def layInvStart (s : State) (ctx : Nat) (handle : Option Nat) : State :=
  if !served s then s
  else if s.mem.layInv.isSome then setFlag s 3232
  else { s with mem := { s.mem with layInv := some (ctx, handle) } }

/-- LAY_INV_HANDLE (R234). -/
def execLayInvHandle (ctx handle : Nat) (s : State) : Host.Outcome State Fault Refusal :=
  done (layInvStart s ctx (some handle))

/-- LAY_INV_ALL (R234). -/
def execLayInvAll (ctx : Nat) (s : State) : Host.Outcome State Fault Refusal := done (layInvStart s ctx none)

/-- LAY_INV_DONE (R234): nothing covered remains cached, and BUSY returns to 0. -/
def execLayInvDone (s : State) : Host.Outcome State Fault Refusal :=
  done (
    match s.mem.layInv with
    | none => s
    | some (c, h) =>
      let covered (e : Nat × Nat × List Byte) : Bool := e.1 = c && (match h with
        | some h => e.2.1 = h
        | none => true)
      { s with mem := { s.mem with layInv := none, lay := s.mem.lay.filter fun e => !covered e } })

/-! ### Peer requests (R226) -/

/-- HBM offset of a peer request that lies whole in an enabled inbound window of a die. -/
def inboundOffset (s : State) (die addr n : Nat) : Option Nat :=
  (List.range 16).findSome? fun w =>
    let base := bits (reg64 s (0xA2010 + 0x20 * w)) 63 12 * 4096
    if winDie s w = some die && bitAt (reg s (0xA2000 + 0x20 * w)) 1 && base ≤ addr && addr + n ≤ base + 2 ^ winSize s w
    then some (bits (reg64 s (0xA2018 + 0x20 * w)) 47 12 * 4096 + (addr - base)) else none

/-- Write bytes over parts of HBM by offset. -/
def hbmWrite (s : State) (g : Agent) : List (Nat × Nat) → List Byte → State
  | [], _ => s
  | (off, n) :: rest, b => hbmWrite (storePlace s g { tgt := 1, addr := hbmPlace s off } (b.take n)) g rest (b.drop n)

/-- Read parts of HBM by offset: the bytes, and whether some are poisoned (R223). -/
def hbmRead (s : State) (g : Agent) : List (Nat × Nat) → Data → State × Data
  | [], acc => (s, acc)
  | (off, n) :: rest, acc =>
    match readPlace s g { tgt := 1, addr := hbmPlace s off } n acc.bytes.length with
    | (s, .ok d) => hbmRead s g rest ⟨acc.bytes ++ d.bytes, acc.poison ++ d.poison⟩
    | (s, .fail _) => (s, acc)

/-- PEER_INBOUND (R226): a write, or a read of len bytes. Outside every window the answer is Unsupported Request with
PEER_UR; at or beyond HBM_CAP it is Unsupported Request. A read returns poisoned data marked (R223). -/
def execPeerInbound (die addr : Nat) (data : Option (List Byte)) (len : Nat) (s : State) :
    Host.Outcome State Fault Refusal :=
  done (
    if !working s 12 die then s
    else
      let n := match data with | some b => b.length | none => len
      let answer (s : State) (a : Option (List Byte × Bool)) : State := { s with mem := { s.mem with peerAnswer := a } }
      match inboundOffset s die addr n with
      | none => answer (setFlag s 2977) none
      | some off =>
        if hbmCap s < off + n then answer s none
        else
          let g : Agent := { ctx := 0, cls := 7 }
          match data with
          | some b => answer (hbmWrite s g (pieces off n) b) (some ([], false))
          | none =>
            let (s, d) := hbmRead s g (pieces off n) {}
            answer s (some (d.bytes, !d.poison.isEmpty)))

end Sys2Proof.Machine
end

