-- ==== Sys2Proof/Machine/Faults.lean ====
section
/-! DEFINITION. Faults of counters, Hedgerow and die-to-die links, live retirement by command, and the flash log
(chapter 18). -/
namespace Sys2Proof.Machine

/-- EVC_PARITY (R414): the counter is frozen and recorded, with a TENANT entry. -/
def execEvcParity (n : Nat) (s : State) : Host.Outcome State Fault Refusal :=
  done (
    if 4096 ≤ n then s
    else
      let e := evc s n
      let s := setFlag (setEvc s n { e with frozen := true }) 3074
      let s := { s with err := { s.err with evcPar := n, evcParValid := true } }
      pushLog s { time := 0, code := 0x2001, func := e.owner.getD 0, index := n, arg0 := n })

/-! ### The whole fabric lost (R415, R417) -/

/-- Every dispatched run ends at once as stopped; one of a reset function ends in silence. -/
def endAllRuns (s : State) : State :=
  freeArrays (s.runs.foldl (fun s x =>
    let s := x.segs.foldl (fun s g => if runsNow s x.cls g.unit x.id then freeUnit s x.cls g.unit else s) s
    finishRun (modRun s x.id fun y => { y with
      segs := y.segs.map (fun g => { g with ended := true })
      cause := some (if y.cause = some .discarded then .discarded else .flushed) }) x.id) s)

/-- Rings with a slot of a kind halt at the oldest such slot (R158, R415, R417). -/
def haltRingsWith (s : State) (p : Slot → Bool) : State :=
  s.ring.foldl (fun s e =>
    match e.2.slots.find? p with
    | some x => if 8 ≤ e.1 && e.2.st = 1 then haltRing s e.1 x.k else s
    | none => s) s

/-- A dispatched, unfinished slot. -/
def isRunning (x : Slot) : Bool := match x.st with
  | .running _ => true
  | _ => false

/-- Every dispatched engine descriptor completes FLUSHED with STOPPED, and its ring halts (R415). -/
def flushDispatched (s : State) : State := endAllRuns (haltRingsWith s isRunning)

/-- HEDGEROW_UE (R415): a DEVICE error; only a warm reset restores service. -/
def execHedgerowUe (router : Nat) (s : State) : Host.Outcome State Fault Refusal :=
  done (
    let s := logEvent (setFlag s 3077) 0x5002 router router 0
    flushDispatched (recap { s with boot := { s.boot with hedgerowUe := true } }))

/-! ### Die-to-die links (R416, R417) -/

/-- A die-to-die link. -/
def d2dOf (s : State) (d : Nat) : D2d := tblGet {} s.err.d2d d

/-- Put a die-to-die link. -/
def setD2d (s : State) (d : Nat) (x : D2d) : State := { s with err := { s.err with d2d := tblSet {} s.err.d2d d x } }

/-- D2D_RETRY (R416, R423): each 256th replay makes a log entry. -/
def execD2dRetry (d : Nat) (many : Bool) (s : State) : Host.Outcome State Fault Refusal :=
  done (
    let x := d2dOf s d
    if s.fuse.assy ≤ d || x.down then s
    else
      let n := satInc 0xFFFF x.retry
      let s := setFlag (setD2d s d { x with retry := n, degraded := x.degraded || many }) 3075
      if n % 256 = 0 && n ≠ x.retry then logEvent s 0x0102 d d n else s)

/-- An outstanding descriptor completes FLUSHED with STOPPED when die 0's link is down (R417), an RX one with its
DETAIL[15:8] (R312). -/
def stopSlot (x : Slot) : Slot :=
  match x.st with
  | .waiting => { x with st := .decided { status := 7, result := 0xF1 } }
  | .decided o => { x with st := .decided { o with status := 7, result := 0xF1, detail := o.rx } }
  | _ => x

/-- The completion writer writes every outstanding engine descriptor as stopped, and its ring halts (R417). -/
def flushOutstanding (s : State) : State :=
  let out (x : Slot) : Bool := x.st ≠ .duplicate
  let had := s.ring.filterMap fun e => (e.2.slots.find? out).map fun x => (e.1, x.k)
  let s := { s with ring := s.ring.map fun e => if 8 ≤ e.1 then (e.1, { e.2 with slots := e.2.slots.map stopSlot }) else e }
  endAllRuns (had.foldl (fun s e => if 8 ≤ e.1 && (ringOf s e.1).st = 1 then haltRing s e.1 e.2 else s) s)

/-- D2D_DOWN (R417): the units of die 1 or 2 are retired and its ETU loses alignment; with die 0's link the fabric is
out of reach. -/
def execD2dDown (d : Nat) (s : State) : Host.Outcome State Fault Refusal :=
  done (
    let x := d2dOf s d
    if s.fuse.assy ≤ d || x.down then s
    else
      let s := setFlag (setD2d s d { x with down := true }) 3076
      if d = 0 then flushOutstanding (recap (logEvent s 0x3004 0 0 0))
      else
        let s := retireDie s d
        if dieSynced s d then unsyncDie s d else s)

/-! ### Retirement and the flash log -/

/-- ERR_RETIRE_CMD (R421, R422). -/
def execErrRetireCmd (typ idx : Nat) (s : State) : Host.Outcome State Fault Refusal :=
  done (if servedIo s then retire s typ idx 0x3003 0 else s)

/-- The flash log with an entry's sector erased before its first entry (R423). -/
def eraseFor (s : State) (n : Nat) : Tbl Byte :=
  let a := 32 * (n % 32768)
  if s.err.flashNext = 0 || (s.err.flashNext - 1) / 128 ≠ n / 128 then dropRange s.flash.log (a / 4096 * 4096) 4096
  else s.flash.log

/-- List the bytes of an entry; a byte of 0xFF is not listed. -/
def putFlash (t : Tbl Byte) (a : Nat) : List Byte → Tbl Byte
  | [] => t
  | b :: rest => putFlash (tblSet 0xFF t a b) (a + 1) rest

/-- LOG_FLASH_COPY (R423): Ezdan copies the oldest UNIT, TIMING or DEVICE entry not yet copied; a write that fails sets
LOG_LOST. -/
def execLogFlashCopy (ok : Bool) (s : State) : Host.Outcome State Fault Refusal :=
  done (
    match s.err.toFlash with
    | [] => s
    | n :: rest =>
      if s.boot.restarting || s.boot.ezHalted || s.boot.halted || !s.boot.fwUp then s
      else
        let log := eraseFor s n
        let log := if ok then
            (match tblGet? s.err.log (n % 256) with
            | some e => putFlash log (32 * (n % 32768)) (logBytes e)
            | none => log)
          else log
        let s := { s with flash := { s.flash with log := log }, err := { s.err with toFlash := rest, flashNext := n + 1 } }
        if ok then s else setFlag s 3081)

end Sys2Proof.Machine
end

