-- ==== Sys2Proof/Machine/Plinth.lean ====
section
/-! DEFINITION. The Plinth arrays: accumulators, products and stores, batches, and preemption (chapter 11). A command runs
one block of an operation; between two blocks the segment can stop or be preempted (R244, R245). -/
namespace Sys2Proof.Machine

/-! ### Accumulators in staging memory (R246, R247, R413) -/

/-- An accumulator; one never written is free. -/
def accWord (s : State) (a row col : Nat) : Nat :=
  match tblGet? (arrOf s a).acc (row * 128 + col) with
  | some w => w.toNat
  | none => ofLe (bytesAt (Config.freeByte (100 + a) (arrOf s a).epoch) (row * 512 + col * 4) 4)

/-- An accumulator as a function reads it: a unit last written by another function reads 0 (R247). -/
def accRead (s : State) (a fn row col : Nat) : Nat :=
  let o := tblGet 0 (arrOf s a).owner (row / 128)
  if o = 0 || o = fn + 1 then accWord s a row col else 0

/-- A segment writes the first columns of a row; the 64 KiB unit is its function's (R247). -/
def putAcc (s : State) (a fn row : Nat) (vals : List Nat) : State :=
  let x := arrOf s a
  setArr s a { x with
    acc := vals.zipIdx.foldl (fun t v => tblPut t (row * 128 + v.2) (BitVec.ofNat 32 v.1)) x.acc
    owner := tblPut x.owner (row / 128) (fn + 1)
    cell := healWords x.cell (row * 512) (4 * vals.length) }

/-- One staging word's error is found by a read: a correction is counted; an uncorrectable error is counted once and
leaves the word poisoned (R413, R421, R437). -/
def senseAcc (s : State) (a : Nat) (e : Nat × Nat) : State :=
  let x := arrOf s a
  match e.2 with
  | 1 =>
    let c := satInc 0xFFFF x.ce
    let s := setArr s a { x with ce := c }
    if c = x.ce then s else corrected s 1 a c
  | 2 => countUe (setArr s a { x with ue := satInc 0xFFFF x.ue, cell := tblSet 0 x.cell e.1 3 }) 1 a
  | _ => s

/-- An operation reads accumulators, those of the words that `reach` takes by row and place in the row: the first of them
that is poisoned, with its column (R408, R413). Staging memory is in no target space, so the log entry's ARG1 is free. -/
def senseWords (s : State) (g : Agent) (a : Nat) (reach : Nat → Nat → Bool) : State × Option Nat :=
  let hit := (arrOf s a).cell.filter fun e => reach (e.1 / 64) (e.1 % 64)
  let s := hit.foldl (fun s e => senseAcc s a e) s
  match hit.find? fun e => 2 ≤ e.2 with
  | some e =>
    (consumed (takeChoice s) g { ofs := 0, len := 8, tgt := Config.freeNat s.choice, addr := 8 * e.1 },
     some (2 * (e.1 % 64)))
  | none => (s, none)

/-- POISONED (R407, R408). -/
def poisonFail : Fail := ⟨6, 0xCA, false⟩

/-- The words of n rows and of the first columns. -/
def inRows (row n cols r w : Nat) : Bool := row ≤ r && r < row + n && 2 * w < cols

/-- The 64 KiB units among n rows that another function wrote last (R247). -/
def foreignUnits (s : State) (a fn row n : Nat) : List Nat :=
  ((List.range ((row + n - 1) / 128 + 1 - row / 128)).map (· + row / 128)).filter fun u =>
    let o := tblGet 0 (arrOf s a).owner u
    o ≠ 0 && o ≠ fn + 1

/-- An accumulator as an operation reads it that found some units another function's at its start (R247). -/
def accBefore (s : State) (a : Nat) (foreign : List Nat) (row col : Nat) : Nat :=
  if foreign.contains (row / 128) then 0 else accWord s a row col

/-- The rows lie in the accumulator rows of the segment's partition (R246 Table 2). -/
def rowsOk (x : Run) (row n : Nat) : Bool :=
  if x.prio < 2 then 6144 ≤ row && row + n ≤ 7680 else row + n ≤ 5632

/-! ### Arithmetic (R241 to R243) -/

/-- The formats form a pair of Table 1. -/
def pairOk (fa fb : Nat) : Bool := (fa ≤ 2 && fb ≤ 2) || (fa = 5 && fb = 5) || (fa = 6 && fb = 6)

/-- The pair takes the float path. -/
def floatPair (fa : Nat) : Bool := fa = 5 || fa = 6

/-- The value of an integer operand's bits. -/
def intVal (fmt w : Nat) : Int :=
  match fmt with
  | 0 => sext 4 w
  | 1 => sext 8 w
  | _ => (w : Int)

/-- Insert by a key, after equal ones. -/
def insertBy (key : Nat → Nat) (a : Nat) : List Nat → List Nat
  | [] => [a]
  | b :: t => if key a < key b then a :: b :: t else b :: insertBy key a t

/-- The naturals below n in the order of a key. -/
def orderBy (key : Nat → Nat) (n : Nat) : List Nat := (List.range n).foldl (fun l i => insertBy key i l) []

/-- The sum of n leaves from leaf `lo` on by the fixed tree; the first argument bounds the depth (R243). -/
def treeSum : Nat → Nat → Nat → List Nat → Nat
  | 0, _, _, l => l.headD 0
  | d + 1, lo, n, l =>
    if n ≤ 1 then l.headD 0
    else
      let k := 1 + Config.treeLeft lo n % (n - 1)
      f32Add (treeSum d lo k (l.take k)) (treeSum d (lo + k) (n - k) (l.drop k))

/-- The tree's sum of the products of one slice, rows without a product adding +0. -/
def sliceSum (prods : List Nat) : Nat :=
  treeSum 128 0 128 ((orderBy Config.treeLeaf 128).map fun i => prods.getD i 0)

/-- K slices of 128 products are added to the accumulator in ascending order; the first argument bounds their number. -/
def addSlices : Nat → Nat → List Nat → Nat
  | 0, acc, _ => acc
  | n + 1, acc, prods => addSlices n (f32Add acc (sliceSum (prods.take 128))) (prods.drop 128)

/-- The FP32 product of two operands' bits. -/
def floatMul (fmt x y : Nat) : Nat := f32Bits (fltMul (fltFrom fmt x) (fltFrom fmt y))

/-- An accumulator after the products of two vectors (R242, R243, R249). -/
def dot (fa fb acc : Nat) (xs ys : List Nat) : Nat :=
  if floatPair fa then addSlices ((xs.length + 127) / 128) acc ((xs.zip ys).map fun z => floatMul fa z.1 z.2)
  else trunc 32 (sext 32 acc + ((xs.zip ys).map fun z => intVal fa z.1 * intVal fb z.2).sum)

/-! ### Operations block by block (R244, R245) -/

/-- a / b, rounded up. -/
def divUp (a b : Nat) : Nat := (a + b - 1) / b

/-- The PA operation an array is about to execute, or is in: its oscillator runs. While shedding runs it goes on as long
as its columns stand (R87, R88). -/
def paReady (s : State) (a opc : Nat) : Option (Run × Seg × ListOp) :=
  if 8 ≤ a then none
  else match atOp s 2 a opc with
  | some z => some z
  | none =>
    match inOp s 2 a with
    | some (x, g, o) =>
      (match g.phase with
      | .pa _ _ _ _ => if o.opc = opc && unitWorks s 2 a && unitClocked s 2 a then some (x, g, o) else none
      | _ => none)
    | none => none

/-- Where an operation stands: its next block, its stationary tile, its foreign units. -/
def paAt (g : Seg) : Nat × List (List Nat) × List Nat :=
  match g.phase with
  | .pa b _ t f => (b, t, f)
  | _ => (0, [], [])

/-- The operation of a segment has passed its checks, on n columns and with these units foreign; it keeps its place when it
is under way. -/
def beginPa (s : State) (x : Run) (a : Nat) (g : Seg) (n : Nat) (foreign : List Nat) : State :=
  match g.phase with
  | .pa _ _ _ _ => s
  | _ => setPhase s x a (.pa 0 n [] foreign)

/-- The array ramps to a column count; the operation goes on once it has it (R261). -/
def withCols (s : State) (x : Run) (a n : Nat) (f : State → State) : State :=
  let s := requestCols s a n (x.prio < 2)
  if colsReady s a n then f s else s

/-- A block has ended: the operation goes on with the next of its `total` blocks, or has ended. -/
def endBlock (s : State) (x : Run) (a total blk n : Nat) (tile : List (List Nat)) (foreign : List Nat) : State :=
  if total ≤ blk + 1 then advance s x a else setPhase s x a (.pa (blk + 1) n tile foreign)

/-- What an operation is to do on an array once its checks have passed: its columns, its accumulator rows, the number of
its blocks, and a block of it from its number, the tile and the foreign units, with the tile it leaves. -/
structure PaWork where
  n : Nat
  row : Nat
  rows : Nat
  total : Nat
  block : State → Nat → List (List Nat) → List Nat → State × Res (List (List Nat))

/-- Run the next block of an operation: its checks, which use the copies of descriptors it already has, its columns, then
the block. -/
def onArray (s : State) (a opc : Nat) (check : State → Run → ListOp → State × Res PaWork) : State :=
  match paReady s a opc with
  | none => s
  | some (x, g, o) =>
    match check s x o with
    | (s, .fail f) => failWith s x a o.idx f
    | (s, .ok w) =>
      let (blk, tile, foreign) := match g.phase with
        | .pa b _ t f => (b, t, f)
        | _ => (0, [], foreignUnits s a x.fn w.row w.rows)
      withCols (beginPa s x a g w.n foreign) x a w.n fun s =>
        match w.block s blk tile foreign with
        | (s, .fail f) => failWith s x a o.idx f
        | (s, .ok t) => endBlock s x a w.total blk w.n t foreign

/-- Read vectors of elements through an operand. -/
def readVecs (s : State) (g : Agent) (o : Operand) : List (List (List Int)) → List (List Nat) → State × Res (List (List Nat))
  | [], acc => (s, .ok acc)
  | v :: rest, acc =>
    match readElems s g o v [] with
    | (s, .ok w) => readVecs s g o rest (acc ++ [w])
    | (s, .fail f) => (s, .fail f)

/-! ### Products (R244, R249, R253) -/

/-- A product of M by N accumulators over K: operands, their windows, the index of element k of row m of A and of column n
of B, the first row (R249, R253). -/
structure Product where
  init : Bool
  refA : Nat
  refB : Nat
  orgA : List Int
  extA : List Nat
  orgB : List Int
  extB : List Nat
  m : Nat
  n : Nat
  k : Nat
  row : Nat
  idxA : Nat → Nat → List Int
  idxB : Nat → Nat → List Int

/-- K per stationary tile (R241 Table 1). -/
def tileK (fa fb : Nat) : Nat := if fa = 0 && fb = 0 then 256 else 128

/-- A rows of a block (R244). -/
def blockRows (fa : Nat) : Nat := if floatPair fa then 448 else 1792

/-- One block of a walk over m rows and k: first k, their number, first row, their number (R244). -/
def blockOf (fa fb m k blk : Nat) : Nat × Nat × Nat × Nat :=
  let nb := divUp m (blockRows fa)
  let k0 := blk / nb * tileK fa fb
  let m0 := blk % nb * blockRows fa
  (k0, min (tileK fa fb) (k - k0), m0, min (blockRows fa) (m - m0))

/-- Blocks of such a walk. -/
def blocksOf (fa fb m k : Nat) : Nat := divUp k (tileK fa fb) * divUp m (blockRows fa)

/-- The accumulators of one block take their new values, those of column j with B's format `fb j`; in the first slice
they are read as they stood before the operation, from zero with INIT. -/
def storeBlock (s : State) (x : Run) (a row : Nat) (zero : Bool) (fa : Nat) (fb : Nat → Nat)
    (foreign : List Nat) (va vb : List (List Nat)) : State :=
  let before := s
  va.zipIdx.foldl (fun s v =>
    putAcc s a x.fn (row + v.2) (vb.zipIdx.map fun w =>
      dot fa (fb w.2) (if zero then 0 else accBefore before a foreign (row + v.2) w.2) v.1 w.1)) s

/-- The stationary tile of a slice is loaded before its first block (R244). -/
def loadTile (s : State) (g : Agent) (o : Operand) (idx : Nat → Nat → List Int) (n k0 kn m0 : Nat)
    (tile : List (List Nat)) : State × Res (List (List Nat)) :=
  if m0 ≠ 0 then (s, .ok tile)
  else readVecs s g o ((List.range n).map fun j => (List.range kn).map fun i => idx j (k0 + i)) []

/-- One block of a product. -/
def productBlock (s : State) (x : Run) (a : Nat) (p : Product) (oa ob : Operand) (blk : Nat) (tile : List (List Nat))
    (foreign : List Nat) : State × Res (List (List Nat)) :=
  let g := agentOf x (some a)
  let fa := oa.lay.fmt
  let fb := ob.lay.fmt
  let (k0, kn, m0, mn) := blockOf fa fb p.m p.k blk
  match loadTile s g ob p.idxB p.n k0 kn m0 tile with
  | (s, .fail f) => (s, .fail f)
  | (s, .ok vb) =>
    match readVecs s g oa ((List.range mn).map fun r => (List.range kn).map fun i => p.idxA (m0 + r) (k0 + i)) [] with
    | (s, .fail f) => (s, .fail f)
    | (s, .ok va) =>
      let zero := p.init && k0 = 0
      match (if zero then (s, none) else senseWords s g a (inRows (p.row + m0) mn p.n)) with
      | (s, some _) => (s, .fail poisonFail)
      | (s, none) =>
        (storeBlock s x a (p.row + m0) zero fa (fun _ => fb) (if k0 = 0 then foreign else []) va vb, .ok vb)

/-- The checks of a product: R246, then R231, R241 and R232 before its first access. -/
def productWork (s : State) (x : Run) (a : Nat) (p : Product) : State × Res PaWork :=
  let g := agentOf x (some a)
  if !rowsOk x p.row p.m then (s, .fail ⟨4, 0xD7, false⟩)
  else match operand s g p.refA false with
  | (s, .fail f) => (s, .fail f)
  | (s, .ok oa) =>
    match operand s g p.refB false with
    | (s, .fail f) => (s, .fail f)
    | (s, .ok ob) =>
      if !pairOk oa.lay.fmt ob.lay.fmt then (s, .fail ⟨6, 0x33, false⟩)
      else if !windowOk oa p.orgA p.extA || !windowOk ob p.orgB p.extB then (s, .fail ⟨4, 0xD5, false⟩)
      else (s, .ok { n := p.n, row := p.row, rows := p.m, total := blocksOf oa.lay.fmt ob.lay.fmt p.m p.k
                     block := fun s b t f => productBlock s x a p oa ob b t f })

/-- The product of PA_MATMUL (R249). -/
def matmulOf (o : ListOp) : Product :=
  let w3 := xw o 3
  let w4 := xw o 4
  let m := bits w4 12 0
  let k := bits w4 32 13
  let n := bits w4 40 33
  let k0 : Int := bits w3 39 20
  let m0 : Int := bits w3 19 0
  let n0 : Int := bits w3 59 40
  { init := bitAt o.imm 0, refA := xw o 1, refB := xw o 2, orgA := [k0, m0], extA := [k, m], orgB := [k0, n0]
    extB := [k, n], m := m, n := n, k := k, row := bits w4 53 41
    idxA := fun r i => [k0 + (i : Int), m0 + (r : Int)], idxB := fun j i => [k0 + (i : Int), n0 + (j : Int)] }

/-- M and N lie in the ranges of Table 3. -/
def shapeOk (m n : Nat) : Bool := 1 ≤ m && m ≤ 5632 && 1 ≤ n && n ≤ 128

/-- PA_SHAPE (R248, R264). -/
def shapeFail : Fail := ⟨6, 0x32, false⟩

/-- PA_MATMUL (R249): one block. -/
def execPaMatmul (a : Nat) (s : State) : Host.Outcome State Fault Refusal :=
  done (onArray s a 0x30 fun s x o =>
    let p := matmulOf o
    if !shapeOk p.m p.n || p.k = 0 then (s, .fail shapeFail) else productWork s x a p)

/-- A stride or dilation: 0 acts as 1. -/
def step1 (v : Nat) : Nat := max v 1

/-- The product of PA_CONV over the implicit matrix (R253). -/
def convOf (o : ListOp) : Product :=
  let w3 := xw o 3
  let w4 := xw o 4
  let w5 := xw o 5
  let kh := bits w3 4 0
  let kw := bits w3 9 5
  let sy := step1 (bits w3 13 10)
  let sx := step1 (bits w3 17 14)
  let dy := step1 (bits w3 21 18)
  let dx := step1 (bits w3 25 22)
  let c := bits w3 53 38
  let oh := bits w4 47 32
  let ow := bits w4 63 48
  let y0 : Int := (bits w4 15 0 : Int) * sy - bits w3 31 26
  let x0 : Int := (bits w4 31 16 : Int) * sx - bits w3 37 32
  let oc0 := bits w5 19 0
  let n := bits w5 27 20
  let img := bits w5 56 41
  { init := bitAt o.imm 0, refA := xw o 1, refB := xw o 2
    orgA := [0, x0, y0, (img : Int)]
    extA := [c, (ow - 1) * sx + (kw - 1) * dx + 1, (oh - 1) * sy + (kh - 1) * dy + 1, 1]
    orgB := [0, 0, 0, (oc0 : Int)], extB := [c, kw, kh, n]
    m := oh * ow, n := n, k := kh * kw * c, row := bits w5 40 28
    idxA := fun p k =>
      [((k % c : Nat) : Int), x0 + ((p % ow * sx + k / c % kw * dx : Nat) : Int),
       y0 + ((p / ow * sy + k / (kw * c) * dy : Nat) : Int), (img : Int)]
    idxB := fun q k =>
      [((k % c : Nat) : Int), ((k / c % kw : Nat) : Int), ((k / (kw * c) : Nat) : Int), ((oc0 + q : Nat) : Int)] }

/-- PA_CONV (R253): one block. -/
def execPaConv (a : Nat) (s : State) : Host.Outcome State Fault Refusal :=
  done (onArray s a 0x31 fun s x o =>
    let p := convOf o
    if !shapeOk p.m p.n || bits (xw o 3) 4 0 = 0 || bits (xw o 3) 9 5 = 0 || bits (xw o 3) 53 38 = 0
    then (s, .fail shapeFail) else productWork s x a p)

/-! ### Stores (R250) -/

/-- The fields that PA_STORE and PA_ACCUM_X share (R248 Table 3). -/
structure StoreOp where
  m : Nat
  n : Nat
  fp : Bool
  trans : Bool
  ref : Nat
  d0 : Nat
  d1 : Nat
  row : Nat
  deriving DecidableEq, Repr

/-- Their place in the words. -/
def storeOf (o : ListOp) : StoreOp :=
  { m := bits o.imm 12 0, n := bits o.imm 20 13, fp := bitAt o.imm 29, trans := bitAt o.imm 30, ref := xw o 1
    d0 := bits (xw o 2) 19 0, d1 := bits (xw o 2) 39 20, row := bits (xw o 2) 52 40 }

/-- The window of the destination. -/
def storeWindow (p : StoreOp) : List Int × List Nat :=
  ([(p.d0 : Int), (p.d1 : Int)], if p.trans then [p.n, p.m] else [p.m, p.n])

/-- Accumulator (m, n) of the i-th element a store writes, DIM0 fastest (R230, R250). -/
def storeMN (p : StoreOp) (i : Nat) : Nat × Nat := if p.trans then (i / p.n, i % p.n) else (i % p.m, i / p.m)

/-- The place of accumulator (m, n) in that order. -/
def storePlaceOf (p : StoreOp) (m n : Nat) : Nat := if p.trans then m * p.n + n else n * p.m + m

/-- The destination index of accumulator (m, n) (R250). -/
def storeIdx (p : StoreOp) (m n : Nat) : List Int :=
  if p.trans then [((p.d0 + n : Nat) : Int), ((p.d1 + m : Nat) : Int)]
  else [((p.d0 + m : Nat) : Int), ((p.d1 + n : Nat) : Int)]

/-- The elements of a block: 2048 rows' worth of them in their order (R245), with index and accumulator. -/
def storeBlockElems (p : StoreOp) (blk : Nat) : List (List Int × Nat × Nat) :=
  let lo := blk * 2048 * p.n
  (List.range (min (2048 * p.n) (p.m * p.n - lo))).map fun i =>
    let e := storeMN p (lo + i)
    (storeIdx p e.1 e.2, e.1, e.2)

/-- The staging words that hold the accumulators of a block. -/
def storeReach (p : StoreOp) (blk r w : Nat) : Bool :=
  let lo := blk * 2048 * p.n
  [2 * w, 2 * w + 1].any fun n =>
    p.row ≤ r && r < p.row + p.m && n < p.n && lo ≤ storePlaceOf p (r - p.row) n
      && storePlaceOf p (r - p.row) n < lo + 2048 * p.n

/-- The checks of a store before its first access: shape, rows, descriptor, the format test `fmtOk`, window. -/
def storeChecks (s : State) (x : Run) (a : Nat) (p : StoreOp) (fmtOk : Nat → Bool) : State × Res Operand :=
  if !shapeOk p.m p.n then (s, .fail shapeFail)
  else if !rowsOk x p.row p.m then (s, .fail ⟨4, 0xD7, false⟩)
  else match operand s (agentOf x (some a)) p.ref true with
  | (s, .fail f) => (s, .fail f)
  | (s, .ok d) =>
    if !fmtOk d.lay.fmt then (s, .fail ⟨6, 0x33, false⟩)
    else if !windowOk d (storeWindow p).1 (storeWindow p).2 then (s, .fail ⟨4, 0xD5, false⟩)
    else (s, .ok d)

/-- One block of a store, after the words it reads are found sound: `put` writes the elements with their values. -/
def storeStep (s : State) (x : Run) (a : Nat) (p : StoreOp) (blk : Nat)
    (put : State → List (List Int × Nat) → State × Option Fail) : State × Res (List (List Nat)) :=
  match senseWords s (agentOf x (some a)) a (storeReach p blk) with
  | (s, some _) => (s, .fail poisonFail)
  | (s, none) =>
    match put s ((storeBlockElems p blk).map fun e => (e.1, accRead s a x.fn (p.row + e.2.1) e.2.2)) with
    | (s, some f) => (s, .fail f)
    | (s, none) => (s, .ok [])

/-- The work of a store (R245). -/
def storeWork (x : Run) (a : Nat) (p : StoreOp) (put : State → List (List Int × Nat) → State × Option Fail) : PaWork :=
  { n := p.n, row := p.row, rows := p.m, total := divUp p.m 2048
    block := fun s b _ _ => storeStep s x a p b put }

/-- Accumulators pass through a destination's transform (R250). -/
def putStored (g : Agent) (d : Operand) (q : Option Operand) (fp : Bool) (s : State) (l : List (List Int × Nat)) :
    State × Option Fail :=
  match storeAccs s g d q (l.map fun e => (e.1, if fp then AccVal.fp e.2 else AccVal.int (sext 32 e.2))) 0 with
  | (s, .fail f) => (s, some f)
  | (s, .ok _) => (s, none)

/-- PA_STORE (R250): one block. -/
def execPaStore (a : Nat) (s : State) : Host.Outcome State Fault Refusal :=
  done (onArray s a 0x32 fun s x o =>
    let p := storeOf o
    match storeChecks s x a p (fun _ => true) with
    | (s, .fail f) => (s, .fail f)
    | (s, .ok d) =>
      match scaleOperand s (agentOf x (some a)) d (!p.fp) with
      | (s, .fail f) => (s, .fail f)
      | (s, .ok q) => (s, .ok (storeWork x a p (putStored (agentOf x (some a)) d q p.fp))))

/-- The FP32 sum of one element of the regions, in an order that is free (R251). -/
def reduceSum (vals : List Nat) (key : Nat → Nat) : Nat :=
  match (orderBy key vals.length).map fun i => vals.getD i 0 with
  | [] => 0
  | v :: rest => rest.foldl f32Add v

/-- The fields of PA_REDUCE_F (R248 Table 3). -/
structure ReduceOp where
  count : Nat
  row : Nat
  step : Nat
  m : Nat
  n : Nat
  deriving DecidableEq, Repr

/-- Their place in the words. -/
def reduceOf (o : ListOp) : ReduceOp :=
  { count := bits o.imm 4 0, row := bits (xw o 1) 12 0, step := bits (xw o 1) 25 13, m := bits (xw o 2) 12 0
    n := bits (xw o 2) 20 13 }

/-- The first rows of the regions (R251). -/
def reduceRegions (p : ReduceOp) : List Nat := (List.range p.count).map fun j => p.row + j * p.step

/-- Result rows of a block: their COUNT rows each are 2048 at most (R245). -/
def reduceRows (p : ReduceOp) : Nat := 2048 / max 1 p.count

/-- One block of PA_REDUCE_F (R251). -/
def reduceBlock (s : State) (x : Run) (a : Nat) (p : ReduceOp) (blk : Nat) (foreign : List Nat) :
    State × Res (List (List Nat)) :=
  let m0 := blk * reduceRows p
  let mn := min (reduceRows p) (p.m - m0)
  match senseWords s (agentOf x (some a)) a fun r w => (reduceRegions p).any fun q => inRows (q + m0) mn p.n r w with
  | (s, some _) => (s, .fail poisonFail)
  | (s, none) =>
    let c := s.choice
    let before := s
    (useVar ((List.range mn).foldl (fun t i =>
      putAcc t a x.fn (p.row + m0 + i) ((List.range p.n).map fun j =>
        reduceSum ((reduceRegions p).map fun r => accBefore before a foreign (r + m0 + i) j)
          (Config.reduceKey c (i * 128 + j)))) (takeChoice s)) x, .ok [])

/-- PA_REDUCE_F (R251): one block. -/
def execPaReduceF (a : Nat) (s : State) : Host.Outcome State Fault Refusal :=
  done (onArray s a 0x33 fun s x o =>
    let p := reduceOf o
    if !shapeOk p.m p.n || p.count < 2 || 16 < p.count || p.step < p.m then (s, .fail shapeFail)
    else if !(reduceRegions p).all (fun r => rowsOk x r p.m) then (s, .fail ⟨4, 0xD7, false⟩)
    else (s, .ok { n := p.n, row := p.row, rows := (p.count - 1) * p.step + p.m, total := divUp p.m (reduceRows p)
                   block := fun s b _ f => reduceBlock s x a p b f }))

/-- One add of PA_ACCUM_X into a destination element (R252). -/
def accumElem (s : State) (g : Agent) (d : Operand) (fp : Bool) (idx : List Int) (w : Nat) : State × Option Fail :=
  if !inExtents d.lay idx then (s, none)
  else match xlate s g (elemAt d.lay (idx.map Int.toNat) / 2) true with
  | (s, .fail f) => (s, some f)
  | (s, .ok p) =>
    if p.tgt ≠ 1 && p.tgt ≠ 2 then (s, some ⟨6, 0x34, false⟩)
    else match readPlace s g p 4 0 with
    | (s, .fail f) => (s, some f)
    | (s, .ok b) =>
      match b.poison with
      | q :: _ => (consumed s g q, some poisonFail)
      | [] =>
        let v := ofLe b.bytes
        (storePlace s g p (leBytes 4 (if fp then f32Add v w else (v + w) % 2 ^ 32)), none)

/-- The adds of PA_ACCUM_X up to the first that fails. -/
def accumElems (g : Agent) (d : Operand) (fp : Bool) (s : State) : List (List Int × Nat) → State × Option Fail
  | [] => (s, none)
  | e :: rest =>
    match accumElem s g d fp e.1 e.2 with
    | (s, some f) => (s, some f)
    | (s, none) => accumElems g d fp s rest

/-- PA_ACCUM_X (R252): one block. -/
def execPaAccumX (a : Nat) (s : State) : Host.Outcome State Fault Refusal :=
  done (onArray s a 0x34 fun s x o =>
    let p := storeOf o
    match storeChecks s x a p (fun f => f = if p.fp then 7 else 4) with
    | (s, .fail f) => (s, .fail f)
    | (s, .ok d) => (useVar s x, .ok (storeWork x a p (accumElems (agentOf x (some a)) d p.fp))))

/-! ### Batches (R257 to R260) -/

/-- W of a batch: its descriptor as read at the grant, with the checks of a load. -/
def batchW (x : Run) : Res Operand :=
  match x.colFail with
  | some (st, res, fetch) => .fail ⟨st, res, fetch⟩
  | none =>
    let l := parseLayout x.colDesc
    match layoutBad l false with
    | some c => .fail ⟨4, c, false⟩
    | none => .ok { lay := l, oob := bits x.colB 17 16 % 3 }

/-- ACC_ROW of a batch, and MTILE with 0 acting as 1. -/
def batchRow (x : Run) : Nat := bits x.colB 31 19
/-- See batchRow. -/
def batchTile (x : Run) : Nat := max 1 (bits x.colC 12 0)

/-- A request of a batch after its checks: slot, X, Y and Y's scale. -/
structure Request where
  k : Nat
  x : Operand
  y : Operand
  scale : Option Operand
  deriving DecidableEq, Repr

/-- The checks of one request (R258, R246): descriptors, formats, windows, scale. -/
def checkRequest (s : State) (x : Run) (a : Nat) (e : Nat × Nat × Nat) : State × Res Request :=
  match batchW x with
  | .fail f => (s, .fail f)
  | .ok w =>
    let k := w.lay.dims.getD 0 0
    let m := w.lay.dims.getD 1 0
    if !rowsOk x (batchRow x) (min (batchTile x) m) then (s, .fail ⟨4, 0xD7, false⟩)
    else match operand s (agentOf x (some a)) e.2.1 false with
    | (s, .fail f) => (s, .fail f)
    | (s, .ok ox) =>
      match operand s (agentOf x (some a)) e.2.2 true with
      | (s, .fail f) => (s, .fail f)
      | (s, .ok oy) =>
        if !pairOk w.lay.fmt ox.lay.fmt then (s, .fail ⟨6, 0x33, false⟩)
        else if !windowOk ox [0] [k] || !windowOk oy [0] [m] then (s, .fail ⟨4, 0xD5, false⟩)
        else match scaleOperand s (agentOf x (some a)) oy (!floatPair w.lay.fmt) with
        | (s, .fail f) => (s, .fail f)
        | (s, .ok q) => (s, .ok { k := e.1, x := ox, y := oy, scale := q })

/-- The batch loses column j and those after it: request j completes with its failure (R258). So it does when an access of
that request fails later, where the spec says only that no request's result depends on another's (R259; DEDUCED, log entry
29). -/
def cutBatch (s : State) (x : Run) (j : Nat) (f : Fail) : State :=
  modRun s x.id fun y => { y with
    batch := y.batch.take j
    reqFail := some ((x.batch.getD j (0, 0, 0)).1, f.status, f.result, if f.fetch then 0xFFFF else 2) }

/-- The requests that pass, up to the first that fails with its failure. -/
def checkRequests (s : State) (x : Run) (a : Nat) :
    List (Nat × Nat × Nat) → List Request → State × List Request × Option Fail
  | [], acc => (s, acc, none)
  | e :: rest, acc =>
    match checkRequest s x a e with
    | (s, .ok r) => checkRequests s x a rest (acc ++ [r])
    | (s, .fail f) => (s, acc, some f)

/-- Read the slice of the X vectors of the requests: what was read, and the failure of the next. -/
def readX (s : State) (g : Agent) (k0 kn : Nat) : List Request → List (List Nat) → State × List (List Nat) × Option Fail
  | [], acc => (s, acc, none)
  | r :: rest, acc =>
    match readElems s g r.x ((List.range kn).map fun (i : Nat) => [((k0 + i : Nat) : Int)]) [] with
    | (s, .ok v) => readX s g k0 kn rest (acc ++ [v])
    | (s, .fail f) => (s, acc, some f)

/-- Store rows of the requests' columns, each through its Y (R259), from element t on; the column that fails ends it. -/
def storeY (s : State) (x : Run) (a row t n : Nat) (fp : Bool) : List Request → Nat → State × Option (Nat × Fail)
  | [], _ => (s, none)
  | r :: rest, j =>
    let accs := (List.range n).map fun (i : Nat) =>
      let w := accRead s a x.fn (row + i) j
      ([((t + i : Nat) : Int)], if fp then AccVal.fp w else AccVal.int (sext 32 w))
    match storeAccs s (agentOf x (some a)) r.y r.scale accs 0 with
    | (s, .fail f) => (s, some (j, f))
    | (s, .ok _) => storeY s x a row t n fp rest (j + 1)

/-- Where block `blk` of a batch lies: the first row of its tile of W, the rows of that tile, and the number of the block
in the tile; a tile's stores follow its products, 2048 rows each (R245, R259). -/
def batchAt (fa fb m k mtile blk : Nat) : Nat × Nat × Nat :=
  let c := blocksOf fa fb mtile k + divUp mtile 2048
  (blk / c * mtile, min mtile (m - blk / c * mtile), blk % c)

/-- Blocks of a batch. -/
def batchBlocks (fa fb m k mtile : Nat) : Nat :=
  let rest := m % mtile
  m / mtile * (blocksOf fa fb mtile k + divUp mtile 2048)
    + if rest = 0 then 0 else blocksOf fa fb rest k + divUp rest 2048

/-- A product block of a batch: the rows of W stream through the requests' X vectors (R259). A failed access to an X costs
its request and those after it their columns, one to W all of them. -/
def batchProduct (s : State) (x : Run) (a : Nat) (w : Operand) (reqs : List Request) (t tn blk : Nat)
    (tile : List (List Nat)) : State × List (List Nat) × Option (Nat × Fail) :=
  let g := agentOf x (some a)
  let fa := w.lay.fmt
  let fb := match reqs with | r :: _ => r.x.lay.fmt | [] => fa
  let (k0, kn, m0, mn) := blockOf fa fb tn (w.lay.dims.getD 0 0) blk
  let (s, vb, bad) := if m0 = 0 then readX s g k0 kn reqs [] else (s, tile, none)
  match readVecs s g w ((List.range mn).map fun r => (List.range kn).map fun i =>
      [((k0 + i : Nat) : Int), ((t + m0 + r : Nat) : Int)]) [] with
  | (s, .fail f) => (s, vb, some (0, f))
  | (s, .ok va) =>
    match (if k0 = 0 then (s, none) else senseWords s g a (inRows (batchRow x + m0) mn vb.length)) with
    | (s, some c) => (s, vb, some (c, poisonFail))
    | (s, none) =>
      let s := storeBlock s x a (batchRow x + m0) (k0 = 0) fa (fun j => ((reqs.map fun r => r.x.lay.fmt).getD j 0)) [] va vb
      (s, vb, bad.map fun f => (vb.length, f))

/-- A store block of a batch: 2048 rows of the tile, for each request. -/
def batchStore (s : State) (x : Run) (a : Nat) (w : Operand) (reqs : List Request) (t tn blk : Nat) :
    State × Option (Nat × Fail) :=
  let m0 := blk * 2048
  let n := min 2048 (tn - m0)
  match senseWords s (agentOf x (some a)) a (inRows (batchRow x + m0) n reqs.length) with
  | (s, some c) => (s, some (c, poisonFail))
  | (s, none) => storeY s x a (batchRow x + m0) (t + m0) n (floatPair w.lay.fmt) reqs 0

/-- One block of a batch: the tile it leaves, and the column that failed. -/
def batchBlock (s : State) (x : Run) (a : Nat) (w : Operand) (reqs : List Request) (blk : Nat) (tile : List (List Nat)) :
    State × List (List Nat) × Option (Nat × Fail) :=
  let fa := w.lay.fmt
  let fb := match reqs with | r :: _ => r.x.lay.fmt | [] => fa
  let k := w.lay.dims.getD 0 0
  let (t, tn, b) := batchAt fa fb (w.lay.dims.getD 1 0) k (batchTile x) blk
  let p := blocksOf fa fb tn k
  if b < p then batchProduct s x a w reqs t tn b tile
  else
    let (s, bad) := batchStore s x a w reqs t tn (b - p)
    (s, tile, bad)

/-- The next block of a batch whose requests have passed, on its columns. A batch that has lost every column ends. -/
def runBatch (s : State) (x : Run) (a : Nat) (g : Seg) (w : Operand) (reqs : List Request) : State :=
  let (blk, tile, _) := paAt g
  let n := match g.phase with | .pa _ n _ _ => n | _ => reqs.length
  let fb := match reqs with | r :: _ => r.x.lay.fmt | [] => w.lay.fmt
  withCols (beginPa s x a g n []) x a n fun s =>
    match batchBlock s x a w reqs blk tile with
    | (s, t, bad) =>
      let s := match bad with | some (j, f) => cutBatch s x j f | none => s
      let left := match bad with | some (j, _) => j | none => reqs.length
      if left = 0 then advance s x a
      else endBlock s x a (batchBlocks w.lay.fmt fb (w.lay.dims.getD 1 0) (w.lay.dims.getD 0 0) (batchTile x)) blk n
        (t.take left) []

/-- The batch of an array: every request is checked before the first block; the failing one and those after it take no
column, and the rest run (R258). -/
def stepBatch (s : State) (x : Run) (a : Nat) (g : Seg) : State :=
  let (s, reqs, bad) := checkRequests s x a x.batch []
  let s := match bad with | some f => cutBatch s x reqs.length f | none => s
  match findRun s x.id, batchW x with
  | some x, .ok w => if reqs.isEmpty then advance s x a else runBatch s x a g w reqs
  | some x, .fail _ => advance s x a
  | none, _ => s

/-- A PA_COLLECT in a list that is no batch fails with NO_COLLECTOR (R260). -/
def collectAlone (s : State) : State :=
  match s.runs.find? fun x => x.cls = 2 && x.cause.isNone && x.loose.any fun l => l.opc = 0x35 with
  | none => s
  | some x =>
    match x.loose.find? fun l => l.opc = 0x35 with
    | none => s
    | some o => stopRun (modRun s x.id fun y => { y with loose := [] }) x.id (.failed 6 0x30 o.idx 0)

/-- PA_COLLECT (R258 to R260): array a runs a block of its batch, or the oldest list with a PA_COLLECT outside one fails. -/
def execPaCollect (a : Nat) (s : State) : Host.Outcome State Fault Refusal :=
  done (
    match paReady s a 0x35 with
    | some (x, g, _) => stepBatch s x a g
    | none => collectAlone s)

/-! ### Preemption (R192, R194, R263) -/

/-- PREEMPT_HANDOVER (R263): at a block boundary a queued radio segment takes the array from an inference or background
segment; both ramps are radio steps. A ramp that still waits for its ledger has not begun and is withdrawn (DESIGN CHOICE,
log entry 17). -/
def execPreemptHandover (a : Nat) (s : State) : Host.Outcome State Fault Refusal :=
  done (
    match (if a < 8 && s.power.shed = 0 then holding s a else none), radioNext s a with
    | some (x, _), some (y, h) =>
      if x.prio < 2 || rampRuns s a then s
      else
        let s := modSeg s x.id a fun g => { g with preempted := true }
        let z := arrOf s a
        let s := setArr s a { z with
          preempted := true, handovers := satInc 0xFFFFFFFF z.handovers, occupant := 2, func := y.fn, holder := some y.id }
        let s := arrive (setFlag s (3200 + a)) (480 + a)
        let s := requestCols (withdrawCols s a) a 0 true
        settleUnit (rampFor s a y h true) 2 a
    | _, _ => s)

/-- PREEMPT_RESUME (R194): the preempted segment goes on once no radio segment is queued. -/
def execPreemptResume (a : Nat) (s : State) : Host.Outcome State Fault Refusal :=
  done (
    if a < 8 && s.power.shed = 0 && (holding s a).isNone && (radioNext s a).isNone then
      match preemptedOn s a with
      | none => s
      | some (x, _) =>
        let s := modSeg s x.id a fun g => { g with preempted := false }
        let z := arrOf s a
        let s := setArr s a { z with preempted := false, occupant := 1, func := x.fn, holder := some x.id }
        match holding s a with
        | some (x, g) => settleUnit (rampFor s a x g false) 2 a
        | none => s
    else s)

end Sys2Proof.Machine
end

