-- ==== Sys2Proof/Machine/Tiles.lean ====
section
/-! DEFINITION. Tile memories as their units reach them (R268 to R270), and the tile matrix unit (R287, R288). -/
namespace Sys2Proof.Machine

/-- A range lies in a part of the tile address space (R268 Table 1). -/
def inPart (lo hi a n : Nat) : Bool := lo ≤ a && a + n ≤ hi

/-- DM0, DM1 and the tile buffer: what TVCs and the tile DMA may write. A range does not cross from one region into the
next, except that the three lie one behind the other. -/
def tileWritable (a n : Nat) : Bool := inPart 0 0x80000 a n

/-- What the tile matrix unit may read: also the Maquette cache. -/
def tmuReadable (a n : Nat) : Bool := inPart 0 0x90000 a n

/-- What a TVC may read: also the TMU accumulators. -/
def tvcReadable (a n : Nat) : Bool := inPart 0 0x91000 a n

/-- A list notes the 4 KiB units of tile memory it wrote (R189). -/
def noteUnits (s : State) (x : Run) (t a n : Nat) : State :=
  if n = 0 then s
  else modRun s x.id fun y => { y with
    tiles := (List.range ((a + n - 1) / 4096 + 1 - a / 4096)).foldl (fun l i => insertNew (t * 256 + a / 4096 + i) l) y.tiles }

/-- A list's segment stores bytes in its tile (R269). -/
def segStore (s : State) (x : Run) (t a : Nat) (bytes : List Byte) : State :=
  noteUnits (tileStore s t a bytes (x.fn + 1)) x t a bytes.length

/-- A parity error of the Maquette cache: the 64 B are read again from the bound table as it stands (R270, R311). -/
def refetch (s : State) (t line : Nat) : State :=
  let x := tileOf s t
  let s := setTile s t { x with
    mq := satInc 0xFFF x.mq, cell := x.cell.filter fun e => !(8 * line ≤ e.1 && e.1 < 8 * line + 8) }
  match tblGet? x.src line with
  | none => s
  | some (c, va) =>
    match readUse s { ctx := c, cls := 0 } va 64 with
    | (s, .ok b) => let y := tileOf s t
                    setTile s t { y with mem := putBytes y.mem (64 * line) b }
    | (s, .fail _) => s

/-- The error of one 64-bit word is found by a read (R270). -/
def senseWord (s : State) (t : Nat) (e : Nat × Nat) : State :=
  let x := tileOf s t
  if 0x80000 ≤ 8 * e.1 then refetch s t (e.1 / 8)
  else match e.2 with
  | 1 =>
    let c := satInc 0xFFF x.ce
    let s := setTile s t { x with ce := c }
    if c = x.ce then s else corrected s 0 t c
  | 2 => countUe (setTile s t { x with ue := satInc 0xFF x.ue }) 0 t
  | _ => s

/-- A segment of a function reads its tile: an uncorrectable word fails it with TILE_MEM_UE (R269, R270). -/
def tileFetch (s : State) (t fn a n : Nat) : State × Res (List Byte) :=
  let hit := (tileOf s t).cell.filter fun e => 8 * e.1 < a + n && a < 8 * e.1 + 8
  let s := hit.foldl (fun s e => senseWord s t e) s
  if hit.any fun e => e.2 = 2 && 8 * e.1 < 0x80000 then (s, .fail ⟨6, 0x17, false⟩)
  else (s, .ok (bytesAt (tileRead s t fn) a n))

/-! ### The tile matrix unit -/

/-- Words of TMU_RUN (R287 Table 8). -/
structure TmuOp where
  cint : Bool
  modeOk : Bool
  init : Bool
  store : Bool
  k : Nat
  aAddr : Nat
  bAddr : Nat
  m : Nat
  n : Nat
  ref : Nat
  d0 : Nat
  d1 : Nat
  deriving DecidableEq, Repr

/-- Their place. -/
def tmuOf (o : ListOp) : TmuOp :=
  let w1 := xw o 1
  let w2 := xw o 2
  { cint := bits o.imm 1 0 = 1, modeOk := bits o.imm 1 0 < 2, init := bitAt o.imm 2, store := bitAt o.imm 3
    k := bits o.imm 31 16, aAddr := bits w1 19 0, bAddr := bits w1 39 20, m := bits w1 45 40, n := bits w1 51 46
    ref := bits w2 17 0, d0 := bits w2 37 18, d1 := bits w2 57 38 }

/-- The extents lie in Table 8. -/
def tmuShapeOk (p : TmuOp) : Bool :=
  let lim := if p.cint then 16 else 32
  p.modeOk && 1 ≤ p.k && 1 ≤ p.m && p.m ≤ lim && 1 ≤ p.n && p.n ≤ lim

/-- Bytes of an operand element. -/
def tmuSize (p : TmuOp) : Nat := if p.cint then 4 else 1

/-- Tile address of an accumulator part (R288). -/
def tmuAcc (p : TmuOp) (m n part : Nat) : Nat := 0x90000 + 128 * m + (if p.cint then 8 * n + 4 * part else 4 * n)

/-- Component `part` of element i of packed bytes. -/
def tmuElem (p : TmuOp) (b : List Byte) (i part : Nat) : Int :=
  if p.cint then sext 16 (ofLe (sub b (4 * i + 2 * part) 2)) else sext 8 (ofLe (sub b i 1))

/-- The sum of products of row m of A and row n of B, real or imaginary part. -/
def tmuSum (p : TmuOp) (a b : List Byte) (m n part : Nat) : Int :=
  ((List.range p.k).map fun j =>
    let x := m * p.k + j
    let y := n * p.k + j
    if !p.cint then tmuElem p a x 0 * tmuElem p b y 0
    else if part = 0 then tmuElem p a x 0 * tmuElem p b y 0 - tmuElem p a x 1 * tmuElem p b y 1
    else tmuElem p a x 0 * tmuElem p b y 1 + tmuElem p a x 1 * tmuElem p b y 0).sum

/-- The value of an accumulator part. -/
def tmuRead (s : State) (t : Nat) (p : TmuOp) (m n part : Nat) : Int :=
  sext 32 (ofLe (bytesAt (tileByte s t) (tmuAcc p m n part) 4))

/-- The accumulators of a tile are the function's own: a TMU_RUN after another function's starts all of them from zero
(R269). -/
def claimAccs (s : State) (t fn : Nat) : State :=
  let y := tileOf s t
  let zero := othersTile s t fn 0x90000
  setTile s t { y with
    tmuFn := some fn, mem := if zero then putBytes y.mem 0x90000 (List.replicate 4096 0) else y.mem }

/-- The accumulators after the sums. -/
def tmuRunAccs (s : State) (x : Run) (t : Nat) (p : TmuOp) (a b : List Byte) : State :=
  let parts := if p.cint then [0, 1] else [0]
  let s := claimAccs s t x.fn
  let mem := (List.range p.m).foldl (fun mem m => (List.range p.n).foldl (fun mem n => parts.foldl (fun mem q =>
    let old := if p.init then 0 else tmuRead s t p m n q
    putBytes mem (tmuAcc p m n q) (leBytes 4 (trunc 32 (old + tmuSum p a b m n q)))) mem) mem) (tileOf s t).mem
  noteUnits (setTile s t { tileOf s t with mem := mem }) x t 0x90000 4096

/-- The accumulators stored through the destination (R288): a saturation sets DETAIL[1] (R289). -/
def tmuStore (s : State) (x : Run) (u idx t : Nat) (p : TmuOp) (d : Operand) (q : Option Operand) : State :=
  let accs := (List.range p.n).flatMap fun n => (List.range p.m).map fun m =>
    ([((p.d0 + m : Nat) : Int), ((p.d1 + n : Nat) : Int)],
     if p.cint then AccVal.cint (tmuRead s t p m n 0) (tmuRead s t p m n 1) else AccVal.int (tmuRead s t p m n 0))
  match storeAccs s (agentOf x (some u)) d q accs 0 with
  | (s, .fail f) => failWith s x u idx f
  | (s, .ok n) => advance (if n = 0 then s else modRun s x.id fun y => { y with detail := y.detail ||| 2 }) x u

/-- The destination of a TMU_RUN with its checks; none without STORE. -/
def tmuDest (s : State) (x : Run) (u : Nat) (p : TmuOp) : State × Res (Option (Operand × Option Operand)) :=
  if !p.store then (s, .ok none)
  else match operand s (agentOf x (some u)) p.ref true with
  | (s, .fail f) => (s, .fail f)
  | (s, .ok d) =>
    if !windowOk d [(p.d0 : Int), (p.d1 : Int)] [p.m, p.n] then (s, .fail ⟨4, 0xD5, false⟩)
    else match scaleOperand s (agentOf x (some u)) d (!p.cint) with
    | (s, .fail f) => (s, .fail f)
    | (s, .ok q) => (s, .ok (some (d, q)))

/-- One TMU_RUN whose shape is right. -/
def runTmu (s : State) (x : Run) (u t idx : Nat) (p : TmuOp) : State :=
  let na := p.m * p.k * tmuSize p
  let nb := p.n * p.k * tmuSize p
  if !tmuReadable p.aAddr na || !tmuReadable p.bAddr nb then failResult s x u idx 0x11
  else match tmuDest s x u p with
  | (s, .fail f) => failWith s x u idx f
  | (s, .ok d) =>
    match tileFetch s t x.fn p.aAddr na with
    | (s, .fail f) => failWith s x u idx f
    | (s, .ok a) =>
      match tileFetch s t x.fn p.bAddr nb with
      | (s, .fail f) => failWith s x u idx f
      | (s, .ok b) =>
        let s := tmuRunAccs s x t p a b
        match d with
        | none => advance s x u
        | some (d, q) => tmuStore s x u idx t p d q

/-- TMU_RUN (R287, R288): with STORE an unconfirmed list waits at the barrier. The unit is a tile's matrix unit; another
RX unit holds none (R168 Table 3). -/
def execTmuRun (u : Nat) (s : State) : Host.Outcome State Fault Refusal :=
  done (onOp s 0 u 0x11 fun x _ o =>
    let p := tmuOf o
    if u < 128 then failResult s x u o.idx 0xC5
    else if p.store && barred s x then s
    else if !tmuShapeOk p then failResult s x u o.idx 0x16
    else runTmu s x u (u % 64) o.idx p)

/-! ### Converter transmit (R384) -/

/-- Bytes that a converter reads in a tile, the reads sensed as any other; it serves no list that an uncorrectable word could
fail, and what it then reads is free (R270; DESIGN CHOICE, log entry 64). -/
def txFetch (s : State) (t fn a n : Nat) : State × List Byte :=
  match tileFetch s t fn a n with
  | (s, .ok b) => (s, b)
  | (s, .fail _) => (takeChoice s, (List.range n).map fun i => BitVec.ofNat 8 (Config.freeFor 11 [s.choice, i]))

/-- TX.AREA and TX.DEPTH, 0 acting as 14. -/
def txArea (s : State) (k : Nat) : Nat := fld s (linkReg k 0x28) 5 0
/-- See txArea. -/
def txDepth (s : State) (k : Nat) : Nat := let d := fld s (linkReg k 0x28) 11 8; if d = 0 then 14 else d

/-- The header tag of every tile names the slot, and the symbol's READY bit is set (R384). -/
def txReady (s : State) (k : Nat) (x : CvLink) (p : Placed) (sfn slot sym : Nat) : State × Bool :=
  let base := areaBase p (txArea s k) (txDepth s k) (slot % 2)
  (plTiles p).foldl (fun z t =>
    let (s, tag) := txFetch z.1 t x.fn (base + 16) 4
    let (s, ready) := txFetch s t x.fn (base + sym) 1
    (s, z.2 && ofLe tag % 2 ^ 17 = sfn + slot * 1024 && bitAt (ofLe ready) 0)) (s, true)

/-- The CINT16 values that bytes hold. -/
def cintValues (b : List Byte) : Nat → List (Int × Int)
  | 0 => []
  | n + 1 => (sext 16 (ofLe (sub b 0 2)), sext 16 (ofLe (sub b 2 2))) :: cintValues (b.drop 4) n

/-- The samples of one stream of a transmit symbol, its cyclic prefix first (R384). -/
def txStream (s : State) (k : Nat) (x : CvLink) (p : Placed) (slot sym stream : Nat) : State × List (Int × Int) :=
  let n := plNprb p * 12
  let (s, b) := txFetch s (streamTile p stream) x.fn (reAddr p (txArea s k) (txDepth s k) slot sym stream 0 0) (4 * n)
  let body := (List.range (nrNfft x p)).map (Config.ifft (cintValues b n) (nrNfft x p) (fld s (linkReg k 0x28) 19 16))
  (s, body.drop (body.length - cpSamples x (plMu p) slot sym) ++ body)

/-- The samples of all streams. -/
def txSamples (s : State) (k : Nat) (x : CvLink) (p : Placed) (slot sym : Nat) : State × List (Int × Int) :=
  (List.range (plStreams p)).foldl (fun z i =>
    let (s, l) := txStream z.1 k x p slot sym i
    (s, z.2 ++ l)) (s, [])

/-- A transmit symbol of a running link (R384): zeros and TX_UNDERRUN when it is not ready. -/
def sendSymbol (s : State) (k sfn slot sym : Nat) : State :=
  let x := linkOf s k
  let p := slotPl s (cvCarrier x) sfn slot
  let (s, ready) := txReady s k x p sfn slot sym
  if ready then
    let (s, l) := txSamples s k x p slot sym
    setLink s k { linkOf s k with tx := l }
  else
    let n := nrNfft x p + cpSamples x (plMu p) slot sym
    setFlag (setLink s k { linkOf s k with
      tx := List.replicate (plStreams p * n) (0, 0), underrun := satInc 65535 x.underrun }) (2328 + k)

/-- TX_SYMBOL (R384), then the symbol boundary. -/
def execTxSymbol (k sfn slot sym : Nat) (s : State) : Host.Outcome State Fault Refusal :=
  done (
    let x := linkOf s k
    if x.st = 3 && !cvBurst x && bitAt x.dir 1 && sym < 14 then symbolBoundary (sendSymbol s k sfn slot sym) k else s)

end Sys2Proof.Machine
end

