-- ==== Sys2Proof/Machine/Tvc.lean ====
section
/-! DEFINITION. The tile vector core: decoding of bundles, registers, address generators, loops and branches, and the
start and end of TVC_RUN (R274 to R286). One command executes one slot of a bundle. -/
namespace Sys2Proof.Machine

/-! ### Slot formats (R280 Tables 4 and 5) -/

/-- Fields of format V. -/
def vFields (w : Nat) : VOperands :=
  { t := bitAt w 25, vd := bits w 24 20, va := bits w 19 15, vb := bits w 14 10, k := bits w 9 4, f := bits w 3 0 }

/-- Fields of format M. -/
def mFields (l1 : Bool) (w : Nat) : MOperands :=
  { l1 := l1, vr := bits w 25 21, p := bits w 20 18, o := bits w 17 15, mode := bits w 14 13, imm := bits w 12 0 }

/-- A scalar-slot instruction of TVC v of tile t. -/
def decodeScalar (t v w : Nat) : Option Instr :=
  let sd := bits w 25 22
  let sa := bits w 21 18
  let sb := bits w 17 14
  let imm := bits w 13 0
  match bits w 31 26 with
  | 0x00 => some (.tvcNop t v 0)
  | 0x01 => some (.tvcLi t v sd imm)
  | 0x02 => some (.tvcLih t v sd imm)
  | 0x03 => some (.tvcAdd t v sd sa sb)
  | 0x04 => some (.tvcAddi t v sd sa imm)
  | 0x05 => some (.tvcSub t v sd sa sb)
  | 0x06 => some (.tvcAnd t v sd sa sb)
  | 0x07 => some (.tvcOr t v sd sa sb)
  | 0x08 => some (.tvcShl t v sd sa sb)
  | 0x09 => some (.tvcShr t v sd sa sb)
  | 0x0A => some (.tvcLoop t v (bits w 25 22) (bits w 21 12) (bits w 11 0))
  | 0x0B => some (.tvcBnz t v sa imm)
  | 0x0C => some (.tvcMovp t v (bits w 25 21) (bits w 20 17))
  | 0x0D => some (.tvcSetrm t v imm)
  | 0x0E => some (.tvcRdcyc t v sd)
  | 0x10 => some (.tvcDma t v sa)
  | 0x11 => some (.tvcDmaw t v)
  | 0x3F => some (.tvcEnd t v)
  | _ => none

/-- A vector-slot instruction. -/
def decodeVector (t v w : Nat) : Option Instr :=
  let o := vFields w
  match bits w 31 26 with
  | 0x00 => some (.tvcNop t v 1)
  | 0x01 => some (.tvcVadd t v o)
  | 0x02 => some (.tvcVsub t v o)
  | 0x03 => some (.tvcVcmul t v o)
  | 0x04 => some (.tvcVmag t v o)
  | 0x05 => some (.tvcVsta t v o)
  | 0x06 => some (.tvcVrcp t v o)
  | 0x07 => some (.tvcVmov t v o)
  | 0x08 => some (.tvcVbcst t v o)
  | 0x09 => some (.tvcVmax t v o)
  | 0x0A => some (.tvcVmin t v o)
  | 0x0B => some (.tvcVclip t v o)
  | 0x0C => some (.tvcVpack8 t v o)
  | 0x10 => some (.tvcCsel t v o)
  | _ => none

/-- A memory-slot instruction; slot 2 is L0 and slot 3 is L1. -/
def decodeMemory (t v slot w : Nat) : Option Instr :=
  let o := mFields (slot = 3) w
  match bits w 31 26 with
  | 0x00 => some (.tvcNop t v slot)
  | 0x01 => some (.tvcLd t v o)
  | 0x02 => some (.tvcSt t v o)
  | 0x03 => some (.tvcLdb t v o)
  | _ => none

/-- The instruction that a slot's word holds; none for TVC_ILLEGAL. -/
def tvcDecode (t v slot w : Nat) : Option Instr :=
  if slot = 0 then decodeScalar t v w else if slot = 1 then decodeVector t v w else decodeMemory t v slot w

/-! ### Registers -/

/-- A TVC of a tile. -/
def tvcOf (s : State) (t v : Nat) : Tvc := if v = 0 then (tileOf s t).tvc0 else (tileOf s t).tvc1

/-- Put a TVC of a tile. -/
def setTvc (s : State) (t v : Nat) (c : Tvc) : State :=
  let x := tileOf s t
  setTile s t (if v = 0 then { x with tvc0 := c } else { x with tvc1 := c })

/-- A scalar register; s0 reads 0 (R274). -/
def sreg (r : TvcRegs) (i : Nat) : Nat := if i = 0 then 0 else (tblGet 0 r.s i).toNat

/-- Write a scalar register; s0 ignores writes. -/
def putS (r : TvcRegs) (i v : Nat) : TvcRegs := if i = 0 then r else { r with s := tblSet 0 r.s i (BitVec.ofNat 32 v) }

/-- A vector register's 32 real components. -/
def vparts (r : TvcRegs) (i : Nat) : List Int :=
  let w := (tblGet 0 r.v i).toNat
  (List.range 32).map fun j => sext 16 (w / 2 ^ (16 * j))

/-- An accumulator's 32 parts of 40 bits. -/
def aparts (r : TvcRegs) (i : Nat) : List Int :=
  let w := (tblGet 0 r.a i).toNat
  (List.range 32).map fun j => sext 40 (w / 2 ^ (40 * j))

/-- Parts of n bits as one word. -/
def packParts (n : Nat) (l : List Int) : Nat := l.foldr (fun x w => trunc n x + 2 ^ n * w) 0

/-- Write an accumulator. -/
def putA (c : Tvc) (i : Nat) (l : List Int) : Tvc :=
  { c with new := { c.new with a := tblSet 0 c.new.a i (BitVec.ofNat 1280 (packParts 40 l)) } }

/-- Write a vector register with the latency of the write. Of two writes of one bundle the later in time stands (R279);
between writes that fall together either may, the same one in every run (R180): the choice is free. -/
def putV (c : Tvc) (i lat : Nat) (w : Nat) : Tvc :=
  let stands := match c.wrote.reverse.find? (fun e => e.1 = i) with
    | some e => e.2 < lat || (e.2 = lat && bitAt (Config.freeFor 6 [i, lat]) 0)
    | none => true
  if stands then
    { c with wrote := c.wrote ++ [(i, lat)], new := { c.new with v := tblSet 0 c.new.v i (BitVec.ofNat 512 w) } }
  else c

/-- Saturate to n bits; the flag says that it changed the value. -/
def satParts (n : Nat) (l : List Int) : List Int × Bool :=
  let lim : Int := ((2 ^ (n - 1) : Nat) : Int)
  let r := l.map fun x => clampInt (-lim) (lim - 1) x
  (r, r ≠ l)

/-- SAT is sticky. -/
def noteSat (c : Tvc) (b : Bool) : Tvc := if b then { c with new := { c.new with sat := true } } else c

/-- next of R277: pointer i moved by d bytes. -/
def nextPtr (r : TvcRegs) (i : Nat) (d : Int) : BitVec 20 :=
  let p : Int := (tblGet 0 r.p i).toNat
  let l : Int := (tblGet 0 r.l i).toNat
  let b : Int := (tblGet 0 r.b i).toNat
  if l = 0 then BitVec.ofInt 20 (p + d) else BitVec.ofInt 20 (b + (p + d - b).emod l)

/-- Effective address of a memory slot (R277 Table 3). -/
def memAddr (r : TvcRegs) (o : MOperands) : Nat :=
  let p := tblGet 0 r.p o.p
  (if o.mode = 2 then p + tblGet 0 r.o o.o else p).toNat

/-- The pointer update of a memory slot: in L1 it stands over L0's; against a MOVP of the bundle to the same pointer
either may stand, the same one in every run (R180). -/
def memUpdate (c : Tvc) (o : MOperands) : Tvc :=
  let d : Option Int := match o.mode with
    | 1 => some (tblGet 0 c.old.o o.o).toInt
    | 3 => some (4 * sext 13 o.imm)
    | _ => none
  match d with
  | none => c
  | some d =>
    if c.moved = some o.p && bitAt (Config.freeFor 7 [o.p, b2n o.l1]) 0 then c
    else { c with new := { c.new with p := tblSet 0 c.new.p o.p (nextPtr c.old o.p d) } }

/-! ### The course of a program -/

/-- What a slot does. -/
inductive SlotEffect where
  | go (c : Tvc)
  /-- the slot waits (R282, R280) -/
  | stall
  | fail (result : Nat)
  deriving DecidableEq, Repr

/-- Unit number of a TVC. -/
def tvcUnit (t v : Nat) : Nat := t + 64 * v

/-- The program that a TVC runs, with its list and TVC_RUN. A TVC program has no stop point. -/
def tvcLive (s : State) (t v : Nat) : Option (Run × ListOp) :=
  match current s 0 (tvcUnit t v) with
  | some (x, g) =>
    match g.ops with
    | o :: _ => if g.phase = .tvc && (tvcOf s t v).active && (instOf s t).run then some (x, o) else none
    | [] => none
  | none => none

/-- A TVC_RUN fails. -/
def tvcFail (s : State) (x : Run) (o : ListOp) (t v : Nat) (f : Fail) : State :=
  failOp (setTvc s t v { tvcOf s t v with active := false, dmas := [] }) x (tvcUnit t v) f.status f.result o.idx

/-- The program and its DMAs have ended (R284); SAT = 1 sets DETAIL[0] and counts (R289, R290). -/
def tvcFinish (s : State) (x : Run) (t v : Nat) : State :=
  let c := tvcOf s t v
  let s := setTvc s t v { c with active := false }
  let s := if c.old.sat then
      let y := tileOf s t
      modRun (setTile s t { y with sats := satInc 0xFFFFFFFF y.sats }) x.id fun r => { r with detail := r.detail ||| 1 }
    else s
  advance s x (tvcUnit t v)

/-- The word of the slot that executes next. -/
def slotWord (c : Tvc) : Nat := (c.words.getD (4 * c.pc + c.slot) 0).toNat

/-- The next slot's instruction must be in Table 4 (R280). -/
def checkSlot (s : State) (x : Run) (o : ListOp) (t v : Nat) : State :=
  let c := tvcOf s t v
  if (tvcDecode t v c.slot (slotWord c)).isNone then tvcFail s x o t v ⟨6, 0x10, false⟩ else s

/-- After a bundle at `pc`: the back edge of every loop whose body ends there, innermost first. -/
def loopNext (pc : Nat) : List LoopLevel → Nat × List LoopLevel
  | [] => (pc + 1, [])
  | l :: rest =>
    if pc = l.last then
      if 1 < l.left then (l.first, { l with left := l.left - 1 } :: rest) else loopNext pc rest
    else (pc + 1, l :: rest)

/-- Where the program goes after a bundle (R280, R281): none for TVC_PC. A taken branch to a target outside the
innermost loops leaves them. -/
def bundleNext (c : Tvc) : Option (Nat × List LoopLevel) :=
  let r : Option (Nat × List LoopLevel) :=
    match c.branch with
    | some b =>
      if b < 0 then none
      else some (b.toNat, c.loops.dropWhile fun l => !(l.first ≤ b.toNat && b.toNat ≤ l.last))
    | none =>
      match c.opened with
      | some l => some (c.pc + 1, l :: c.loops)
      | none => some (loopNext (c.pc + c.skip) c.loops)
  match r with
  | some (p, ls) => if p < c.len then some (p, ls) else none
  | none => none

/-- A bundle ends: its stores are made, its registers stand, and the next bundle follows (R273, R279). -/
def endBundle (s : State) (x : Run) (o : ListOp) (t v : Nat) : State :=
  let c := tvcOf s t v
  let s := c.stores.foldl (fun s e => segStore s x t e.1 e.2) s
  let c := { c with slot := 0, old := c.new, stores := [], wrote := [], moved := none, branch := none, opened := none, skip := 0 }
  if c.ending then
    let s := setTvc s t v c
    if c.dmas.isEmpty then tvcFinish s x t v else s
  else match bundleNext (tvcOf s t v) with
  | none => tvcFail (setTvc s t v c) x o t v ⟨6, 0x13, false⟩
  | some (p, ls) => checkSlot (setTvc s t v { c with pc := p, loops := ls }) x o t v

/-- A slot has executed. -/
def endSlot (s : State) (x : Run) (o : ListOp) (t v : Nat) : State :=
  let c := tvcOf s t v
  if c.slot = 3 then endBundle s x o t v
  else checkSlot (setTvc s t v { c with slot := c.slot + 1 }) x o t v

/-- Execute a slot: the word that the program stands before must hold this instruction. -/
def tvcSlot (s : State) (t v : Nat) (i : Instr) (f : State → Run → Tvc → State × SlotEffect) : State :=
  match tvcLive s t v with
  | none => s
  | some (x, o) =>
    let c := tvcOf s t v
    if (c.ending && c.slot = 0) || tvcDecode t v c.slot (slotWord c) ≠ some i then s
    else match f s x c with
    | (s', .go c) => endSlot (setTvc s' t v c) x o t v
    | (s', .fail r) => tvcFail s' x o t v ⟨6, r, false⟩
    | (_, .stall) => s

/-- A slot that changes the core alone. -/
def tvcPure (s : State) (t v : Nat) (i : Instr) (f : Tvc → Tvc) : State :=
  tvcSlot s t v i fun s _ c => (s, .go (f c))

/-- A scalar instruction that writes sd. -/
def tvcScalar (s : State) (t v sd : Nat) (i : Instr) (f : TvcRegs → Nat) : State :=
  tvcPure s t v i fun c => { c with new := putS c.new sd (f c.old) }

/-! ### TVC_RUN (R284 to R286) -/

/-- Registers at the start: s1 = IMM and s8 to s15 = ARG0 to ARG7. -/
def startRegs (x : Run) (imm : Nat) : TvcRegs :=
  (List.range 8).foldl (fun r i => putS r (8 + i) (argAt x.args i)) (putS {} 1 imm)

/-- 32-bit words of program bytes. -/
def progWords (b : List Byte) : Nat → List W32
  | 0 => []
  | n + 1 => BitVec.ofNat 32 (ofLe (b.take 4)) :: progWords (b.drop 4) n

/-- The program starts at bundle 0. -/
def tvcStart (s : State) (x : Run) (o : ListOp) (t v ext : Nat) : State :=
  let r := startRegs x o.imm
  let c := { tvcOf s t v with
    active := true, extWr := ext, pc := 0, slot := 0, old := r, new := r, stores := [], loops := [], branch := none
    opened := none, skip := 0, ending := false, dmas := [], wrote := [], moved := none }
  checkSlot (setPhase (setTvc s t v c) x (tvcUnit t v) .tvc) x o t v

/-- The program is fetched unless the resident one is the same (R284). -/
def tvcFetch (s : State) (x : Run) (t v prog len : Nat) (reload : Bool) : State × Res Unit :=
  let c := tvcOf s t v
  if c.resident && c.progFn = x.fn && c.prog = prog && c.len = len && !reload then (s, .ok ())
  else match readUse s (agentOf x) prog (16 * len) with
  | (s, .fail f) => (s, .fail f)
  | (s, .ok b) =>
    (setTvc s t v { tvcOf s t v with
      resident := true, progFn := x.fn, prog := prog, len := len, words := progWords b (4 * len) }, .ok ())

/-- TVC_RUN (R284, R285): with EXT_WR = 2 an unconfirmed list waits at the barrier. The unit is a TVC; a matrix unit
holds none. -/
def execTvcRun (u : Nat) (s : State) : Host.Outcome State Fault Refusal :=
  done (onOp s 0 u 0x10 fun x _ o =>
    let prog := bits (xw o 1) 47 0
    let len := bits (xw o 2) 10 0
    let ext := bits (xw o 2) 17 16
    if 128 ≤ u then failResult s x u o.idx 0xC5
    else if !(instOf s (u % 64)).run || (ext = 2 && barred s x) then s
    else if len = 0 || 1024 < len || prog % 16 ≠ 0 then failResult s x u o.idx 0x14
    else match tvcFetch s x (u % 64) (u / 64) prog len (bitAt (xw o 2) 20) with
    | (s, .fail f) => failWith s x u o.idx f
    | (s, .ok ()) => tvcStart s x o (u % 64) (u / 64) ext)

/-- TVC_RUNAWAY (R286). -/
def execTvcRunaway (t v : Nat) (s : State) : Host.Outcome State Fault Refusal :=
  done (
    match tvcLive s t v with
    | some (x, o) => tvcFail s x o t v ⟨6, 0x12, false⟩
    | none => s)

/-! ### Tile DMA (R282, R283) -/

/-- A DMA block (R282 Table 6). -/
structure DmaBlock where
  ref : Nat
  ofs : Nat
  org : List Nat
  ext : List Nat
  taddr : Nat
  out : Bool
  stg : Bool
  deriving DecidableEq, Repr

/-- The fields of 32 bytes. -/
def parseDma (b : List Byte) : DmaBlock :=
  let w0 := w64At b 0
  let w1 := w64At b 8
  let w2 := w64At b 16
  let w3 := w64At b 24
  { ref := bits w0 17 0, ofs := bits w0 31 0, org := [bits w1 19 0, bits w1 39 20, bits w1 59 40]
    ext := [bits w2 19 0, bits w2 39 20, bits w2 59 40], taddr := bits w3 19 0, out := bitAt w3 24, stg := bitAt w3 25 }

/-- The transfer was not declared (R283). -/
def dmaUndeclared (x : Run) (c : Tvc) (d : DmaBlock) : Bool :=
  if d.stg then c.extWr = 0 || x.bind.isNone else d.out && c.extWr ≠ 2

/-- Element bits from packed tile bytes. -/
def unpackElem (b : List Byte) (nib i : Nat) : Nat :=
  if nib = 1 then ofLe (sub b (i / 2) 1) / 16 ^ (i % 2) % 16 else ofLe (sub b (i * (nib / 2)) (nib / 2))

/-- Element bits packed into tile bytes; an INT4 block of odd length leaves 0 in the last upper half. -/
def packElems (nib : Nat) : List Nat → List Byte
  | [] => []
  | [w] => if nib = 1 then leBytes 1 (w % 16) else leBytes (nib / 2) w
  | w :: v :: t =>
    if nib = 1 then BitVec.ofNat 8 (w % 16 + v % 16 * 16) :: packElems nib t
    else leBytes (nib / 2) w ++ packElems nib (v :: t)

/-- The indices of a DMA's window, DIM0 fastest. -/
def dmaIndices (d : DmaBlock) : List (List Int) :=
  (List.range (d.ext.getD 2 0)).flatMap fun k => (List.range (d.ext.getD 1 0)).flatMap fun j =>
    (List.range (d.ext.getD 0 0)).map fun i =>
      [((d.org.getD 0 0 + i : Nat) : Int), ((d.org.getD 1 0 + j : Nat) : Int), ((d.org.getD 2 0 + k : Nat) : Int)]

/-- Write elements in order. -/
def writeElems (s : State) (g : Agent) (o : Operand) : List (List Int × Nat) → State × Res Unit
  | [] => (s, .ok ())
  | e :: rest =>
    match writeElem s g o e.1 e.2 with
    | (s, .fail f) => (s, .fail f)
    | (s, .ok ()) => writeElems s g o rest

/-- A transfer between the tile and device memory through a layout (R282). -/
def dmaDevice (s : State) (x : Run) (t v : Nat) (d : DmaBlock) : State × Res Unit :=
  let g := agentOf x (some (tvcUnit t v))
  match operand s g d.ref d.out with
  | (s, .fail f) => (s, .fail f)
  | (s, .ok o) =>
    let nib := fmtNib o.lay.fmt
    let idx := dmaIndices d
    let n := (idx.length * nib + 1) / 2
    if !windowOk o (d.org.map fun (i : Nat) => (i : Int)) d.ext then (s, .fail ⟨4, 0xD5, false⟩)
    else if d.taddr % max 1 (nib / 2) ≠ 0 || !tileWritable d.taddr n then (s, .fail ⟨6, 0x11, false⟩)
    else if d.out then
      match tileFetch s t x.fn d.taddr n with
      | (s, .fail f) => (s, .fail f)
      | (s, .ok b) => writeElems s g o (idx.zipIdx.map fun e => (e.1, unpackElem b nib e.2))
    else match readElems s g o idx [] with
    | (s, .fail f) => (s, .fail f)
    | (s, .ok ws) => (segStore s x t d.taddr (packElems nib ws), .ok ())

/-- A transfer between the tile and the list's staging region, by SSRAM offset (R187, R282, R283). -/
def dmaStaging (s : State) (x : Run) (t : Nat) (d : DmaBlock) : State × Res Unit :=
  let n := d.ext.getD 0 0
  match x.bind with
  | none => (s, .fail ⟨6, 0x15, false⟩)
  | some b =>
    let p : Place := { tgt := 2, addr := b.stgOff * 65536 + d.ofs }
    if b.stgSize * 65536 < d.ofs + n || !tileWritable d.taddr n then (s, .fail ⟨6, 0x11, false⟩)
    else if d.out then
      match tileFetch s t x.fn d.taddr n with
      | (s, .fail f) => (s, .fail f)
      | (s, .ok bytes) => (storePlace s (agentOf x) p bytes, .ok ())
    else match readPlace s (agentOf x) p n 0 with
    | (s, .fail f) => (s, .fail f)
    | (s, .ok r) =>
      match r.poison with
      | q :: _ => (consumed s (agentOf x) q, .fail ⟨6, 0xCA, false⟩)
      | [] => (segStore s x t d.taddr r.bytes, .ok ())

/-- DMA_DONE (R282 to R284): the oldest DMA of a TVC makes its transfer; the program's last one can end the TVC_RUN. -/
def execDmaDone (t v : Nat) (s : State) : Host.Outcome State Fault Refusal :=
  done (
    match tvcLive s t v with
    | none => s
    | some (x, o) =>
      match (tvcOf s t v).dmas with
      | [] => s
      | (_, b) :: rest =>
        let d := parseDma b
        let s := setTvc s t v { tvcOf s t v with dmas := rest }
        match (if d.stg then dmaStaging s x t d else dmaDevice s x t v d) with
        | (s, .fail f) => tvcFail s x o t v f
        | (s, .ok ()) =>
          let c := tvcOf s t v
          if c.ending && c.slot = 0 && rest.isEmpty then tvcFinish s x t v else s)

end Sys2Proof.Machine
end

