-- ==== Sys2Proof/Machine/TvcOps.lean ====
section
/-! DEFINITION. The instructions of the tile vector core (R276 to R283, R295 to R297). -/
namespace Sys2Proof.Machine

/-! ### Scalar slot -/

/-- NOP of any slot. -/
def execTvcNop (t v slot : Nat) (s : State) : Host.Outcome State Fault Refusal :=
  done (tvcPure s t v (.tvcNop t v slot) fun c => c)

/-- LI: the immediate, zero-extended. -/
def execTvcLi (t v sd imm : Nat) (s : State) : Host.Outcome State Fault Refusal :=
  done (tvcScalar s t v sd (.tvcLi t v sd imm) fun _ => imm)

/-- LIH: the immediate above sd[13:0]. -/
def execTvcLih (t v sd imm : Nat) (s : State) : Host.Outcome State Fault Refusal :=
  done (tvcScalar s t v sd (.tvcLih t v sd imm) fun r => imm * 16384 + sreg r sd % 16384)

/-- ADD. -/
def execTvcAdd (t v sd sa sb : Nat) (s : State) : Host.Outcome State Fault Refusal :=
  done (tvcScalar s t v sd (.tvcAdd t v sd sa sb) fun r => sreg r sa + sreg r sb)

/-- SUB. -/
def execTvcSub (t v sd sa sb : Nat) (s : State) : Host.Outcome State Fault Refusal :=
  done (tvcScalar s t v sd (.tvcSub t v sd sa sb) fun r => sreg r sa + (2 ^ 32 - sreg r sb))

/-- ADDI: the immediate is sign-extended. -/
def execTvcAddi (t v sd sa imm : Nat) (s : State) : Host.Outcome State Fault Refusal :=
  done (tvcScalar s t v sd (.tvcAddi t v sd sa imm) fun r => trunc 32 (sreg r sa + sext 14 imm))

/-- AND. -/
def execTvcAnd (t v sd sa sb : Nat) (s : State) : Host.Outcome State Fault Refusal :=
  done (tvcScalar s t v sd (.tvcAnd t v sd sa sb) fun r => sreg r sa &&& sreg r sb)

/-- OR. -/
def execTvcOr (t v sd sa sb : Nat) (s : State) : Host.Outcome State Fault Refusal :=
  done (tvcScalar s t v sd (.tvcOr t v sd sa sb) fun r => sreg r sa ||| sreg r sb)

/-- SHL: shift by sb[4:0]. -/
def execTvcShl (t v sd sa sb : Nat) (s : State) : Host.Outcome State Fault Refusal :=
  done (tvcScalar s t v sd (.tvcShl t v sd sa sb) fun r => sreg r sa * 2 ^ (sreg r sb % 32))

/-- SHR: arithmetic shift by sb[4:0]. -/
def execTvcShr (t v sd sa sb : Nat) (s : State) : Host.Outcome State Fault Refusal :=
  done (tvcScalar s t v sd (.tvcShr t v sd sa sb) fun r =>
    trunc 32 ((sext 32 (sreg r sa)).fdiv (2 ^ (sreg r sb % 32) : Nat)))

/-- LOOP with its count: whether a third level is opened is free, since the nesting depth is 2, and the same in every run
(R180). -/
def loopEffect (c : Tvc) (count body : Nat) : Tvc :=
  if body = 0 then c
  else if count = 0 then { c with skip := body }
  else if c.loops.length < 2 || bitAt (Config.freeFor 5 [count, body]) 0 then
    { c with opened := some { first := c.pc + 1, last := c.pc + body, left := count } }
  else c

/-- LOOP (R280): the next BODY bundles repeat COUNT times, sa or the immediate. -/
def execTvcLoop (t v sa body imm : Nat) (s : State) : Host.Outcome State Fault Refusal :=
  done (tvcPure s t v (.tvcLoop t v sa body imm) fun c =>
    loopEffect c (if sa = 0 then imm else sreg c.old sa) body)

/-- BNZ (R280, R281): a taken branch is relative to its own bundle. -/
def execTvcBnz (t v sa imm : Nat) (s : State) : Host.Outcome State Fault Refusal :=
  done (tvcPure s t v (.tvcBnz t v sa imm) fun c =>
    if sreg c.old sa = 0 then c else { c with branch := some ((c.pc : Int) + sext 14 imm) })

/-- A pointer-file register: 0–7 p, 8–15 o, 16–23 b, 24–31 l. -/
def putPtr (r : TvcRegs) (i w : Nat) : TvcRegs :=
  let x := BitVec.ofNat 20 w
  let j := i % 8
  if i < 8 then { r with p := tblSet 0 r.p j x }
  else if i < 16 then { r with o := tblSet 0 r.o j x }
  else if i < 24 then { r with b := tblSet 0 r.b j x }
  else { r with l := tblSet 0 r.l j x }

/-- MOVP. -/
def execTvcMovp (t v pt sa : Nat) (s : State) : Host.Outcome State Fault Refusal :=
  done (tvcPure s t v (.tvcMovp t v pt sa) fun c =>
    { c with new := putPtr c.new pt (sreg c.old sa), moved := some pt })

/-- SETRM (R276): later bundles use the new modes. -/
def execTvcSetrm (t v imm : Nat) (s : State) : Host.Outcome State Fault Refusal :=
  done (tvcPure s t v (.tvcSetrm t v imm) fun c => { c with new := { c.new with rmode := BitVec.ofNat 4 imm } })

/-- RDCYC: CLK_XCYC_LO of the tile's instance; a VAR instruction (R180, R280). -/
def execTvcRdcyc (t v sd : Nat) (s : State) : Host.Outcome State Fault Refusal :=
  done (tvcSlot s t v (.tvcRdcyc t v sd) fun s x c =>
    (useVar s x, .go { c with new := putS c.new sd (instOf s t).cycles.toNat }))

/-- DMA (R282, R283): the block is read from the TVC's own DM; a fifth outstanding DMA waits. -/
def execTvcDma (t v sa : Nat) (s : State) : Host.Outcome State Fault Refusal :=
  done (tvcSlot s t v (.tvcDma t v sa) fun s x c =>
    let a := sreg c.old sa
    if 4 ≤ c.dmas.length then (s, .stall)
    else if a % 32 ≠ 0 || !inPart (v * 0x20000) (v * 0x20000 + 0x20000) a 32 then (s, .fail 0x11)
    else match tileFetch s t x.fn a 32 with
    | (s, .fail f) => (s, .fail f.result)
    | (s, .ok b) =>
      if dmaUndeclared x c (parseDma b) then (s, .fail 0x15) else (s, .go { c with dmas := c.dmas ++ [(a, b)] }))

/-- DMAW: it waits until every DMA of the TVC has completed. -/
def execTvcDmaw (t v : Nat) (s : State) : Host.Outcome State Fault Refusal :=
  done (tvcSlot s t v (.tvcDmaw t v) fun s _ c => (s, if c.dmas.isEmpty then .go c else .stall))

/-- END: the program ends after this bundle and its DMAs (R284). -/
def execTvcEnd (t v : Nat) (s : State) : Host.Outcome State Fault Refusal :=
  done (tvcPure s t v (.tvcEnd t v) fun c => { c with ending := true })

/-! ### Vector slot -/

/-- Latency of a vector instruction that writes a vector register (R280 Table 4). -/
def vecLat : Nat := 2

/-- A vector instruction that writes 32 components of vd, saturated. -/
def vecSat (s : State) (t v vd : Nat) (i : Instr) (f : TvcRegs → List Int) : State :=
  tvcPure s t v i fun c =>
    let (l, b) := satParts 16 (f c.old)
    noteSat (putV c vd vecLat (packParts 16 l)) b

/-- VADD. -/
def execTvcVadd (t v : Nat) (o : VOperands) (s : State) : Host.Outcome State Fault Refusal :=
  done (vecSat s t v o.vd (.tvcVadd t v o) fun r => List.zipWith (· + ·) (vparts r o.va) (vparts r o.vb))

/-- VSUB. -/
def execTvcVsub (t v : Nat) (o : VOperands) (s : State) : Host.Outcome State Fault Refusal :=
  done (vecSat s t v o.vd (.tvcVsub t v o) fun r => List.zipWith (· - ·) (vparts r o.va) (vparts r o.vb))

/-- The products of VCMUL, part by part: complex with conjugations, or a real product per lane (R280). -/
def cmulParts (o : VOperands) (a b : List Int) : List Int :=
  (List.range 32).map fun j =>
    if o.t then a.getD j 0 * b.getD j 0
    else
      let i := j / 2 * 2
      let ai := if bitAt o.f 1 then - a.getD (i + 1) 0 else a.getD (i + 1) 0
      let bi := if bitAt o.f 2 then - b.getD (i + 1) 0 else b.getD (i + 1) 0
      if j % 2 = 0 then a.getD i 0 * b.getD i 0 - ai * bi else a.getD i 0 * bi + ai * b.getD i 0

/-- VCMUL: sums wrap modulo 2^40 (R275). -/
def execTvcVcmul (t v : Nat) (o : VOperands) (s : State) : Host.Outcome State Fault Refusal :=
  done (tvcPure s t v (.tvcVcmul t v o) fun c =>
    let i := o.vd % 8
    let p := cmulParts o (vparts c.old o.va) (vparts c.old o.vb)
    let p := if bitAt o.f 3 then p.map (- ·) else p
    putA c i (if bitAt o.f 0 then List.zipWith (· + ·) (aparts c.old i) p else p))

/-- The squared magnitudes of VMAG: into real parts with imaginary parts 0, or per real lane. -/
def magParts (o : VOperands) (acc a : List Int) : List Int :=
  (List.range 32).map fun j =>
    let old := if bitAt o.f 0 then acc.getD j 0 else 0
    if o.t then old + a.getD j 0 * a.getD j 0
    else if j % 2 = 0 then old + a.getD j 0 * a.getD j 0 + a.getD (j + 1) 0 * a.getD (j + 1) 0
    else 0

/-- VMAG. -/
def execTvcVmag (t v : Nat) (o : VOperands) (s : State) : Host.Outcome State Fault Refusal :=
  done (tvcPure s t v (.tvcVmag t v o) fun c =>
    putA c (o.vd % 8) (magParts o (aparts c.old (o.vd % 8)) (vparts c.old o.va)))

/-- One part stored by VSTA with the rounding mode of its lane group (R276): part j lies in group j / 8. -/
def staPart (mode : BitVec 4) (k j : Nat) (x : Int) : Int :=
  if bitAt mode.toNat (j / 8) then roundHalfEven x k else x.fdiv (2 ^ k : Nat)

/-- What VSTA writes, and whether it sets SAT (R276). A shift above 39 has no stated result: both are then free, and the
same for equal inputs (R180). -/
def staValue (r : TvcRegs) (o : VOperands) : Nat × Bool :=
  let ins := [o.k, r.rmode.toNat, (tblGet 0 r.a (o.va % 8)).toNat]
  let (l, b) := satParts 16 ((aparts r (o.va % 8)).zipIdx.map fun e => staPart r.rmode o.k e.2 e.1)
  if o.k ≤ 39 then (packParts 16 l, b) else (Config.freeFor 1 ins, bitAt (Config.freeFor 2 ins) 0)

/-- VSTA. -/
def execTvcVsta (t v : Nat) (o : VOperands) (s : State) : Host.Outcome State Fault Refusal :=
  done (tvcPure s t v (.tvcVsta t v o) fun c =>
    noteSat (putV c o.vd vecLat (staValue c.old o).1) (staValue c.old o).2)

/-- One lane of VRCP: the quotient before saturation, and whether it is clamped. -/
def rcpLane (k : Nat) (d : Int) : Int × Bool :=
  if d ≤ 0 then (0x7FFF, true)
  else
    let q := (2 ^ k : Nat) / d.toNat
    if 0x7FFF < q then (0x7FFF, true) else ((q : Int), false)

/-- What VRCP writes, and whether it sets SAT. A k above 47 has no stated result: both are then free, and the same for
equal inputs (R180). -/
def rcpValue (r : TvcRegs) (o : VOperands) : Nat × Bool :=
  let ins := [o.k, b2n o.t, (tblGet 0 r.a (o.va % 8)).toNat]
  let q := (aparts r (o.va % 8)).zipIdx.map fun e => if o.t || e.2 % 2 = 0 then rcpLane o.k e.1 else (0, false)
  if o.k ≤ 47 then (packParts 16 (q.map (·.1)), q.any (·.2)) else (Config.freeFor 3 ins, bitAt (Config.freeFor 4 ins) 0)

/-- VRCP. -/
def execTvcVrcp (t v : Nat) (o : VOperands) (s : State) : Host.Outcome State Fault Refusal :=
  done (tvcPure s t v (.tvcVrcp t v o) fun c =>
    noteSat (putV c o.vd 6 (rcpValue c.old o).1) (rcpValue c.old o).2)

/-- A vector instruction that writes a word to vd. -/
def vecWord (s : State) (t v vd : Nat) (i : Instr) (f : TvcRegs → Nat) : State :=
  tvcPure s t v i fun c => putV c vd vecLat (f c.old)

/-- VMOV. -/
def execTvcVmov (t v : Nat) (o : VOperands) (s : State) : Host.Outcome State Fault Refusal :=
  done (vecWord s t v o.vd (.tvcVmov t v o) fun r => (tblGet 0 r.v o.va).toNat)

/-- VBCST: every complex lane holds the scalar. -/
def execTvcVbcst (t v : Nat) (o : VOperands) (s : State) : Host.Outcome State Fault Refusal :=
  done (vecWord s t v o.vd (.tvcVbcst t v o) fun r =>
    packParts 32 (List.replicate 16 (sreg r (o.va % 16) : Int)))

/-- VMAX. -/
def execTvcVmax (t v : Nat) (o : VOperands) (s : State) : Host.Outcome State Fault Refusal :=
  done (vecWord s t v o.vd (.tvcVmax t v o) fun r => packParts 16 (List.zipWith max (vparts r o.va) (vparts r o.vb)))

/-- VMIN. -/
def execTvcVmin (t v : Nat) (o : VOperands) (s : State) : Host.Outcome State Fault Refusal :=
  done (vecWord s t v o.vd (.tvcVmin t v o) fun r => packParts 16 (List.zipWith min (vparts r o.va) (vparts r o.vb)))

/-- VCLIP: va clamped to the magnitude of vb. -/
def execTvcVclip (t v : Nat) (o : VOperands) (s : State) : Host.Outcome State Fault Refusal :=
  done (vecWord s t v o.vd (.tvcVclip t v o) fun r =>
    packParts 16 (List.zipWith (fun a b => clampInt (- absInt b) (absInt b) a) (vparts r o.va) (vparts r o.vb)))

/-- VPACK8: the lanes of va, then of vb, saturated to INT8. -/
def execTvcVpack8 (t v : Nat) (o : VOperands) (s : State) : Host.Outcome State Fault Refusal :=
  done (tvcPure s t v (.tvcVpack8 t v o) fun c =>
    let (l, b) := satParts 8 (vparts c.old o.va ++ vparts c.old o.vb)
    noteSat (putV c o.vd vecLat (packParts 8 l)) b)

/-! ### The confidence selector (R295 to R297, R317) -/

/-- MARGIN, LLR_SMIN and LLR_SMAX of MQ_SEL with their limits. -/
def selMargin (s : State) : Int := max 1 (min 80 (fld s 0x120000 6 0))
/-- See selMargin. -/
def selMin (s : State) : Int := max 1 (fld s 0x120000 11 8)
/-- See selMargin. -/
def selMax (s : State) : Int := max 16 (fld s 0x120000 21 16)

/-- Estimate-stage test of a complex lane: R_c and R_l (R295). -/
def estimateTakes (s : State) (rc rl : Int) : Bool := 0 ≤ rc && 0 ≤ rl && 64 * rl ≤ selMargin s * rc

/-- LLR-stage test of a real lane: gate, va and vb (R296). -/
def llrTakes (s : State) (gate a b : Int) : Bool :=
  0 < gate && (if a < 0 then b < 0 else 0 ≤ b) && absInt a * selMin s ≤ 16 * absInt b && 16 * absInt b ≤ absInt a * selMax s

/-- The list has a usable binding of the kind, and no unusable one, which applies EXCL_TABLE to the list (R297, R309). -/
def hasTable (x : Run) (kind : Nat) : Bool :=
  x.tables.all (fun b => b.entry.isSome) && x.tables.any fun b => b.kind = kind

/-- EXCL of the list's carrier-slot is set (R297, R300). -/
def exclBound (s : State) (x : Run) : Bool :=
  (boundSlots x).any fun b => s.mq.excl.contains (b.1, absFrame s b.2.1, b.2.2)

/-- The lanes that take vb, by real part. -/
def takesParts (s : State) (o : VOperands) (r : TvcRegs) : List Bool :=
  let acc := aparts r (o.k % 8)
  let a := vparts r o.va
  let b := vparts r o.vb
  (List.range 32).map fun j =>
    if o.t then llrTakes s (acc.getD j 0) (a.getD j 0) (b.getD j 0)
    else estimateTakes s (acc.getD (j / 2 * 2) 0) (acc.getD (j / 2 * 2 + 1) 0)

/-- Add to the selector counts of the carrier of the list's bindings (R297). -/
def countLanes (s : State) (x : Run) (learned classical : Nat) : State :=
  match boundSlots x with
  | [] => s
  | b :: _ =>
    let f (z : SelCount) : SelCount :=
      { z with learned := min 0xFFFFFFFF (z.learned + learned), classical := min 0xFFFFFFFF (z.classical + classical) }
    { s with mq := { s.mq with sel := tblMod {} s.mq.sel b.1 f } }

/-- What an exclusion reports: the flags of R297, DETAIL[9], and FALLBACK_CLASSICAL (R312). -/
def noteExclusion (s : State) (x : Run) (table erase : Bool) : State :=
  let s := setFlagIf erase 2818 (setFlagIf table 2817 s)
  modRun s x.id fun y => { y with
    fallback := true, detail := if table then y.detail ||| 0x200 else y.detail }

/-- CSEL. -/
def execTvcCsel (t v : Nat) (o : VOperands) (s : State) : Host.Outcome State Fault Refusal :=
  done (tvcSlot s t v (.tvcCsel t v o) fun s x c =>
    let a := vparts c.old o.va
    let b := vparts c.old o.vb
    let lanes := if o.t then 32 else 16
    let write (s : State) (l : List Int) : State × SlotEffect :=
      (s, .go (putV c o.vd vecLat (packParts 16 l)))
    if !feat s 2 then write s a
    else
      let noTable := !hasTable x (if o.t then 2 else 1)
      let erased := exclBound s x
      if noTable || erased then write (noteExclusion (countLanes s x 0 lanes) x noTable erased) a
      else
        let takes := takesParts s o c.old
        let n := (takes.countP id) / (if o.t then 1 else 2)
        write (countLanes s x n (lanes - n)) ((List.range 32).map fun j =>
          if takes.getD j false then b.getD j 0 else a.getD j 0))

/-! ### Memory slots (R277, R278) -/

/-- Latency of a load: 4 from the TVC's own DM, 8 elsewhere. -/
def loadLat (v a : Nat) : Nat := if a / 0x20000 = v then 4 else 8

/-- A load of n bytes into a vector register. -/
def tvcLoad (s : State) (t v : Nat) (o : MOperands) (i : Instr) (n : Nat) (f : Nat → Nat) : State :=
  tvcSlot s t v i fun s x c =>
    let a := memAddr c.old o
    if a % n ≠ 0 || !tvcReadable a n then (s, .fail 0x11)
    else match tileFetch s t x.fn a n with
    | (s, .fail e) => (s, .fail e.result)
    | (s, .ok b) =>
      (s, .go (memUpdate (putV c o.vr (loadLat v a) (f (ofLe b))) o))

/-- LD. -/
def execTvcLd (t v : Nat) (o : MOperands) (s : State) : Host.Outcome State Fault Refusal :=
  done (tvcLoad s t v o (.tvcLd t v o) 64 fun w => w)

/-- LDB: 4 bytes copied to every complex lane. -/
def execTvcLdb (t v : Nat) (o : MOperands) (s : State) : Host.Outcome State Fault Refusal :=
  done (tvcLoad s t v o (.tvcLdb t v o) 4 fun w => packParts 32 (List.replicate 16 (w : Int)))

/-- ST: the store is made as its bundle ends (R273, R279). -/
def execTvcSt (t v : Nat) (o : MOperands) (s : State) : Host.Outcome State Fault Refusal :=
  done (tvcSlot s t v (.tvcSt t v o) fun s _ c =>
    let a := memAddr c.old o
    if a % 64 ≠ 0 || !tileWritable a 64 then (s, .fail 0x11)
    else
      let c := { c with stores := c.stores ++ [(a, leBytes 64 (tblGet 0 c.old.v o.vr).toNat)] }
      (s, .go (memUpdate c o)))

end Sys2Proof.Machine
end

