-- ==== Sys2Proof/Machine/Learned.lean ====
section
/-! DEFINITION. Maquette tables: publish, withdraw, and the binds of RX lists (R302 to R311). -/
namespace Sys2Proof.Machine

/-- Bit-serial CRC-32 of IEEE 802.3 over one byte, least significant bit first. -/
def crc32Byte (c : BitVec 32) (b : Byte) : BitVec 32 :=
  (List.range 8).foldl (fun c _ => if c.getLsbD 0 then (c >>> 1) ^^^ 0xEDB88320 else c >>> 1) (c ^^^ b.zeroExtend 32)

/-- CRC-32 of bytes. -/
def crc32 (l : List Byte) : Nat := (l.foldl crc32Byte 0xFFFFFFFF ^^^ 0xFFFFFFFF).toNat

/-- The MQ_ block answers (R317). -/
def mqLive (s : State) : Bool := served s && feat s 2

/-- A version entry. -/
def verOf (s : State) (e : Nat) : Ver := tblGet {} s.mq.ver e

/-- Put a version entry. -/
def setVer (s : State) (e : Nat) (v : Ver) : State := { s with mq := { s.mq with ver := tblSet {} s.mq.ver e v } }

/-- Key of a subframe (R305). -/
def verKey (sfn sf : Nat) : Nat := (sfn * 10 + sf) % 10240

/-- Key a is at or before key b. -/
def atOrBefore (a b : Nat) : Bool := (b + 10240 - a % 10240) % 10240 < 5120

/-! ### Publish (R302, R305, R306, R308) -/

/-- PUBLISH: the read begins; a command while one runs has no effect and sets MQ_OVERRUN (R305). -/
def execPublish (func table sfn sf : Nat) (s : State) : Host.Outcome State Fault Refusal :=
  done (
    if !mqLive s then s
    else if s.mq.pub.isSome then setFlag s 2819
    else { s with mq := { s.mq with
      pub := some { func := func, table := table, sfn := sfn, sf := sf, addr := reg64 s 0x120010 % 2 ^ 48 } } })

/-- A command's result. Any other than DONE sets PUB_REFUSED, and what ENTRY then shows is free (R305 Table 4). -/
def postResult (s : State) (result : Nat) (entry : Option Nat) : State :=
  let e := entry.getD (Config.freeNat s.choice % 256)
  setFlagIf (result ≠ 1) 2816 (takeChoice { s with mq := { s.mq with pub := none, result := result, entry := e } })

/-- WITHDRAW (R308): a PENDING entry becomes FREE. -/
def execWithdraw (entry : Nat) (s : State) : Host.Outcome State Fault Refusal :=
  done (
    if !mqLive s then s
    else if s.mq.pub.isSome then setFlag s 2819
    else if entry < 256 && (verOf s entry).st = 1 then postResult (setVer s entry {}) 1 (some entry)
    else postResult s 6 none)

/-- LEN of a table header. -/
def tabLen (h : List Byte) : Nat := w32At h 8

/-- KIND. -/
def tabKind (h : List Byte) : Nat := bits (w32At h 0) 23 16

/-- The fields of a header that publish checks, but for the CRC (R302 Table 2, R304). -/
def headerOk (h : List Byte) : Bool :=
  let k := tabKind h
  let n := bits (w32At h 0xC) 7 0
  bits (w32At h 0) 15 0 = 1 && 1 ≤ k && k ≤ 3
  && tabLen h % 64 = 0 && 128 ≤ tabLen h && tabLen h ≤ 4 * 2 ^ 20
  && (if k = 3 then n = 0
      else 1 ≤ n && n ≤ 32 && bits (w32At h 0x10) 15 0 ≠ 0 && bits (w32At h 0x10) 31 16 ≠ 0)
  && (sub h 0x14 0x28).all (· = 0)

/-- The CRC of a whole table, its field taken as 0. -/
def tableCrc (b : List Byte) : Nat := crc32 (b.take 0x3C ++ [0, 0, 0, 0] ++ b.drop 0x40)

/-- Entries of a pair that are not FREE. -/
def pairEntries (s : State) (func table : Nat) : List (Nat × Ver) :=
  s.mq.ver.filter fun e => e.1 < 256 && e.2.st ≠ 0 && e.2.func = func && e.2.table = table

/-- The lowest FREE entry. -/
def freeEntry (s : State) : Option Nat := (List.range 256).find? fun e => (verOf s e).st = 0

/-- A bind of the pair has resolved a key at or after this one. The newest key of each pair is kept, since keys come
round every 10.24 s (DEDUCED). -/
def resolvedAfter (s : State) (func table key : Nat) : Bool :=
  s.mq.bound.any fun b => b.1 = func && b.2.1 = table && atOrBefore key b.2.2

/-- Read a table whole: its bytes, or the result it is refused with. A read that fails without a translation fault has no
code in Table 4: which it gets is free. -/
def readTable (s : State) (j : PubJob) : State × (List Byte ⊕ Nat) :=
  let g : Agent := { ctx := j.func, cls := 7 }
  let refused (s : State) (f : Fail) : State × (List Byte ⊕ Nat) :=
    (takeChoice s, .inr (if f.status = 5 || Config.raceWinner s.choice then 7 else 2))
  match readUse s g j.addr 64 with
  | (s, .fail f) => refused s f
  | (s, .ok h) =>
    if !headerOk h then (s, .inr 2)
    else match readUse s g j.addr (tabLen h) with
    | (s, .fail f) => refused s f
    | (s, .ok b) => if tableCrc b = w32At b 0x3C then (s, .inl b) else (s, .inr 2)

/-- The publish whose table has been read and is right (R305 Table 4, R306). -/
def publishTable (s : State) (j : PubJob) (b : List Byte) : State :=
  let key := verKey j.sfn j.sf
  if resolvedAfter s j.func j.table key then postResult s 3 none
  else match freeEntry s with
  | none => postResult s 4 none
  | some e =>
    if 4 ≤ (pairEntries s j.func j.table).length then postResult s 4 none
    else
      let v : Ver := {
        st := 1, func := j.func, table := j.table, kind := tabKind b, version := w32At b 4, sfn := j.sfn, sf := j.sf
        len := tabLen b, addr := j.addr, order := s.mq.published + 1 }
      let s := setVer s e v
      postResult { s with mq := { s.mq with published := s.mq.published + 1 } } 1 (some e)

/-- PUBLISH_DONE (R305, R306). -/
def execPublishDone (s : State) : Host.Outcome State Fault Refusal :=
  done (
    match s.mq.pub with
    | none => s
    | some j =>
      if !fnExists s j.func || !(ctxOf s j.func).en then postResult s 5 none
      else match readTable s j with
      | (s, .inr r) => postResult s r none
      | (s, .inl b) => publishTable s j b)

/-! ### Binds (R307, R309, R310) -/

/-- The newest-published of some entries. -/
def newest : List (Nat × Ver) → Option (Nat × Ver)
  | [] => none
  | e :: t =>
    match newest t with
    | some f => some (if e.2.order < f.2.order then f else e)
    | none => some e

/-- The entry a bind of a pair resolves to (R307). -/
def resolve (s : State) (func table key : Nat) : Option (Nat × Ver) :=
  newest ((pairEntries s func table).filter fun e => atOrBefore (verKey e.2.sfn e.2.sf) key)

/-- A pair's CURRENT entry becomes SUPERSEDED, and FREE with no binding left (R306). -/
def supersede (s : State) (func table : Nat) : State :=
  (pairEntries s func table).foldl (fun s e =>
    if e.2.st = 2 then setVer s e.1 (if e.2.inUse = 0 then {} else { e.2 with st := 3 }) else s) s

/-- A bind takes an entry: a PENDING one becomes CURRENT, and its INUSE counts the bind. An entry that a newer one has
superseded is not made CURRENT again, or a late bind of an earlier slot would take the newer version from the slots after
it (R306, R307; DEDUCED). -/
def takeEntry (s : State) (e : Nat) : State :=
  let v := verOf s e
  let s := if v.st = 1 then setVer (supersede s v.func v.table) e { v with st := 2 } else s
  setVer s e { verOf s e with inUse := (verOf s e).inUse + 1 }

/-- The newest key that a pair has resolved is kept. -/
def noteKey (s : State) (func table key : Nat) : State :=
  if resolvedAfter s func table key then s
  else { s with mq := { s.mq with
    bound := s.mq.bound.filter (fun b => !(b.1 = func && b.2.1 = table)) ++ [(func, table, key)] } }

/-- Fields of MQ_BIND (R309). -/
structure BindOp where
  carrier : Nat
  sfn : Nat
  slot : Nat
  table : Nat
  ofs : Nat
  len : Nat
  tblOfs : Nat
  deriving DecidableEq, Repr

/-- Their place. -/
def bindOf (o : ListOp) : BindOp :=
  { carrier := bits o.imm 6 0, sfn := bits o.imm 16 7, slot := bits o.imm 23 17, table := bits o.imm 31 24
    ofs := bits (xw o 1) 9 0, len := bits (xw o 1) 26 16, tblOfs := bits (xw o 1) 63 32 }

/-- The list may not hold this binding beside those it has: MQ_MISMATCH (R310). -/
def bindMismatch (x : Run) (b : BindOp) : Bool :=
  4 ≤ x.tables.length || x.tables.any fun t => t.carrier ≠ b.carrier || t.sfn ≠ b.sfn || t.slot ≠ b.slot

/-- The bind's key (R307). -/
def bindKey (s : State) (b : BindOp) : Nat := (b.sfn * 10 + b.slot / 2 ^ plMu (slotPl s b.carrier b.sfn b.slot)) % 10240

/-- Lines of a tile's Maquette cache and where a parity error reads them again (R270, R311). -/
def setLines (s : State) (t ofs len : Nat) (src : Option (Nat × Nat)) : State :=
  let x := tileOf s t
  setTile s t { x with src := (List.range len).foldl (fun m i =>
    match src with
    | some (c, va) => tblPut m (0x80000 / 64 + ofs + i) (c, va + 64 * i)
    | none => tblDel m (0x80000 / 64 + ofs + i)) x.src }

/-- A binding joins the list's. -/
def addBind (s : State) (x : Run) (b : BindOp) (e : Option (Nat × Ver)) : State :=
  modRun s x.id fun y => { y with tables := y.tables ++ [{
    entry := e.map (·.1), kind := (e.map (·.2.kind)).getD 0, carrier := b.carrier, sfn := b.sfn, slot := b.slot }] }

/-- The resolved bind and its copy (R309). -/
def bindCopy (s : State) (x : Run) (u idx : Nat) (b : BindOp) (e : Option (Nat × Ver)) : State :=
  let t := u % 64
  let a := 0x80000 + 64 * b.ofs
  let s := addBind (noteKey s x.fn b.table (bindKey s b)) x b e
  match e with
  | none => advance (segStore (setLines s t b.ofs b.len none) x t a (List.replicate (64 * b.len) 0)) x u
  | some (i, v) =>
    let s := takeEntry s i
    match readUse s (agentOf x) (v.addr + b.tblOfs) (64 * b.len) with
    | (s, .fail f) => failWith s x u idx f
    | (s, .ok bytes) => advance (segStore (setLines s t b.ofs b.len (some (x.fn, v.addr + b.tblOfs))) x t a bytes) x u

/-- MQ_BIND (R309, R310): it writes tile memory alone, so it passes the confirmation barrier. -/
def execMqBind (u : Nat) (s : State) : Host.Outcome State Fault Refusal :=
  done (onOp s 0 u 0x12 fun x _ o =>
    let b := bindOf o
    let e := resolve s x.fn b.table (bindKey s b)
    let short := match e with
      | some (_, v) => v.len < b.tblOfs + 64 * b.len
      | none => false
    if !feat s 2 then failResult s x u o.idx 0xC2
    else if bindMismatch x b then failResult s x u o.idx 0x19
    else if 1024 < b.ofs + b.len || short then failResult s x u o.idx 0x18
    else bindCopy s x u o.idx b e)

end Sys2Proof.Machine
end

