-- ==== Sys2Proof/Machine/Ldpc.lean ====
section
/-! DEFINITION. The LDPC code as R320 to R327 use it: segmentation, rate matching, scrambling, CRCs, and layered min-sum.
What these rules take from TS 38.212 and TS 38.211 is PRESUMED from those documents, except the base graphs and the polar
sequences, which stay free (log entry 30). -/
namespace Sys2Proof.Machine

/-! ### Bits -/

/-- The bits of bytes, the first in bit 7 of byte 0 (R320). -/
def unpackBits (l : List Byte) : List Bool := l.flatMap fun b => (List.range 8).map fun i => b.getLsbD (7 - i)

/-- One byte of up to eight bits, the first in bit 7, the unused ones 0. -/
def packByte (l : List Bool) : Byte := BitVec.ofNat 8 ((List.range 8).foldl (fun a i => 2 * a + b2n (l.getD i false)) 0)

/-- n bytes of bits. -/
def packBits (l : List Bool) (n : Nat) : List Byte := (List.range n).map fun i => packByte ((l.drop (8 * i)).take 8)

/-- The remainder register of a CRC of n bits after one more bit. -/
def crcStep (n poly : Nat) (r : Nat) (b : Bool) : Nat :=
  let top := bitAt r (n - 1) != b
  let r := r * 2 % 2 ^ n
  if top then Nat.xor r poly else r

/-- The n CRC bits of a bit string, most significant first (TS 38.212 clause 5.1). -/
def crcBits (n poly : Nat) (l : List Bool) : List Bool :=
  let r := l.foldl (crcStep n poly) 0
  (List.range n).map fun i => bitAt r (n - 1 - i)

/-- CRC 24A. -/
def crc24a (l : List Bool) : List Bool := crcBits 24 0x864CFB l
/-- CRC 24B. -/
def crc24b (l : List Bool) : List Bool := crcBits 24 0x800063 l
/-- CRC 16. -/
def crc16 (l : List Bool) : List Bool := crcBits 16 0x1021 l

/-- One more bit of a length-31 register pair: the two registers, oldest bit first (TS 38.211 clause 5.2.1). -/
def goldStep (r : List Bool × List Bool) : List Bool × List Bool :=
  let a (i : Nat) := r.1.getD i false
  let b (i : Nat) := r.2.getD i false
  (r.1.tail ++ [a 3 != a 0], r.2.tail ++ [((b 3 != b 2) != b 1) != b 0])

/-- n bits of the sequence from a register pair. -/
def goldFrom : Nat → List Bool × List Bool → List Bool
  | 0, _ => []
  | n + 1, r => (r.1.headD false != r.2.headD false) :: goldFrom n (goldStep r)

/-- n scrambling bits for C_INIT, after the first 1600. -/
def scrambling (init n : Nat) : List Bool :=
  let x1 := true :: List.replicate 30 false
  let x2 := (List.range 31).map (bitAt init)
  goldFrom n ((List.range 1600).foldl (fun r _ => goldStep r) (x1, x2))

/-! ### Parameters (R318, R320) -/

/-- The LDPC parameter record (R320 Table 3). -/
structure LdpcRec where
  tbs : Nat
  bg : Nat
  qm : Nat
  nl : Nat
  g : Nat
  rv : Nat
  ndi : Bool
  harq : Bool
  scr : Bool
  et : Bool
  crcEt : Bool
  nw : Bool
  nref : Nat
  iterMax : Nat
  cInit : Nat
  key : Nat
  carrier : Nat
  sfn : Nat
  slot : Nat
  table : Nat
  result : Nat
  deriving DecidableEq, Repr

/-- Its fields. -/
def parseLdpc (b : List Byte) : LdpcRec :=
  let w0 := w32At b 0
  let w1 := w32At b 4
  let w2 := w32At b 8
  let w5 := w32At b 0x14
  { tbs := bits w0 20 0, bg := bits w0 24 24, qm := bits w0 28 25, nl := bits w0 31 29
    g := bits w1 23 0, rv := bits w1 25 24, ndi := bitAt w1 26, harq := bitAt w1 27, scr := bitAt w1 28
    et := bitAt w1 29, crcEt := bitAt w1 30, nw := bitAt w1 31
    nref := bits w2 23 0, iterMax := bits w2 29 24, cInit := bits (w32At b 0xC) 30 0, key := bits (w32At b 0x10) 23 0
    carrier := bits w5 6 0, sfn := bits w5 16 7, slot := bits w5 23 17, table := bits w5 31 24
    result := w64At b 0x18 }

/-- The lifting sizes by set (TS 38.212 Table 5.3.2-1). -/
def liftingSets : List (List Nat) :=
  [[2, 4, 8, 16, 32, 64, 128, 256], [3, 6, 12, 24, 48, 96, 192, 384], [5, 10, 20, 40, 80, 160, 320],
   [7, 14, 28, 56, 112, 224], [9, 18, 36, 72, 144, 288], [11, 22, 44, 88, 176, 352], [13, 26, 52, 104, 208],
   [15, 30, 60, 120, 240]]

/-- Length of the TB CRC. -/
def tbCrcLen (tbs : Nat) : Nat := if 3824 < tbs then 24 else 16

/-- The longest code block of a base graph. -/
def maxBlock (bg : Nat) : Nat := if bg = 0 then 8448 else 3840

/-- C, the number of code blocks. -/
def numBlocks (bg tbs : Nat) : Nat :=
  let b := tbs + tbCrcLen tbs
  if b ≤ maxBlock bg then 1 else (b + maxBlock bg - 25) / (maxBlock bg - 24)

/-- Bits of all code blocks, their CRCs included. -/
def allBits (bg tbs : Nat) : Nat :=
  let c := numBlocks bg tbs
  tbs + tbCrcLen tbs + (if c = 1 then 0 else 24 * c)

/-- K'. -/
def blockBits (bg tbs : Nat) : Nat := allBits bg tbs / numBlocks bg tbs

/-- Kb. -/
def infoCols (bg tbs : Nat) : Nat :=
  let b := tbs + tbCrcLen tbs
  if bg = 0 then 22 else if 640 < b then 10 else if 560 < b then 9 else if 192 < b then 8 else 6

/-- Zc: the least lifting size that holds K' in Kb columns. -/
def liftSize (bg tbs : Nat) : Nat :=
  (liftingSets.flatten.filter fun z => blockBits bg tbs ≤ infoCols bg tbs * z).foldl min 384

/-- The set of a lifting size. -/
def liftSet (z : Nat) : Nat := liftingSets.findIdx fun l => l.contains z

/-- What R320 derives from a record. -/
structure LdpcDims where
  c : Nat
  zc : Nat
  /-- K' and K -/
  kp : Nat
  k : Nat
  /-- N and Ncb -/
  n : Nat
  ncb : Nat
  deriving DecidableEq, Repr

/-- See LdpcDims. -/
def dimsOf (p : LdpcRec) : LdpcDims :=
  let z := liftSize p.bg p.tbs
  let n := if p.bg = 0 then 66 * z else 50 * z
  { c := numBlocks p.bg p.tbs, zc := z, kp := blockBits p.bg p.tbs, k := (if p.bg = 0 then 22 else 10) * z, n := n
    ncb := if p.nref = 0 then n else min n p.nref }

/-- E_r of block r (TS 38.212 clause 5.4.2.1). -/
def blockLen (p : LdpcRec) (c r : Nat) : Nat :=
  let u := p.g / (p.nl * p.qm)
  p.nl * p.qm * (if r + u % c < c then u / c else (u + c - 1) / c)

/-- First bit of block r among the G. -/
def blockStart (p : LdpcRec) (c r : Nat) : Nat := (List.range r).foldl (fun a i => a + blockLen p c i) 0

/-- The record lies in Table 1. A TBS whose bits do not divide into equal code blocks is none of TS 38.212's
(log entry 31). -/
def ldpcOk (p : LdpcRec) : Bool :=
  24 ≤ p.tbs && p.tbs ≤ 1277992 && p.tbs % 8 = 0 && numBlocks p.bg p.tbs ≤ 152
  && allBits p.bg p.tbs % numBlocks p.bg p.tbs = 0
  && [1, 2, 4, 6, 8].contains p.qm && 1 ≤ p.nl && p.nl ≤ 4 && 1 ≤ p.g

/-- ITER_MAX and the bound of R326. -/
def decBoundOk (p : LdpcRec) : Bool :=
  1 ≤ p.iterMax && p.iterMax ≤ 32
  && numBlocks p.bg p.tbs * (200 + p.iterMax * (if p.bg = 0 then 300 else 220)) ≤ 600000

/-- The bound of an encode (R326, R339). -/
def encBoundOk (p : LdpcRec) : Bool := numBlocks p.bg p.tbs * 150 + (p.g + 127) / 128 ≤ 600000

/-! ### Rate matching (TS 38.212 clause 5.4.2) -/

/-- Starting position of a redundancy version. -/
def rvStart (p : LdpcRec) (d : LdpcDims) : Nat :=
  let num := if p.bg = 0 then [0, 17, 33, 56] else [0, 13, 25, 43]
  num.getD p.rv 0 * d.ncb / d.n * d.zc

/-- Buffer positions in sending order, fillers skipped: bit k goes to position k modulo their number. -/
def sendOrder (p : LdpcRec) (d : LdpcDims) : List Nat :=
  let keep := (List.range d.ncb).filter fun i => !(d.kp ≤ i + 2 * d.zc && i + 2 * d.zc < d.k)
  let k0 := rvStart p d
  keep.filter (k0 ≤ ·) ++ keep.filter (· < k0)

/-- Place among the interleaved bits of bit k of e. -/
def interleaved (qm e k : Nat) : Nat := k / (e / qm) + k % (e / qm) * qm

/-- A sum that saturates at ±127. -/
def add127 (a b : Int) : Int := clampInt (-127) 127 (a + b)

/-- A block's received values are added into its circular buffer (R321). -/
def recover (p : LdpcRec) (d : LdpcDims) (buf llr : List Int) : List Int :=
  let order := sendOrder p d
  let e := llr.length
  (List.range e).foldl (fun buf k =>
    let pos := order.getD (k % max order.length 1) 0
    buf.set pos (add127 (buf.getD pos 0) (llr.getD (interleaved p.qm e k) 0))) buf

/-- The decoder's input: punctured bits 0, fillers +127, the buffer, and 0 beyond Ncb (R321). -/
def channelLlr (p : LdpcRec) (d : LdpcDims) (buf : List Int) : List Int :=
  (List.range ((if p.bg = 0 then 68 else 52) * d.zc)).map fun v =>
    if d.kp ≤ v && v < d.k then 127
    else if v < 2 * d.zc then 0
    else buf.getD (v - 2 * d.zc) 0

/-! ### Layered normalised min-sum (R323, R324) -/

/-- Layers of a base graph. -/
def layers (bg : Nat) : Nat := if bg = 0 then 46 else 42

/-- The variables of check z of a layer. -/
def checkVars (bg zc layer z : Nat) : List Nat :=
  (Config.baseGraphRow bg (liftSet zc) layer).map fun e => e.1 * zc + (z + e.2) % zc

/-- The least magnitude of a list. -/
def minMag (l : List Int) : Nat := (l.map Int.natAbs).foldl min 1024

/-- The message to edge i: the least magnitude of the others scaled by a weight, with the product of their signs. -/
def checkMsg (w : Nat) (q : List Int) (i : Nat) : Int :=
  let others := q.eraseIdx i
  let m : Int := ((min 127 ((minMag others * w + 128) / 256) : Nat) : Int)
  if others.countP (· < 0) % 2 = 1 then -m else m

/-- Posteriors and check-to-variable messages; the messages by layer × Zc + check, in the order of the row. -/
structure MinSum where
  post : List Int
  msgs : List (List Int)
  deriving DecidableEq, Repr

/-- One check node. A posterior of 10 bits saturates at ±511, as a message of 8 does at ±127 (DEDUCED). -/
def updateCheck (bg zc layer w : Nat) (d : MinSum) (z : Nat) : MinSum :=
  let vars := checkVars bg zc layer z
  let old := d.msgs.getD (layer * zc + z) []
  let q := vars.zipIdx.map fun v => d.post.getD v.1 0 - old.getD v.2 0
  let new := (List.range q.length).map (checkMsg w q)
  { post := vars.zipIdx.foldl (fun l v => l.set v.1 (clampInt (-511) 511 (q.getD v.2 0 + new.getD v.2 0))) d.post
    msgs := d.msgs.set (layer * zc + z) new }

/-- One iteration; the weights by layer, 0 acting as 256. -/
def iterate (bg zc : Nat) (ws : List Nat) (d : MinSum) : MinSum :=
  (List.range (layers bg)).foldl (fun d l =>
    let w := ws.getD l 0
    (List.range zc).foldl (updateCheck bg zc l (if w = 0 then 256 else w)) d) d

/-- Hard decisions. -/
def hardBits (d : MinSum) : List Bool := d.post.map fun l => if l = 0 then Config.hardZero else l < 0

/-- Every parity check holds. -/
def checksHold (bg zc : Nat) (h : List Bool) : Bool :=
  (List.range (layers bg)).all fun l => (List.range zc).all fun z =>
    (checkVars bg zc l z).countP (fun v => h.getD v false) % 2 = 0

/-- Hard decisions after each of n iterations, from iteration i on. -/
def decisions (bg zc : Nat) (ws : Nat → List Nat) : Nat → Nat → MinSum → List (List Bool)
  | 0, _, _ => []
  | n + 1, i, d =>
    let d := iterate bg zc (ws i) d
    hardBits d :: decisions bg zc ws n (i + 1) d

/-- A block's own CRC holds: 24B, or the TB CRC when it is the only one. -/
def blockCrcOk (p : LdpcRec) (c : Nat) (b : List Bool) : Bool :=
  let l := if c = 1 then tbCrcLen p.tbs else 24
  let body := b.take (b.length - l)
  b.drop (b.length - l) = (if c = 1 then (if l = 24 then crc24a body else crc16 body) else crc24b body)

/-- A decoded block. -/
structure Decoded where
  bits : List Bool := []
  iters : Nat := 0
  ok : Bool := false
  flooded : Bool := false
  deriving DecidableEq, Repr

/-- Decode a block from its buffer (R324): the decision written is that of iteration i, or with ET = 1 of the one after. -/
def decodeBlock (p : LdpcRec) (d : LdpcDims) (ws : Nat → List Nat) (later : Bool) (buf : List Int) : Decoded :=
  let start : MinSum := { post := channelLlr p d buf, msgs := List.replicate (layers p.bg * d.zc) [] }
  let all := decisions p.bg d.zc ws p.iterMax 0 start
  let good (h : List Bool) : Bool := checksHold p.bg d.zc h && (!p.crcEt || blockCrcOk p d.c (h.take d.kp))
  let i := min (all.findIdx good + 1) p.iterMax
  let at_ := if !p.et then p.iterMax else if later then min (i + 1) p.iterMax else i
  let b := (all.getD (at_ - 1) []).take d.kp
  { bits := b, iters := at_, ok := blockCrcOk p d.c b }

/-! ### Encoding (R327) -/

/-- The code blocks of a transport block's bits, CRCs attached. -/
def codeBlocks (p : LdpcRec) (d : LdpcDims) (tb : List Bool) : List (List Bool) :=
  let b := tb ++ (if tbCrcLen p.tbs = 24 then crc24a tb else crc16 tb)
  if d.c = 1 then [b]
  else (List.range d.c).map fun r =>
    let seg := (b.drop (r * (d.kp - 24))).take (d.kp - 24)
    seg ++ crc24b seg

/-- A parity check as an equation over the parity bits: bit j stands for parity bit j, bit `n` for the sum of the
systematic bits. -/
def parityEq (bg zc n : Nat) (sys : List Bool) (layer z : Nat) : Nat :=
  (checkVars bg zc layer z).foldl (fun a v =>
    Nat.xor a (if v < sys.length then b2n (sys.getD v false) * 2 ^ n else 2 ^ (v - sys.length))) 0

/-- One step of Gauss–Jordan elimination, on unknown j: the equations already used, and those left. -/
def pivotOn (z : List Nat × List Nat) (j : Nat) : List Nat × List Nat :=
  match z.2.find? fun e => bitAt e j with
  | none => z
  | some p =>
    let clear (e : Nat) : Nat := if bitAt e j then Nat.xor e p else e
    (z.1.map clear ++ [p], (z.2.erase p).map clear)

/-- The n unknowns that meet equations over GF(2); the right side of each is its bit n. -/
def solveBits (n : Nat) (eqs : List Nat) : List Bool :=
  let used := ((List.range n).foldl pivotOn ([], eqs)).1
  (List.range n).map fun j =>
    match used.find? fun e => bitAt e j with
    | some e => bitAt e n
    | none => false

/-- The parity bits of a block: those with which every check of the base graph holds (TS 38.212 clause 5.3.2). -/
def ldpcParity (bg zc : Nat) (sys : List Bool) : List Bool :=
  let n := layers bg * zc
  solveBits n ((List.range (layers bg)).flatMap fun l => (List.range zc).map fun z => parityEq bg zc n sys l z)

/-- The E_r interleaved bits of one block. -/
def matchBlock (p : LdpcRec) (d : LdpcDims) (blk : List Bool) (e : Nat) : List Bool :=
  let sys := blk ++ List.replicate (d.k - d.kp) false
  let cw := (sys ++ ldpcParity p.bg d.zc sys).drop (2 * d.zc)
  let order := sendOrder p d
  (List.range e).map fun f =>
    let k := f % p.qm * (e / p.qm) + f / p.qm
    cw.getD (order.getD (k % max order.length 1) 0) false

/-- The G bits that LDPC_ENC sends. Bits beyond the blocks', when NL × Qm does not divide G, are free, and the same for equal
inputs (R180). -/
def encodeTb (p : LdpcRec) (d : LdpcDims) (tb : List Bool) : List Bool :=
  let sent := (codeBlocks p d tb).zipIdx.flatMap fun b => matchBlock p d b.1 (blockLen p d.c b.2)
  let all := sent ++ (List.range (p.g - sent.length)).map fun i => bitAt (Config.freeFor 8 [p.g, p.nl, p.qm, i] ) 0
  if p.scr then (all.zip (scrambling p.cInit p.g)).map fun z => z.1 != z.2 else all

end Sys2Proof.Machine
end

