-- ==== Sys2Proof/Machine/Polar.lean ====
section
/-! DEFINITION. The polar chains of R328. What R318 and R328 take from TS 38.212 is PRESUMED from that document, except the
polar sequence, the interleaving pattern and the paths of list decoding, which stay free (log entry 30). -/
namespace Sys2Proof.Machine

/-! ### The polar parameter record -/

/-- The polar parameter record. -/
structure PolarRec where
  typ : Nat
  a : Nat
  e : Nat
  rnti : Nat
  result : Nat
  payload : List Byte
  deriving DecidableEq, Repr

/-- Its fields. -/
def parsePolar (b : List Byte) : PolarRec :=
  { typ := bits (w32At b 0) 1 0, a := bits (w32At b 0) 15 4, e := bits (w32At b 0) 31 16
    rnti := bits (w32At b 4) 15 0, result := bits (w64At b 8) 47 0, payload := sub b 0x10 0x30 }

/-- Segments of a UCI payload (TS 38.212 clause 5.2.1; PRESUMED). -/
def uciSegments (a e : Nat) : Nat := if 1013 ≤ a || (360 ≤ a && 1088 ≤ e) then 2 else 1

/-- A UCI decode lies in Table 1 (R318). -/
def uciOk (p : PolarRec) : Bool :=
  p.typ = 0 && 12 ≤ p.a && p.a ≤ 1706 && 1 ≤ p.e && p.e ≤ 8192 * uciSegments p.a p.e


/-! ### Code construction (TS 38.212 clauses 5.3.1 and 5.4.1) -/

/-- CRC 24C. -/
def crc24c (l : List Bool) : List Bool := crcBits 24 0xB2B117 l
/-- CRC 11. -/
def crc11 (l : List Bool) : List Bool := crcBits 11 0x621 l
/-- CRC 6. -/
def crc6 (l : List Bool) : List Bool := crcBits 6 0x21 l

/-- The sub-block interleaver pattern (Table 5.4.1.1-1). -/
def subBlockPattern : List Nat :=
  [0, 1, 2, 4, 3, 5, 6, 7, 8, 16, 9, 17, 10, 18, 11, 19, 12, 20, 13, 21, 14, 22, 15, 23, 24, 25, 26, 28, 27, 29, 30, 31]

/-- J(n) of a code of N bits. -/
def subBlock (n i : Nat) : Nat := subBlockPattern.getD (32 * i / n) 0 * (n / 32) + i % (n / 32)

/-- The least m with x ≤ 2^m. -/
def log2Up (x : Nat) : Nat := if x ≤ 1 then 0 else Nat.log2 (x - 1) + 1

/-- A polar code: K information bits (CRC included) and parity-check bits among N, sent as E. -/
structure PolarCode where
  k : Nat
  e : Nat
  n : Nat
  pc : Nat
  deriving DecidableEq, Repr

/-- N of a code whose exponent is at most `top`. -/
def polarSize (k e top : Nat) : Nat :=
  let l := log2Up e
  let n1 := if 8 * e ≤ 9 * 2 ^ (l - 1) && 16 * k < 9 * e then l - 1 else l
  2 ^ max (min (min n1 (log2Up (8 * k))) top) 5

/-- Bits are punctured, not shortened, where fewer than N are sent. -/
def punctures (c : PolarCode) : Bool := 16 * c.k ≤ 7 * c.e

/-- Positions frozen by rate matching. -/
def preFrozen (c : PolarCode) : List Nat :=
  if c.n ≤ c.e then []
  else if punctures c then
    let head := if 3 * c.n ≤ 4 * c.e then (3 * c.n - 2 * c.e + 3) / 4 else (9 * c.n - 4 * c.e + 15) / 16
    (List.range (c.n - c.e)).map (subBlock c.n) ++ List.range head
  else (List.range (c.n - c.e)).map fun i => subBlock c.n (c.e + i)

/-- Positions that may carry a bit, the most reliable first. -/
def byReliability (c : PolarCode) : List Nat :=
  let frozen := preFrozen c
  (((List.range 1024).reverse.map Config.polarSeq).filter fun i => i < c.n && !frozen.contains i)

/-- Q_I by reliability: the positions of the information and parity-check bits. -/
def infoSet (c : PolarCode) : List Nat := (byReliability c).take (c.k + c.pc)

/-- Ones in the binary form of a position below 1024: the logarithm of its row's weight. -/
def onesIn (i : Nat) : Nat := (List.range 10).countP (bitAt i)

/-- The position of least row weight, the most reliable of several. -/
def lightest (l : List Nat) : List Nat :=
  let w := (l.map onesIn).foldl min 10
  (l.find? fun i => onesIn i = w).toList

/-- Q_PC: the least reliable positions, and where E − K > 189 one of least row weight among the others. -/
def parityPlaces (c : PolarCode) : List Nat :=
  if c.pc = 0 then []
  else
    let light := if c.k + 189 < c.e then 1 else 0
    (infoSet c).drop (c.k + light) ++ (if light = 1 then lightest ((infoSet c).take c.k) else [])

/-- The shift register of the parity-check bits: the bits u so far in reverse, the register, the information bits left. -/
structure PolarIn where
  u : List Bool
  y : List Bool
  left : List Bool
  deriving DecidableEq, Repr

/-- One position of u. -/
def polarIn (info par : List Nat) (z : PolarIn) (i : Nat) : PolarIn :=
  let y := z.y.tail ++ z.y.take 1
  if !info.contains i then { z with u := false :: z.u, y := y }
  else if par.contains i then { z with u := y.headD false :: z.u, y := y }
  else
    let b := z.left.headD false
    { u := b :: z.u, y := y.set 0 (y.headD false != b), left := z.left.tail }

/-- The n-fold transform of u: each half of the recursion on pairs. -/
def polarTransform : Nat → List Bool → List Bool
  | 0, l => l
  | n + 1, l =>
    let h := 2 ^ n
    let a := l.take h
    let b := l.drop h
    polarTransform n ((a.zip b).map fun z => z.1 != z.2) ++ polarTransform n b

/-- The N coded bits of K bits. -/
def polarCode (c : PolarCode) (bits : List Bool) : List Bool :=
  let z := (List.range c.n).foldl (polarIn (infoSet c) (parityPlaces c))
    { u := [], y := List.replicate 5 false, left := bits }
  polarTransform (log2Up c.n) z.u.reverse

/-- The coded bit that is sent k-th of E (clauses 5.4.1.1 and 5.4.1.2). -/
def sentPlace (c : PolarCode) (k : Nat) : Nat :=
  subBlock c.n (if c.n ≤ c.e then k % c.n else if punctures c then k + c.n - c.e else k)

/-! ### DCI and BCH encode -/

/-- The interleaving before the code (clause 5.3.1.1). -/
def dlInterleave (l : List Bool) : List Bool :=
  (((List.range 164).map Config.polarIl).filter fun m => 164 ≤ m + l.length).map fun m => l.getD (m + l.length - 164) false

/-- The payload with its CRC 24C: that of a DCI is taken behind 24 ones, with the RNTI in its last 16 bits (clause 7.3.2). -/
def withCrc (dci : Bool) (rnti : Nat) (l : List Bool) : List Bool :=
  if dci then
    let crc := crc24c (List.replicate 24 true ++ l)
    l ++ crc.take 8 ++ ((crc.drop 8).zipIdx.map fun z => z.1 != bitAt rnti (15 - z.2))
  else l ++ crc24c l

/-- The E bits of a DCI (padded with zeros to 12 bits) or of the BCH. A DCI with more bits than E can carry has no code in
TS 38.212: its bits are free, and the same for equal inputs (R180, log entry 30). -/
def dlEncode (dci : Bool) (e rnti : Nat) (payload : List Bool) : List Bool :=
  let l := if dci then payload ++ List.replicate (12 - payload.length) false else payload
  let k := l.length + 24
  let c : PolarCode := { k := k, e := e, n := polarSize k e 9, pc := 0 }
  if e < k then (List.range e).map fun i => bitAt (Config.freeFor 10 (e :: rnti :: i :: l.map b2n)) 0
  else
    let d := polarCode c (dlInterleave (withCrc dci rnti l))
    (List.range e).map fun i => d.getD (sentPlace c i) false

/-! ### UCI decode -/

/-- The side of the channel interleaver's triangle: the least T with T (T + 1) / 2 ≥ E (clause 5.4.1.3). -/
def triangleSide (e : Nat) : Nat := ((List.range 129).find? fun t => e ≤ t * (t + 1) / 2).getD 129

/-- First place of a row of the triangle. -/
def triangleRow (t i : Nat) : Nat := i * t - i * (i - 1) / 2

/-- The places of the bits before the channel interleaver, in sending order. -/
def triangleOrder (e : Nat) : List Nat :=
  let t := triangleSide e
  ((List.range t).flatMap fun j => (List.range (t - j)).map fun i => triangleRow t i + j).filter (· < e)

/-- What the decoder knows of coded bit i: the sum of what came for it, 0 with nothing, none where it is a bit shortened
away, which is known to be 0. -/
def codedSoft (c : PolarCode) (llr : List Int) : List (Option Int) :=
  let got := ((triangleOrder c.e).zip llr).foldl (fun (l : List Int) z =>
    let i := sentPlace c z.1
    l.set i (l.getD i 0 + z.2)) (List.replicate c.n 0)
  let gone := if c.n ≤ c.e || punctures c then [] else preFrozen c
  got.zipIdx.map fun z => if gone.contains z.2 then none else some z.1

/-- The CRC of a UCI segment, by the payload's A. -/
def uciCrc (a : Nat) (l : List Bool) : List Bool := if a ≤ 19 then crc6 l else crc11 l

/-- A UCI segment decoded: the first of eight paths whose CRC passes, else the best path. -/
def uciSegment (a body e : Nat) (llr : List Int) : Bool × Nat × List Bool :=
  let k := body + (if a ≤ 19 then 6 else 11)
  let c : PolarCode := { k := k, e := e, n := polarSize k e 10, pc := if a ≤ 19 then 3 else 0 }
  let ok (p : List Bool × Nat) : Bool := uciCrc a (p.1.take body) = p.1.drop body
  let paths := (Config.polarPaths 8 c.n (infoSet c) (parityPlaces c) (codedSoft c llr)).take 8
  let best := (paths.find? ok).getD (paths.headD ([], 0))
  (ok best, best.2, best.1.take body)

/-- A UCI payload decoded: its CRCs pass, the path metric, its A bits. The metric of two segments' two paths is free, and the
same for equal inputs (R180, log entry 30). -/
def uciDecode (a e : Nat) (llr : List Int) : Bool × Nat × List Bool :=
  let c := uciSegments a e
  let body := (a + c - 1) / c
  let r := (List.range c).map fun i => uciSegment a body (e / c) ((llr.drop (i * (e / c))).take (e / c))
  (r.all (·.1),
    (match r with
    | [one] => one.2.1
    | _ => Config.freeFor 9 (r.map (·.2.1))),
    (r.flatMap (·.2.2)).drop (body * c - a))

end Sys2Proof.Machine
end

