-- ==== Sys2Proof/Machine/Coding.lean ====
section
/-! DEFINITION. The coding engine's operations and its HARQ pool (R319 to R338). -/
namespace Sys2Proof.Machine

/-! ### Operands of CD operations -/

/-- An operand in a format with an extent along DIM0: other than that it is inconsistent with the record, CD_PARAM (R319,
R338). -/
def cdOperand (s : State) (g : Agent) (ref fmt n : Nat) (store : Bool) : State × Res Operand :=
  match operand s g ref store with
  | (s, .fail f) => (s, .fail f)
  | (s, .ok o) =>
    if o.lay.fmt ≠ fmt || o.lay.dims.getD 0 0 ≠ n then (s, .fail ⟨6, 0x20, false⟩)
    else if !windowOk o [0] [n] then (s, .fail ⟨4, 0xD5, false⟩)
    else (s, .ok o)

/-- Indices 0 to n − 1 along DIM0. -/
def line (n : Nat) : List (List Int) := (List.range n).map fun i => [((i : Nat) : Int), 0, 0, 0, 0]

/-- Store bytes along DIM0. -/
def storeLine (s : State) (g : Agent) (o : Operand) : List Byte → Nat → State × Res Unit
  | [], _ => (s, .ok ())
  | b :: rest, i =>
    match writeElem s g o [((i : Nat) : Int), 0, 0, 0, 0] b.toNat with
    | (s, .fail f) => (s, .fail f)
    | (s, .ok ()) => storeLine s g o rest (i + 1)

/-- The 64 B record that an operation reads once at its start (R319). -/
def cdRecord (s : State) (x : Run) (o : ListOp) : State × Res (List Byte) :=
  readUse s (agentOf x) (bits (xw o 1) 47 0) 64

/-- DETAIL bits of a CD completion add up over its list (R337). -/
def cdDetail (s : State) (x : Run) (d : Nat) : State := modRun s x.id fun y => { y with detail := Nat.lor y.detail d }

/-! ### The HARQ pool (R330 to R336) -/

/-- A HARQ entry. -/
def harqOf (s : State) (e : Nat) : Harq := tblGet {} s.ce.harq e

/-- Put a HARQ entry. -/
def setHarq (s : State) (e : Nat) (h : Harq) : State := { s with ce := { s.ce with harq := tblSet {} s.ce.harq e h } }

/-- Pages of the pool; one that reaches beyond HBM_CAP is empty (R330). -/
def poolPages (s : State) : Nat :=
  if (reg s 0xE0010 + reg s 0xE0014) * 4096 ≤ hbmCap s then reg s 0xE0014 else 0

/-- Pages a function holds, reservations included. -/
def pagesOf (s : State) (fn : Nat) : Nat :=
  s.ce.harq.foldl (fun a e => if e.2.func = fn then a + e.2.pages.length + e.2.reserved.length else a) 0

/-- Pages of all functions. -/
def pagesUsed (s : State) : List Nat := s.ce.harq.flatMap fun e => e.2.pages ++ e.2.reserved

/-- n pool pages that hold nothing: which the device takes the spec does not say, here those of the lowest HBM offsets
(DESIGN CHOICE, log entry 47). -/
def freePages (s : State) (n : Nat) : List Nat :=
  (((List.range (poolPages s)).map (reg s 0xE0010 + ·)).filter fun i => !(pagesUsed s).contains i).take n

/-- The parts of pages that hold the first n bytes of a content. -/
def pageParts (pages : List Nat) (n : Nat) : List (Nat × Nat) :=
  pages.zipIdx.map fun e => (e.1 * 4096, min 4096 (n - e.2 * 4096))

/-- The coding engine reaches the pool by HBM offset, without translation (R330). -/
def readPages (s : State) (x : Run) (pages : List Nat) (n : Nat) : State × Data :=
  hbmRead s (agentOf x) (pageParts pages n) { bytes := [] }

/-- The entry of (function, KEY), or the place an operation holds for it. -/
def findHarq (s : State) (fn key : Nat) : Option (Nat × Harq) :=
  s.ce.harq.find? fun e => e.2.func = fn && e.2.key = key && (e.2.st ≠ 0 || e.2.heldBy.isSome)

/-- A reservation fits the pool and the quota. -/
def fits (s : State) (fn n : Nat) : Bool :=
  pagesOf s fn + n ≤ reg s (0xE0100 + 8 * fn) && (pagesUsed s).length + n ≤ poolPages s

/-- An entry of a function that may be evicted: DECODED, or OPEN and untouched for CE_HARQ_AGE ms, and not held. -/
def evictable (s : State) (fn : Nat) (h : Harq) : Bool :=
  h.func = fn && h.heldBy.isNone
  && (h.st = 2 || (h.st = 1 && fld s 0xE0018 15 0 ≠ 0 && fld s 0xE0018 15 0 * 100000 ≤ s.sclk - h.used))

/-- The entry evicted next: DECODED ones first, the least recently used first (R333). -/
def victim (s : State) (fn : Nat) : Option Nat :=
  (s.ce.harq.filter fun e => evictable s fn e.2).foldl (fun best e =>
    match best with
    | none => some e.1
    | some b =>
      let h := harqOf s b
      if (h.st, e.2.used) = (e.2.st, h.used) then some b
      else if e.2.st = h.st then (if e.2.used < h.used then some e.1 else some b)
      else if e.2.st = 2 then some e.1 else some b) none

/-- Evict until a reservation fits or no entry is left to evict; the first argument bounds the evictions. -/
def evictFor : Nat → State → Nat → Nat → State
  | 0, s, _, _ => s
  | k + 1, s, fn, n =>
    if fits s fn n then s
    else match victim s fn with
    | none => s
    | some e =>
      let s := { s with ce := { s.ce with harq := tblDel s.ce.harq e, evict := satInc 0xFFFFFFFF s.ce.evict } }
      evictFor k (setFlag s 2561) fn n

/-- A free entry: the choice among them is free. -/
def freeHarq (s : State) : Option Nat :=
  let c := Config.freeNat s.choice % 16384
  if (tblGet? s.ce.harq c).isNone then some c
  else (List.range 16384).find? fun e => (tblGet? s.ce.harq e).isNone

/-- What an LDPC_DEC makes of its entry at its start (R331 Table 5): combine with it, answer from it, or decode alone; with
the record's flags NEW 0x20, MISMATCH 0x04, MISS 0x02. -/
inductive HarqUse where
  | alone (flags : Nat)
  | combine
  | answer
  deriving DecidableEq, Repr

/-- See HarqUse. -/
def harqUse (p : LdpcRec) (d : LdpcDims) (h : Option Harq) : HarqUse :=
  match h with
  | none => .alone 0x20
  | some h =>
    if h.st = 0 || h.ndi ≠ p.ndi then .alone 0x20
    else if h.tbs ≠ p.tbs || h.bg ≠ p.bg || h.ncb ≠ d.ncb then .alone 0x24
    else if h.st = 1 then .combine
    else .answer

/-! ### Taking an entry in turn (R332) -/

/-- Two operations of one function meet on an entry: equal keys, or one of them names every key. -/
def keysMeet (a b : Option Nat) : Bool := a.isNone || b.isNone || a = b

/-- An operation waits for an entry that this one wants, having come before turn t. -/
def waiterBefore (s : State) (fn : Nat) (key : Option Nat) (t : Nat) : Bool :=
  s.runs.any fun y => y.cls = 1 && y.fn = fn && y.segs.any fun g => !g.ended &&
    (match g.phase with
    | .harq u k _ => u < t && keysMeet key k
    | _ => false)

/-- An operation holds an entry that this one wants. -/
def entryHeld (s : State) (fn : Nat) (key : Option Nat) : Bool :=
  s.ce.harq.any fun e => e.2.func = fn && e.2.heldBy.isSome && keysMeet key (some e.2.key)

/-- The entry is this operation's to take now. -/
def entryFree (s : State) (fn : Nat) (key : Option Nat) (t : Nat) : Bool :=
  !entryHeld s fn key && !waiterBefore s fn key t

/-- A stored read returns poison: the entry is dropped and counted (R336). -/
def dropPoisoned (s : State) (e : Nat) : State :=
  setFlag { s with ce := { s.ce with harq := tblDel s.ce.harq e, drop := satInc 0xFFFFFFFF s.ce.drop } } 2563

/-- The decode will store nothing: the previous entry is held as it is (R333). -/
def noStore (s : State) (x : Run) (u : Nat) (e : Option Nat) (job : CdJob) (flags : Nat) (comb : Bool) : State :=
  let s := match e with
    | some i => setHarq s i { harqOf s i with heldBy := some u }
    | none => s
  let s := setFlag { s with ce := { s.ce with noStore := satInc 0xFFFFFFFF s.ce.noStore } } 2562
  setPhase (cdDetail s x 8) x u (.decoding job e (flags + 1) comb)

/-- The entry is held with its reservation, or what the operation would store is given up (R333). -/
def reserve (s : State) (x : Run) (u key : Nat) (e : Option Nat) (job : CdJob) (flags need : Nat) (comb : Bool) : State :=
  let s := match e with
    | some i => setHarq s i { harqOf s i with heldBy := some u }
    | none => s
  let s := evictFor (s.ce.harq.length + 1) s x.fn need
  if !fits s x.fn need then noStore s x u e job flags comb
  else match e with
  | some i => setPhase (setHarq s i { harqOf s i with reserved := freePages s need }) x u (.decoding job e flags comb)
  | none =>
    match freeHarq s with
    | none => noStore s x u none job flags comb
    | some i =>
      let s := setHarq (takeChoice s) i { func := x.fn, key := key, heldBy := some u, reserved := freePages s need }
      setPhase s x u (.decoding job (some i) flags comb)

/-- Pages of the OPEN form (R333). -/
def openPages (d : LdpcDims) : Nat := (d.c * d.ncb + 4095) / 4096

/-- Pages of the DECODED form. -/
def donePages (p : LdpcRec) (d : LdpcDims) : Nat := (p.tbs / 8 + 32 + 2 * d.c + 4095) / 4096

/-- Bytes of the content that an LDPC_DEC reads of its entry: the soft values it combines with, or the block and the record
it answers with. -/
def contentBytes (p : LdpcRec) (d : LdpcDims) : HarqUse → Nat
  | .alone _ => 0
  | .combine => d.c * d.ncb
  | .answer => p.tbs / 8 + 32 + 2 * d.c

/-- The entry is taken, with what was read of it. -/
def useHarq (s : State) (x : Run) (u i : Nat) (p : LdpcRec) (d : LdpcDims) (job : CdJob) : HarqUse → State
  | .alone f => reserve (if bitAt f 2 then cdDetail s x 0x20 else s) x u p.key (some i) job f (openPages d) false
  | .combine => reserve s x u p.key (some i) job 0 (openPages d) true
  | .answer => setPhase (setHarq s i { harqOf s i with heldBy := some u }) x u (.decoding job (some i) 0 false)

/-- An LDPC_DEC takes its entry and reads it (R331, R332, R333); a read that returns poison drops it (R336). -/
def takeHarq (s : State) (x : Run) (u : Nat) (job : CdJob) : State :=
  let p := parseLdpc job.params
  let d := dimsOf p
  match findHarq s x.fn p.key with
  | none => reserve s x u p.key none job 0x20 (openPages d) false
  | some (i, h) =>
    let use := harqUse p d (some h)
    let (s, c) := readPages s x h.pages (contentBytes p d use)
    if c.poison.isEmpty then useHarq s x u i p d { job with stored := c.bytes } use
    else reserve (cdDetail (dropPoisoned s i) x 0x10) x u p.key none job 0x22 (openPages d) false

/-- HARQ_FREE takes effect (R335). -/
def freeHarqKeys (s : State) (fn : Nat) (key : Option Nat) : State :=
  { s with ce := { s.ce with harq := s.ce.harq.filter fun e => !(e.2.func = fn && keysMeet key (some e.2.key)) } }

/-! ### LDPC_DEC (R321 to R326) -/

/-- The segment of a CD unit with its operation: a coding operation in progress has no stop point (R326). -/
def cdInside (s : State) (u : Nat) : Option (Run × Seg × ListOp) :=
  match current s 1 u with
  | some (x, g) =>
    match g.ops with
    | o :: _ => if unitClocked s 1 u then some (x, g, o) else none
    | [] => none
  | none => none

/-- The binding of a decode's weights (R323): usable with a table of kind 3, its weights for the base graph are read; else
the fixed weights serve. -/
def bindWeights (s : State) (x : Run) (p : LdpcRec) : State × Res (Option (List Nat)) :=
  let b : BindOp := { carrier := p.carrier, sfn := p.sfn, slot := p.slot, table := p.table, ofs := 0, len := 0, tblOfs := 0 }
  let e := resolve s x.fn p.table (bindKey s b)
  let s := addBind (noteKey s x.fn p.table (bindKey s b)) x b e
  match e with
  | none => (s, .ok none)
  | some (i, v) =>
    let s := takeEntry s i
    if v.kind ≠ 3 then (s, .ok none)
    else
      let n := 32 * layers p.bg
      match readUse s (agentOf x) (v.addr + 0x40 + (if p.bg = 0 then 0 else 32 * 46)) n with
      | (s, .fail f) => (s, .fail f)
      | (s, .ok w) => (s, .ok (some (w.map BitVec.toNat)))

/-- The weights of an operation; with the fixed weight in place of a table's the completion says so. -/
def jobWeights (s : State) (x : Run) (p : LdpcRec) (b : List Byte) : State × Res CdJob :=
  if !p.nw then (s, .ok { params := b })
  else match bindWeights s x p with
  | (s, .fail f) => (s, .fail f)
  | (s, .ok none) =>
    (modRun s x.id fun y => { y with fallback := true }, .ok { params := b, fallback := true })
  | (s, .ok (some w)) => (s, .ok { params := b, weights := some w })

/-- LDPC_DEC begins: its checks, its record, its weights and, with HARQ, its entry or a place in the wait for it. -/
def ldpcBegin (s : State) (x : Run) (u : Nat) (o : ListOp) : State :=
  if 24 ≤ u then failResult s x u o.idx 0x21
  else match cdRecord s x o with
  | (s, .fail f) => failWith s x u o.idx f
  | (s, .ok b) =>
    let p := parseLdpc b
    if p.nw && !feat s 3 then failResult s x u o.idx 0xC2
    else if !ldpcOk p || !decBoundOk p then failResult s x u o.idx 0x20
    else
      let s := if p.et then useVar s x else s
      match jobWeights s x p b with
      | (s, .fail f) => failWith s x u o.idx f
      | (s, .ok job) =>
        if !p.harq then setPhase s x u (.decoding job none 0 false)
        else if entryFree s x.fn (some p.key) (s.ce.turns + 1) then takeHarq s x u job
        else setPhase { s with ce := { s.ce with turns := s.ce.turns + 1 } } x u (.harq s.ce.turns (some p.key) job)

/-- HARQ_ENTRY_TAKE (R332): the operation that unit u waits in takes its entry in its turn. -/
def execHarqEntryTake (u : Nat) (s : State) : Host.Outcome State Fault Refusal :=
  done (
    match cdInside s u with
    | none => s
    | some (x, g, o) =>
      match g.phase with
      | .harq t key job =>
        if !entryFree s x.fn key t then s
        else if o.opc = 0x24 then advance (freeHarqKeys s x.fn key) x u
        else takeHarq s x u job
      | _ => s)

/-- Weights of an iteration by layer: the table's bytes, or FIXED_W for every layer (R323). -/
def layerWeights (s : State) (p : LdpcRec) (job : CdJob) (i : Nat) : List Nat :=
  match job.weights with
  | some w => (w.drop (i * layers p.bg)).take (layers p.bg)
  | none => List.replicate (layers p.bg) (fld s 0xE0000 15 8)

/-- Block r is FLOODED (R322): `z` of its `e` received values are 0. -/
def floodedBlock (s : State) (llr : List Int) : Bool :=
  min 100 (fld s 0xE0000 6 0) * llr.length < 100 * llr.countP (· = 0)

/-- The received values in block order, descrambled; −128 counts as −127 (R321). -/
def received (p : LdpcRec) (raw : List Nat) : List Int :=
  let l := raw.map fun w => max (-127) (sext 8 w)
  if p.scr then (l.zip (scrambling p.cInit l.length)).map fun z => if z.2 then -z.1 else z.1 else l

/-- The blocks of a transport block: what each buffer holds after this transmission, and each block decoded. -/
def decodeAll (s : State) (p : LdpcRec) (d : LdpcDims) (job : CdJob) (llr stored : List Int) : List (List Int × Decoded) :=
  (List.range d.c).map fun r =>
    let mine := (llr.drop (blockStart p d.c r)).take (blockLen p d.c r)
    let old := (stored.drop (r * d.ncb)).take d.ncb
    if floodedBlock s mine then (old, { flooded := true })
    else
      let buf := recover p d old mine
      (buf, decodeBlock p d (layerWeights s p job) (Config.etTakesLater s.choice r) buf)

/-- TB_RESULT: 0 PASS, 1 FAIL, 2 FLOODED (R322, R324, R325). -/
def tbResult (p : LdpcRec) (d : LdpcDims) (blocks : List Decoded) : Nat :=
  if blocks.any (·.flooded) then 2
  else
    let body := blocks.flatMap fun b => b.bits.take (d.kp - (if d.c = 1 then 0 else 24))
    let tb := body.take p.tbs
    if blocks.all (·.ok) && body.drop p.tbs = (if tbCrcLen p.tbs = 24 then crc24a tb else crc16 tb) then 0 else 1

/-- The bytes of a passing transport block. -/
def tbBytes (p : LdpcRec) (d : LdpcDims) (blocks : List Decoded) : List Byte :=
  packBits (blocks.flatMap fun b => b.bits.take (d.kp - (if d.c = 1 then 0 else 24))) (p.tbs / 8)

/-- The result record (R325 Table 4). -/
def ldpcRecord (p : LdpcRec) (d : LdpcDims) (blocks : List Decoded) (flags tx entry : Nat) : List Byte :=
  leBytes 4 (tbResult p d blocks + d.c * 2 ^ 8 + blocks.countP (fun b => !b.flooded && !b.ok) * 2 ^ 16
    + blocks.countP (·.flooded) * 2 ^ 24)
  ++ leBytes 4 (flags + tx * 2 ^ 8 + entry * 2 ^ 16)
  ++ leBytes 4 (p.tbs + (blocks.map (·.iters)).foldl max 0 * 2 ^ 24)
  ++ List.replicate 20 0
  ++ blocks.flatMap fun b => leBytes 2 (b.iters + b2n b.ok * 2 ^ 14 + b2n b.flooded * 2 ^ 15)

/-- The entry that the operation still holds: a reset or a change of HBM_CAP may have dropped it. -/
def heldEntry (s : State) (u : Nat) (e : Option Nat) : Option Nat :=
  match e with
  | some i => if (harqOf s i).heldBy = some u then some i else none
  | none => none

/-- The operation gives its entry back as it was. -/
def letGo (s : State) (e : Option Nat) : State :=
  match e with
  | some i =>
    let h := harqOf s i
    setHarq s i (if h.st = 0 then {} else { h with heldBy := none, reserved := [], used := s.sclk })
  | none => s

/-- The commit (R332, R333): the entry's content is replaced, in the reserved pages, and its old pages are freed. -/
def commitHarq (s : State) (x : Run) (i : Nat) (p : LdpcRec) (d : LdpcDims) (pass : Bool) (tx : Nat)
    (soft : List Int) (tb record : List Byte) : State :=
  let content := if pass then tb ++ record else soft.map (BitVec.ofInt 8)
  let need := if pass then donePages p d else openPages d
  let own := (harqOf s i).reserved
  let pages := (own ++ freePages s (need - own.length)).take need
  let s := hbmWrite s (agentOf x) (pageParts pages content.length) content
  setHarq s i { st := if pass then 2 else 1, func := x.fn, key := p.key, ndi := p.ndi, tbs := p.tbs, bg := p.bg, ncb := d.ncb
                tx := tx, pages := pages, used := s.sclk }

/-- An answer from a DECODED entry (R334): its record, and with REDELIVER its bytes. -/
def ldpcAnswer (s : State) (x : Run) (u : Nat) (o : ListOp) (p : LdpcRec) (i : Nat) (stored : List Byte) : State :=
  let old := stored.drop (p.tbs / 8)
  let b0 := (old.getD 0 0).toNat / 16 * 16 + 3
  let b4 := Nat.lor (old.getD 4 0).toNat (if x.redeliver then 8 else 0)
  let record := (old.set 0 (BitVec.ofNat 8 b0)).set 4 (BitVec.ofNat 8 b4)
  let finish (s : State) : State :=
    match writeBytes s (agentOf x) p.result record with
    | (s, .fail f) => failWith s x u o.idx f
    | (s, .ok ()) =>
      let s := letGo { s with ce := { s.ce with already := satInc 0xFFFFFFFF s.ce.already } } (some i)
      advance (cdDetail s x 4) x u
  if !x.redeliver then finish s
  else match cdOperand s (agentOf x (some u)) (xw o 3) 2 (p.tbs / 8) true with
  | (s, .fail f) => failWith s x u o.idx f
  | (s, .ok t) =>
    match storeLine s (agentOf x) t (stored.take (p.tbs / 8)) 0 with
    | (s, .fail f) => failWith s x u o.idx f
    | (s, .ok ()) => finish s

/-- What a decode writes and commits, in that order (R324, R325, R332); each FLOODED block sets its flag (R322). -/
def ldpcFinish (s : State) (x : Run) (u : Nat) (o : ListOp) (p : LdpcRec) (d : LdpcDims) (e : Option Nat) (flags : Nat)
    (comb : Bool) (t : Operand) (res : List (List Int × Decoded)) : State :=
  let blocks := res.map (·.2)
  let r := tbResult p d blocks
  let tb := tbBytes p d blocks
  let held := heldEntry s u e
  let old := match held with | some i => (harqOf s i).tx | none => 0
  let store := !bitAt flags 0
  let tx := if store then (if held.isSome then min 255 ((if comb then old else 0) + 1) else 0) else old
  let entry := match held with | some i => i | none => Config.freeNat s.choice % 65536
  let record := ldpcRecord p d blocks flags tx entry
  let s := setFlags (takeChoice s) (List.replicate (blocks.countP (·.flooded)) 2560)
  let g := agentOf x (some u)
  match (if r = 0 then storeLine s g t tb 0 else (s, .ok ())) with
  | (s, .fail f) => failWith s x u o.idx f
  | (s, .ok ()) =>
    match writeBytes s g p.result record with
    | (s, .fail f) => failWith s x u o.idx f
    | (s, .ok ()) =>
      let s := match held with
        | some i =>
          if store && !g.discard then commitHarq s x i p d (r = 0) tx (res.flatMap (·.1)) tb record else letGo s (some i)
        | none => s
      advance (cdDetail s x (b2n (r = 2) + 2 * b2n (r ≠ 0))) x u

/-- LDPC_DEC ends: operands, received values, decoding, and the commit. -/
def ldpcEnd (s : State) (x : Run) (u : Nat) (o : ListOp) (job : CdJob) (e : Option Nat) (flags : Nat) (comb : Bool) : State :=
  let p := parseLdpc job.params
  let d := dimsOf p
  let g := agentOf x (some u)
  let answered := match heldEntry s u e with
    | some i => (harqOf s i).st = 2 && flags = 0 && !comb
    | none => false
  if answered then ldpcAnswer s x u o p (e.getD 0) job.stored
  else match cdOperand s g (xw o 2) 1 p.g false with
  | (s, .fail f) => failWith s x u o.idx f
  | (s, .ok l) =>
    match cdOperand s g (xw o 3) 2 (p.tbs / 8) true with
    | (s, .fail f) => failWith s x u o.idx f
    | (s, .ok t) =>
      match readElems s g l (line p.g) [] with
      | (s, .fail f) => failWith s x u o.idx f
      | (s, .ok raw) =>
        let stored := match heldEntry s u e with
          | some _ => if comb then job.stored.map (sext 8 ·.toNat) else List.replicate (d.c * d.ncb) 0
          | none => List.replicate (d.c * d.ncb) 0
        ldpcFinish s x u o p d e (flags + (if job.fallback then 0x10 else 0)) comb t
          (decodeAll s p d job (received p raw) stored)

/-- LDPC_DEC (R321): the operation begins, taking its HARQ entry, and with the entry in hand, or with none to take, the
next such command decodes and commits (log entry 32). -/
def execLdpcDec (u : Nat) (s : State) : Host.Outcome State Fault Refusal :=
  done (
    match cdInside s u with
    | some (x, g, o) =>
      match g.phase with
      | .decoding job e flags comb => ldpcEnd s x u o job e flags comb
      | _ => onOp s 1 u 0x20 fun x _ o => ldpcBegin s x u o
    | none => s)

/-! ### LDPC_ENC (R327) -/

/-- An encode whose record is right. -/
def ldpcEncode (s : State) (x : Run) (u : Nat) (o : ListOp) (p : LdpcRec) : State :=
  let g := agentOf x (some u)
  match cdOperand s g (xw o 2) 2 (p.tbs / 8) false with
  | (s, .fail f) => failWith s x u o.idx f
  | (s, .ok t) =>
    match cdOperand s g (xw o 3) 2 ((p.g + 7) / 8) true with
    | (s, .fail f) => failWith s x u o.idx f
    | (s, .ok w) =>
      match readElems s g t (line (p.tbs / 8)) [] with
      | (s, .fail f) => failWith s x u o.idx f
      | (s, .ok raw) =>
        let tb := unpackBits (raw.map (BitVec.ofNat 8))
        match storeLine s g w (packBits (encodeTb p (dimsOf p) tb) ((p.g + 7) / 8)) 0 with
        | (s, .fail f) => failWith s x u o.idx f
        | (s, .ok ()) => advance s x u

/-- LDPC_ENC. -/
def execLdpcEnc (u : Nat) (s : State) : Host.Outcome State Fault Refusal :=
  done (onOp s 1 u 0x21 fun x _ o =>
    if u < 24 || 32 ≤ u then failResult s x u o.idx 0x21
    else match cdRecord s x o with
    | (s, .fail f) => failWith s x u o.idx f
    | (s, .ok b) =>
      let p := parseLdpc b
      if !ldpcOk p || !encBoundOk p then failResult s x u o.idx 0x20 else ldpcEncode s x u o p)

/-! ### Polar codes (R328) -/

/-- An encode lies in Table 1. -/
def dlOk (p : PolarRec) : Bool :=
  (p.typ = 1 && 1 ≤ p.a && p.a ≤ 140 && 1 ≤ p.e && p.e ≤ 1728) || (p.typ = 2 && p.a = 32 && p.e = 864)

/-- The UCI result record, 256 B: verdict, segments, path metric, and the A bits; the rest is 0. -/
def uciRecord (p : PolarRec) (r : Bool × Nat × List Bool) : List Byte :=
  leBytes 4 (b2n r.1 + uciSegments p.a p.e * 2 ^ 8) ++ leBytes 4 r.2.1 ++ List.replicate 8 0
  ++ packBits (r.2.2.take p.a) 240

/-- POLAR_DEC. -/
def execPolarDec (u : Nat) (s : State) : Host.Outcome State Fault Refusal :=
  done (onOp s 1 u 0x22 fun x _ o =>
    if u < 32 || 36 ≤ u then failResult s x u o.idx 0x21
    else match cdRecord s x o with
    | (s, .fail f) => failWith s x u o.idx f
    | (s, .ok b) =>
      let p := parsePolar b
      if !uciOk p then failResult s x u o.idx 0x20
      else match cdOperand s (agentOf x (some u)) (xw o 2) 1 p.e false with
      | (s, .fail f) => failWith s x u o.idx f
      | (s, .ok l) =>
        match readElems s (agentOf x) l (line p.e) [] with
        | (s, .fail f) => failWith s x u o.idx f
        | (s, .ok raw) =>
          let r := uciDecode p.a p.e (raw.map (sext 8))
          match writeBytes s (agentOf x) p.result (uciRecord p r) with
          | (s, .fail f) => failWith s x u o.idx f
          | (s, .ok ()) => advance (if r.1 then s else cdDetail s x 2) x u)

/-- POLAR_ENC. -/
def execPolarEnc (u : Nat) (s : State) : Host.Outcome State Fault Refusal :=
  done (onOp s 1 u 0x23 fun x _ o =>
    if u < 36 || 38 ≤ u then failResult s x u o.idx 0x21
    else match cdRecord s x o with
    | (s, .fail f) => failWith s x u o.idx f
    | (s, .ok b) =>
      let p := parsePolar b
      if !dlOk p then failResult s x u o.idx 0x20
      else match cdOperand s (agentOf x (some u)) (xw o 2) 2 ((p.e + 7) / 8) true with
      | (s, .fail f) => failWith s x u o.idx f
      | (s, .ok w) =>
        let bits := dlEncode (p.typ = 1) p.e p.rnti ((unpackBits p.payload).take p.a)
        match storeLine s (agentOf x) w (packBits bits ((p.e + 7) / 8)) 0 with
        | (s, .fail f) => failWith s x u o.idx f
        | (s, .ok ()) => advance s x u)

/-! ### HARQ_FREE (R335) -/

/-- HARQ_FREE: it frees at once, or waits for an operation that holds an entry it names (R332). -/
def execHarqFree (u : Nat) (s : State) : Host.Outcome State Fault Refusal :=
  done (onOp s 1 u 0x24 fun x _ o =>
    let key := if bitAt o.imm 0 then none else some (bits (xw o 1) 23 0)
    if entryFree s x.fn key (s.ce.turns + 1) then advance (freeHarqKeys s x.fn key) x u
    else setPhase { s with ce := { s.ce with turns := s.ce.turns + 1 } } x u (.harq s.ce.turns key {}))

end Sys2Proof.Machine
end

