-- ==== Sys2Proof/Machine/Frames.lean ====
section
/-! DEFINITION. The formats of frames (R341 to R343, R347, R353, R354, R359): Ethernet, eCPRI and O-RAN headers, which are
PRESUMED from the standards that the spec cites (log entry 33), and block floating point. -/
namespace Sys2Proof.Machine

/-! ### Big-endian fields -/

/-- The word that bytes hold, the highest byte first. -/
def ofBe (l : List Byte) : Nat := l.foldl (fun a b => 256 * a + b.toNat) 0

/-- n bytes of a word, the highest first. -/
def beBytes (n w : Nat) : List Byte := (leBytes n w).reverse

/-- The word at n bytes from an offset, the highest byte first. -/
def beAt (l : List Byte) (o n : Nat) : Nat := ofBe (sub l o n)

/-- The value of bits, the first the highest. -/
def bitsVal (l : List Bool) : Nat := l.foldl (fun a b => 2 * a + b2n b) 0

/-- n bits of a value, the highest first. -/
def valBits (n w : Nat) : List Bool := (List.range n).map fun i => bitAt w (n - 1 - i)

/-! ### Ports, carriers and eAxC entries -/

/-- Byte address of a port's registers. -/
def portReg (p w : Nat) : Nat := 0xF0000 + 0x20 * p + w

/-- The port's address. -/
def portMac (s : State) (p : Nat) : Nat := reg s (portReg p 0x10) + bits (reg s (portReg p 0x14)) 15 0 * 2 ^ 32

/-- MTU; values outside 1500 to 9600 act as 1500. -/
def portMtu (s : State) (p : Nat) : Nat :=
  let m := bits (portCfg s p) 29 16
  if 1500 ≤ m && m ≤ 9600 then m else 1500

/-- A word of a carrier's group. -/
def carReg (s : State) (c w : Nat) : Nat := reg s (0xF4000 + 0x40 * c + w)

/-- The carrier's radio unit address. -/
def ruMac (s : State) (c : Nat) : Nat := carReg s c 8 + bits (carReg s c 0xC) 15 0 * 2 ^ 32

/-- Window field Wi. -/
def carWin (s : State) (c i : Nat) : Int := ((bits (carReg s c (0x10 + 4 * i)) 23 0 : Nat) : Int)

/-- An eAxC table entry's word. -/
def eaxcReg (s : State) (e : Nat) : Nat := reg s (0xF8000 + 8 * e)

/-- VALID entries of a PC_ID. -/
def eaxcOf (s : State) (id : Nat) : List Nat :=
  (List.range 2048).filter fun e => bitAt (eaxcReg s e) 31 && bits (eaxcReg s e) 15 0 = id

/-- CARRIER of an entry. -/
def eaxcCarrier (s : State) (e : Nat) : Nat := bits (eaxcReg s e) 22 16

/-- STREAM of an entry. -/
def eaxcStream (s : State) (e : Nat) : Nat := bits (eaxcReg s e) 28 23

/-- Sequence fields of an entry. -/
def seqOf (s : State) (e : Nat) : EaxcSeq := tblGet {} s.fh.seq e

/-- Put the sequence fields of an entry. -/
def setSeq (s : State) (e : Nat) (q : EaxcSeq) : State := { s with fh := { s.fh with seq := tblSet {} s.fh.seq e q } }

/-- The receive timestamp of an instant at a port (R43). -/
def rxStamp (s : State) (p : Nat) : Int := dieCount s (portDie p) - fld s (0x40200 + 8 * p) 15 0

/-- The transmit timestamp of an instant at a port (R43). -/
def txStamp (s : State) (p : Nat) : Int := dieCount s (portDie p) + fld s (0x40204 + 8 * p) 15 0

/-- UL_COMP or DL_COMP of a placement (R353). -/
def plComp (p : Placed) (dir : Nat) : Nat := if dir = 0 then bits p.cfg.toNat 23 20 else bits p.cfg.toNat 27 24

/-- STATIC_HDR. -/
def plStatic (p : Placed) : Bool := bitAt p.cfg.toNat 28

/-! ### Frames -/

/-- What the headers of a received frame say. -/
structure Header where
  dst : Nat
  src : Nat
  /-- 0 untagged, 1 one C-tag, 2 any other tag or more than one -/
  tags : Nat
  vid : Nat
  typ : Nat
  body : List Byte
  deriving DecidableEq, Repr

/-- An EtherType of a tag. -/
def isTag (t : Nat) : Bool := t = 0x8100 || t = 0x88A8

/-- The headers of a frame (IEEE 802.3, IEEE 802.1Q). -/
def parseFrame (b : List Byte) : Header :=
  let t0 := beAt b 12 2
  let t1 := beAt b 16 2
  if t0 = 0x8100 then
    { dst := beAt b 0 6, src := beAt b 6 6, tags := if isTag t1 then 2 else 1, vid := beAt b 14 2 % 4096, typ := t1, body := b.drop 18 }
  else { dst := beAt b 0 6, src := beAt b 6 6, tags := if isTag t0 then 2 else 0, vid := 0, typ := t0, body := b.drop 14 }

/-- The frame is tagged with the port's VID (R343). -/
def taggedOn (s : State) (p : Nat) (h : Header) : Bool := h.tags = 1 && h.vid = bits (reg s (portReg p 0xC)) 11 0

/-- The classes of R343. -/
inductive RxClass where
  | ptp | esmc | delay | uplane | unsup | other
  deriving DecidableEq, Repr

/-- The class of a frame: the first of Table 2 that matches. -/
def classify (s : State) (p : Nat) (h : Header) : RxClass :=
  let tagged := taggedOn s p h
  if h.tags = 2 || (h.tags = 1 && !tagged) then .other
  else if h.typ = 0x88F7 && (h.dst = 0x011B19000000 || h.dst = 0x0180C200000E || h.dst = portMac s p) then .ptp
  else if h.typ = 0x8809 && (h.body.getD 0 0).toNat = 0x0A && h.dst = 0x0180C2000002 then .esmc
  else if h.typ = 0xAEFE && h.dst = portMac s p then
    let b0 := (h.body.getD 0 0).toNat
    let t := (h.body.getD 1 0).toNat
    let plain := b0 / 16 = 1 && b0 % 2 = 0
    if plain && t = 5 && tagged then .delay
    else if plain && t = 0 && tagged && (List.range 128).any (fun c => ruMac s c = h.src) then .uplane
    else .unsup
  else .other

/-- A timestamp of R41: 48 bits of seconds and 32 bits of nanoseconds. -/
def stampBytes (e : Int) : List Byte :=
  let e := e.toNat
  beBytes 6 (e / 1966080000) ++ beBytes 4 (e % 1966080000 * 1000000000 / 1966080000)

/-- The fraction of a nanosecond that R41 adds to correctionField, in 2^-16 ns. -/
def stampFrac (e : Int) : Nat := e.toNat % 1966080000 * 1000000000 % 1966080000 * 65536 / 1966080000

/-- Put bytes over those at an offset. -/
def overlay (l : List Byte) (o : Nat) (b : List Byte) : List Byte := l.take o ++ b ++ l.drop (o + b.length)

/-- A one-way delay message in an untagged frame (eCPRI 2.0, message type 5): the rest of what it answers stays. -/
def delayFrame (dst src : Nat) (req : List Byte) (action : Nat) (stamp : List Byte) : List Byte :=
  beBytes 6 dst ++ beBytes 6 src ++ beBytes 2 0xAEFE ++
  overlay (overlay (overlay req 5 [BitVec.ofNat 8 action]) 6 stamp) 16 (List.replicate 8 0)

/-! ### Block floating point (R353, R354) -/

/-- Width in bits of a code. -/
def compWidth (code : Nat) : Nat := if code = 0 then 16 else code

/-- Bytes of one PRB. -/
def prbBytes (code : Nat) : Nat := if code = 0 then 48 else 1 + 3 * code

/-- The code is one of the four. -/
def codeOk (code : Nat) : Bool := [0, 9, 12, 14].contains code

/-- The 24 components of a received PRB: whether its exponent was limited, whether it is at maximum (R313), the values. -/
def unpackPrb (code : Nat) (b : List Byte) : Bool × Bool × List Int :=
  let w := compWidth code
  let body := unpackBits (if code = 0 then b else b.drop 1)
  let m := (List.range 24).map fun i => sext w (bitsVal ((body.drop (i * w)).take w))
  let top : Int := 2 ^ (w - 1) - 1
  let full := m.any fun v => v = top || v = -top - 1
  if code = 0 then (false, full, m)
  else
    let e := (b.getD 0 0).toNat % 16
    let e' := min e (16 - w)
    (16 - w < e, e' = 16 - w && full, m.map fun v => v * 2 ^ e')

/-- A value fits a signed width. -/
def fitsIn (w : Nat) (v : Int) : Bool := -(2 ^ (w - 1) : Int) ≤ v && v ≤ 2 ^ (w - 1) - 1

/-- The exponent of a PRB to send. -/
def bfpExp (w : Nat) (x : List Int) : Nat :=
  ((List.range (16 - w)).find? fun e => x.all fun v => fitsIn w (roundHalfEven v e)).getD (16 - w)

/-- A PRB as sent. -/
def packPrb (code : Nat) (x : List Int) : List Byte :=
  let w := compWidth code
  let e := if code = 0 then 0 else bfpExp w x
  let m := x.map fun v => clampInt (-(2 ^ (w - 1) : Int)) (2 ^ (w - 1) - 1) (roundHalfEven v e)
  (if code = 0 then [] else [BitVec.ofNat 8 e]) ++ packBits (m.flatMap fun v => valBits w (trunc w v)) (3 * w)

/-! ### O-RAN headers (CUS-plane) -/

/-- The four bytes that name direction, frame, subframe, slot and first symbol; payloadVersion 1, filterIndex given. -/
def radioHeader (dir filter sfn mu slot sym : Nat) : List Byte :=
  beBytes 4 (dir * 2 ^ 31 + 2 ^ 28 + filter * 2 ^ 24 + sfn % 256 * 2 ^ 16 + slot / 2 ^ mu * 2 ^ 12 + slot % 2 ^ mu * 2 ^ 6 + sym)

/-- udCompHdr of a code: width and method. -/
def compHdr (code : Nat) : Nat := if code = 0 then 0 else code * 16 + 1

/-- An eCPRI message (R359): its type, PC_ID, sequence ID and payload. -/
def ecpri (typ pcid seq : Nat) (payload : List Byte) : List Byte :=
  beBytes 1 0x10 ++ beBytes 1 typ ++ beBytes 2 (payload.length + 4) ++ beBytes 2 pcid ++ beBytes 1 seq ++ beBytes 1 0x80 ++ payload

/-- A message in its frame, with one C-tag of a priority or none (R361). -/
def messageFrame (s : State) (p c pcp : Nat) (m : List Byte) : List Byte :=
  let v := reg s (portReg p 0xC)
  beBytes 6 (ruMac s c) ++ beBytes 6 (portMac s p)
  ++ (if bitAt v 20 then beBytes 2 0x8100 ++ beBytes 2 (pcp * 2 ^ 13 + bits v 11 0) else []) ++ beBytes 2 0xAEFE ++ m

/-! ### C-plane sections (R356) -/

/-- The fields of a section entry (R356 Table 6). -/
structure SecEntry where
  id : Nat
  typ : Nat
  startSym : Nat
  numSym : Nat
  startPrb : Nat
  numPrb : Nat
  reMask : Nat
  eaxc : Nat
  beam : Nat
  symInc : Bool
  ueOrCp : Nat
  frame : Nat
  filter : Nat
  freq : Nat
  time : Nat
  ext : Nat
  bfwTile : Bool
  extLen : Nat
  extOfs : Nat
  deriving DecidableEq, Repr

/-- Their place. -/
def parseEntrySec (b : List Byte) : SecEntry :=
  let w0 := w32At b 0
  let w1 := w32At b 4
  let w2 := w32At b 8
  let w3 := w32At b 0xC
  let w6 := w32At b 0x18
  { id := bits w0 11 0, typ := bits w0 14 12, startSym := bits w0 19 16, numSym := bits w0 23 20
    startPrb := bits w1 9 0, numPrb := bits w1 17 10, reMask := bits w1 29 18
    eaxc := bits w2 15 0, beam := bits w2 30 16, symInc := bitAt w2 31
    ueOrCp := bits w3 15 0, frame := bits w3 23 16, filter := bits w3 27 24
    freq := bits (w32At b 0x10) 23 0, time := bits (w32At b 0x14) 15 0
    ext := bits w6 5 0, bfwTile := bitAt w6 6, extLen := bits w6 31 16, extOfs := w32At b 0x1C }

/-- PRBs of an entry: 0 means all from START_PRB. -/
def entryPrbs (nprb : Nat) (e : SecEntry) : Nat := if e.numPrb = 0 then nprb - e.startPrb else e.numPrb

/-- The fields lie in range (R356). -/
def secFits (nprb : Nat) (e : SecEntry) : Bool :=
  (e.typ = 1 || e.typ = 3 || e.typ = 5) && 1 ≤ e.numSym && e.startSym + e.numSym ≤ 14
  && e.startPrb < nprb && e.startPrb + entryPrbs nprb e ≤ nprb

/-- The eAxC entry that an EAXC names on a carrier. -/
def eaxcOn (s : State) (c id : Nat) : Option Nat := (eaxcOf s id).find? fun e => eaxcCarrier s e = c

/-- Bytes of the application header of a section type. -/
def appBytes (typ : Nat) : Nat := if typ = 3 then 12 else 8

/-- Bytes of a section without extensions. -/
def secBytes (typ : Nat) : Nat := if typ = 3 then 12 else 8

/-- A section as sent, without its extensions. -/
def secHeader (e : SecEntry) : List Byte :=
  beBytes 4 (e.id * 2 ^ 20 + b2n e.symInc * 2 ^ 18 + e.startPrb * 2 ^ 8 + e.numPrb)
  ++ beBytes 2 (e.reMask * 16 + e.numSym)
  ++ beBytes 2 (b2n (e.ext ≠ 0) * 2 ^ 15 + (if e.typ = 5 then e.ueOrCp % 2 ^ 15 else e.beam))
  ++ (if e.typ = 3 then beBytes 4 (e.freq * 256) else [])

/-- The payload of a C-plane message: application header, then its sections with their extensions. -/
def cplanePayload (pl : Placed) (m : FxMsg) (secs : List (SecEntry × List Byte)) : List Byte :=
  let f := (secs.map (·.1)).headD (parseEntrySec [])
  let comp := if m.dir = 0 && !plStatic pl then compHdr (plComp pl 0) else 0
  radioHeader m.dir (if f.typ = 3 then f.filter else 0) m.sfn (plMu pl) m.slot m.sym
  ++ beBytes 1 secs.length ++ beBytes 1 f.typ
  ++ (if f.typ = 3 then beBytes 2 f.time ++ beBytes 1 f.frame ++ beBytes 2 f.ueOrCp ++ beBytes 1 comp else beBytes 2 (comp * 256))
  ++ secs.flatMap fun z => secHeader z.1 ++ z.2

end Sys2Proof.Machine
end

