-- ==== Sys2Proof/Machine/Ingress.lean ====
section
/-! DEFINITION. Port states and received frames: policing, the host PTP queue, delay answers, and U-plane IQ steered into
the tile buffers (R342 to R354, R366, R367). -/
namespace Sys2Proof.Machine

/-! ### Port states (R342) -/

/-- PORT_UP: an enabled port gains block lock; the next frame of each entry sets its expectation (R342, R366). -/
def execPortUp (p : Nat) (s : State) : Host.Outcome State Fault Refusal :=
  done (
    if !s.boot.fwUp || s.boot.recovery || portState s p ≠ 1 || !tblGet false s.power.outputs p then s
    else
      let s := setPort s p { portOf s p with lock := true, up := true }
      let seq := s.fh.seq.map fun e =>
        if plPort (carrierOf s (eaxcCarrier s e.1)).now = p then (e.1, { e.2 with rxKnown := false }) else e
      arrive { s with fh := { s.fh with seq := seq } } (464 + p))

/-- PORT_DOWN: the port loses lock or its clock (R342). -/
def execPortDown (p : Nat) (s : State) : Host.Outcome State Fault Refusal :=
  done (if portState s p = 2 then portLeave s p else s)

/-- RESTART: the port becomes DOWN and retrains (R342). -/
def execRestart (p : Nat) (s : State) : Host.Outcome State Fault Refusal :=
  done (if served s && portState s p = 2 then portLeave s p else s)

/-! ### Policers and the host PTP queue (R344, R367) -/

/-- Rate in frames per second and burst in frames of a policer: 0 PTP, 1 ESMC, 2 DELAY. -/
def policerOf (k : Nat) : Nat × Nat :=
  match k with
  | 0 => (1024, 64)
  | 1 => (16, 4)
  | _ => (128, 8)

/-- A frame takes a token of a policer: whether there is one, and the state after. -/
def police (s : State) (p k : Nat) : State × Bool :=
  let x := portOf s p
  let used := tblGet 0 x.used k - (s.sclk - tblGet 0 x.refill k) * (policerOf k).1
  let ok := used + 10 ^ 8 ≤ (policerOf k).2 * 10 ^ 8
  let used := if ok then used + 10 ^ 8 else used
  (setPort s p { x with used := tblSet 0 x.used k used, refill := tblSet 0 x.refill k s.sclk }, ok)

/-- Entries of a ring of the host PTP queue; LOG2 outside 4 to 12 acts as the nearest (log entry 34). -/
def tqSize (s : State) (tx : Bool) : Nat :=
  2 ^ min 12 (max 4 (if tx then fld s 0xF0410 7 4 else fld s 0xF0410 3 0))

/-- Who reads and writes the rings: the physical function. -/
def tqAgent : Agent := { ctx := 0, cls := 7 }

/-- The driver has enabled the host PTP queue's receive ring. -/
def rxEnabled (s : State) : Bool := bitAt (reg s 0xF0410) 8

/-- A frame goes to the receive ring, or is dropped and counted; without RX_EN, too (R109, R367). -/
def toHostQueue (s : State) (p : Nat) (stamp : Int) (frame : List Byte) : State :=
  if !rxEnabled s || 112 < frame.length then dropRx s p 12
  else
    let n := tqSize s false
    let i := s.fh.rxProd % n
    if (i + 1) % n = reg s 0xF0418 % n then setFlag (dropRx s p 12) 2072
    else
      let a := reg64 s 0xF0400 % 2 ^ 48 + 128 * i
      let head := leBytes 8 (trunc 64 stamp) ++ leBytes 8 (p + frame.length * 2 ^ 16)
      let s := (writeBytes s tqAgent a (head ++ frame)).1
      { s with fh := { s.fh with rxProd := (i + 1) % n } }

/-- Queue a frame for egress. -/
def queueFrame (s : State) (p : Nat) (f : EgFrame) : State :=
  let x := portOf s p
  setPort s p { x with queue := x.queue ++ [{ f with queued := dieCount s (portDie p) }] }

/-- A one-way delay message is answered (R347): a Request with a Response that carries its receive time, a Remote Request
with a Request that takes its own transmit time when it leaves. -/
def answerDelay (s : State) (p : Nat) (h : Header) : State :=
  let src := portMac s p
  match (h.body.getD 5 0).toNat with
  | 0 => queueFrame s p { kind := 4, bytes := delayFrame h.src src h.body 2 (stampBytes (rxStamp s p)) }
  | 3 => queueFrame s p { kind := 4, bytes := delayFrame h.src src h.body 0 (stampBytes 0) }
  | _ => dropRx s p 1

/-! ### U-plane sections (R348 to R354) -/

/-- One section of a U-plane message. -/
structure USection where
  sec : Nat
  rb : Bool
  symInc : Bool
  startPrb : Nat
  numPrb : Nat
  /-- width code, none for a compression that is not supported -/
  code : Option Nat
  data : List Byte
  deriving DecidableEq, Repr

/-- The sections of a payload after its header. Behind a section whose compression is not supported nothing can be found.
The first argument bounds their number. -/
def cutSections (nprb : Nat) (static_ : Option Nat) : Nat → List Byte → List USection
  | 0, _ => []
  | n + 1, b =>
    if b.length < 4 then []
    else
      let w := beAt b 0 4
      let num := if bits w 7 0 = 0 then nprb else bits w 7 0
      let c := (b.getD 4 0).toNat
      let code := match static_ with
        | some k => if codeOk k then some k else none
        | none =>
          if c % 16 = 0 && c / 16 = 0 then some 0
          else if c % 16 = 1 && codeOk (c / 16) && c / 16 ≠ 0 then some (c / 16) else none
      let body := b.drop (if static_.isSome then 4 else 6)
      let u : USection := { sec := bits w 31 20, rb := bitAt w 19, symInc := bitAt w 18, startPrb := bits w 17 8, numPrb := num
                            code := code, data := body }
      match code with
      | none => [u]
      | some k =>
        let len := num * prbBytes k
        { u with data := body.take len } :: cutSections nprb static_ n (body.drop len)

/-- The requested sections that cover a section of a symbol. -/
def covering (c : Carrier) (frame : Int) (slot sym stream : Nat) (u : USection) : List ReqSection :=
  c.requested.filter fun r =>
    r.frame = frame && r.slot = slot && r.sec = u.sec && r.stream = stream && r.startSym ≤ sym && sym < r.startSym + r.numSym
    && r.startPrb ≤ u.startPrb && u.startPrb + (if u.rb then 2 * u.numPrb - 1 else u.numPrb) ≤ r.startPrb + r.numPrb

/-- Every PRB of a requested section of a symbol has arrived. -/
def arrivedWhole (c : Carrier) (sym : Nat) (r : ReqSection) : Bool :=
  (List.range r.numPrb).all fun i => c.arrived.any fun a =>
    a.frame = r.frame && a.slot = r.slot && a.sym = sym && a.sec = r.sec && a.stream = r.stream
    && a.startPrb ≤ r.startPrb + i && r.startPrb + i < a.startPrb + a.numPrb

/-- A symbol is complete: what was requested of it has arrived whole, and something was (R351). -/
def symbolComplete (c : Carrier) (frame : Int) (slot sym : Nat) : Bool :=
  let rs := c.requested.filter fun r => r.frame = frame && r.slot = slot && r.startSym ≤ sym && sym < r.startSym + r.numSym
  !rs.isEmpty && rs.all (arrivedWhole c sym)

/-- The arrival of a symbol is sent, once, its status byte written before it (R351). -/
def announce (s : State) (c : Nat) (p : Placed) (frame : Int) (slot sym v : Nat) : State :=
  let x := carrierOf s c
  if x.announced.contains (frame, slot, sym) then s
  else
    let sfn := (frame.emod 1024).toNat
    let s := symbolStatus s c p sfn slot sym v
    let y := carrierOf s c
    arrive (setCarrier s c { y with announced := y.announced ++ [(frame, slot, sym)] }) (256 + c)

/-- PRBs at maximum are counted; a sum above PRB_THRESH gives the symbol POSSIBLE_CLIP, once, and with ERASE also ERASED
(R313, R314). -/
def countMax (s : State) (c : Nat) (p : Placed) (frame : Int) (slot sym n : Nat) : State :=
  let x := carrierOf s c
  let (old, had) := (x.maxed.find? fun e => e.1 = frame && e.2.1 = slot && e.2.2.1 = sym).elim (0, false) (·.2.2.2)
  let rest := x.maxed.filter fun e => !(e.1 = frame && e.2.1 = slot && e.2.2.1 = sym)
  let cfg := reg s (0xF3000 + 8 * c)
  let th := bits cfg 8 0
  let clip := th ≠ 0x1FF && th < old + n && !had
  let y := { x with
    maxed := if old + n = 0 then rest else rest ++ [(frame, slot, sym, old + n, had || clip)]
    clips := if clip then satInc 0xFFFFFFFF x.clips else x.clips }
  let s := setCarrier s c y
  if clip then symbolStatus s c p (frame.emod 1024).toNat slot sym (if feat s 6 && bitAt cfg 16 then 6 else 2) else s

/-- The bytes of a PRB's twelve REs as CINT16 (R350). -/
def reBytes (v : List Int) : List Byte := v.flatMap fun x => leBytes 2 (trunc 16 x)

/-- One PRB is steered into its tile: the state, with a limited exponent counted, and whether it is at maximum. -/
def steerPrb (s : State) (port : Nat) (pl : Placed) (slot sym stream prb code : Nat) (b : List Byte) : State × Bool :=
  let (lim, top, v) := unpackPrb code b
  let s := if lim then countPort s port 17 else s
  let a := reAddr pl (plArea pl) (plDepth pl) slot sym stream prb 0
  (ingressStore s (streamTile pl stream) a (reBytes v), top)

/-- One section of a symbol (R350 to R354). -/
def steerSection (s : State) (port c : Nat) (pl : Placed) (frame : Int) (slot sym stream : Nat) (u : USection) : State :=
  match u.code with
  | none => dropRx s port 1
  | some code =>
    if (covering (carrierOf s c) frame slot sym stream u).isEmpty then dropRx s port 5
    else
      let s := openSlot s pl (frame.emod 1024).toNat slot
      let (s, n) := (List.range u.numPrb).foldl (fun (z : State × Nat) i =>
        let prb := u.startPrb + (if u.rb then 2 * i else i)
        let (t, top) := steerPrb z.1 port pl slot sym stream prb code (sub u.data (i * prbBytes code) (prbBytes code))
        (t, z.2 + b2n top)) (s, 0)
      let s := countMax s c pl frame slot sym n
      let x := carrierOf s c
      let whole := prbBytes code * u.numPrb ≤ u.data.length
      let piece (i : Nat) : Piece := { frame := frame, slot := slot, sym := sym, sec := u.sec, stream := stream
                                       startPrb := u.startPrb + (if u.rb then 2 * i else i), numPrb := 1 }
      let new := if u.rb then (List.range u.numPrb).map piece else [{ piece 0 with numPrb := u.numPrb }]
      let s := setCarrier s c { x with arrived := if whole then x.arrived ++ new else x.arrived }
      if symbolComplete (carrierOf s c) frame slot sym then announce s c pl frame slot sym 1 else s

/-- The frame whose number modulo 256 a message carries: the nearest to now (R349). -/
def nearFrame (s : State) (t : Int) (id : Nat) : Int :=
  let f := frameNo s t
  let d := ((id : Int) - f).emod 256
  f + (if d < 128 then d else d - 256)

/-- A received sequence ID against the one expected (R366). -/
def checkSeq (s : State) (port e id : Nat) : State :=
  let q := seqOf s e
  let d := (id + 256 - q.rx) % 256
  let s := if !q.rxKnown || d = 0 then s else if d ≤ 128 then countPort s port 10 else countPort s port 11
  if q.rxKnown && 128 < d then s else setSeq s e { q with rx := (id + 1) % 256, rxKnown := true }

/-- The slot that a U-plane header names on a carrier (R349): the placement in force for it, whether admission is open and
since which boundary, its frame, number and start. -/
structure HeaderSlot where
  pl : Placed
  open_ : Bool
  openAt : Int
  frame : Int
  slot : Nat
  start : Int
  deriving DecidableEq, Repr

/-- See HeaderSlot. -/
def headerSlot (s : State) (port c : Nat) (b : List Byte) : HeaderSlot :=
  let frame := nearFrame s (rxStamp s port) (b.getD 1 0).toNat
  let w := beAt b 2 2
  let x := carrierOf s c
  let slotIn (p : Placed) : Nat := bits w 15 12 * 2 ^ plMu p + bits w 11 6
  let start (p : Placed) : Int := frame * frameTc + gpsEpoch + frameOfs s + (slotIn p * slotTc (plMu p) : Nat)
  match pastOf x start with
  | some e => ⟨e.pl, e.open_, e.openAt, frame, slotIn e.pl, start e.pl⟩
  | none => ⟨x.now, x.open_, x.openAt, frame, slotIn x.now, start x.now⟩

/-- The eAxC entry that a PC_ID names on a port for the slot of a header (R348). -/
def steerTo (s : State) (port id : Nat) (b : List Byte) : Option Nat :=
  (eaxcOf s id).find? fun e =>
    let p := (headerSlot s port (eaxcCarrier s e) b).pl
    plEn p && plPort p = port

/-- A U-plane frame's payload: admission, window and sections (R346, R351, R352). -/
def receiveUplane (s : State) (port : Nat) (h : Header) : State :=
  let seq := beAt h.body 6 2
  if seq % 256 ≠ 0x80 then dropRx s port 1
  else
    let b := sub h.body 8 (beAt h.body 2 2 - 4)
    match steerTo s port (beAt h.body 4 2) b with
    | none => dropRx s port 4
    | some e =>
      let c := eaxcCarrier s e
      let s := checkSeq s port e (seq / 256)
      let h := headerSlot s port c b
      let pl := h.pl
      let sym := bits (beAt b 2 2) 5 0
      let air := h.start + symbolOfs (plMu pl) h.slot sym
      let t := rxStamp s port
      if !h.open_ || h.start < h.openAt then dropRx s port 3
      else if t < air + carWin s c 6 then dropRx s port 6
      else if air + carWin s c 7 < t then dropRx s port 7
      else
        let static_ := if plStatic pl then some (plComp pl 0) else none
        let secs := cutSections (plNprb pl) static_ b.length (b.drop 4)
        (secs.foldl (fun (z : State × Nat) u =>
          let sym := if u.symInc then z.2 + 1 else z.2
          (steerSection z.1 port c pl h.frame h.slot sym (eaxcStream s e) u, sym)) (s, sym)).1

/-- Go on by a policer's verdict. -/
def byVerdict (z : State × Bool) (pass drop : State → State) : State := if z.2 then pass z.1 else drop z.1

/-- A frame that its class's policer passes goes on; the others are dropped (R343). -/
def policed (s : State) (p k : Nat) (f : State → State) : State := byVerdict (police s p k) f fun s => dropRx s p 2

/-- An ESMC PDU is consumed by the ETU (R343): a SyncE input that follows the port and whose criterion it ends fails
(R34). The quality level is the low half of the SSM code of G.8264 (log entry 33). -/
def consumeEsmc (s : State) (p : Nat) (body : List Byte) : State :=
  let e := tblGet {} s.fh.esmc p
  let s := { s with fh := { s.fh with
    esmc := tblSet {} s.fh.esmc p { n := e.n + 1, at_ := some s.sclk, ql := (body.getD 13 15).toNat % 16 } } }
  refsRecheck s

/-- A frame of an UP port that the MAC has passed (R343, R344). -/
def receiveFrame (s : State) (p : Nat) (bytes : List Byte) : State :=
  let h := parseFrame bytes
  match classify s p h with
  | .ptp => policed s p 0 fun s => toHostQueue s p (rxStamp s p) bytes
  | .esmc => policed s p 1 fun s =>
    let s := consumeEsmc s p h.body
    if rxEnabled s then toHostQueue s p (rxStamp s p) bytes else s
  | .delay => policed s p 2 fun s => answerDelay s p h
  | .uplane => receiveUplane s p h
  | .unsup => dropRx s p 1
  | .other => dropRx s p 0

/-- PROFILE of a port: it serves the partner's frame preemption (R362). -/
def preempts (s : State) (p : Nat) : Bool := bitAt (portCfg s p) 3

/-- A whole frame that the MAC has passed, unless the steering FIFO is full (R345). -/
def takeFrame (s : State) (p : Nat) (fifoFull : Bool) (bytes : List Byte) : State :=
  if fifoFull then dropRx s p 8 else receiveFrame s p bytes

/-- What a port of profile B does with the partner's preemption (R362): a verification is answered, and the fragments of a
preemptable frame are put together; kinds as the command gives them. A fragment that continues nothing is dropped as a bad
frame is (PRESUMED from IEEE 802.3 clause 99, log entry 33). -/
def mergeFragment (s : State) (p kind : Nat) (fifoFull : Bool) (bytes : List Byte) : State :=
  let x := portOf s p
  match kind, x.frag with
  | 3, _ => setPort s p { x with verified := x.verified + 1 }
  | 4, _ => setPort s p { x with frag := some bytes }
  | 5, some b => setPort s p { x with frag := some (b ++ bytes) }
  | _, some b => takeFrame (setPort s p { x with frag := none }) p fifoFull (b ++ bytes)
  | _, none => dropRx s p 9

/-- FRAME_RECEIVE (R343, R345, R362). With profile A what belongs to preemption is no frame that the MAC passes. -/
def execFrameReceive (p check : Nat) (fifoFull : Bool) (bytes : List Byte) (s : State) :
    Host.Outcome State Fault Refusal :=
  done (
    if portState s p ≠ 2 then s
    else if check = 0 then takeFrame s p fifoFull bytes
    else if 3 ≤ check && preempts s p then mergeFragment s p check fifoFull bytes
    else setFlagIf (check = 2) (2060 + p) (dropRx s p 9))

/-- RX_WINDOW_CLOSE (R351): in an uplink slot, one from which the carrier's C-plane messages requested something, the
arrival of a symbol that is not complete is sent when its window closes, ARRIVED staying 0. -/
def execRxWindowClose (c sfn slot sym : Nat) (s : State) : Host.Outcome State Fault Refusal :=
  done (
    let x := carrierOf s c
    let p := slotPl s c sfn slot
    let close := slotStart s (plMu p) sfn slot + symbolOfs (plMu p) slot sym + carWin s c 7
    let frame := absFrame s sfn
    if plEn p && close ≤ rxStamp s (plPort p) && x.requested.any (fun r => r.frame = frame && r.slot = slot)
    then announce s c p frame slot sym 0 else s)

/-! ### Admission and placement (R346, R349) -/

/-- The count of a placement's port die. -/
def placeCount (s : State) (p : Placed) : Int := dieCount s (portDie (plPort p))

/-- The count stands at a slot boundary of the placement. -/
def atBoundary (s : State) (p : Placed) : Bool := inFrame s (placeCount s p) % slotTc (plMu p) = 0

/-- ADMISSION_OPEN (R346): at a slot boundary B at which the conditions hold. -/
def execAdmissionOpen (c : Nat) (s : State) : Host.Outcome State Fault Refusal :=
  done (
    let x := carrierOf s c
    if placeAdmits s x.now && atBoundary s x.now && !x.open_ then
      setCarrier s c { x with open_ := true, openAt := placeCount s x.now }
    else s)

/-- PLACEMENT_EFFECT (R349): at a slot boundary of the carrier the written placement comes into force, and the earlier one
stays in force for the slots before it. -/
def execPlacementEffect (c : Nat) (s : State) : Host.Outcome State Fault Refusal :=
  done (
    let x := carrierOf s c
    if !x.pending || !atBoundary s x.now then s
    else
      let new : Placed := { cfg := BitVec.ofNat 32 (carReg s c 0), place := BitVec.ofNat 32 (carReg s c 4) }
      let past := x.past ++ [⟨placeCount s x.now, x.now, x.open_, x.openAt⟩]
      settleRadio (setCarrier s c { x with now := new, past := past, pending := false }))

end Sys2Proof.Machine
end

