-- ==== Sys2Proof/Machine/Egress.lean ====
section
/-! DEFINITION. FX operations, run-ahead confirmation, cancels, and Ethernet egress (R41, R42, R188, R352 to R367). -/
namespace Sys2Proof.Machine

/-! ### Messages and their windows (R346, R352, R365) -/

/-- The placement in force for a message's slot (R349). -/
def msgPl (s : State) (m : FxMsg) : Placed := slotPl s m.carrier m.sfn m.slot

/-- Air time of a message's first symbol. -/
def msgAir (s : State) (m : FxMsg) : Int :=
  let mu := plMu (msgPl s m)
  slotStart s mu m.sfn m.slot + symbolOfs mu m.slot m.sym

/-- Index of the MAX field of a message's window; MIN follows it. -/
def winIndex (m : FxMsg) : Nat := if m.plane = 1 then 4 else if m.dir = 1 then 0 else 2

/-- When its window opens and closes. -/
def winOpen (s : State) (m : FxMsg) : Int := msgAir s m - carWin s m.carrier (winIndex m)
/-- See winOpen. -/
def winClose (s : State) (m : FxMsg) : Int := msgAir s m - carWin s m.carrier (winIndex m + 1)

/-- Transmission is open for a slot: the conditions hold, and the slot begins at or after the boundary B at which they
came to hold again (R346). -/
def mayTransmit (s : State) (c : Nat) (m : FxMsg) : Bool :=
  let x := carrierOf s c
  let (p, open_, openAt) := match pastOf x (startIn s m.sfn m.slot) with
    | some e => (e.pl, e.open_, e.openAt)
    | none => (x.now, x.open_, x.openAt)
  let start := startIn s m.sfn m.slot p
  placeAdmits s p && ((open_ && openAt ≤ start) || placeCount s p ≤ start)

/-- A cancel names a message (R363): a C-plane message of its slot that carries the section, or any of it. -/
def cancelled (s : State) (m : FxMsg) : Bool :=
  m.plane = 0 && s.fh.cancels.any fun k =>
    k.1 = m.carrier && k.2.1 = absFrame s m.sfn && k.2.2.1 = m.slot
    && (match k.2.2.2 with
      | some sec => m.sections.contains sec
      | none => true)

/-- Messages of an operation that are withdrawn before it reaches them take no sequence ID (R359, R363). -/
def withdrawMsgs (s : State) (x : Run) (p : Nat) (l : List FxMsg) : State × List FxMsg :=
  let gone := l.filter (cancelled s)
  (gone.foldl (fun s _ => noteMsg (dropTx s p 15) x.ring x.k false) s, l.filter fun m => !cancelled s m)

/-! ### FX_SECTIONS (R355 to R357) -/

/-- Carrier, SFN and slot of an FX operation. -/
def fxCarrier (o : ListOp) : Nat := bits o.imm 6 0
/-- See fxCarrier. -/
def fxSfn (o : ListOp) : Nat := bits o.imm 16 7
/-- See fxCarrier. -/
def fxSlot (o : ListOp) : Nat := bits o.imm 23 17

/-- The carrier is enabled on the port (R355). -/
def fxPlaced (s : State) (c p : Nat) : Bool :=
  plEn (carrierOf s c).now && plPort (carrierOf s c).now = p

/-- The first entry that fails, and how (R356). -/
def entriesBad (s : State) (c sfn slot : Nat) (l : List SecEntry) : Option Nat :=
  l.findSome? fun e =>
    if !secFits (plNprb (slotPl s c sfn slot)) e then some 0x40
    else if (eaxcOn s c e.eaxc).isNone then some 0x41 else none

/-- Read the extension bytes of each entry (R356). -/
def readExts (s : State) (g : Agent) (area : Nat) : List SecEntry → List (List Byte) → State × Res (List (List Byte))
  | [], acc => (s, .ok acc)
  | e :: rest, acc =>
    if e.extLen = 0 then readExts s g area rest (acc ++ [[]])
    else match readUse s g (area + e.extOfs) e.extLen with
    | (s, .fail f) => (s, .fail f)
    | (s, .ok b) => readExts s g area rest (acc ++ [b])

/-- Lengths of the tile bytes that the references of an entry's extensions stand for. -/
def bfwLens (e : SecEntry) (ext : List Byte) : List Nat :=
  if e.bfwTile then (Config.bfwPlaces ext).map fun o => bits (w64At ext o) 47 32 else []

/-- Bytes of a section in its message. -/
def secSize (e : SecEntry) (ext : List Byte) : Nat :=
  secBytes e.typ + ext.length - 8 * (bfwLens e ext).length + (bfwLens e ext).sum

/-- Bytes of a message with sections of a total size: eCPRI header, PC_ID, sequence ID, application header (R357). -/
def cplaneSize (typ size : Nat) : Nat := 8 + appBytes typ + size

/-- Group consecutive entries into messages: those that share EAXC, TYPE and START_SYM, up to the MTU (R357). The second
argument is the message in the making with its size. -/
def groupEntries (mtu : Nat) : List (SecEntry × List Byte × List Byte) → List (SecEntry × List Byte × List Byte) → Nat →
    List (List (SecEntry × List Byte × List Byte))
  | [], cur, _ => if cur.isEmpty then [] else [cur]
  | z :: rest, cur, size =>
    let n := secSize z.1 z.2.2
    match cur with
    | [] => groupEntries mtu rest [z] n
    | h :: _ =>
      if h.1.eaxc = z.1.eaxc && h.1.typ = z.1.typ && h.1.startSym = z.1.startSym && cplaneSize z.1.typ (size + n) ≤ mtu
      then groupEntries mtu rest (cur ++ [z]) (size + n)
      else cur :: groupEntries mtu rest [z] n

/-- The messages of a section list. -/
def cplaneMsgs (s : State) (p : Nat) (o : ListOp) (l : List (SecEntry × List Byte × List Byte)) : List FxMsg :=
  let c := fxCarrier o
  (groupEntries (portMtu s p) l [] 0).map fun grp =>
    let e := (grp.map (·.1)).headD (parseEntrySec [])
    { carrier := c, plane := 0, dir := b2n (bitAt o.imm 24), sfn := fxSfn o, slot := fxSlot o, sym := e.startSym
      eaxc := (eaxcOn s c e.eaxc).getD 0, sections := grp.map fun z => z.1.id, entries := grp.map fun z => z.2 }

/-- One binding is resolved by the final list (R188, R189): squashed as UNCONFIRMED when its late event is due in the very
cycle of the confirmation (R190). -/
def resolveBinding (s : State) (x : Run) (b : Binding) (final : List (List Byte)) : State :=
  let id := x.id
  if b.entries.all fun e => final.contains e.2 then
    if takesLate s x.ring x then finishIfEnded (squash s id 1) id
    else
    let s := modRun s id fun y => { y with bind := some { b with confirmed := true } }
    { s with ra := { s.ra with confirmed := satInc 0xFFFF s.ra.confirmed } }
  else finishIfEnded (squash s id 0) id

/-- The first FX_SECTIONS of an uplink slot resolves every binding of it (R188). -/
def resolveBindings (s : State) (c sfn slot : Nat) (final : List (List Byte)) : State :=
  let key := (c, absFrame s sfn, slot)
  if s.ra.resolved.contains key then s
  else
    let s := { s with ra := { s.ra with resolved := s.ra.resolved ++ [key] } }
    s.runs.foldl (fun t x =>
      match x.bind with
      | some b =>
        if b.carrier = c && b.sfn = sfn && b.slot = slot && !b.confirmed && squashable x then resolveBinding t x b final else t
      | none => t) s

/-- The requested sections of an uplink slot grow by a list's (R351, R357). -/
def requestSections (s : State) (o : ListOp) (l : List SecEntry) : State :=
  let c := fxCarrier o
  let x := carrierOf s c
  let n := plNprb (slotPl s c (fxSfn o) (fxSlot o))
  let add := l.map fun e =>
    ({ frame := absFrame s (fxSfn o), slot := fxSlot o, sec := e.id
       stream := ((eaxcOn s c e.eaxc).map (eaxcStream s)).getD 0
       startPrb := e.startPrb, numPrb := entryPrbs n e, startSym := e.startSym, numSym := e.numSym } : ReqSection)
  setCarrier s c { x with requested := x.requested ++ add }

/-- An FX operation begins to send its messages. -/
def beginFx (s : State) (x : Run) (p : Nat) (l : List FxMsg) : State :=
  let (s, l) := withdrawMsgs s x p l
  settleFx (setPhase s x p (.fx l)) p

/-- A section list that is right: bindings, requests, messages (R188, R351, R357). -/
def startSections (s : State) (x : Run) (p : Nat) (o : ListOp) (l : List (SecEntry × List Byte × List Byte)) : State :=
  if l.any fun z => portMtu s p < cplaneSize z.1.typ (secSize z.1 z.2.2) then failResult s x p o.idx 0x43
  else
    let uplink := !bitAt o.imm 24
    let s := if uplink then
        requestSections (resolveBindings s (fxCarrier o) (fxSfn o) (fxSlot o) (l.map (·.2.1))) o (l.map (·.1))
      else s
    beginFx s x p (cplaneMsgs s p o l)

/-- FX_SECTIONS (R355 to R357). -/
def execFxSections (p : Nat) (s : State) : Host.Outcome State Fault Refusal :=
  done (onOp s 4 p 0x50 fun x _ o =>
    let n := bits (xw o 1) 56 48
    if !fxPlaced s (fxCarrier o) p then failResult s x p o.idx 0x42
    else if n = 0 || 256 < n then failResult s x p o.idx 0x40
    else match readUse s (agentOf x) (bits (xw o 1) 47 0) (32 * n) with
    | (s, .fail f) => failWith s x p o.idx f
    | (s, .ok b) =>
      let raw := cutEntries b n
      let es := raw.map parseEntrySec
      match entriesBad s (fxCarrier o) (fxSfn o) (fxSlot o) es with
      | some r => failResult s x p o.idx r
      | none =>
        match readExts s (agentOf x) (bits (xw o 2) 47 0) es [] with
        | (s, .fail f) => failWith s x p o.idx f
        | (s, .ok exts) => startSections s x p o (es.zip (raw.zip exts)))

/-! ### FX_UPLANE (R358) -/

/-- The fields of a U-plane entry. -/
structure UEntry where
  id : Nat
  startSym : Nat
  numSym : Nat
  startPrb : Nat
  numPrb : Nat
  eaxc : Nat
  tile : Nat
  stride : Nat
  addr : Nat
  deriving DecidableEq, Repr

/-- Their place. -/
def parseUEntry (b : List Byte) : UEntry :=
  let w0 := w32At b 0
  let w1 := w32At b 4
  let w2 := w32At b 8
  { id := bits w0 11 0, startSym := bits w0 19 16, numSym := bits w0 23 20, startPrb := bits w1 9 0, numPrb := bits w1 18 10
    eaxc := bits w2 15 0, tile := bits w2 21 16, stride := bits w2 31 22 * 64, addr := bits (w32At b 0xC) 19 0 }

/-- The fields of an entry lie in range: of the symbols, of the carrier's PRBs and quadrant, and of the tile buffer. -/
def uentryFits (p : Placed) (e : UEntry) : Bool :=
  1 ≤ e.numSym && e.startSym + e.numSym ≤ 14 && 1 ≤ e.numPrb && e.startPrb + e.numPrb ≤ plNprb p
  && e.tile / 16 = plQuad p && inPart 0x40000 0x80000 e.addr ((e.numSym - 1) * e.stride + e.numPrb * 48)

/-- PRBs that fit a message, its U-plane and section headers counted (R358). -/
def prbsPerMsg (mtu : Nat) (p : Placed) : Nat :=
  max 1 ((mtu - 16 - (if plStatic p then 0 else 2)) / prbBytes (plComp p 1))

/-- numPrbu of a section of n PRBs, which has 8 bits: 0, which stands for all PRBs, above 255 (PRESUMED from the O-RAN
CUS-plane, log entry 33). -/
def numPrbu (n : Nat) : Nat := if n ≤ 255 then n else 0

/-- Cut n PRBs into messages of at most k; the first argument bounds their number. -/
def cutPrbs : Nat → Nat → Nat → Nat → List (Nat × Nat)
  | 0, _, _, _ => []
  | f + 1, k, from_, n => if n = 0 then [] else (from_, min n k) :: cutPrbs f k (from_ + min n k) (n - min n k)

/-- The messages of an entry: symbol by symbol, split at PRB boundaries where the MTU requires it. -/
def uplaneMsgs (s : State) (p : Nat) (o : ListOp) (e : UEntry) : List FxMsg :=
  let c := fxCarrier o
  let pl := slotPl s c (fxSfn o) (fxSlot o)
  (List.range e.numSym).flatMap fun i =>
    (cutPrbs e.numPrb (prbsPerMsg (portMtu s p) pl) 0 e.numPrb).map fun z =>
      { carrier := c, plane := 1, dir := 1, sfn := fxSfn o, slot := fxSlot o, sym := e.startSym + i
        eaxc := (eaxcOn s c e.eaxc).getD 0, sections := [e.id]
        tile := e.tile, addr := e.addr + i * e.stride + z.1 * 48, prb := e.startPrb + z.1, num := z.2 }

/-- The 16 B entries of a list of n. -/
def cutUEntries (b : List Byte) (n : Nat) : List UEntry := (List.range n).map fun i => parseUEntry (sub b (16 * i) 16)

/-- FX_UPLANE. -/
def execFxUplane (p : Nat) (s : State) : Host.Outcome State Fault Refusal :=
  done (onOp s 4 p 0x51 fun x _ o =>
    let c := fxCarrier o
    let n := bits (xw o 1) 56 48
    if !fxPlaced s c p then failResult s x p o.idx 0x42
    else if n = 0 || 256 < n then failResult s x p o.idx 0x40
    else match readUse s (agentOf x) (bits (xw o 1) 47 0) (16 * n) with
    | (s, .fail f) => failWith s x p o.idx f
    | (s, .ok b) =>
      let es := cutUEntries b n
      let bad (e : UEntry) : Option Nat :=
        if !uentryFits (slotPl s c (fxSfn o) (fxSlot o)) e then some 0x40
        else if (eaxcOn s c e.eaxc).isNone then some 0x41 else none
      match es.findSome? bad with
      | some r => failResult s x p o.idx r
      | none => beginFx s x p (es.flatMap (uplaneMsgs s p o)))

/-! ### Reaching a message (R357 to R359, R365) -/

/-- Read the tile bytes that references stand for, in turn. -/
def fetchBfws (s : State) (fn : Nat) : List Nat → List (List Byte) → State × Res (List (List Byte))
  | [], acc => (s, .ok acc)
  | w :: rest, acc =>
    match tileFetch s (bits w 5 0) fn (bits w 27 8) (bits w 47 32) with
    | (s, .fail f) => (s, .fail f)
    | (s, .ok b) => fetchBfws s fn rest (acc ++ [b])

/-- Put the fetched bytes in place of the references. -/
def spliceBfws (ext : List Byte) (places : List Nat) (bs : List (List Byte)) : List Byte :=
  ((places.zip bs).reverse).foldl (fun l z => l.take z.1 ++ z.2 ++ l.drop (z.1 + 8)) ext

/-- The sections of a C-plane message with their extensions as sent (R356). -/
def buildSecs (s : State) (fn : Nat) : List (List Byte × List Byte) → List (SecEntry × List Byte) →
    State × Res (List (SecEntry × List Byte))
  | [], acc => (s, .ok acc)
  | z :: rest, acc =>
    let e := parseEntrySec z.1
    if !e.bfwTile then buildSecs s fn rest (acc ++ [(e, z.2)])
    else
      let places := Config.bfwPlaces z.2
      match fetchBfws s fn (places.map fun o => w64At z.2 o) [] with
      | (s, .fail f) => (s, .fail f)
      | (s, .ok bs) => buildSecs s fn rest (acc ++ [(e, spliceBfws z.2 places bs)])

/-- The payload of a message, built when the operation reaches it (R354, R357, R358). -/
def buildMsg (s : State) (x : Run) (m : FxMsg) : State × Res (List Byte) :=
  let pl := msgPl s m
  if m.plane = 0 then
    match buildSecs s x.fn m.entries [] with
    | (s, .fail f) => (s, .fail f)
    | (s, .ok secs) => (s, .ok (cplanePayload pl m secs))
  else
    match tileFetch s m.tile x.fn m.addr (m.num * 48) with
    | (s, .fail f) => (s, .fail f)
    | (s, .ok b) =>
      let code := plComp pl 1
      let vals := (List.range (24 * m.num)).map fun i => sext 16 (ofLe (sub b (2 * i) 2))
      let prbs := (List.range m.num).flatMap fun i => packPrb code ((vals.drop (24 * i)).take 24)
      let sec := m.sections.headD 0
      (s, .ok (radioHeader 1 0 m.sfn (plMu pl) m.slot m.sym
        ++ beBytes 4 (sec * 2 ^ 20 + m.prb * 2 ^ 8 + numPrbu m.num)
        ++ (if plStatic pl then [] else beBytes 2 (compHdr code * 256)) ++ prbs))

/-- The next sequence ID of a message's eAxC entry for its plane; taking it moves the counter on (R359, R366). -/
def takeSeq (s : State) (m : FxMsg) : State × Nat :=
  let q := seqOf s m.eaxc
  if m.plane = 0 then (setSeq s m.eaxc { q with cp := (q.cp + 1) % 256 }, q.cp)
  else (setSeq s m.eaxc { q with up := (q.up + 1) % 256 }, q.up)

/-- A message that is not sent: counted on a port counter and in DETAIL. -/
def dropMsg (s : State) (x : Run) (p k : Nat) : State := noteMsg (dropTx s p k) x.ring x.k false

/-- The operation reaches a message: it takes its ID, and is sent on to egress, or is discarded while transmission is
closed or after its window (R359, R365, R352). -/
def reachMsg (s : State) (x : Run) (p idx : Nat) (m : FxMsg) (rest : List FxMsg) : State :=
  let open_ := mayTransmit s m.carrier m
  let late := winClose s m < txStamp s p
  let close := winClose s m
  let (s, id) := takeSeq s m
  let s := setPhase s x p (.fx rest)
  if !open_ then settleFx (dropMsg s x p 16) p
  else if late then settleFx (dropMsg s x p (if m.plane = 0 then 14 else 13)) p
  else match buildMsg s x m with
  | (s, .fail f) => failWith s x p idx f
  | (s, .ok payload) =>
    let pcp := if m.plane = 0 then bits (reg s (portReg p 0xC)) 14 12 else bits (reg s (portReg p 0xC)) 18 16
    let e := ecpri (if m.plane = 0 then 2 else 0) (bits (eaxcReg s m.eaxc) 15 0) id payload
    queueFrame s p {
      kind := m.plane, close := close, carrier := m.carrier, sfn := m.sfn, slot := m.slot, sections := m.sections
      ring := x.ring, k := x.k, bytes := messageFrame s p m.carrier pcp e }

/-- WINDOW_OPEN (R357): the message that port p's operation waits for is reached once its window is open; an operation
whose last messages were discarded meanwhile goes on (R360, R365). -/
def execWindowOpen (p : Nat) (s : State) : Host.Outcome State Fault Refusal :=
  done (
    match inOp s 4 p with
    | none => s
    | some (x, g, o) =>
      match g.phase with
      | .fx (m :: rest) => if winOpen s m ≤ txStamp s p then reachMsg s x p o.idx m rest else s
      | .fx [] => settleFx s p
      | _ => s)

/-! ### Egress (R41, R42, R361) -/

/-- A timing frame has waited 100 µs. -/
def waited (s : State) (p : Nat) (f : EgFrame) : Bool := f.queued + 196608 ≤ dieCount s (portDie p)

/-- Rank of a queued frame: timing frames that have waited, then messages, then other timing frames. -/
def egRank (s : State) (p : Nat) (f : EgFrame) : Nat := if f.kind < 2 then 1 else if waited s p f then 0 else 2

/-- Frame a goes before frame b, which stands behind it in the queue. -/
def egBefore (s : State) (p : Nat) (a b : EgFrame) : Bool :=
  if egRank s p a ≠ egRank s p b then egRank s p a < egRank s p b
  else egRank s p a ≠ 1 || a.close < b.close || (a.close = b.close && (a.kind ≤ b.kind))

/-- Offset of a frame's PTP header. -/
def ptpAt (b : List Byte) : Nat := if beAt b 12 2 = 0x8100 then 18 else 14

/-- A Sync message. -/
def isSync (f : EgFrame) : Bool := f.kind = 2 && (f.bytes.getD (ptpAt f.bytes) 0).toNat % 16 = 0

/-- No Sync message leaves: TCLK is lost, or the port's die is not aligned (R54, R73, R420). One that is queued waits
(DESIGN CHOICE, log entry 62). -/
def syncStopped (s : State) (p : Nat) : Bool := s.etu.tclkLost || !dieSynced s (portDie p)

/-- Place in the queue of the frame that the arbiter grants. -/
def egPick (s : State) (p : Nat) : List EgFrame → Option (Nat × EgFrame)
  | [] => none
  | f :: rest =>
    match egPick s p rest with
    | none => if isSync f && syncStopped s p then none else some (0, f)
    | some (i, g) =>
      some (if !(isSync f && syncStopped s p) && egBefore s p f g then (0, f) else (i + 1, g))

/-- Queued messages whose window has closed are discarded and counted (R361). -/
def dropLate (s : State) (p : Nat) : State :=
  let gone (k : Nat) (f : EgFrame) : Bool := f.kind = k && f.close < txStamp s p
  discardFrames (discardFrames s p 14 (gone 0)) p 13 (gone 1)

/-- A PTP frame as it leaves: a Sync with twoStepFlag 0 takes its timestamp when one-step is sealed; every other one leaves
its timestamp in the ring of 64 (R41, R42). Nothing takes an entry out of that ring again: the spec names no register and no
command by which the host reads it (DESIGN CHOICE, log entry 63). -/
def stampPtp (s : State) (p : Nat) (f : EgFrame) : State × List Byte :=
  let t := txStamp s p
  let o := ptpAt f.bytes
  let sync := isSync f && !bitAt (f.bytes.getD (o + 6) 0).toNat 1
  if feat s 5 && sync then
    let b := overlay f.bytes (o + 34) (stampBytes t)
    let b := overlay b (o + 8) (beBytes 8 (beAt b (o + 8) 8 + stampFrac t))
    (s, b)
  else
    let x := portOf s p
    if x.txTime.length < 64 then (setPort s p { x with txTime := x.txTime ++ [(f.tag, BitVec.ofInt 64 t)] }, f.bytes)
    else (setPort s p { x with txDrop := satInc 0xFFFFFFFF x.txDrop }, f.bytes)

/-- The bytes with which a frame leaves. -/
def leaving (s : State) (p : Nat) (f : EgFrame) : State × List Byte :=
  if f.kind = 2 then stampPtp s p f
  else if f.kind = 4 && (f.bytes.getD 19 0).toNat = 0 then (s, overlay f.bytes 20 (stampBytes (txStamp s p)))
  else (s, f.bytes)

/-- A granted frame leaves whole (R361). -/
def sendFrame (s : State) (p i : Nat) (f : EgFrame) : State :=
  let x := portOf s p
  let s := setPort s p { x with queue := x.queue.eraseIdx i }
  let (s, b) := leaving s p f
  let y := portOf s p
  let s := setPort s p { y with sent := y.sent + 1, lastFrame := b }
  if f.kind < 2 then noteMsg s f.ring f.k true else s

/-- EGRESS_GRANT (R361): the wire of an UP port is free. -/
def execEgressGrant (p : Nat) (s : State) : Host.Outcome State Fault Refusal :=
  done (
    if portState s p ≠ 2 then s
    else
      let s := dropLate s p
      settleFx (match egPick s p (portOf s p).queue with
        | some (i, f) => sendFrame s p i f
        | none => s) p)

/-! ### Cancels (R363) -/

/-- A queued message is withdrawn by a cancel. -/
def cancelsFrame (c sfn slot : Nat) (sec : Option Nat) (f : EgFrame) : Bool :=
  f.kind = 0 && f.carrier = c && f.sfn = sfn && f.slot = slot
  && (match sec with
    | some x => f.sections.contains x
    | none => true)

/-- The messages that a port's operation has still to reach are withdrawn. -/
def withdrawAhead (s : State) (p : Nat) : State :=
  match current s 4 p with
  | some (x, g) =>
    match g.phase with
    | .fx l =>
      let (s, l) := withdrawMsgs s x p l
      setPhase s x p (.fx l)
    | _ => s
  | none => s

/-- A cancel is evaluated at the arbiter of the carrier's port. Whether a message wins egress in that very cycle is free: it
then leaves whole, and CP_CANCEL_LATE is set (R363). -/
def cancelCp (s : State) (c sfn slot : Nat) (sec : Option Nat) : State :=
  let p := plPort (carrierOf s c).now
  let wins := Config.raceWinner s.choice
  let s := takeChoice s
  let s := match egPick s p (portOf s p).queue with
    | some (i, f) =>
      if cancelsFrame c sfn slot sec f && wins && portState s p = 2 && txStamp s p ≤ f.close
      then setFlag (sendFrame s p i f) 2073 else s
    | none => s
  let s := { s with fh := { s.fh with cancels := insertNew (c, absFrame s sfn, slot, sec) s.fh.cancels } }
  let s := discardFrames s p 15 (cancelsFrame c sfn slot sec)
  settleFx (withdrawAhead s p) p

/-- CP_CANCEL_SECTION. -/
def execCpCancelSection (c sfn slot sec : Nat) (s : State) : Host.Outcome State Fault Refusal :=
  done (if served s then cancelCp s c sfn slot (some sec) else s)

/-- CP_CANCEL_ALL. -/
def execCpCancelAll (c sfn slot : Nat) (s : State) : Host.Outcome State Fault Refusal :=
  done (if served s then cancelCp s c sfn slot none else s)

/-! ### The transmit ring of the host PTP queue (R367) -/

/-- Kind of a frame that the host sends: PTP, ESMC, or neither. -/
def hostKind (b : List Byte) : Option Nat :=
  let h := parseFrame b
  if h.typ = 0x88F7 then some 2
  else if h.typ = 0x8809 && (h.body.getD 0 0).toNat = 0x0A then some 3 else none

/-- A transmit entry's frame goes to its port's queue; one that is neither PTP nor ESMC, or is longer than an entry holds,
is discarded and counted, and a port that is not UP discards it (R365, R367). -/
def sendEntry (s : State) (b : List Byte) : State :=
  let w := w32At b 8
  let p := bits w 3 0
  let n := bits w 27 16
  if 12 ≤ p || !unitExists s 10 p then s
  else match (if 112 < n then none else hostKind (sub b 16 n)) with
  | none => dropTx s p 18
  | some k =>
    if portState s p = 2 then queueFrame s p { kind := k, tag := BitVec.ofNat 64 (w64At b 0), bytes := sub b 16 n } else s

/-- TQ_TRANSMIT: the entry at the consumer index is taken while the ring holds one. -/
def execTqTransmit (s : State) : Host.Outcome State Fault Refusal :=
  done (
    let n := tqSize s true
    let i := s.fh.txCons % n
    if !served s || !bitAt (reg s 0xF0410) 9 || i = reg s 0xF041C % n then s
    else
      let consumed (s : State) : State := { s with fh := { s.fh with txCons := (i + 1) % n } }
      afterRes (readUse s tqAgent (reg64 s 0xF0408 % 2 ^ 48 + 128 * i) 128) (fun s b => sendEntry (consumed s) b)
        fun s _ => consumed s)

end Sys2Proof.Machine
end

