-- ==== Sys2Proof/Machine/Motion.lean ====
section
/-! DEFINITION. Espalier's records and its motion model (R388 to R395, R397, R400, R402). -/
namespace Sys2Proof.Machine

/-! ### Records -/

/-- The cycle parameter record (R388 Table 1). -/
structure TeParam where
  robots : Nat
  nrob : Nat
  out : Nat
  prev : Nat
  occ : Nat
  thresh : Nat
  nsamp : Nat
  inflate : Nat
  tp : Nat
  dt : Nat
  period : Nat
  occT0 : Nat
  occDt : Nat
  nodeMax : Nat
  org : List Int
  vox : Nat
  deriving DecidableEq, Repr

/-- Its fields. -/
def parseTe (b : List Byte) : TeParam :=
  let w0 := w64At b 0
  let w7 := w32At b 0x1C
  { robots := bits w0 47 0, nrob := bits w0 56 48, out := bits (w64At b 8) 47 0, prev := bits (w64At b 0x10) 47 0
    occ := bits (w32At b 0x18) 17 0, thresh := bits w7 7 0, nsamp := bits w7 15 8, inflate := bits w7 31 16
    tp := w64At b 0x20, dt := w32At b 0x28, period := w32At b 0x2C, occT0 := w64At b 0x30, occDt := w32At b 0x38
    nodeMax := bits (w32At b 0x3C) 23 0
    org := [sext 32 (w32At b 0x40), sext 32 (w32At b 0x44), sext 32 (w32At b 0x48)], vox := bits (w32At b 0x4C) 15 0 }

/-- The fields of Table 1 lie in range. -/
def teOk (p : TeParam) : Bool :=
  1 ≤ p.nrob && p.nrob ≤ 256 && 2 ≤ p.nsamp && p.nsamp ≤ 64 && 1966080 ≤ p.dt && p.period % p.dt = 0 && p.dt ≤ p.period
  && p.period ≤ (p.nsamp - 1) * p.dt && p.occDt ≠ 0 && p.nodeMax ≠ 0 && p.vox ≠ 0

/-- PREV's TP fits this cycle's (R389). -/
def prevOk (p : TeParam) (prevTp : Nat) : Bool :=
  prevTp ≤ p.tp && (p.tp - prevTp) % p.dt = 0 && p.tp - prevTp ≤ (p.nsamp - 1) * p.dt

/-- A sphere of a robot's model, in mm. -/
structure Sphere where
  dx : Int
  dy : Int
  dz : Int
  r : Nat
  deriving DecidableEq, Repr

/-- A robot record (R392 Table 3). -/
structure RobotRec where
  id : Nat
  nsph : Nat
  active : Bool
  smooth : Bool
  reseed : Bool
  vmax : Nat
  amax : Nat
  astop : Nat
  rmin : Nat
  tol : Nat
  goalX : Int
  goalY : Int
  state : Pose
  spheres : List Sphere
  deriving DecidableEq, Repr

/-- Its fields. -/
def parseRobot (b : List Byte) : RobotRec :=
  let w0 := w32At b 0
  let w1 := w32At b 4
  let w2 := w32At b 8
  let wv := w32At b 0x28
  let n := bits w0 21 16
  { id := bits w0 15 0, nsph := n, active := bitAt w0 24, smooth := bitAt w0 25, reseed := bitAt w0 26
    vmax := bits w1 15 0, amax := bits w1 31 16, astop := bits w2 15 0, rmin := bits w2 31 16, tol := bits (w32At b 0xC) 15 0
    goalX := sext 32 (w32At b 0x10), goalY := sext 32 (w32At b 0x14)
    state := { x := sext 32 (w32At b 0x20) * 65536, y := sext 32 (w32At b 0x24) * 65536
               yaw := ((bits wv 15 0 * 65536 : Nat) : Int), v := ((bits wv 31 16 * 65536 : Nat) : Int) }
    spheres := (List.range n).map fun k =>
      let w := w64At b (0x40 + 8 * k)
      { dx := sext 16 (bits w 15 0), dy := sext 16 (bits w 31 16), dz := sext 16 (bits w 47 32), r := bits w 63 48 } }

/-- T_STOP in Tc. -/
def stopTime (r : RobotRec) : Nat := (r.vmax * 1966080000 + r.astop - 1) / r.astop

/-- An active robot is none of TE_ROBOT's (R389 Table 2). -/
def robotOk (p : TeParam) (r : RobotRec) : Bool :=
  1 ≤ r.nsph && r.nsph ≤ 32 && r.vmax ≠ 0 && r.amax ≠ 0 && r.astop ≠ 0 && r.rmin ≠ 0
  && p.period + stopTime r ≤ (p.nsamp - 1) * p.dt

/-! ### Fixed-point motion (R393) -/

/-- A division that rounds half to even. -/
def divEven (x : Int) (d : Nat) : Int :=
  let q := x.fdiv d
  let r := x.fmod d
  if 2 * r < d then q else if (d : Int) < 2 * r then q + 1 else if q % 2 = 0 then q else q + 1

/-- Sine of a yaw, in 2^-32: the table with linear interpolation. -/
def sinOf (yaw : Int) : Int :=
  let a := (yaw.emod (2 ^ 32)).toNat
  let lo := Config.sinTable (a / 65536)
  let hi := Config.sinTable ((a / 65536 + 1) % 65536)
  lo + roundHalfEven ((hi - lo) * ((a % 65536 : Nat) : Int)) 16

/-- Cosine of a yaw. -/
def cosOf (yaw : Int) : Int := sinOf (yaw + 2 ^ 30)

/-- Drive an arc length s (2^-16 mm) at curvature n / (2 × RMIN), ending at speed v1. -/
def arc (rmin : Nat) (p : Pose) (n s v1 : Int) : Pose :=
  if n = 0 then
    { x := p.x + roundHalfEven (s * cosOf p.yaw) 32, y := p.y + roundHalfEven (s * sinOf p.yaw) 32, yaw := p.yaw, v := v1 }
  else
    let yaw1 := p.yaw + divEven (n * s * Config.turnScale) (2 * rmin * 2 ^ 32)
    let k : Int := if n < 0 then -(2 * rmin : Int) else (2 * rmin : Int)
    let d := 65536 * n.natAbs
    { x := p.x + divEven ((sinOf yaw1 - sinOf p.yaw) * k) d, y := p.y - divEven ((cosOf yaw1 - cosOf p.yaw) * k) d
      yaw := yaw1, v := v1 }

/-- Tc in a second. -/
def secTc : Nat := 1966080000

/-- Speed after an interval at an acceleration in mm/s². -/
def speedAfter (p : TeParam) (v a : Int) : Int := v + divEven (a * 65536 * p.dt) secTc

/-- Arc length of an interval from speed v0 to v1. -/
def arcLength (p : TeParam) (v0 v1 : Int) : Int := divEven ((v0 + v1) * p.dt) (2 * secTc)

/-- One interval of a path: curvature and arc length. -/
structure PathPiece where
  n : Int
  s : Int
  deriving DecidableEq, Repr

/-- Drive along the pieces of a path for an arc length, the last curvature holding beyond its end; the pose and what is
left of the path. The first argument bounds the pieces. -/
def follow (rmin : Nat) : Nat → Pose → List PathPiece → Int → Int → Pose × List PathPiece
  | 0, p, l, _, _ => (p, l)
  | f + 1, p, l, s, v1 =>
    match l with
    | [] => (arc rmin p 0 s v1, [])
    | [z] => (arc rmin p z.n s v1, [{ z with s := 0 }])
    | z :: rest =>
      if s ≤ z.s then (arc rmin p z.n s v1, { z with s := z.s - s } :: rest)
      else follow rmin f (arc rmin p z.n z.s v1) rest (s - z.s) v1

/-- n more samples of a deceleration at ASTOP along a path to rest (R397, R400). -/
def brake (p : TeParam) (r : RobotRec) : Nat → Pose → List PathPiece → List Pose
  | 0, _, _ => []
  | n + 1, q, l =>
    let v1 := speedAfter p q.v (-(r.astop : Int))
    let (s, v1) := if 0 ≤ v1 then (arcLength p q.v v1, v1) else (divEven (q.v * q.v) (2 * r.astop * 65536), 0)
    let (q', l') := follow r.rmin (l.length + 1) q l s v1
    q' :: brake p r n q' l'

/-- The standing stop of a robot that starts from a state (R397). -/
def freshStop (p : TeParam) (r : RobotRec) (q : Pose) : List Pose := q :: brake p r (p.nsamp - 1) q [{ n := 0, s := 0 }]

/-- A plan of poses with the pieces of its intervals, and its derived stop (R400): the plan through sample P, then braking
along its path. -/
def derivedStop (p : TeParam) (r : RobotRec) (plan : List Pose) (path : List PathPiece) : List Pose :=
  let k := p.period / p.dt
  plan.take (k + 1) ++ brake p r (p.nsamp - 1 - k) (plan.getD k {}) (match path.drop k with
    | [] => [{ n := (path.getLast?.map (·.n)).getD 0, s := 0 }]
    | l => l)

/-- A trajectory shifted by m samples, its last one repeated (R397). -/
def shifted (n m : Nat) (l : List Pose) : List Pose := (List.range n).map fun i => l.getD (min (i + m) (n - 1)) {}

/-! ### Primitives (R394) -/

/-- A primitive that is offered from a pose: acceleration index 0 to 2, curvature index 0 to 4. -/
def primStep (p : TeParam) (r : RobotRec) (q : Pose) (ai ki : Nat) : Option (Pose × PathPiece) :=
  let a : Int := ((ai : Int) - 1) * r.amax
  let v1 := speedAfter p q.v a
  let top : Int := ((r.vmax * 65536 : Nat) : Int)
  if v1 < 0 || top < v1 || (ai ≠ 1 && (v1 = 0 || v1 = top)) then none
  else
    let s := arcLength p q.v v1
    let n := (ki : Int) - 2
    some (arc r.rmin q n s v1, { n := n, s := s })

/-- The primitives offered, in index order. -/
def primitives (p : TeParam) (r : RobotRec) (q : Pose) : List (Nat × Pose × PathPiece) :=
  (List.range 15).filterMap fun i => (primStep p r q (i / 5) (i % 5)).map fun z => (i, z)

/-! ### Samples in memory (R402 Table 6) -/

/-- The 16 B of a sample. -/
def sampleBytes (p : TeParam) (q : Pose) (i : Nat) : List Byte :=
  leBytes 4 (trunc 32 (roundHalfEven q.x 16)) ++ leBytes 4 (trunc 32 (roundHalfEven q.y 16))
  ++ leBytes 4 (trunc 16 (roundHalfEven q.yaw 16) + trunc 16 (roundHalfEven q.v 16) * 2 ^ 16)
  ++ leBytes 4 (i * p.dt * 1000000 / secTc)

/-- The pose of a sample's bytes. -/
def samplePose (b : List Byte) : Pose :=
  { x := sext 32 (w32At b 0) * 65536, y := sext 32 (w32At b 4) * 65536
    yaw := ((bits (w32At b 8) 15 0 * 65536 : Nat) : Int), v := ((bits (w32At b 8) 31 16 * 65536 : Nat) : Int) }

/-- n samples from bytes. -/
def samplesAt (b : List Byte) (o n : Nat) : List Pose := (List.range n).map fun i => samplePose (sub b (o + 16 * i) 16)

/-- A pose given as numbers. -/
def poseOf (l : List Int) : Pose := { x := l.getD 0 0, y := l.getD 1 0, yaw := l.getD 2 0, v := l.getD 3 0 }

/-- The numbers of a pose. -/
def poseInts (q : Pose) : List Int := [q.x, q.y, q.yaw, q.v]

end Sys2Proof.Machine
end

