-- ==== Sys2Proof/Machine/Planner.lean ====
section
/-! DEFINITION. Espalier's clearance checks and its search (R390, R391, R396, R399). -/
namespace Sys2Proof.Machine

/-! ### Occupancy (R390, R391) -/

/-- A planner core. -/
def coreOf (s : State) (c : Nat) : Core := tblGet {} s.core c

/-- Put a planner core. -/
def setCore (s : State) (c : Nat) (x : Core) : State := { s with core := tblSet {} s.core c x }

/-- What a cycle works with. -/
structure Cycle where
  core : Nat
  agent : Agent
  p : TeParam
  occ : Operand
  deriving DecidableEq, Repr

/-- Slice of an instant, in Tc after TP being sample i (R390). -/
def sliceAt (y : Cycle) (i : Nat) : Nat :=
  let t := y.p.tp + i * y.p.dt
  if t < y.p.occT0 then 0 else min ((t - y.p.occT0) / y.p.occDt) (y.occ.lay.dims.getD 3 1 - 1)

/-- A poisoned line is read as 255 in every byte, and counted (R391). -/
def notePoison (s : State) (c : Nat) : State :=
  let x := coreOf s c
  setFlag (setCore s c { x with poison := satInc 0xFFFF x.poison }) (2700 + c)

/-- Occupancy of a voxel; `seen` are the device addresses of the poisoned lines that this query has met. -/
def readVoxel (s : State) (y : Cycle) (idx : List Int) (seen : List Nat) : State × Res (Nat × List Nat) :=
  if !inExtents y.occ.lay idx && y.occ.oob = 2 then (s, .ok (0, seen))
  else
    let a := elemAt y.occ.lay (clampIdx y.occ.lay idx) / 2
    match readDev s y.agent a 1 with
    | (s, .fail f) => (s, .fail f)
    | (s, .ok x) =>
      if x.poison.isEmpty then (s, .ok ((x.bytes.getD 0 0).toNat, seen))
      else if seen.contains (a / 64) then (s, .ok (255, seen))
      else (notePoison s y.core, .ok (255, a / 64 :: seen))

/-- Centre of a sphere at a pose, in whole mm, z as given (R392; rounded half to even, DEDUCED from R396). -/
def centre (q : Pose) (k : Sphere) : List Int :=
  let rot (a b : Int) : Int := roundHalfEven (a * 2 ^ 16) 32 + roundHalfEven (b * 2 ^ 16) 32
  [roundHalfEven (q.x + rot (k.dx * cosOf q.yaw) (-(k.dy * sinOf q.yaw))) 16,
   roundHalfEven (q.y + rot (k.dx * sinOf q.yaw) (k.dy * cosOf q.yaw)) 16, k.dz]

/-- Voxels of an axis that a sphere's bounding cube meets. -/
def axisRange (y : Cycle) (d : Nat) (c : Int) (r : Nat) : List Int :=
  let lo := (c - r - y.p.org.getD d 0).fdiv y.p.vox
  let hi := (c + r - y.p.org.getD d 0).fdiv y.p.vox
  (List.range (hi - lo + 1).toNat).map fun i => lo + i

/-- Squared distance from a centre to the nearest point of a voxel. -/
def voxelDist (y : Cycle) (c idx : List Int) : Int :=
  ((List.range 3).map fun d =>
    let lo := y.p.org.getD d 0 + idx.getD d 0 * y.p.vox
    let hi := lo + y.p.vox
    let v := c.getD d 0
    let e := if v < lo then lo - v else if hi < v then v - hi else 0
    e * e).sum

/-- Some voxel of a list is occupied and near enough. -/
def hitVoxels (s : State) (y : Cycle) (c : List Int) (r slice : Nat) : List (List Int) → List Nat → Bool → State × Res Bool
  | [], _, hit => (s, .ok hit)
  | idx :: rest, seen, hit =>
    match readVoxel s y (idx ++ [((slice : Nat) : Int), 0]) seen with
    | (s, .fail f) => (s, .fail f)
    | (s, .ok (v, seen)) =>
      hitVoxels s y c r slice rest seen (hit || (y.p.thresh ≤ v && voxelDist y c idx < ((r * r : Nat) : Int)))

/-- One sphere collides with occupancy: the voxels of the cube that bounds it are examined (R396). -/
def sphereHits (s : State) (y : Cycle) (q : Pose) (slice : Nat) (k : Sphere) : State × Res Bool :=
  let c := centre q k
  let r := k.r + y.p.inflate
  let cube := (axisRange y 2 (c.getD 2 0) r).flatMap fun l => (axisRange y 1 (c.getD 1 0) r).flatMap fun j =>
    (axisRange y 0 (c.getD 0 0) r).map fun i => [i, j, l]
  hitVoxels s y c r slice cube [] false

/-- Some sphere of a list collides. -/
def poseHits (s : State) (y : Cycle) (q : Pose) (slice : Nat) : List Sphere → State × Res Bool
  | [] => (s, .ok false)
  | k :: rest =>
    match sphereHits s y q slice k with
    | (s, .fail f) => (s, .fail f)
    | (s, .ok true) => (s, .ok true)
    | (s, .ok false) => poseHits s y q slice rest

/-- The first sample, from i on, at which a trajectory collides with occupancy. -/
def occHits (s : State) (y : Cycle) (ks : List Sphere) : List Pose → Nat → State × Res (Option Nat)
  | [], _ => (s, .ok none)
  | q :: rest, i =>
    match poseHits s y q (sliceAt y i) ks with
    | (s, .fail f) => (s, .fail f)
    | (s, .ok true) => (s, .ok (some i))
    | (s, .ok false) => occHits s y ks rest (i + 1)

/-- Two robots collide at poses (R396). -/
def posesMeet (y : Cycle) (a b : Pose) (ka kb : List Sphere) : Bool :=
  ka.any fun k => kb.any fun l =>
    let c := centre a k
    let d := centre b l
    let r := k.r + l.r + y.p.inflate
    ((List.range 3).map fun i => (c.getD i 0 - d.getD i 0) * (c.getD i 0 - d.getD i 0)).sum < ((r * r : Nat) : Int)

/-- The first sample at which two trajectories collide. -/
def trajMeet (y : Cycle) (a b : List Pose) (ka kb : List Sphere) : Option Nat :=
  (List.range y.p.nsamp).find? fun i => posesMeet y (a.getD i {}) (b.getD i {}) ka kb

/-! ### Plans (R398, R399) -/

/-- The trajectories a plan of rank r must keep clear of: those emitted by lower ranks, the standing stops of higher ones. -/
def obstacles (rs : List Robot) (r : Nat) : List (List Pose × List Sphere) :=
  rs.zipIdx.filterMap fun z =>
    if !z.1.active || z.2 = r then none
    else some (if z.2 < r then z.1.emitted else z.1.stop, (parseRobot z.1.record).spheres)

/-- A plan and its derived stop are clear. -/
def planClear (s : State) (y : Cycle) (rs : List Robot) (r : Nat) (ks : List Sphere) (plan stop : List Pose) : State × Res Bool :=
  if (obstacles rs r).any fun o => (trajMeet y plan o.1 ks o.2).isSome then (s, .ok false)
  else match occHits s y ks plan 0 with
  | (s, .fail f) => (s, .fail f)
  | (s, .ok (some _)) => (s, .ok false)
  | (s, .ok none) =>
    match occHits s y ks stop 0 with
    | (s, .fail f) => (s, .fail f)
    | (s, .ok h) => (s, .ok h.isNone)

/-- A node of the search: its sample, its poses and path so far, newest first, its primitive and creation number. -/
structure Node where
  i : Nat
  poses : List Pose
  path : List PathPiece
  prim : Nat
  made : Nat
  deriving DecidableEq, Repr

/-- The pose a node ends in. -/
def nodePose (n : Node) : Pose := n.poses.headD {}

/-- Squared distance to the goal, in 2^-16 mm. -/
def goalDist (r : RobotRec) (q : Pose) : Int :=
  (q.x - r.goalX * 65536) * (q.x - r.goalX * 65536) + (q.y - r.goalY * 65536) * (q.y - r.goalY * 65536)

/-- c + √p < √q for an integer c, exactly. -/
def ltSqrt (c p q : Int) : Bool :=
  if 0 ≤ c then
    let r := q - p - c * c
    0 < r && 4 * c * c * p < r * r
  else
    let r := p - q - c * c
    r < 0 || r * r < 4 * c * c * q

/-- The order key i × SAMPLE_DT + distance / VMAX of a is below that of b (R399): in units of distance, SAMPLE_DT Tc are
VMAX × SAMPLE_DT × 2^16 / 1966080000. -/
def keyBelow (p : TeParam) (r : RobotRec) (a b : Node) : Bool :=
  let f : Int := secTc
  let c : Int := ((a.i : Int) - b.i) * p.dt * r.vmax * 65536
  ltSqrt c (goalDist r (nodePose a) * f * f) (goalDist r (nodePose b) * f * f)

/-- Node a is expanded before node b: the lower key, the smaller distance, the lower primitive, the earlier node. -/
def nodeBefore (p : TeParam) (r : RobotRec) (a b : Node) : Bool :=
  if keyBelow p r a b then true
  else if keyBelow p r b a then false
  else
    let da := goalDist r (nodePose a)
    let db := goalDist r (nodePose b)
    if da ≠ db then da < db else if a.prim ≠ b.prim then a.prim < b.prim else a.made < b.made

/-- The first node of a list and the others. -/
def popNode (p : TeParam) (r : RobotRec) : List Node → Option (Node × List Node)
  | [] => none
  | n :: rest =>
    match popNode p r rest with
    | none => some (n, [])
    | some (m, others) => if nodeBefore p r m n then some (m, n :: others) else some (n, m :: others)

/-- The cell of a node: sample, voxel, one of 16 yaw bins, bin of AMAX × dt of speed (R399). -/
def cellOf (p : TeParam) (r : RobotRec) (n : Node) : List Int :=
  let q := nodePose n
  let ax (d : Nat) (v : Int) : Int := (v.fdiv 65536 - p.org.getD d 0).fdiv p.vox
  [n.i, ax 0 q.x, ax 1 q.y, (q.yaw.emod (2 ^ 32)).fdiv (2 ^ 28), q.v.fdiv (max 1 (speedAfter p 0 r.amax))]

/-- At the goal at rest. -/
def atGoal (r : RobotRec) (q : Pose) : Bool :=
  q.v = 0 && goalDist r q ≤ ((r.tol * 65536 * (r.tol * 65536) : Nat) : Int)

/-- How a search ends; each with the nodes expanded. -/
inductive SearchEnd where
  | found (plan stop : List Pose) (goal : Bool) (nodes : Nat)
  | exhausted (nodes : Nat)
  | budget (nodes : Nat)
  deriving DecidableEq, Repr

/-- The trajectory of a node that ends it: it rests at its last pose to the end of the samples. -/
def nodePlan (p : TeParam) (n : Node) : List Pose :=
  n.poses.reverse ++ List.replicate (p.nsamp - 1 - n.i) (nodePose n)

/-- The nodes that a node leads to. -/
def expand (p : TeParam) (r : RobotRec) (n : Node) (made : Nat) : List Node :=
  (primitives p r (nodePose n)).zipIdx.map fun z =>
    { i := n.i + 1, poses := z.1.2.1 :: n.poses, path := z.1.2.2 :: n.path, prim := z.1.1, made := made + z.2 }

/-- The best-first search (R399): open nodes, expanded cells, nodes made and expanded. The first argument bounds the nodes
popped. -/
def search (y : Cycle) (rs : List Robot) (rank : Nat) (r : RobotRec) :
    Nat → State → List Node → List (List Int) → Nat → Nat → State × Res SearchEnd
  | 0, s, _, _, _, done_ => (s, .ok (.budget done_))
  | f + 1, s, open_, cells, made, done_ =>
    match popNode y.p r open_ with
    | none => (s, .ok (.exhausted done_))
    | some (n, rest) =>
      if cells.contains (cellOf y.p r n) then search y rs rank r f s rest cells made done_
      else if atGoal r (nodePose n) || n.i + 1 = y.p.nsamp then
        let plan := nodePlan y.p n
        let stop := derivedStop y.p r plan (n.path.reverse ++ List.replicate (y.p.nsamp - 1 - n.i) { n := 0, s := 0 })
        match planClear s y rs rank r.spheres plan stop with
        | (s, .fail e) => (s, .fail e)
        | (s, .ok true) => (s, .ok (.found plan stop (atGoal r (nodePose n)) done_))
        | (s, .ok false) => search y rs rank r f s rest cells made done_
      else if done_ = y.p.nodeMax then (s, .ok (.budget done_))
      else
        let new := expand y.p r n made
        search y rs rank r f s (rest ++ new) (cellOf y.p r n :: cells) (made + new.length) (done_ + 1)

/-- The search of a PRIM robot. -/
def searchPrim (s : State) (y : Cycle) (rs : List Robot) (rank : Nat) (b : Robot) : State × Res SearchEnd :=
  search y rs rank (parseRobot b.record) (16 * y.p.nodeMax + 16) s
    [{ i := 0, poses := [b.start], path := [], prim := 0, made := 0 }] [] 1 0

/-- The time scales of a SMOOTH robot, in turn (R395). -/
def trySmooth (s : State) (y : Cycle) (rs : List Robot) (rank : Nat) (b : Robot) (param : List Byte) (choice nodes : Nat) :
    List Nat → Bool → State × Res SearchEnd
  | [], path => (s, .ok (if path then .budget nodes else .exhausted nodes))
  | f :: rest, _ =>
    match Config.smoothPlan param b.record (poseInts b.start) f choice with
    | none => (s, .ok (if Config.raceWinner choice then .budget nodes else .exhausted nodes))
    | some (plan, stop) =>
      let plan := (List.range y.p.nsamp).map fun i => poseOf (plan.getD i [])
      let stop := (List.range y.p.nsamp).map fun i => poseOf (stop.getD i [])
      match planClear s y rs rank (parseRobot b.record).spheres plan stop with
      | (s, .fail e) => (s, .fail e)
      | (s, .ok true) => (s, .ok (.found plan stop true nodes))
      | (s, .ok false) => trySmooth s y rs rank b param choice nodes rest true

/-- The search of a robot by its MODE. -/
def searchRobot (s : State) (y : Cycle) (rs : List Robot) (rank : Nat) (b : Robot) (param : List Byte) : State × Res SearchEnd :=
  if (parseRobot b.record).smooth then
    trySmooth (takeChoice s) y rs rank b param s.choice (Config.freeNat s.choice % 2 ^ 24) [0, 1, 2, 3] false
  else searchPrim s y rs rank b

end Sys2Proof.Machine
end

