-- ==== Sys2Proof/Machine/Espalier.lean ====
section
/-! DEFINITION. TE_CYCLE and the planning cycle (R387 to R403), and the late event of a running descriptor (R184, R401). -/
namespace Sys2Proof.Machine

/-- Working sphere-distance groups. -/
def groups (s : State) : Nat := workingCount s 7 8

/-- TE_CYCLE: the core waits for the next firing of line 16 + c (R388, R422 Table 5). -/
def execTeCycle (c : Nat) (s : State) : Host.Outcome State Fault Refusal :=
  done (onOp s 3 c 0x40 fun x _ o =>
    if groups s = 0 then failResult s x c o.idx 0xC5
    else
      let s := setCore s c { coreOf s c with phase := 1, rank := 0, func := x.fn }
      setPhase { s with ev := { s.ev with fired := s.ev.fired.filter fun e => e.1 ≠ 16 + c } } x c .awaitLine)

/-! ### Reading the records (R388, R389, R397) -/

/-- The record of a rank in PREV's output. -/
def prevRecord (s : State) (g : Agent) (p : TeParam) (r : Nat) : State × Res (List Byte) :=
  readUse s g (p.prev + 2112 * r) 2112

/-- A robot's start state and standing stop; `m` samples lie between PREV's TP and this one (R397). -/
def startRobot (p : TeParam) (m : Nat) (rec_ : List Byte) (prev : List Byte) : Robot :=
  let r := parseRobot rec_
  let w := w32At prev 0
  let known := !prev.isEmpty && bits w 15 0 = r.id && bits w 19 16 ≠ 5 && !r.reseed
  if !r.active then { record := rec_, active := false }
  else if known then
    { record := rec_, active := true, start := (samplesAt prev 0x40 p.nsamp).getD m {}
      stop := shifted p.nsamp m (samplesAt prev 0x440 p.nsamp) }
  else { record := rec_, active := true, start := r.state, stop := freshStop p r r.state, reseeded := true }

/-- The robots of a table, each with its record of PREV; the ranks that are left to read. -/
def startRobots (s : State) (g : Agent) (p : TeParam) (m : Nat) (table : List Byte) : List Nat → List Robot →
    State × Res (List Robot)
  | [], acc => (s, .ok acc)
  | r :: rest, acc =>
    let rec_ := sub table (320 * r) 320
    if p.prev = 0 || !(parseRobot rec_).active then startRobots s g p m table rest (acc ++ [startRobot p m rec_ []])
    else match prevRecord s g p r with
    | (s, .fail f) => (s, .fail f)
    | (s, .ok b) => startRobots s g p m table rest (acc ++ [startRobot p m rec_ b])

/-- PREV's TP, as the header of its first record has it; this cycle's without PREV. -/
def prevTp (s : State) (g : Agent) (p : TeParam) : State × Res Nat :=
  if p.prev = 0 then (s, .ok p.tp)
  else match readUse s g (p.prev + 8) 8 with
  | (s, .fail f) => (s, .fail f)
  | (s, .ok b) => (s, .ok (ofLe b))

/-- The occupancy operand of a descriptor's bytes, if it is what R389 asks for. -/
def occOperand (p : TeParam) (b : List Byte) : Option Operand :=
  let o : Operand := { lay := parseLayout b, oob := bits p.occ 17 16 % 3 }
  if o.lay.fmt = 2 && o.lay.rank = 4 && o.oob ≠ 0 then some o else none

/-- The occupancy descriptor, checked. -/
def readOcc (s : State) (g : Agent) (p : TeParam) : State × Res (List Byte) :=
  match descriptor s g (bits p.occ 15 0) with
  | (s, .fail f) => (s, .fail f)
  | (s, .ok b) =>
    match layoutBad (parseLayout b) false with
    | some c => (s, .fail ⟨4, c, false⟩)
    | none => if (occOperand p b).isSome then (s, .ok b) else (s, .fail ⟨6, 0x60, false⟩)

/-- All that a cycle reads before it plans, checked (R389): the parameter record, the descriptor, the robots. -/
def readCycle (s : State) (g : Agent) (a : Nat) : State × Res (List Byte × List Byte × List Robot) :=
  match readUse s g a 128 with
  | (s, .fail f) => (s, .fail f)
  | (s, .ok b) =>
    let p := parseTe b
    if !teOk p then (s, .fail ⟨6, 0x60, false⟩)
    else match readOcc s g p with
    | (s, .fail f) => (s, .fail f)
    | (s, .ok d) =>
      match prevTp s g p with
      | (s, .fail f) => (s, .fail f)
      | (s, .ok t) =>
        if !prevOk p t then (s, .fail ⟨6, 0x60, false⟩)
        else match readUse s g p.robots (320 * p.nrob) with
        | (s, .fail f) => (s, .fail f)
        | (s, .ok table) =>
          let bad := (List.range p.nrob).any fun r =>
            let z := parseRobot (sub table (320 * r) 320)
            z.active && !robotOk p z
          if bad then (s, .fail ⟨6, 0x61, false⟩)
          else match startRobots s g p ((p.tp - t) / p.dt) table (List.range p.nrob) [] with
          | (s, .fail f) => (s, .fail f)
          | (s, .ok rs) => (s, .ok (b, d, rs))

/-! ### Phase 1: validate (R398) -/

/-- The first sample at which a robot's standing stop meets another's, the lowest rank first: with its ID. -/
def stopMeets (y : Cycle) (rs : List Robot) (rank : Nat) (b : Robot) : Option (Nat × Nat) :=
  let ks := (parseRobot b.record).spheres
  let hits := rs.zipIdx.filterMap fun z =>
    if z.2 = rank || !z.1.active then none
    else (trajMeet y b.stop z.1.stop ks (parseRobot z.1.record).spheres).map fun i => (i, (parseRobot z.1.record).id)
  hits.foldl (fun best h => match best with
    | none => some h
    | some e => if h.1 < e.1 then some h else some e) none

/-- A robot's STOP_OK with the first collision; occupancy comes before a robot at the same sample. -/
def validate (s : State) (y : Cycle) (rs : List Robot) (rank : Nat) (b : Robot) : State × Res Robot :=
  if !b.active then (s, .ok b)
  else match occHits s y (parseRobot b.record).spheres b.stop 0 with
  | (s, .fail f) => (s, .fail f)
  | (s, .ok occ) =>
    let own : Option (Nat × Nat) := occ.map fun i => (i, 0xFFFF)
    let hit := match own, stopMeets y rs rank b with
      | some a, some m => if m.1 < a.1 then some m else some a
      | some a, none => some a
      | none, m => m
    match hit with
    | some (i, w) => (s, .ok { b with stopOk := false, confSample := i, confWith := w })
    | none => (s, .ok b)

/-- Every robot in rank order. -/
def validateAll (s : State) (y : Cycle) (rs : List Robot) : List (Robot × Nat) → List Robot → State × Res (List Robot)
  | [], acc => (s, .ok acc)
  | z :: rest, acc =>
    match validate s y rs z.2 z.1 with
    | (s, .fail f) => (s, .fail f)
    | (s, .ok b) => validateAll s y rs rest (acc ++ [b])

/-! ### Phase 3: decide (R399, R402, R403) -/

/-- What a robot's result is to be: the trajectory and the new standing stop, RESULT, CAUSE, BUDGET, NODES. -/
structure Verdict where
  emitted : List Pose
  stop : List Pose
  result : Nat
  cause : Nat := 0
  budget : Bool := false
  nodes : Nat
  deriving DecidableEq, Repr

/-- NO_PATH (2) or PLAN_LATE (3): the standing stop is emitted, STOP_CONFLICT when it is not sound. -/
def stopVerdict (b : Robot) (why : Nat) (budget : Bool) (nodes : Nat) : Verdict :=
  { emitted := b.stop, stop := b.stop, result := if b.stopOk then why else 4, cause := if b.stopOk then 0 else why
    budget := budget, nodes := nodes }

/-- The verdict of a search's end. -/
def verdictOf (b : Robot) (e : SearchEnd) : Verdict :=
  match e with
  | .found plan stop goal n => { emitted := plan, stop := stop, result := if goal then 1 else 0, nodes := n }
  | .exhausted n => stopVerdict b 2 false n
  | .budget n => stopVerdict b 2 true n

/-- The emitted trajectory collides, with occupancy or with what a plan must keep clear of. -/
def emittedHits (s : State) (y : Cycle) (rs : List Robot) (rank : Nat) (b : Robot) (v : Verdict) : Bool :=
  let ks := (parseRobot b.record).spheres
  v.result = 4 || (v.result ≠ 4 && (obstacles rs rank).any fun o => (trajMeet y v.emitted o.1 ks o.2).isSome)
    || (match (occHits s y ks v.emitted 0).2 with
      | .ok (some _) => true
      | _ => false)

/-- The 64 B result header (R402 Table 4). -/
def headerBytes (p : TeParam) (b : Robot) (v : Verdict) (clear : Nat) : List Byte :=
  leBytes 4 ((parseRobot b.record).id + v.result * 2 ^ 16 + v.cause * 2 ^ 20 + b2n v.budget * 2 ^ 24
    + b2n b.reseeded * 2 ^ 25 + b2n b.stopOk * 2 ^ 26)
  ++ leBytes 4 (v.nodes % 2 ^ 24) ++ leBytes 8 p.tp ++ leBytes 4 (clear % 65536)
  ++ leBytes 4 (if b.stopOk then 0 else b.confSample + b.confWith * 2 ^ 16) ++ List.replicate 40 0

/-- Samples and then the header are written (R402). The clearance of a trajectory that does not collide is free (log
entry 36). -/
def writeRobot (s : State) (y : Cycle) (rs : List Robot) (rank : Nat) (b : Robot) (v : Verdict) : State × Res Unit :=
  let a := y.p.out + 2112 * rank
  let bytes (l : List Pose) : List Byte := (List.range y.p.nsamp).flatMap fun i => sampleBytes y.p (l.getD i {}) i
  let clear := if emittedHits s y rs rank b v then 0 else Config.freeNat s.choice % 65536
  match writeBytes (takeChoice s) y.agent (a + 0x40) (bytes v.emitted) with
  | (s, .fail f) => (s, .fail f)
  | (s, .ok ()) =>
    match writeBytes s y.agent (a + 0x440) (bytes v.stop) with
    | (s, .fail f) => (s, .fail f)
    | (s, .ok ()) => writeBytes s y.agent a (headerBytes y.p b v clear)

/-- Header of an inactive robot; no samples are written. -/
def writeInactive (s : State) (y : Cycle) (rank : Nat) (b : Robot) : State × Res Unit :=
  writeBytes s y.agent (y.p.out + 2112 * rank) (headerBytes y.p { b with stopOk := false } { emitted := [], stop := [], result := 5, nodes := 0 } 0)

/-- DETAIL with a robot whose stop was emitted (R403). -/
def teDetail (d : Nat) (conflict : Bool) : Nat :=
  let n := satInc 255 (d % 256)
  let k := if conflict then satInc 255 (d / 256) else d / 256
  k * 256 + n

/-- Flags, counters and DETAIL of a written result (R399, R403). -/
def noteVerdict (s : State) (y : Cycle) (id : Nat) (v : Verdict) : State :=
  if v.result < 2 then s
  else
    let why := if v.result = 4 then v.cause else v.result
    let s := setFlag s ((if why = 2 then 2696 else 2692) + y.core)
    let s := modRun s id fun z => { z with detail := teDetail z.detail (v.result = 4) }
    if v.result = 4 then
      let x := coreOf s y.core
      let s := setCore s y.core { x with conflict := satInc 0xFFFF x.conflict }
      setFlag (arrive s (448 + y.core)) (2688 + y.core)
    else s

/-- Put a robot of the cycle. -/
def setRobot (s : State) (c r : Nat) (b : Robot) : State :=
  let x := coreOf s c
  setCore s c { x with robots := x.robots.set r b }

/-- One robot is decided: written, noted, and kept for those after it. -/
def decideRobot (s : State) (y : Cycle) (id rank : Nat) (b : Robot) (v : Verdict) : State × Res Unit :=
  let rs := (coreOf s y.core).robots
  match (if b.active then writeRobot s y rs rank b v else writeInactive s y rank b) with
  | (s, .fail f) => (s, .fail f)
  | (s, .ok ()) =>
    let s := if b.active then noteVerdict s y id v else s
    (setRobot s y.core rank { b with emitted := v.emitted, stop := v.stop, decided := true }, .ok ())

/-- Decide the robots of a list of ranks, each by its own search's end. -/
def planRanks (s : State) (y : Cycle) (id : Nat) : List Nat → State × Res Unit
  | [] => (s, .ok ())
  | r :: rest =>
    let x := coreOf s y.core
    match x.robots[r]? with
    | none => (s, .ok ())
    | some b =>
      let ended := if b.active then searchRobot s y x.robots r b x.param else (s, .ok (SearchEnd.exhausted 0))
      match ended with
      | (s, .fail f) => (s, .fail f)
      | (s, .ok e) =>
        match decideRobot s y id r b (verdictOf b e) with
        | (s, .fail f) => (s, .fail f)
        | (s, .ok ()) => planRanks s y id rest

/-- Decide the robots of a list of ranks as PLAN_LATE; the nodes expanded by then are free (R401). -/
def lateRanks (s : State) (y : Cycle) (id : Nat) : List Nat → State × Res Unit
  | [] => (s, .ok ())
  | r :: rest =>
    match (coreOf s y.core).robots[r]? with
    | none => (s, .ok ())
    | some b =>
      match decideRobot (takeChoice s) y id r b (stopVerdict b 3 false (Config.freeNat s.choice)) with
      | (s, .fail f) => (s, .fail f)
      | (s, .ok ()) => lateRanks s y id rest

/-! ### The course of a cycle (R398, R401) -/

/-- The cycle that a core works on. -/
def cycleOf (s : State) (c : Nat) (x : Run) : Cycle :=
  let k := coreOf s c
  let p := parseTe k.param
  { core := c, agent := agentOf x, p := p, occ := (occOperand p k.occDesc).getD { lay := parseLayout k.occDesc, oob := 2 } }

/-- The operation ends: every robot is written. -/
def endCycle (s : State) (x : Run) (c : Nat) : State :=
  advance (setCore s c { coreOf s c with phase := 0 }) x c

/-- After robots have been decided: the cycle ends, or the search of rank `next` goes on. A segment that is to stop does so
at the boundary between two robots. -/
def afterRanks (s : State) (x : Run) (c idx next nrob : Nat) (r : Res Unit) : State :=
  match r with
  | .fail f => failWith s x c idx f
  | .ok () =>
    if nrob ≤ next then endCycle s x c
    else
      let stops := match findRun s x.id with
        | some y => y.segs.any fun g => g.unit = c && g.stop && !g.ended
        | none => true
      if stops then settleUnit (finishStopped (endSeg s x c) x.id) 3 c
      else setPhase (setCore s c { coreOf s c with phase := 3, rank := next }) x c .planning

/-- The late event decides every robot left (R401). -/
def cycleLate (s : State) (x : Run) (c idx from_ : Nat) : State :=
  let y := cycleOf s c x
  let k := coreOf s c
  let s := setCore s c { k with late := satInc 0xFFFF k.late }
  let (s, r) := lateRanks s y x.id ((List.range y.p.nrob).drop from_)
  afterRanks s x c idx y.p.nrob y.p.nrob r

/-- The cycle starts: records, validation, and the robots whose searches end before the next event (R398). -/
def startCycle (s : State) (x : Run) (c : Nat) (o : ListOp) (upto : Nat) : State :=
  match readCycle (useVar s x) (agentOf x) (bits (xw o 1) 47 0) with
  | (s, .fail f) => failWith s x c o.idx f
  | (s, .ok (b, d, rs)) =>
    let k := coreOf s c
    let s := setCore s c { k with phase := 2, cycles := satInc 0xFFFF k.cycles, param := b, occDesc := d, robots := rs }
    let y := cycleOf s c x
    match validateAll s y rs rs.zipIdx [] with
    | (s, .fail f) => failWith s x c o.idx f
    | (s, .ok rs) =>
      let s := setCore s c { coreOf s c with robots := rs }
      if x.lateSent then cycleLate s x c o.idx 0
      else
        let n := min upto y.p.nrob
        let (s, r) := planRanks s y x.id (List.range n)
        afterRanks s x c o.idx n y.p.nrob r

/-- PLANNING_CYCLE_START (R388, R398): the firing of line 16 + c reaches the TE_CYCLE that waits for it. -/
def execPlanningCycleStart (c upto : Nat) (s : State) : Host.Outcome State Fault Refusal :=
  done (
    let took := s.ev.fired.any fun e => e.1 = 16 + c
    let s := { s with ev := { s.ev with fired := s.ev.fired.filter fun e => e.1 ≠ 16 + c } }
    match inOp s 3 c with
    | some (x, g, o) =>
      if !took || g.phase ≠ .awaitLine || !unitClocked s 3 c then s
      else if groups s = 0 then failResult s x c o.idx 0xC5
      else startCycle s x c o upto
    | none => s)

/-- The segment of a core in the search of a robot; it has no stop point inside. -/
def inSearch (s : State) (c : Nat) : Option (Run × ListOp) :=
  match current s 3 c with
  | some (x, g) =>
    match g.ops with
    | o :: _ => if g.phase = .planning && unitClocked s 3 c then some (x, o) else none
    | [] => none
  | none => none

/-- SEARCH_BOUND (R398): the search in progress ends as at NODE_MAX, and the ranks up to `upto` follow. -/
def execSearchBound (c upto : Nat) (s : State) : Host.Outcome State Fault Refusal :=
  done (
    match inSearch s c with
    | none => s
    | some (x, o) =>
      let y := cycleOf s c x
      let k := coreOf s c
      match k.robots[k.rank]? with
      | none => endCycle s x c
      | some b =>
        match decideRobot (takeChoice s) y x.id k.rank b (stopVerdict b 2 true (Config.freeNat s.choice)) with
        | (s, .fail f) => failWith s x c o.idx f
        | (s, .ok ()) =>
          let n := max (k.rank + 1) (min upto y.p.nrob)
          let stops := match current s 3 c with
            | some (_, g) => g.stop
            | none => true
          if stops then afterRanks s x c o.idx (k.rank + 1) y.p.nrob (.ok ())
          else
            let (s, r) := planRanks s y x.id ((List.range n).drop (k.rank + 1))
            afterRanks s x c o.idx n y.p.nrob r)

/-! ### The late event (R184) -/

/-- The units of a run react: Espalier alone does (R184, R401). -/
def lateUnits (s : State) (x : Run) : State :=
  if x.cls ≠ 3 then s
  else x.segs.foldl (fun s g =>
    match inSearch s g.unit with
    | some (y, o) => if y.id = x.id then cycleLate s y g.unit o.idx (coreOf s g.unit).rank else s
    | none => s) s

/-- LATE_EVENT (R184, R189, R401): an unresolved binding is squashed as UNCONFIRMED, and the units react. -/
def execLateEvent (r : Nat) (s : State) : Host.Outcome State Fault Refusal :=
  done (
    match s.runs.find? (takesLate s r) with
    | none => s
    | some x =>
      let s := modRun s x.id fun y => { y with lateSent := true }
      let s := if unresolved x then finishIfEnded (squash s x.id 1) x.id else s
      lateUnits s x)

end Sys2Proof.Machine
end

