-- ==== Sys2Proof/Machine/Access.lean ====
section
/-! DEFINITION. Writes to the setup registers of the physical function's BAR0 (R7 to R9, R425 to R428, R438, R439). A word
that a row of its own acts on takes that row's effect. -/
namespace Sys2Proof.Machine

/-- The state an outcome leaves. -/
def landed (s : State) : Host.Outcome State Fault Refusal → State
  | .next t => t
  | _ => s

/-- The block at an offset answers: in recovery the GLB_ block alone, with die 0's link down also FEAT_ and ERR_
(R102, R417, R427). -/
def blockAnswers (s : State) (off : Nat) : Bool :=
  let b := off / 0x10000
  if b = 0 then s.boot.fwUp else if b = 1 || b = 8 then servedIo s else served s

/-- The offset belongs to a port or link of an absent I/O die (R9). -/
def absentReg (s : State) (off : Nat) : Bool :=
  let o := off % 0x10000
  match off / 0x10000 with
  | 0x4 => inGrp o 0x200 8 12 && !unitExists s 10 ((o - 0x200) / 8)
  | 0xF => inGrp o 0 0x20 12 && !unitExists s 10 (o / 0x20)
  | 0x10 => inGrp o 0 0x100 6 && !unitExists s 11 (o / 0x100)
  | _ => false

/-- Keep a lower word until the upper one is written (R426). -/
def holdWord (s : State) (off v : Nat) : State := { s with held := tblPut s.held off (BitVec.ofNat 32 v) }

/-! ### Words that act -/

/-- GLB_: SLOT_FALLBACK, flags, the data window and the mailbox command (R105, R106 Table 3, R429). -/
def writeGlb (s : State) (o v : Nat) : Option State :=
  if o = 0x04 then some { s with boot := { s.boot with fallback := bitAt v 13 } }
  else if o = 0x08 then some (clearRow s 0 v)
  else if o = 0x34 then some (clearRow s 128 v)
  else if o = 0x38 then some (clearRow s 160 v)
  else if inGrp o 0x1000 4 1024 then
    some { s with mbox := { s.mbox with window := fillTbl 0 s.mbox.window (o - 0x1000) (leBytes 4 v) } }
  else if o = 0x40 then
    some (landed s (match bits v 7 0 with
      | 1 => execLogRead s
      | 2 => execFlashWrite s
      | 3 => execFlashActivate s
      | 4 => execWarmReset s
      | 5 => execSvnCommit s
      | c => execMboxUnknown c s))
  else none

/-- RING_: the admin rings' commands and the halt bits (R432). -/
def writeRing (s : State) (o v : Nat) : Option State :=
  if o = 0x200 then some (landed s (execRingAdminCtrl (BitVec.ofNat 8 v) s))
  else if o = 0x204 then some (landed s (execRingAdminReset (BitVec.ofNat 8 v) s))
  else if inGrp o 0x400 4 32 then some (clearRow s (1024 + 32 * ((o - 0x400) / 4)) v)
  else none

/-- EVX_: host event-set, occurrence counters and flags (R201, R204, R209, R433). -/
def writeEvx (s : State) (o v : Nat) : Option State :=
  if o = 0x04 then
    some (match bits v 13 12 with
      | 0 => landed s (execHostevAdd (bits v 11 0) s)
      | 1 => landed s (execHostevSet (bits v 11 0) [] s)
      | _ => s)
  else if o = 0x08 then
    some (landed s (if bitAt v 31 then execOccClrRow (bits v 11 0) s else execOccClr (bits v 11 0) s))
  else if o = 0x10 then some (clearRow s 896 v)
  else if inGrp o 0x20 4 8 then some (clearRow s (640 + 32 * ((o - 0x20) / 4)) v)
  else none

/-- ETU_CMD (R52 Table 17). -/
def writeEtuCmd (s : State) (v : Nat) : State :=
  landed s (match bits v 3 0 with
    | 1 => execTimeReset s
    | 2 => execForceHoldover s
    | 3 => execKeepRef s
    | 4 => execClearSuspect (bits v 10 8) s
    | 5 => execReleaseHoldover s
    | _ => done s)

/-- ETU_: commands, measurements, inputs, comparators and flags (R434). -/
def writeEtu (s : State) (o v : Nat) : Option State :=
  if o = 0x14 then some (writeEtuCmd s v)
  else if o = 0x18 then some (clearRow s 32 v)
  else if o = 0x20 || o = 0x28 then some (holdWord s (0x40000 + o) v)
  else if o = 0x24 then some (landed s (execPtpMeas (BitVec.ofNat 32 v) s))
  else if o = 0x2C then some (landed s (execTodSec (BitVec.ofNat 32 v) s))
  else if inGrp o 0x100 0x10 6 && o % 0x10 = 0 then
    some (landed s (execRefCfgWrite ((o - 0x100) / 0x10) (BitVec.ofNat 32 v) s))
  else if inGrp o 0x1000 0x20 64 then
    let n := (o - 0x1000) / 0x20
    if o % 0x20 = 0x10 then
      some (landed s (if bitAt v 0 then execTrigArm n (BitVec.ofNat 32 v) s else execTrigDisarm n (BitVec.ofNat 32 v) s))
    else if o % 0x20 = 0x14 then some (if bitAt v 0 then clearFlag s (544 + n) else s)
    else none
  else if inGrp o 0x2000 0x10 32 && o % 0x10 = 0xC then
    some (if bitAt v 8 then clearFlag s (608 + (o - 0x2000) / 0x10) else s)
  else none

/-- PWR_: commands and flags (R435, Table 11). -/
def writePwr (s : State) (o v : Nat) : Option State :=
  if o = 0x08 then some (clearRow s 96 v)
  else if o = 0x0C then
    some (landed s (match bits v 3 0 with
      | 1 => execShed s
      | 2 => execResume s
      | _ => done s))
  else none

/-- CLK_: BELOW_FLOOR of an instance (Table 19). -/
def writeClk (s : State) (o v : Nat) : Option State :=
  if inGrp o 0x1000 0x10 74 && o % 0x10 = 0 && bitAt v 25 then some (clearFlag s (192 + (o - 0x1000) / 0x10)) else none

/-- MON_: flags of the monitors and MIN_CLR (R69 to R72, R436). -/
def writeMon (s : State) (o v : Nat) : Option State :=
  if o = 0 then some (clearRow s 64 v)
  else if inGrp o 0x100 4 96 then
    let n := (o - 0x100) / 4
    let s := if bitAt v 16 then clearFlag s (288 + 2 * n) else s
    let s := if bitAt v 17 then clearFlag s (289 + 2 * n) else s
    some (if bitAt v 31 then landed s (execMinClr n s) else s)
  else if inGrp o 0x400 8 16 && o % 8 = 4 then
    some ((List.range 4).foldl (fun s i => if bitAt v (16 + i) then clearFlag s (480 + 4 * ((o - 0x400) / 8) + i) else s) s)
  else none

/-- ERR_: flags, retirement and ERR_EVC_PAR.VALID (R414, R421, R424). -/
def writeErr (s : State) (o v : Nat) : Option State :=
  if o = 0 then some (clearRow s 3072 v)
  else if o = 0x14 then some (landed s (execErrRetireCmd (bits v 3 0) (bits v 15 8) s))
  else if o = 0x24 && bitAt v 31 then some { s with err := { s.err with evcParValid := false } }
  else none

/-- XLT_: VALID of a fault record, and flags (R218, R237 Table 9). -/
def writeXlt (s : State) (o v : Nat) : Option State :=
  if inGrp o 0x800 0x10 64 && o % 0x10 = 4 then
    let c := (o - 0x800) / 0x10
    some (if bitAt v 31 then
        { s with mem := { s.mem with ctx := tblSet {} s.mem.ctx c { ctxOf s c with faultValid := false } } } else s)
  else if o = 0x1000 then some (clearRow s 2976 v)
  else none

/-- LAY_: invalidation and the flag (R234, R237 Table 9). -/
def writeLay (s : State) (o v : Nat) : Option State :=
  if o = 0x1000 then
    some (landed s (if bitAt v 8 then execLayInvAll (bits v 5 0) s else execLayInvHandle (bits v 5 0) (bits v 31 16) s))
  else if o = 0x1010 then some (clearRow s 3232 v)
  else none

/-- FH_: RESTART, the C-plane cancel, whose first word is held, and flags (R342, R363, R368). -/
def writeFh (s : State) (o v : Nat) : Option State :=
  if inGrp o 0 0x20 12 && o % 0x20 = 8 then some (if bitAt v 0 then landed s (execRestart (o / 0x20) s) else s)
  else if o = 0x200 then some (holdWord s 0xF0200 v)
  else if o = 0x204 then
    let w := (tblGet 0 s.held 0xF0200).toNat
    some (landed s (if bitAt v 31 then execCpCancelAll (bits w 6 0) (bits w 16 7) (bits w 23 17) s
      else execCpCancelSection (bits w 6 0) (bits w 16 7) (bits w 23 17) (bits v 11 0) s))
  else if o = 0x300 then some (clearRow s 2048 v)
  else if o = 0x304 then some (clearRow s 2080 v)
  else none

/-- CV_: the profile load and flags (R379, R386). -/
def writeCv (s : State) (o v : Nat) : Option State :=
  if o = 0x1100 then some (landed s (execCvProfLoad (bits v 1 0) s))
  else if o = 0x2000 then some (clearRow s 2304 v)
  else if o = 0x2004 then some (clearRow s 2336 v)
  else none

/-- MQ_: publish, withdraw and flags; without LEARNED_RX every write is ignored (R305, R308, R317). -/
def writeMq (s : State) (o v : Nat) : Option State :=
  if !feat s 2 then some s
  else if o = 0x18 then
    some (if s.mq.pub.isSome then setFlag s 2819 else match bits v 1 0 with
      | 1 => landed s (execPublish (bits v 7 2) (bits v 15 8) (bits v 25 16) (bits v 29 26) s)
      | 2 => landed s (execWithdraw (bits v 15 8) s)
      | _ => s)
  else if o = 0x20 then some (clearRow s 2816 v)
  else none

/-- A write to a word that acts; none for a word that only stores (R124 Table 2). -/
def writeActs (s : State) (off v : Nat) : Option State :=
  let o := off % 0x10000
  match off / 0x10000 with
  | 0x0 => writeGlb s o v
  | 0x1 => if o = 0x20 then some (if bitAt v 0 then landed s (execSeal s) else s) else none
  | 0x2 => writeRing s o v
  | 0x3 => writeEvx s o v
  | 0x4 => writeEtu s o v
  | 0x5 => writePwr s o v
  | 0x6 => writeClk s o v
  | 0x7 => writeMon s o v
  | 0x8 => writeErr s o v
  | 0x9 => if o = 0x210 then some (clearRow s 2944 v) else none
  | 0xA => writeXlt s o v
  | 0xB => writeLay s o v
  | 0xC => if o = 0x1000 then some (clearRow s 3200 v) else none
  | 0xE => if o = 0x40 then some (clearRow s 2560 v) else none
  | 0xF => writeFh s o v
  | 0x10 => writeCv s o v
  | 0x11 => if o = 0x200 && feat s 4 then some (clearRow s 2688 v) else none
  | 0x12 => writeMq s o v
  | _ => none

/-! ### Words that store, and what follows from the new value -/

/-- The areas of a placement end within the tile buffer (R350). -/
def placeFits (p : Placed) : Bool :=
  plMask p = 0 || 0x40000 + plArea p * 4096 + 2 * areaSize p (plDepth p) ≤ 0x80000

/-- FH_CARc_CFG or FH_CARc_PLACE is written: from the carrier's next slot boundary (R349, R350). -/
def writePlacement (s : State) (off v : Nat) : State :=
  let t := mergeReg s off v
  let c := (off % 0x10000 - 0x4000) / 0x40
  let p : Placed := { cfg := BitVec.ofNat 32 (carReg t c 0), place := BitVec.ofNat 32 (carReg t c 4) }
  if placeFits p then setCarrier t c { carrierOf t c with pending := true } else setFlag s 2074

/-- FH_PORTn_CFG is written: an UP port whose mode changes loses lock; with MODE 0 it is DISABLED (R341, R342). -/
def writePortCfg (s : State) (off v : Nat) : State :=
  let p := off % 0x10000 / 0x20
  let t := mergeReg s off v
  let t :=
    if !(portOf s p).up || bits (portCfg s p) 2 0 = bits (portCfg t p) 2 0 then t
    else portLeave t p
  refsRecheck (settleRadio t)

/-- MON_JD_CFGn is written: a monitor pointed at another clock has not found that one lost (R71). -/
def writeJdCfg (s : State) (off v : Nat) : State :=
  let n := (off % 0x10000 - 0x400) / 8
  let t := mergeReg s off v
  let x := jdOf s n
  setJd t n { x with
    lostA := x.lostA && bits (jdCfg s n) 4 0 = bits (jdCfg t n) 4 0
    lostB := x.lostB && bits (jdCfg s n) 12 8 = bits (jdCfg t n) 12 8 }

/-- A word is stored by its masks, with what follows at once: routes and ETU_CTRL decide admission and links, collectors
their validity; MON_PAT_CFG refuses CRIT_PCT not below WARN_PCT (R70), the mode fields of absent ports keep 0 (R92), and
ERASE is ignored without FH_CLIP_ERASE (R314). -/
def storeWord (s : State) (off v : Nat) : State :=
  let o := off % 0x10000
  match off / 0x10000 with
  | 0x3 => if inGrp o 0x4000 4 4096 then settleRadio (mergeReg s off v) else mergeReg s off v
  | 0x4 => if o = 0x10 then updateFloor (settleRadio (settleEtu (mergeReg s off v))) else mergeReg s off v
  | 0x5 => mergeReg s off (if o = 0x18 then v % 2 ^ (8 * s.fuse.assy) else v)
  | 0x7 =>
    if o = 4 then (if bits v 7 0 ≤ bits v 15 8 then s else mergeReg s off v)
    else if inGrp o 0x400 8 16 then writeJdCfg s off v
    else mergeReg s off v
  | 0xC => watchCols s (mergeReg s off v)
  | 0xF =>
    if inGrp o 0 0x20 12 && o % 0x20 = 0 then writePortCfg s off v
    else if inGrp o 0x4000 0x40 128 && (o % 0x40 = 0 || o % 0x40 = 4) then writePlacement s off v
    else if inGrp o 0x3000 8 128 then mergeReg s off (if feat s 6 then v else v % 2 ^ 16)
    else mergeReg s off v
  | _ => mergeReg s off v

/-- The held lower word of the field whose upper word is written takes effect with it (R426). -/
def releaseHeld (s : State) (off : Nat) : State :=
  if 4 ≤ off && splitLow (off - 4) then
    match tblGet? s.held (off - 4) with
    | some w => { mergeReg s (off - 4) w.toNat with held := tblDel s.held (off - 4) }
    | none => s
  else s

/-- A write of one aligned 4 B word (R8, R9, R426). -/
def writeWord (s : State) (off v : Nat) : State :=
  if absentReg s off then s
  else match writeActs s off v with
  | some t => t
  | none => if splitLow off then holdWord s off v else storeWord (releaseHeld s off) off v

/-- A write of 4 B or 8 B, aligned, by words; an 8 B write is two of 4 B, the lower address first; `bad` is what any other
leaves (R425). -/
def byWords (f : State → Nat → Nat → State) (bad : State) (off size : Nat) (val : W64) (s : State) : State :=
  if size = 4 && off % 4 = 0 then f s off (val.toNat % 2 ^ 32)
  else if size = 8 && off % 8 = 0 then f (f s off (val.toNat % 2 ^ 32)) (off + 4) (val.toNat / 2 ^ 32)
  else bad

/-- REGISTER_WRITE (R425, R427): a write to the setup space of the physical function by words, any other rejected with
BAD_ACCESS; a block that does not answer ignores it. Doorbell pages stage and commit words (R143), and MSI-X tables take
theirs (R127). -/
def execRegisterWrite (w : Window) (size : Nat) (val : W64) (s : State) : Host.Outcome State Fault Refusal :=
  done (
    match w with
    | .setup off =>
      if 0x200000 ≤ off || !blockAnswers s off then s else byWords writeWord (setFlag s 3) off size val s
    | .doorbells fn off =>
      if !s.boot.fwUp || !fnExists s fn then s else byWords (fun s o v => pageWrite s fn o v) s off size val s
    | .msix fn off =>
      if !s.boot.fwUp || !fnExists s fn then s else byWords (fun s o v => tableWrite s fn o v) s off size val s)

end Sys2Proof.Machine
end

