-- ==== Sys2Proof/Machine/Timeouts.lean ====
section
/-! DEFINITION. Read requests of the device that stay without an answer (R442). -/
namespace Sys2Proof.Machine

/-- The next host read of the step in hand, of a page table or of data, stays without an answer. -/
def leaveUnanswered (table : Bool) (s : State) : State :=
  { s with mem := { s.mem with timesOut := if table then 2 else 1 } }

/-- A step of the device whose next host read reaches its completion timeout, a read of a page table or one of data
(R217, R407); a step that makes no such read does not take place. -/
def unanswered (table : Bool) (run : State → Host.Outcome State Fault Refusal) (s : State) : State :=
  let t := landed s (run (leaveUnanswered table s))
  if t.mem.timesOut = 0 then t else s

/-- COMPLETION_TIMEOUT (R442): the read request it names fails as an Unsupported Request would (R217, R407, R409); that of a
PEER_CFG ends it (R135). -/
def execCompletionTimeout (src : TimeoutSource) (s : State) : Host.Outcome State Fault Refusal :=
  done (
    match src with
    | .operation cls u =>
      match inOp s cls u with
      | some (x, _, o) => failWith (setFlag s 3080) x u o.idx ⟨6, 0xCC, false⟩
      | none => s
    | .walk cls u va wr =>
      match inOp s cls u with
      | some (x, _, o) => failWith (recordFault s x.fn va 0xDF wr) x u o.idx ⟨5, 0xDF, false⟩
      | none => s
    | .fetch r table => unanswered table (execDescriptorFetch r) s
    | .list table => unanswered table execGrant s
    | .poll r table => unanswered table (execPollRead r) s
    | .history r table => unanswered table (execCompletionWrite r) s
    | .ringEntry table => unanswered table execRingSetup s
    | .bind r table => unanswered table (execRaBind r) s
    | .publish table => unanswered table execPublishDone s
    | .profile k table => unanswered table (execCvProfLoad k) s
    | .ptpQueue table => unanswered table execTqTransmit s
    | .peerCfg => adminRun s 8 fun j => peerResult s j)

end Sys2Proof.Machine
end

