-- ==== Sys2Proof/Machine/Dispatch.lean ====
section
/-! DEFINITION. One arm per command: a direct call of its meaning. -/
namespace Sys2Proof.Machine

/-- The effect of a command on everything but the queue. -/
def exec (i : Instr) (s : State) : Host.Outcome State Fault Refusal :=
  match i with
  | .pwrokAssert => Sys2Proof.Machine.execPwrokAssert s
  | .coldReset => Sys2Proof.Machine.execColdReset s
  | .perstAssert => Sys2Proof.Machine.execPerstAssert s
  | .perstDeassert => Sys2Proof.Machine.execPerstDeassert s
  | .dlDown => Sys2Proof.Machine.execDlDown s
  | .pfFlr => Sys2Proof.Machine.execPfFlr s
  | .tapReset => Sys2Proof.Machine.execTapReset s
  | .bootImageCheck => Sys2Proof.Machine.execBootImageCheck s
  | .fwUp => Sys2Proof.Machine.execFwUp s
  | .mapDone failed hedgerowBad d2dBad => Sys2Proof.Machine.execMapDone failed hedgerowBad d2dBad s
  | .ready => Sys2Proof.Machine.execReady s
  | .configRequest fn reg wr => Sys2Proof.Machine.execConfigRequest fn reg wr s
  | .linkRetrain width gts => Sys2Proof.Machine.execLinkRetrain width gts s
  | .vfEnableChange enable numVfs => Sys2Proof.Machine.execVfEnableChange enable numVfs s
  | .vfFlr k => Sys2Proof.Machine.execVfFlr k s
  | .lockstepMismatch => Sys2Proof.Machine.execLockstepMismatch s
  | .fwWatchdogExpire => Sys2Proof.Machine.execFwWatchdogExpire s
  | .ezdanResume => Sys2Proof.Machine.execEzdanResume s
  | .logRead => Sys2Proof.Machine.execLogRead s
  | .flashWrite => Sys2Proof.Machine.execFlashWrite s
  | .flashActivate => Sys2Proof.Machine.execFlashActivate s
  | .warmReset => Sys2Proof.Machine.execWarmReset s
  | .svnCommit => Sys2Proof.Machine.execSvnCommit s
  | .mboxUnknown code => Sys2Proof.Machine.execMboxUnknown code s
  | .mboxDone => Sys2Proof.Machine.execMboxDone s
  | .smbBootStage => Sys2Proof.Machine.execSmbBootStage s
  | .smbTjMax => Sys2Proof.Machine.execSmbTjMax s
  | .smbShedState => Sys2Proof.Machine.execSmbShedState s
  | .smbRetiredCount => Sys2Proof.Machine.execSmbRetiredCount s
  | .smbErrorCodes => Sys2Proof.Machine.execSmbErrorCodes s
  | .seal => Sys2Proof.Machine.execSeal s
  | .registerWrite w size val => Sys2Proof.Machine.execRegisterWrite w size val s
  | .etuTimeLatch => Sys2Proof.Machine.execEtuTimeLatch s
  | .xcycLatch n => Sys2Proof.Machine.execXcycLatch n s
  | .srefLatch k => Sys2Proof.Machine.execSrefLatch k s
  | .capRead n => Sys2Proof.Machine.execCapRead n s
  | .minClr n => Sys2Proof.Machine.execMinClr n s
  | .occClr id => Sys2Proof.Machine.execOccClr id s
  | .occClrRow id => Sys2Proof.Machine.execOccClrRow id s
  | .hostevAdd evc => Sys2Proof.Machine.execHostevAdd evc s
  | .hostevSet evc adds => Sys2Proof.Machine.execHostevSet evc adds s
  | .refCfgWrite n val => Sys2Proof.Machine.execRefCfgWrite n val s
  | .timeReset => Sys2Proof.Machine.execTimeReset s
  | .forceHoldover => Sys2Proof.Machine.execForceHoldover s
  | .keepRef => Sys2Proof.Machine.execKeepRef s
  | .clearSuspect n => Sys2Proof.Machine.execClearSuspect n s
  | .releaseHoldover => Sys2Proof.Machine.execReleaseHoldover s
  | .ptpMeas hi => Sys2Proof.Machine.execPtpMeas hi s
  | .todSec hi => Sys2Proof.Machine.execTodSec hi s
  | .ppsPulse => Sys2Proof.Machine.execPpsPulse s
  | .refQualified n => Sys2Proof.Machine.execRefQualified n s
  | .refCriterionLost n => Sys2Proof.Machine.execRefCriterionLost n s
  | .enterLocked => Sys2Proof.Machine.execEnterLocked s
  | .pullInDone => Sys2Proof.Machine.execPullInDone s
  | .holdExpired => Sys2Proof.Machine.execHoldExpired s
  | .driftWindow freq => Sys2Proof.Machine.execDriftWindow freq s
  | .dieUnsynced d => Sys2Proof.Machine.execDieUnsynced d s
  | .dieRealign d => Sys2Proof.Machine.execDieRealign d s
  | .trigArm n ctrl => Sys2Proof.Machine.execTrigArm n ctrl s
  | .trigDisarm n ctrl => Sys2Proof.Machine.execTrigDisarm n ctrl s
  | .trigFire ns => Sys2Proof.Machine.execTrigFire ns s
  | .captureEdge src rising => Sys2Proof.Machine.execCaptureEdge src rising s
  | .excursion n => Sys2Proof.Machine.execExcursion n s
  | .patinaSample m slack => Sys2Proof.Machine.execPatinaSample m slack s
  | .patinaCritTick c => Sys2Proof.Machine.execPatinaCritTick c s
  | .marginFail n => Sys2Proof.Machine.execMarginFail n s
  | .patinaRecoveryTick n => Sys2Proof.Machine.execPatinaRecoveryTick n s
  | .jdWindow n jitter duty ppm => Sys2Proof.Machine.execJdWindow n jitter duty ppm s
  | .jdLoss n => Sys2Proof.Machine.execJdLoss n s
  | .capRampTick n => Sys2Proof.Machine.execCapRampTick n s
  | .stepAdmit => Sys2Proof.Machine.execStepAdmit s
  | .setpointStep naks => Sys2Proof.Machine.execSetpointStep naks s
  | .pmbusStatusPoll naks => Sys2Proof.Machine.execPmbusStatusPoll naks s
  | .pmbusTelemetryPoll naks => Sys2Proof.Machine.execPmbusTelemetryPoll naks s
  | .vrAlert asserted => Sys2Proof.Machine.execVrAlert asserted s
  | .tjUpdate t => Sys2Proof.Machine.execTjUpdate t s
  | .thermtrip => Sys2Proof.Machine.execThermtrip s
  | .pfwNLow => Sys2Proof.Machine.execPfwNLow s
  | .shed => Sys2Proof.Machine.execShed s
  | .shedRampStep => Sys2Proof.Machine.execShedRampStep s
  | .resume => Sys2Proof.Machine.execResume s
  | .outputEnable ifc => Sys2Proof.Machine.execOutputEnable ifc s
  | .outputDisable ifc => Sys2Proof.Machine.execOutputDisable ifc s
  | .probeBurst p => Sys2Proof.Machine.execProbeBurst p s
  | .submit fn page producer gen => Sys2Proof.Machine.execSubmit fn page producer gen s
  | .cancel fn page target => Sys2Proof.Machine.execCancel fn page target s
  | .pollRead r => Sys2Proof.Machine.execPollRead r s
  | .descriptorFetch r => Sys2Proof.Machine.execDescriptorFetch r s
  | .grant => Sys2Proof.Machine.execGrant s
  | .adminTake => Sys2Proof.Machine.execAdminTake s
  | .ringSetup => Sys2Proof.Machine.execRingSetup s
  | .ringTeardown => Sys2Proof.Machine.execRingTeardown s
  | .ringReset => Sys2Proof.Machine.execRingReset s
  | .evcAssign => Sys2Proof.Machine.execEvcAssign s
  | .xltCtxSet => Sys2Proof.Machine.execXltCtxSet s
  | .xltInvalidate => Sys2Proof.Machine.execXltInvalidate s
  | .vfLimits => Sys2Proof.Machine.execVfLimits s
  | .peerCfg => Sys2Proof.Machine.execPeerCfg s
  | .ringAdminCtrl mask => Sys2Proof.Machine.execRingAdminCtrl mask s
  | .ringAdminReset mask => Sys2Proof.Machine.execRingAdminReset mask s
  | .nop cls u => Sys2Proof.Machine.execNop cls u s
  | .wait cls u => Sys2Proof.Machine.execWait cls u s
  | .waitPass cls u => Sys2Proof.Machine.execWaitPass cls u s
  | .signal cls u => Sys2Proof.Machine.execSignal cls u s
  | .signalLocal cls u => Sys2Proof.Machine.execSignalLocal cls u s
  | .tvcRun u => Sys2Proof.Machine.execTvcRun u s
  | .tmuRun u => Sys2Proof.Machine.execTmuRun u s
  | .mqBind u => Sys2Proof.Machine.execMqBind u s
  | .raBind r => Sys2Proof.Machine.execRaBind r s
  | .ldpcDec u => Sys2Proof.Machine.execLdpcDec u s
  | .harqEntryTake u => Sys2Proof.Machine.execHarqEntryTake u s
  | .ldpcEnc u => Sys2Proof.Machine.execLdpcEnc u s
  | .polarDec u => Sys2Proof.Machine.execPolarDec u s
  | .polarEnc u => Sys2Proof.Machine.execPolarEnc u s
  | .harqFree u => Sys2Proof.Machine.execHarqFree u s
  | .paMatmul a => Sys2Proof.Machine.execPaMatmul a s
  | .paConv a => Sys2Proof.Machine.execPaConv a s
  | .paStore a => Sys2Proof.Machine.execPaStore a s
  | .paReduceF a => Sys2Proof.Machine.execPaReduceF a s
  | .paAccumX a => Sys2Proof.Machine.execPaAccumX a s
  | .paCollect a => Sys2Proof.Machine.execPaCollect a s
  | .holdExpire c => Sys2Proof.Machine.execHoldExpire c s
  | .preemptHandover a => Sys2Proof.Machine.execPreemptHandover a s
  | .preemptResume a => Sys2Proof.Machine.execPreemptResume a s
  | .teCycle c => Sys2Proof.Machine.execTeCycle c s
  | .planningCycleStart c upto => Sys2Proof.Machine.execPlanningCycleStart c upto s
  | .searchBound c upto => Sys2Proof.Machine.execSearchBound c upto s
  | .fxSections p => Sys2Proof.Machine.execFxSections p s
  | .fxUplane p => Sys2Proof.Machine.execFxUplane p s
  | .windowOpen p => Sys2Proof.Machine.execWindowOpen p s
  | .cvStart k => Sys2Proof.Machine.execCvStart k s
  | .cvAgc k => Sys2Proof.Machine.execCvAgc k s
  | .agcEntry k => Sys2Proof.Machine.execAgcEntry k s
  | .mvCopy ch => Sys2Proof.Machine.execMvCopy ch s
  | .mvFill ch => Sys2Proof.Machine.execMvFill ch s
  | .segmentStop cls u => Sys2Proof.Machine.execSegmentStop cls u s
  | .lateEvent r => Sys2Proof.Machine.execLateEvent r s
  | .descriptorEnd r => Sys2Proof.Machine.execDescriptorEnd r s
  | .completionWrite r => Sys2Proof.Machine.execCompletionWrite r s
  | .msixMessage v => Sys2Proof.Machine.execMsixMessage v s
  | .crossbarArrival inputs => Sys2Proof.Machine.execCrossbarArrival inputs s
  | .evcParity n => Sys2Proof.Machine.execEvcParity n s
  | .hedgerowUe router => Sys2Proof.Machine.execHedgerowUe router s
  | .d2dRetry d many => Sys2Proof.Machine.execD2dRetry d many s
  | .d2dDown d => Sys2Proof.Machine.execD2dDown d s
  | .waitStuck cls u => Sys2Proof.Machine.execWaitStuck cls u s
  | .errRetireCmd typ idx => Sys2Proof.Machine.execErrRetireCmd typ idx s
  | .logFlashCopy ok => Sys2Proof.Machine.execLogFlashCopy ok s
  | .scrub unit off => Sys2Proof.Machine.execScrub unit off s
  | .layInvHandle ctx handle => Sys2Proof.Machine.execLayInvHandle ctx handle s
  | .layInvAll ctx => Sys2Proof.Machine.execLayInvAll ctx s
  | .layInvDone => Sys2Proof.Machine.execLayInvDone s
  | .peerInbound die addr data len => Sys2Proof.Machine.execPeerInbound die addr data len s
  | .publish func table sfn sf => Sys2Proof.Machine.execPublish func table sfn sf s
  | .withdraw entry => Sys2Proof.Machine.execWithdraw entry s
  | .publishDone => Sys2Proof.Machine.execPublishDone s
  | .portUp p => Sys2Proof.Machine.execPortUp p s
  | .portDown p => Sys2Proof.Machine.execPortDown p s
  | .restart p => Sys2Proof.Machine.execRestart p s
  | .frameReceive p check fifoFull bytes => Sys2Proof.Machine.execFrameReceive p check fifoFull bytes s
  | .rxWindowClose c sfn slot sym => Sys2Proof.Machine.execRxWindowClose c sfn slot sym s
  | .admissionOpen c => Sys2Proof.Machine.execAdmissionOpen c s
  | .placementEffect c => Sys2Proof.Machine.execPlacementEffect c s
  | .egressGrant p => Sys2Proof.Machine.execEgressGrant p s
  | .cpCancelSection c sfn slot sec => Sys2Proof.Machine.execCpCancelSection c sfn slot sec s
  | .cpCancelAll c sfn slot => Sys2Proof.Machine.execCpCancelAll c sfn slot s
  | .tqTransmit => Sys2Proof.Machine.execTqTransmit s
  | .linkSync k => Sys2Proof.Machine.execLinkSync k s
  | .sysrefEdge k => Sys2Proof.Machine.execSysrefEdge k s
  | .laneLock k => Sys2Proof.Machine.execLaneLock k s
  | .converterStart k => Sys2Proof.Machine.execConverterStart k s
  | .linkLoss k => Sys2Proof.Machine.execLinkLoss k s
  | .nrSymbol k sfn slot sym samples => Sys2Proof.Machine.execNrSymbol k sfn slot sym samples s
  | .txSymbol k sfn slot sym => Sys2Proof.Machine.execTxSymbol k sfn slot sym s
  | .stsWindow k power => Sys2Proof.Machine.execStsWindow k power s
  | .startDetection k power symsBefore => Sys2Proof.Machine.execStartDetection k power symsBefore s
  | .burstDetected k power cfo => Sys2Proof.Machine.execBurstDetected k power cfo s
  | .burstEnd k erased clipped syms => Sys2Proof.Machine.execBurstEnd k erased clipped syms s
  | .listenExpire k => Sys2Proof.Machine.execListenExpire k s
  | .cvProfLoad p => Sys2Proof.Machine.execCvProfLoad p s
  | .dmaDone t v => Sys2Proof.Machine.execDmaDone t v s
  | .tvcRunaway t v => Sys2Proof.Machine.execTvcRunaway t v s
  | .tvcNop t v slot => Sys2Proof.Machine.execTvcNop t v slot s
  | .tvcLi t v sd imm => Sys2Proof.Machine.execTvcLi t v sd imm s
  | .tvcLih t v sd imm => Sys2Proof.Machine.execTvcLih t v sd imm s
  | .tvcAdd t v sd sa sb => Sys2Proof.Machine.execTvcAdd t v sd sa sb s
  | .tvcSub t v sd sa sb => Sys2Proof.Machine.execTvcSub t v sd sa sb s
  | .tvcAddi t v sd sa imm => Sys2Proof.Machine.execTvcAddi t v sd sa imm s
  | .tvcAnd t v sd sa sb => Sys2Proof.Machine.execTvcAnd t v sd sa sb s
  | .tvcOr t v sd sa sb => Sys2Proof.Machine.execTvcOr t v sd sa sb s
  | .tvcShl t v sd sa sb => Sys2Proof.Machine.execTvcShl t v sd sa sb s
  | .tvcShr t v sd sa sb => Sys2Proof.Machine.execTvcShr t v sd sa sb s
  | .tvcLoop t v sa body imm => Sys2Proof.Machine.execTvcLoop t v sa body imm s
  | .tvcBnz t v sa imm => Sys2Proof.Machine.execTvcBnz t v sa imm s
  | .tvcMovp t v pt sa => Sys2Proof.Machine.execTvcMovp t v pt sa s
  | .tvcSetrm t v imm => Sys2Proof.Machine.execTvcSetrm t v imm s
  | .tvcRdcyc t v sd => Sys2Proof.Machine.execTvcRdcyc t v sd s
  | .tvcDma t v sa => Sys2Proof.Machine.execTvcDma t v sa s
  | .tvcDmaw t v => Sys2Proof.Machine.execTvcDmaw t v s
  | .tvcEnd t v => Sys2Proof.Machine.execTvcEnd t v s
  | .tvcVadd t v o => Sys2Proof.Machine.execTvcVadd t v o s
  | .tvcVsub t v o => Sys2Proof.Machine.execTvcVsub t v o s
  | .tvcVcmul t v o => Sys2Proof.Machine.execTvcVcmul t v o s
  | .tvcVmag t v o => Sys2Proof.Machine.execTvcVmag t v o s
  | .tvcVsta t v o => Sys2Proof.Machine.execTvcVsta t v o s
  | .tvcVrcp t v o => Sys2Proof.Machine.execTvcVrcp t v o s
  | .tvcVmov t v o => Sys2Proof.Machine.execTvcVmov t v o s
  | .tvcVbcst t v o => Sys2Proof.Machine.execTvcVbcst t v o s
  | .tvcVmax t v o => Sys2Proof.Machine.execTvcVmax t v o s
  | .tvcVmin t v o => Sys2Proof.Machine.execTvcVmin t v o s
  | .tvcVclip t v o => Sys2Proof.Machine.execTvcVclip t v o s
  | .tvcVpack8 t v o => Sys2Proof.Machine.execTvcVpack8 t v o s
  | .tvcCsel t v o => Sys2Proof.Machine.execTvcCsel t v o s
  | .tvcLd t v o => Sys2Proof.Machine.execTvcLd t v o s
  | .tvcSt t v o => Sys2Proof.Machine.execTvcSt t v o s
  | .tvcLdb t v o => Sys2Proof.Machine.execTvcLdb t v o s
  | .refCriterionMet n => Sys2Proof.Machine.execRefCriterionMet n s
  | .pfwNRelease => Sys2Proof.Machine.execPfwNRelease s
  | .completionTimeout src => Sys2Proof.Machine.execCompletionTimeout src s
  | .airTimeEnd k sfn slot sym => Sys2Proof.Machine.execAirTimeEnd k sfn slot sym s
  | .msixUnmask fn entry => Sys2Proof.Machine.execMsixUnmask fn entry s
  | .tckEdge tms tdi => Sys2Proof.Machine.execTckEdge tms tdi s

end Sys2Proof.Machine
end

