-- ==== Sys2Proof/Machine/Tick.lean ====
section
/-! DEFINITION. The passing of time on an empty queue (log entry 2). -/
namespace Sys2Proof.Machine

/-- A TCLK edge at an XCLK instance that runs (R56, R59, R62): it goes at the lower of its cap and what its supply allows,
and completes at most one cycle, since 1750 MHz lies below the 1966.08 MHz of the edges. FREQ takes the mean of each whole
millisecond of SCLK, which SCLK's own cycles, that no phase relation ties to TCLK, cannot bring above the caps held. -/
def runInst (sclk n i : Nat) (x : Inst) : Inst :=
  if !x.run then x
  else
    let p := x.phase + 100 * min x.cap (Config.supplyFreq i n)
    let c := p / 196608
    let x := { x with phase := p % 196608, cycles := x.cycles + BitVec.ofNat 48 c, winCycles := x.winCycles + c
                      winCap := max x.winCap x.cap }
    if x.winStart + 100000 ≤ sclk then
      { x with freq := min x.winCap (x.winCycles / 1000), winStart := sclk, winCycles := 0, winCap := x.cap }
    else x

/-- One edge of TCLK of I/O die 0 (R27, R55, R73): the master count advances by 1, unless TCLK is lost, and the other
clocks complete a cycle or not, with no phase relation. -/
def tick (s : State) : State :=
  let n := s.tick
  let sclk := s.sclk + b2n (Config.sclkEdge n)
  { s with
    tick := n + 1
    etu := if s.etu.tclkLost then s.etu else { s.etu with count := s.etu.count + 1 }
    sclk := sclk
    hclk := s.hclk + b2n (Config.hclkEdge n)
    inst := s.inst.map fun e => (e.1, runInst sclk n e.1 e.2) }

end Sys2Proof.Machine
end

