-- ==== Sys2Proof/Safety.lean ====
section
/-! DEFINITION. What stays well formed on every run: the memories' canonical form, the fused facts that only grow, the
bits that the seal locks, and the parts of the state that most commands leave alone. -/
namespace Sys2Proof.Machine

/-- Every memory table lists each address once, addresses strictly rising. -/
def Memory.wf (m : Memory) : Bool := tblWf m.host && tblWf m.hbm && tblWf m.ssram && tblWf m.peer

/-- The command is SVN_COMMIT: its own row, or the register write that gives the mailbox its code (R103, R105). -/
def commitsSvn (c : Instr) : Prop :=
  match c with
  | .svnCommit => True
  | .registerWrite (.setup off) _ val => off = 0x40 ∧ bits val.toNat 7 0 = 5
  | _ => False

/-- The bits of a register word that lock at the seal (R7, R8). -/
def lockedBits (s : State) (off : Nat) : Nat := Nat.land (reg s off) (regSpec off).rwl

/-- The stored register words are in canonical form. -/
def RegsWf (s : State) : Prop := tblWf s.regs = true

/-- The parts of the state that only a few rows write: fuses, flash, mailbox, feature agreement, the stored
register words, the seal, the Patina and jitter measurements, the test access port, the SMBus answer, the latched word
that a register read returns, and the clocks. -/
structure QuietParts where
  fuse : Fuse
  flash : Flash
  mbox : Mbox
  feat : Feat
  regs : Tbl W32
  sealed : Bool
  pat : Tbl Pat
  jd : Tbl Jd
  tap : Tap
  smb : List Byte
  readOut : W32
  tick : Nat
  sclk : Nat
  hclk : Nat
  deriving DecidableEq, Repr

def State.quiet (s : State) : QuietParts :=
  ⟨s.fuse, s.flash, s.mbox, s.feat, s.regs, s.boot.sealed, s.pat, s.jd, s.tap, s.smb, s.readOut, s.tick, s.sclk,
    s.hclk⟩

/-- The bytes of the four memories: host, HBM, SSRAM, peer. -/
def State.bytes (s : State) : Tbl Byte × Tbl Byte × Tbl Byte × Tbl Byte :=
  (s.mem.host, s.mem.hbm, s.mem.ssram, s.mem.peer)

/-- The rows that write a quiet part: the resets, the register write, and the rows whose effect is one. -/
def writesQuiet (c : Instr) : Bool :=
  match c with
  | .coldReset | .perstAssert | .dlDown | .pfFlr | .tapReset | .ready | .logRead | .flashWrite
  | .flashActivate | .warmReset | .svnCommit | .mboxUnknown _ | .mboxDone | .smbBootStage | .smbTjMax
  | .smbShedState | .smbRetiredCount | .smbErrorCodes | .seal | .registerWrite _ _ _ | .etuTimeLatch
  | .xcycLatch _ | .srefLatch _ | .capRead _ | .minClr _ | .refCfgWrite _ _ | .trigArm _ _ | .trigDisarm _ _
  | .patinaSample _ _ | .jdWindow _ _ _ _ | .jdLoss _ | .logFlashCopy _ | .tckEdge _ _ => true
  | _ => false

/-- The rows that may store to a memory: they move data, complete descriptors or let a list go on; the resets and the
register write with them. -/
def mayStore (c : Instr) : Bool :=
  match c with
  | .coldReset | .perstAssert | .dlDown | .pfFlr | .warmReset | .registerWrite _ _ _ | .ezdanResume
  | .marginFail _ | .shedRampStep | .outputDisable _ | .portDown _ | .restart _ | .pollRead _ | .descriptorFetch _
  | .grant | .ringSetup | .ringReset
  | .peerCfg | .ringAdminReset _ | .nop _ _ | .wait _ _ | .waitPass _ _ | .signal _ _ | .signalLocal _ _
  | .tvcRun _ | .tmuRun _ | .mqBind _ | .raBind _ | .ldpcDec _ | .harqEntryTake _ | .ldpcEnc _ | .polarDec _
  | .polarEnc _ | .harqFree _ | .paMatmul _ | .paConv _ | .paStore _ | .paReduceF _ | .paAccumX _
  | .paCollect _ | .preemptHandover _ | .preemptResume _ | .teCycle _ | .planningCycleStart _ _
  | .searchBound _ _ | .fxSections _ | .fxUplane _ | .windowOpen _ | .cvStart _ | .cvAgc _ | .agcEntry _
  | .mvCopy _ | .mvFill _ | .segmentStop _ _ | .lateEvent _ | .descriptorEnd _ | .completionWrite _
  | .hedgerowUe _ | .d2dDown _ | .errRetireCmd _ _ | .scrub _ _ | .peerInbound _ _ _ _ | .publishDone
  | .frameReceive _ _ _ _ | .egressGrant _ | .cpCancelSection _ _ _ _ | .cpCancelAll _ _ _ | .tqTransmit
  | .sysrefEdge _ | .laneLock _ | .converterStart _ | .nrSymbol _ _ _ _ _ | .txSymbol _ _ _ _ | .cvProfLoad _
  | .dmaDone _ _ | .tvcRunaway _ _ | .tvcNop _ _ _ | .tvcLi _ _ _ _ | .tvcLih _ _ _ _ | .tvcAdd _ _ _ _ _
  | .tvcSub _ _ _ _ _ | .tvcAddi _ _ _ _ _ | .tvcAnd _ _ _ _ _ | .tvcOr _ _ _ _ _ | .tvcShl _ _ _ _ _
  | .tvcShr _ _ _ _ _ | .tvcLoop _ _ _ _ _ | .tvcBnz _ _ _ _ | .tvcMovp _ _ _ _ | .tvcSetrm _ _ _
  | .tvcRdcyc _ _ _ | .tvcDma _ _ _ | .tvcDmaw _ _ | .tvcEnd _ _ | .tvcVadd _ _ _ | .tvcVsub _ _ _
  | .tvcVcmul _ _ _ | .tvcVmag _ _ _ | .tvcVsta _ _ _ | .tvcVrcp _ _ _ | .tvcVmov _ _ _ | .tvcVbcst _ _ _
  | .tvcVmax _ _ _ | .tvcVmin _ _ _ | .tvcVclip _ _ _ | .tvcVpack8 _ _ _ | .tvcCsel _ _ _ | .tvcLd _ _ _
  | .tvcSt _ _ _ | .tvcLdb _ _ _ | .completionTimeout _ => true
  | _ => false

end Sys2Proof.Machine
end

