-- ==== Sys2Proof/Certificates/Slice0/Obligations.lean ====
section
/-! DEFINITION. The statements for the provers. Each names the rows and the rules it speaks of. -/
section
open Sys2Proof Sys2Proof.Machine

/-- The step's own rule, which every statement about a row reaches a run through. -/
def Obligations.StepRunsTheFrontCommand : Prop :=
  ∀ (c : Instr) (rest : List Instr) (s : State),
    Machine.step { s with pending := c :: rest } = exec c { s with pending := rest }

/-- The empty queue's step, a design choice of the model (log entry 2); the counts of SCLK and HCLK edges are free. -/
def Obligations.EmptyQueueStepCountsOneTc : Prop :=
  ∀ s : State, s.pending = [] → ∃ t, Machine.step s = .next t
    ∧ t.etu = (if s.etu.tclkLost then s.etu else { s.etu with count := s.etu.count + 1 })
    ∧ t.sclk - s.sclk ≤ 1 ∧ s.sclk ≤ t.sclk ∧ t.hclk - s.hclk ≤ 1 ∧ s.hclk ≤ t.hclk
    ∧ (∀ n, (instOf s n).run = false → (instOf t n).cycles = (instOf s n).cycles)
    ∧ t = { s with tick := t.tick, etu := t.etu, sclk := t.sclk, hclk := t.hclk, inst := t.inst }

/-- The queue is first in, first out, over all 222 rows. -/
def Obligations.StepTakesOnlyTheFrontCommand : Prop :=
  (∀ (c : Instr) (rest : List Instr) (s t : State),
    Machine.step { s with pending := c :: rest } = .next t → t.pending = rest)
  ∧ ∀ s t : State, s.pending = [] → Machine.step s = .next t → t.pending = []

/-- Over every command and every state. -/
def Obligations.StepKeepsFusedFacts : Prop :=
  ∀ s t : State, Machine.step s = .next t →
    t.fuse.assy = s.fuse.assy ∧ t.fuse.vset = s.fuse.vset ∧ t.fuse.rootHash = s.fuse.rootHash
    ∧ t.fuse.lifecycle = s.fuse.lifecycle
    ∧ (t.fuse.svn ≠ s.fuse.svn → s.fuse.svn < t.fuse.svn ∧ t.fuse.svn = s.boot.runSvn
        ∧ ∃ c rest, s.pending = c :: rest ∧ (c = .svnCommit ∨ ∃ size val, c = .registerWrite (.setup 0x40) size val ∧ bits val.toNat 7 0 = 5))

/-- An inductive invariant over every step; its base case is ResetStateIsWellFormed. -/
def Obligations.StepKeepsMemoriesCanonical : Prop :=
  ∀ s t : State, s.mem.wf = true → Machine.step s = .next t → t.mem.wf = true

/-- An inductive invariant over every step; its base case is ResetStateIsWellFormed. -/
def Obligations.StepKeepsRegisterWordsCanonical : Prop :=
  ∀ s t : State, RegsWf s → Machine.step s = .next t → RegsWf t

/-- The seal's lock over every command and every register; the masks of the RWL bits are those of the register tables. -/
def Obligations.SealedStepsKeepLockedBits : Prop :=
  ∀ s t : State, RegsWf s → s.boot.sealed = true → Machine.step s = .next t → t.boot.sealed = true →
    ∀ off, Nat.land (reg t off) (regSpec off).rwl = Nat.land (reg s off) (regSpec off).rwl

/-- The base case of the three invariants, with the reset values that the spec gives. -/
def Obligations.ResetStateIsWellFormed : Prop :=
  State.reset.pending = [] ∧ State.reset.mem.wf = true ∧ RegsWf State.reset
  ∧ State.reset.boot.pwrok = false ∧ State.reset.boot.fwUp = false ∧ State.reset.boot.sealed = false
  ∧ State.reset.ring = [] ∧ State.reset.runs = [] ∧ (∀ id, flag State.reset id = false)
  ∧ State.reset.etu.state = 0 ∧ State.reset.etu.count = 0 ∧ (∀ off, reg State.reset off = (regSpec off).reset)

/-- The frame over the quiet parts, for 189 rows at once. -/
def Obligations.OtherRowsLeaveQuietParts : Prop :=
  ∀ (c : Instr) (s t : State), writesQuiet c = false → exec c s = .next t → t.quiet = s.quiet

/-- The frame over the memories' bytes. -/
def Obligations.OtherRowsLeaveMemoryBytes : Prop :=
  ∀ (c : Instr) (s t : State), mayStore c = false → writesQuiet c = false → exec c s = .next t →
    t.mem.host = s.mem.host ∧ t.mem.hbm = s.mem.hbm ∧ t.mem.ssram = s.mem.ssram ∧ t.mem.peer = s.mem.peer

/-- PWROK_ASSERT, PERST_DEASSERT, PFW_N_RELEASE, TAP_RESET, TCK_EDGE complete, with the whole next state. The states and
instructions of the test access port are those of IEEE 1149.1 (log entry 40). -/
def Obligations.PinCommandsChangeOnlyTheirPin : Prop :=
  ∀ s : State,
    exec .pwrokAssert s = .next { s with boot := { s.boot with pwrok := true } }
    ∧ exec .perstDeassert s = .next { s with boot := { s.boot with perst := false } }
    ∧ exec .pfwNRelease s = .next { s with power := { s.power with pfw := false } }
    ∧ exec .tapReset s = .next { s with tap := { s.tap with state := 0, instr := 1, ir := [], dr := [], tdo := false } }
    ∧ (s.boot.pwrok = true → ∀ tms tdi : Bool, ∃ p : Tap,
        exec (.tckEdge tms tdi) s = .next { s with tap := p }
        ∧ p.state = tapNext s.tap.state tms
        ∧ (s.tap.state = 4 → p.dr = s.tap.dr.drop 1 ++ [tdi] ∧ p.tdo = s.tap.dr.headD false ∧ p.instr = s.tap.instr)
        ∧ (p.state = 0 → p.instr = 1))

/-- COLD_RESET, with the whole next state. A byte of a device memory that nothing has written since is a free value of the
memory's new epoch (log entries 4 and 5). -/
def Obligations.ColdResetKeepsFusesAndFlash : Prop :=
  ∀ s : State, ∃ t, exec .coldReset s = .next t
    ∧ t = { State.reset with
        pending := s.pending, fuse := s.fuse, flash := s.flash, boot := { perst := s.boot.perst, smbTo := s.boot.smbTo }
        etu := { tclkEdges := s.etu.tclkEdges }
        power := { pfw := s.power.pfw, vrAlert := s.power.vrAlert, powerGood := s.power.powerGood }
        mem := { host := s.mem.host, hostAnswer := s.mem.hostAnswer, peer := s.mem.peer
                 hbmEpoch := s.mem.hbmEpoch + 1, ssramEpoch := s.mem.ssramEpoch + 1 }
        arr := t.arr, tile := t.tile, tick := s.tick, hclk := s.hclk, choice := s.choice }
    ∧ (∀ a, a < 8 → arrOf t a = { epoch := (arrOf s a).epoch + 1 })
    ∧ (∀ n, n < 64 → tileOf t n = { epoch := (tileOf s n).epoch + 1 })
    ∧ (∀ a, hbmByte t a = Config.freeByte 1 (s.mem.hbmEpoch + 1) a)
    ∧ (∀ a, ssramByte t a = Config.freeByte 2 (s.mem.ssramEpoch + 1) a)
    ∧ (∀ n a, n < 64 → tileByte t n a = Config.freeByte (16 + n) ((tileOf s n).epoch + 1) a)
    ∧ t.etu.state = 0 ∧ t.etu.count = 0 ∧ t.boot.pwrok = false ∧ t.boot.sealed = false ∧ t.retired = []
    ∧ (∀ off, reg t off = (regSpec off).reset) ∧ ∀ id, flag t id = false

/-- PERST_ASSERT, DL_DOWN, PF_FLR, WARM_RESET. `kept u` says what the reset keeps and `gone u` what goes back to reset or
becomes undefined, in the state `u` before the references are judged anew, which `warmRefs` does. -/
def Obligations.WarmResetsKeepCountAndMap : Prop :=
  (∀ s : State, s.boot.halted = false →
    let kept (u : State) : Prop :=
      u.fuse = s.fuse ∧ u.flash = s.flash ∧ u.pending = s.pending ∧ u.retired = s.retired ∧ u.tap = s.tap
      ∧ u.etu.count = s.etu.count ∧ u.etu.state = s.etu.state ∧ u.etu.everLocked = s.etu.everLocked
      ∧ u.regs = warmRegs s ∧ u.fh.seq = s.fh.seq.map (fun e => (e.1, { e.2 with rxKnown := false }))
      ∧ u.err.log = s.err.log ∧ u.err.head = s.err.head
      ∧ u.boot.pwrok = s.boot.pwrok ∧ u.boot.fallback = s.boot.fallback
      ∧ u.mem.host = s.mem.host ∧ u.mem.peer = s.mem.peer
    let gone (u : State) : Prop :=
      u.boot.stage = 0 ∧ u.boot.fwUp = false ∧ u.boot.mapDone = false ∧ u.boot.ready = false ∧ u.boot.sealed = false
      ∧ u.mbox = {} ∧ u.feat = {} ∧ u.limits = [] ∧ u.ring = [] ∧ u.runs = [] ∧ u.ev.evc = [] ∧ u.col = [] ∧ u.mq = {}
      ∧ u.ce = {} ∧ u.cv = {} ∧ u.core = [] ∧ u.inst = [] ∧ u.pat = [] ∧ u.jd = [] ∧ u.fh.port = [] ∧ u.fh.carrier = []
      ∧ u.etu.trig = [] ∧ u.etu.cap = [] ∧ flag u 39 = true ∧ u.power.shed = 0 ∧ u.etu.forced = false
      ∧ (∀ n, (refOf u n).st = (refOf s n).st ∧ (refOf u n).dev = 0 ∧ (refOf u n).driftCnt = 0)
      ∧ (∀ a, hbmByte u a = Config.freeByte 1 (s.mem.hbmEpoch + 1) a)
      ∧ (∀ a, ssramByte u a = Config.freeByte 2 (s.mem.ssramEpoch + 1) a)
    (s.boot.pwrok = true → ∃ u, exec .perstAssert s = .next (warmRefs u) ∧ kept u ∧ gone u
      ∧ u.boot.perst = true ∧ u.link = {} ∧ u.power.outputs = tblSet false s.power.outputs 32 false)
    ∧ (s.link.trained = true → ∃ u, exec .dlDown s = .next (warmRefs u) ∧ kept u ∧ gone u
      ∧ u.boot.perst = s.boot.perst ∧ u.link = {} ∧ u.power.outputs = s.power.outputs)
    ∧ (∀ c, (c = .pfFlr ∧ s.link.trained = true ∨ c = .warmReset ∧ mboxBusy s = false) → s.boot.fwUp = true →
      ∃ u, exec c s = .next (warmRefs u) ∧ kept u ∧ gone u ∧ u.boot.perst = s.boot.perst
      ∧ u.link = { trained := s.link.trained, width := s.link.width, gts := s.link.gts }
      ∧ u.power.outputs = s.power.outputs))
  ∧ (∀ s : State, (s.boot.pwrok = false ∨ s.boot.halted = true) →
      exec .perstAssert s = .next (portOff { s with boot := { s.boot with perst := true } }))
  ∧ (∀ s : State, s.link.trained = false → exec .dlDown s = .next s ∧ exec .pfFlr s = .next s)
  ∧ (∀ s : State, s.boot.fwUp = false → exec .pfFlr s = .next s ∧ exec .warmReset s = .next s)
  ∧ (∀ u : State, (∀ n, n < 6 → (refOf u n).st = 2 → refMeets u n = true) → warmRefs u =
      { u with etu := { u.etu with refs := u.etu.refs.map fun x => (x.1, { x.2 with crit := x.2.crit && refMeets u x.1 }) } })
  ∧ (∀ u : State, etuLive u = true → u.etu.state = 2 → (∀ n, n < 6 → (refOf u n).st = 2 → refMeets u n = false) →
      (∃ n, n < 6 ∧ (refOf u n).st = 2) → (warmRefs u).etu.state = 3 ∧ (warmRefs u).etu.count = u.etu.count)

/-- BOOT_IMAGE_CHECK, FW_UP, MAP_DONE, READY. -/
def Obligations.StartUpStagesFollowInOrder : Prop :=
  ∀ s : State,
    (s.boot.pwrok = true → s.boot.halted = false → s.boot.stage = 0 → s.boot.fwUp = false →
      let a := s.flash.active % 2
      let pass (i : Image) : Prop := i.certOk = true ∧ i.sigOk = true ∧ i.namesCore = true ∧ s.fuse.svn ≤ i.svn
      let start (slot : Nat) (fallback : Bool) : State := { s with boot := { s.boot with
        stage := 1, slot := slot, fallback := fallback, runSvn := (imageOf s slot).svn, recovery := false } }
      (pass (imageOf s a) → exec .bootImageCheck s = .next (start a false))
      ∧ (¬ pass (imageOf s a) → pass (imageOf s (1 - a)) → exec .bootImageCheck s = .next (start (1 - a) true))
      ∧ (¬ pass (imageOf s a) → ¬ pass (imageOf s (1 - a)) → exec .bootImageCheck s =
          .next { s with boot := { s.boot with stage := 0xE, recovery := true, fallback := false } }))
    ∧ (s.boot.pwrok = true → s.boot.halted = false → s.boot.perst = false → s.boot.fwUp = false →
        let modes := (List.range 2).foldl
          (fun t i => tblSet 0 t (i + 1) (Config.flashBifurcation (i + 1))) s.link.bifurcation
        (s.boot.recovery = true → exec .fwUp s = .next { s with boot := { s.boot with fwUp := true } })
        ∧ (s.boot.recovery = false → s.boot.stage = 1 → exec .fwUp s = .next (startAll { s with
            boot := { s.boot with fwUp := true, stage := if s.boot.published then 2 else 3, testFailed := [] }
            link := { s.link with bifurcation := modes } })))
    ∧ (s.boot.fwUp = true → s.boot.recovery = false → s.boot.mapDone = false → ∀ failed bad d2d,
        let map (u : State) : State := recap { u with boot := { u.boot with mapDone := true } }
        let u := d2d.foldl failD2d (retireFailed s (failed ++ s.boot.testFailed))
        (s.boot.published = true → exec (.mapDone failed bad d2d) s = .next (map (dropRetired s)))
        ∧ (s.boot.published = false → testsRan s = true → exec (.mapDone failed bad d2d) s = .next (map (dropRetired
            { u with boot := { u.boot with hedgerowBad := bad, published := true } })))
        ∧ (s.boot.published = false → testsRan s = false → exec (.mapDone failed bad d2d) s = .next s))
    ∧ (s.boot.mapDone = true → s.boot.ready = false →
        exec .ready s = .next (updateFloor { s with
          feat := { s.feat with offer := BitVec.ofNat 128 (offerOf s) },
          boot := { s.boot with ready := true, stage := 4 } }))

/-- LOCKSTEP_MISMATCH, FW_WATCHDOG_EXPIRE, EZDAN_RESUME. -/
def Obligations.EzdanRestartsAndResumes : Prop :=
  ∀ s : State,
    (s.boot.pwrok = true → s.boot.halted = false → s.boot.fwUp = false →
      exec .lockstepMismatch s = .next (linkOff { s with boot := { s.boot with halted := true, stage := 0xF } }))
    ∧ (s.boot.fwUp = true → s.boot.halted = false → s.boot.ezHalted = false →
        let again := s.boot.lastRestart.any fun t => s.sclk < t + 100000000
        let restart (cause : Nat) : State :=
          logEvent { s with boot := { s.boot with restarting := true, lastRestart := some s.sclk } } 0x5001 0 cause 0
        let halt : State := updateFloor (logEvent
          { s with boot := { s.boot with ezHalted := true, restarting := false, stage := 0xF } } 0x5003 0 0 0)
        (s.boot.pwrok = true → exec .lockstepMismatch s = .next (if again then halt else restart 0))
        ∧ exec .fwWatchdogExpire s = .next (if again then halt else restart 1))
    ∧ (s.boot.restarting = true → s.arb.admin = none → s.boot.heldAdminReset = 0 →
        exec .ezdanResume s =
          .next (setFlag { s with boot := { s.boot with restarting := false, heldAdminReset := 0 } } 3078))

/-- LOG_READ, FLASH_WRITE, FLASH_ACTIVATE, SVN_COMMIT, MBOX_UNKNOWN, MBOX_DONE. Whether the flash fails is a free value
(Config.flashFails, log entry 4). -/
def Obligations.MailboxCommandsPostTheirResult : Prop :=
  ∀ s : State, s.boot.fwUp = true →
    (mboxBusy s = false →
      let o := reg s 0x48
      let post (t : State) (code due : Nat) : State := { t with mbox := { t.mbox with busy := true, code := code, due := due } }
      let other := 1 - s.flash.active % 2
      (o + 4096 ≤ 1048576 → exec .logRead s = .next (post { s with mbox := { s.mbox with
          window := fillTbl 0 [] 0 (bytesAt (tblGet 0xFF s.flash.log) o 4096) } } 1 0))
      ∧ (1048576 < o + 4096 → exec .logRead s = .next (post s 1 4))
      ∧ (o + 4096 ≤ 4194304 → ∃ t, exec .flashWrite s = .next (post t 2 (if Config.flashFails s.choice then 3 else 0))
          ∧ t = { s with choice := s.choice + 1, flash := t.flash }
          ∧ t.flash.active = s.flash.active ∧ t.flash.log = s.flash.log
          ∧ (s.flash.active % 2 = 0 → t.flash.imageA = s.flash.imageA ∧ t.flash.bytesA = s.flash.bytesA
              ∧ t.flash.imageB = openImage s.choice ∧ (Config.flashFails s.choice = false →
                t.flash.bytesB = fillTbl 0xFF s.flash.bytesB o (bytesAt (tblGet 0 s.mbox.window) 0 4096)))
          ∧ (s.flash.active % 2 = 1 → t.flash.imageB = s.flash.imageB ∧ t.flash.bytesB = s.flash.bytesB
              ∧ t.flash.imageA = openImage s.choice ∧ (Config.flashFails s.choice = false →
                t.flash.bytesA = fillTbl 0xFF s.flash.bytesA o (bytesAt (tblGet 0 s.mbox.window) 0 4096))))
      ∧ (4194304 < o + 4096 → exec .flashWrite s = .next (post s 2 4))
      ∧ (accepts s (imageOf s other) = true → ∃ slot, exec .flashActivate s = .next (post
          { s with choice := s.choice + 1, flash := { s.flash with active := slot } } 3
          (if Config.flashFails s.choice then 3 else 0))
          ∧ (Config.flashFails s.choice = false → slot = other)
          ∧ (Config.flashFails s.choice = true → slot = other ∨ slot = s.flash.active))
      ∧ (accepts s (imageOf s other) = false → exec .flashActivate s = .next (post s 3 2))
      ∧ (s.boot.recovery = false → exec .svnCommit s =
          .next (post { s with fuse := { s.fuse with svn := max s.fuse.svn s.boot.runSvn } } 5 0))
      ∧ (s.boot.recovery = true → ∃ code, exec .svnCommit s = .next (post { s with choice := s.choice + 1 } 5 code))
      ∧ (∀ code, exec (.mboxUnknown code) s = .next (post s code 1)))
    ∧ (s.mbox.busy = true → s.boot.restarting = false → s.boot.ezHalted = false →
        exec .mboxDone s = .next { s with mbox := { s.mbox with busy := false, result := s.mbox.due } })
    ∧ (mboxBusy s = true → ∀ code, exec .logRead s = .next (setFlag s 0) ∧ exec .flashWrite s = .next (setFlag s 0)
        ∧ exec .flashActivate s = .next (setFlag s 0) ∧ exec .svnCommit s = .next (setFlag s 0)
        ∧ exec .warmReset s = .next (setFlag s 0) ∧ exec (.mboxUnknown code) s = .next (setFlag s 0))

/-- SMB_BOOT_STAGE, SMB_TJ_MAX, SMB_SHED_STATE, SMB_RETIRED_COUNT, SMB_ERROR_CODES. The address that a transaction names is
the board's (log entry 6). -/
def Obligations.SmbusAnswersTheManagementBytes : Prop :=
  ∀ (s : State), s.boot.pwrok = true →
    (s.boot.smbTo = fld s 0x5001C 6 0 →
    exec .smbBootStage s = .next { s with smb := leBytes 1 (s.boot.stage + s.boot.floor * 16) }
    ∧ exec .smbTjMax s = .next { s with smb := [s.power.tj] }
    ∧ exec .smbShedState s = .next { s with smb := leBytes 1 s.power.shed }
    ∧ exec .smbRetiredCount s = .next { s with smb := leBytes 2 (s.retired.countP fun e => e.2) }
    ∧ exec .smbErrorCodes s =
        .next { s with smb := (List.range 16).flatMap fun i => leBytes 2 (logCodeBack s i) })
    ∧ (s.boot.smbTo ≠ fld s 0x5001C 6 0 → exec .smbBootStage s = .next s ∧ exec .smbTjMax s = .next s
        ∧ exec .smbShedState s = .next s ∧ exec .smbRetiredCount s = .next s ∧ exec .smbErrorCodes s = .next s)

/-- LINK_RETRAIN, CONFIG_REQUEST, MSIX_MESSAGE, MSIX_UNMASK. -/
def Obligations.HostLinkTrainsAndAnswers : Prop :=
  ∀ s : State,
    (s.boot.pwrok = true → s.boot.perst = false → s.boot.halted = false → tblGet false s.power.outputs 32 = true →
      ∀ width gts, linkForm width gts = true →
      let t := { s with link := { s.link with trained := true, width := width, gts := gts } }
      exec (.linkRetrain width gts) s = .next (if width = 16 ∧ gts = 32 then t else setFlag t 2))
    ∧ (s.link.trained = true → ∀ fn r,
      let answer (u : State) (a : CfgAnswer) : State := { u with link := { u.link with answer := a } }
      (∀ wr, s.boot.fwUp = false → exec (.configRequest fn r wr) s = .next (answer s .retry))
      ∧ (s.boot.fwUp = true → fnExists s fn = true →
          exec (.configRequest fn r none) s = .next (takeChoice (answer s (.data fn (configRead s fn r))))
          ∧ ∀ w, exec (.configRequest fn r (some w)) s = .next (answer (configWrite s fn r w) (.data fn w))))
    ∧ (tblGet false s.power.outputs 32 = false → ∀ width gts, exec (.linkRetrain width gts) s = .next s)
    ∧ (∀ v, messageDue s v = true → vecMasked s v = false → ∃ q : VecReq,
        let t := { s with ev := { s.ev with vec := tblSet {} s.ev.vec v q } }
        exec (.msixMessage v) s = .next { t with
          link := { s.link with msix := tblMod {} s.link.msix v fun e => { e with pending := false } } }
        ∧ q.n = 0 ∧ q.lastMsg = some s.hclk ∧ q.sent = (tblGet {} s.ev.vec v).sent + 1)
    ∧ (∀ fn entry v, poolEntry s fn entry = some v →
        let e := tblGet {} s.link.msix v
        let t := { s with link := { s.link with msix := tblSet {} s.link.msix v { e with masked := false } } }
        exec (.msixUnmask fn entry) s = .next (if e.pending && messageDue s v
          && !tblGet false s.link.fnMask (poolOwner s v) then issueMessage t v else t))

/-- VF_FLR, VF_ENABLE_CHANGE. The first clause says what the reset of a virtual function does, which both rows run. -/
def Obligations.FunctionResetsFollowVfEnable : Prop :=
  (∀ (s : State) (k : Nat), 1 ≤ k →
    let t := resetFunction s k
    t.runs = s.runs.map (fun x => if x.fn = k then { x with cause := some .discarded } else x)
    ∧ (tblWf s.ring = true → ∀ r g, (r, g) ∈ t.ring → g.st ≠ 0 → g.fn ≠ k)
    ∧ t.ev.evc = s.ev.evc.map (fun e => if e.2.owner = some k then (e.1, { e.2 with val := 0 }) else e)
    ∧ t.mem = { s.mem with xlt := s.mem.xlt.filter fun e => e.ctx ≠ k }
    ∧ t.ce.harq = s.ce.harq.filter (fun e => e.2.func ≠ k)
    ∧ flag t (128 + k) = true
    ∧ (∃ e, tblGet? t.err.log ((t.err.head - 1) % 256) = some e ∧ e.code = 0x2002 ∧ e.func = k)
    ∧ (s.link.vfEnable = true → k ≤ s.link.numVfs → ∀ v, 32 * k ≤ v → v < 32 * k + 32 →
        tblGet {} t.link.msix v = {} ∧ (tblGet {} t.ev.vec v).n = 0))
  ∧ ∀ s : State,
    (∀ k, s.link.vfEnable = true → 1 ≤ k → k ≤ s.link.numVfs → exec (.vfFlr k) s = .next (resetFunction s k))
    ∧ (∀ k, (s.link.vfEnable = false ∨ k = 0 ∨ s.link.numVfs < k) → exec (.vfFlr k) s = .next s)
    ∧ (s.boot.fwUp = true → ∀ n,
      let ks (m : Nat) := (List.range m).map fun i => i + 1
      (s.link.vfEnable = false →
        let t := (ks n).foldl resetEntries s
        exec (.vfEnableChange true n) s = .next { t with link := { t.link with vfEnable := true, numVfs := n } })
      ∧ (s.link.vfEnable = true →
        let t := (ks s.link.numVfs).foldl resetEntries ((ks s.link.numVfs).foldl resetFunction s)
        exec (.vfEnableChange false n) s =
          .next { t with link := { t.link with vfEnable := false, numVfs := s.link.numVfs } }))
    ∧ (∀ on n, (s.boot.fwUp = false ∨ s.link.vfEnable = on) → exec (.vfEnableChange on n) s = .next s)

/-- SEAL. `bad b` says that bit b of FEAT_ACCEPT refuses the seal, and with which code. -/
def Obligations.SealIsEvaluatedInOrder : Prop :=
  ∀ s : State, s.boot.fwUp = true → s.boot.recovery = false →
    let acc (b : Nat) : Bool := bitAt (reg s (0x10010 + 4 * (b / 32))) (b % 32)
    let bad (b c : Nat) : Prop := acc b = true ∧
      ((s.feat.offer.getLsbD b = false ∧ c = 3) ∨ (s.feat.offer.getLsbD b = true ∧ b = 3 ∧ acc 2 = false ∧ c = 4))
    (s.boot.sealed = true → exec .seal s = .next s)
    ∧ (s.boot.sealed = false → s.boot.ready = false →
        exec .seal s = .next { s with feat := { s.feat with code := 2, badBit := 0 } })
    ∧ (s.boot.sealed = false → s.boot.ready = true → ∀ b c, b < 128 → bad b c → (∀ b' < b, ∀ c', ¬ bad b' c') →
        exec .seal s = .next { s with feat := { s.feat with code := c, badBit := b } })
    ∧ (s.boot.sealed = false → s.boot.ready = true → (∀ b < 128, ∀ c, ¬ bad b c) →
        let t := { s with feat := { s.feat with code := 1, badBit := 0 } }
        exec .seal s = .next { t with boot := { s.boot with sealed := true } })

/-- REGISTER_WRITE to BAR0 of the physical function, to a doorbell page and to an MSI-X table; the words of FEAT_ACCEPT0 to
FEAT_ACCEPT3 show the RWL access code. -/
def Obligations.RegisterWritesAreAlignedWords : Prop :=
  (∀ (s : State) (off : Nat) (val : W64), off < 0x200000 → blockAnswers s off = true →
    (off % 4 = 0 → exec (.registerWrite (.setup off) 4 val) s = .next (writeWord s off (val.toNat % 2 ^ 32)))
    ∧ (off % 8 = 0 → exec (.registerWrite (.setup off) 8 val) s =
        .next (writeWord (writeWord s off (val.toNat % 2 ^ 32)) (off + 4) (val.toNat / 2 ^ 32)))
    ∧ (∀ size, (size ≠ 4 ∨ off % 4 ≠ 0) → (size ≠ 8 ∨ off % 8 ≠ 0) →
        exec (.registerWrite (.setup off) size val) s = .next (setFlag s 3))
    ∧ (∀ i < 4, off = 0x10010 + 4 * i → RegsWf s → ∃ t, exec (.registerWrite (.setup off) 4 val) s = .next t
        ∧ t = { s with regs := t.regs }
        ∧ (s.boot.sealed = true → t.regs = s.regs)
        ∧ (s.boot.sealed = false → reg t off = val.toNat % 2 ^ 32)
        ∧ ∀ k, k ≠ off → reg t k = reg s k))
  ∧ (∀ (s : State) (off size : Nat) (val : W64), (0x200000 ≤ off ∨ blockAnswers s off = false) →
      exec (.registerWrite (.setup off) size val) s = .next s)
  ∧ ∀ (s : State) (fn off : Nat) (val : W64) (w : Window) (f : State → Nat → Nat → State),
    (w = .doorbells fn off ∧ f = (fun s o v => pageWrite s fn o v) ∨ w = .msix fn off ∧ f = fun s o v => tableWrite s fn o v) →
    ((s.boot.fwUp = false ∨ fnExists s fn = false) → ∀ size, exec (.registerWrite w size val) s = .next s)
    ∧ (s.boot.fwUp = true → fnExists s fn = true →
      (off % 4 = 0 → exec (.registerWrite w 4 val) s = .next (f s off (val.toNat % 2 ^ 32)))
      ∧ (off % 8 = 0 → exec (.registerWrite w 8 val) s =
          .next (f (f s off (val.toNat % 2 ^ 32)) (off + 4) (val.toNat / 2 ^ 32)))
      ∧ ∀ size, (size ≠ 4 ∨ off % 4 ≠ 0) → (size ≠ 8 ∨ off % 8 ≠ 0) → exec (.registerWrite w size val) s = .next s)

/-- What the shared operation setFlag, through which every row raises a flag, does. -/
def Obligations.FlagSetCountsAndKeepsTheRest : Prop :=
  ∀ (s : State) (id : Nat), id ≠ 896 → id ≠ 897 →
    flag (setFlag s id) id = true
    ∧ (let n := tblGet 0 s.occ id; tblGet 0 (setFlag s id).occ id = if n < 0xFFFF then n + 1 else n)
    ∧ (∀ k, k ≠ id → k ≠ 896 → k ≠ 897 → tblGet? (setFlag s id).flags k = tblGet? s.flags k
        ∧ tblGet? (setFlag s id).occ k = tblGet? s.occ k)
    ∧ (setFlag s id).ev.evc = s.ev.evc ∧ (setFlag s id).ev.inFlight = s.ev.inFlight ∧ (setFlag s id).ev.fired = s.ev.fired
    ∧ (∃ f o e l, setFlag s id = { s with flags := f, occ := o, ev := e, link := l })
    ∧ (clearFlag s id).occ = s.occ

/-- ETU_TIME_LATCH, XCYC_LATCH, SREF_LATCH, CAP_READ. -/
def Obligations.LatchingReadsReturnTheirWord : Prop :=
  ∀ s : State, served s = true →
    (exec .etuTimeLatch s = .next { s with etu := { s.etu with latch := s.etu.count }, readOut := s.etu.count.setWidth 32 })
    ∧ (∀ n, n < 74 → exec (.xcycLatch n) s =
        .next { setInst s n { instOf s n with latch := (instOf s n).cycles } with readOut := (instOf s n).cycles.setWidth 32 })
    ∧ (∀ k, k < 6 → unitExists s 11 k = true → exec (.srefLatch k) s =
        .next { setLink s k { linkOf s k with srefLatch := (linkOf s k).sref } with readOut := (linkOf s k).sref.setWidth 32 })
    ∧ (∀ n t rest, n < 32 → (tblGet {} s.etu.cap n).fifo = t :: rest →
        let e := { s.etu with cap := tblSet {} s.etu.cap n { fifo := rest } }
        exec (.capRead n) s = .next { s with etu := e, readOut := BitVec.ofNat 32 (t.toNat / 2 ^ 32) })

/-- MIN_CLR, OCC_CLR, OCC_CLR_ROW, HOSTEV_ADD, HOSTEV_SET. -/
def Obligations.HostClearsAndSetsCounters : Prop :=
  ∀ s : State, served s = true →
    (∀ n, n < 96 → exec (.minClr n) s = .next { s with pat := tblSet {} s.pat n { patinaOf s n with min := 255 } })
    ∧ (∀ id, id < 4096 → tblWf s.occ = true → ∃ o, exec (.occClr id) s = .next { s with occ := o }
        ∧ tblGet? o id = none ∧ ∀ k, k ≠ id → tblGet? o k = tblGet? s.occ k)
    ∧ (∀ id, id < 4096 → ∃ o, exec (.occClrRow id) s = .next { s with occ := o }
        ∧ ∀ e, e ∈ o ↔ e ∈ s.occ ∧ e.1 / 32 ≠ id / 32)
    ∧ (∀ n, n < 4096 → ∃ t, exec (.hostevAdd n) s = .next t
        ∧ t = { s with ev := { s.ev with evc := t.ev.evc } }
        ∧ ((evc s n).frozen = true → t = s)
        ∧ ((evc s n).frozen = false → tblWf s.ev.evc = true →
            evc t n = { evc s n with val := (evc s n).val + BitVec.ofNat 32 (reg s 0x30000) }
            ∧ ∀ k, k ≠ n → evc t k = evc s k))
    ∧ (∀ n adds, n < 4096 → tblWf s.ev.evc = true → ∃ t, exec (.hostevSet n adds) s = .next t
        ∧ t = { s with ev := { s.ev with evc := t.ev.evc } }
        ∧ evc t n = { evc s n with frozen := false, val := adds.foldl (· + ·) (BitVec.ofNat 32 (reg s 0x30000)) }
        ∧ ∀ k, k ≠ n → evc t k = evc s k)

/-- REF_QUALIFIED, REF_CRITERION_LOST, REF_CRITERION_MET, CLEAR_SUSPECT, REF_CFG_WRITE. States of an input: 0 DISABLED,
1 QUALIFYING, 2 QUALIFIED, 3 SUSPECT, 4 FAILED. -/
def Obligations.ReferencesQualifyAndFail : Prop :=
  ∀ (s : State) (n : Nat), n < 6 → etuLive s = true →
    let x := refOf s n
    (x.st = 1 → x.crit = true → refMeets s n = true → x.since + bits (refCfg s n) 31 24 * 100000000 ≤ s.sclk →
        exec (.refQualified n) s = .next (settleEtu (setRef s n { x with st := 2 })))
    ∧ ((x.st ≠ 1 ∨ x.crit = false ∨ refMeets s n = false ∨ s.sclk < x.since + bits (refCfg s n) 31 24 * 100000000) →
        exec (.refQualified n) s = .next s)
    ∧ (n < 2 → refMeets s n = true → exec (.refCriterionLost n) s = .next s)
    ∧ ((2 ≤ n ∨ refMeets s n = false) →
      (x.st = 2 → exec (.refCriterionLost n) s =
        .next (settleEtu (setFlag (setRef s n { x with st := 4, crit := false }) 37)))
      ∧ (x.st = 0 → exec (.refCriterionLost n) s = .next s)
      ∧ (x.st ≠ 0 → x.st ≠ 2 → exec (.refCriterionLost n) s = .next (setRef s n { x with crit := false })))
    ∧ (x.st ≠ 0 → refMeets s n = true → exec (.refCriterionMet n) s =
        .next (setRef s n { x with st := if x.st = 4 then 1 else x.st, crit := true, since := if x.crit then x.since else s.sclk }))
    ∧ ((x.st = 0 ∨ refMeets s n = false) → exec (.refCriterionMet n) s = .next s)
    ∧ (served s = true → x.st = 3 → exec (.clearSuspect n) s = .next (setRef s n { x with st := 1, since := s.sclk }))
    ∧ (served s = true → ∀ val : W32, exec (.refCfgWrite n val) s =
        .next (settleEtu (refsRecheck (refEnable (mergeReg s (0x40100 + 0x10 * n) val.toNat) n))))
    ∧ (refMeets s n = true → bitAt (refCfg s n) 0 = true
      ∧ (n = 0 → bitAt (refCfg s n) 1 = true ∧ 8 ≤ (s.etu.meas.filter fun m => s.sclk ≤ m.1 + 100000000).length)
      ∧ (n = 1 → ∃ c sec, s.etu.ppsAt = some c ∧ s.etu.ppsSec = some sec ∧ now s - c.toNat ≤ 2 * 1966080000 + 200)
      ∧ (n = 2 ∨ n = 3 → let p := bits (refCfg s n) 19 16
          portState s p ≠ 0 ∧ (tblGet {} s.fh.esmc p).ql ≠ 15
          ∧ ∃ t, (tblGet {} s.fh.esmc p).at_ = some t ∧ s.sclk ≤ t + 500000000))

/-- ENTER_LOCKED, PULL_IN_DONE, FORCE_HOLDOVER, RELEASE_HOLDOVER, KEEP_REF, TIME_RESET. That TIME_RESET ends a
FORCE_HOLDOVER in force is the model's choice (log entry 11). -/
def Obligations.EtuModesFollowTheirCommands : Prop :=
  ∀ s : State,
    let e := s.etu
    let locked : State := updateFloor (arrive (setFlagIf (!e.everLocked) 42
      { s with etu := { e with state := 2, pulling := false, everLocked := true, buildOut := tblSet 0 e.buildOut 0 0 } }) 456)
    (refsReady s = true → etuLive s = true → e.state = 1 → exec .enterLocked s = .next locked)
    ∧ ((refsReady s = false ∨ etuLive s = false ∨ e.state ≠ 1) → exec .enterLocked s = .next s)
    ∧ (refsReady s = true → etuLive s = true → e.state = 3 → e.pulling = true → e.forced = false →
        exec .pullInDone s = .next locked)
    ∧ (etuLive s = true → e.state = 2 →
        exec .pullInDone s = .next { s with etu := { e with buildOut := tblSet 0 e.buildOut 0 0 } })
    ∧ (served s = true → etuLive s = true → ∀ u : State,
        (e.state = 2 → u = arrive (setFlag { s with etu := { e with state := 3, pulling := false, stepWait := false } } 34) 457) →
        (e.state = 3 → u = s) → (e.state = 2 ∨ e.state = 3) → exec .forceHoldover s = .next (updateFloor (settleRadio
          { u with etu := { u.etu with forced := true, pulling := false, ambiguous := [] } })))
    ∧ (e.state < 2 → exec .forceHoldover s = .next s)
    ∧ (served s = true → e.forced = true →
        exec .releaseHoldover s = .next (settleEtu { s with etu := { e with forced := false } }))
    ∧ (e.forced = false → exec .releaseHoldover s = .next s)
    ∧ (served s = true → e.timeSel < 6 → e.freqSel < 6 →
        let u := setRef s e.timeSel { refOf s e.timeSel with driftCnt := 0 }
        let v := setRef u e.freqSel { refOf u e.freqSel with driftCnt := 0 }
        exec .keepRef s = .next (clearFlag { v with etu := { v.etu with ambiguous := [] } } 33))
    ∧ (served s = true →
        let u := s.fh.carrier.foldl (fun s c => closeCarrier s c.1) s
        let v (again : Bool) : State := settleEtu { u with etu := { e with
          state := 0, pulling := false, stepWait := false, forced := false, loaded := false, recovering := again } }
        (e.tclkLost = false → exec .timeReset s = .next (v false))
        ∧ (e.tclkLost = true → e.tclkEdges = true →
            exec .timeReset s = .next (settleEtu (refsRecheck ((List.range 6).foldl refEnable (v true)))))
        ∧ (e.tclkLost = true → e.tclkEdges = false → exec .timeReset s = .next s))

/-- HOLD_EXPIRED; ETU_HOLD_LIMIT is the word 0x4001C. Its flag is ID 36. -/
def Obligations.HoldExpiredOnlySetsItsFlag : Prop :=
  ∀ s : State, s.etu.state = 3 →
    (reg s 0x4001C ≠ 0 → ∃ t, exec .holdExpired s = .next t ∧ flag t 36 = true
      ∧ t.etu = s.etu ∧ t.fh = s.fh ∧ (∀ k, k ≠ 36 → k ≠ 896 → k ≠ 897 → flag t k = flag s k)
      ∧ ∃ f o e l, t = { s with flags := f, occ := o, ev := e, link := l })
    ∧ (reg s 0x4001C = 0 → exec .holdExpired s = .next s)

/-- PTP_MEAS, TOD_SEC, PPS_PULSE, DRIFT_WINDOW, DIE_UNSYNCED, DIE_REALIGN. `refEval` judges a criterion, `measureDrift` takes
a window's deviation and `actDrift` acts on the third one in a row; a mean of the middle two that is no whole number shows
either neighbour (log entry 4). That an input missing from DRIFT_WINDOW's list counts as 0 ppb is the model's choice (log
entry 10). -/
def Obligations.MeasurementsAndDiesCommit : Prop :=
  (∀ (s : State) (n : Nat),
    let x := refOf s n
    ((etuLive s = false ∨ x.st = 0) → refEval s n = s)
    ∧ (etuLive s = true → x.st ≠ 0 → refMeets s n = true → refEval s n = setRef s n
        { x with st := if x.st = 4 then 1 else x.st, crit := true, since := if x.crit then x.since else s.sclk })
    ∧ (etuLive s = true → x.st ≠ 0 → refMeets s n = false →
        (x.crit = false → refEval s n = s)
        ∧ (x.crit = true → x.st ≠ 2 → refEval s n = setRef s n { x with crit := false })
        ∧ (x.crit = true → x.st = 2 →
            refEval s n = settleEtu (setFlag (setRef s n { x with st := 4, crit := false }) 37)))
    ∧ ∀ f : Nat → Int, let d2 := 2 * f n - median2 ((ensemble s n).map f)
      (ensemble s n = [] → measureDrift s f n = setRef s n { x with dev := 0, driftCnt := 0 })
      ∧ (ensemble s n ≠ [] → ∃ d : Int, (2 * d = d2 ∨ 2 * d = d2 - 1 ∨ 2 * d = d2 + 1)
          ∧ measureDrift s f n = setRef (takeChoice s) n { x with
              dev := clampInt (-32767) 32767 d
              driftCnt := if tblGet false s.etu.ambiguous n then x.driftCnt
                else if 2 * (max 1 (fld s 0x40010 15 8) : Int) < absInt d2 then min 3 (x.driftCnt + 1) else 0 })
      ∧ (x.driftCnt = 3 → tblGet false s.etu.ambiguous n = false →
          (∀ k, 2 ≤ k → actDrift s k n = setFlag (setRef s n { x with st := 3 }) 32)
          ∧ actDrift s 1 n = setFlag { s with etu := { s.etu with ambiguous := tblSet false s.etu.ambiguous n true } } 33)
      ∧ ∀ k, (x.driftCnt ≠ 3 ∨ tblGet false s.etu.ambiguous n = true) → actDrift s k n = s)
  ∧ ∀ s : State,
    (served s = true → ∀ hi : W32,
      let v := sext 64 ((tblGet 0 s.held 0x40020).toNat + hi.toNat * 2 ^ 32)
      exec (.ptpMeas hi) s = .next (refEval { s with etu := { s.etu with
        lastMeas := v
        meas := s.etu.meas.filter (fun m => s.sclk ≤ m.1 + max (bits (refCfg s 0) 31 24 * 100000000) 100000000)
          ++ [(s.sclk, v)] } } 0))
    ∧ (served s = true → ∀ hi : W32,
      let sec := (tblGet 0 s.held 0x40028).toNat + hi.toNat % 65536 * 2 ^ 32
      exec (.todSec hi) s = .next { s with etu := { s.etu with tod := some sec } })
    ∧ (served s = false → ∀ hi : W32, exec (.ptpMeas hi) s = .next s ∧ exec (.todSec hi) s = .next s)
    ∧ (∀ m : Int, (∀ sec, s.etu.tod = some sec → m = ((s.etu.count.toNat : Int) - sec * 1966080000) * 65536) →
        (s.etu.tod = none → m = s.etu.ppsMeas) → exec .ppsPulse s = .next (refEval { s with etu := { s.etu with
          ppsAt := some s.etu.count, ppsPrev := s.etu.ppsAt, ppsSec := s.etu.tod, ppsMeas := m, tod := none } } 1))
    ∧ (∀ freq, let f (m : Nat) : Int := match freq.find? (fun e => e.1 = m) with
          | some e => e.2
          | none => 0
        let act (u : State) (n : Nat) : State := if ensemble s n = [] then u else actDrift u (ensemble s n).length n
        (etuLive s = false → exec (.driftWindow freq) s = .next s)
        ∧ (etuLive s = true →
          let a := s.etu.timeSel
          let b := s.etu.freqSel
          (refGood s a = false → refGood s b = false → exec (.driftWindow freq) s = .next (settleEtu s))
          ∧ (∀ n, refGood s n = true → (a = n ∧ b = n ∨ a = n ∧ refGood s b = false ∨ refGood s a = false ∧ b = n) →
              exec (.driftWindow freq) s = .next (settleEtu (act (measureDrift s f n) n)))
          ∧ (a ≠ b → refGood s a = true → refGood s b = true →
              exec (.driftWindow freq) s = .next (settleEtu (act (act (measureDrift (measureDrift s f a) f b) a) b)))))
    ∧ (∀ d, 1 ≤ d → d < s.fuse.assy → dieSynced s d = true → exec (.dieUnsynced d) s = .next (unsyncDie s d)
        ∧ dieSynced (unsyncDie s d) d = false ∧ now (unsyncDie s d) = now s)
    ∧ (∀ d, (d = 0 ∨ s.fuse.assy ≤ d ∨ dieSynced s d = false) → exec (.dieUnsynced d) s = .next s)
    ∧ (∀ d, d ≠ 0 → dieSynced s d = false → d2dDown s d = false →
        tblWf s.etu.unsynced = true → tblWf s.etu.skew = true →
        let e := { s.etu with unsynced := tblSet false s.etu.unsynced d false, skew := tblSet 0 s.etu.skew d 0 }
        let t := settleRadio ((List.range 64).foldl (fun s n => if (trigOf s n).die = d then lateArm s n else s) { s with etu := e })
        exec (.dieRealign d) s = .next t ∧ dieSynced t d = true ∧ dieCount t d = now s)
    ∧ (∀ d, (d = 0 ∨ dieSynced s d = true ∨ d2dDown s d = true) → exec (.dieRealign d) s = .next s)

/-- TRIG_ARM, TRIG_DISARM, TRIG_FIRE, CAPTURE_EDGE. TRIG_LATE_ARM is flag ID 38. -/
def Obligations.ComparatorsFireAndCapturesRecord : Prop :=
  ∀ s : State,
    (served s = true → ∀ n (ctrl : W32), n < 64 →
      let u := mergeReg s (trigReg n 0x10) ctrl.toNat
      let c := ctrl.toNat
      let period := reg64 u (trigReg n 0x8) % 2 ^ 48
      let die := if bits c 3 2 < s.fuse.assy then bits c 3 2 else 0
      let t : Trig := { armed := !(bitAt c 1 && period < 1024), periodic := bitAt c 1, die := die,
                        target := bits c 27 16, cmp := BitVec.ofNat 64 (reg64 u (trigReg n 0x0)), period := period }
      exec (.trigArm n ctrl) s = .next (settleRadio (rearmLinks (lateArm (setTrig u n t) n) n))
      ∧ exec (.trigDisarm n ctrl) s = .next (settleRadio
          (let v := if trigDue u n then fireTrig u n else u
           setTrig v n { trigOf v n with armed := false })))
    ∧ (∀ n, (trigOf s n).armed = true → tblWf s.etu.trig = true →
      let c := (dieCount s (trigOf s n).die).toNat
      ((trigOf s n).cmp.toNat > c → lateArm s n = s)
      ∧ ((trigOf s n).cmp.toNat ≤ c → flag (lateArm s n) 38 = true
          ∧ ((trigOf s n).periodic = false → (trigOf (lateArm s n) n).armed = false)
          ∧ ((trigOf s n).periodic = true → 0 < (trigOf s n).period → ∃ j,
              let v := (trigOf s n).cmp.toNat + j * (trigOf s n).period
              trigOf (lateArm s n) n = { trigOf s n with cmp := BitVec.ofNat 64 v }
              ∧ c < v ∧ v ≤ c + (trigOf s n).period)))
    ∧ (∀ n, n < 64 → trigDue s n = true → exec (.trigFire [n]) s = .next (settleRadio (fireTrig s n)))
    ∧ (∀ n, trigDue s n = false → exec (.trigFire [n]) s = .next (settleRadio s))
    ∧ (∀ src rising, let edge (u : State) (rising merged : Bool) (t : Int) : State := (List.range 32).foldl (fun u n =>
          if capSelects u n src rising then setFlagIf merged (608 + n) (recordCap u n (BitVec.ofInt 64 t)) else u) u
        (∀ d, 256 ≤ src → capDie s src = some d →
          exec (.captureEdge src rising) s = .next (edge s rising false (dieCount s d)))
        ∧ (src < 256 → capDie s src ≠ none →
          (∀ e, s.ev.toCapture.find? (fun e => e.1 = src) = some e → exec (.captureEdge src true) s = .next (edge
            { s with ev := { s.ev with toCapture := s.ev.toCapture.eraseP fun e => e.1 = src } } true e.2.1 e.2.2))
          ∧ (s.ev.toCapture.find? (fun e => e.1 = src) = none → exec (.captureEdge src rising) s = .next s)
          ∧ exec (.captureEdge src false) s = .next s)
        ∧ (capDie s src = none → exec (.captureEdge src rising) s = .next s))

/-- EXCURSION, CAP_RAMP_TICK, PATINA_SAMPLE, PATINA_CRIT_TICK, MARGIN_FAIL, PATINA_RECOVERY_TICK, of the 74 instances and 96
monitors. That the margin failure of an instance of several units retires all of them is a reading of the model (log entry
50); the tries of a VOUT_COMMAND without acknowledgement come with the command (log entry 58). -/
def Obligations.PatinaMovesCapsAndRetires : Prop :=
  ∀ (s : State) (n : Nat), n < 74 →
    let i := instOf s n
    (i.run = false → (∀ naks, exec (.patinaCritTick ⟨n, naks⟩) s = .next s) ∧ exec (.excursion n) s = .next s
      ∧ exec (.capRampTick n) s = .next s ∧ exec (.marginFail n) s = .next s ∧ exec (.patinaRecoveryTick n) s = .next s
      ∧ ∀ m slack, patInst m = n → exec (.patinaSample m slack) s = .next s)
    ∧ (i.run = true → exec (.excursion n) s = .next (setFlag (setFlag s (192 + n)) 67)
      ∧ (i.stopping = false →
        (i.held = false → i.hot = false → i.cap < 1750 →
          exec (.capRampTick n) s = .next (setInst s n { i with cap := i.cap + 25 }))
        ∧ ((i.held = true ∨ i.hot = true ∨ 1750 ≤ i.cap) → exec (.capRampTick n) s = .next s))
      ∧ (i.stopping = true →
        (1425 < i.cap → exec (.capRampTick n) s = .next (setInst s n { i with cap := i.cap - 25 }))
        ∧ (1400 < i.cap → i.cap ≤ 1425 → exec (.capRampTick n) s = .next (requestStep (setInst s n { i with cap := i.cap - 25 })
            { kind := .stop n, amount := oscAmount n, rising := false, radio := true }))
        ∧ (i.cap ≤ 1400 → exec (.capRampTick n) s = .next s))
      ∧ (∀ m slack, m < 96 → patInst m = n → slack ≤ 100 →
        let u := setInst { s with pat := tblSet {} s.pat m { slack := slack, min := min slack (patinaOf s m).min } } n
          { i with crit := mark i.crit m (Decidable.decide (slack < fld s 0x70004 15 8))
                   warn := mark i.warn m (Decidable.decide (slack < fld s 0x70004 7 0)) }
        let v := if slack < fld s 0x70004 7 0 then setFlag (setFlag u (288 + 2 * m)) 64 else u
        let w := setFlag (setFlag v (289 + 2 * m)) 65
        (fld s 0x70004 15 8 ≤ slack → exec (.patinaSample m slack) s = .next v)
        ∧ (slack < fld s 0x70004 15 8 → s.boot.stage ≠ 3 → exec (.patinaSample m slack) s = .next w)
        ∧ (slack < fld s 0x70004 15 8 → s.boot.stage = 3 → exec (.patinaSample m slack) s = .next { w with boot := { w.boot with
            testFailed := (instUnits n).foldl (fun l u => insertNew u l) w.boot.testFailed } }))
      ∧ (i.crit ≠ [] → ∀ naks,
        (1400 < i.cap → exec (.patinaCritTick ⟨n, naks⟩) s = .next (
          let t := setInst s n { i with cap := i.cap - 25, held := true }
          if i.stopping = true ∧ i.cap ≤ 1425 then requestStep t
            { kind := .stop n, amount := oscAmount n, rising := false, radio := true } else t))
        ∧ (i.cap ≤ 1400 →
          let t := setInst s n { i with held := true }
          let due : Prop := ∀ c, s.power.vsetAt = some c → c + 100000 ≤ s.sclk
          (s.power.vset < 850 → due → naks < 3 → exec (.patinaCritTick ⟨n, naks⟩) s = .next { t with power := { t.power with
              ack := true, driving := true, vsetAt := some s.sclk, vset := min 850 (s.power.vset + 5) } })
          ∧ (s.power.vset < 850 → due → 3 ≤ naks → exec (.patinaCritTick ⟨n, naks⟩) s = .next (vrFault { t with power :=
              { t.power with ack := false, driving := true, vsetAt := some s.sclk } }))
          ∧ ((850 ≤ s.power.vset ∨ ¬ due) → exec (.patinaCritTick ⟨n, naks⟩) s = .next t)
          ∧ (s.power.vset = 850 →
            let slack := (patOf n).foldl (fun a m => min a (patinaOf s m).slack) 255
            exec (.marginFail n) s =
              .next ((instUnits n).foldl (fun s u => retire s u.1 u.2 0x3001 slack) (setFlag s 66)))))
      ∧ (i.crit = [] → exec (.marginFail n) s = .next s ∧ ∀ naks, exec (.patinaCritTick ⟨n, naks⟩) s = .next s)
      ∧ (i.stopping = false → (i.held = true ∨ i.hot = true) → i.warn = [] → (i.hot = false ∨ 100 ≤ s.power.coolMs) →
        exec (.patinaRecoveryTick n) s = .next (setInst s n { i with
          cap := min 1750 (i.cap + 25)
          held := i.held && min 1750 (i.cap + 25) < 1750, hot := i.hot && min 1750 (i.cap + 25) < 1750 }))
      ∧ ((i.stopping = true ∨ i.held = false ∧ i.hot = false ∨ i.warn ≠ [] ∨ i.hot = true ∧ s.power.coolMs < 100) →
        exec (.patinaRecoveryTick n) s = .next s))

/-- JD_WINDOW, JD_LOSS, of the 16 monitors. That the monitor goes on to the other clock after a loss is the model's choice
(log entry 45). -/
def Obligations.JitterMonitorsMeasureAndReport : Prop :=
  ∀ (s : State) (n : Nat), n < 16 →
    let cfg := jdCfg s n
    let x := jdOf s n
    let second := bitAt cfg 13 && x.second
    let src := if second then bits cfg 12 8 else bits cfg 4 0
    let next (t : State) : State := setJd t n { jdOf t n with second := bitAt (jdCfg t n) 13 && !jdSecond t n }
    let found (i : Nat) (c : Bool) (t : State) : State := if c then setFlag (setFlag t (480 + 4 * n + i)) (68 + i) else t
    let loses (t : State) : State :=
      if src = 1 then tclkLoss t
      else if src = 2 ∨ src = 3 then (if dieSynced t (src - 1) then unsyncDie t (src - 1) else t)
      else if src < 10 then linkReset t (src - 4) else portLeave t (src - 10)
    (∀ jitter duty ppm, jdMeasured s src = false →
      exec (.jdWindow n jitter duty ppm) s = .next (next s) ∧ exec (.jdLoss n) s = .next (next s))
    ∧ (jdMeasured s src = true →
      (∀ jitter duty ppm,
        let y := if second then { x with lostB := false } else { x with lostA := false }
        let t := setJd s n { y with jit := min 255 jitter, duty := min 100 duty, src := src }
        let t := if src = 1 then { t with etu := { t.etu with tclkEdges := true } } else t
        let dev := if duty < 50 then 50 - duty else duty - 50
        exec (.jdWindow n jitter duty ppm) s = .next (next (found 2 (100 < absInt ppm)
          (found 1 (bits cfg 27 24 < dev) (found 0 (bits cfg 23 16 < jitter) t)))))
      ∧ ((if second then x.lostB else x.lostA) = false →
        let y := if second then { x with lostB := true } else { x with lostA := true }
        exec (.jdLoss n) s = .next (next (loses (found 3 true (setJd s n y)))))
      ∧ ((if second then x.lostB else x.lostA) = true → exec (.jdLoss n) s = .next (next s)))

/-- STEP_ADMIT, SETPOINT_STEP, PMBUS_STATUS_POLL, PMBUS_TELEMETRY_POLL, VR_ALERT. The tries of a PMBus transaction without
acknowledgement come with the command (log entry 58). -/
def Obligations.LedgerAndRegulatorMove : Prop :=
  ∀ s : State,
    (let u := (List.range 8).foldl settleRamp s;
      (nextStep u = none → exec .stepAdmit s = .next u)
      ∧ ∀ x, nextStep u = some x →
        let t := admitStep { u with power := { u.power with waiting := u.power.waiting.erase x } } x
        exec .stepAdmit s = .next (finishResume t)
        ∧ x ∈ u.power.waiting ∧ ledgerSum u (if x.rising then u.power.rise else u.power.fall) + x.amount ≤ 32000
        ∧ (x.rising = true → t.power.rise = (u.power.rise.filter fun e => u.sclk < e.2 + 100) ++ [(x.amount, u.sclk)])
        ∧ (x.rising = false → t.power.fall = (u.power.fall.filter fun e => u.sclk < e.2 + 100) ++ [(x.amount, u.sclk)]))
    ∧ (∀ a, ((arrOf s a).ramp = none → settleRamp s a = s)
      ∧ ∀ r, (arrOf s a).ramp = some r →
        (rampDone s a r < r.len → settleRamp s a = s)
        ∧ (r.len ≤ rampDone s a r → (arrOf s a).want = none →
            settleRamp s a = setArr s a { arrOf s a with cols := r.dest, ramp := none }))
    ∧ (let p := s.power
      let due : Prop := ∀ c, p.vsetAt = some c → c + 100000 ≤ s.sclk
      (s.boot.pwrok = true → s.boot.halted = false → due → (p.vset ≠ s.fuse.vset ∨ p.driving = false) →
        (∀ e, e ∈ s.inst → e.2.held = false) → ∀ naks,
          let v := if p.vset < s.fuse.vset then min s.fuse.vset (p.vset + 5) else max s.fuse.vset (p.vset - 5)
          (naks < 3 → exec (.setpointStep naks) s = .next { s with power := { p with
            ack := true, driving := true, vsetAt := some s.sclk, vset := v } })
          ∧ (3 ≤ naks → exec (.setpointStep naks) s = .next (vrFault { s with power := { p with
            ack := false, driving := true, vsetAt := some s.sclk } })))
      ∧ ((s.boot.pwrok = false ∨ s.boot.halted = true ∨ ¬ due ∨ p.vset = s.fuse.vset ∧ p.driving = true
          ∨ ∃ e, e ∈ s.inst ∧ e.2.held = true) → ∀ naks, exec (.setpointStep naks) s = .next s)
      ∧ (p.driving = true → ∀ naks,
        let acked (t : State) : State := { t with power := { t.power with ack := Decidable.decide (naks < 3) } }
        let t := acked s
        let w := acked { s with power := { p with readIout := !p.readIout } }
        exec (.pmbusStatusPoll naks) s = .next (if naks < 3 then t else vrFault t)
        ∧ exec (.pmbusTelemetryPoll naks) s = .next (if naks < 3 then w else vrFault w))
      ∧ (p.driving = false → ∀ naks, exec (.pmbusStatusPoll naks) s = .next s ∧ exec (.pmbusTelemetryPoll naks) s = .next s))
    ∧ (s.boot.pwrok = true → s.power.vrAlert = false →
        exec (.vrAlert true) s = .next (vrFault { s with power := { s.power with vrAlert := true } }))
    ∧ (∀ v, (v = false ∨ s.power.vrAlert = true ∨ s.boot.pwrok = false) →
        exec (.vrAlert v) s = .next { s with power := { s.power with vrAlert := v } })
    ∧ vrFault s = startShed (setFlag s 101) 1

/-- TJ_UPDATE, THERMTRIP, PFW_N_LOW, SHED, SHED_RAMP_STEP, RESUME. That THERM_CRIT is set on the crossing of 115 °C alone is
the model's choice (log entry 16). -/
def Obligations.SheddingStartsRampsAndResumes : Prop :=
  (∀ (s : State) (cause : Nat),
    (s.power.shed ≠ 0 → s.power.shed ≠ 3 → startShed s cause = s)
    ∧ ((s.power.shed = 0 ∨ s.power.shed = 3) →
      let t := startShed s cause
      t.power = { s.power with shed := 1, shedStep := 1, waiting := [] }
      ∧ (cause = 0 → flag t 96 = true) ∧ (tblWf s.cv.link = true →
          ∀ k, k < 6 → (linkOf t k).rearm = true ∧ (linkOf t k).st = 0)))
  ∧ ∀ s : State,
    (s.boot.pwrok = true → exec .pfwNLow s = .next (startShed { s with power := { s.power with pfw := true } } 0))
    ∧ (s.boot.pwrok = false → exec .pfwNLow s = .next { s with power := { s.power with pfw := true } })
    ∧ (served s = true → exec .shed s = .next (startShed s 3))
    ∧ (served s = false → exec .shed s = .next s ∧ exec .resume s = .next s)
    ∧ (s.boot.pwrok = false → ∀ t : Byte, exec (.tjUpdate t) s = .next s)
    ∧ (s.boot.pwrok = true → ∀ t : Byte,
        let th := min 105 (sext 8 (fld s 0x50000 15 8))
        let v := { s with power := { s.power with tj := t, tjValid := true } }
        let w := actHeat (setFlagIf (s.power.tj.toInt ≤ th && th < t.toInt) 99 v)
        ((t.toInt < 115 ∨ 115 ≤ s.power.tj.toInt) → exec (.tjUpdate t) s = .next w)
        ∧ (s.power.tj.toInt < 115 → 115 ≤ t.toInt →
            exec (.tjUpdate t) s = .next (startShed (setFlag w 100) 2))
        ∧ (t.toInt < th → w.power.thermHold = false ∧ w.power.coolMs = min 100 (s.power.coolMs + 1))
        ∧ (th ≤ t.toInt → w.power.coolMs = 0)
        ∧ (th ≤ t.toInt → t.toInt < th + 5 → w.power.thermHold = s.power.thermHold))
    ∧ (s.power.shed = 1 → exec .shedRampStep s =
        .next (shedGroup { s with power := { s.power with shedStep := s.power.shedStep + 1 } } s.power.shedStep))
    ∧ (s.power.shed ≠ 1 → exec .shedRampStep s = .next s)
    ∧ (s.power.tjValid = true → 120 ≤ s.power.tj.toInt → s.power.shed = 2 →
        exec .thermtrip s = .next { s with power := { s.power with thermtrip := true } })
    ∧ ((s.power.tjValid = false ∨ s.power.tj.toInt < 120 ∨ s.power.shed ≠ 2) → exec .thermtrip s = .next s)
    ∧ (served s = true → s.power.shed = 2 → s.power.pfw = false → s.power.vrAlert = false → s.power.ack = true →
        s.power.tj.toInt < 115 → exec .resume s = .next (finishResume ((resumeSteps s).foldl requestStep
          { s with power := { s.power with shed := 3, selfRefresh := false } })))
    ∧ ((s.power.shed ≠ 2 ∨ s.power.pfw = true ∨ s.power.vrAlert = true ∨ s.power.ack = false ∨ 115 ≤ s.power.tj.toInt) →
        exec .resume s = .next s)

/-- OUTPUT_ENABLE, OUTPUT_DISABLE, PROBE_BURST. Interfaces 0 to 11 are the Ethernet ports, 16 to 21 the converter links, 32 the
host port, 33 SPI and the TAP. -/
def Obligations.OutputsFollowTheirPartners : Prop :=
  ∀ (s : State) (i : Nat),
    let mode := bits (reg s 0x50018) (2 * i + 1) (2 * i)
    let present := i < 12 ∧ unitExists s 10 i = true ∨ 16 ≤ i ∧ i < 22 ∧ unitExists s 11 (i - 16) = true ∨ i = 32 ∨ i = 33
    let partner := i < 12 ∧ (mode = 0 ∨ mode = 3) ∨ 16 ≤ i ∧ i < 22
    let out (on : Bool) : State := { s with power := { s.power with
      outputs := tblSet false s.power.outputs i on
      powerGood := if partner then tblSet false s.power.powerGood i on else s.power.powerGood } }
    let turned (on : Bool) : State :=
      if i < 12 ∧ mode = 1 then setPort (out on) i { portOf s i with lock := on } else out on
    (present → (i = 32 → s.boot.perst = false) → exec (.outputEnable i) s = .next (turned true))
    ∧ ((¬ present ∨ i = 32 ∧ s.boot.perst = true) → exec (.outputEnable i) s = .next s)
    ∧ (present → i < 12 → mode ≠ 2 → exec (.outputDisable i) s = .next (portLeave (turned false) i))
    ∧ (present → 16 ≤ i → i < 22 → exec (.outputDisable i) s = .next (settleRadio (out false)))
    ∧ ((¬ present ∨ 32 ≤ i ∨ i < 12 ∧ mode = 2) → exec (.outputDisable i) s = .next s)
    ∧ (i < 12 → working s 10 i = true → bits (portCfg s i) 1 0 ≠ 0 → mode = 1 → (portOf s i).lock = false →
        exec (.probeBurst i) s =
          .next { s with power := { s.power with probes := tblMod 0 s.power.probes i (· + 1) } })
    ∧ ((12 ≤ i ∨ working s 10 i = false ∨ bits (portCfg s i) 1 0 = 0 ∨ mode ≠ 1 ∨ (portOf s i).lock = true) →
        exec (.probeBurst i) s = .next s)

/-- SUBMIT, CANCEL, POLL_READ. Sequence numbers are 16 bits; CANCELLED is status 1. Each doorbell record is what four word
writes to its page do in turn. -/
def Obligations.DoorbellsReachTheirRing : Prop :=
  ∀ (s : State) (fn page : Nat) (p gen : W32) (target : Nat),
    let tg := target % 65536
    let word (i v : Nat) (u : State) : State := pageWrite u fn (4096 * page + i) v
    let staged (l : List W32) : State :=
      { s with link := { s.link with staged := tblPut s.link.staged (fn * 1024 + page) l } }
    let a := staged [p, 1, 0]
    let b := staged [0, BitVec.ofNat 32 (2 + tg * 65536), 0]
    exec (.submit fn page p gen) s = .next (word 12 gen.toNat (word 8 0 (word 4 1 (word 0 p.toNat s))))
    ∧ exec (.cancel fn page target) s = .next (word 12 gen.toNat (word 8 0 (word 4 (2 + tg * 65536) (word 0 0 s))))
    ∧ (fnExists s fn = false → exec (.submit fn page p gen) s = .next a ∧ exec (.cancel fn page target) s = .next b)
    ∧ (fnExists s fn = true → s.boot.sealed = false →
      let e := { s.err with presealDb := satInc 0xFFFFFFFF s.err.presealDb }
      exec (.submit fn page p gen) s = .next { a with err := e } ∧ exec (.cancel fn page target) s = .next { b with err := e })
    ∧ (fnExists s fn = true → s.boot.sealed = true →
      (fn = 0 → 1024 ≤ page ∨ (ringOf s page).st = 0 ∨ (ringOf s page).fn ≠ 0) →
      (fn ≠ 0 → ∀ r g, (r, g) ∈ s.ring → g.vfSlot = page → g.st = 0 ∨ g.fn ≠ fn) →
      let e := { s.err with strayDb := satInc 0xFFFFFFFF s.err.strayDb }
      exec (.submit fn page p gen) s = .next { a with err := e } ∧ exec (.cancel fn page target) s = .next { b with err := e })
    ∧ (fnExists s fn = true → s.boot.sealed = true → ∀ r, pageRing s fn page = some r →
      let g := ringOf s r
      let ahead := (tg + 65536 - g.nextSeq) % 65536
      let found := g.slots.find? (fun x => x.accepted && x.seq = tg && x.st ≠ .duplicate)
      (∀ d, p.toNat = (g.producer + d) % 2 ^ 32 → d < 2 ^ 32 →
        (d = 0 → exec (.submit fn page p gen) s = .next a)
        ∧ (0 < d → d < 2 ^ 31 → g.producer + d ≤ g.completed + 2 ^ g.log2 →
            exec (.submit fn page p gen) s = .next (setRing a r { g with producer := g.producer + d }))
        ∧ ((2 ^ 31 ≤ d ∨ 0 < d ∧ g.completed + 2 ^ g.log2 < g.producer + d) → exec (.submit fn page p gen) s =
            .next (setRing a r { g with badDb := satInc 0xFF g.badDb })))
      ∧ (∀ x, found = some x →
        (x.st = .waiting → g.st = 1 → exec (.cancel fn page target) s =
          .next (modSlot b r x.k fun y => { y with st := .decided { status := 1 } }))
        ∧ (x.st = .waiting → g.st ≠ 1 → exec (.cancel fn page target) s = .next b)
        ∧ ((∃ id, x.st = .running id) ∨ (∃ o, x.st = .decided o ∧ o.grant ≠ none) → exec (.cancel fn page target) s =
          .next (modSlot b r x.k fun y => { y with cancelLate := true }))
        ∧ (∀ o, x.st = .decided o → o.grant = none → exec (.cancel fn page target) s = .next b))
      ∧ (found = none →
        let miss := setRing b r { g with cancelMiss := satInc 0xFF g.cancelMiss }
        (4096 < ahead → exec (.cancel fn page target) s = .next miss)
        ∧ (ahead ≤ 4096 → (g.st ≠ 1 ∨ tg ∈ g.cancels) → exec (.cancel fn page target) s = .next b)
        ∧ (ahead ≤ 4096 → g.st = 1 → tg ∉ g.cancels → 16 ≤ g.cancels.length → exec (.cancel fn page target) s = .next miss)
        ∧ (ahead ≤ 4096 → g.st = 1 → tg ∉ g.cancels → g.cancels.length < 16 →
          exec (.cancel fn page target) s = .next (setRing b r { g with cancels := g.cancels ++ [tg] }))))
    ∧ (∀ r, ((ringOf s r).st = 0 ∨ (ringOf s r).poll = false) → exec (.pollRead r) s = .next s)
    ∧ (∀ r t, (ringOf s r).st ≠ 0 → (ringOf s r).poll = true →
        (∀ f, readUse s (ringAgent r (ringOf s r)) (ringOf s r).dbAddr 16 = (t, .fail f) → exec (.pollRead r) s = .next t)
        ∧ ∀ b, readUse s (ringAgent r (ringOf s r)) (ringOf s r).dbAddr 16 = (t, .ok b) →
          (((ringOf s r).gen = some (w32At b 12) ∨ bits (w32At b 4) 3 0 ≠ 1) → exec (.pollRead r) s = .next t)
          ∧ ((ringOf s r).gen ≠ some (w32At b 12) → bits (w32At b 4) 3 0 = 1 → exec (.pollRead r) s =
              .next (applySubmit (setRing t r { ringOf s r with gen := some (w32At b 12) }) r (w32At b 0))))

/-- DESCRIPTOR_FETCH, COMPLETION_WRITE. -/
def Obligations.DescriptorsEnterAndCompletionsLeaveInOrder : Prop :=
  ∀ (s : State) (r : Nat),
    (fetchDue s r = false → exec (.descriptorFetch r) s = .next s)
    ∧ (fetchDue s r = true →
      let g := ringOf s r
      ∀ t, (∀ f, readUse s (ringAgent r g) (g.descBase + 64 * (g.fetched % depth g)) 64 = (t, .fail f) →
          exec (.descriptorFetch r) s = .next (fetchFault t r f))
      ∧ ∀ b, readUse s (ringAgent r g) (g.descBase + 64 * (g.fetched % depth g)) 64 = (t, .ok b) →
        let h := ringOf t r
        let d := parseDesc b
        let x := slotFrom h.fetched d
        (d.seq = h.nextSeq → h.nextSeq < 65536 → d.seq ∈ h.cancels →
            let u := addSlot (acceptSeq t r) r { x with st := .decided { status := 1 } }
            exec (.descriptorFetch r) s = .next (setRing u r { ringOf u r with cancels := h.cancels.filter (· ≠ d.seq) }))
        ∧ (d.seq = h.nextSeq → h.nextSeq < 65536 → d.seq ∉ h.cancels → h.st = 1 →
            exec (.descriptorFetch r) s = .next (startHold (addSlot (acceptSeq t r) r x) r))
        ∧ (d.seq = h.nextSeq → h.nextSeq < 65536 → d.seq ∉ h.cancels → h.st ≠ 1 → exec (.descriptorFetch r) s =
            .next (addSlot (acceptSeq t r) r { x with st := .decided { status := 7, result := 0xF0 } }))
        ∧ (∀ n, 0 < n → n ≤ h.accepted → h.accepted < 65536 → d.seq < 65536 → h.nextSeq = (d.seq + n) % 65536 →
            exec (.descriptorFetch r) s =
              .next (addSlot (setRing t r { h with dup := satInc 0xFF h.dup }) r { x with st := .duplicate }))
        ∧ (∀ n, h.accepted < n → n < 65536 → d.seq < 65536 → h.nextSeq = (d.seq + n) % 65536 →
            exec (.descriptorFetch r) s = .next (decide (addSlot t r { x with accepted := false }) r h.fetched 0
              { status := 6, result := 0xE0 })))
    ∧ ((ringOf s r).st ≠ 0 → ∀ x rest, (ringOf s r).slots = x :: rest →
      let g := ringOf s r
      let finish (w : State × Option Outcome) : State :=
        let u := historyHalt w.1 r x w.2
        let v := setRing u r { ringOf u r with slots := (ringOf u r).slots.tail, completed := (ringOf u r).completed + 1 }
        let v := x.binds.foldl releaseVer v
        finishReset (if x.irq then requestVec v g.fn g.vector else v) r
      (∀ o, x.st = .decided o → exec (.completionWrite r) s = .next (finish (writeOutcome s r x o)))
      ∧ (x.st = .duplicate → exec (.completionWrite r) s = .next (finish (writeDuplicate s r x)))
      ∧ ((x.st = .waiting ∨ ∃ id, x.st = .running id) → exec (.completionWrite r) s = .next s))
    ∧ (((ringOf s r).st = 0 ∨ (ringOf s r).slots = []) → exec (.completionWrite r) s = .next s)

/-- GRANT: of a ring without a collector its oldest undispatched descriptor, of a ring with one its next batch. -/
def Obligations.GrantDispatchesTheNextRing : Prop :=
  (∀ s : State, (arbiterRuns s = false ∨ nextGrant s = none) → exec .grant s = .next s)
  ∧ (∀ (s : State) (r c : Nat), arbiterRuns s = true → nextGrant s = some r →
    let t := { s with arb := { s.arb with last := tblPut s.arb.last (ringOf s r).prio r } }
    ringCollector t r = some c → exec .grant s = .next (grantBatch t r c (ringOf s r)))
  ∧ ∀ (s : State) (r : Nat) (x : Slot) (rest : List Slot), arbiterRuns s = true → nextGrant s = some r →
    let g := ringOf s r
    let t := { s with arb := { s.arb with last := tblPut s.arb.last g.prio r } }
    ringCollector t r = none → waitingSlots g = x :: rest →
      (late s x.deadline = true → exec .grant s = .next (endAtGrant t r x.k 2 0 0))
      ∧ (late s x.deadline = false → x.kind ≠ 0 → exec .grant s = .next (endAtGrant t r x.k 6 0xE1 0))
      ∧ (late s x.deadline = false → x.kind = 0 → s.boot.floorCap < classFloor g.cls →
          exec .grant s = .next (endAtGrant t r x.k 6 0xE2 0))
      ∧ (late s x.deadline = false → x.kind = 0 → classFloor g.cls ≤ s.boot.floorCap → ∀ u,
          (∀ f, fetchList t { ctx := g.fn, cls := g.cls } x = (u, .fail f) →
            exec .grant s = .next (endAtGrant u r x.k f.status f.result (fetchDetail f)))
          ∧ ∀ w, fetchList t { ctx := g.fn, cls := g.cls } x = (u, .ok w) →
            (∀ c, hdrBad u g.cls x.deadline w = some c → exec .grant s = .next (endAtGrant u r x.k 6 c 0))
            ∧ (hdrBad u g.cls x.deadline w = none → exec .grant s = .next (dispatch u r g x w)))
      ∧ ∀ p e, p < 4 → e ∈ s.ring → e.2.prio = p → eligible s e.1 e.2 = true →
          ∃ q e', q ≤ p ∧ e' ∈ s.ring ∧ e'.1 = r ∧ e'.2.prio = q ∧ eligible s e'.1 e'.2 = true

/-- ADMIN_TAKE, RING_SETUP, RING_TEARDOWN, RING_RESET. That an entry which cannot be read completes with result 7 is the
model's choice (log entry 59). -/
def Obligations.AdminRingsSetUpTearDownAndReset : Prop :=
  ∀ s : State,
    ((ezdanRuns s = false ∨ s.arb.admin ≠ none ∨ adminIdle s = false ∨ nextAdmin s = none) → exec .adminTake s = .next s)
    ∧ (ezdanRuns s = true → s.arb.admin = none → adminIdle s = true → ∀ n x, nextAdmin s = some (n, x) →
      let t := { s with arb := { s.arb with adminLast := n } }
      (late s x.deadline = true → exec .adminTake s = .next (decide t n x.k 0 { status := 2, grant := some s.etu.count }))
      ∧ (late s x.deadline = false → (x.kind ≠ 1 ∨ x.cmdAddr % 256 = 0 ∨ 8 < x.cmdAddr % 256) → exec .adminTake s =
          .next (decide t n x.k 0 { status := 6, result := 1, grant := some s.etu.count }))
      ∧ (late s x.deadline = false → x.kind = 1 → 1 ≤ x.cmdAddr % 256 → x.cmdAddr % 256 ≤ 8 →
          let u := modSlot t n x.k fun y => { y with st := .running s.arb.runs }
          let job : AdminJob := { ring := n, k := x.k, opcode := x.cmdAddr % 256, args := x.args, grant := s.etu.count.toNat }
          exec .adminTake s = .next { u with arb := { u.arb with runs := s.arb.runs + 1, admin := some job } }))
    ∧ ((ezdanRuns s = false ∨ s.arb.admin = none) →
        exec .ringSetup s = .next s ∧ exec .ringTeardown s = .next s ∧ exec .ringReset s = .next s)
    ∧ (ezdanRuns s = true → ∀ j, s.arb.admin = some j → j.begun = false → (ringOf s j.ring).st ≠ 1 →
      let stopped : Host.Outcome State Fault Refusal := .next (adminDone s 7 0xF1)
      (j.opcode = 1 → exec .ringSetup s = stopped) ∧ (j.opcode = 2 → exec .ringTeardown s = stopped)
      ∧ (j.opcode = 3 → exec .ringReset s = stopped))
    ∧ (ezdanRuns s = true → ∀ j, s.arb.admin = some j → j.begun = false → (ringOf s j.ring).st = 1 →
      let a0 := argAt j.args 0
      let a1 := argAt j.args 1
      let r := bits a0 9 0
      let fn := bits a0 21 16
      let refusal := setupRefusal s r fn (bits a0 29 24) (bits a1 2 0)
      (j.opcode = 1 → ∀ c, refusal = some c → exec .ringSetup s = .next (adminDone s 6 c))
      ∧ (j.opcode = 1 → refusal = none → ∀ t f, readUse s { ctx := 0, cls := 7 } (arg64 j.args 2) 64 = (t, .fail f) →
          exec .ringSetup s = .next (adminDone t 6 7))
      ∧ (j.opcode = 1 → refusal = none → ∀ t b, readUse s { ctx := 0, cls := 7 } (arg64 j.args 2) 64 = (t, .ok b) →
          let e := parseEntry b
          let poll := e.mode = 1 && feat t 7
          (entryFits t e fn poll = true → exec .ringSetup s = .next (adminDone (setRing t r
              (ringFrom e fn (bits a0 29 24) (bits a1 2 0) (bits a1 5 4) e.inflight poll)) 0 0))
          ∧ (entryFits t e fn poll = false → exec .ringSetup s = .next (adminDone t 6 7)))
      ∧ (j.opcode = 2 →
        ((r < 8 ∨ beyondRings s r = true ∨ (ringOf s r).st = 0) → exec .ringTeardown s = .next (adminDone s 6 2))
        ∧ (8 ≤ r → beyondRings s r = false → (ringOf s r).st ≠ 0 →
          (((ringOf s r).completed < (ringOf s r).producer ∨ (ringOf s r).st = 3) →
            exec .ringTeardown s = .next (adminDone s 6 3))
          ∧ ((ringOf s r).st ≠ 3 → (ringOf s r).producer ≤ (ringOf s r).completed →
            exec .ringTeardown s = .next (adminDone (watchCols s (clearFlag (setRing s r {}) (1024 + r))) 0 0))))
      ∧ (j.opcode = 3 →
        ((r = j.ring ∨ beyondRings s r = true ∨ (ringOf s r).st = 0) → exec .ringReset s = .next (adminDone s 6 2))
        ∧ (r ≠ j.ring → beyondRings s r = false → (ringOf s r).st ≠ 0 →
          let t := { s with arb := { s.arb with admin := some { j with begun := true } } }
          ((ringOf s r).st ≠ 3 → exec .ringReset s = .next (finishReset (startReset t r (some j.ring)) r))
          ∧ ((ringOf s r).st = 3 → exec .ringReset s =
              .next (finishReset (setRing t r { ringOf t r with resetBy := some j.ring }) r)))))

/-- EVC_ASSIGN, XLT_CTX_SET, XLT_INVALIDATE, VF_LIMITS, PEER_CFG. What a peer answers is a free value (log entry 6);
wasEn is the model's own field (log entry 57). That a result buffer which cannot be written completes with result 7 is
the model's choice (log entry 59). -/
def Obligations.AdminCommandsActOrRefuse : Prop :=
  ∀ (s : State) (j : AdminJob), ezdanRuns s = true → s.arb.admin = some j → j.begun = false → (ringOf s j.ring).st = 1 →
    (j.opcode = 4 →
      let first := bits (argAt j.args 0) 11 0
      let count := bits (argAt j.args 1) 12 0
      let fn := bits (argAt j.args 2) 5 0
      let others := ∃ n, first ≤ n ∧ n < first + count ∧ ∃ f, (evc s n).owner = some f ∧ f ≠ fn
      (fnExists s fn = true → others → exec .evcAssign s = .next (adminDone s 6 6))
      ∧ (fnExists s fn = true → ¬ others → 0 < count → first + count ≤ 4096 → tblWf s.ev.evc = true → ∃ t : State,
          exec .evcAssign s = .next (adminDone t 0 0) ∧ t = { s with ev := { s.ev with evc := t.ev.evc } }
          ∧ ∀ n, evc t n = if first ≤ n ∧ n < first + count then { val := 0, owner := some fn, frozen := false } else evc s n))
    ∧ (j.opcode = 5 →
      let c := bits (argAt j.args 0) 5 0
      let root := arg64 j.args 2
      (root % 4096 = 0 → root < 2 ^ 52 → exec .xltCtxSet s = .next (adminDone { s with mem := { s.mem with
          ctx := tblSet {} s.mem.ctx c { ctxOf s c with
            en := bitAt (argAt j.args 0) 8, wasEn := (ctxOf s c).wasEn || bitAt (argAt j.args 0) 8, root := root }
          xlt := s.mem.xlt.filter fun e => e.ctx ≠ c } } 0 0))
      ∧ (root % 4096 ≠ 0 → exec .xltCtxSet s = .next (adminDone s 6 7)))
    ∧ (j.opcode = 6 →
      let c := bits (argAt j.args 0) 5 0
      let base := arg64 j.args 2
      let pages := arg64 j.args 4
      (0 < pages → base + pages * 4096 ≤ 2 ^ 48 → bitAt (argAt j.args 0) 8 = false → ∃ kept,
          exec .xltInvalidate s = .next (adminDone { s with mem := { s.mem with xlt := kept } } 0 0)
          ∧ ∀ e, e ∈ kept ↔ e ∈ s.mem.xlt ∧ (e.ctx = c →
              (base + pages * 4096 - 1) / 4096 < e.firstPage ∨ e.firstPage + e.pages ≤ base / 4096))
      ∧ (bitAt (argAt j.args 0) 8 = true → exec .xltInvalidate s =
          .next (adminDone { s with mem := { s.mem with xlt := s.mem.xlt.filter fun e => e.ctx ≠ c } } 0 0)))
    ∧ (j.opcode = 7 →
      let fn := bits (argAt j.args 0) 5 0
      let rings := bits (argAt j.args 1) 6 0
      let arrays := bits (argAt j.args 2) 3 0
      (fnExists s fn = true → 1 ≤ rings → rings ≤ 64 → 1 ≤ arrays → arrays ≤ 8 → exec .vfLimits s =
          .next (adminDone { s with limits := tblPut s.limits fn { rings := rings, arrays := arrays } } 0 0))
      ∧ (fnExists s fn = false → exec .vfLimits s = .next (adminDone s 6 5)))
    ∧ (j.opcode = 8 →
      let d := bits (argAt j.args 0) 1 0
      let seg := bits (argAt j.args 0) 5 4
      (working s 12 d = true → seg < peerSegments s d →
        let w := Config.peerConfig d seg (argAt j.args 1) s.choice
        let u := takeChoice { s with link := { s.link with
          peerReqs := s.link.peerReqs + 1, peerReq := some (d, seg, argAt j.args 1, arg64 j.args 2) } }
        (∀ t, writeBytes u { ctx := 0, cls := 7 } (arg64 j.args 4) (leBytes 4 w.toNat) = (t, .ok ()) →
          exec .peerCfg s = .next (adminDone t 0 0))
        ∧ ∀ t f, writeBytes u { ctx := 0, cls := 7 } (arg64 j.args 4) (leBytes 4 w.toNat) = (t, .fail f) →
          exec .peerCfg s = .next (adminDone t 6 7))
      ∧ ((working s 12 d = false ∨ peerSegments s d ≤ seg) → exec .peerCfg s = .next (adminDone s 6 7)))

/-- RING_ADMIN_CTRL, RING_ADMIN_RESET. That an EN write to a ring whose entry breaks a constraint configures nothing is the
model's choice (log entry 59). -/
def Obligations.AdminRingsActByRegister : Prop :=
  ∀ s : State, served s = true → ∀ n, n < 8 →
    let m : Byte := BitVec.ofNat 8 (2 ^ n)
    let e := { parseEntry (adminEntry s n) with mode := 0, inflight := 1 }
    ((ringOf s n).st = 0 → entryFits s e 0 false = true →
      exec (.ringAdminCtrl m) s = .next (setRing s n (ringFrom e 0 n 7 0 1 false)))
    ∧ (((ringOf s n).st ≠ 0 ∨ entryFits s e 0 false = false) → exec (.ringAdminCtrl m) s = .next s)
    ∧ (s.boot.restarting = false → exec (.ringAdminReset m) s = .next (adminReset s n))
    ∧ (s.boot.restarting = true → ∀ mask : Byte, exec (.ringAdminReset mask) s =
        .next { s with boot := { s.boot with heldAdminReset := Nat.lor s.boot.heldAdminReset mask.toNat } })
    ∧ (s.boot.restarting = false → exec (.ringAdminReset 0) s = .next s)
    ∧ exec (.ringAdminCtrl 0) s = .next s
    ∧ (((ringOf s n).st = 0 ∨ (ringOf s n).st = 3) → adminReset s n = s)
    ∧ ((ringOf s n).st ≠ 0 → (ringOf s n).st ≠ 3 →
      let freed := s.ring.map fun e => if e.2.resetBy = some n then (e.1, { e.2 with resetBy := none }) else e
      let t := startReset { s with ring := freed } n none
      ((∀ j, t.arb.admin = some j → j.ring ≠ n) → adminReset s n = finishReset t n)
      ∧ ∀ j, t.arb.admin = some j → j.ring = n → adminReset s n = finishReset (adminDone t 7 0xF1) n)

/-- NOP, WAIT, WAIT_PASS, SIGNAL, SIGNAL_LOCAL. `atOp` says that the unit stands before that operation and may execute it;
where it does not, the command changes nothing. -/
def Obligations.ListOperationsActBlockOrFail : Prop :=
  ∀ (s : State) (cls u : Nat) (x : Run) (g : Seg) (o : ListOp),
    let owned := (evc s o.evc).owner = some x.fn
    (atOp s cls u 0x00 = some (x, g, o) → exec (.nop cls u) s = .next (advance s x u))
    ∧ (atOp s cls u 0x04 = some (x, g, o) → owned →
        (waitPasses s o = true → exec (.wait cls u) s = .next (advance s x u))
        ∧ (waitPasses s o = false → exec (.wait cls u) s = .next (setPhase s x u (.blocked false))))
    ∧ (atOp s cls u 0x05 = some (x, g, o) → owned → exec (.signal cls u) s =
        .next (advance (modRun s x.id fun y => { y with held := y.held ++ [(o.idx, o.evc, o.imm)] }) x u))
    ∧ (atOp s cls u 0x06 = some (x, g, o) → owned → x.cause ≠ some .discarded → (evc s o.evc).frozen = false → ∃ t,
        t = modRun (evcAdd s o.evc (BitVec.ofNat 32 o.imm)) x.id (fun y =>
          { y with locals := tblMod 0 y.locals o.evc fun n => (n + o.imm) % 2 ^ 32 })
        ∧ exec (.signalLocal cls u) s = .next (advance t x u)
        ∧ (tblWf s.ev.evc = true →
            evc t o.evc = { evc s o.evc with val := (evc s o.evc).val + BitVec.ofNat 32 o.imm }
            ∧ ∀ n, n ≠ o.evc → evc t n = evc s n))
    ∧ (atOp s cls u 0x06 = some (x, g, o) → owned → (x.cause = some .discarded ∨ (evc s o.evc).frozen = true) →
        exec (.signalLocal cls u) s = .next (advance s x u))
    ∧ (atOp s cls u 0x00 = none → exec (.nop cls u) s = .next s)
    ∧ (atOp s cls u 0x04 = none → exec (.wait cls u) s = .next s)
    ∧ (atOp s cls u 0x05 = none → exec (.signal cls u) s = .next s)
    ∧ (atOp s cls u 0x06 = none → exec (.signalLocal cls u) s = .next s)
    ∧ (¬ owned →
        (atOp s cls u 0x04 = some (x, g, o) → exec (.wait cls u) s = .next (failOp s x u 6 0xC6 o.idx))
        ∧ (atOp s cls u 0x05 = some (x, g, o) → exec (.signal cls u) s = .next (failOp s x u 6 0xC6 o.idx))
        ∧ (atOp s cls u 0x06 = some (x, g, o) → exec (.signalLocal cls u) s = .next (failOp s x u 6 0xC6 o.idx)))
    ∧ (∀ logged, inOp s cls u = some (x, g, o) → g.phase = .blocked logged →
        (waitPasses s o = true → exec (.waitPass cls u) s = .next (advance s x u))
        ∧ (waitPasses s o = false → exec (.waitPass cls u) s = .next s))

/-- SEGMENT_STOP, DESCRIPTOR_END, LATE_EVENT, RA_BIND, WAIT_STUCK, COMPLETION_TIMEOUT. -/
def Obligations.ListsStopEndAndReport : Prop :=
  ∀ (s : State) (cls u r : Nat),
    (∀ x, toStop s cls u = some x → exec (.segmentStop cls u) s =
        .next (settleUnit (finishStopped (endSeg (withdrawFx s x u) x u) x.id) cls u))
    ∧ (toStop s cls u = none → exec (.segmentStop cls u) s = .next s)
    ∧ (∀ x, (s.runs.find? fun x => x.ring = r && (canEnd x || endsStopped x)) = some x →
        (x.cause = none → exec (.descriptorEnd r) s = .next (finishRun (commitHeld s x) x.id))
        ∧ (x.cause ≠ none → exec (.descriptorEnd r) s = .next (finishRun s x.id)))
    ∧ ((∀ x, x ∈ s.runs → x.ring = r → canEnd x = false ∧ endsStopped x = false) → exec (.descriptorEnd r) s = .next s)
    ∧ ((∀ x, x ∈ s.runs → takesLate s r x = false) → exec (.lateEvent r) s = .next s)
    ∧ (∀ x, s.runs.find? (takesLate s r) = some x →
        let t := modRun s x.id fun y => { y with lateSent := true }
        (unresolved x = false → exec (.lateEvent r) s = .next (lateUnits t x))
        ∧ (unresolved x = true → exec (.lateEvent r) s = .next (lateUnits (finishIfEnded (squash t x.id 1) x.id) x)))
    ∧ (∀ x o, (s.runs.find? fun x => x.ring = r && x.cause.isNone && x.loose.any fun l => l.opc = 0x18) = some x →
        (x.loose.find? fun l => l.opc = 0x18) = some o →
        exec (.raBind r) s = .next (x.segs.foldl (fun t g => settleUnit t x.cls g.unit) (raBindList s x o)))
    ∧ (∀ x g o, inOp s cls u = some (x, g, o) →
        (g.phase = .blocked false → reg s 0x80018 ≠ 0 → exec (.waitStuck cls u) s =
          .next (pushLog (setPhase (setFlag s 3079) x u (.blocked true)) {
            time := 0, code := 0x2003, func := x.fn, ring := x.ring, seq := x.seq, index := unitIndex cls u
            arg0 := o.evc, arg1 := o.imm }))
        ∧ (g.phase = .blocked true → exec (.waitStuck cls u) s = .next s)
        ∧ exec (.completionTimeout (.operation cls u)) s = .next (failOp (setFlag s 3080) x u 6 0xCC o.idx)
        ∧ ∀ va wr, exec (.completionTimeout (.walk cls u va wr)) s =
            .next (failOp (recordFault s x.fn va 0xDF wr) x u 5 0xDF o.idx))
    ∧ (inOp s cls u = none → exec (.waitStuck cls u) s = .next s
        ∧ exec (.completionTimeout (.operation cls u)) s = .next s
        ∧ ∀ va wr, exec (.completionTimeout (.walk cls u va wr)) s = .next s)
    ∧ (∀ (k : Nat) (table : Bool) (e : TimeoutSource × Instr),
        e ∈ [(.fetch r table, .descriptorFetch r), (.list table, .grant), (.poll r table, .pollRead r),
          (.history r table, .completionWrite r), (.ringEntry table, .ringSetup), (.bind r table, .raBind r),
          (.publish table, .publishDone), (.profile k table, .cvProfLoad k), (.ptpQueue table, .tqTransmit)] →
        ∃ t, exec e.2 { s with mem := { s.mem with timesOut := if table then 2 else 1 } } = .next t
          ∧ (t.mem.timesOut = 0 → exec (.completionTimeout e.1) s = .next t)
          ∧ (t.mem.timesOut ≠ 0 → exec (.completionTimeout e.1) s = .next s))
    ∧ (∀ j, s.arb.admin = some j → ezdanRuns s = true → j.opcode = 8 → j.begun = false → (ringOf s j.ring).st = 1 →
        exec (.completionTimeout .peerCfg) s = .next (peerResult s j))
    ∧ (s.arb.admin = none → exec (.completionTimeout .peerCfg) s = .next s)

/-- TVC_RUN, DMA_DONE, TVC_RUNAWAY, TMU_RUN, MQ_BIND. -/
def Obligations.TilesRunTheirOperations : Prop :=
  ∀ (s : State) (u t v : Nat) (x : Run) (g : Seg) (o : ListOp),
    (∀ opc : Nat, (opc = 0x10 ∧ 128 ≤ u ∨ opc = 0x11 ∧ u < 128) → atOp s 0 u opc = some (x, g, o) →
      exec (if opc = 0x10 then .tvcRun u else .tmuRun u) s = .next (failOp s x u 6 0xC5 o.idx))
    ∧ ((atOp s 0 u 0x10 = none → exec (.tvcRun u) s = .next s) ∧ (atOp s 0 u 0x11 = none → exec (.tmuRun u) s = .next s)
      ∧ (atOp s 0 u 0x12 = none → exec (.mqBind u) s = .next s)
      ∧ (tvcLive s t v = none → exec (.tvcRunaway t v) s = .next s ∧ exec (.dmaDone t v) s = .next s))
    ∧ (atOp s 0 u 0x10 = some (x, g, o) → u < 128 → bits (xw o 2) 17 16 = 2 → barred s x = true →
        exec (.tvcRun u) s = .next s)
    ∧ (atOp s 0 u 0x11 = some (x, g, o) → 128 ≤ u → (tmuOf o).store = true → barred s x = true →
        exec (.tmuRun u) s = .next s)
    ∧ (atOp s 0 u 0x10 = some (x, g, o) → u < 128 → (instOf s (u % 64)).run = true →
        (bits (xw o 2) 17 16 = 2 → barred s x = false) →
      let prog := bits (xw o 1) 47 0
      let len := bits (xw o 2) 10 0
      ((len = 0 ∨ 1024 < len ∨ prog % 16 ≠ 0) → exec (.tvcRun u) s = .next (failOp s x u 6 0x14 o.idx))
      ∧ (1 ≤ len → len ≤ 1024 → prog % 16 = 0 → ∀ w f,
          tvcFetch s x (u % 64) (u / 64) prog len (bitAt (xw o 2) 20) = (w, .fail f) →
          exec (.tvcRun u) s = .next (failOp w x u f.status f.result (if f.fetch then 0xFFFF else o.idx)))
      ∧ (1 ≤ len → len ≤ 1024 → prog % 16 = 0 → ∀ w, tvcFetch s x (u % 64) (u / 64) prog len (bitAt (xw o 2) 20) = (w, .ok ()) →
          exec (.tvcRun u) s = .next (tvcStart w x o (u % 64) (u / 64) (bits (xw o 2) 17 16))))
    ∧ (∀ imm i, i < 8 → sreg (startRegs x imm) 1 = imm % 2 ^ 32
        ∧ sreg (startRegs x imm) (8 + i) = argAt x.args i % 2 ^ 32 ∧ sreg (startRegs x imm) 0 = 0)
    ∧ (tvcLive s t v = some (x, o) →
      exec (.tvcRunaway t v) s = .next (tvcFail s x o t v ⟨6, 0x12, false⟩)
      ∧ ((tvcOf s t v).dmas = [] → exec (.dmaDone t v) s = .next s)
      ∧ ∀ a b rest, (tvcOf s t v).dmas = (a, b) :: rest →
        let p := setTvc s t v { tvcOf s t v with dmas := rest }
        let z := if (parseDma b).stg then dmaStaging p x t (parseDma b) else dmaDevice p x t v (parseDma b)
        (∀ w f, z = (w, .fail f) → exec (.dmaDone t v) s = .next (tvcFail w x o t v f))
        ∧ (∀ w, z = (w, .ok ()) → exec (.dmaDone t v) s = .next
            (if (tvcOf w t v).ending && (tvcOf w t v).slot = 0 && rest.isEmpty then tvcFinish w x t v else w)))
    ∧ (atOp s 0 u 0x11 = some (x, g, o) → 128 ≤ u → ((tmuOf o).store = true → barred s x = false) →
      (tmuShapeOk (tmuOf o) = false → exec (.tmuRun u) s = .next (failOp s x u 6 0x16 o.idx))
      ∧ (tmuShapeOk (tmuOf o) = true → exec (.tmuRun u) s = .next (runTmu s x u (u % 64) o.idx (tmuOf o))))
    ∧ (atOp s 0 u 0x12 = some (x, g, o) → feat s 2 = false → exec (.mqBind u) s = .next (failOp s x u 6 0xC2 o.idx))
    ∧ (atOp s 0 u 0x12 = some (x, g, o) → feat s 2 = true →
      let b := bindOf o
      let e := resolve s x.fn b.table (bindKey s b)
      (bindMismatch x b = true → exec (.mqBind u) s = .next (failOp s x u 6 0x19 o.idx))
      ∧ (bindMismatch x b = false → (1024 < b.ofs + b.len ∨ ∃ i w, e = some (i, w) ∧ w.len < b.tblOfs + 64 * b.len) →
          exec (.mqBind u) s = .next (failOp s x u 6 0x18 o.idx))
      ∧ (bindMismatch x b = false → b.ofs + b.len ≤ 1024 → (∀ i w, e = some (i, w) → b.tblOfs + 64 * b.len ≤ w.len) →
          exec (.mqBind u) s = .next (bindCopy s x u o.idx b e)))

/-- NOP, LOOP, BNZ, MOVP, SETRM, RDCYC, DMA, DMAW, END. With two loops open a third is open or not: a free value, the same
for equal operands (log entry 4). -/
def Obligations.ControlSlotsAct : Prop :=
  ∀ (s : State) (t v : Nat) (x : Run) (o : ListOp), tvcLive s t v = some (x, o) →
    let c := tvcOf s t v
    (c.ending = true → c.slot ≠ 0) →
    let stands (i : Instr) : Prop := tvcDecode t v c.slot (slotWord c) = some i
    let goes (u : State) (d : Tvc) : Host.Outcome State Fault Refusal := .next (endSlot (setTvc u t v d) x o t v)
    (∀ slot, stands (.tvcNop t v slot) → exec (.tvcNop t v slot) s = goes s c)
    ∧ (∀ sa body imm, stands (.tvcLoop t v sa body imm) →
        let count := if sa = 0 then imm else sreg c.old sa
        let opens : Tvc := { c with opened := some { first := c.pc + 1, last := c.pc + body, left := count } }
        (body = 0 → exec (.tvcLoop t v sa body imm) s = goes s c)
        ∧ (0 < body → count = 0 → exec (.tvcLoop t v sa body imm) s = goes s { c with skip := body })
        ∧ (0 < body → 0 < count → c.loops.length < 2 → exec (.tvcLoop t v sa body imm) s = goes s opens)
        ∧ (0 < body → 0 < count → 2 ≤ c.loops.length →
            exec (.tvcLoop t v sa body imm) s = goes s (if bitAt (Config.freeFor 5 [count, body]) 0 then opens else c)))
    ∧ (∀ sa imm, stands (.tvcBnz t v sa imm) →
        (sreg c.old sa = 0 → exec (.tvcBnz t v sa imm) s = goes s c)
        ∧ (sreg c.old sa ≠ 0 → exec (.tvcBnz t v sa imm) s = goes s { c with branch := some ((c.pc : Int) + sext 14 imm) }))
    ∧ (∀ pt sa, stands (.tvcMovp t v pt sa) → exec (.tvcMovp t v pt sa) s =
        goes s { c with new := putPtr c.new pt (sreg c.old sa), moved := some pt })
    ∧ (∀ imm, stands (.tvcSetrm t v imm) → exec (.tvcSetrm t v imm) s =
        goes s { c with new := { c.new with rmode := BitVec.ofNat 4 imm } })
    ∧ (∀ sd, stands (.tvcRdcyc t v sd) → exec (.tvcRdcyc t v sd) s =
        goes (modRun s x.id fun y => { y with varUsed := true }) { c with new := putS c.new sd (instOf s t).cycles.toNat })
    ∧ (∀ sa, stands (.tvcDma t v sa) →
        (4 ≤ c.dmas.length → exec (.tvcDma t v sa) s = .next s)
        ∧ (c.dmas.length < 4 → (sreg c.old sa % 32 ≠ 0
              ∨ inPart (v * 0x20000) (v * 0x20000 + 0x20000) (sreg c.old sa) 32 = false) →
            exec (.tvcDma t v sa) s = .next (tvcFail s x o t v ⟨6, 0x11, false⟩))
        ∧ (c.dmas.length < 4 → sreg c.old sa % 32 = 0 → inPart (v * 0x20000) (v * 0x20000 + 0x20000) (sreg c.old sa) 32 = true →
            ∀ u b, tileFetch s t x.fn (sreg c.old sa) 32 = (u, .ok b) →
            (dmaUndeclared x c (parseDma b) = true → exec (.tvcDma t v sa) s = .next (tvcFail u x o t v ⟨6, 0x15, false⟩))
            ∧ (dmaUndeclared x c (parseDma b) = false → exec (.tvcDma t v sa) s =
                goes u { c with dmas := c.dmas ++ [(sreg c.old sa, b)] })))
    ∧ (stands (.tvcDmaw t v) → (c.dmas = [] → exec (.tvcDmaw t v) s = goes s c)
        ∧ (c.dmas ≠ [] → exec (.tvcDmaw t v) s = .next s))
    ∧ (stands (.tvcEnd t v) → exec (.tvcEnd t v) s = goes s { c with ending := true })

/-- LI, LIH, ADD, SUB, ADDI, AND, OR, SHL, SHR. -/
def Obligations.ScalarSlotComputes : Prop :=
  ∀ (s : State) (t v : Nat) (x : Run) (o : ListOp), tvcLive s t v = some (x, o) →
    let c := tvcOf s t v
    (c.ending = true → c.slot ≠ 0) → tblWf c.new.s = true →
    ∀ sd sa sb imm, imm < 16384 →
    let a := sreg c.old sa
    let b := sreg c.old sb
    let runs (i : Instr) (w : Nat) : Prop := tvcDecode t v c.slot (slotWord c) = some i → ∃ r,
      exec i s = .next (endSlot (setTvc s t v { c with new := { c.new with s := r } }) x o t v)
      ∧ ∀ k, sreg { c.new with s := r } k = if k = sd ∧ sd ≠ 0 then w else sreg c.new k
    runs (.tvcLi t v sd imm) imm
    ∧ runs (.tvcLih t v sd imm) ((imm * 2 ^ 14 + sreg c.old sd % 2 ^ 14) % 2 ^ 32)
    ∧ runs (.tvcAdd t v sd sa sb) ((a + b) % 2 ^ 32)
    ∧ runs (.tvcSub t v sd sa sb) ((a + 2 ^ 32 - b) % 2 ^ 32)
    ∧ runs (.tvcAddi t v sd sa imm) (BitVec.ofNat 32 a + (BitVec.ofNat 14 imm).signExtend 32).toNat
    ∧ runs (.tvcAnd t v sd sa sb) (a &&& b)
    ∧ runs (.tvcOr t v sd sa sb) (a ||| b)
    ∧ runs (.tvcShl t v sd sa sb) (a * 2 ^ (b % 32) % 2 ^ 32)
    ∧ runs (.tvcShr t v sd sa sb) ((BitVec.ofNat 32 a).sshiftRight (b % 32)).toNat

/-- VADD, VSUB, VMAX, VMIN, VCLIP, VMOV, VBCST. -/
def Obligations.VectorLanesCompute : Prop :=
  ∀ (s : State) (t v : Nat) (x : Run) (o : ListOp), tvcLive s t v = some (x, o) →
    let c := tvcOf s t v
    (c.ending = true → c.slot ≠ 0) → ∀ q : VOperands, c.wrote.find? (fun e => e.1 = q.vd) = none → tblWf c.new.v = true →
    let a (j : Nat) : Int := (vparts c.old q.va).getD j 0
    let b (j : Nat) : Int := (vparts c.old q.vb).getD j 0
    let lim (y : Int) : Int := clampInt (-32768) 32767 y
    let runs (i : Instr) (w : Nat → Int) (sat : Bool) : Prop := tvcDecode t v c.slot (slotWord c) = some i → ∃ d,
      exec i s = .next (endSlot (setTvc s t v d) x o t v)
      ∧ (∀ j, j < 32 → (vparts d.new q.vd).getD j 0 = w j)
      ∧ (∀ k, k ≠ q.vd → tblGet 0 d.new.v k = tblGet 0 c.new.v k)
      ∧ d = { c with wrote := c.wrote ++ [(q.vd, 2)], new := { c.new with v := d.new.v, sat := c.new.sat || sat } }
    let limited (w : Nat → Int) : Bool := (List.range 32).any fun j => lim (w j) ≠ w j
    runs (.tvcVadd t v q) (fun j => lim (a j + b j)) (limited fun j => a j + b j)
    ∧ runs (.tvcVsub t v q) (fun j => lim (a j - b j)) (limited fun j => a j - b j)
    ∧ runs (.tvcVmax t v q) (fun j => max (a j) (b j)) false
    ∧ runs (.tvcVmin t v q) (fun j => min (a j) (b j)) false
    ∧ runs (.tvcVclip t v q) (fun j => clampInt (-(absInt (b j))) (absInt (b j)) (a j)) false
    ∧ runs (.tvcVmov t v q) a false
    ∧ runs (.tvcVbcst t v q) (fun j => sext 16 (sreg c.old (q.va % 16) / 2 ^ (16 * (j % 2)))) false

/-- VCMUL, VMAG, VSTA, VRCP, VPACK8. The result of VSTA with k above 39 and of VRCP with k above 47 is a free word
(log entry 4). -/
def Obligations.AccumulatorsMultiplyAndStore : Prop :=
  ∀ (s : State) (t v : Nat) (x : Run) (o : ListOp), tvcLive s t v = some (x, o) →
    let c := tvcOf s t v
    (c.ending = true → c.slot ≠ 0) → ∀ q : VOperands, tblWf c.new.v = true → tblWf c.new.a = true →
    let a (j : Nat) : Int := (vparts c.old q.va).getD j 0
    let b (j : Nat) : Int := (vparts c.old q.vb).getD j 0
    let acc (i j : Nat) : Int := (aparts c.old (i % 8)).getD j 0
    let wrap (y : Int) : Int := (BitVec.ofInt 40 y).toInt
    let stands (i : Instr) : Prop := tvcDecode t v c.slot (slotWord c) = some i
    let accumulates (i : Instr) (w : Nat → Int) : Prop := stands i → ∃ d,
      exec i s = .next (endSlot (setTvc s t v d) x o t v)
      ∧ (∀ j, j < 32 → (aparts d.new (q.vd % 8)).getD j 0 = wrap (w j))
      ∧ (∀ k, k ≠ q.vd % 8 → tblGet 0 d.new.a k = tblGet 0 c.new.a k) ∧ d = { c with new := { c.new with a := d.new.a } }
    let writes (i : Instr) (lat bits n : Nat) (w : Nat → Int) (sat : Bool) : Prop :=
      stands i → c.wrote.find? (fun e => e.1 = q.vd) = none → ∃ d,
      exec i s = .next (endSlot (setTvc s t v d) x o t v)
      ∧ (∀ j, j < n → sext bits ((tblGet 0 d.new.v q.vd).toNat / 2 ^ (bits * j)) = w j)
      ∧ (∀ k, k ≠ q.vd → tblGet 0 d.new.v k = tblGet 0 c.new.v k)
      ∧ d = { c with wrote := c.wrote ++ [(q.vd, lat)], new := { c.new with v := d.new.v, sat := c.new.sat || sat } }
    let writesSome (i : Instr) (lat : Nat) : Prop := stands i → c.wrote.find? (fun e => e.1 = q.vd) = none → ∃ w sat,
      exec i s = .next (endSlot (setTvc s t v { c with
        wrote := c.wrote ++ [(q.vd, lat)], new := { c.new with v := tblSet 0 c.new.v q.vd w, sat := c.new.sat || sat } }) x o t v)
    let conjA (i : Nat) : Int := if bitAt q.f 1 then - a (2 * i + 1) else a (2 * i + 1)
    let conjB (i : Nat) : Int := if bitAt q.f 2 then - b (2 * i + 1) else b (2 * i + 1)
    let product (j : Nat) : Int :=
      if q.t then a j * b j
      else if j % 2 = 0 then a j * b j - conjA (j / 2) * conjB (j / 2)
      else a (j - 1) * conjB (j / 2) + conjA (j / 2) * b (j - 1)
    let old (j : Nat) : Int := if bitAt q.f 0 then acc q.vd j else 0
    let shifted (j : Nat) : Int := if bitAt c.old.rmode.toNat (j / 8) then roundHalfEven (acc q.va j) q.k
      else (acc q.va j).fdiv ((2 ^ q.k : Nat) : Int)
    let quotient (j : Nat) : Int := if q.t ∨ j % 2 = 0 then
        (if acc q.va j ≤ 0 then 0x7FFF else min 0x7FFF (((2 ^ q.k / (acc q.va j).toNat : Nat) : Int))) else 0
    let limit (n : Nat) (y : Int) : Int := clampInt (-((2 ^ (n - 1) : Nat) : Int)) (((2 ^ (n - 1) : Nat) : Int) - 1) y
    accumulates (.tvcVcmul t v q) (fun j => old j + (if bitAt q.f 3 then - product j else product j))
    ∧ accumulates (.tvcVmag t v q) (fun j => if q.t then old j + a j * a j
        else if j % 2 = 0 then old j + a j * a j + a (j + 1) * a (j + 1) else 0)
    ∧ (q.k ≤ 39 → writes (.tvcVsta t v q) 2 16 32 (fun j => limit 16 (shifted j))
        ((List.range 32).any fun j => limit 16 (shifted j) ≠ shifted j))
    ∧ (39 < q.k → writesSome (.tvcVsta t v q) 2)
    ∧ (47 < q.k → writesSome (.tvcVrcp t v q) 6)
    ∧ (q.k ≤ 47 → writes (.tvcVrcp t v q) 6 16 32 quotient
        ((List.range 32).any fun j => (q.t || j % 2 = 0) && (acc q.va j ≤ 0 || 0x7FFF < 2 ^ q.k / (acc q.va j).toNat)))
    ∧ writes (.tvcVpack8 t v q) 2 8 64 (fun j => limit 8 (if j < 32 then a j else b (j - 32)))
        ((List.range 64).any fun j => limit 8 (if j < 32 then a j else b (j - 32)) ≠ (if j < 32 then a j else b (j - 32)))

/-- CSEL, LD, LDB, ST. Which of two equal-time writes of one bundle stands, and whether an L0 or
L1 pointer update or a MOVP of its bundle to the same pointer does, is a free value, the same for equal operands (log entry 4). -/
def Obligations.SelectorAndMemorySlotsAct : Prop :=
  ∀ (s : State) (t v : Nat) (x : Run) (o : ListOp), tvcLive s t v = some (x, o) →
    let c := tvcOf s t v
    (c.ending = true → c.slot ≠ 0) →
    let stands (i : Instr) : Prop := tvcDecode t v c.slot (slotWord c) = some i
    let goes (u : State) (d : Tvc) : Host.Outcome State Fault Refusal := .next (endSlot (setTvc u t v d) x o t v)
    (∀ q : VOperands, stands (.tvcCsel t v q) →
      let a := vparts c.old q.va
      let b := vparts c.old q.vb
      let put (l : List Int) : Tvc := putV c q.vd 2 (packParts 16 l)
      let table := hasTable x (if q.t then 2 else 1)
      let lanes := if q.t then 32 else 16
      (feat s 2 = false → exec (.tvcCsel t v q) s = goes s (put a))
      ∧ (feat s 2 = true → (table = false ∨ exclBound s x = true) → ∃ u : State,
          u.choice = s.choice ∧ u.mem = s.mem ∧ u.tile = s.tile ∧ exec (.tvcCsel t v q) s = goes u (put a)
          ∧ u = noteExclusion (countLanes s x 0 lanes) x (!table) (exclBound s x))
      ∧ (feat s 2 = true → table = true → exclBound s x = false → ∃ n, n ≤ lanes
          ∧ exec (.tvcCsel t v q) s = goes (countLanes s x n (lanes - n))
              (put ((List.range 32).map fun j => if (takesParts s q c.old).getD j false then b.getD j 0 else a.getD j 0))))
    ∧ (∀ m : MOperands,
      let a := memAddr c.old m
      (stands (.tvcLd t v m) → a % 64 = 0 → tvcReadable a 64 = true → ∀ u b, tileFetch s t x.fn a 64 = (u, .ok b) →
          exec (.tvcLd t v m) s = goes u (memUpdate (putV c m.vr (loadLat v a) (ofLe b)) m))
      ∧ (stands (.tvcLdb t v m) → a % 4 = 0 → tvcReadable a 4 = true → ∀ u b, tileFetch s t x.fn a 4 = (u, .ok b) →
          exec (.tvcLdb t v m) s = goes u (memUpdate (putV c m.vr (loadLat v a)
            (packParts 32 (List.replicate 16 (ofLe b : Int)))) m))
      ∧ (stands (.tvcSt t v m) → a % 64 = 0 → tileWritable a 64 = true → exec (.tvcSt t v m) s = goes s (memUpdate
          { c with stores := c.stores ++ [(a, leBytes 64 (tblGet 0 c.old.v m.vr).toNat)] } m))
      ∧ (let bad : Host.Outcome State Fault Refusal := .next (tvcFail s x o t v ⟨6, 0x11, false⟩);
          ((a % 64 ≠ 0 ∨ tvcReadable a 64 = false) → stands (.tvcLd t v m) → exec (.tvcLd t v m) s = bad)
          ∧ ((a % 64 ≠ 0 ∨ tileWritable a 64 = false) → stands (.tvcSt t v m) → exec (.tvcSt t v m) s = bad)
          ∧ ((a % 4 ≠ 0 ∨ tvcReadable a 4 = false) → stands (.tvcLdb t v m) → exec (.tvcLdb t v m) s = bad))
      ∧ ∀ d : Tvc, d.old = c.old → d.moved = none →
        (m.mode = 1 → memUpdate d m = { d with new := { d.new with
            p := tblSet 0 d.new.p m.p (nextPtr c.old m.p (tblGet 0 c.old.o m.o).toInt) } })
        ∧ (m.mode = 3 → memUpdate d m = { d with new := { d.new with
            p := tblSet 0 d.new.p m.p (nextPtr c.old m.p (4 * sext 13 m.imm)) } })
        ∧ ((m.mode = 0 ∨ m.mode = 2) → memUpdate d m = d))

/-- LDPC_DEC, LDPC_ENC, POLAR_DEC, POLAR_ENC, HARQ_ENTRY_TAKE, and the wait of HARQ_FREE. That LDPC_DEC takes two commands is
the model's (log entry 32). -/
def Obligations.CodingEngineDecodesAndEncodes : Prop :=
  ∀ (s : State) (u : Nat) (x : Run) (g : Seg) (o : ListOp),
    let me := agentOf x (some u)
    (∀ job e flags comb, cdInside s u = some (x, g, o) → g.phase = .decoding job e flags comb →
      exec (.ldpcDec u) s = .next (ldpcEnd s x u o job e flags comb))
    ∧ (atOp s 1 u 0x20 = some (x, g, o) → u < 24 → ∀ t b, cdRecord s x o = (t, .ok b) →
      let p := parseLdpc b
      let v := if p.et then useVar t x else t
      (p.nw = true → feat t 3 = false → exec (.ldpcDec u) s = .next (failOp t x u 6 0xC2 o.idx))
      ∧ ((p.nw = true → feat t 3 = true) →
        ((ldpcOk p = false ∨ decBoundOk p = false) → exec (.ldpcDec u) s = .next (failOp t x u 6 0x20 o.idx))
        ∧ (ldpcOk p = true → decBoundOk p = true →
          (p.nw = false → jobWeights v x p b = (v, .ok { params := b }))
          ∧ ∀ w job, jobWeights v x p b = (w, .ok job) →
            (p.harq = false → exec (.ldpcDec u) s = .next (setPhase w x u (.decoding job none 0 false)))
            ∧ (p.harq = true → entryFree w x.fn (some p.key) (w.ce.turns + 1) = true →
                exec (.ldpcDec u) s = .next (takeHarq w x u job))
            ∧ (p.harq = true → entryFree w x.fn (some p.key) (w.ce.turns + 1) = false →
                exec (.ldpcDec u) s = .next (setPhase { w with ce := { w.ce with turns := w.ce.turns + 1 } } x u
                  (.harq w.ce.turns (some p.key) job))))))
    ∧ (atOp s 1 u 0x20 = some (x, g, o) → 24 ≤ u → exec (.ldpcDec u) s = .next (failOp s x u 6 0x21 o.idx))
    ∧ (∀ n key job, cdInside s u = some (x, g, o) → g.phase = .harq n key job →
      (entryFree s x.fn key n = false → exec (.harqEntryTake u) s = .next s)
      ∧ (entryFree s x.fn key n = true → o.opc = 0x24 → exec (.harqEntryTake u) s = .next (advance (freeHarqKeys s x.fn key) x u))
      ∧ (entryFree s x.fn key n = true → o.opc ≠ 0x24 → exec (.harqEntryTake u) s = .next (takeHarq s x u job)))
    ∧ (cdInside s u = none → exec (.harqEntryTake u) s = .next s ∧ exec (.ldpcDec u) s = .next s)
    ∧ (atOp s 1 u 0x24 = some (x, g, o) → let key := if bitAt o.imm 0 then none else some (bits (xw o 1) 23 0)
        entryFree s x.fn key (s.ce.turns + 1) = false → exec (.harqFree u) s =
          .next (setPhase { s with ce := { s.ce with turns := s.ce.turns + 1 } } x u (.harq s.ce.turns key {})))
    ∧ (atOp s 1 u 0x21 = some (x, g, o) →
      ((u < 24 ∨ 32 ≤ u) → exec (.ldpcEnc u) s = .next (failOp s x u 6 0x21 o.idx))
      ∧ (24 ≤ u → u < 32 → ∀ t b, cdRecord s x o = (t, .ok b) →
        let p := parseLdpc b
        ((ldpcOk p = false ∨ encBoundOk p = false) → exec (.ldpcEnc u) s = .next (failOp t x u 6 0x20 o.idx))
        ∧ (ldpcOk p = true → encBoundOk p = true → ∀ t' l t'' d w raw v,
            cdOperand t me (xw o 2) 2 (p.tbs / 8) false = (t', .ok l) →
            cdOperand t' me (xw o 3) 2 ((p.g + 7) / 8) true = (t'', .ok d) →
            readElems t'' me l (line (p.tbs / 8)) [] = (w, .ok raw) →
            storeLine w me d (packBits (encodeTb p (dimsOf p) (unpackBits (raw.map (BitVec.ofNat 8)))) ((p.g + 7) / 8)) 0
              = (v, .ok ()) →
            exec (.ldpcEnc u) s = .next (advance v x u))))
    ∧ (atOp s 1 u 0x22 = some (x, g, o) →
      ((u < 32 ∨ 36 ≤ u) → exec (.polarDec u) s = .next (failOp s x u 6 0x21 o.idx))
      ∧ (32 ≤ u → u < 36 → ∀ t b, cdRecord s x o = (t, .ok b) →
        let p := parsePolar b
        (uciOk p = false → exec (.polarDec u) s = .next (failOp t x u 6 0x20 o.idx))
        ∧ (uciOk p = true → ∀ t' l t'' raw w, cdOperand t me (xw o 2) 1 p.e false = (t', .ok l) →
            readElems t' (agentOf x) l (line p.e) [] = (t'', .ok raw) →
            let r := uciDecode p.a p.e (raw.map (sext 8))
            writeBytes t'' (agentOf x) p.result (uciRecord p r) = (w, .ok ()) →
            exec (.polarDec u) s = .next (advance (if r.1 then w else cdDetail w x 2) x u))))
    ∧ (atOp s 1 u 0x23 = some (x, g, o) →
      ((u < 36 ∨ 38 ≤ u) → exec (.polarEnc u) s = .next (failOp s x u 6 0x21 o.idx))
      ∧ (36 ≤ u → u < 38 → ∀ t b, cdRecord s x o = (t, .ok b) →
        let p := parsePolar b
        (dlOk p = false → exec (.polarEnc u) s = .next (failOp t x u 6 0x20 o.idx))
        ∧ (dlOk p = true → ∀ t' d w, cdOperand t me (xw o 2) 2 ((p.e + 7) / 8) true = (t', .ok d) →
            let bits := dlEncode (p.typ = 1) p.e p.rnti ((unpackBits p.payload).take p.a)
            storeLine t' (agentOf x) d (packBits bits ((p.e + 7) / 8)) 0 = (w, .ok ()) →
            exec (.polarEnc u) s = .next (advance w x u))))
    ∧ ((atOp s 1 u 0x21 = none → exec (.ldpcEnc u) s = .next s) ∧ (atOp s 1 u 0x22 = none → exec (.polarDec u) s = .next s)
      ∧ (atOp s 1 u 0x23 = none → exec (.polarEnc u) s = .next s) ∧ (atOp s 1 u 0x24 = none → exec (.harqFree u) s = .next s))

/-- HARQ_FREE; ALL is IMM[0] and KEY the low 24 bits of extra word 1. Listed entries are the ones that are not FREE. -/
def Obligations.HarqFreeFreesWhatItNames : Prop :=
  ∀ (s : State) (u : Nat) (x : Run) (g : Seg) (o : ListOp), atOp s 1 u 0x24 = some (x, g, o) →
    let all := bitAt o.imm 0
    let key := bits (xw o 1) 23 0
    let names (h : Harq) : Prop := h.func = x.fn ∧ (all = true ∨ h.key = key)
    entryFree s x.fn (if all then none else some key) (s.ce.turns + 1) = true →
    ∃ t : State, exec (.harqFree u) s = .next (advance t x u)
      ∧ (∃ l, t = { s with ce := { s.ce with harq := l } })
      ∧ (∀ i h, (i, h) ∈ t.ce.harq ↔ (i, h) ∈ s.ce.harq ∧ ¬ names h)
      ∧ ((∀ i h, (i, h) ∈ s.ce.harq → ¬ names h) → t = s)

/-- PA_MATMUL, PA_CONV, PA_STORE, PA_REDUCE_F, PA_ACCUM_X, each command one block of its operation. `runs` says what it does
with the work that the checks leave: it asks for its columns and waits for them, then runs its next block. -/
def Obligations.PlinthOperationsRun : Prop :=
  ∀ (s : State) (a opc : Nat) (x : Run) (g : Seg) (o : ListOp), paReady s a opc = some (x, g, o) →
    let me := agentOf x (some a)
    let fails (i : Instr) (t : State) (status result : Nat) : Prop :=
      exec i s = .next (failOp t x a status result o.idx)
    let runs (i : Instr) (t : State) (w : PaWork) : Prop := ∀ b tile units,
      ((∃ n, g.phase = .pa b n tile units)
        ∨ (∀ b n tile units, g.phase ≠ .pa b n tile units) ∧ b = 0 ∧ tile = [] ∧ units = foreignUnits t a x.fn w.row w.rows) →
      let v := requestCols (beginPa t x a g w.n units) a w.n (x.prio < 2)
      (colsReady v a w.n = false → exec i s = .next v)
      ∧ (colsReady v a w.n = true →
          (∀ y c, w.block v b tile units = (y, .fail c) → exec i s = .next (failWith y x a o.idx c))
          ∧ ∀ y next, w.block v b tile units = (y, .ok next) →
            (w.total ≤ b + 1 → exec i s = .next (advance y x a))
            ∧ (b + 1 < w.total → exec i s = .next (setPhase y x a (.pa (b + 1) w.n next units))))
    let product (i : Instr) (p : Product) : Prop :=
      (rowsOk x p.row p.m = false → fails i s 4 0xD7)
      ∧ (rowsOk x p.row p.m = true → ∀ t u oa ob,
          operand s me p.refA false = (t, .ok oa) → operand t me p.refB false = (u, .ok ob) →
          (pairOk oa.lay.fmt ob.lay.fmt = false → fails i u 6 0x33)
          ∧ (pairOk oa.lay.fmt ob.lay.fmt = true → (windowOk oa p.orgA p.extA = false ∨ windowOk ob p.orgB p.extB = false) →
              fails i u 4 0xD5)
          ∧ (pairOk oa.lay.fmt ob.lay.fmt = true → windowOk oa p.orgA p.extA = true → windowOk ob p.orgB p.extB = true →
              runs i u { n := p.n, row := p.row, rows := p.m, total := blocksOf oa.lay.fmt ob.lay.fmt p.m p.k
                         block := fun t b tile units => productBlock t x a p oa ob b tile units }))
    (opc = 0x30 → let p := matmulOf o
      ((shapeOk p.m p.n = false ∨ p.k = 0) → fails (.paMatmul a) s 6 0x32)
      ∧ (shapeOk p.m p.n = true → p.k ≠ 0 → product (.paMatmul a) p))
    ∧ (opc = 0x31 → let p := convOf o
      let kh := bits (xw o 3) 4 0
      let kw := bits (xw o 3) 9 5
      let c := bits (xw o 3) 53 38
      ((shapeOk p.m p.n = false ∨ kh = 0 ∨ kw = 0 ∨ c = 0) → fails (.paConv a) s 6 0x32)
      ∧ (shapeOk p.m p.n = true → kh ≠ 0 → kw ≠ 0 → c ≠ 0 → product (.paConv a) p))
    ∧ (opc = 0x32 → let p := storeOf o
      (shapeOk p.m p.n = false → fails (.paStore a) s 6 0x32)
      ∧ (∀ u f, storeChecks s x a p (fun _ => true) = (u, .fail f) → exec (.paStore a) s = .next (failWith u x a o.idx f))
      ∧ ∀ u d v q, storeChecks s x a p (fun _ => true) = (u, .ok d) → scaleOperand u me d (!p.fp) = (v, .ok q) →
          runs (.paStore a) v (storeWork x a p (putStored me d q p.fp)))
    ∧ (opc = 0x33 → let p := reduceOf o
      let bad : Prop := shapeOk p.m p.n = false ∨ p.count < 2 ∨ 16 < p.count ∨ p.step < p.m
      (bad → fails (.paReduceF a) s 6 0x32)
      ∧ (¬ bad → (∃ r, r ∈ reduceRegions p ∧ rowsOk x r p.m = false) → fails (.paReduceF a) s 4 0xD7)
      ∧ (¬ bad → (∀ r, r ∈ reduceRegions p → rowsOk x r p.m = true) →
          runs (.paReduceF a) s { n := p.n, row := p.row, rows := (p.count - 1) * p.step + p.m
                                  total := divUp p.m (reduceRows p)
                                  block := fun t b _ units => reduceBlock t x a p b units }))
    ∧ (opc = 0x34 → let p := storeOf o
      let fmtOk (f : Nat) : Bool := f = if p.fp then 7 else 4
      (shapeOk p.m p.n = false → fails (.paAccumX a) s 6 0x32)
      ∧ (∀ u f, storeChecks s x a p fmtOk = (u, .fail f) → exec (.paAccumX a) s = .next (failWith u x a o.idx f))
      ∧ ∀ u d, storeChecks s x a p fmtOk = (u, .ok d) →
          runs (.paAccumX a) (useVar u x) (storeWork x a p (accumElems me d p.fp)))

/-- PA_COLLECT, HOLD_EXPIRE, PREEMPT_HANDOVER, PREEMPT_RESUME, and the PA commands with no operation to run. That a ramp which
still waits for its ledger is withdrawn at a handover is the model's choice (log entry 17). -/
def Obligations.BatchesHoldAndPreemption : Prop :=
  ∀ (s : State) (a : Nat),
    (∀ x g o, paReady s a 0x35 = some (x, g, o) →
      ∀ t reqs bad, checkRequests s x a x.batch [] = (t, reqs, bad) →
        let c := match bad with | some f => cutBatch t x reqs.length f | none => t
        ∀ y, findRun c x.id = some y →
          (∀ w, batchW y = .ok w → reqs = [] → exec (.paCollect a) s = .next (advance c y a))
          ∧ (∀ w, batchW y = .ok w → reqs ≠ [] → exec (.paCollect a) s = .next (runBatch c y a g w reqs))
          ∧ (∀ f, batchW y = .fail f → exec (.paCollect a) s = .next (advance c y a)))
    ∧ (paReady s a 0x35 = none → ∀ x o,
        (s.runs.find? fun x => x.cls = 2 && x.cause.isNone && x.loose.any fun l => l.opc = 0x35) = some x →
        (x.loose.find? fun l => l.opc = 0x35) = some o →
        exec (.paCollect a) s = .next (stopRun (modRun s x.id fun y => { y with loose := [] }) x.id (.failed 6 0x30 o.idx 0)))
    ∧ ((paReady s a 0x30 = none → exec (.paMatmul a) s = .next s) ∧ (paReady s a 0x31 = none → exec (.paConv a) s = .next s)
      ∧ (paReady s a 0x32 = none → exec (.paStore a) s = .next s) ∧ (paReady s a 0x33 = none → exec (.paReduceF a) s = .next s)
      ∧ (paReady s a 0x34 = none → exec (.paAccumX a) s = .next s)
      ∧ (paReady s a 0x35 = none → (∀ x, x ∈ s.runs → ∀ o, o ∈ x.loose → o.opc ≠ 0x35) → exec (.paCollect a) s = .next s))
    ∧ (∀ c t, c < 64 → (colOf s c).timing = some t → t + holdCycles s c ≤ s.hclk → waitingSlots (ringOf s (colRing s c)) ≠ [] →
        exec (.holdExpire c) s = .next (setCol s c { colOf s c with timing := none, expired := true }))
    ∧ (∀ c, (64 ≤ c ∨ (∀ t, (colOf s c).timing = some t → s.hclk < t + holdCycles s c)
          ∨ waitingSlots (ringOf s (colRing s c)) = []) → exec (.holdExpire c) s = .next s)
    ∧ (a < 8 → s.power.shed = 0 → ∀ x g y h, holding s a = some (x, g) → radioNext s a = some (y, h) →
        (2 ≤ x.prio → rampRuns s a = false →
          let t := modSeg s x.id a fun g => { g with preempted := true }
          let u := setArr t a { arrOf t a with
            preempted := true, handovers := satInc 0xFFFFFFFF (arrOf t a).handovers
            occupant := 2, func := y.fn, holder := some y.id }
          let v := requestCols (withdrawCols (arrive (setFlag u (3200 + a)) (480 + a)) a) a 0 true
          (∀ n, opColumns y h = some n → exec (.preemptHandover a) s =
            .next (settleUnit (requestCols v a n (y.prio < 2 || n < (arrOf v a).cols)) 2 a))
          ∧ (opColumns y h = none → exec (.preemptHandover a) s = .next (settleUnit v 2 a)))
        ∧ ((x.prio < 2 ∨ rampRuns s a = true) → exec (.preemptHandover a) s = .next s))
    ∧ ((8 ≤ a ∨ s.power.shed ≠ 0 ∨ holding s a = none ∨ radioNext s a = none) → exec (.preemptHandover a) s = .next s)
    ∧ (a < 8 → s.power.shed = 0 → holding s a = none → radioNext s a = none → ∀ x g, preemptedOn s a = some (x, g) →
        let t := modSeg s x.id a fun g => { g with preempted := false }
        let u := setArr t a { arrOf t a with preempted := false, occupant := 1, func := x.fn, holder := some x.id }
        ∀ y h, holding u a = some (y, h) →
          (∀ n, opColumns y h = some n →
            exec (.preemptResume a) s = .next (settleUnit (requestCols u a n (y.prio < 2)) 2 a))
          ∧ (opColumns y h = none → exec (.preemptResume a) s = .next (settleUnit u 2 a)))
    ∧ ((8 ≤ a ∨ s.power.shed ≠ 0 ∨ holding s a ≠ none ∨ radioNext s a ≠ none ∨ preemptedOn s a = none) →
        exec (.preemptResume a) s = .next s)

/-- TE_CYCLE, PLANNING_CYCLE_START, SEARCH_BOUND. How many nodes a bounded search expanded is a free value (log entry 4). -/
def Obligations.PlannerCoresPlanTheirRanks : Prop :=
  ∀ (s : State) (c upto : Nat) (x : Run) (o : ListOp),
    (atOp s 3 c 0x40 = none → exec (.teCycle c) s = .next s)
    ∧ (inSearch s c = none → exec (.searchBound c upto) s = .next s)
    ∧ (∀ g, atOp s 3 c 0x40 = some (x, g, o) →
      (groups s = 0 → exec (.teCycle c) s = .next (failOp s x c 6 0xC5 o.idx))
      ∧ (groups s ≠ 0 → let t := setCore s c { coreOf s c with phase := 1, rank := 0, func := x.fn }
          exec (.teCycle c) s = .next (setPhase { t with ev := { t.ev with
            fired := t.ev.fired.filter fun e => e.1 ≠ 16 + c } } x c .awaitLine)))
    ∧ (let t := { s with ev := { s.ev with fired := s.ev.fired.filter fun e => e.1 ≠ 16 + c } }
      ((∀ e, e ∈ s.ev.fired → e.1 ≠ 16 + c) → exec (.planningCycleStart c upto) s = .next t ∧ t = s)
      ∧ ∀ g, (∃ e, e ∈ s.ev.fired ∧ e.1 = 16 + c) → inOp t 3 c = some (x, g, o) → g.phase = .awaitLine →
        unitClocked t 3 c = true →
        (groups t = 0 → exec (.planningCycleStart c upto) s = .next (failOp t x c 6 0xC5 o.idx))
        ∧ (groups t ≠ 0 → exec (.planningCycleStart c upto) s = .next (startCycle t x c o upto)))
    ∧ (inSearch s c = some (x, o) → ∀ b g, (coreOf s c).robots[(coreOf s c).rank]? = some b →
      current s 3 c = some (x, g) → g.stop = false →
      let y := cycleOf s c x
      let v := stopVerdict b 2 true (Config.freeNat s.choice)
      v.emitted = b.stop ∧ v.budget = true ∧ (b.stopOk = true → v.result = 2) ∧ (b.stopOk = false → v.result = 4 ∧ v.cause = 2)
      ∧ (∀ u f, decideRobot (takeChoice s) y x.id (coreOf s c).rank b v = (u, .fail f) →
          exec (.searchBound c upto) s = .next (failWith u x c o.idx f))
      ∧ ∀ u, decideRobot (takeChoice s) y x.id (coreOf s c).rank b v = (u, .ok ()) →
        (∃ y g', current u 3 c = some (y, g') ∧ g'.stop = false) →
        let n := max ((coreOf s c).rank + 1) (min upto y.p.nrob)
        let z := planRanks u y x.id ((List.range n).drop ((coreOf s c).rank + 1))
        exec (.searchBound c upto) s = .next (afterRanks z.1 x c o.idx n y.p.nrob z.2))
    ∧ (∀ n m idx, n ≤ m → afterRanks s x c idx m n (.ok ()) = advance (setCore s c { coreOf s c with phase := 0 }) x c)

/-- MV_COPY, MV_FILL, SCRUB, LAY_INV_HANDLE, LAY_INV_ALL, LAY_INV_DONE, PEER_INBOUND. -/
def Obligations.MemoryMoversAndInvalidation : Prop :=
  ∀ s : State,
    (∀ ch x o n, atChunk s ch 0x60 = some (x, o, n) →
      let src := bits (xw o 1) 47 0
      let dst := bits (xw o 2) 47 0
      let len := bits (xw o 3) 39 0
      (n = 0 → (len = 0 ∨ 2 ^ 48 < src + len ∨ 2 ^ 48 < dst + len) → exec (.mvCopy ch) s = .next (failOp s x ch 6 0x70 o.idx))
      ∧ (0 < len → src + len ≤ 2 ^ 48 → dst + len ≤ 2 ^ 48 → ∀ t f,
          readDev s (agentOf x) (src + n * 65536) (min 65536 (len - n * 65536)) = (t, .fail f) →
          exec (.mvCopy ch) s = .next (failWith t x ch o.idx f))
      ∧ (0 < len → src + len ≤ 2 ^ 48 → dst + len ≤ 2 ^ 48 → ∀ t d u,
          readDev s (agentOf x) (src + n * 65536) (min 65536 (len - n * 65536)) = (t, .ok d) →
          writeDev t (agentOf x) (dst + n * 65536) d = (u, .ok ()) →
          let v := if d.poison = [] then u else modRun u x.id fun y => { y with detail := y.detail ||| 1 }
          (len ≤ (n + 1) * 65536 → exec (.mvCopy ch) s = .next (advance v x ch))
          ∧ ((n + 1) * 65536 < len → exec (.mvCopy ch) s = .next (setPhase v x ch (.chunks (n + 1))))))
    ∧ (∀ ch, (atChunk s ch 0x60 = none → exec (.mvCopy ch) s = .next s) ∧ (atChunk s ch 0x61 = none → exec (.mvFill ch) s = .next s))
    ∧ (∀ ch x o n, atChunk s ch 0x61 = some (x, o, n) →
      let dst := bits (xw o 1) 47 0
      let len := bits (xw o 2) 39 0
      (n = 0 → (len = 0 ∨ 2 ^ 48 < dst + len) → exec (.mvFill ch) s = .next (failOp s x ch 6 0x70 o.idx))
      ∧ (n = 0 → 0 < len → dst + len ≤ 2 ^ 48 → (dst % 4 ≠ 0 ∨ len % 4 ≠ 0) →
          exec (.mvFill ch) s = .next (failOp s x ch 6 0x71 o.idx))
      ∧ (0 < len → dst + len ≤ 2 ^ 48 → dst % 4 = 0 → len % 4 = 0 → ∀ u,
          writeBytes s (agentOf x) (dst + n * 65536)
            (List.replicate (min 65536 (len - n * 65536) / 4) (leBytes 4 o.imm)).flatten = (u, .ok ()) →
          (len ≤ (n + 1) * 65536 → exec (.mvFill ch) s = .next (advance u x ch))
          ∧ ((n + 1) * 65536 < len → exec (.mvFill ch) s = .next (setPhase u x ch (.chunks (n + 1))))))
    ∧ (∀ unit off, reg s 0x90008 ≠ 0 → s.power.selfRefresh = false → off < hbmCap s → stackOf s off = unit →
      let cell := hbmPlace s off / 32
      (tblGet? s.mem.hbmCell cell = none → exec (.scrub unit off) s = .next s)
      ∧ (tblGet? s.mem.hbmCell cell = some 1 → let t := senseCell s 1 (cell, 1)
          exec (.scrub unit off) s = .next (setCells t 1 (tblDel t.mem.hbmCell cell)))
      ∧ ∀ e, e ≠ 1 → tblGet? s.mem.hbmCell cell = some e → exec (.scrub unit off) s = .next (senseCell s 1 (cell, e)))
    ∧ (∀ unit off, (reg s 0x90008 = 0 ∨ s.power.selfRefresh = true ∨ hbmCap s ≤ off ∨ stackOf s off ≠ unit) →
        exec (.scrub unit off) s = .next s)
    ∧ (∀ (c : Nat) (h : Option Nat), let i : Instr := match h with | some k => .layInvHandle c k | none => .layInvAll c;
        (served s = false → exec i s = .next s)
        ∧ (served s = true → s.mem.layInv ≠ none → exec i s = .next (setFlag s 3232))
        ∧ (served s = true → s.mem.layInv = none → exec i s = .next { s with mem := { s.mem with layInv := some (c, h) } }))
    ∧ (s.mem.layInv = none → exec .layInvDone s = .next s)
    ∧ (∀ c h, s.mem.layInv = some (c, h) → ∃ t, exec .layInvDone s = .next t
        ∧ t = { s with mem := { s.mem with layInv := none, lay := t.mem.lay } }
        ∧ ∀ e, e ∈ t.mem.lay ↔ e ∈ s.mem.lay ∧ ¬ (e.1 = c ∧ ∀ k, h = some k → e.2.1 = k))
    ∧ (∀ die addr data len, working s 12 die = true →
      let n := match data with
        | some b => b.length
        | none => len
      let me : Agent := { ctx := 0, cls := 7 }
      let answers (t : State) (a : Option (List Byte × Bool)) : Prop :=
        exec (.peerInbound die addr data len) s = .next { t with mem := { t.mem with peerAnswer := a } }
      (inboundOffset s die addr n = none → answers (setFlag s 2977) none)
      ∧ ∀ off, inboundOffset s die addr n = some off →
        (hbmCap s < off + n → answers s none)
        ∧ (off + n ≤ hbmCap s → ∀ b, data = some b → answers (hbmWrite s me (pieces off n) b) (some ([], false)))
        ∧ (off + n ≤ hbmCap s → data = none → ∀ t d, hbmRead s me (pieces off n) {} = (t, d) →
            answers t (some (d.bytes, !d.poison.isEmpty))))
    ∧ (∀ die addr data len, working s 12 die = false → exec (.peerInbound die addr data len) s = .next s)

/-- EVC_PARITY, HEDGEROW_UE, D2D_RETRY, D2D_DOWN, ERR_RETIRE_CMD, LOG_FLASH_COPY, CROSSBAR_ARRIVAL. -/
def Obligations.FaultsAreContainedAndArrivalsRouted : Prop :=
  ∀ s : State,
    (∀ n, n < 4096 → tblWf s.ev.evc = true → ∃ t, exec (.evcParity n) s = .next t
        ∧ evc t n = { evc s n with frozen := true } ∧ (∀ k, k ≠ n → evc t k = evc s k) ∧ t.err.evcPar = n ∧ t.err.evcParValid = true)
    ∧ (∀ n, 4096 ≤ n → exec (.evcParity n) s = .next s)
    ∧ (∀ r, exec (.hedgerowUe r) s = .next (let t := logEvent (setFlag s 3077) 0x5002 r r 0
        flushDispatched (recap { t with boot := { t.boot with hedgerowUe := true } })))
    ∧ (∀ d, d < s.fuse.assy → (d2dOf s d).down = false →
      (∀ many, let x := d2dOf s d
        let n := if x.retry < 0xFFFF then x.retry + 1 else x.retry
        let t := setFlag (setD2d s d { x with retry := n, degraded := x.degraded || many }) 3075
        exec (.d2dRetry d many) s = .next (if n % 256 = 0 ∧ n ≠ x.retry then logEvent t 0x0102 d d n else t))
      ∧ (let t := setFlag (setD2d s d { d2dOf s d with down := true }) 3076
        (d = 0 → exec (.d2dDown d) s = .next (flushOutstanding (recap (logEvent t 0x3004 0 0 0))))
        ∧ (d ≠ 0 → let u := retireDie t d
            exec (.d2dDown d) s = .next (if dieSynced u d then unsyncDie u d else u))))
    ∧ (∀ d, (s.fuse.assy ≤ d ∨ (d2dOf s d).down = true) → ∀ many, exec (.d2dRetry d many) s = .next s ∧ exec (.d2dDown d) s = .next s)
    ∧ (servedIo s = true → ∀ typ idx, exec (.errRetireCmd typ idx) s = .next (retire s typ idx 0x3003 0))
    ∧ (servedIo s = false → ∀ typ idx, exec (.errRetireCmd typ idx) s = .next s)
    ∧ ((s.err.toFlash = [] ∨ s.boot.fwUp = false ∨ s.boot.restarting = true ∨ s.boot.ezHalted = true ∨ s.boot.halted = true) →
        ∀ ok, exec (.logFlashCopy ok) s = .next s)
    ∧ (∀ n rest, s.err.toFlash = n :: rest → s.boot.fwUp = true → s.boot.restarting = false → s.boot.ezHalted = false →
        s.boot.halted = false → ∀ ok, ∃ t log, exec (.logFlashCopy ok) s = .next t
          ∧ t.err.toFlash = rest ∧ t.err.flashNext = n + 1 ∧ t.flash = { s.flash with log := log }
          ∧ (ok = false → flag t 3081 = true ∧ log = eraseFor s n)
          ∧ (ok = true → ∀ e, tblGet? s.err.log (n % 256) = some e →
              log = putFlash (eraseFor s n) (32 * (n % 32768)) (logBytes e) ∧ t.flags = s.flags))
    ∧ (exec (.crossbarArrival []) s = .next s)
    ∧ (∀ i, takeArrival i s.ev.inFlight = none → exec (.crossbarArrival [i]) s = .next s)
    ∧ (∀ i a rest, takeArrival i s.ev.inFlight = some (a, rest) → fixedPath s a = none →
        let t := countArrival { s with ev := { s.ev with inFlight := rest } } a
        (routeLine s a.input = none → exec (.crossbarArrival [i]) s = .next t)
        ∧ (∀ j, routeLine s a.input = some j →
            exec (.crossbarArrival [i]) s = .next (if lineLive t j then fireLine t j (fireTime t j a) false else t))
        ∧ ∀ k b last j, takeArrival k rest = some (b, last) → fixedPath s b = none →
            routeLine s a.input = some j → routeLine s b.input = some j →
            let u := countArrival (countArrival { s with ev := { s.ev with inFlight := last } } a) b
            exec (.crossbarArrival [i, k]) s = .next (if lineLive u j then
              fireLine (setFlag (setFlags u ([a, b].filterMap mergedFlag)) (640 + j)) j (fireTime u j a) true else u))
    ∧ (∀ i a rest p, takeArrival i s.ev.inFlight = some (a, rest) → fixedPath s a = some p →
        let fellows := rest.filter fun b => fixedPath s b = some p
        let t := (a :: fellows).foldl countArrival { s with ev := { s.ev with inFlight := rest.filter fun b => fixedPath s b ≠ some p } }
        let u := if fellows = [] then t else setFlag (setFlags t ((a :: fellows).filterMap mergedFlag)) (640 + p.1)
        exec (.crossbarArrival [i]) s = .next (if lineLive t p.1 then fireLine u p.1 (fireTime t p.1 a) (!fellows.isEmpty) else t))

/-- PUBLISH, WITHDRAW, PUBLISH_DONE. -/
def Obligations.TablesArePublishedAndWithdrawn : Prop :=
  ∀ s : State,
    (mqLive s = true → s.mq.pub = none →
      (∀ func table sfn sf, exec (.publish func table sfn sf) s = .next { s with mq := { s.mq with
          pub := some { func := func, table := table, sfn := sfn, sf := sf, addr := reg64 s 0x120010 % 2 ^ 48 } } })
      ∧ (∀ e, e < 256 → (verOf s e).st = 1 → exec (.withdraw e) s = .next (postResult (setVer s e {}) 1 (some e)))
      ∧ (∀ e, (256 ≤ e ∨ (verOf s e).st ≠ 1) → exec (.withdraw e) s = .next (postResult s 6 none)))
    ∧ (mqLive s = true → ∀ j, s.mq.pub = some j → ∀ func table sfn sf e,
      exec (.publish func table sfn sf) s = .next (setFlag s 2819) ∧ exec (.withdraw e) s = .next (setFlag s 2819))
    ∧ (mqLive s = false → ∀ func table sfn sf e,
      exec (.publish func table sfn sf) s = .next s ∧ exec (.withdraw e) s = .next s)
    ∧ (s.mq.pub = none → exec .publishDone s = .next s)
    ∧ (∀ j, s.mq.pub = some j →
      ((fnExists s j.func = false ∨ (ctxOf s j.func).en = false) → exec .publishDone s = .next (postResult s 5 none))
      ∧ (fnExists s j.func = true → (ctxOf s j.func).en = true → ∀ t,
          (∀ r, readTable s j = (t, .inr r) → exec .publishDone s = .next (postResult t r none))
          ∧ (∀ b, readTable s j = (t, .inl b) → exec .publishDone s = .next (publishTable t j b))))

/-- FX_SECTIONS, FX_UPLANE, WINDOW_OPEN, EGRESS_GRANT, CP_CANCEL_SECTION, CP_CANCEL_ALL, TQ_TRANSMIT. Whether a message wins
egress in the cycle of its cancel is a free choice (log entry 4). That a Sync message which may not leave stays queued is the
model's choice (log entry 62). -/
def Obligations.FronthaulEgressSendsInItsWindows : Prop :=
  ∀ s : State,
    (∀ p x g o, atOp s 4 p 0x50 = some (x, g, o) →
      let n := bits (xw o 1) 56 48
      (fxPlaced s (fxCarrier o) p = false → exec (.fxSections p) s = .next (failOp s x p 6 0x42 o.idx))
      ∧ (fxPlaced s (fxCarrier o) p = true → (n = 0 ∨ 256 < n) → exec (.fxSections p) s = .next (failOp s x p 6 0x40 o.idx))
      ∧ (fxPlaced s (fxCarrier o) p = true → 1 ≤ n → n ≤ 256 → ∀ t b,
          readUse s (agentOf x) (bits (xw o 1) 47 0) (32 * n) = (t, .ok b) →
          let raw := cutEntries b n
          let es := raw.map parseEntrySec
          (∀ r, entriesBad t (fxCarrier o) (fxSfn o) (fxSlot o) es = some r →
            exec (.fxSections p) s = .next (failOp t x p 6 r o.idx))
          ∧ (entriesBad t (fxCarrier o) (fxSfn o) (fxSlot o) es = none → ∀ u exts,
          readExts t (agentOf x) (bits (xw o 2) 47 0) es [] = (u, .ok exts) →
          let l := es.zip (raw.zip exts)
          ((∃ z, z ∈ l ∧ portMtu u p < cplaneSize z.1.typ (secSize z.1 z.2.2)) →
              exec (.fxSections p) s = .next (failOp u x p 6 0x43 o.idx))
          ∧ ((∀ z, z ∈ l → cplaneSize z.1.typ (secSize z.1 z.2.2) ≤ portMtu u p) → bitAt o.imm 24 = true →
              exec (.fxSections p) s = .next (beginFx u x p (cplaneMsgs u p o l)))
          ∧ ((∀ z, z ∈ l → cplaneSize z.1.typ (secSize z.1 z.2.2) ≤ portMtu u p) → bitAt o.imm 24 = false →
              let v := requestSections (resolveBindings u (fxCarrier o) (fxSfn o) (fxSlot o) (l.map (·.2.1))) o (l.map (·.1))
              exec (.fxSections p) s = .next (beginFx v x p (cplaneMsgs v p o l))))))
    ∧ (∀ p x g o, atOp s 4 p 0x51 = some (x, g, o) →
      let n := bits (xw o 1) 56 48
      (fxPlaced s (fxCarrier o) p = false → exec (.fxUplane p) s = .next (failOp s x p 6 0x42 o.idx))
      ∧ (fxPlaced s (fxCarrier o) p = true → (n = 0 ∨ 256 < n) → exec (.fxUplane p) s = .next (failOp s x p 6 0x40 o.idx))
      ∧ (fxPlaced s (fxCarrier o) p = true → 1 ≤ n → n ≤ 256 → ∀ t b,
          readUse s (agentOf x) (bits (xw o 1) 47 0) (16 * n) = (t, .ok b) →
          let pl := slotPl t (fxCarrier o) (fxSfn o) (fxSlot o)
          ((∀ e, e ∈ cutUEntries b n → uentryFits pl e = true ∧ (eaxcOn t (fxCarrier o) e.eaxc).isSome = true) →
            exec (.fxUplane p) s = .next (beginFx t x p ((cutUEntries b n).flatMap (uplaneMsgs t p o))))
          ∧ (∀ l e rest, cutUEntries b n = l ++ e :: rest →
              (∀ e, e ∈ l → uentryFits pl e = true ∧ (eaxcOn t (fxCarrier o) e.eaxc).isSome = true) →
              (uentryFits pl e = false → exec (.fxUplane p) s = .next (failOp t x p 6 0x40 o.idx))
              ∧ (uentryFits pl e = true → eaxcOn t (fxCarrier o) e.eaxc = none →
                  exec (.fxUplane p) s = .next (failOp t x p 6 0x41 o.idx)))))
    ∧ (∀ p, (atOp s 4 p 0x50 = none → exec (.fxSections p) s = .next s) ∧ (atOp s 4 p 0x51 = none → exec (.fxUplane p) s = .next s)
      ∧ (inOp s 4 p = none → exec (.windowOpen p) s = .next s))
    ∧ (∀ p x g o, inOp s 4 p = some (x, g, o) →
      (g.phase = .fx [] → exec (.windowOpen p) s = .next (settleFx s p))
      ∧ ((∀ l, g.phase ≠ .fx l) → exec (.windowOpen p) s = .next s))
    ∧ (∀ p x g o m rest, inOp s 4 p = some (x, g, o) → g.phase = .fx (m :: rest) →
      (txStamp s p < winOpen s m → exec (.windowOpen p) s = .next s)
      ∧ (winOpen s m ≤ txStamp s p →
        let z := takeSeq s m
        let t := setPhase z.1 x p (.fx rest)
        (mayTransmit s m.carrier m = false →
            exec (.windowOpen p) s = .next (settleFx (noteMsg (dropTx t p 16) x.ring x.k false) p))
        ∧ (mayTransmit s m.carrier m = true → winClose s m < txStamp s p →
            exec (.windowOpen p) s = .next (settleFx (noteMsg (dropTx t p (if m.plane = 0 then 14 else 13)) x.ring x.k false) p))
        ∧ (mayTransmit s m.carrier m = true → txStamp s p ≤ winClose s m → ∀ u f, buildMsg t x m = (u, .fail f) →
            exec (.windowOpen p) s = .next (failWith u x p o.idx f))
        ∧ (mayTransmit s m.carrier m = true → txStamp s p ≤ winClose s m → ∀ u b, buildMsg t x m = (u, .ok b) →
            let pcp := if m.plane = 0 then bits (reg u (portReg p 0xC)) 14 12 else bits (reg u (portReg p 0xC)) 18 16
            let e := ecpri (if m.plane = 0 then 2 else 0) (bits (eaxcReg u m.eaxc) 15 0) z.2 b
            exec (.windowOpen p) s = .next (queueFrame u p {
              kind := m.plane, close := winClose s m, carrier := m.carrier, sfn := m.sfn, slot := m.slot, sections := m.sections
              ring := x.ring, k := x.k, bytes := messageFrame u p m.carrier pcp e }))))
    ∧ (∀ p, portState s p ≠ 2 → exec (.egressGrant p) s = .next s)
    ∧ (∀ p, portState s p = 2 → let t := dropLate s p
      let stays (f : EgFrame) : Bool := isSync f && syncStopped t p
      ((∀ f, f ∈ (portOf t p).queue → stays f = true) → exec (.egressGrant p) s = .next (settleFx t p))
      ∧ ((∃ f, f ∈ (portOf t p).queue ∧ stays f = false) → ∃ i f, (portOf t p).queue[i]? = some f ∧ stays f = false
          ∧ (∀ g, g ∈ (portOf t p).queue → stays g = false → egRank t p f ≤ egRank t p g)
          ∧ exec (.egressGrant p) s = .next (settleFx (sendFrame t p i f) p)))
    ∧ (∀ c sfn slot sec,
      (served s = false → exec (.cpCancelSection c sfn slot sec) s = .next s ∧ exec (.cpCancelAll c sfn slot) s = .next s)
      ∧ (served s = true →
        let p := plPort (carrierOf s c).now
        let t := takeChoice s
        let wins (who : Option Nat) (i : Nat) (f : EgFrame) : Prop :=
          egPick t p (portOf t p).queue = some (i, f) ∧ cancelsFrame c sfn slot who f = true
          ∧ Config.raceWinner s.choice = true ∧ portState t p = 2 ∧ txStamp t p ≤ f.close
        let after (base : State) (who : Option Nat) : State := discardFrames { base with fh := { base.fh with
          cancels := insertNew (c, absFrame base sfn, slot, who) base.fh.cancels } } p 15 (cancelsFrame c sfn slot who)
        (∀ base : State, (base = t ∧ ∀ i f, ¬ wins (some sec) i f)
            ∨ (∃ i f, wins (some sec) i f ∧ base = setFlag (sendFrame t p i f) 2073) →
          exec (.cpCancelSection c sfn slot sec) s = .next (settleFx (withdrawAhead (after base (some sec)) p) p))
        ∧ (∀ base : State, (base = t ∧ ∀ i f, ¬ wins none i f)
            ∨ (∃ i f, wins none i f ∧ base = setFlag (sendFrame t p i f) 2073) →
          exec (.cpCancelAll c sfn slot) s = .next (settleFx (withdrawAhead (after base none) p) p))
        ∧ ∀ who, tblWf s.fh.port = true →
            ∀ f, f ∈ (portOf (after t who) p).queue ↔ f ∈ (portOf s p).queue ∧ cancelsFrame c sfn slot who f = false))
    ∧ (let n := tqSize s true
      let i := s.fh.txCons % n
      let consumed (t : State) : State := { t with fh := { t.fh with txCons := (i + 1) % n } }
      ((served s = false ∨ bitAt (reg s 0xF0410) 9 = false ∨ i = reg s 0xF041C % n) → exec .tqTransmit s = .next s)
      ∧ (served s = true → bitAt (reg s 0xF0410) 9 = true → i ≠ reg s 0xF041C % n → ∀ t r,
        readUse s { ctx := 0, cls := 7 } (reg64 s 0xF0408 % 2 ^ 48 + 128 * i) 128 = (t, r) →
        (∀ b, r = .ok b → exec .tqTransmit s = .next (sendEntry (consumed t) b))
        ∧ ∀ f, r = .fail f → exec .tqTransmit s = .next (consumed t)))

/-- PORT_UP, PORT_DOWN, RESTART, FRAME_RECEIVE, RX_WINDOW_CLOSE, ADMISSION_OPEN, PLACEMENT_EFFECT. The frame formats that
classify reads, and the numbers by which a command tells fragments and verifications, are the model's (log entry 33). -/
def Obligations.FronthaulIngressAndAdmission : Prop :=
  ∀ s : State,
    (∀ p, s.boot.fwUp = true → s.boot.recovery = false → portState s p = 1 → tblGet false s.power.outputs p = true → tblWf s.fh.port = true → ∃ t seq,
        exec (.portUp p) s = .next (arrive t (464 + p))
        ∧ t = { s with fh := { s.fh with port := t.fh.port, seq := seq } }
        ∧ portOf t p = { portOf s p with lock := true, up := true } ∧ (∀ q, q ≠ p → portOf t q = portOf s q)
        ∧ ∀ e q, (e, q) ∈ seq ↔ ∃ q', (e, q') ∈ s.fh.seq
            ∧ q = if plPort (carrierOf s (eaxcCarrier s e)).now = p then { q' with rxKnown := false } else q')
    ∧ (∀ p, (s.boot.fwUp = false ∨ s.boot.recovery = true ∨ portState s p ≠ 1 ∨ tblGet false s.power.outputs p = false) →
        exec (.portUp p) s = .next s)
    ∧ (∀ p, portState s p = 2 → tblWf s.fh.port = true →
        let t := discardFrames (setPort s p { portOf s p with lock := false, up := false, frag := none }) p 16 (fun _ => true)
        let u := settleFx (settleRadio (arrive (setFlag t (2048 + p)) (464 + p))) p
        exec (.portDown p) s = .next u ∧ (served s = true → exec (.restart p) s = .next u))
    ∧ (served s = false → ∀ p, exec (.restart p) s = .next s)
    ∧ (∀ p, portState s p ≠ 2 → exec (.portDown p) s = .next s ∧ exec (.restart p) s = .next s
        ∧ ∀ check full b, exec (.frameReceive p check full b) s = .next s)
    ∧ (∀ p full b, portState s p = 2 →
        let x := portOf s p
        let takes (t : State) (b : List Byte) : Host.Outcome State Fault Refusal := exec (.frameReceive p 0 full b) t
        exec (.frameReceive p 2 full b) s = .next (setFlag (dropRx s p 9) (2060 + p))
        ∧ exec (.frameReceive p 1 full b) s = .next (dropRx s p 9)
        ∧ (∀ check, 3 ≤ check →
          (preempts s p = false → exec (.frameReceive p check full b) s = .next (dropRx s p 9))
          ∧ (preempts s p = true →
            (check = 3 → exec (.frameReceive p check full b) s = .next (setPort s p { x with verified := x.verified + 1 }))
            ∧ (check = 4 → exec (.frameReceive p check full b) s = .next (setPort s p { x with frag := some b }))
            ∧ (4 < check → x.frag = none → exec (.frameReceive p check full b) s = .next (dropRx s p 9))
            ∧ (∀ a, check = 5 → x.frag = some a →
                exec (.frameReceive p check full b) s = .next (setPort s p { x with frag := some (a ++ b) }))
            ∧ (∀ a, 5 < check → x.frag = some a → tblWf s.fh.port = true →
                exec (.frameReceive p check full b) s = takes (setPort s p { x with frag := none }) (a ++ b))))
        ∧ exec (.frameReceive p 0 true b) s = .next (dropRx s p 8)
        ∧ (classify s p (parseFrame b) = .other → exec (.frameReceive p 0 false b) s = .next (dropRx s p 0))
        ∧ (classify s p (parseFrame b) = .unsup → exec (.frameReceive p 0 false b) s = .next (dropRx s p 1))
        ∧ (classify s p (parseFrame b) = .uplane →
            exec (.frameReceive p 0 false b) s = .next (receiveUplane s p (parseFrame b)))
        ∧ (classify s p (parseFrame b) = .delay → (police s p 2).2 = true →
            exec (.frameReceive p 0 false b) s = .next (answerDelay (police s p 2).1 p (parseFrame b)))
        ∧ (∀ k c, (c = .ptp ∧ k = 0) ∨ (c = .esmc ∧ k = 1) ∨ (c = .delay ∧ k = 2) → classify s p (parseFrame b) = c →
            (police s p k).2 = false → exec (.frameReceive p 0 false b) s = .next (dropRx (police s p k).1 p 2))
        ∧ (classify s p (parseFrame b) = .esmc → (police s p 1).2 = true →
            let t := consumeEsmc (police s p 1).1 p (parseFrame b).body
            exec (.frameReceive p 0 false b) s = .next (if rxEnabled t then toHostQueue t p (rxStamp t p) b else t))
        ∧ (classify s p (parseFrame b) = .ptp → ∀ t, police s p 0 = (t, true) →
            (rxEnabled t = false ∨ 112 < b.length) → exec (.frameReceive p 0 false b) s = .next (dropRx t p 12))
        ∧ (classify s p (parseFrame b) = .ptp → ∀ t, police s p 0 = (t, true) → rxEnabled t = true → b.length ≤ 112 →
            let n := tqSize t false
            let i := t.fh.rxProd % n
            ((i + 1) % n = reg t 0xF0418 % n → exec (.frameReceive p 0 false b) s = .next (setFlag (dropRx t p 12) 2072))
            ∧ ((i + 1) % n ≠ reg t 0xF0418 % n →
                let head := leBytes 8 (trunc 64 (rxStamp t p)) ++ leBytes 8 (p + b.length * 2 ^ 16)
                let u := (writeBytes t { ctx := 0, cls := 7 } (reg64 t 0xF0400 % 2 ^ 48 + 128 * i) (head ++ b)).1
                exec (.frameReceive p 0 false b) s = .next { u with fh := { u.fh with rxProd := (i + 1) % n } })))
    ∧ (∀ c sfn slot sym, let x := carrierOf s c
        let p := slotPl s c sfn slot
        let close := slotStart s (plMu p) sfn slot + symbolOfs (plMu p) slot sym + carWin s c 7
        let frame := absFrame s sfn
        plEn p = true → close ≤ rxStamp s (plPort p) → (∃ r, r ∈ x.requested ∧ r.frame = frame ∧ r.slot = slot) →
        ((frame, slot, sym) ∈ x.announced → exec (.rxWindowClose c sfn slot sym) s = .next s)
        ∧ ((frame, slot, sym) ∉ x.announced →
            let t := symbolStatus s c p (frame.emod 1024).toNat slot sym 0
            exec (.rxWindowClose c sfn slot sym) s = .next (arrive (setCarrier t c { carrierOf t c with
              announced := (carrierOf t c).announced ++ [(frame, slot, sym)] }) (256 + c))))
    ∧ (∀ c sfn slot sym, let p := slotPl s c sfn slot
        let close := slotStart s (plMu p) sfn slot + symbolOfs (plMu p) slot sym + carWin s c 7
        (plEn p = false ∨ rxStamp s (plPort p) < close
          ∨ ∀ r, r ∈ (carrierOf s c).requested → ¬ (r.frame = absFrame s sfn ∧ r.slot = slot)) →
        exec (.rxWindowClose c sfn slot sym) s = .next s)
    ∧ (∀ c, let x := carrierOf s c
        let boundary : Bool := inFrame s (dieCount s (portDie (plPort x.now))) % slotTc (plMu x.now) = 0
        (plEn x.now = true → admits s (plPort x.now) = true → boundary = true → x.open_ = false →
          exec (.admissionOpen c) s = .next (setCarrier s c { x with
            open_ := true, openAt := dieCount s (portDie (plPort x.now)) }))
        ∧ ((plEn x.now = false ∨ admits s (plPort x.now) = false ∨ boundary = false ∨ x.open_ = true) →
            exec (.admissionOpen c) s = .next s))
    ∧ (∀ c, let x := carrierOf s c
        let count := dieCount s (portDie (plPort x.now))
        let boundary : Bool := inFrame s count % slotTc (plMu x.now) = 0
        ((x.pending = false ∨ boundary = false) → exec (.placementEffect c) s = .next s)
        ∧ (x.pending = true → boundary = true →
            let new : Placed := { cfg := BitVec.ofNat 32 (carReg s c 0), place := BitVec.ofNat 32 (carReg s c 4) }
            exec (.placementEffect c) s = .next (settleRadio (setCarrier s c { x with
              now := new, past := x.past ++ [⟨count, x.now, x.open_, x.openAt⟩], pending := false }))))

/-- LINK_SYNC, LANE_LOCK, SYSREF_EDGE, LINK_LOSS, CV_START, CONVERTER_START, NR_SYMBOL, TX_SYMBOL, AIR_TIME_END. The samples
come with the command (log entry 6); what the FFT makes of them is opaque. -/
def Obligations.ConverterLinksRun : Prop :=
  ∀ (s : State) (k : Nat), tblWf s.cv.link = true →
    let x := linkOf s k
    let others (t : State) : Prop := ∀ j, j ≠ k → linkOf t j = linkOf s j
    (k < 6 → x.st = 0 → linkMayRun s k = true → ∃ t, exec (.linkSync k) s = .next t ∧ others t
      ∧ linkOf t k = { x with
          st := 1, cfg := BitVec.ofNat 32 (reg s (linkReg k 0)), lat := BitVec.ofNat 32 (reg s (linkReg k 0xC))
          agc := BitVec.ofNat 32 (reg s (linkReg k 0x24)), lanes := false, srefSeen := false })
    ∧ ((6 ≤ k ∨ x.st ≠ 0 ∨ linkMayRun s k = false) → exec (.linkSync k) s = .next s)
    ∧ (x.st ≠ 1 → exec (.laneLock k) s = .next s)
    ∧ (x.st = 0 → exec (.sysrefEdge k) s = .next s)
    ∧ ((6 ≤ k ∨ x.st = 0) → exec (.linkLoss k) s = .next s)
    ∧ (x.st = 1 →
      (x.srefSeen = false → exec (.laneLock k) s = .next (setLink s k { x with lanes := true }))
      ∧ (x.srefSeen = true → ∃ t, exec (.laneLock k) s = .next (endStop t k) ∧ others t
          ∧ linkOf t k = { x with lanes := true, st := 2 })
      ∧ (x.srefSeen = false → ∃ t, others t
          ∧ linkOf t k = { x with
              sref := BitVec.ofInt 64 (dieCount s (linkDie k)), srefSeen := true, st := if x.lanes then 2 else 1 }
          ∧ exec (.sysrefEdge k) s = .next (if x.lanes then endStop t k else t)
          ∧ t.ev = { s.ev with inFlight := s.ev.inFlight ++ [{ input := 400 + k }] }))
    ∧ (x.st ≠ 0 → x.srefSeen = true → exec (.sysrefEdge k) s
        = .next (if misaligned x (dieCount s (linkDie k)) then setFlag s (2310 + k) else s))
    ∧ (k < 6 → x.st ≠ 0 → ∃ t, exec (.linkLoss k) s = .next t ∧ others t ∧ (linkOf t k).st = 0 ∧ (linkOf t k).dir = 0
        ∧ (linkOf t k).lanes = false ∧ (linkOf t k).srefSeen = false ∧ (linkOf t k).tx = [] ∧ (linkOf t k).burst.st = (if x.st = 3 then 0 else x.burst.st)
        ∧ (2 ≤ x.st → flag t (2304 + k) = true)
        ∧ (let a := dieCount s (linkDie k) - cvOfs s k 0x04
          let p := placedNow (carrierOf s (cvCarrier x)) a
          let slot := slotAt s (plMu p) a
          let sym := ((List.range 14).filter fun j => slotStart s (plMu p) (sfnAt s a) slot + symbolOfs (plMu p) slot j ≤ a).length - 1
          let live : Prop := x.st = 3 ∧ cvBurst x = false ∧ bitAt x.dir 0 = true ∧ plEn p = true
            ∧ (x.t0.toNat : Int) ≤ dieCount s (linkDie k)
          (live → (linkOf t k).lostSlot = some (absFrame s (sfnAt s a), slot, (List.range 14).drop (sym + 1)))
          ∧ (¬ live → (linkOf t k).lostSlot = x.lostSlot)))
    ∧ (atOp s 5 k 0x58 = none → exec (.cvStart k) s = .next s)
    ∧ (∀ y g o, atOp s 5 k 0x58 = some (y, g, o) →
        (∀ c, startBad s k o.imm = some c → exec (.cvStart k) s = .next (failOp s y k 6 c o.idx))
        ∧ (startBad s k o.imm = none → bitAt o.imm 0 = false → exec (.cvStart k) s = .next (setPhase s y k .awaitLine))
        ∧ (startBad s k o.imm = none → bitAt o.imm 0 = true →
            let t := setPhase s y k .stopping
            ((linkOf t k).st = 3 → cvBurst (linkOf t k) = true → exec (.cvStart k) s = .next (stopLink t k))
            ∧ (((linkOf t k).st ≠ 3 ∨ cvBurst (linkOf t k) = false) → exec (.cvStart k) s = .next (endStop t k))))
    ∧ (∀ e y g o, s.ev.fired.find? (fun e => e.1 = k) = some e → inOp s 5 k = some (y, g, o) → g.phase = .awaitLine →
        let t := { s with ev := { s.ev with fired := s.ev.fired.filter fun e => e.1 ≠ k } }
        (x.st ≠ 2 → exec (.converterStart k) s
          = .next (advance (setFlag (modRun t y.id fun z => { z with detail := z.detail ||| 1 }) (2316 + k)) y k))
        ∧ (x.st = 2 → let t0 := startTime x e.2
            let u := setLink t k { x with st := 3, t0 := BitVec.ofInt 64 t0, dir := bits o.imm 3 2, burst := {}, fn := y.fn }
            ∀ v r, writeBytes u (agentOf y) (bits (xw o 1) 47 0) (leBytes 8 (trunc 64 t0) ++ leBytes 8 x.sref.toNat) = (v, r) →
            (r = .ok () → exec (.converterStart k) s = .next (advance v y k))
            ∧ ∀ f, r = .fail f → exec (.converterStart k) s = .next (failWith v y k o.idx f)))
    ∧ (((∀ e, e ∈ s.ev.fired → e.1 ≠ k) ∨ inOp s 5 k = none ∨ ∃ y g o, inOp s 5 k = some (y, g, o) ∧ g.phase ≠ .awaitLine) →
        exec (.converterStart k) s = .next { s with ev := { s.ev with fired := s.ev.fired.filter fun e => e.1 ≠ k } })
    ∧ (∀ sfn slot sym l, (x.st ≠ 3 ∨ cvBurst x = true ∨ 14 ≤ sym) →
        exec (.nrSymbol k sfn slot sym l) s = .next s ∧ exec (.txSymbol k sfn slot sym) s = .next s)
    ∧ (∀ sfn slot sym l, x.st = 3 → cvBurst x = false → sym < 14 →
        let p := slotPl s (cvCarrier x) sfn slot
        ((bitAt x.dir 0 = false ∨ plEn p = false ∨ symWhole x p slot sym l = false) →
          exec (.nrSymbol k sfn slot sym l) s = .next (symbolBoundary s k))
        ∧ (bitAt x.dir 0 = true → plEn p = true → symWhole x p slot sym l = true →
            let clip := reg s (linkReg k 0x20)
            let n := ((l.take (plStreams p)).map fun m =>
              (m.take (symSamples x p slot sym)).countP (clips (bits clip 15 0))).sum
            ∃ t, exec (.nrSymbol k sfn slot sym l) s = .next (symbolBoundary t k) ∧ others t
              ∧ (linkOf t k).lastSym = some (sfn, slot, sym)
              ∧ (linkOf t k).erased = (if bits clip 31 16 < n then satInc 65535 x.erased else x.erased)
              ∧ (bits clip 31 16 < n → flag t (2336 + k) = true))
        ∧ (bitAt x.dir 1 = false → exec (.txSymbol k sfn slot sym) s = .next s)
        ∧ (bitAt x.dir 1 = true → ∀ t, txReady s k x p sfn slot sym = (t, false) → exec (.txSymbol k sfn slot sym) s
            = .next (symbolBoundary (setFlag (setLink t k { linkOf t k with
                tx := List.replicate (plStreams p * (nrNfft x p + cpSamples x (plMu p) slot sym)) (0, 0)
                underrun := satInc 65535 x.underrun }) (2328 + k)) k))
        ∧ (bitAt x.dir 1 = true → ∀ t u tx, txReady s k x p sfn slot sym = (t, true) →
            txSamples t k x p slot sym = (u, tx) → exec (.txSymbol k sfn slot sym) s
            = .next (symbolBoundary (setLink u k { linkOf u k with tx := tx }) k)))
    ∧ (∀ sfn slot sym,
        let p := slotPl s (cvCarrier x) sfn slot
        let elapsed := slotStart s (plMu p) sfn slot + symbolOfs (plMu p) slot (sym + 1) ≤ dieCount s (linkDie k)
        (∀ l, x.lostSlot = some (absFrame s sfn, slot, l) → sym ∈ l → elapsed →
          let t := arrive (symbolStatus s (cvCarrier x) p sfn slot sym 0) (384 + k)
          exec (.airTimeEnd k sfn slot sym) s = .next (setLink t k { x with
            lostSlot := if l.erase sym = [] then none else some (absFrame s sfn, slot, l.erase sym) }))
        ∧ ((¬ elapsed ∨ ∀ l, x.lostSlot = some (absFrame s sfn, slot, l) → sym ∉ l) →
            exec (.airTimeEnd k sfn slot sym) s = .next s))

/-- CV_AGC, AGC_ENTRY, STS_WINDOW, START_DETECTION, BURST_DETECTED, BURST_END, LISTEN_EXPIRE, CV_PROF_LOAD. The powers and
offsets come with the command (log entry 6); the cause number of a failed load is free (log entry 4). -/
def Obligations.AgcBurstsAndProfiles : Prop :=
  ∀ (s : State) (k : Nat), tblWf s.cv.link = true →
    let x := linkOf s k
    let b := x.burst
    let others (t : State) : Prop := ∀ j, j ≠ k → linkOf t j = linkOf s j
    (atOp s 5 k 0x59 = none → exec (.cvAgc k) s = .next s)
    ∧ ((inOp s 5 k = none ∨ ∃ y g o, inOp s 5 k = some (y, g, o) ∧ ∀ e l, g.phase ≠ .agc (e :: l)) → exec (.agcEntry k) s = .next s)
    ∧ (∀ y g o, atOp s 5 k 0x59 = some (y, g, o) → let n := bits (xw o 1) 56 48
      ((n = 0 ∨ 256 < n) → exec (.cvAgc k) s = .next (failOp s y k 6 0x50 o.idx))
      ∧ (1 ≤ n → n ≤ 256 → ∀ t f, readUse s (agentOf y) (bits (xw o 1) 47 0) (16 * n) = (t, .fail f) →
          exec (.cvAgc k) s = .next (failWith t y k o.idx f))
      ∧ (1 ≤ n → n ≤ 256 → ∀ t d, readUse s (agentOf y) (bits (xw o 1) 47 0) (16 * n) = (t, .ok d) →
          ∀ e rest, agcEntries d n = e :: rest →
          (dieCount t (linkDie k) ≤ (e.1 : Int) → exec (.cvAgc k) s = .next (setPhase t y k (.agc (e :: rest))))
          ∧ ((e.1 : Int) < dieCount t (linkDie k) →
              exec (.cvAgc k) s = .next (walkAgc (applyEntry t y k e.2.1 e.2.2 true) y k rest))))
    ∧ (∀ y g o e rest, inOp s 5 k = some (y, g, o) → g.phase = .agc (e :: rest) →
        ((e.1 : Int) ≤ dieCount s (linkDie k) →
          exec (.agcEntry k) s = .next (walkAgc (applyEntry s y k e.2.1 e.2.2 false) y k rest))
        ∧ (dieCount s (linkDie k) < (e.1 : Int) → exec (.agcEntry k) s = .next s))
    ∧ (∀ power : Int, let dev : Int := power + 16 * bits x.agc.toNat 11 4
        let step : Int := 8 * bits x.agc.toNat 3 0
        let ch := agcChannel s k (burstStream s k)
        let window : Int := (profNfft (cvProfile s k).words / 4 * cvTs x : Nat)
        let settles : Prop := ∃ q, b.quiet = some q ∧ dieCount s (linkDie k) - window < q
        ((burstRuns x = false ∨ b.frozen = true ∨ bits x.agc.toNat 27 24 ≤ b.moves ∨ settles ∨ 2 * absInt dev ≤ step) →
          exec (.stsWindow k power) s = .next s)
        ∧ (burstRuns x = true → b.frozen = false → b.moves < bits x.agc.toNat 27 24 → ¬ settles → step < 2 * absInt dev →
          tblWf x.codes = true → ∃ t n, exec (.stsWindow k power) s = .next t ∧ others t
          ∧ (linkOf t k).burst = { b with
              moves := b.moves + 1, quiet := some (dieCount s (linkDie k) + (bits x.agc.toNat 23 16 * cvTs x : Nat)) }
          ∧ ((tblGet 0 (linkOf t k).codes ch : Nat) : Int) = clampInt 0 15 (((tblGet 0 x.codes ch : Nat) : Int) + n)
          ∧ (step ≠ 0 → (2 * dev + step).fmod (2 * step) ≠ 0 → n = (2 * dev + step).fdiv (2 * step))
          ∧ (step ≠ 0 → (2 * dev + step).fmod (2 * step) = 0 →
              n = (2 * dev + step).fdiv (2 * step) ∨ n = (2 * dev + step).fdiv (2 * step) - 1)
          ∧ ∀ c, c ≠ ch → tblGet 0 (linkOf t k).codes c = tblGet 0 x.codes c))
    ∧ (∀ (power : Int) syms, burstRuns x = true → listens s k = true →
        let stronger := b.power + 16 * fld s (linkReg k 0xC0) 7 2 ≤ power
        let more (l : CvLink) : CvLink := { l with overlap := satInc 255 l.overlap }
        (b.st = 0 → (cvProfile s k).valid = true → exec (.startDetection k power syms) s
          = .next (setLink s k { x with burst := {
              st := 1, power := power, prof := (cvProfile s k).words, moves := b.moves, quiet := b.quiet } }))
        ∧ (b.st = 0 → (cvProfile s k).valid = false → exec (.startDetection k power syms) s = .next s)
        ∧ (b.st = 1 → ¬ stronger → exec (.startDetection k power syms) s = .next s)
        ∧ (b.st = 1 → stronger → ∃ t, exec (.startDetection k power syms) s = .next t ∧ others t
            ∧ linkOf t k = { more x with burst := { st := 1, power := power, prof := (cvProfile t k).words, moves := 0 } })
        ∧ (2 ≤ b.st → ¬ stronger → exec (.startDetection k power syms) s = .next (setLink s k (more x)))
        ∧ (2 ≤ b.st → stronger → (fld s (linkReg k 0xC0) 1 0 = 0 ∨ fld s (linkReg k 0xC0) 1 0 = 3) →
            exec (.startDetection k power syms) s = .next (setFlag (setLink s k (more x)) (2348 + k)))
        ∧ (2 ≤ b.st → stronger → fld s (linkReg k 0xC0) 1 0 = 1 → ∃ t, exec (.startDetection k power syms) s = .next t
            ∧ others t ∧ flag t (2342 + k) = true ∧ (linkOf t k).aborted = satInc 255 x.aborted
            ∧ (linkOf t k).records = x.records + 1
            ∧ (linkOf t k).burst = { st := 1, power := power, prof := (cvProfile t k).words })
        ∧ (2 ≤ b.st → stronger → fld s (linkReg k 0xC0) 1 0 = 2 → ∃ t,
            exec (.startDetection k power syms) s = .next t ∧ others t ∧ flag t (2348 + k) = true
            ∧ linkOf t k = { more x with burst := { b with stronger := true } }))
    ∧ (∀ power cfo : Int, burstRuns x = true → b.st = 1 → exec (.burstDetected k power cfo) s = .next (setLink s k { x with burst := { b with
        st := 2, frozen := true, power := power, cfo := cfo, time := BitVec.ofInt 64 (dieCount s (linkDie k))
        code := tblGet 0 x.codes (agcChannel s k (burstStream s k)) } }))
    ∧ (∀ er cl syms, burstRuns x = true → b.st = 2 → ∃ t, exec (.burstEnd k er cl syms) s = .next t ∧ others t
        ∧ (linkOf t k).burst = {} ∧ (linkOf t k).bursts = satInc 65535 x.bursts ∧ (linkOf t k).records = x.records + 1
        ∧ ∃ l, t.ev.inFlight = l ++ [{ input := 392 + k }])
    ∧ (∀ (power cfo : Int) er cl syms,
        ((burstRuns x = false ∨ listens s k = false) → exec (.startDetection k power syms) s = .next s)
        ∧ ((burstRuns x = false ∨ b.st ≠ 1) → exec (.burstDetected k power cfo) s = .next s)
        ∧ ((burstRuns x = false ∨ b.st ≠ 2) → exec (.burstEnd k er cl syms) s = .next s))
    ∧ exec (.listenExpire k) s = .next (setLink s k { x with listening := false })
    ∧ (∀ p, (4 ≤ p ∨ served s = false) → exec (.cvProfLoad p) s = .next s)
    ∧ (∀ p, p < 4 → served s = true →
        let base := 0x101000 + 0x20 * p
        let w := (List.range 5).map fun i => BitVec.ofNat 32 (reg s (base + 4 * i))
        (profOk w = false → ∃ t, exec (.cvProfLoad p) s = .next t ∧ flag t 2354 = true ∧ t.cv.lastValid = false
            ∧ t.cv.prof = tblSet {} s.cv.prof p {} ∧ t.cv.link = s.cv.link)
        ∧ (profOk w = true → ∀ t f, readUse s { ctx := 0, cls := 7 } (reg s (base + 8) + reg s (base + 12) % 65536 * 2 ^ 32)
              (8 * profNumSc w) = (t, .fail f) → ∃ u, exec (.cvProfLoad p) s = .next u ∧ flag u 2354 = true
            ∧ u.cv.lastValid = false ∧ u.cv.prof = tblSet {} t.cv.prof p {} ∧ u.cv.link = t.cv.link)
        ∧ (profOk w = true → ∀ t d, readUse s { ctx := 0, cls := 7 } (reg s (base + 8) + reg s (base + 12) % 65536 * 2 ^ 32)
              (8 * profNumSc w) = (t, .ok d) →
            exec (.cvProfLoad p) s = .next { t with cv := { t.cv with
              prof := tblSet {} t.cv.prof p { valid := true, words := w, seq := d }, lastValid := true, cause := 0 } }))

end
end

