-- ==== Sys2Proof/Laws/Table.lean ====
section
/-! SUPPORT. The laws of sparse tables: reading what was written, and the canonical form that every operation keeps. -/
namespace Sys2Proof.Machine

variable {α : Type}

theorem tblWf_iff (t : Tbl α) : tblWf t = true ↔ t.Pairwise fun a b => a.1 < b.1 := by
  simp [tblWf, List.pairwise_map]

@[simp] theorem tblWf_nil : tblWf ([] : Tbl α) = true := by simp [tblWf_iff]

theorem tblWf_cons (e : Nat × α) (t : Tbl α) :
    tblWf (e :: t) = true ↔ (∀ x ∈ t, e.1 < x.1) ∧ tblWf t = true := by
  simp [tblWf_iff, List.pairwise_cons]

theorem tblPut_mem {t : Tbl α} {i : Nat} {a : α} {x : Nat × α} (h : x ∈ tblPut t i a) : x = (i, a) ∨ x ∈ t := by
  induction t with
  | nil => simpa [tblPut] using h
  | cons e t ih =>
    obtain ⟨j, b⟩ := e
    simp only [tblPut] at h
    split at h
    · simpa using h
    · split at h
      · rcases List.mem_cons.1 h with h | h
        · exact .inl h
        · exact .inr (List.mem_cons_of_mem _ h)
      · rcases List.mem_cons.1 h with h | h
        · exact .inr (h ▸ List.mem_cons_self)
        · rcases ih h with h | h
          · exact .inl h
          · exact .inr (List.mem_cons_of_mem _ h)

theorem tblDel_mem {t : Tbl α} {i : Nat} {x : Nat × α} (h : x ∈ tblDel t i) : x ∈ t := by
  induction t with
  | nil => simp [tblDel] at h
  | cons e t ih =>
    obtain ⟨j, b⟩ := e
    simp only [tblDel] at h
    split at h
    · exact List.mem_cons_of_mem _ h
    · rcases List.mem_cons.1 h with h | h
      · exact h ▸ List.mem_cons_self
      · exact List.mem_cons_of_mem _ (ih h)

theorem tblWf_put {t : Tbl α} (h : tblWf t = true) (i : Nat) (a : α) : tblWf (tblPut t i a) = true := by
  induction t with
  | nil => simp [tblPut, tblWf_iff]
  | cons e t ih =>
    obtain ⟨j, b⟩ := e
    obtain ⟨h1, h2⟩ := (tblWf_cons _ _).1 h
    simp only [tblPut]
    split
    · rename_i hij
      refine (tblWf_cons _ _).2 ⟨?_, h⟩
      intro x hx
      rcases List.mem_cons.1 hx with hx | hx
      · subst hx; exact hij
      · exact lt_trans hij (h1 x hx)
    · split
      · rename_i hij
        subst hij
        exact (tblWf_cons _ _).2 ⟨h1, h2⟩
      · refine (tblWf_cons _ _).2 ⟨?_, ih h2⟩
        intro x hx
        rcases tblPut_mem hx with hx | hx
        · subst hx; simp only; omega
        · exact h1 x hx

theorem tblWf_del {t : Tbl α} (h : tblWf t = true) (i : Nat) : tblWf (tblDel t i) = true := by
  induction t with
  | nil => simp [tblDel]
  | cons e t ih =>
    obtain ⟨j, b⟩ := e
    obtain ⟨h1, h2⟩ := (tblWf_cons _ _).1 h
    simp only [tblDel]
    split
    · exact h2
    · exact (tblWf_cons _ _).2 ⟨fun x hx => h1 x (tblDel_mem hx), ih h2⟩

theorem tblWf_set [DecidableEq α] {t : Tbl α} (h : tblWf t = true) (d : α) (i : Nat) (a : α) :
    tblWf (tblSet d t i a) = true := by
  unfold tblSet
  split
  · exact tblWf_del h i
  · exact tblWf_put h i a

theorem tblWf_filter {t : Tbl α} (h : tblWf t = true) (p : Nat × α → Bool) : tblWf (t.filter p) = true :=
  (tblWf_iff _).2 (((tblWf_iff _).1 h).filter p)

theorem tblWf_filterMap {t : Tbl α} (h : tblWf t = true) (f : Nat × α → Option (Nat × α))
    (hf : ∀ e x, f e = some x → x.1 = e.1) : tblWf (t.filterMap f) = true := by
  refine (tblWf_iff _).2 (((tblWf_iff _).1 h).filterMap f ?_)
  intro a b hab x hx y hy
  rw [hf a x (by simpa using hx), hf b y (by simpa using hy)]
  exact hab

/-- Reading an index after it was written gives what was written. -/
theorem tblGet?_put_same (t : Tbl α) (i : Nat) (a : α) : tblGet? (tblPut t i a) i = some a := by
  induction t with
  | nil => simp [tblPut, tblGet?]
  | cons e t ih =>
    obtain ⟨j, b⟩ := e
    simp only [tblPut]
    split
    · simp [tblGet?]
    · split
      · simp [tblGet?]
      · rename_i h1 h2
        simp [tblGet?, h1, h2, ih]

theorem tblGet?_none_of_lt {t : Tbl α} {i : Nat} (h : ∀ x ∈ t, i < x.1) : tblGet? t i = none := by
  cases t with
  | nil => rfl
  | cons e t =>
    obtain ⟨j, b⟩ := e
    have hj : i < j := h (j, b) List.mem_cons_self
    simp [tblGet?, hj, Nat.ne_of_lt hj]

/-- Writing an index leaves every other one as it was. -/
theorem tblGet?_put_other (t : Tbl α) {i k : Nat} (a : α) (hk : k ≠ i) : tblGet? (tblPut t i a) k = tblGet? t k := by
  induction t with
  | nil => simp [tblPut, tblGet?, hk]
  | cons e t ih =>
    obtain ⟨j, b⟩ := e
    simp only [tblPut]
    split
    · rename_i hij
      by_cases hki : k < i
      · simp [tblGet?, hk, hki, Nat.ne_of_lt (lt_trans hki hij), lt_trans hki hij]
      · rw [tblGet?]
        simp [hk, hki]
    · split
      · rename_i hij
        subst hij
        simp only [tblGet?, hk, if_false]
      · simp only [tblGet?]
        split
        · rfl
        · split
          · rfl
          · exact ih

theorem tblGet?_del_same {t : Tbl α} (h : tblWf t = true) (i : Nat) : tblGet? (tblDel t i) i = none := by
  induction t with
  | nil => rfl
  | cons e t ih =>
    obtain ⟨j, b⟩ := e
    obtain ⟨h1, h2⟩ := (tblWf_cons _ _).1 h
    simp only [tblDel]
    split
    · rename_i hij
      subst hij
      exact tblGet?_none_of_lt h1
    · rename_i hij
      simp only [tblGet?, hij, if_false]
      split
      · rfl
      · exact ih h2

theorem tblGet?_del_other {t : Tbl α} (h : tblWf t = true) {i k : Nat} (hk : k ≠ i) :
    tblGet? (tblDel t i) k = tblGet? t k := by
  induction t with
  | nil => rfl
  | cons e t ih =>
    obtain ⟨j, b⟩ := e
    obtain ⟨h1, h2⟩ := (tblWf_cons _ _).1 h
    simp only [tblDel]
    split
    · rename_i hij
      subst hij
      simp only [tblGet?, hk, if_false]
      split
      · rename_i hlt
        exact tblGet?_none_of_lt fun x hx => lt_trans hlt (h1 x hx)
      · rfl
    · simp only [tblGet?]
      split
      · rfl
      · split
        · rfl
        · exact ih h2

/-- A table whose unlisted indices hold `d`: an index reads what was last written to it. -/
theorem tblGet_set_same [DecidableEq α] {t : Tbl α} (h : tblWf t = true) (d : α) (i : Nat) (a : α) :
    tblGet d (tblSet d t i a) i = a := by
  unfold tblGet tblSet
  split
  · rename_i hd
    simp [tblGet?_del_same h, hd]
  · simp [tblGet?_put_same]

theorem tblGet_set_other [DecidableEq α] {t : Tbl α} (h : tblWf t = true) (d : α) {i k : Nat} (a : α) (hk : k ≠ i) :
    tblGet d (tblSet d t i a) k = tblGet d t k := by
  unfold tblGet tblSet
  split
  · simp [tblGet?_del_other h hk]
  · simp [tblGet?_put_other t a hk]

theorem tblWf_putBytes {t : Tbl Byte} (h : tblWf t = true) (a : Nat) (l : List Byte) : tblWf (putBytes t a l) = true := by
  induction l generalizing t a with
  | nil => exact h
  | cons b l ih => exact ih (tblWf_put h a b) (a + 1)

/-- Bytes stored from an address leave every other address as it was. -/
theorem tblGet?_putBytes_other (t : Tbl Byte) {a k : Nat} (l : List Byte) (hk : k < a ∨ a + l.length ≤ k) :
    tblGet? (putBytes t a l) k = tblGet? t k := by
  induction l generalizing t a with
  | nil => rfl
  | cons b l ih =>
    have hk' : k < a ∨ a + l.length + 1 ≤ k := by simpa [Nat.add_assoc] using hk
    rw [putBytes, ih _ (by omega), tblGet?_put_other]
    omega

theorem tblWf_dropRange {t : Tbl α} (h : tblWf t = true) (a n : Nat) : tblWf (dropRange t a n) = true :=
  tblWf_filter h _

end Sys2Proof.Machine
end

