-- ==== Sys2Proof/Laws/Keeps.lean ====
section
/-! SUPPORT. What every operation keeps: the queue, the parts that only their own rows write, the canonical form of
    the
memories, and, for the operations that store nothing, every byte of them. One relation, composed along every
    operation; the
lemmas that follow it in this folder say for each shared operation that the state before it keeps the state it
    answers. -/
namespace Sys2Proof.Machine

theorem Memory.wf_iff (m : Memory) :
    m.wf = true ↔ tblWf m.host = true ∧ tblWf m.hbm = true ∧ tblWf m.ssram = true ∧ tblWf m.peer = true := by
  simp [Memory.wf, Bool.and_eq_true, and_assoc]

/-- What becomes of the memories' bytes: nothing (`true`), or a change that keeps their form (`false`). -/
def BytesKeep (q : Bool) (m : Memory) (host hbm ssram peer : Tbl Byte) : Prop :=
  match q with
  | true => host = m.host ∧ hbm = m.hbm ∧ ssram = m.ssram ∧ peer = m.peer
  | false => m.wf = true → tblWf host = true ∧ tblWf hbm = true ∧ tblWf ssram = true ∧ tblWf peer = true

theorem BytesKeep.refl (q : Bool) (m : Memory) : BytesKeep q m m.host m.hbm m.ssram m.peer := by
  cases q
  · exact (Memory.wf_iff m).1
  · exact ⟨rfl, rfl, rfl, rfl⟩

theorem BytesKeep.wf {q : Bool} {m n : Memory} (h : BytesKeep q m n.host n.hbm n.ssram n.peer) (w : m.wf = true) :
    n.wf = true := by
  refine (Memory.wf_iff n).2 ?_
  cases q
  · exact h w
  · obtain ⟨h1, h2, h3, h4⟩ := h
    rw [h1, h2, h3, h4]
    exact (Memory.wf_iff m).1 w

theorem BytesKeep.trans {q : Bool} {l m : Memory} {a b c d : Tbl Byte}
    (h : BytesKeep q l m.host m.hbm m.ssram m.peer) (k : BytesKeep q m a b c d) : BytesKeep q l a b c d := by
  cases q
  · exact fun w => k (h.wf w)
  · obtain ⟨h1, h2, h3, h4⟩ := h
    obtain ⟨k1, k2, k3, k4⟩ := k
    exact ⟨k1.trans h1, k2.trans h2, k3.trans h3, k4.trans h4⟩

/-- From `s` to `t` the queue and the quiet parts stay, and the memories change as `q` says. -/
structure Keeps (q : Bool) (s t : State) : Prop where
  pending : t.pending = s.pending
  quiet : t.quiet = s.quiet
  mem : BytesKeep q s.mem t.mem.host t.mem.hbm t.mem.ssram t.mem.peer

theorem Keeps.refl {q : Bool} (s : State) : Keeps q s s := ⟨rfl, rfl, BytesKeep.refl q s.mem⟩

theorem Keeps.trans {q : Bool} {s t u : State} (h : Keeps q s t) (k : Keeps q t u) : Keeps q s u :=
  ⟨k.pending.trans h.pending, k.quiet.trans h.quiet, h.mem.trans k.mem⟩

/-- What an access answers besides its result. -/
theorem Keeps.of_pair {q : Bool} {α : Type} {s t : State} {p : State × α} {r : α} (e : p = (t, r)) (h : Keeps q s p.1)
    :
    Keeps q s t := by
  rw [e] at h; exact h

/-- `Keeps` of a state that may not be answered. -/
structure OptKeeps (q : Bool) (s : State) (o : Option State) : Prop where
  out : ∀ t, o = some t → Keeps q s t

theorem OptKeeps.of_none {q : Bool} (s : State) : OptKeeps q s none := ⟨fun _ e => nomatch e⟩

theorem OptKeeps.of_some {q : Bool} {s t : State} (h : Keeps q s t) : OptKeeps q s (some t) :=
  ⟨fun _ e => Option.some.inj e ▸ h⟩

theorem OptKeeps.of {q : Bool} {s t : State} {o : Option State} (e : o = some t) (h : OptKeeps q s o) : Keeps q s t :=
  h.out t e

theorem OptKeeps.getD {q : Bool} {s t : State} {o : Option State} (h : OptKeeps q s o) (k : Keeps q s t) :
    Keeps q s (o.getD t) := by
  cases o with
  | none => exact k
  | some u => exact h.out u rfl

theorem Keeps.of_foldl {q : Bool} {α : Type} {s t : State} (f : State → α → State) (l : List α) (h : Keeps q s t)
    (hf : ∀ u a, Keeps q s u → Keeps q s (f u a)) : Keeps q s (l.foldl f t) := by
  induction l generalizing t with
  | nil => exact h
  | cons a l ih => exact ih (hf t a h)

theorem Keeps.of_foldl_fst {q : Bool} {α β : Type} {s : State} (f : State × β → α → State × β) (l : List α)
    {z : State × β} (h : Keeps q s z.1) (hf : ∀ u a, Keeps q s u.1 → Keeps q s (f u a).1) :
    Keeps q s (l.foldl f z).1 := by
  induction l generalizing z with
  | nil => exact h
  | cons a l ih => exact ih (hf z a h)

/-- `Keeps` of the state that a command answers. -/
structure OutKeeps (q : Bool) (s : State) (o : Host.Outcome State Fault Refusal) : Prop where
  out : ∀ t, o = .next t → Keeps q s t

theorem OutKeeps.done {q : Bool} {s t : State} (h : Keeps q s t) : OutKeeps q s (done t) :=
  ⟨fun _ e => Host.Outcome.next.inj e ▸ h⟩

theorem OutKeeps.of {q : Bool} {s t : State} {o : Host.Outcome State Fault Refusal} (e : o = .next t)
    (h : OutKeeps q s o) : Keeps q s t := h.out t e

/-- `Keeps` of a state that has these parts. -/
structure KeepsAs (q : Bool) (s : State) (p : List Instr) (z : QuietParts) (host hbm ssram peer : Tbl Byte) : Prop
    where
  pending : p = s.pending
  quiet : z = s.quiet
  mem : BytesKeep q s.mem host hbm ssram peer

/-- Those parts stand in a state that keeps. -/
theorem Keeps.parts {q : Bool} {s t : State} (h : Keeps q s t) :
    KeepsAs q s t.pending
      ⟨t.fuse, t.flash, t.mbox, t.feat, t.regs, t.boot.sealed, t.pat, t.jd, t.tap, t.smb, t.readOut, t.tick, t.sclk,
    t.hclk⟩
      t.mem.host t.mem.hbm t.mem.ssram t.mem.peer :=
  ⟨h.pending, h.quiet, h.mem⟩

/-- A state built field by field. -/
theorem keeps_mk (q : Bool) (b : State) (x0 : List Instr) (x1 : Fuse) (x2 : Flash) (x3 : Boot) (x4 : Mbox) (x5 : Link)
    (x6 : Feat) (x7 : Tbl Limits) (x8 : Tbl W32) (x9 : Tbl W32) (x10 : Tbl Bool) (x11 : Tbl Nat) (x12 : Etu) (x13 :
    Tbl Inst) (x14 : Tbl Pat) (x15 : Tbl Jd) (x16 : Power) (x17 : Tap) (x18 : Tbl Ring) (x19 : Arb) (x20 : List Run)
    (x21 : RaCount) (x22 : Events) (x23 : Memory) (x24 : Tbl Arr) (x25 : Tbl Collector) (x26 : Tbl Tile) (x27 :
    Maquette) (x28 : Coding) (x29 : Fronthaul) (x30 : Converters) (x31 : Tbl Core) (x32 : Errors) (x33 : Tbl Bool)
    (x34 : List Byte) (x35 : W32) (x36 : Nat) (x37 : Nat) (x38 : Nat) (x39 : Nat) :
    Keeps q b ⟨x0, x1, x2, x3, x4, x5, x6, x7, x8, x9, x10, x11, x12, x13, x14, x15, x16, x17, x18, x19, x20, x21,
    x22, x23, x24, x25, x26, x27, x28, x29, x30, x31, x32, x33, x34, x35, x36, x37, x38, x39⟩ =
    KeepsAs q b x0 ⟨x1, x2, x4, x6, x8, x3.sealed, x14, x15, x17, x34, x35, x36, x37, x38⟩
      x23.host x23.hbm x23.ssram x23.peer :=
  propext ⟨fun h => ⟨h.pending, h.quiet, h.mem⟩, fun h => ⟨h.pending, h.quiet, h.mem⟩⟩

/-- One memory changes and keeps its form. -/
theorem Keeps.host {s t : State} {x : Tbl Byte} (h : Keeps false s t) (hx : tblWf t.mem.host = true → tblWf x = true)
    :
    KeepsAs false s t.pending
      ⟨t.fuse, t.flash, t.mbox, t.feat, t.regs, t.boot.sealed, t.pat, t.jd, t.tap, t.smb, t.readOut, t.tick, t.sclk,
    t.hclk⟩
      x t.mem.hbm t.mem.ssram t.mem.peer :=
  ⟨h.pending, h.quiet, fun w => have k := h.mem w; ⟨hx k.1, k.2⟩⟩

theorem Keeps.hbm {s t : State} {x : Tbl Byte} (h : Keeps false s t) (hx : tblWf t.mem.hbm = true → tblWf x = true) :
    KeepsAs false s t.pending
      ⟨t.fuse, t.flash, t.mbox, t.feat, t.regs, t.boot.sealed, t.pat, t.jd, t.tap, t.smb, t.readOut, t.tick, t.sclk,
    t.hclk⟩
      t.mem.host x t.mem.ssram t.mem.peer :=
  ⟨h.pending, h.quiet, fun w => have k := h.mem w; ⟨k.1, hx k.2.1, k.2.2⟩⟩

theorem Keeps.ssram {s t : State} {x : Tbl Byte} (h : Keeps false s t) (hx : tblWf t.mem.ssram = true → tblWf x =
    true) :
    KeepsAs false s t.pending
      ⟨t.fuse, t.flash, t.mbox, t.feat, t.regs, t.boot.sealed, t.pat, t.jd, t.tap, t.smb, t.readOut, t.tick, t.sclk,
    t.hclk⟩
      t.mem.host t.mem.hbm x t.mem.peer :=
  ⟨h.pending, h.quiet, fun w => have k := h.mem w; ⟨k.1, k.2.1, hx k.2.2.1, k.2.2.2⟩⟩

theorem Keeps.peer {s t : State} {x : Tbl Byte} (h : Keeps false s t) (hx : tblWf t.mem.peer = true → tblWf x = true)
    :
    KeepsAs false s t.pending
      ⟨t.fuse, t.flash, t.mbox, t.feat, t.regs, t.boot.sealed, t.pat, t.jd, t.tap, t.smb, t.readOut, t.tick, t.sclk,
    t.hclk⟩
      t.mem.host t.mem.hbm t.mem.ssram x :=
  ⟨h.pending, h.quiet, fun w => have k := h.mem w; ⟨k.1, k.2.1, k.2.2.1, hx k.2.2.2⟩⟩

/-- What also the rows that write quiet parts keep: the queue, the fused facts, the canonical forms, and, where `t` is
sealed, the seal and the bits it locked. -/
structure Retains (s t : State) : Prop where
  pending : t.pending = s.pending
  fuse : t.fuse = s.fuse
  mem : s.mem.wf = true → t.mem.wf = true
  regs : RegsWf s → RegsWf t
  lock : RegsWf s → t.boot.sealed = true → s.boot.sealed = true ∧ ∀ off, lockedBits t off = lockedBits s off

theorem Retains.refl (s : State) : Retains s s := ⟨rfl, rfl, id, id, fun _ h => ⟨h, fun _ => rfl⟩⟩

theorem Retains.trans {s t u : State} (h : Retains s t) (k : Retains t u) : Retains s u where
  pending := k.pending.trans h.pending
  fuse := k.fuse.trans h.fuse
  mem w := k.mem (h.mem w)
  regs w := k.regs (h.regs w)
  lock w e := by
    obtain ⟨e1, l1⟩ := k.lock (h.regs w) e
    obtain ⟨e2, l2⟩ := h.lock w e1
    exact ⟨e2, fun off => (l1 off).trans (l2 off)⟩

theorem Retains.parts {s t : State} (h : Retains s t) (w : s.mem.wf = true) :
    tblWf t.mem.host = true ∧ tblWf t.mem.hbm = true ∧ tblWf t.mem.ssram = true ∧ tblWf t.mem.peer = true :=
  (Memory.wf_iff _).1 (h.mem w)

/-- A change of other parts. -/
theorem Retains.fields {s t u : State} (h : Retains s t) (hp : u.pending = t.pending) (hf : u.fuse = t.fuse)
    (hm : u.mem = t.mem) (hr : u.regs = t.regs) (hb : u.boot.sealed = t.boot.sealed) : Retains s u :=
  h.trans ⟨hp, hf, fun w => hm ▸ w, fun w => by simpa [RegsWf, hr] using w,
    fun _ e => ⟨hb ▸ e, fun off => by simp [lockedBits, reg, hr]⟩⟩

/-- `Retains` of a state that has these parts. -/
structure RetainsAs (s : State) (p : List Instr) (f : Fuse) (m : Memory) (words : Tbl W32) (locked : Bool) : Prop
    where
  pending : p = s.pending
  fuse : f = s.fuse
  mem : s.mem.wf = true → m.wf = true
  regs : RegsWf s → tblWf words = true
  lock : RegsWf s → locked = true → s.boot.sealed = true ∧ ∀ off,
    Nat.land (match tblGet? words off with
      | some w => w.toNat
      | none => (regSpec off).reset) (regSpec off).rwl = lockedBits s off

/-- Those parts stand in a state that retains. -/
theorem Retains.as {s t : State} (h : Retains s t) : RetainsAs s t.pending t.fuse t.mem t.regs t.boot.sealed :=
  ⟨h.pending, h.fuse, h.mem, h.regs, h.lock⟩

/-- A state built field by field. -/
theorem retains_mk (b : State) (x0 : List Instr) (x1 : Fuse) (x2 : Flash) (x3 : Boot) (x4 : Mbox) (x5 : Link) (x6 :
    Feat) (x7 : Tbl Limits) (x8 : Tbl W32) (x9 : Tbl W32) (x10 : Tbl Bool) (x11 : Tbl Nat) (x12 : Etu) (x13 : Tbl
    Inst) (x14 : Tbl Pat) (x15 : Tbl Jd) (x16 : Power) (x17 : Tap) (x18 : Tbl Ring) (x19 : Arb) (x20 : List Run) (x21
    : RaCount) (x22 : Events) (x23 : Memory) (x24 : Tbl Arr) (x25 : Tbl Collector) (x26 : Tbl Tile) (x27 : Maquette)
    (x28 : Coding) (x29 : Fronthaul) (x30 : Converters) (x31 : Tbl Core) (x32 : Errors) (x33 : Tbl Bool) (x34 : List
    Byte) (x35 : W32) (x36 : Nat) (x37 : Nat) (x38 : Nat) (x39 : Nat) :
    Retains b ⟨x0, x1, x2, x3, x4, x5, x6, x7, x8, x9, x10, x11, x12, x13, x14, x15, x16, x17, x18, x19, x20, x21,
    x22, x23, x24, x25, x26, x27, x28, x29, x30, x31, x32, x33, x34, x35, x36, x37, x38, x39⟩ =
    RetainsAs b x0 x1 x23 x8 x3.sealed :=
  propext ⟨fun h => ⟨h.pending, h.fuse, h.mem, h.regs, h.lock⟩, fun h => ⟨h.pending, h.fuse, h.mem, h.regs, h.lock⟩⟩

/-- What keeps the quiet parts retains. -/
theorem Keeps.retains {q : Bool} {s t : State} (h : Keeps q s t) : Retains s t where
  pending := h.pending
  fuse := congrArg QuietParts.fuse h.quiet
  mem := h.mem.wf
  regs w := by
    have e : t.regs = s.regs := congrArg QuietParts.regs h.quiet
    unfold RegsWf; rw [e]; exact w
  lock _ k := by
    have e : t.boot.sealed = s.boot.sealed := congrArg QuietParts.sealed h.quiet
    have r : t.regs = s.regs := congrArg QuietParts.regs h.quiet
    exact ⟨e ▸ k, fun off => by unfold lockedBits reg; rw [r]⟩

theorem Retains.keeps {q : Bool} {s t u : State} (h : Retains s t) (k : Keeps q t u) : Retains s u := h.trans
    k.retains

theorem Retains.of_foldl {α : Type} {s t : State} (f : State → α → State) (l : List α) (h : Retains s t)
    (hf : ∀ u a, Retains s u → Retains s (f u a)) : Retains s (l.foldl f t) := by
  induction l generalizing t with
  | nil => exact h
  | cons a l ih => exact ih (hf t a h)

/-- `Retains` of the state that a command answers. -/
structure OutRetains (s : State) (o : Host.Outcome State Fault Refusal) : Prop where
  out : ∀ t, o = .next t → Retains s t

theorem OutRetains.done {s t : State} (h : Retains s t) : OutRetains s (done t) :=
  ⟨fun _ e => Host.Outcome.next.inj e ▸ h⟩

theorem OutRetains.of {s t : State} {o : Host.Outcome State Fault Refusal} (e : o = .next t) (h : OutRetains s o) :
    Retains s t := h.out t e

theorem OutRetains.after {q : Bool} {s t : State} {o : Host.Outcome State Fault Refusal} (h : Retains s t)
    (k : OutKeeps q t o) : OutRetains s o := ⟨fun u e => h.keeps (k.out u e)⟩

/-- `Retains` of a state that may not be answered. -/
structure OptRetains (s : State) (o : Option State) : Prop where
  out : ∀ t, o = some t → Retains s t

theorem OptRetains.of_none (s : State) : OptRetains s none := ⟨fun _ e => nomatch e⟩

theorem OptRetains.of_some {s t : State} (h : Retains s t) : OptRetains s (some t) :=
  ⟨fun _ e => Option.some.inj e ▸ h⟩

theorem OptRetains.after {q : Bool} {s t : State} {o : Option State} (h : Retains s t) (k : OptKeeps q t o) :
    OptRetains s o := ⟨fun u e => h.keeps (k.out u e)⟩

/-- `Retains` but for the seal, which a step may set (what was locked before it stays), and, where `p` holds, for the
fused security version, which may rise to that of the running image. -/
structure SealKeeps (p : Prop) (s t : State) : Prop where
  pending : t.pending = s.pending
  fuse : t.fuse = { s.fuse with svn := t.fuse.svn }
  svn : t.fuse.svn = s.fuse.svn ∨ (p ∧ t.fuse.svn = max s.fuse.svn s.boot.runSvn)
  mem : s.mem.wf = true → t.mem.wf = true
  regs : RegsWf s → RegsWf t
  lock : RegsWf s → s.boot.sealed = true → t.boot.sealed = true → ∀ off, lockedBits t off = lockedBits s off

theorem Retains.toSeal {p : Prop} {s t : State} (h : Retains s t) : SealKeeps p s t :=
  ⟨h.pending, by rw [h.fuse], .inl (by rw [h.fuse]), h.mem, h.regs, fun w _ e => (h.lock w e).2⟩

theorem SealKeeps.mono {p q : Prop} {s t : State} (h : SealKeeps p s t) (f : p → q) : SealKeeps q s t :=
  ⟨h.pending, h.fuse, h.svn.imp_right fun e => ⟨f e.1, e.2⟩, h.mem, h.regs, h.lock⟩

theorem SealKeeps.trans_retains {p : Prop} {s t u : State} (h : SealKeeps p s t) (k : Retains t u) :
    SealKeeps p s u where
  pending := k.pending.trans h.pending
  fuse := by rw [k.fuse]; exact h.fuse
  svn := by rw [k.fuse]; exact h.svn
  mem w := k.mem (h.mem w)
  regs w := k.regs (h.regs w)
  lock w e1 e2 off := by
    obtain ⟨e3, l⟩ := k.lock (h.regs w) e2
    exact (l off).trans (h.lock w e1 e3 off)

end Sys2Proof.Machine
end

