-- ==== Sys2Proof/Laws/Registers.lean ====
section
/-! SUPPORT. The stored register words: reading what was stored, the masks of every word, and the locked bits that a masked
write keeps (R7, R8, R425). -/
namespace Sys2Proof.Machine

theorem ofNat_land (x y : Nat) : BitVec.ofNat 32 (Nat.land x y) = BitVec.ofNat 32 x &&& BitVec.ofNat 32 y := by
  apply BitVec.eq_of_toNat_eq
  show Nat.land x y % 2 ^ 32 = (x % 2 ^ 32) &&& (y % 2 ^ 32)
  exact Nat.and_mod_two_pow

/-- Bits that a masked write leaves out keep their value. -/
theorem mergeMask_land (old new m l : Nat) (hl : l < 2 ^ 32) (hml : Nat.land m l = 0) :
    Nat.land ((BitVec.ofNat 32 (mergeMask old new m)).toNat) l = Nat.land old l := by
  have e1 : Nat.land ((BitVec.ofNat 32 (mergeMask old new m)).toNat) l =
      (BitVec.ofNat 32 (mergeMask old new m) &&& BitVec.ofNat 32 l).toNat := by
    rw [BitVec.toNat_and, BitVec.toNat_ofNat (x := l), Nat.mod_eq_of_lt hl]; rfl
  have e2 : Nat.land old l = (BitVec.ofNat 32 old &&& BitVec.ofNat 32 l).toNat := by
    rw [← ofNat_land, BitVec.toNat_ofNat, Nat.mod_eq_of_lt]
    exact lt_of_le_of_lt Nat.and_le_right hl
  have hm : BitVec.ofNat 32 m &&& BitVec.ofNat 32 l = 0#32 := by rw [← ofNat_land, hml]
  have hx : BitVec.ofNat 32 (Nat.xor 0xFFFFFFFF m) = ~~~ (BitVec.ofNat 32 m) := by
    have : BitVec.ofNat 32 (Nat.xor 0xFFFFFFFF m) = BitVec.ofNat 32 0xFFFFFFFF ^^^ BitVec.ofNat 32 m := by
      apply BitVec.eq_of_toNat_eq
      exact Nat.xor_mod_two_pow
    rw [this]
    exact (BitVec.allOnes_xor)
  rw [e1, e2]
  congr 1
  unfold mergeMask
  rw [BitVec.ofNat_add, ofNat_land, ofNat_land, hx, BitVec.add_eq_or_of_and_eq_zero]
  · generalize BitVec.ofNat 32 m = M at *
    generalize BitVec.ofNat 32 l = L at *
    generalize BitVec.ofNat 32 old = O at *
    generalize BitVec.ofNat 32 new = N at *
    apply BitVec.eq_of_getLsbD_eq
    intro i hi
    have := congrArg (fun x => x.getLsbD i) hm
    simp only [BitVec.getLsbD_and, BitVec.getLsbD_or, BitVec.getLsbD_not, BitVec.getLsbD_zero, hi, decide_true,
      Bool.true_and] at this ⊢
    revert this
    cases N.getLsbD i <;> cases M.getLsbD i <;> cases L.getLsbD i <;> cases O.getLsbD i <;> simp
  · apply BitVec.eq_of_getLsbD_eq
    intro i hi
    simp only [BitVec.getLsbD_and, BitVec.getLsbD_not, BitVec.getLsbD_zero, hi, decide_true, Bool.true_and]
    cases BitVec.getLsbD (BitVec.ofNat 32 m) i <;> simp

/-- The locked bits of a word are among those that software sets, and its reset value is a word. -/
def MasksOk (r : RegSpec) : Prop :=
  r.rwl < 2 ^ 32 ∧ Nat.land (Nat.xor r.rw r.rwl) r.rwl = 0 ∧ r.reset < 2 ^ 32

theorem masksOk_unlocked (a b c : Nat) (hc : c < 2 ^ 32) : MasksOk { rw := a, rws := b, rwl := 0, reset := c } :=
  ⟨by norm_num, Nat.and_zero _, hc⟩

theorem masksOk_rwReg (m r : Nat) (hr : r < 2 ^ 32) : MasksOk (rwReg m r) := masksOk_unlocked _ _ _ hr

theorem masksOk_rwsReg (m r : Nat) (hr : r < 2 ^ 32) : MasksOk (rwsReg m r) := masksOk_unlocked _ _ _ hr

theorem masksOk_rwlReg (m r : Nat) (h : m < 2 ^ 32) (hr : r < 2 ^ 32) : MasksOk (rwlReg m r) := by
  refine ⟨h, ?_, hr⟩
  show Nat.land (m ^^^ m) m = 0
  rw [Nat.xor_self]
  exact Nat.zero_and _

theorem masksOk_ite {c : Prop} [Decidable c] {a b : RegSpec} (ha : MasksOk a) (hb : MasksOk b) :
    MasksOk (if c then a else b) := by
  split
  · exact ha
  · exact hb

theorem refCfgReset_lt (n : Nat) : refCfgReset n < 2 ^ 32 := by
  unfold refCfgReset
  split <;> norm_num

theorem jdCfgReset_lt (n : Nat) : jdCfgReset n < 2 ^ 32 := by
  unfold jdCfgReset
  split
  · omega
  · split
    · omega
    · split <;> omega

theorem specEtu_masks (o : Nat) : MasksOk (specEtu o) := by
  unfold specEtu
  repeat' first
    | with_reducible exact masksOk_rwsReg _ _ (refCfgReset_lt _)
    | with_reducible exact masksOk_rwReg _ _ (by norm_num)
    | with_reducible exact masksOk_rwsReg _ _ (by norm_num)
    | with_reducible exact masksOk_unlocked _ _ _ (by norm_num)
    | with_reducible apply masksOk_ite
    | split
    | (refine ⟨?_, ?_, ?_⟩ <;> decide)

theorem specFh_masks (o : Nat) : MasksOk (specFh o) := by
  unfold specFh specCarrier
  dsimp only
  repeat' first
    | with_reducible exact masksOk_rwReg _ _ (by omega)
    | exact ⟨by norm_num, by show Nat.land (Nat.xor 0x3FFF001F 0xF) 0xF = 0; decide, by show 1500 * 2 ^ 16 + _ % 16 < 2 ^ 32; omega⟩
    | with_reducible exact masksOk_rwReg _ _ (by norm_num)
    | with_reducible exact masksOk_unlocked _ _ _ (by norm_num)
    | with_reducible apply masksOk_ite
    | split

theorem specCv_masks (o : Nat) : MasksOk (specCv o) := by
  unfold specCv specLink
  repeat' first
    | with_reducible exact masksOk_rwReg _ _ (by norm_num)
    | with_reducible exact masksOk_unlocked _ _ _ (by norm_num)
    | with_reducible apply masksOk_ite
    | split

theorem regSpec_masks (off : Nat) : MasksOk (regSpec off) := by
  unfold regSpec specGlb specFeat specRing specEvx specPwr specMon specErr specMem specXlt specLay specPa specCe specMq
  dsimp only
  split <;> first
    | exact specEtu_masks _
    | exact specFh_masks _
    | exact specCv_masks _
    | repeat' first
        | with_reducible exact masksOk_rwReg _ _ (jdCfgReset_lt _)
        | with_reducible exact masksOk_rwReg _ _ (by norm_num)
        | with_reducible exact masksOk_rwsReg _ _ (by norm_num)
        | with_reducible exact masksOk_rwlReg _ _ (by norm_num) (by norm_num)
        | with_reducible exact masksOk_unlocked _ _ _ (by norm_num)
        | with_reducible apply masksOk_ite
        | split

/-- The table of a stored word. -/
theorem tblGet?_putReg_same {s : State} (h : RegsWf s) (off w : Nat) :
    tblGet? (putReg s off w).regs off = if w = (regSpec off).reset then none else some (BitVec.ofNat 32 w) := by
  unfold putReg
  dsimp only
  split
  · exact tblGet?_del_same h off
  · exact tblGet?_put_same _ _ _

/-- The other words stay as they were. -/
theorem tblGet?_putReg_other {s : State} (h : RegsWf s) {off k : Nat} (w : Nat) (hk : k ≠ off) :
    tblGet? (putReg s off w).regs k = tblGet? s.regs k := by
  unfold putReg
  dsimp only
  split
  · exact tblGet?_del_other h hk
  · exact tblGet?_put_other _ _ hk

theorem reg_putReg_other {s : State} (h : RegsWf s) {off k : Nat} (w : Nat) (hk : k ≠ off) :
    reg (putReg s off w) k = reg s k := by
  unfold reg
  rw [tblGet?_putReg_other h w hk]

/-- What a word reads after it is stored. -/
theorem reg_putReg_same {s : State} (h : RegsWf s) (off w : Nat) (hw : w < 2 ^ 32) : reg (putReg s off w) off = w := by
  unfold reg
  rw [tblGet?_putReg_same h]
  by_cases e : w = (regSpec off).reset
  · rw [if_pos e]; exact e.symm
  · rw [if_neg e]; exact Nat.mod_eq_of_lt hw

theorem regsWf_putReg {s : State} (h : RegsWf s) (off w : Nat) : RegsWf (putReg s off w) := by
  unfold RegsWf putReg
  dsimp only
  split
  · exact tblWf_del h _
  · exact tblWf_put h _ _

/-- A masked write keeps the bits that are locked. -/
theorem mergeReg_retains {b t : State} (off val : Nat) (h : Retains b t) : Retains b (mergeReg t off val) := by
  refine h.trans ?_
  unfold mergeReg
  dsimp only
  by_cases hz : (if t.boot.sealed = true then (regSpec off).rw.xor (regSpec off).rwl else (regSpec off).rw) = 0
  · rw [if_pos hz]; exact Retains.refl _
  rw [if_neg hz]
  refine ⟨rfl, rfl, id, fun w => regsWf_putReg w _ _, ?_⟩
  intro w e
  have es : t.boot.sealed = true := e
  refine ⟨es, fun k => ?_⟩
  unfold lockedBits
  by_cases hk : k = off
  · subst hk
    obtain ⟨hl, hm, hr⟩ := regSpec_masks k
    rw [if_pos es]
    have key := mergeMask_land (reg t k) val ((regSpec k).rw.xor (regSpec k).rwl) (regSpec k).rwl hl hm
    rw [← key]
    congr 1
    generalize mergeMask (reg t k) val ((regSpec k).rw.xor (regSpec k).rwl) = w'
    unfold reg
    rw [tblGet?_putReg_same w]
    by_cases e1 : w' = (regSpec k).reset
    · rw [if_pos e1]
      dsimp only
      rw [e1, BitVec.toNat_ofNat, Nat.mod_eq_of_lt hr]
    · rw [if_neg e1]
  · rw [reg_putReg_other w _ hk]

end Sys2Proof.Machine
end

