-- ==== Sys2Proof/Laws/Flags.lean ====
section
/-! SUPPORT. What the operations and rows of Sys2Proof/Machine/Flags.lean keep: `Keeps true` stores nothing, `Keeps q` for
every q likewise, `Keeps false` may store; `Retains` is said of the rows that write a quiet part. -/
namespace Sys2Proof.Machine

theorem collect_keeps {q : Bool} {b t : State} (v : Nat) (h : Keeps q b t) : Keeps q b (collect t v) := by
  unfold collect
  repeat' first
    | with_reducible assumption
    | intro _
    | (with_reducible apply Keeps.of_pair; with_reducible assumption)
    | with_reducible apply Keeps.of_foldl
    | dsimp only
    | simp only [keeps_mk]
    | (with_reducible refine Keeps.parts ?_)
    | split

theorem bump_keeps {q : Bool} {b t : State} (id : Nat) (h : Keeps q b t) : Keeps q b (bump t id) := by
  unfold bump
  repeat' first
    | with_reducible assumption
    | simp only [keeps_mk]
    | (with_reducible refine Keeps.parts ?_)

theorem bumpMisrouted_keeps {q : Bool} {b t : State} (h : Keeps q b t) : Keeps q b (bumpMisrouted t) := by
  unfold bumpMisrouted
  repeat' first
    | with_reducible assumption
    | with_reducible apply collect_keeps
    | with_reducible apply bump_keeps
    | intro _
    | (with_reducible apply Keeps.of_pair; with_reducible assumption)
    | with_reducible apply Keeps.of_foldl
    | dsimp only
    | simp only [keeps_mk]
    | (with_reducible refine Keeps.parts ?_)
    | split

theorem misrouted_keeps {q : Bool} {b t : State} (h : Keeps q b t) : Keeps q b (misrouted t) := by
  unfold misrouted
  repeat' first
    | with_reducible assumption
    | with_reducible apply collect_keeps
    | with_reducible apply bump_keeps
    | with_reducible apply bumpMisrouted_keeps
    | intro _
    | (with_reducible apply Keeps.of_pair; with_reducible assumption)
    | with_reducible apply Keeps.of_foldl
    | dsimp only
    | simp only [keeps_mk]
    | (with_reducible refine Keeps.parts ?_)
    | split

theorem requestPf_keeps {q : Bool} {b t : State} (v : Nat) (h : Keeps q b t) : Keeps q b (requestPf t v) := by
  unfold requestPf
  repeat' first
    | with_reducible assumption
    | with_reducible apply collect_keeps
    | with_reducible apply misrouted_keeps
    | split

theorem requestRow_keeps {q : Bool} {b t : State} (id : Nat) (h : Keeps q b t) : Keeps q b (requestRow t id) := by
  unfold requestRow
  repeat' first
    | with_reducible assumption
    | with_reducible apply requestPf_keeps
    | split

theorem setFlag_keeps {q : Bool} {b t : State} (id : Nat) (h : Keeps q b t) : Keeps q b (setFlag t id) := by
  unfold setFlag
  repeat' first
    | with_reducible assumption
    | with_reducible apply bump_keeps
    | with_reducible apply requestRow_keeps
    | dsimp only
    | split

theorem setFlags_keeps {q : Bool} {b t : State} (ids : List Nat) (h : Keeps q b t) : Keeps q b (setFlags t ids) :=
    by
  unfold setFlags
  repeat' first
    | with_reducible assumption
    | intro _
    | with_reducible apply setFlag_keeps
    | with_reducible apply Keeps.of_foldl

theorem setFlagIf_keeps {q : Bool} {b t : State} (c : Bool) (id : Nat) (h : Keeps q b t) : Keeps q b (setFlagIf c id
    t) := by
  unfold setFlagIf
  repeat' first
    | with_reducible assumption
    | with_reducible apply setFlag_keeps
    | split

theorem clearFlag_keeps {q : Bool} {b t : State} (id : Nat) (h : Keeps q b t) : Keeps q b (clearFlag t id) := by
  unfold clearFlag
  repeat' first
    | with_reducible assumption
    | simp only [keeps_mk]
    | (with_reducible refine Keeps.parts ?_)

theorem clearRow_keeps {q : Bool} {b t : State} (base : Nat) (mask : Nat) (h : Keeps q b t) : Keeps q b (clearRow t
    base mask) := by
  unfold clearRow
  repeat' first
    | with_reducible assumption
    | simp only [keeps_mk]
    | (with_reducible refine Keeps.parts ?_)

theorem requestVec_keeps {q : Bool} {b t : State} (fn : Nat) (v : Nat) (h : Keeps q b t) : Keeps q b (requestVec t
    fn v) := by
  unfold requestVec
  repeat' first
    | with_reducible assumption
    | with_reducible apply collect_keeps
    | with_reducible apply requestPf_keeps
    | split

end Sys2Proof.Machine
end

