-- ==== Sys2Proof/Laws/Ops.lean ====
section
/-! SUPPORT. What the operations and rows of Sys2Proof/Machine/Ops.lean keep: `Keeps true` stores nothing, `Keeps q` for
every q likewise, `Keeps false` may store; `Retains` is said of the rows that write a quiet part. -/
namespace Sys2Proof.Machine

theorem takeChoice_keeps {q : Bool} {b t : State} (h : Keeps q b t) : Keeps q b (takeChoice t) := by
  unfold takeChoice
  repeat' first
    | with_reducible assumption
    | simp only [keeps_mk]
    | (with_reducible refine Keeps.parts ?_)

theorem setInst_keeps {q : Bool} {b t : State} (n : Nat) (i : Inst) (h : Keeps q b t) : Keeps q b (setInst t n i) :=
    by
  unfold setInst
  repeat' first
    | with_reducible assumption
    | simp only [keeps_mk]
    | (with_reducible refine Keeps.parts ?_)

theorem pushLog_keeps {q : Bool} {b t : State} (e : LogEntry) (h : Keeps q b t) : Keeps q b (pushLog t e) := by
  unfold pushLog
  repeat' first
    | with_reducible assumption
    | dsimp only
    | simp only [keeps_mk]
    | (with_reducible refine Keeps.parts ?_)

theorem logEvent_keeps {q : Bool} {b t : State} (code : Nat) (index : Nat) (arg0 : Nat) (arg1 : Nat) (h : Keeps q b
    t) : Keeps q b (logEvent t code index arg0 arg1) := by
  unfold logEvent
  repeat' first
    | with_reducible assumption
    | with_reducible apply pushLog_keeps

theorem corrected_keeps {q : Bool} {b t : State} (typ : Nat) (idx : Nat) (count : Nat) (h : Keeps q b t) : Keeps q b
    (corrected t typ idx count) := by
  unfold corrected
  repeat' first
    | with_reducible assumption
    | with_reducible apply logEvent_keeps
    | split

theorem updateFloor_keeps {q : Bool} {b t : State} (h : Keeps q b t) : Keeps q b (updateFloor t) := by
  unfold updateFloor
  repeat' first
    | with_reducible assumption
    | with_reducible apply setFlag_keeps
    | dsimp only
    | simp only [keeps_mk]
    | (with_reducible refine Keeps.parts ?_)
    | split

theorem recap_keeps {q : Bool} {b t : State} (h : Keeps q b t) : Keeps q b (recap t) := by
  unfold recap
  repeat' first
    | with_reducible assumption
    | with_reducible apply updateFloor_keeps
    | dsimp only
    | simp only [keeps_mk]
    | (with_reducible refine Keeps.parts ?_)
    | split

theorem setEvc_keeps {q : Bool} {b t : State} (n : Nat) (e : Evc) (h : Keeps q b t) : Keeps q b (setEvc t n e) := by
  unfold setEvc
  repeat' first
    | with_reducible assumption
    | dsimp only
    | simp only [keeps_mk]
    | (with_reducible refine Keeps.parts ?_)

theorem evcAdd_keeps {q : Bool} {b t : State} (n : Nat) (v : W32) (h : Keeps q b t) : Keeps q b (evcAdd t n v) := by
  unfold evcAdd
  repeat' first
    | with_reducible assumption
    | with_reducible apply setEvc_keeps
    | dsimp only
    | split

theorem evcSet_keeps {q : Bool} {b t : State} (n : Nat) (v : W32) (adds : List W32) (h : Keeps q b t) : Keeps q b
    (evcSet t n v adds) := by
  unfold evcSet
  repeat' first
    | with_reducible assumption
    | with_reducible apply setEvc_keeps

theorem arrive_keeps {q : Bool} {b t : State} (input : Nat) (h : Keeps q b t) : Keeps q b (arrive t input) := by
  unfold arrive
  repeat' first
    | with_reducible assumption
    | dsimp only
    | simp only [keeps_mk]
    | (with_reducible refine Keeps.parts ?_)

end Sys2Proof.Machine
end

