-- ==== Sys2Proof/Laws/Radio.lean ====
section
/-! SUPPORT. What the operations and rows of Sys2Proof/Machine/Radio.lean keep: `Keeps true` stores nothing, `Keeps q` for
every q likewise, `Keeps false` may store; `Retains` is said of the rows that write a quiet part. -/
namespace Sys2Proof.Machine

theorem setTile_keeps {q : Bool} {b t : State} (t' : Nat) (x : Tile) (h : Keeps q b t) : Keeps q b (setTile t t' x)
    := by
  unfold setTile
  repeat' first
    | with_reducible assumption
    | simp only [keeps_mk]
    | (with_reducible refine Keeps.parts ?_)

theorem tileStore_keeps {q : Bool} {b t : State} (t' : Nat) (a : Nat) (bytes : List Byte) (who : Nat) (h : Keeps q b
    t) : Keeps q b (tileStore t t' a bytes who) := by
  unfold tileStore
  repeat' first
    | with_reducible assumption
    | with_reducible apply setTile_keeps

theorem ingressStore_keeps {q : Bool} {b t : State} (t' : Nat) (a : Nat) (bytes : List Byte) (h : Keeps q b t) :
    Keeps q b (ingressStore t t' a bytes) := by
  unfold ingressStore
  repeat' first
    | with_reducible assumption
    | with_reducible apply tileStore_keeps
    | split

theorem setCarrier_keeps {q : Bool} {b t : State} (c : Nat) (x : Carrier) (h : Keeps q b t) : Keeps q b (setCarrier
    t c x) := by
  unfold setCarrier
  repeat' first
    | with_reducible assumption
    | dsimp only
    | simp only [keeps_mk]
    | (with_reducible refine Keeps.parts ?_)

theorem openSlot_keeps {q : Bool} {b t : State} (p : Placed) (sfn : Nat) (slot : Nat) (h : Keeps q b t) : Keeps q b
    (openSlot t p sfn slot) := by
  unfold openSlot
  repeat' first
    | with_reducible assumption
    | intro _
    | with_reducible apply ingressStore_keeps
    | with_reducible apply Keeps.of_foldl
    | split

theorem markSymbol_keeps {q : Bool} {b t : State} (p : Placed) (sfn : Nat) (slot : Nat) (sym : Nat) (v : Nat) (h :
    Keeps q b t) : Keeps q b (markSymbol t p sfn slot sym v) := by
  unfold markSymbol
  repeat' first
    | with_reducible assumption
    | intro _
    | with_reducible apply ingressStore_keeps
    | with_reducible apply openSlot_keeps
    | with_reducible apply Keeps.of_foldl
    | dsimp only
    | split

theorem noteSymbol_keeps {q : Bool} {b t : State} (c : Nat) (sfn : Nat) (slot : Nat) (v : Nat) (h : Keeps q b t) :
    Keeps q b (noteSymbol t c sfn slot v) := by
  unfold noteSymbol
  repeat' first
    | with_reducible assumption
    | intro _
    | (with_reducible apply Keeps.of_pair; with_reducible assumption)
    | with_reducible apply Keeps.of_foldl
    | dsimp only
    | simp only [keeps_mk]
    | (with_reducible refine Keeps.parts ?_)
    | split

theorem symbolStatus_keeps {q : Bool} {b t : State} (c : Nat) (p : Placed) (sfn : Nat) (slot : Nat) (sym : Nat) (v :
    Nat) (h : Keeps q b t) : Keeps q b (symbolStatus t c p sfn slot sym v) := by
  unfold symbolStatus
  repeat' first
    | with_reducible assumption
    | with_reducible apply markSymbol_keeps
    | with_reducible apply noteSymbol_keeps

theorem setPort_keeps {q : Bool} {b t : State} (p : Nat) (x : Port) (h : Keeps q b t) : Keeps q b (setPort t p x) :=
    by
  unfold setPort
  repeat' first
    | with_reducible assumption
    | dsimp only
    | simp only [keeps_mk]
    | (with_reducible refine Keeps.parts ?_)

theorem countPort_keeps {q : Bool} {b t : State} (p : Nat) (k : Nat) (h : Keeps q b t) : Keeps q b (countPort t p k)
    := by
  unfold countPort
  repeat' first
    | with_reducible assumption
    | with_reducible apply setPort_keeps

theorem dropRx_keeps {q : Bool} {b t : State} (p : Nat) (k : Nat) (h : Keeps q b t) : Keeps q b (dropRx t p k) := by
  unfold dropRx
  repeat' first
    | with_reducible assumption
    | with_reducible apply setFlag_keeps
    | with_reducible apply countPort_keeps

theorem dropTx_keeps {q : Bool} {b t : State} (p : Nat) (k : Nat) (h : Keeps q b t) : Keeps q b (dropTx t p k) := by
  unfold dropTx
  repeat' first
    | with_reducible assumption
    | with_reducible apply setFlagIf_keeps
    | with_reducible apply countPort_keeps
    | with_reducible apply setFlag_keeps
    | intro _
    | (with_reducible apply Keeps.of_pair; with_reducible assumption)
    | with_reducible apply Keeps.of_foldl
    | dsimp only
    | simp only [keeps_mk]
    | (with_reducible refine Keeps.parts ?_)
    | split

theorem noteMsg_keeps {q : Bool} {b t : State} (ring : Nat) (k : Nat) (sent : Bool) (h : Keeps q b t) : Keeps q b
    (noteMsg t ring k sent) := by
  unfold noteMsg
  repeat' first
    | with_reducible assumption
    | simp only [keeps_mk]
    | (with_reducible refine Keeps.parts ?_)

theorem discardFrames_keeps {q : Bool} {b t : State} (p : Nat) (k : Nat) (which : EgFrame → Bool) (h : Keeps q b t)
    : Keeps q b (discardFrames t p k which) := by
  unfold discardFrames
  repeat' first
    | with_reducible assumption
    | intro _
    | with_reducible apply setPort_keeps
    | with_reducible apply dropTx_keeps
    | with_reducible apply noteMsg_keeps
    | with_reducible apply Keeps.of_foldl

theorem discardMsgs_keeps {q : Bool} {b t : State} (which : EgFrame → Bool) (h : Keeps q b t) : Keeps q b (discardMsgs
    t which) := by
  unfold discardMsgs
  repeat' first
    | with_reducible assumption
    | with_reducible apply discardFrames_keeps
    | intro _
    | (with_reducible apply Keeps.of_pair; with_reducible assumption)
    | with_reducible apply Keeps.of_foldl
    | dsimp only
    | simp only [keeps_mk]
    | (with_reducible refine Keeps.parts ?_)
    | split

theorem closeCarrier_keeps {q : Bool} {b t : State} (c : Nat) (h : Keeps q b t) : Keeps q b (closeCarrier t c) := by
  unfold closeCarrier
  repeat' first
    | with_reducible assumption
    | with_reducible apply setCarrier_keeps
    | with_reducible apply discardMsgs_keeps
    | with_reducible apply discardFrames_keeps
    | intro _
    | (with_reducible apply Keeps.of_pair; with_reducible assumption)
    | with_reducible apply Keeps.of_foldl
    | dsimp only
    | simp only [keeps_mk]
    | (with_reducible refine Keeps.parts ?_)
    | split

theorem narrowCarrier_keeps {q : Bool} {b t : State} (c : Nat) (h : Keeps q b t) : Keeps q b (narrowCarrier t c) := by
  unfold narrowCarrier
  repeat' first
    | with_reducible assumption
    | with_reducible apply setCarrier_keeps
    | with_reducible apply discardMsgs_keeps
    | intro _
    | (with_reducible apply Keeps.of_pair; with_reducible assumption)
    | with_reducible apply Keeps.of_foldl
    | dsimp only
    | simp only [keeps_mk]
    | (with_reducible refine Keeps.parts ?_)
    | split

theorem closeCarriers_keeps {q : Bool} {b t : State} (h : Keeps q b t) : Keeps q b (closeCarriers t) := by
  unfold closeCarriers
  repeat' first
    | with_reducible assumption
    | with_reducible apply narrowCarrier_keeps
    | with_reducible apply closeCarrier_keeps
    | intro _
    | (with_reducible apply Keeps.of_pair; with_reducible assumption)
    | with_reducible apply Keeps.of_foldl
    | dsimp only
    | simp only [keeps_mk]
    | (with_reducible refine Keeps.parts ?_)
    | split

theorem setLink_keeps {q : Bool} {b t : State} (k : Nat) (x : CvLink) (h : Keeps q b t) : Keeps q b (setLink t k x)
    := by
  unfold setLink
  repeat' first
    | with_reducible assumption
    | dsimp only
    | simp only [keeps_mk]
    | (with_reducible refine Keeps.parts ?_)

theorem writeBurst_keeps {q : Bool} {b t : State} (k : Nat) (status : Nat) (syms : Nat) (erased : List Nat) (clipped
    : List Nat) (h : Keeps q b t) : Keeps q b (writeBurst t k status syms erased clipped) := by
  unfold writeBurst
  repeat' first
    | with_reducible assumption
    | with_reducible apply arrive_keeps
    | with_reducible apply ingressStore_keeps
    | with_reducible apply setLink_keeps

theorem truncateBurst_keeps {q : Bool} {b t : State} (k : Nat) (h : Keeps q b t) : Keeps q b (truncateBurst t k) :=
    by
  unfold truncateBurst
  repeat' first
    | with_reducible assumption
    | with_reducible apply setLink_keeps
    | with_reducible apply writeBurst_keeps
    | dsimp only
    | split

theorem linkReset_keeps {q : Bool} {b t : State} (k : Nat) (h : Keeps q b t) : Keeps q b (linkReset t k) := by
  unfold linkReset
  repeat' first
    | with_reducible assumption
    | with_reducible apply setFlagIf_keeps
    | with_reducible apply arrive_keeps
    | with_reducible apply symbolStatus_keeps
    | with_reducible apply setLink_keeps
    | with_reducible apply truncateBurst_keeps
    | intro _
    | (with_reducible apply Keeps.of_pair; with_reducible assumption)
    | with_reducible apply Keeps.of_foldl
    | dsimp only
    | simp only [keeps_mk]
    | (with_reducible refine Keeps.parts ?_)
    | split

theorem settleRadio_keeps {q : Bool} {b t : State} (h : Keeps q b t) : Keeps q b (settleRadio t) := by
  unfold settleRadio
  repeat' first
    | with_reducible assumption
    | intro _
    | with_reducible apply closeCarriers_keeps
    | with_reducible apply linkReset_keeps
    | with_reducible apply Keeps.of_foldl
    | split

end Sys2Proof.Machine
end

