-- ==== Sys2Proof/Laws/EdgeTime.lean ====
section
/-! SUPPORT. What the operations and rows of Sys2Proof/Machine/EdgeTime.lean keep: `Keeps true` stores nothing, `Keeps q` for
every q likewise, `Keeps false` may store; `Retains` is said of the rows that write a quiet part. -/
namespace Sys2Proof.Machine

theorem setRef_keeps {q : Bool} {b t : State} (n : Nat) (x : RefIn) (h : Keeps q b t) : Keeps q b (setRef t n x) :=
    by
  unfold setRef
  repeat' first
    | with_reducible assumption
    | dsimp only
    | simp only [keeps_mk]
    | (with_reducible refine Keeps.parts ?_)

theorem setSel_keeps {q : Bool} {b t : State} (role : Nat) (n : Nat) (h : Keeps q b t) : Keeps q b (setSel t role n)
    := by
  unfold setSel
  repeat' first
    | with_reducible assumption
    | with_reducible apply takeChoice_keeps
    | with_reducible apply setRef_keeps
    | intro _
    | (with_reducible apply Keeps.of_pair; with_reducible assumption)
    | with_reducible apply Keeps.of_foldl
    | dsimp only
    | simp only [keeps_mk]
    | (with_reducible refine Keeps.parts ?_)
    | split

theorem clearDrift_keeps {q : Bool} {b t : State} (n : Nat) (h : Keeps q b t) : Keeps q b (clearDrift t n) := by
  unfold clearDrift
  repeat' first
    | with_reducible assumption
    | with_reducible apply setRef_keeps
    | intro _
    | (with_reducible apply Keeps.of_pair; with_reducible assumption)
    | with_reducible apply Keeps.of_foldl
    | dsimp only
    | simp only [keeps_mk]
    | (with_reducible refine Keeps.parts ?_)
    | split

theorem selectRefs_keeps {q : Bool} {b t : State} (h : Keeps q b t) : Keeps q b (selectRefs t) := by
  unfold selectRefs
  repeat' first
    | with_reducible assumption
    | with_reducible apply setSel_keeps
    | with_reducible apply clearDrift_keeps
    | intro _
    | (with_reducible apply Keeps.of_pair; with_reducible assumption)
    | with_reducible apply Keeps.of_foldl
    | dsimp only
    | simp only [keeps_mk]
    | (with_reducible refine Keeps.parts ?_)
    | split

theorem countLoad_keeps {q : Bool} {b t : State} (h : Keeps q b t) : Keeps q b (countLoad t) := by
  unfold countLoad
  repeat' first
    | with_reducible assumption
    | with_reducible apply setFlag_keeps
    | with_reducible apply takeChoice_keeps
    | intro _
    | (with_reducible apply Keeps.of_pair; with_reducible assumption)
    | with_reducible apply Keeps.of_foldl
    | dsimp only
    | simp only [keeps_mk]
    | (with_reducible refine Keeps.parts ?_)
    | split

theorem enterHoldover_keeps {q : Bool} {b t : State} (h : Keeps q b t) : Keeps q b (enterHoldover t) := by
  unfold enterHoldover
  repeat' first
    | with_reducible assumption
    | with_reducible apply setFlag_keeps
    | with_reducible apply arrive_keeps
    | dsimp only
    | simp only [keeps_mk]
    | (with_reducible refine Keeps.parts ?_)

theorem judgeStep_keeps {q : Bool} {b t : State} (h : Keeps q b t) : Keeps q b (judgeStep t) := by
  unfold judgeStep
  repeat' first
    | with_reducible assumption
    | with_reducible apply setFlag_keeps
    | dsimp only
    | simp only [keeps_mk]
    | (with_reducible refine Keeps.parts ?_)
    | split

theorem holdOn_keeps {q : Bool} {b t : State} (h : Keeps q b t) : Keeps q b (holdOn t) := by
  unfold holdOn
  repeat' first
    | with_reducible assumption
    | dsimp only
    | simp only [keeps_mk]
    | (with_reducible refine Keeps.parts ?_)

theorem settleEtu_keeps {q : Bool} {b t : State} (h : Keeps q b t) : Keeps q b (settleEtu t) := by
  unfold settleEtu
  repeat' first
    | with_reducible assumption
    | with_reducible apply updateFloor_keeps
    | with_reducible apply settleRadio_keeps
    | with_reducible apply selectRefs_keeps
    | with_reducible apply countLoad_keeps
    | with_reducible apply enterHoldover_keeps
    | with_reducible apply judgeStep_keeps
    | with_reducible apply holdOn_keeps
    | dsimp only
    | simp only [keeps_mk]
    | (with_reducible refine Keeps.parts ?_)
    | split

theorem lockEtu_keeps {q : Bool} {b t : State} (h : Keeps q b t) : Keeps q b (lockEtu t) := by
  unfold lockEtu
  repeat' first
    | with_reducible assumption
    | with_reducible apply setFlagIf_keeps
    | with_reducible apply updateFloor_keeps
    | with_reducible apply arrive_keeps
    | intro _
    | (with_reducible apply Keeps.of_pair; with_reducible assumption)
    | with_reducible apply Keeps.of_foldl
    | dsimp only
    | simp only [keeps_mk]
    | (with_reducible refine Keeps.parts ?_)
    | split

theorem failRef_keeps {q : Bool} {b t : State} (n : Nat) (h : Keeps q b t) : Keeps q b (failRef t n) := by
  unfold failRef
  repeat' first
    | with_reducible assumption
    | with_reducible apply setFlag_keeps
    | with_reducible apply setRef_keeps

theorem refsRecheck_keeps {q : Bool} {b t : State} (h : Keeps q b t) : Keeps q b (refsRecheck t) := by
  unfold refsRecheck
  repeat' first
    | with_reducible assumption
    | with_reducible apply settleEtu_keeps
    | with_reducible apply failRef_keeps
    | intro _
    | (with_reducible apply Keeps.of_pair; with_reducible assumption)
    | with_reducible apply Keeps.of_foldl
    | dsimp only
    | simp only [keeps_mk]
    | (with_reducible refine Keeps.parts ?_)
    | split

theorem meetRef_keeps {q : Bool} {b t : State} (n : Nat) (h : Keeps q b t) : Keeps q b (meetRef t n) := by
  unfold meetRef
  repeat' first
    | with_reducible assumption
    | with_reducible apply setRef_keeps
    | intro _
    | (with_reducible apply Keeps.of_pair; with_reducible assumption)
    | with_reducible apply Keeps.of_foldl
    | dsimp only
    | simp only [keeps_mk]
    | (with_reducible refine Keeps.parts ?_)
    | split

theorem loseRef_keeps {q : Bool} {b t : State} (n : Nat) (h : Keeps q b t) : Keeps q b (loseRef t n) := by
  unfold loseRef
  repeat' first
    | with_reducible assumption
    | with_reducible apply setRef_keeps
    | with_reducible apply settleEtu_keeps
    | with_reducible apply failRef_keeps
    | intro _
    | (with_reducible apply Keeps.of_pair; with_reducible assumption)
    | with_reducible apply Keeps.of_foldl
    | dsimp only
    | simp only [keeps_mk]
    | (with_reducible refine Keeps.parts ?_)
    | split

theorem refEval_keeps {q : Bool} {b t : State} (n : Nat) (h : Keeps q b t) : Keeps q b (refEval t n) := by
  unfold refEval
  repeat' first
    | with_reducible assumption
    | with_reducible apply meetRef_keeps
    | with_reducible apply loseRef_keeps
    | intro _
    | (with_reducible apply Keeps.of_pair; with_reducible assumption)
    | with_reducible apply Keeps.of_foldl
    | dsimp only
    | simp only [keeps_mk]
    | (with_reducible refine Keeps.parts ?_)
    | split

theorem execRefQualified_keeps {q : Bool} {b t : State} (n : Nat) (h : Keeps q b t) : OutKeeps q b (execRefQualified n
    t) := by
  unfold execRefQualified
  repeat' first
    | with_reducible apply OutKeeps.done
    | with_reducible assumption
    | with_reducible apply setRef_keeps
    | with_reducible apply settleEtu_keeps
    | intro _
    | (with_reducible apply Keeps.of_pair; with_reducible assumption)
    | with_reducible apply Keeps.of_foldl
    | dsimp only
    | simp only [keeps_mk]
    | (with_reducible refine Keeps.parts ?_)
    | split

theorem execRefCriterionLost_keeps {q : Bool} {b t : State} (n : Nat) (h : Keeps q b t) : OutKeeps q b
    (execRefCriterionLost n t) := by
  unfold execRefCriterionLost
  repeat' first
    | with_reducible apply OutKeeps.done
    | with_reducible assumption
    | with_reducible apply loseRef_keeps
    | with_reducible apply setRef_keeps
    | with_reducible apply settleEtu_keeps
    | with_reducible apply failRef_keeps
    | intro _
    | (with_reducible apply Keeps.of_pair; with_reducible assumption)
    | with_reducible apply Keeps.of_foldl
    | dsimp only
    | simp only [keeps_mk]
    | (with_reducible refine Keeps.parts ?_)
    | split

theorem execRefCriterionMet_keeps {q : Bool} {b t : State} (n : Nat) (h : Keeps q b t) : OutKeeps q b
    (execRefCriterionMet n t) := by
  unfold execRefCriterionMet
  repeat' first
    | with_reducible apply OutKeeps.done
    | with_reducible assumption
    | with_reducible apply meetRef_keeps
    | with_reducible apply setRef_keeps
    | intro _
    | (with_reducible apply Keeps.of_pair; with_reducible assumption)
    | with_reducible apply Keeps.of_foldl
    | dsimp only
    | simp only [keeps_mk]
    | (with_reducible refine Keeps.parts ?_)
    | split

theorem refEnable_keeps {q : Bool} {b t : State} (n : Nat) (h : Keeps q b t) : Keeps q b (refEnable t n) := by
  unfold refEnable
  repeat' first
    | with_reducible assumption
    | with_reducible apply setRef_keeps
    | intro _
    | (with_reducible apply Keeps.of_pair; with_reducible assumption)
    | with_reducible apply Keeps.of_foldl
    | dsimp only
    | simp only [keeps_mk]
    | (with_reducible refine Keeps.parts ?_)
    | split

theorem execRefCfgWrite_retains {b t : State} (n : Nat) (val : W32) (h : Retains b t) : OutRetains b
    (execRefCfgWrite n val t) := by
  unfold execRefCfgWrite
  repeat' first
    | with_reducible apply OutRetains.done
    | with_reducible assumption
    | with_reducible apply mergeReg_retains
    | refine Retains.keeps (q := false) ?_ (by (with_reducible apply settleEtu_keeps) <;> exact Keeps.refl _)
    | refine Retains.keeps (q := false) ?_ (by (with_reducible apply refsRecheck_keeps) <;> exact Keeps.refl _)
    | refine Retains.keeps (q := false) ?_ (by (with_reducible apply refEnable_keeps) <;> exact Keeps.refl _)
    | dsimp only
    | split

theorem execTimeReset_keeps {q : Bool} {b t : State} (h : Keeps q b t) : OutKeeps q b (execTimeReset t) := by
  unfold execTimeReset
  repeat' first
    | with_reducible apply OutKeeps.done
    | with_reducible assumption
    | intro _
    | with_reducible apply closeCarrier_keeps
    | with_reducible apply settleEtu_keeps
    | with_reducible apply refsRecheck_keeps
    | with_reducible apply refEnable_keeps
    | with_reducible apply Keeps.of_foldl
    | dsimp only
    | simp only [keeps_mk]
    | (with_reducible refine Keeps.parts ?_)
    | split

theorem execForceHoldover_keeps {q : Bool} {b t : State} (h : Keeps q b t) : OutKeeps q b (execForceHoldover t) :=
    by
  unfold execForceHoldover
  repeat' first
    | with_reducible apply OutKeeps.done
    | with_reducible assumption
    | with_reducible apply updateFloor_keeps
    | with_reducible apply settleRadio_keeps
    | with_reducible apply enterHoldover_keeps
    | dsimp only
    | simp only [keeps_mk]
    | (with_reducible refine Keeps.parts ?_)
    | split

theorem execKeepRef_keeps {q : Bool} {b t : State} (h : Keeps q b t) : OutKeeps q b (execKeepRef t) := by
  unfold execKeepRef
  repeat' first
    | with_reducible apply OutKeeps.done
    | with_reducible assumption
    | with_reducible apply clearFlag_keeps
    | with_reducible apply setRef_keeps
    | dsimp only
    | simp only [keeps_mk]
    | (with_reducible refine Keeps.parts ?_)
    | split

theorem execClearSuspect_keeps {q : Bool} {b t : State} (n : Nat) (h : Keeps q b t) : OutKeeps q b (execClearSuspect n
    t) := by
  unfold execClearSuspect
  repeat' first
    | with_reducible apply OutKeeps.done
    | with_reducible assumption
    | with_reducible apply setRef_keeps
    | intro _
    | (with_reducible apply Keeps.of_pair; with_reducible assumption)
    | with_reducible apply Keeps.of_foldl
    | dsimp only
    | simp only [keeps_mk]
    | (with_reducible refine Keeps.parts ?_)
    | split

theorem execReleaseHoldover_keeps {q : Bool} {b t : State} (h : Keeps q b t) : OutKeeps q b (execReleaseHoldover t)
    := by
  unfold execReleaseHoldover
  repeat' first
    | with_reducible apply OutKeeps.done
    | with_reducible assumption
    | with_reducible apply settleEtu_keeps
    | dsimp only
    | simp only [keeps_mk]
    | (with_reducible refine Keeps.parts ?_)
    | split

theorem execPtpMeas_keeps {q : Bool} {b t : State} (hi : W32) (h : Keeps q b t) : OutKeeps q b (execPtpMeas hi t) :=
    by
  unfold execPtpMeas
  repeat' first
    | with_reducible apply OutKeeps.done
    | with_reducible assumption
    | with_reducible apply refEval_keeps
    | intro _
    | (with_reducible apply Keeps.of_pair; with_reducible assumption)
    | with_reducible apply Keeps.of_foldl
    | dsimp only
    | simp only [keeps_mk]
    | (with_reducible refine Keeps.parts ?_)
    | split

theorem execTodSec_keeps {q : Bool} {b t : State} (hi : W32) (h : Keeps q b t) : OutKeeps q b (execTodSec hi t) :=
    by
  unfold execTodSec
  repeat' first
    | with_reducible apply OutKeeps.done
    | with_reducible assumption
    | dsimp only
    | simp only [keeps_mk]
    | (with_reducible refine Keeps.parts ?_)
    | split

theorem execPpsPulse_keeps {q : Bool} {b t : State} (h : Keeps q b t) : OutKeeps q b (execPpsPulse t) := by
  unfold execPpsPulse
  repeat' first
    | with_reducible apply OutKeeps.done
    | with_reducible assumption
    | with_reducible apply refEval_keeps
    | intro _
    | (with_reducible apply Keeps.of_pair; with_reducible assumption)
    | with_reducible apply Keeps.of_foldl
    | dsimp only
    | simp only [keeps_mk]
    | (with_reducible refine Keeps.parts ?_)
    | split

theorem execEnterLocked_keeps {q : Bool} {b t : State} (h : Keeps q b t) : OutKeeps q b (execEnterLocked t) := by
  unfold execEnterLocked
  repeat' first
    | with_reducible apply OutKeeps.done
    | with_reducible assumption
    | with_reducible apply lockEtu_keeps
    | split

theorem execPullInDone_keeps {q : Bool} {b t : State} (h : Keeps q b t) : OutKeeps q b (execPullInDone t) := by
  unfold execPullInDone
  repeat' first
    | with_reducible apply OutKeeps.done
    | with_reducible assumption
    | with_reducible apply lockEtu_keeps
    | intro _
    | (with_reducible apply Keeps.of_pair; with_reducible assumption)
    | with_reducible apply Keeps.of_foldl
    | dsimp only
    | simp only [keeps_mk]
    | (with_reducible refine Keeps.parts ?_)
    | split

theorem execHoldExpired_keeps {q : Bool} {b t : State} (h : Keeps q b t) : OutKeeps q b (execHoldExpired t) := by
  unfold execHoldExpired
  repeat' first
    | with_reducible apply OutKeeps.done
    | with_reducible assumption
    | with_reducible apply setFlag_keeps
    | split

theorem measureDrift_keeps {q : Bool} {b t : State} (freq : Nat → Int) (n : Nat) (h : Keeps q b t) : Keeps q b
    (measureDrift t freq n) := by
  unfold measureDrift
  repeat' first
    | with_reducible assumption
    | with_reducible apply takeChoice_keeps
    | with_reducible apply setRef_keeps
    | dsimp only
    | split

theorem actDrift_keeps {q : Bool} {b t : State} (members : Nat) (n : Nat) (h : Keeps q b t) : Keeps q b (actDrift t
    members n) := by
  unfold actDrift
  repeat' first
    | with_reducible assumption
    | with_reducible apply setFlag_keeps
    | with_reducible apply setRef_keeps
    | dsimp only
    | simp only [keeps_mk]
    | (with_reducible refine Keeps.parts ?_)
    | split

theorem execDriftWindow_keeps {q : Bool} {b t : State} (freq : List (Nat × Int)) (h : Keeps q b t) : OutKeeps q b
    (execDriftWindow freq t) := by
  unfold execDriftWindow
  repeat' first
    | with_reducible apply OutKeeps.done
    | with_reducible assumption
    | intro _
    | with_reducible apply settleEtu_keeps
    | with_reducible apply measureDrift_keeps
    | with_reducible apply actDrift_keeps
    | with_reducible apply Keeps.of_foldl
    | dsimp only
    | split

theorem execEtuTimeLatch_retains {b t : State} (h : Retains b t) : OutRetains b (execEtuTimeLatch t) := by
  unfold execEtuTimeLatch
  repeat' first
    | with_reducible apply OutRetains.done
    | with_reducible assumption
    | dsimp only
    | split
    | simp only [retains_mk]
    | (with_reducible refine Retains.as ?_)

theorem execCapRead_retains {b t : State} (n : Nat) (h : Retains b t) : OutRetains b (execCapRead n t) := by
  unfold execCapRead
  repeat' first
    | with_reducible apply OutRetains.done
    | with_reducible assumption
    | refine Retains.keeps (q := false) ?_ (by (with_reducible apply takeChoice_keeps) <;> exact Keeps.refl _)
    | dsimp only
    | split
    | simp only [retains_mk]
    | (with_reducible refine Retains.as ?_)

theorem setTrig_keeps {q : Bool} {b t : State} (n : Nat) (x : Trig) (h : Keeps q b t) : Keeps q b (setTrig t n x) :=
    by
  unfold setTrig
  repeat' first
    | with_reducible assumption
    | dsimp only
    | simp only [keeps_mk]
    | (with_reducible refine Keeps.parts ?_)

theorem lateArm_keeps {q : Bool} {b t : State} (n : Nat) (h : Keeps q b t) : Keeps q b (lateArm t n) := by
  unfold lateArm
  repeat' first
    | with_reducible assumption
    | with_reducible apply setFlag_keeps
    | with_reducible apply setTrig_keeps
    | dsimp only
    | split

theorem rearmLinks_keeps {q : Bool} {b t : State} (n : Nat) (h : Keeps q b t) : Keeps q b (rearmLinks t n) := by
  unfold rearmLinks
  repeat' first
    | with_reducible assumption
    | with_reducible apply setLink_keeps
    | dsimp only
    | split

theorem execTrigArm_retains {b t : State} (n : Nat) (ctrl : W32) (h : Retains b t) : OutRetains b (execTrigArm n
    ctrl t) := by
  unfold execTrigArm
  repeat' first
    | with_reducible apply OutRetains.done
    | with_reducible assumption
    | with_reducible apply mergeReg_retains
    | refine Retains.keeps (q := false) ?_ (by (with_reducible apply settleRadio_keeps) <;> exact Keeps.refl _)
    | refine Retains.keeps (q := false) ?_ (by (with_reducible apply setTrig_keeps) <;> exact Keeps.refl _)
    | refine Retains.keeps (q := false) ?_ (by (with_reducible apply lateArm_keeps) <;> exact Keeps.refl _)
    | refine Retains.keeps (q := false) ?_ (by (with_reducible apply rearmLinks_keeps) <;> exact Keeps.refl _)
    | dsimp only
    | split

theorem fireTrig_keeps {q : Bool} {b t : State} (n : Nat) (h : Keeps q b t) : Keeps q b (fireTrig t n) := by
  unfold fireTrig
  repeat' first
    | with_reducible assumption
    | with_reducible apply setLink_keeps
    | with_reducible apply setTrig_keeps
    | intro _
    | (with_reducible apply Keeps.of_pair; with_reducible assumption)
    | with_reducible apply Keeps.of_foldl
    | dsimp only
    | simp only [keeps_mk]
    | (with_reducible refine Keeps.parts ?_)
    | split

theorem execTrigFire_keeps {q : Bool} {b t : State} (ns : List Nat) (h : Keeps q b t) : OutKeeps q b (execTrigFire ns
    t) := by
  unfold execTrigFire
  repeat' first
    | with_reducible apply OutKeeps.done
    | with_reducible assumption
    | with_reducible apply settleRadio_keeps
    | with_reducible apply fireTrig_keeps
    | with_reducible apply setFlags_keeps
    | intro _
    | (with_reducible apply Keeps.of_pair; with_reducible assumption)
    | with_reducible apply Keeps.of_foldl
    | dsimp only
    | simp only [keeps_mk]
    | (with_reducible refine Keeps.parts ?_)
    | split

theorem execTrigDisarm_retains {b t : State} (n : Nat) (ctrl : W32) (h : Retains b t) : OutRetains b (execTrigDisarm n
    ctrl t) := by
  unfold execTrigDisarm
  repeat' first
    | with_reducible apply OutRetains.done
    | with_reducible assumption
    | with_reducible apply mergeReg_retains
    | refine Retains.keeps (q := false) ?_ (by (with_reducible apply settleRadio_keeps) <;> exact Keeps.refl _)
    | refine Retains.keeps (q := false) ?_ (by (with_reducible apply setTrig_keeps) <;> exact Keeps.refl _)
    | refine Retains.keeps (q := false) ?_ (by (with_reducible apply fireTrig_keeps) <;> exact Keeps.refl _)
    | dsimp only
    | split
    | simp only [retains_mk]
    | (with_reducible refine Retains.as ?_)

theorem recordCap_keeps {q : Bool} {b t : State} (n : Nat) (t' : W64) (h : Keeps q b t) : Keeps q b (recordCap t n
    t') := by
  unfold recordCap
  repeat' first
    | with_reducible assumption
    | with_reducible apply setFlag_keeps
    | with_reducible apply arrive_keeps
    | dsimp only
    | simp only [keeps_mk]
    | (with_reducible refine Keeps.parts ?_)
    | split

theorem captureEdge_keeps {q : Bool} {b t : State} (src : Nat) (rising : Bool) (merged : Bool) (t' : Int) (h : Keeps q
    b t) : Keeps q b (captureEdge t src rising merged t') := by
  unfold captureEdge
  repeat' first
    | with_reducible assumption
    | with_reducible apply setFlagIf_keeps
    | with_reducible apply recordCap_keeps
    | intro _
    | (with_reducible apply Keeps.of_pair; with_reducible assumption)
    | with_reducible apply Keeps.of_foldl
    | dsimp only
    | simp only [keeps_mk]
    | (with_reducible refine Keeps.parts ?_)
    | split

theorem execCaptureEdge_keeps {q : Bool} {b t : State} (src : Nat) (rising : Bool) (h : Keeps q b t) : OutKeeps q b
    (execCaptureEdge src rising t) := by
  unfold execCaptureEdge
  repeat' first
    | with_reducible apply OutKeeps.done
    | with_reducible assumption
    | with_reducible apply captureEdge_keeps
    | with_reducible apply setFlagIf_keeps
    | with_reducible apply recordCap_keeps
    | intro _
    | (with_reducible apply Keeps.of_pair; with_reducible assumption)
    | with_reducible apply Keeps.of_foldl
    | dsimp only
    | simp only [keeps_mk]
    | (with_reducible refine Keeps.parts ?_)
    | split

theorem unsyncDie_keeps {q : Bool} {b t : State} (d : Nat) (h : Keeps q b t) : Keeps q b (unsyncDie t d) := by
  unfold unsyncDie
  repeat' first
    | with_reducible assumption
    | with_reducible apply setFlag_keeps
    | with_reducible apply takeChoice_keeps
    | with_reducible apply logEvent_keeps
    | with_reducible apply settleRadio_keeps
    | dsimp only
    | simp only [keeps_mk]
    | (with_reducible refine Keeps.parts ?_)

theorem execDieUnsynced_keeps {q : Bool} {b t : State} (d : Nat) (h : Keeps q b t) : OutKeeps q b (execDieUnsynced d
    t) := by
  unfold execDieUnsynced
  repeat' first
    | with_reducible apply OutKeeps.done
    | with_reducible assumption
    | with_reducible apply unsyncDie_keeps
    | split

theorem execDieRealign_keeps {q : Bool} {b t : State} (d : Nat) (h : Keeps q b t) : OutKeeps q b (execDieRealign d
    t) := by
  unfold execDieRealign
  repeat' first
    | with_reducible apply OutKeeps.done
    | with_reducible assumption
    | intro _
    | with_reducible apply settleRadio_keeps
    | with_reducible apply lateArm_keeps
    | with_reducible apply Keeps.of_foldl
    | dsimp only
    | simp only [keeps_mk]
    | (with_reducible refine Keeps.parts ?_)
    | split

end Sys2Proof.Machine
end

