-- ==== Sys2Proof/Laws/Power.lean ====
section
/-! SUPPORT. What the operations and rows of Sys2Proof/Machine/Power.lean keep: `Keeps true` stores nothing, `Keeps q` for
every q likewise, `Keeps false` may store; `Retains` is said of the rows that write a quiet part. -/
namespace Sys2Proof.Machine

theorem setArr_keeps {q : Bool} {b t : State} (a : Nat) (x : Arr) (h : Keeps q b t) : Keeps q b (setArr t a x) := by
  unfold setArr
  repeat' first
    | with_reducible assumption
    | simp only [keeps_mk]
    | (with_reducible refine Keeps.parts ?_)

theorem applyStep_keeps {q : Bool} {b t : State} (k : StepKind) (h : Keeps q b t) : Keeps q b (applyStep t k) := by
  unfold applyStep
  repeat' first
    | with_reducible assumption
    | with_reducible apply setInst_keeps
    | with_reducible apply setArr_keeps
    | intro _
    | (with_reducible apply Keeps.of_pair; with_reducible assumption)
    | with_reducible apply Keeps.of_foldl
    | dsimp only
    | simp only [keeps_mk]
    | (with_reducible refine Keeps.parts ?_)
    | split

theorem admitStep_keeps {q : Bool} {b t : State} (x : LedgerStep) (h : Keeps q b t) : Keeps q b (admitStep t x) :=
    by
  unfold admitStep
  repeat' first
    | with_reducible assumption
    | with_reducible apply applyStep_keeps
    | simp only [keeps_mk]
    | (with_reducible refine Keeps.parts ?_)

theorem requestStep_keeps {q : Bool} {b t : State} (x : LedgerStep) (h : Keeps q b t) : Keeps q b (requestStep t x)
    := by
  unfold requestStep
  repeat' first
    | with_reducible assumption
    | with_reducible apply setFlag_keeps
    | with_reducible apply admitStep_keeps
    | dsimp only
    | simp only [keeps_mk]
    | (with_reducible refine Keeps.parts ?_)
    | split

theorem lowerCap_keeps {q : Bool} {b t : State} (n : Nat) (i : Inst) (h : Keeps q b t) : Keeps q b (lowerCap t n i) := by
  unfold lowerCap
  repeat' first
    | with_reducible assumption
    | with_reducible apply setInst_keeps
    | with_reducible apply requestStep_keeps
    | dsimp only
    | split

theorem beginStop_keeps {q : Bool} {b t : State} (n : Nat) (h : Keeps q b t) : Keeps q b (beginStop t n) := by
  unfold beginStop
  repeat' first
    | with_reducible assumption
    | with_reducible apply setInst_keeps
    | with_reducible apply requestStep_keeps
    | intro _
    | (with_reducible apply Keeps.of_pair; with_reducible assumption)
    | with_reducible apply Keeps.of_foldl
    | dsimp only
    | simp only [keeps_mk]
    | (with_reducible refine Keeps.parts ?_)
    | split

theorem askCols_keeps {q : Bool} {b t : State} (a : Nat) (n : Nat) (radio : Bool) (h : Keeps q b t) : Keeps q b
    (askCols t a n radio) := by
  unfold askCols
  repeat' first
    | with_reducible assumption
    | with_reducible apply setArr_keeps
    | with_reducible apply requestStep_keeps
    | intro _
    | (with_reducible apply Keeps.of_pair; with_reducible assumption)
    | with_reducible apply Keeps.of_foldl
    | dsimp only
    | simp only [keeps_mk]
    | (with_reducible refine Keeps.parts ?_)
    | split

theorem settleRamp_keeps {q : Bool} {b t : State} (a : Nat) (h : Keeps q b t) : Keeps q b (settleRamp t a) := by
  unfold settleRamp
  repeat' first
    | with_reducible assumption
    | with_reducible apply setArr_keeps
    | with_reducible apply askCols_keeps
    | intro _
    | (with_reducible apply Keeps.of_pair; with_reducible assumption)
    | with_reducible apply Keeps.of_foldl
    | dsimp only
    | simp only [keeps_mk]
    | (with_reducible refine Keeps.parts ?_)
    | split

theorem requestCols_keeps {q : Bool} {b t : State} (a : Nat) (n : Nat) (radio : Bool) (h : Keeps q b t) : Keeps q b
    (requestCols t a n radio) := by
  unfold requestCols
  repeat' first
    | with_reducible assumption
    | with_reducible apply setArr_keeps
    | with_reducible apply askCols_keeps
    | with_reducible apply settleRamp_keeps
    | with_reducible apply requestStep_keeps
    | intro _
    | (with_reducible apply Keeps.of_pair; with_reducible assumption)
    | with_reducible apply Keeps.of_foldl
    | dsimp only
    | simp only [keeps_mk]
    | (with_reducible refine Keeps.parts ?_)
    | split

theorem withdrawCols_keeps {q : Bool} {b t : State} (a : Nat) (h : Keeps q b t) : Keeps q b (withdrawCols t a) := by
  unfold withdrawCols
  repeat' first
    | with_reducible assumption
    | with_reducible apply setArr_keeps
    | intro _
    | (with_reducible apply Keeps.of_pair; with_reducible assumption)
    | with_reducible apply Keeps.of_foldl
    | dsimp only
    | simp only [keeps_mk]
    | (with_reducible refine Keeps.parts ?_)
    | split

theorem startShed_keeps {q : Bool} {b t : State} (cause : Nat) (h : Keeps q b t) : Keeps q b (startShed t cause) := by
  unfold startShed
  repeat' first
    | with_reducible assumption
    | with_reducible apply setFlagIf_keeps
    | with_reducible apply logEvent_keeps
    | with_reducible apply arrive_keeps
    | with_reducible apply setLink_keeps
    | with_reducible apply settleRadio_keeps
    | intro _
    | (with_reducible apply Keeps.of_pair; with_reducible assumption)
    | with_reducible apply Keeps.of_foldl
    | dsimp only
    | simp only [keeps_mk]
    | (with_reducible refine Keeps.parts ?_)
    | split

theorem vrFault_keeps {q : Bool} {b t : State} (h : Keeps q b t) : Keeps q b (vrFault t) := by
  unfold vrFault
  repeat' first
    | with_reducible assumption
    | with_reducible apply setFlag_keeps
    | with_reducible apply startShed_keeps

theorem pmbus_keeps {q : Bool} {b t : State} (naks : Nat) (h : Keeps q b t) : Keeps q b (pmbus t naks) := by
  unfold pmbus
  repeat' first
    | with_reducible assumption
    | with_reducible apply vrFault_keeps
    | intro _
    | (with_reducible apply Keeps.of_pair; with_reducible assumption)
    | with_reducible apply Keeps.of_foldl
    | dsimp only
    | simp only [keeps_mk]
    | (with_reducible refine Keeps.parts ?_)
    | split

theorem voutCommand_keeps {q : Bool} {b t : State} (v : Nat) (naks : Nat) (h : Keeps q b t) : Keeps q b (voutCommand t
    v naks) := by
  unfold voutCommand
  repeat' first
    | with_reducible assumption
    | with_reducible apply pmbus_keeps
    | intro _
    | (with_reducible apply Keeps.of_pair; with_reducible assumption)
    | with_reducible apply Keeps.of_foldl
    | dsimp only
    | simp only [keeps_mk]
    | (with_reducible refine Keeps.parts ?_)
    | split

end Sys2Proof.Machine
end

