-- ==== Sys2Proof/Laws/Runs.lean ====
section
/-! SUPPORT. What the operations and rows of Sys2Proof/Machine/Runs.lean keep: `Keeps true` stores nothing, `Keeps q` for
every q likewise, `Keeps false` may store; `Retains` is said of the rows that write a quiet part. -/
namespace Sys2Proof.Machine

theorem setRing_keeps {q : Bool} {b t : State} (r : Nat) (g : Ring) (h : Keeps q b t) : Keeps q b (setRing t r g) :=
    by
  unfold setRing
  repeat' first
    | with_reducible assumption
    | simp only [keeps_mk]
    | (with_reducible refine Keeps.parts ?_)

theorem modSlot_keeps {q : Bool} {b t : State} (r : Nat) (k : Nat) (f : Slot → Slot) (h : Keeps q b t) : Keeps q b
    (modSlot t r k f) := by
  unfold modSlot
  repeat' first
    | with_reducible assumption
    | with_reducible apply setRing_keeps

theorem watchCols_keeps {q : Bool} {b t : State} (before : State) (h : Keeps q b t) : Keeps q b (watchCols before t)
    := by
  unfold watchCols
  repeat' first
    | with_reducible assumption
    | intro _
    | with_reducible apply setFlagIf_keeps
    | with_reducible apply Keeps.of_foldl

theorem modRun_keeps {q : Bool} {b t : State} (id : Nat) (f : Run → Run) (h : Keeps q b t) : Keeps q b (modRun t id
    f) := by
  unfold modRun
  repeat' first
    | with_reducible assumption
    | simp only [keeps_mk]
    | (with_reducible refine Keeps.parts ?_)

theorem modSeg_keeps {q : Bool} {b t : State} (id : Nat) (u : Nat) (f : Seg → Seg) (h : Keeps q b t) : Keeps q b
    (modSeg t id u f) := by
  unfold modSeg
  repeat' first
    | with_reducible assumption
    | with_reducible apply modRun_keeps

theorem clearStaging_keeps {b t : State} (b' : Binding) (h : Keeps false b t) : Keeps false b (clearStaging t b') :=
    by
  unfold clearStaging
  repeat' first
    | with_reducible assumption
    | intro _
    | dsimp only
    | simp only [keeps_mk]
    | (with_reducible refine Keeps.ssram ?_ ?_)
    | (with_reducible exact tblWf_dropRange (by assumption) _ _)

theorem undefineUnits_keeps {q : Bool} {b t : State} (units : List Nat) (h : Keeps q b t) : Keeps q b (undefineUnits
    t units) := by
  unfold undefineUnits
  repeat' first
    | with_reducible assumption
    | intro _
    | with_reducible apply setTile_keeps
    | with_reducible apply Keeps.of_foldl

theorem logList_keeps {q : Bool} {b t : State} (r : Nat) (seq : Nat) (unit : Nat) (o : Outcome) (h : Keeps q b t) :
    Keeps q b (logList t r seq unit o) := by
  unfold logList
  repeat' first
    | with_reducible assumption
    | with_reducible apply pushLog_keeps

theorem markStop_keeps {q : Bool} {b t : State} (id : Nat) (c : StopCause) (h : Keeps q b t) : Keeps q b (markStop t
    id c) := by
  unfold markStop
  repeat' first
    | with_reducible assumption
    | with_reducible apply modRun_keeps

theorem haltRing_keeps {q : Bool} {b t : State} (r : Nat) (k : Nat) (h : Keeps q b t) : Keeps q b (haltRing t r k)
    := by
  unfold haltRing
  repeat' first
    | with_reducible assumption
    | intro _
    | with_reducible apply setFlag_keeps
    | with_reducible apply requestVec_keeps
    | with_reducible apply setRing_keeps
    | with_reducible apply markStop_keeps
    | with_reducible apply Keeps.of_foldl

theorem decide_keeps {q : Bool} {b t : State} (r : Nat) (k : Nat) (unit : Nat) (o : Outcome) (h : Keeps q b t) : Keeps
    q b (decide t r k unit o) := by
  unfold decide
  repeat' first
    | with_reducible assumption
    | with_reducible apply modSlot_keeps
    | with_reducible apply logList_keeps
    | with_reducible apply haltRing_keeps
    | intro _
    | (with_reducible apply Keeps.of_pair; with_reducible assumption)
    | with_reducible apply Keeps.of_foldl
    | dsimp only
    | simp only [keeps_mk]
    | (with_reducible refine Keeps.parts ?_)
    | split

theorem takeBack_keeps {b t : State} (x : Run) (h : Keeps false b t) : Keeps false b (takeBack t x) := by
  unfold takeBack
  repeat' first
    | with_reducible assumption
    | with_reducible apply evcAdd_keeps
    | with_reducible apply clearStaging_keeps
    | with_reducible apply undefineUnits_keeps
    | intro _
    | (with_reducible apply Keeps.of_pair; with_reducible assumption)
    | with_reducible apply Keeps.of_foldl
    | dsimp only
    | simp only [keeps_mk]
    | (with_reducible refine Keeps.parts ?_)
    | split

theorem releaseVer_keeps {q : Bool} {b t : State} (e : Nat) (h : Keeps q b t) : Keeps q b (releaseVer t e) := by
  unfold releaseVer
  repeat' first
    | with_reducible assumption
    | dsimp only
    | simp only [keeps_mk]
    | (with_reducible refine Keeps.parts ?_)

theorem finishRun_keeps {b t : State} (id : Nat) (h : Keeps false b t) : Keeps false b (finishRun t id) := by
  unfold finishRun
  repeat' first
    | with_reducible assumption
    | intro _
    | with_reducible apply modSlot_keeps
    | with_reducible apply decide_keeps
    | with_reducible apply takeBack_keeps
    | with_reducible apply releaseVer_keeps
    | with_reducible apply Keeps.of_foldl
    | dsimp only
    | simp only [keeps_mk]
    | (with_reducible refine Keeps.parts ?_)
    | split

theorem finishIfEnded_keeps {b t : State} (id : Nat) (h : Keeps false b t) : Keeps false b (finishIfEnded t id) :=
    by
  unfold finishIfEnded
  repeat' first
    | with_reducible assumption
    | with_reducible apply finishRun_keeps
    | split

theorem squash_keeps {q : Bool} {b t : State} (id : Nat) (c : Nat) (h : Keeps q b t) : Keeps q b (squash t id c) := by
  unfold squash
  repeat' first
    | with_reducible assumption
    | with_reducible apply modRun_keeps
    | with_reducible apply markStop_keeps
    | intro _
    | (with_reducible apply Keeps.of_pair; with_reducible assumption)
    | with_reducible apply Keeps.of_foldl
    | dsimp only
    | simp only [keeps_mk]
    | (with_reducible refine Keeps.parts ?_)
    | split

theorem stopRun_keeps {b t : State} (id : Nat) (c : StopCause) (h : Keeps false b t) : Keeps false b (stopRun t id
    c) := by
  unfold stopRun
  repeat' first
    | with_reducible assumption
    | with_reducible apply markStop_keeps
    | with_reducible apply finishIfEnded_keeps

theorem sweepRuns_keeps {b t : State} (h : Keeps false b t) : Keeps false b (sweepRuns t) := by
  unfold sweepRuns
  repeat' first
    | with_reducible assumption
    | intro _
    | with_reducible apply finishIfEnded_keeps
    | with_reducible apply Keeps.of_foldl

theorem rampFor_keeps {q : Bool} {b t : State} (a : Nat) (x : Run) (g : Seg) (wasRadio : Bool) (h : Keeps q b t) :
    Keeps q b (rampFor t a x g wasRadio) := by
  unfold rampFor
  repeat' first
    | with_reducible assumption
    | with_reducible apply requestCols_keeps
    | intro _
    | (with_reducible apply Keeps.of_pair; with_reducible assumption)
    | with_reducible apply Keeps.of_foldl
    | dsimp only
    | simp only [keeps_mk]
    | (with_reducible refine Keeps.parts ?_)
    | split

theorem giveArray_keeps {q : Bool} {b t : State} (a : Nat) (x : Run) (g : Seg) (h : Keeps q b t) : Keeps q b
    (giveArray t a x g) := by
  unfold giveArray
  repeat' first
    | with_reducible assumption
    | with_reducible apply setArr_keeps
    | with_reducible apply rampFor_keeps
    | with_reducible apply requestCols_keeps
    | intro _
    | (with_reducible apply Keeps.of_pair; with_reducible assumption)
    | with_reducible apply Keeps.of_foldl
    | dsimp only
    | simp only [keeps_mk]
    | (with_reducible refine Keeps.parts ?_)
    | split

theorem leaveArray_keeps {q : Bool} {b t : State} (a : Nat) (h : Keeps q b t) : Keeps q b (leaveArray t a) := by
  unfold leaveArray
  repeat' first
    | with_reducible assumption
    | with_reducible apply setArr_keeps
    | with_reducible apply requestCols_keeps
    | with_reducible apply rampFor_keeps
    | with_reducible apply giveArray_keeps
    | intro _
    | (with_reducible apply Keeps.of_pair; with_reducible assumption)
    | with_reducible apply Keeps.of_foldl
    | dsimp only
    | simp only [keeps_mk]
    | (with_reducible refine Keeps.parts ?_)
    | split

theorem freeUnit_keeps {q : Bool} {b t : State} (cls : Nat) (u : Nat) (h : Keeps q b t) : Keeps q b (freeUnit t cls u)
    := by
  unfold freeUnit
  repeat' first
    | with_reducible assumption
    | with_reducible apply setTile_keeps
    | intro _
    | (with_reducible apply Keeps.of_pair; with_reducible assumption)
    | with_reducible apply Keeps.of_foldl
    | dsimp only
    | simp only [keeps_mk]
    | (with_reducible refine Keeps.parts ?_)
    | split

theorem dropPreempted_keeps {q : Bool} {b t : State} (a : Nat) (h : Keeps q b t) : Keeps q b (dropPreempted t a) :=
    by
  unfold dropPreempted
  repeat' first
    | with_reducible assumption
    | with_reducible apply setArr_keeps
    | with_reducible apply leaveArray_keeps
    | dsimp only
    | split

theorem endSeg_keeps {q : Bool} {b t : State} (x : Run) (u : Nat) (h : Keeps q b t) : Keeps q b (endSeg t x u) := by
  unfold endSeg
  repeat' first
    | with_reducible assumption
    | with_reducible apply modSeg_keeps
    | with_reducible apply leaveArray_keeps
    | with_reducible apply freeUnit_keeps
    | with_reducible apply dropPreempted_keeps
    | dsimp only
    | split

theorem failSeg_keeps {b t : State} (x : Run) (u : Nat) (status : Nat) (result : Nat) (detail : Nat) (h : Keeps
    false b t) : Keeps false b (failSeg t x u status result detail) := by
  unfold failSeg
  repeat' first
    | with_reducible assumption
    | with_reducible apply modRun_keeps
    | with_reducible apply stopRun_keeps
    | with_reducible apply endSeg_keeps
    | dsimp only
    | split

theorem reachOp_keeps {b t : State} (x : Run) (g : Seg) (h : Keeps false b t) : Keeps false b (reachOp t x g) := by
  unfold reachOp
  repeat' first
    | with_reducible assumption
    | with_reducible apply endSeg_keeps
    | with_reducible apply failSeg_keeps
    | split

theorem settleUnitAux_keeps {b t : State} (y0 : Nat) (y2 : Nat) (y3 : Nat) (h : Keeps false b t) : Keeps false b
    (settleUnitAux y0 t y2 y3) := by
  revert h
  fun_induction settleUnitAux y0 t y2 y3 <;> intro h
  all_goals
   repeat' first
    | with_reducible assumption
    | with_reducible apply reachOp_keeps
    | with_reducible apply_assumption

theorem settleUnit_keeps {b t : State} (cls : Nat) (u : Nat) (h : Keeps false b t) : Keeps false b (settleUnit t cls
    u) := by
  unfold settleUnit
  repeat' first
    | with_reducible assumption
    | with_reducible apply leaveArray_keeps
    | with_reducible apply settleUnitAux_keeps
    | split

theorem advance_keeps {b t : State} (x : Run) (u : Nat) (h : Keeps false b t) : Keeps false b (advance t x u) := by
  unfold advance
  repeat' first
    | with_reducible assumption
    | with_reducible apply modSeg_keeps
    | with_reducible apply settleUnit_keeps
    | intro _
    | (with_reducible apply Keeps.of_pair; with_reducible assumption)
    | with_reducible apply Keeps.of_foldl
    | dsimp only
    | simp only [keeps_mk]
    | (with_reducible refine Keeps.parts ?_)
    | split

theorem settleFx_keeps {b t : State} (p : Nat) (h : Keeps false b t) : Keeps false b (settleFx t p) := by
  unfold settleFx
  repeat' first
    | with_reducible assumption
    | with_reducible apply advance_keeps
    | intro _
    | (with_reducible apply Keeps.of_pair; with_reducible assumption)
    | with_reducible apply Keeps.of_foldl
    | dsimp only
    | simp only [keeps_mk]
    | (with_reducible refine Keeps.parts ?_)
    | split

theorem failOp_keeps {b t : State} (x : Run) (u : Nat) (status : Nat) (result : Nat) (detail : Nat) (h : Keeps false
    b t) : Keeps false b (failOp t x u status result detail) := by
  unfold failOp
  repeat' first
    | with_reducible assumption
    | with_reducible apply failSeg_keeps
    | with_reducible apply settleUnit_keeps

end Sys2Proof.Machine
end

