-- ==== Sys2Proof/Laws/Retire.lean ====
section
/-! SUPPORT. What the operations and rows of Sys2Proof/Machine/Retire.lean keep: `Keeps true` stores nothing, `Keeps q` for
every q likewise, `Keeps false` may store; `Retains` is said of the rows that write a quiet part. -/
namespace Sys2Proof.Machine

theorem faultSegs_keeps {q : Bool} {b t : State} (cls : Nat) (units : List Nat) (h : Keeps q b t) : Keeps q b
    (faultSegs t cls units) := by
  unfold faultSegs
  repeat' first
    | with_reducible assumption
    | intro _
    | with_reducible apply markStop_keeps
    | with_reducible apply endSeg_keeps
    | with_reducible apply Keeps.of_foldl
    | dsimp only
    | split

theorem faultAll_keeps {q : Bool} {b t : State} (h : Keeps q b t) : Keeps q b (faultAll t) := by
  unfold faultAll
  repeat' first
    | with_reducible assumption
    | intro _
    | with_reducible apply markStop_keeps
    | with_reducible apply Keeps.of_foldl
    | split

theorem dropHarq_keeps {q : Bool} {b t : State} (which : Nat → Harq → Bool) (h : Keeps q b t) : Keeps q b (dropHarq
    t which) := by
  unfold dropHarq
  repeat' first
    | with_reducible assumption
    | dsimp only
    | simp only [keeps_mk]
    | (with_reducible refine Keeps.parts ?_)

theorem portLeave_keeps {b t : State} (p : Nat) (h : Keeps false b t) : Keeps false b (portLeave t p) := by
  unfold portLeave
  repeat' first
    | with_reducible assumption
    | with_reducible apply setFlag_keeps
    | with_reducible apply arrive_keeps
    | with_reducible apply setPort_keeps
    | with_reducible apply discardFrames_keeps
    | with_reducible apply settleRadio_keeps
    | with_reducible apply settleFx_keeps
    | intro _
    | (with_reducible apply Keeps.of_pair; with_reducible assumption)
    | with_reducible apply Keeps.of_foldl
    | dsimp only
    | simp only [keeps_mk]
    | (with_reducible refine Keeps.parts ?_)
    | split

theorem retireEffects_keeps {b t : State} (typ : Nat) (idx : Nat) (h : Keeps false b t) : Keeps false b
    (retireEffects t typ idx) := by
  unfold retireEffects
  repeat' first
    | with_reducible assumption
    | intro _
    | with_reducible apply setFlag_keeps
    | with_reducible apply settleRadio_keeps
    | with_reducible apply squash_keeps
    | with_reducible apply refsRecheck_keeps
    | with_reducible apply dropHarq_keeps
    | with_reducible apply portLeave_keeps
    | with_reducible apply Keeps.of_foldl
    | dsimp only
    | simp only [keeps_mk]
    | (with_reducible refine Keeps.hbm ?_ ?_)
    | (with_reducible exact tblWf_nil)
    | split

theorem retireUnit_keeps {b t : State} (typ : Nat) (idx : Nat) (h : Keeps false b t) : OptKeeps false b (retireUnit
    t typ idx) := by
  unfold retireUnit
  repeat' first
    | with_reducible assumption
    | with_reducible apply setFlag_keeps
    | with_reducible apply recap_keeps
    | with_reducible apply requestStep_keeps
    | with_reducible apply watchCols_keeps
    | with_reducible apply faultSegs_keeps
    | with_reducible apply faultAll_keeps
    | with_reducible apply retireEffects_keeps
    | exact OptKeeps.of_none _
    | with_reducible apply OptKeeps.of_some
    | dsimp only
    | simp only [keeps_mk]
    | (with_reducible refine Keeps.parts ?_)
    | split

theorem afterRetire_keeps {b t : State} (h : Keeps false b t) : Keeps false b (afterRetire t) := by
  unfold afterRetire
  repeat' first
    | with_reducible assumption
    | intro _
    | with_reducible apply sweepRuns_keeps
    | with_reducible apply settleUnit_keeps
    | with_reducible apply Keeps.of_foldl
    | split

theorem retire_keeps {b t : State} (typ : Nat) (idx : Nat) (code : Nat) (arg1 : Nat) (h : Keeps false b t) : Keeps
    false b (retire t typ idx code arg1) := by
  unfold retire
  repeat' first
    | with_reducible assumption
    | with_reducible apply logEvent_keeps
    | with_reducible apply retireUnit_keeps
    | with_reducible apply afterRetire_keeps
    | (with_reducible apply OptKeeps.of; with_reducible assumption)
    | split

theorem retireDie_keeps {b t : State} (d : Nat) (h : Keeps false b t) : Keeps false b (retireDie t d) := by
  unfold retireDie
  repeat' first
    | with_reducible assumption
    | intro _
    | with_reducible apply logEvent_keeps
    | with_reducible apply retireUnit_keeps
    | with_reducible apply afterRetire_keeps
    | with_reducible apply OptKeeps.getD
    | with_reducible apply Keeps.of_foldl

theorem countUe_keeps {b t : State} (typ : Nat) (idx : Nat) (h : Keeps false b t) : Keeps false b (countUe t typ
    idx) := by
  unfold countUe
  repeat' first
    | with_reducible assumption
    | with_reducible apply retire_keeps
    | dsimp only
    | simp only [keeps_mk]
    | (with_reducible refine Keeps.parts ?_)
    | split

end Sys2Proof.Machine
end

