-- ==== Sys2Proof/Laws/Mem.lean ====
section
/-! SUPPORT. What the operations and rows of Sys2Proof/Machine/Mem.lean keep: `Keeps true` stores nothing, `Keeps q` for
every q likewise, `Keeps false` may store; `Retains` is said of the rows that write a quiet part. -/
namespace Sys2Proof.Machine

theorem afterRes_keeps {α : Type} {q : Bool} {b : State} (z : State × Res α) (f : State → α → State) (g : State → Fail → State)
    (h : Keeps q b z.1) (hf : ∀ u a, Keeps q b u → Keeps q b (f u a)) (hg : ∀ u a, Keeps q b u → Keeps q b (g u a)) :
    Keeps q b (afterRes z f g) := by
  obtain ⟨u, r⟩ := z
  cases r
  · exact hf _ _ h
  · exact hg _ _ h

theorem afterRes_fst_keeps {α β : Type} {q : Bool} {b : State} (z : State × Res α) (f : State → α → State × β)
    (g : State → Fail → State × β) (h : Keeps q b z.1) (hf : ∀ u a, Keeps q b u → Keeps q b (f u a).1)
    (hg : ∀ u a, Keeps q b u → Keeps q b (g u a).1) : Keeps q b (afterRes z f g).1 := by
  obtain ⟨u, r⟩ := z
  cases r
  · exact hf _ _ h
  · exact hg _ _ h

theorem findLeaf_keeps {q : Bool} {b t : State} (c : Nat) (va : Nat) (wr : Bool) (h : Keeps q b t) : Keeps q b
    (findLeaf t c va wr).1 := by
  unfold findLeaf
  repeat' first
    | with_reducible assumption
    | with_reducible apply takeChoice_keeps
    | simp only [takeChoice]
    | intro _
    | (with_reducible apply Keeps.of_pair; with_reducible assumption)
    | with_reducible apply Keeps.of_foldl
    | dsimp only
    | simp only [keeps_mk]
    | (with_reducible refine Keeps.parts ?_)
    | split

theorem recordFault_keeps {q : Bool} {b t : State} (c : Nat) (va : Nat) (cause : Nat) (wr : Bool) (h : Keeps q b t)
    : Keeps q b (recordFault t c va cause wr) := by
  unfold recordFault
  repeat' first
    | with_reducible assumption
    | with_reducible apply setFlag_keeps
    | with_reducible apply setFlagIf_keeps
    | dsimp only
    | simp only [keeps_mk]
    | (with_reducible refine Keeps.parts ?_)
    | split

theorem xlate_keeps {q : Bool} {b t : State} (g : Agent) (va : Nat) (wr : Bool) (h : Keeps q b t) : Keeps q b (xlate t
    g va wr).1 := by
  unfold xlate
  repeat' first
    | with_reducible assumption
    | with_reducible apply findLeaf_keeps
    | with_reducible apply recordFault_keeps
    | intro _
    | (with_reducible apply Keeps.of_pair; with_reducible assumption)
    | with_reducible apply Keeps.of_foldl
    | dsimp only
    | simp only [keeps_mk]
    | (with_reducible refine Keeps.parts ?_)
    | split

theorem setCells_keeps {q : Bool} {b t : State} (tgt : Nat) (c : Tbl Nat) (h : Keeps q b t) : Keeps q b (setCells t
    tgt c) := by
  unfold setCells
  repeat' first
    | with_reducible assumption
    | dsimp only
    | simp only [keeps_mk]
    | (with_reducible refine Keeps.parts ?_)
    | split

theorem countCe_keeps {q : Bool} {b t : State} (tgt : Nat) (off : Nat) (h : Keeps q b t) : Keeps q b (countCe t tgt
    off) := by
  unfold countCe
  repeat' first
    | with_reducible assumption
    | with_reducible apply setFlag_keeps
    | with_reducible apply corrected_keeps
    | intro _
    | (with_reducible apply Keeps.of_pair; with_reducible assumption)
    | with_reducible apply Keeps.of_foldl
    | dsimp only
    | simp only [keeps_mk]
    | (with_reducible refine Keeps.parts ?_)
    | split

theorem countMemUe_keeps {b t : State} (tgt : Nat) (off : Nat) (h : Keeps false b t) : Keeps false b (countMemUe t tgt
    off) := by
  unfold countMemUe
  repeat' first
    | with_reducible assumption
    | with_reducible apply setFlag_keeps
    | with_reducible apply countUe_keeps
    | intro _
    | (with_reducible apply Keeps.of_pair; with_reducible assumption)
    | with_reducible apply Keeps.of_foldl
    | dsimp only
    | simp only [keeps_mk]
    | (with_reducible refine Keeps.parts ?_)
    | split

theorem senseCell_keeps {b t : State} (tgt : Nat) (e : Nat × Nat) (h : Keeps false b t) : Keeps false b (senseCell t
    tgt e) := by
  unfold senseCell
  repeat' first
    | with_reducible assumption
    | with_reducible apply setCells_keeps
    | with_reducible apply countCe_keeps
    | with_reducible apply countMemUe_keeps
    | dsimp only
    | split

theorem writeCells_keeps {b t : State} (tgt : Nat) (a : Nat) (n : Nat) (h : Keeps false b t) : Keeps false b
    (writeCells t tgt a n) := by
  unfold writeCells
  repeat' first
    | with_reducible assumption
    | intro _
    | with_reducible apply setCells_keeps
    | with_reducible apply senseCell_keeps
    | with_reducible apply Keeps.of_foldl
    | split

theorem poisonCells_keeps {q : Bool} {b t : State} (tgt : Nat) (a : Nat) (n : Nat) (h : Keeps q b t) : Keeps q b
    (poisonCells t tgt a n) := by
  unfold poisonCells
  repeat' first
    | with_reducible assumption
    | intro _
    | with_reducible apply setCells_keeps
    | with_reducible apply Keeps.of_foldl
    | dsimp only
    | split

theorem strayRa_keeps {q : Bool} {b t : State} (h : Keeps q b t) : Keeps q b (strayRa t) := by
  unfold strayRa
  repeat' first
    | with_reducible assumption
    | dsimp only
    | simp only [keeps_mk]
    | (with_reducible refine Keeps.parts ?_)

theorem snoopAs_keeps {q : Bool} {b t : State} (p : Place) (h : Keeps q b t) : Keeps q b (snoopAs t p) := by
  unfold snoopAs
  repeat' first
    | with_reducible assumption
    | intro _
    | (with_reducible apply Keeps.of_pair; with_reducible assumption)
    | with_reducible apply Keeps.of_foldl
    | dsimp only
    | simp only [keeps_mk]
    | (with_reducible refine Keeps.parts ?_)
    | split

theorem readHost_keeps {q : Bool} {b t : State} (a : Nat) (n : Nat) (d : Nat) (h : Keeps q b t) : Keeps q b (readHost
    t a n d).1 := by
  unfold readHost
  repeat' first
    | with_reducible assumption
    | with_reducible apply setFlag_keeps
    | intro _
    | (with_reducible apply Keeps.of_pair; with_reducible assumption)
    | with_reducible apply Keeps.of_foldl
    | dsimp only
    | simp only [keeps_mk]
    | (with_reducible refine Keeps.parts ?_)
    | split

theorem readPlace_keeps {b t : State} (g : Agent) (p : Place) (n : Nat) (d : Nat) (h : Keeps false b t) : Keeps false
    b (readPlace t g p n d).1 := by
  unfold readPlace
  repeat' first
    | with_reducible assumption
    | with_reducible apply senseCell_keeps
    | with_reducible apply strayRa_keeps
    | with_reducible apply snoopAs_keeps
    | with_reducible apply readHost_keeps
    | with_reducible apply setFlag_keeps
    | intro _
    | (with_reducible apply Keeps.of_pair; with_reducible assumption)
    | with_reducible apply Keeps.of_foldl
    | dsimp only
    | simp only [keeps_mk]
    | (with_reducible refine Keeps.parts ?_)
    | split

theorem readPieces_keeps {b t : State} (g : Agent) (y0 : List (Nat × Nat)) (y1 : Data) (h : Keeps false b t) : Keeps
    false b (readPieces t g y0 y1).1 := by
  revert h
  fun_induction readPieces t g y0 y1 <;> intro h
  all_goals
   repeat' first
    | with_reducible assumption
    | with_reducible apply xlate_keeps
    | with_reducible apply readPlace_keeps
    | with_reducible apply_assumption
    | (with_reducible apply Keeps.of_pair; with_reducible assumption)

theorem readDev_keeps {b t : State} (g : Agent) (va : Nat) (n : Nat) (h : Keeps false b t) : Keeps false b (readDev
    t g va n).1 := by
  unfold readDev
  repeat' first
    | with_reducible assumption
    | with_reducible apply readPieces_keeps

theorem consumed_keeps {q : Bool} {b t : State} (g : Agent) (p : Poison) (h : Keeps q b t) : Keeps q b (consumed t g
    p) := by
  unfold consumed
  repeat' first
    | with_reducible assumption
    | with_reducible apply setFlag_keeps
    | with_reducible apply pushLog_keeps

theorem readUse_keeps {b t : State} (g : Agent) (va : Nat) (n : Nat) (h : Keeps false b t) : Keeps false b (readUse
    t g va n).1 := by
  unfold readUse
  repeat' first
    | with_reducible assumption
    | with_reducible apply readDev_keeps
    | with_reducible apply consumed_keeps
    | (with_reducible apply Keeps.of_pair; with_reducible assumption)
    | split

theorem storePlace_keeps {b t : State} (g : Agent) (p : Place) (bytes : List Byte) (h : Keeps false b t) : Keeps false
    b (storePlace t g p bytes) := by
  unfold storePlace
  repeat' first
    | with_reducible assumption
    | with_reducible apply writeCells_keeps
    | with_reducible apply strayRa_keeps
    | with_reducible apply snoopAs_keeps
    | (with_reducible refine Keeps.host ?_ ?_)
    | (with_reducible refine Keeps.hbm ?_ ?_)
    | (with_reducible refine Keeps.ssram ?_ ?_)
    | (with_reducible refine Keeps.peer ?_ ?_)
    | (with_reducible exact tblWf_putBytes (by assumption) _ _)
    | intro _
    | (with_reducible apply Keeps.of_pair; with_reducible assumption)
    | with_reducible apply Keeps.of_foldl
    | dsimp only
    | simp only [keeps_mk]
    | (with_reducible refine Keeps.parts ?_)
    | split

theorem storePoison_keeps {b t : State} (g : Agent) (p : Place) (d : Nat) (n : Nat) (poison : List Poison) (h :
    Keeps false b t) : Keeps false b (storePoison t g p d n poison) := by
  unfold storePoison
  repeat' first
    | with_reducible assumption
    | intro _
    | with_reducible apply poisonCells_keeps
    | with_reducible apply Keeps.of_foldl
    | dsimp only
    | simp only [keeps_mk]
    | (with_reducible refine Keeps.host ?_ ?_)
    | (with_reducible exact tblWf_putBytes (by assumption) _ _)
    | split
    | simp only [takeChoice]

theorem xlatePieces_keeps {q : Bool} {b t : State} (g : Agent) (y0 : List (Nat × Nat)) (y1 : List Place) (h : Keeps
    q b t) : Keeps q b (xlatePieces t g y0 y1).1 := by
  revert h
  fun_induction xlatePieces t g y0 y1 <;> intro h
  all_goals
   repeat' first
    | with_reducible assumption
    | with_reducible apply xlate_keeps
    | with_reducible apply_assumption
    | (with_reducible apply Keeps.of_pair; with_reducible assumption)

theorem storeParts_keeps {b t : State} (g : Agent) (keep : Nat → Bool) (data : Data) (y0 : List (Nat × Place)) (y1 :
    Nat) (y2 : Nat) (h : Keeps false b t) : Keeps false b (storeParts t g keep data y0 y1 y2) := by
  revert h
  fun_induction storeParts t g keep data y0 y1 y2 <;> intro h
  all_goals
   repeat' first
    | with_reducible assumption
    | with_reducible apply storePlace_keeps
    | with_reducible apply storePoison_keeps
    | with_reducible apply_assumption
    | split
    | dsimp +zetaDelta only

theorem writeDev_keeps {b t : State} (g : Agent) (va : Nat) (data : Data) (h : Keeps false b t) : Keeps false b
    (writeDev t g va data).1 := by
  unfold writeDev
  repeat' first
    | with_reducible assumption
    | with_reducible apply takeChoice_keeps
    | with_reducible apply xlatePieces_keeps
    | with_reducible apply storeParts_keeps
    | (with_reducible apply Keeps.of_pair; with_reducible assumption)
    | dsimp only
    | split

theorem writeBytes_keeps {b t : State} (g : Agent) (va : Nat) (bytes : List Byte) (h : Keeps false b t) : Keeps
    false b (writeBytes t g va bytes).1 := by
  unfold writeBytes
  repeat' first
    | with_reducible assumption
    | with_reducible apply writeDev_keeps

end Sys2Proof.Machine
end

