-- ==== Sys2Proof/Laws/Shed.lean ====
section
/-! SUPPORT. What the operations and rows of Sys2Proof/Machine/Shed.lean keep: `Keeps true` stores nothing, `Keeps q` for
every q likewise, `Keeps false` may store; `Retains` is said of the rows that write a quiet part. -/
namespace Sys2Proof.Machine

theorem shedRuns_keeps {b t : State} (p : Run → Bool) (h : Keeps false b t) : Keeps false b (shedRuns t p) := by
  unfold shedRuns
  repeat' first
    | with_reducible assumption
    | intro _
    | with_reducible apply modRun_keeps
    | with_reducible apply finishRun_keeps
    | with_reducible apply freeUnit_keeps
    | with_reducible apply Keeps.of_foldl
    | split

theorem stopInsts_keeps {q : Bool} {b t : State} (l : List Nat) (h : Keeps q b t) : Keeps q b (stopInsts t l) := by
  unfold stopInsts
  repeat' first
    | with_reducible assumption
    | intro _
    | with_reducible apply applyStep_keeps
    | with_reducible apply Keeps.of_foldl

theorem dropCols_keeps {q : Bool} {b t : State} (l : List Nat) (h : Keeps q b t) : Keeps q b (dropCols t l) := by
  unfold dropCols
  repeat' first
    | with_reducible assumption
    | with_reducible apply setArr_keeps
    | intro _
    | (with_reducible apply Keeps.of_pair; with_reducible assumption)
    | with_reducible apply Keeps.of_foldl
    | dsimp only
    | simp only [keeps_mk]
    | (with_reducible refine Keeps.parts ?_)
    | split

theorem endCols_keeps {q : Bool} {b t : State} (h : Keeps q b t) : Keeps q b (endCols t) := by
  unfold endCols
  repeat' first
    | with_reducible assumption
    | intro _
    | (with_reducible apply Keeps.of_pair; with_reducible assumption)
    | with_reducible apply Keeps.of_foldl
    | dsimp only
    | simp only [keeps_mk]
    | (with_reducible refine Keeps.parts ?_)
    | split

theorem freeArrays_keeps {q : Bool} {b t : State} (h : Keeps q b t) : Keeps q b (freeArrays t) := by
  unfold freeArrays
  repeat' first
    | with_reducible assumption
    | dsimp only
    | simp only [keeps_mk]
    | (with_reducible refine Keeps.parts ?_)

theorem shedGroup_keeps {b t : State} (n : Nat) (h : Keeps false b t) : Keeps false b (shedGroup t n) := by
  unfold shedGroup
  repeat' first
    | with_reducible assumption
    | with_reducible apply setFlag_keeps
    | with_reducible apply shedRuns_keeps
    | with_reducible apply stopInsts_keeps
    | with_reducible apply dropCols_keeps
    | with_reducible apply endCols_keeps
    | with_reducible apply freeArrays_keeps
    | (with_reducible refine Keeps.ssram ?_ ?_)
    | (with_reducible exact tblWf_nil)
    | simp only [loseSsram]
    | intro _
    | (with_reducible apply Keeps.of_pair; with_reducible assumption)
    | with_reducible apply Keeps.of_foldl
    | dsimp only
    | simp only [keeps_mk]
    | (with_reducible refine Keeps.parts ?_)
    | split

theorem warmRefs_keeps {q : Bool} {b t : State} (h : Keeps q b t) : Keeps q b (warmRefs t) := by
  unfold warmRefs
  repeat' first
    | with_reducible assumption
    | with_reducible apply refsRecheck_keeps
    | intro _
    | (with_reducible apply Keeps.of_pair; with_reducible assumption)
    | with_reducible apply Keeps.of_foldl
    | dsimp only
    | simp only [keeps_mk]
    | (with_reducible refine Keeps.parts ?_)
    | split

/-- A cold reset empties the device memories and the register words, and unseals. -/
theorem coldReset_retains {b t : State} (h : Retains b t) : Retains b (coldReset t) := by
  refine h.trans ⟨rfl, rfl, fun w => ?_, fun _ => tblWf_nil, fun _ e => nomatch e⟩
  have k := (Memory.wf_iff _).1 w
  exact (Memory.wf_iff _).2 ⟨k.1, tblWf_nil, tblWf_nil, k.2.2.2⟩

theorem tblWf_warmRegs {t : State} (h : RegsWf t) : tblWf (warmRegs t) = true := by
  unfold warmRegs
  refine tblWf_filterMap h _ ?_
  intro e x hx
  dsimp only at hx
  split at hx
  · exact nomatch hx
  · exact (Option.some.inj hx) ▸ rfl

theorem warmReset_retains {b t : State} (h : Retains b t) : Retains b (warmReset t) := by
  unfold warmReset
  split
  · exact h
  · dsimp only
    refine Retains.keeps (q := true) (h.trans ?_) (warmRefs_keeps (setFlag_keeps _ (Keeps.refl _)))
    exact ⟨(coldReset_retains (Retains.refl t)).pending, rfl,
      (coldReset_retains (Retains.refl t)).mem, fun w => tblWf_warmRegs w, fun _ e => nomatch e⟩

end Sys2Proof.Machine
end

