-- ==== Sys2Proof/Laws/Boot.lean ====
section
/-! SUPPORT. What the operations and rows of Sys2Proof/Machine/Boot.lean keep: `Keeps true` stores nothing, `Keeps q` for
every q likewise, `Keeps false` may store; `Retains` is said of the rows that write a quiet part. -/
namespace Sys2Proof.Machine

theorem execPwrokAssert_keeps {q : Bool} {b t : State} (h : Keeps q b t) : OutKeeps q b (execPwrokAssert t) := by
  unfold execPwrokAssert
  repeat' first
    | with_reducible apply OutKeeps.done
    | with_reducible assumption
    | dsimp only
    | simp only [keeps_mk]
    | (with_reducible refine Keeps.parts ?_)
    | split

theorem linkOff_keeps {q : Bool} {b t : State} (h : Keeps q b t) : Keeps q b (linkOff t) := by
  unfold linkOff
  repeat' first
    | with_reducible assumption
    | intro _
    | (with_reducible apply Keeps.of_pair; with_reducible assumption)
    | with_reducible apply Keeps.of_foldl
    | dsimp only
    | simp only [keeps_mk]
    | (with_reducible refine Keeps.parts ?_)
    | split

theorem execColdReset_retains {b t : State} (h : Retains b t) : OutRetains b (execColdReset t) := by
  unfold execColdReset
  repeat' first
    | with_reducible apply OutRetains.done
    | with_reducible assumption
    | with_reducible apply coldReset_retains

theorem portOff_keeps {q : Bool} {b t : State} (h : Keeps q b t) : Keeps q b (portOff t) := by
  unfold portOff
  repeat' first
    | with_reducible assumption
    | with_reducible apply linkOff_keeps
    | intro _
    | (with_reducible apply Keeps.of_pair; with_reducible assumption)
    | with_reducible apply Keeps.of_foldl
    | dsimp only
    | simp only [keeps_mk]
    | (with_reducible refine Keeps.parts ?_)
    | split

theorem execPerstAssert_retains {b t : State} (h : Retains b t) : OutRetains b (execPerstAssert t) := by
  unfold execPerstAssert
  repeat' first
    | with_reducible apply OutRetains.done
    | with_reducible assumption
    | with_reducible apply warmReset_retains
    | refine Retains.keeps (q := false) ?_ (by (with_reducible apply portOff_keeps) <;> exact Keeps.refl _)
    | dsimp only
    | split
    | simp only [retains_mk]
    | (with_reducible refine Retains.as ?_)

theorem execPerstDeassert_keeps {q : Bool} {b t : State} (h : Keeps q b t) : OutKeeps q b (execPerstDeassert t) :=
    by
  unfold execPerstDeassert
  repeat' first
    | with_reducible apply OutKeeps.done
    | with_reducible assumption
    | dsimp only
    | simp only [keeps_mk]
    | (with_reducible refine Keeps.parts ?_)

theorem execDlDown_retains {b t : State} (h : Retains b t) : OutRetains b (execDlDown t) := by
  unfold execDlDown
  repeat' first
    | with_reducible apply OutRetains.done
    | with_reducible assumption
    | refine Retains.keeps (q := false) ?_ (by (with_reducible apply linkOff_keeps) <;> exact Keeps.refl _)
    | with_reducible apply warmReset_retains
    | refine Retains.keeps (q := false) ?_ (by (with_reducible apply portOff_keeps) <;> exact Keeps.refl _)
    | split
    | dsimp only
    | simp only [retains_mk]
    | (with_reducible refine Retains.as ?_)

theorem execPfFlr_retains {b t : State} (h : Retains b t) : OutRetains b (execPfFlr t) := by
  unfold execPfFlr
  repeat' first
    | with_reducible apply OutRetains.done
    | with_reducible assumption
    | with_reducible apply warmReset_retains
    | split

theorem loadImage_keeps {q : Bool} {b t : State} (slot : Nat) (fallback : Bool) (h : Keeps q b t) : Keeps q b
    (loadImage t slot fallback) := by
  unfold loadImage
  repeat' first
    | with_reducible assumption
    | dsimp only
    | simp only [keeps_mk]
    | (with_reducible refine Keeps.parts ?_)

theorem execBootImageCheck_keeps {q : Bool} {b t : State} (h : Keeps q b t) : OutKeeps q b (execBootImageCheck t) :=
    by
  unfold execBootImageCheck
  repeat' first
    | with_reducible apply OutKeeps.done
    | with_reducible assumption
    | with_reducible apply loadImage_keeps
    | dsimp only
    | simp only [keeps_mk]
    | (with_reducible refine Keeps.parts ?_)
    | split

theorem startAll_keeps {q : Bool} {b t : State} (h : Keeps q b t) : Keeps q b (startAll t) := by
  unfold startAll
  repeat' first
    | with_reducible assumption
    | intro _
    | with_reducible apply requestStep_keeps
    | with_reducible apply Keeps.of_foldl
    | split

theorem execFwUp_keeps {q : Bool} {b t : State} (h : Keeps q b t) : OutKeeps q b (execFwUp t) := by
  unfold execFwUp
  repeat' first
    | with_reducible apply OutKeeps.done
    | with_reducible assumption
    | with_reducible apply startAll_keeps
    | intro _
    | (with_reducible apply Keeps.of_pair; with_reducible assumption)
    | with_reducible apply Keeps.of_foldl
    | dsimp only
    | simp only [keeps_mk]
    | (with_reducible refine Keeps.parts ?_)
    | split

theorem retireFailed_keeps {q : Bool} {b t : State} (failed : List (Nat × Nat)) (h : Keeps q b t) : Keeps q b
    (retireFailed t failed) := by
  unfold retireFailed
  repeat' first
    | with_reducible assumption
    | intro _
    | with_reducible apply Keeps.of_foldl
    | simp only [keeps_mk]
    | (with_reducible refine Keeps.parts ?_)
    | split

theorem failD2d_keeps {q : Bool} {b t : State} (d : Nat) (h : Keeps q b t) : Keeps q b (failD2d t d) := by
  unfold failD2d
  repeat' first
    | with_reducible assumption
    | with_reducible apply retireFailed_keeps
    | dsimp only
    | simp only [keeps_mk]
    | (with_reducible refine Keeps.parts ?_)
    | split

theorem dropRetired_keeps {q : Bool} {b t : State} (h : Keeps q b t) : Keeps q b (dropRetired t) := by
  unfold dropRetired
  repeat' first
    | with_reducible assumption
    | with_reducible apply beginStop_keeps
    | with_reducible apply requestStep_keeps
    | intro _
    | (with_reducible apply Keeps.of_pair; with_reducible assumption)
    | with_reducible apply Keeps.of_foldl
    | dsimp only
    | simp only [keeps_mk]
    | (with_reducible refine Keeps.parts ?_)
    | split

theorem execMapDone_keeps {q : Bool} {b t : State} (failed : List (Nat × Nat)) (hedgerowBad : Bool) (d2dBad : List
    Nat) (h : Keeps q b t) : OutKeeps q b (execMapDone failed hedgerowBad d2dBad t) := by
  unfold execMapDone
  repeat' first
    | with_reducible apply OutKeeps.done
    | with_reducible assumption
    | with_reducible apply recap_keeps
    | with_reducible apply retireFailed_keeps
    | with_reducible apply failD2d_keeps
    | with_reducible apply dropRetired_keeps
    | intro _
    | (with_reducible apply Keeps.of_pair; with_reducible assumption)
    | with_reducible apply Keeps.of_foldl
    | dsimp only
    | simp only [keeps_mk]
    | (with_reducible refine Keeps.parts ?_)
    | split

theorem execReady_retains {b t : State} (h : Retains b t) : OutRetains b (execReady t) := by
  unfold execReady
  repeat' first
    | with_reducible apply OutRetains.done
    | with_reducible assumption
    | refine Retains.keeps (q := false) ?_ (by (with_reducible apply updateFloor_keeps) <;> exact Keeps.refl _)
    | dsimp only
    | split
    | simp only [retains_mk]
    | (with_reducible refine Retains.as ?_)

theorem restartEzdan_keeps {q : Bool} {b t : State} (cause : Nat) (h : Keeps q b t) : Keeps q b (restartEzdan t
    cause) := by
  unfold restartEzdan
  repeat' first
    | with_reducible assumption
    | with_reducible apply logEvent_keeps
    | with_reducible apply updateFloor_keeps
    | dsimp only
    | simp only [keeps_mk]
    | (with_reducible refine Keeps.parts ?_)
    | split

theorem execLockstepMismatch_keeps {q : Bool} {b t : State} (h : Keeps q b t) : OutKeeps q b (execLockstepMismatch t)
    := by
  unfold execLockstepMismatch
  repeat' first
    | with_reducible apply OutKeeps.done
    | with_reducible assumption
    | with_reducible apply linkOff_keeps
    | with_reducible apply restartEzdan_keeps
    | with_reducible apply portOff_keeps
    | intro _
    | (with_reducible apply Keeps.of_pair; with_reducible assumption)
    | with_reducible apply Keeps.of_foldl
    | dsimp only
    | simp only [keeps_mk]
    | (with_reducible refine Keeps.parts ?_)
    | split

theorem execFwWatchdogExpire_keeps {q : Bool} {b t : State} (h : Keeps q b t) : OutKeeps q b (execFwWatchdogExpire
    t) := by
  unfold execFwWatchdogExpire
  repeat' first
    | with_reducible apply OutKeeps.done
    | with_reducible assumption
    | with_reducible apply restartEzdan_keeps
    | split

theorem mboxCommand_retains {b t : State} (code : Nat) (f : State → State × Nat) (h : Retains b t) (hf : ∀ a0,
    Retains b a0 → Retains b (f a0).1) : Retains b (mboxCommand t code f) := by
  unfold mboxCommand
  repeat' first
    | with_reducible assumption
    | with_reducible apply hf
    | refine Retains.keeps (q := false) ?_ (by (with_reducible apply setFlag_keeps) <;> exact Keeps.refl _)
    | dsimp only
    | split
    | simp only [retains_mk]
    | (with_reducible refine Retains.as ?_)

theorem execLogRead_retains {b t : State} (h : Retains b t) : OutRetains b (execLogRead t) := by
  unfold execLogRead
  repeat' first
    | with_reducible apply OutRetains.done
    | with_reducible assumption
    | intro _
    | with_reducible apply mboxCommand_retains
    | dsimp only
    | split
    | simp only [retains_mk]
    | (with_reducible refine Retains.as ?_)

theorem execFlashWrite_retains {b t : State} (h : Retains b t) : OutRetains b (execFlashWrite t) := by
  unfold execFlashWrite
  repeat' first
    | with_reducible apply OutRetains.done
    | with_reducible assumption
    | intro _
    | refine Retains.keeps (q := false) ?_ (by (with_reducible apply takeChoice_keeps) <;> exact Keeps.refl _)
    | with_reducible apply mboxCommand_retains
    | dsimp only
    | split
    | simp only [retains_mk]
    | (with_reducible refine Retains.as ?_)

theorem execFlashActivate_retains {b t : State} (h : Retains b t) : OutRetains b (execFlashActivate t) := by
  unfold execFlashActivate
  repeat' first
    | with_reducible apply OutRetains.done
    | with_reducible assumption
    | intro _
    | refine Retains.keeps (q := false) ?_ (by (with_reducible apply takeChoice_keeps) <;> exact Keeps.refl _)
    | with_reducible apply mboxCommand_retains
    | dsimp only
    | split
    | simp only [retains_mk]
    | (with_reducible refine Retains.as ?_)

theorem execWarmReset_retains {b t : State} (h : Retains b t) : OutRetains b (execWarmReset t) := by
  unfold execWarmReset
  repeat' first
    | with_reducible apply OutRetains.done
    | with_reducible assumption
    | refine Retains.keeps (q := false) ?_ (by (with_reducible apply setFlag_keeps) <;> exact Keeps.refl _)
    | with_reducible apply warmReset_retains
    | split

/-- Only the fused security version changes, and only to that of the running image (R103). -/
theorem execSvnCommit_seals {p : Prop} (hp : p) (t u : State) (e : execSvnCommit t = .next u) : SealKeeps p t u := by
  have e := Host.Outcome.next.inj e
  subst e
  unfold mboxCommand
  split
  · exact (Retains.refl t).toSeal
  · split
    · exact ((Retains.refl t).keeps (q := true) (setFlag_keeps _ (Keeps.refl t))).toSeal
    · dsimp only
      split
      · exact Retains.toSeal ((Retains.refl t).fields rfl rfl rfl rfl rfl)
      · exact ⟨rfl, rfl, .inr ⟨hp, rfl⟩, id, id, fun _ _ _ _ => rfl⟩

theorem execMboxUnknown_retains {b t : State} (code : Nat) (h : Retains b t) : OutRetains b (execMboxUnknown code t)
    := by
  unfold execMboxUnknown
  repeat' first
    | with_reducible apply OutRetains.done
    | with_reducible assumption
    | intro _
    | with_reducible apply mboxCommand_retains

theorem execMboxDone_retains {b t : State} (h : Retains b t) : OutRetains b (execMboxDone t) := by
  unfold execMboxDone
  repeat' first
    | with_reducible apply OutRetains.done
    | with_reducible assumption
    | dsimp only
    | split
    | simp only [retains_mk]
    | (with_reducible refine Retains.as ?_)

theorem smbAnswer_retains {b t : State} (l : List Byte) (h : Retains b t) : Retains b (smbAnswer t l) := by
  unfold smbAnswer
  repeat' first
    | with_reducible assumption
    | split
    | simp only [retains_mk]
    | (with_reducible refine Retains.as ?_)
    | dsimp only

theorem execSmbBootStage_retains {b t : State} (h : Retains b t) : OutRetains b (execSmbBootStage t) := by
  unfold execSmbBootStage
  repeat' first
    | with_reducible apply OutRetains.done
    | with_reducible assumption
    | with_reducible apply smbAnswer_retains
    | dsimp only
    | split
    | simp only [retains_mk]
    | (with_reducible refine Retains.as ?_)

theorem execSmbTjMax_retains {b t : State} (h : Retains b t) : OutRetains b (execSmbTjMax t) := by
  unfold execSmbTjMax
  repeat' first
    | with_reducible apply OutRetains.done
    | with_reducible assumption
    | with_reducible apply smbAnswer_retains
    | dsimp only
    | split
    | simp only [retains_mk]
    | (with_reducible refine Retains.as ?_)

theorem execSmbShedState_retains {b t : State} (h : Retains b t) : OutRetains b (execSmbShedState t) := by
  unfold execSmbShedState
  repeat' first
    | with_reducible apply OutRetains.done
    | with_reducible assumption
    | with_reducible apply smbAnswer_retains
    | dsimp only
    | split
    | simp only [retains_mk]
    | (with_reducible refine Retains.as ?_)

theorem execSmbRetiredCount_retains {b t : State} (h : Retains b t) : OutRetains b (execSmbRetiredCount t) := by
  unfold execSmbRetiredCount
  repeat' first
    | with_reducible apply OutRetains.done
    | with_reducible assumption
    | with_reducible apply smbAnswer_retains
    | dsimp only
    | split
    | simp only [retains_mk]
    | (with_reducible refine Retains.as ?_)

theorem execSmbErrorCodes_retains {b t : State} (h : Retains b t) : OutRetains b (execSmbErrorCodes t) := by
  unfold execSmbErrorCodes
  repeat' first
    | with_reducible apply OutRetains.done
    | with_reducible assumption
    | with_reducible apply smbAnswer_retains
    | dsimp only
    | split
    | simp only [retains_mk]
    | (with_reducible refine Retains.as ?_)

theorem execTapReset_retains {b t : State} (h : Retains b t) : OutRetains b (execTapReset t) := by
  unfold execTapReset
  repeat' first
    | with_reducible apply OutRetains.done
    | with_reducible assumption
    | dsimp only
    | simp only [retains_mk]
    | (with_reducible refine Retains.as ?_)

theorem execTckEdge_retains {b t : State} (tms : Bool) (tdi : Bool) (h : Retains b t) : OutRetains b (execTckEdge
    tms tdi t) := by
  unfold execTckEdge
  repeat' first
    | with_reducible apply OutRetains.done
    | with_reducible assumption
    | dsimp only
    | split
    | simp only [retains_mk]
    | (with_reducible refine Retains.as ?_)

end Sys2Proof.Machine
end

