-- ==== Sys2Proof/Laws/Layout.lean ====
section
/-! SUPPORT. What the operations and rows of Sys2Proof/Machine/Layout.lean keep: `Keeps true` stores nothing, `Keeps q` for
every q likewise, `Keeps false` may store; `Retains` is said of the rows that write a quiet part. -/
namespace Sys2Proof.Machine

theorem freshDescriptor_keeps {b t : State} (g : Agent) (h' : Nat) (h : Keeps false b t) :
    Keeps false b (freshDescriptor t g h').1 := by
  unfold freshDescriptor
  extract_lets base
  clear_value base
  have hr := readUse_keeps g (base + 64 * h') 64 h
  generalize readUse t g (base + 64 * h') 64 = p at hr ⊢
  obtain ⟨u, r⟩ := p
  cases r <;> exact hr

theorem cacheDescriptor_keeps {q : Bool} {b t : State} (g : Agent) (h' : Nat) (b' : List Byte) (h : Keeps q b t) :
    Keeps q b (cacheDescriptor t g h' b') := by
  unfold cacheDescriptor
  repeat' first
    | with_reducible assumption
    | dsimp only
    | simp only [keeps_mk]
    | (with_reducible refine Keeps.parts ?_)

theorem useCopy_keeps {q : Bool} {b t : State} (g : Agent) (h' : Nat) (b' : List Byte) (h : Keeps q b t) : Keeps q b
    (useCopy t g h' b') := by
  unfold useCopy
  repeat' first
    | with_reducible assumption
    | with_reducible apply modSeg_keeps
    | intro _
    | (with_reducible apply Keeps.of_pair; with_reducible assumption)
    | with_reducible apply Keeps.of_foldl
    | dsimp only
    | simp only [keeps_mk]
    | (with_reducible refine Keeps.parts ?_)
    | split

theorem firstCopy_keeps {b t : State} (g : Agent) (h' : Nat) (h : Keeps false b t) : Keeps false b (firstCopy t g
    h').1 := by
  unfold firstCopy
  have hf := freshDescriptor_keeps g h' h
  repeat' first
    | with_reducible assumption
    | with_reducible apply takeChoice_keeps
    | with_reducible apply afterRes_fst_keeps
    | with_reducible apply cacheDescriptor_keeps
    | intro _
    | dsimp only
    | split

theorem descriptor_keeps {b t : State} (g : Agent) (h' : Nat) (h : Keeps false b t) : Keeps false b (descriptor t g
    h').1 := by
  unfold descriptor
  have hf := firstCopy_keeps g h' h
  repeat' first
    | with_reducible assumption
    | with_reducible apply afterRes_fst_keeps
    | with_reducible apply useCopy_keeps
    | intro _
    | dsimp only
    | split

theorem operand_keeps {b t : State} (g : Agent) (ref : Nat) (store : Bool) (h : Keeps false b t) : Keeps false b
    (operand t g ref store).1 := by
  unfold operand
  repeat' first
    | with_reducible assumption
    | with_reducible apply descriptor_keeps
    | (with_reducible apply Keeps.of_pair; with_reducible assumption)
    | dsimp only
    | split

theorem readElem_keeps {b t : State} (g : Agent) (o : Operand) (idx : List Int) (h : Keeps false b t) : Keeps false
    b (readElem t g o idx).1 := by
  unfold readElem
  repeat' first
    | with_reducible assumption
    | with_reducible apply readUse_keeps
    | (with_reducible apply Keeps.of_pair; with_reducible assumption)
    | dsimp only
    | split

theorem readElems_keeps {b t : State} (g : Agent) (o : Operand) (y0 : List (List Int)) (y1 : List Nat) (h : Keeps
    false b t) : Keeps false b (readElems t g o y0 y1).1 := by
  revert h
  fun_induction readElems t g o y0 y1 <;> intro h
  all_goals
   repeat' first
    | with_reducible assumption
    | with_reducible apply readElem_keeps
    | with_reducible apply_assumption
    | (with_reducible apply Keeps.of_pair; with_reducible assumption)

theorem writeElem_keeps {b t : State} (g : Agent) (o : Operand) (idx : List Int) (w : Nat) (h : Keeps false b t) :
    Keeps false b (writeElem t g o idx w).1 := by
  unfold writeElem
  repeat' first
    | with_reducible assumption
    | with_reducible apply xlate_keeps
    | with_reducible apply storePlace_keeps
    | with_reducible apply writeBytes_keeps
    | (with_reducible apply Keeps.of_pair; with_reducible assumption)
    | dsimp only
    | split

theorem scaleOperand_keeps {b t : State} (g : Agent) (o : Operand) (real : Bool) (h : Keeps false b t) : Keeps false
    b (scaleOperand t g o real).1 := by
  unfold scaleOperand
  repeat' first
    | with_reducible assumption
    | with_reducible apply operand_keeps
    | (with_reducible apply Keeps.of_pair; with_reducible assumption)
    | dsimp only
    | split

theorem scaleAt_keeps {b t : State} (g : Agent) (o : Operand) (q' : Option Operand) (intp : Bool) (idx : List Int)
    (h : Keeps false b t) : Keeps false b (scaleAt t g o q' intp idx).1 := by
  unfold scaleAt
  repeat' first
    | with_reducible assumption
    | with_reducible apply readElem_keeps
    | split

theorem storeAccs_keeps {b t : State} (g : Agent) (o : Operand) (q : Option Operand) (l : List (List Int × AccVal)) (n : Nat)
    (h : Keeps false b t) : Keeps false b (storeAccs t g o q l n).1 := by
  induction l generalizing t n with
  | nil => exact h
  | cons e l ih =>
    obtain ⟨idx, a⟩ := e
    rw [storeAccs]
    split
    · exact ih _ h
    · split
      · rename_i e
        exact Keeps.of_pair e (scaleAt_keeps _ _ _ _ _ h)
      · rename_i e
        have hs := Keeps.of_pair e (scaleAt_keeps _ _ _ _ _ h)
        generalize xform _ _ _ _ = z
        obtain ⟨w, sat⟩ := z
        dsimp only
        split
        · rename_i e
          exact Keeps.of_pair e (writeElem_keeps _ _ _ _ hs)
        · rename_i e
          exact ih _ (Keeps.of_pair e (writeElem_keeps _ _ _ _ hs))

end Sys2Proof.Machine
end

