-- ==== Sys2Proof/Laws/Rings.lean ====
section
/-! SUPPORT. What the operations and rows of Sys2Proof/Machine/Rings.lean keep: `Keeps true` stores nothing, `Keeps q` for
every q likewise, `Keeps false` may store; `Retains` is said of the rows that write a quiet part. -/
namespace Sys2Proof.Machine

theorem doorbell_keeps {q : Bool} {b t : State} (fn : Nat) (page : Nat) (f : Nat → State) (h : Keeps q b t) (hf : ∀
    a0, Keeps q b (f a0)) : Keeps q b (doorbell t fn page f) := by
  unfold doorbell
  repeat' first
    | with_reducible assumption
    | with_reducible apply hf
    | dsimp only
    | simp only [keeps_mk]
    | (with_reducible refine Keeps.parts ?_)
    | split

theorem applySubmit_keeps {q : Bool} {b t : State} (r : Nat) (producer : Nat) (h : Keeps q b t) : Keeps q b
    (applySubmit t r producer) := by
  unfold applySubmit
  repeat' first
    | with_reducible assumption
    | with_reducible apply setRing_keeps
    | dsimp only
    | split

theorem stageWords_keeps {q : Bool} {b t : State} (fn : Nat) (page : Nat) (w0 : Nat) (w1 : Nat) (w2 : Nat) (h : Keeps
    q b t) : Keeps q b (stageWords t fn page w0 w1 w2) := by
  unfold stageWords
  repeat' first
    | with_reducible assumption
    | intro _
    | (with_reducible apply Keeps.of_pair; with_reducible assumption)
    | with_reducible apply Keeps.of_foldl
    | dsimp only
    | simp only [keeps_mk]
    | (with_reducible refine Keeps.parts ?_)
    | split

theorem execSubmit_keeps {q : Bool} {b t : State} (fn : Nat) (page : Nat) (producer : W32) (_gen : W32) (h : Keeps q b
    t) : OutKeeps q b (execSubmit fn page producer _gen t) := by
  unfold execSubmit
  repeat' first
    | with_reducible apply OutKeeps.done
    | with_reducible assumption
    | with_reducible apply doorbell_keeps
    | with_reducible apply applySubmit_keeps
    | with_reducible apply stageWords_keeps
    | intro _
    | (with_reducible apply Keeps.of_pair; with_reducible assumption)
    | with_reducible apply Keeps.of_foldl
    | dsimp only
    | simp only [keeps_mk]
    | (with_reducible refine Keeps.parts ?_)
    | split

theorem cancelSlot_keeps {q : Bool} {b t : State} (r : Nat) (x : Slot) (h : Keeps q b t) : Keeps q b (cancelSlot t r
    x) := by
  unfold cancelSlot
  repeat' first
    | with_reducible assumption
    | with_reducible apply modSlot_keeps
    | dsimp only
    | split

theorem cancelMiss_keeps {q : Bool} {b t : State} (r : Nat) (h : Keeps q b t) : Keeps q b (cancelMiss t r) := by
  unfold cancelMiss
  repeat' first
    | with_reducible assumption
    | with_reducible apply setRing_keeps

theorem applyCancel_keeps {q : Bool} {b t : State} (r : Nat) (t' : Nat) (h : Keeps q b t) : Keeps q b (applyCancel t r
    t') := by
  unfold applyCancel
  repeat' first
    | with_reducible assumption
    | with_reducible apply setRing_keeps
    | with_reducible apply cancelSlot_keeps
    | with_reducible apply cancelMiss_keeps
    | intro _
    | (with_reducible apply Keeps.of_pair; with_reducible assumption)
    | with_reducible apply Keeps.of_foldl
    | dsimp only
    | simp only [keeps_mk]
    | (with_reducible refine Keeps.parts ?_)
    | split

theorem execCancel_keeps {q : Bool} {b t : State} (fn : Nat) (page : Nat) (target : Nat) (h : Keeps q b t) : OutKeeps
    q b (execCancel fn page target t) := by
  unfold execCancel
  repeat' first
    | with_reducible apply OutKeeps.done
    | with_reducible assumption
    | with_reducible apply doorbell_keeps
    | with_reducible apply stageWords_keeps
    | with_reducible apply applyCancel_keeps
    | with_reducible apply setRing_keeps
    | with_reducible apply cancelSlot_keeps
    | with_reducible apply cancelMiss_keeps
    | intro _
    | (with_reducible apply Keeps.of_pair; with_reducible assumption)
    | with_reducible apply Keeps.of_foldl
    | dsimp only
    | simp only [keeps_mk]
    | (with_reducible refine Keeps.parts ?_)
    | split

theorem pageWrite_keeps {q : Bool} {b t : State} (fn : Nat) (off : Nat) (v : Nat) (h : Keeps q b t) : Keeps q b
    (pageWrite t fn off v) := by
  unfold pageWrite
  repeat' first
    | with_reducible assumption
    | with_reducible apply doorbell_keeps
    | with_reducible apply applySubmit_keeps
    | with_reducible apply stageWords_keeps
    | with_reducible apply applyCancel_keeps
    | intro _
    | (with_reducible apply Keeps.of_pair; with_reducible assumption)
    | with_reducible apply Keeps.of_foldl
    | dsimp only
    | simp only [keeps_mk]
    | (with_reducible refine Keeps.parts ?_)
    | split

theorem execPollRead_keeps {b t : State} (r : Nat) (h : Keeps false b t) : OutKeeps false b (execPollRead r t) := by
  unfold execPollRead
  repeat' first
    | with_reducible apply OutKeeps.done
    | with_reducible assumption
    | with_reducible apply setRing_keeps
    | with_reducible apply readUse_keeps
    | with_reducible apply applySubmit_keeps
    | intro _
    | (with_reducible apply Keeps.of_pair; with_reducible assumption)
    | with_reducible apply Keeps.of_foldl
    | dsimp only
    | simp only [keeps_mk]
    | (with_reducible refine Keeps.parts ?_)
    | split

theorem setCol_keeps {q : Bool} {b t : State} (c : Nat) (x : Collector) (h : Keeps q b t) : Keeps q b (setCol t c x)
    := by
  unfold setCol
  repeat' first
    | with_reducible assumption
    | simp only [keeps_mk]
    | (with_reducible refine Keeps.parts ?_)

theorem startHold_keeps {q : Bool} {b t : State} (r : Nat) (h : Keeps q b t) : Keeps q b (startHold t r) := by
  unfold startHold
  repeat' first
    | with_reducible assumption
    | with_reducible apply setCol_keeps
    | intro _
    | (with_reducible apply Keeps.of_pair; with_reducible assumption)
    | with_reducible apply Keeps.of_foldl
    | dsimp only
    | simp only [keeps_mk]
    | (with_reducible refine Keeps.parts ?_)
    | split

theorem addSlot_keeps {q : Bool} {b t : State} (r : Nat) (x : Slot) (h : Keeps q b t) : Keeps q b (addSlot t r x) :=
    by
  unfold addSlot
  repeat' first
    | with_reducible assumption
    | with_reducible apply setRing_keeps

theorem acceptSeq_keeps {q : Bool} {b t : State} (r : Nat) (h : Keeps q b t) : Keeps q b (acceptSeq t r) := by
  unfold acceptSeq
  repeat' first
    | with_reducible assumption
    | with_reducible apply setRing_keeps

theorem acceptSlot_keeps {q : Bool} {b t : State} (r : Nat) (x : Slot) (h : Keeps q b t) : Keeps q b (acceptSlot t r
    x) := by
  unfold acceptSlot
  repeat' first
    | with_reducible assumption
    | with_reducible apply setRing_keeps
    | with_reducible apply startHold_keeps
    | with_reducible apply addSlot_keeps
    | with_reducible apply acceptSeq_keeps
    | dsimp only
    | split

theorem takeDesc_keeps {q : Bool} {b t : State} (r : Nat) (d : Desc) (h : Keeps q b t) : Keeps q b (takeDesc t r d)
    := by
  unfold takeDesc
  repeat' first
    | with_reducible assumption
    | with_reducible apply setRing_keeps
    | with_reducible apply decide_keeps
    | with_reducible apply addSlot_keeps
    | with_reducible apply acceptSlot_keeps
    | dsimp only
    | split

theorem fetchFault_keeps {q : Bool} {b t : State} (r : Nat) (f : Fail) (h : Keeps q b t) : Keeps q b (fetchFault t r
    f) := by
  unfold fetchFault
  repeat' first
    | with_reducible assumption
    | with_reducible apply decide_keeps
    | with_reducible apply addSlot_keeps
    | with_reducible apply acceptSeq_keeps

theorem execDescriptorFetch_keeps {b t : State} (r : Nat) (h : Keeps false b t) : OutKeeps false b
    (execDescriptorFetch r t) := by
  unfold execDescriptorFetch
  repeat' first
    | with_reducible apply OutKeeps.done
    | with_reducible assumption
    | with_reducible apply readUse_keeps
    | with_reducible apply takeDesc_keeps
    | with_reducible apply fetchFault_keeps
    | (with_reducible apply Keeps.of_pair; with_reducible assumption)
    | dsimp only
    | split

theorem adminDone_keeps {q : Bool} {b t : State} (status : Nat) (result : Nat) (h : Keeps q b t) : Keeps q b
    (adminDone t status result) := by
  unfold adminDone
  repeat' first
    | with_reducible assumption
    | with_reducible apply decide_keeps
    | intro _
    | (with_reducible apply Keeps.of_pair; with_reducible assumption)
    | with_reducible apply Keeps.of_foldl
    | dsimp only
    | simp only [keeps_mk]
    | (with_reducible refine Keeps.parts ?_)
    | split

theorem resetEnds_keeps {q : Bool} {b t : State} (r : Nat) (by_ : Option Nat) (h : Keeps q b t) : Keeps q b (resetEnds
    t r by_) := by
  unfold resetEnds
  repeat' first
    | with_reducible assumption
    | with_reducible apply adminDone_keeps
    | intro _
    | (with_reducible apply Keeps.of_pair; with_reducible assumption)
    | with_reducible apply Keeps.of_foldl
    | dsimp only
    | simp only [keeps_mk]
    | (with_reducible refine Keeps.parts ?_)
    | split

theorem finishReset_keeps {q : Bool} {b t : State} (r : Nat) (h : Keeps q b t) : Keeps q b (finishReset t r) := by
  unfold finishReset
  repeat' first
    | with_reducible assumption
    | with_reducible apply clearFlag_keeps
    | with_reducible apply setRing_keeps
    | with_reducible apply resetEnds_keeps
    | with_reducible apply adminDone_keeps
    | intro _
    | (with_reducible apply Keeps.of_pair; with_reducible assumption)
    | with_reducible apply Keeps.of_foldl
    | dsimp only
    | simp only [keeps_mk]
    | (with_reducible refine Keeps.parts ?_)
    | split

theorem writeOutcome_keeps {b t : State} (r : Nat) (x : Slot) (o : Outcome) (h : Keeps false b t) : Keeps false b
    (writeOutcome t r x o).1 := by
  unfold writeOutcome
  repeat' first
    | with_reducible assumption
    | with_reducible apply writeBytes_keeps
    | (with_reducible apply Keeps.of_pair; with_reducible assumption)
    | dsimp only
    | split

theorem writeDuplicate_keeps {b t : State} (r : Nat) (x : Slot) (h : Keeps false b t) : Keeps false b
    (writeDuplicate t r x).1 := by
  unfold writeDuplicate
  repeat' first
    | with_reducible assumption
    | with_reducible apply readUse_keeps
    | with_reducible apply writeBytes_keeps
    | (with_reducible apply Keeps.of_pair; with_reducible assumption)
    | dsimp only
    | split

theorem historyHalt_keeps {q : Bool} {b t : State} (r : Nat) (x : Slot) (bad : Option Outcome) (h : Keeps q b t) :
    Keeps q b (historyHalt t r x bad) := by
  unfold historyHalt
  repeat' first
    | with_reducible assumption
    | with_reducible apply logList_keeps
    | with_reducible apply haltRing_keeps
    | dsimp only
    | split

theorem execCompletionWrite_keeps {b t : State} (r : Nat) (h : Keeps false b t) : OutKeeps false b
    (execCompletionWrite r t) := by
  unfold execCompletionWrite
  repeat' first
    | with_reducible apply OutKeeps.done
    | with_reducible assumption
    | intro _
    | with_reducible apply requestVec_keeps
    | with_reducible apply setRing_keeps
    | with_reducible apply releaseVer_keeps
    | with_reducible apply finishReset_keeps
    | with_reducible apply writeOutcome_keeps
    | with_reducible apply writeDuplicate_keeps
    | with_reducible apply historyHalt_keeps
    | with_reducible apply Keeps.of_foldl
    | dsimp only
    | split

end Sys2Proof.Machine
end

