-- ==== Sys2Proof/Laws/HostLink.lean ====
section
/-! SUPPORT. What the operations and rows of Sys2Proof/Machine/HostLink.lean keep: `Keeps true` stores nothing, `Keeps q` for
every q likewise, `Keeps false` may store; `Retains` is said of the rows that write a quiet part. -/
namespace Sys2Proof.Machine

theorem execLinkRetrain_keeps {q : Bool} {b t : State} (width : Nat) (gts : Nat) (h : Keeps q b t) : OutKeeps q b
    (execLinkRetrain width gts t) := by
  unfold execLinkRetrain
  repeat' first
    | with_reducible apply OutKeeps.done
    | with_reducible assumption
    | with_reducible apply setFlagIf_keeps
    | intro _
    | (with_reducible apply Keeps.of_pair; with_reducible assumption)
    | with_reducible apply Keeps.of_foldl
    | dsimp only
    | simp only [keeps_mk]
    | (with_reducible refine Keeps.parts ?_)
    | split

theorem configWrite_keeps {q : Bool} {b t : State} (fn : Nat) (r : CfgReg) (w : W32) (h : Keeps q b t) : Keeps q b
    (configWrite t fn r w) := by
  unfold configWrite
  repeat' first
    | with_reducible assumption
    | intro _
    | (with_reducible apply Keeps.of_pair; with_reducible assumption)
    | with_reducible apply Keeps.of_foldl
    | dsimp only
    | simp only [keeps_mk]
    | (with_reducible refine Keeps.parts ?_)
    | split

theorem execConfigRequest_keeps {q : Bool} {b t : State} (fn : Nat) (r : CfgReg) (wr : Option W32) (h : Keeps q b t)
    : OutKeeps q b (execConfigRequest fn r wr t) := by
  unfold execConfigRequest
  repeat' first
    | with_reducible apply OutKeeps.done
    | with_reducible assumption
    | with_reducible apply takeChoice_keeps
    | with_reducible apply configWrite_keeps
    | dsimp only
    | simp only [keeps_mk]
    | (with_reducible refine Keeps.parts ?_)
    | split

theorem issueMessage_keeps {q : Bool} {b t : State} (v : Nat) (h : Keeps q b t) : Keeps q b (issueMessage t v) := by
  unfold issueMessage
  repeat' first
    | with_reducible assumption
    | dsimp only
    | simp only [keeps_mk]
    | (with_reducible refine Keeps.parts ?_)

theorem execMsixMessage_keeps {q : Bool} {b t : State} (v : Nat) (h : Keeps q b t) : OutKeeps q b (execMsixMessage v
    t) := by
  unfold execMsixMessage
  repeat' first
    | with_reducible apply OutKeeps.done
    | with_reducible assumption
    | with_reducible apply issueMessage_keeps
    | intro _
    | (with_reducible apply Keeps.of_pair; with_reducible assumption)
    | with_reducible apply Keeps.of_foldl
    | dsimp only
    | simp only [keeps_mk]
    | (with_reducible refine Keeps.parts ?_)
    | split

theorem modMsix_keeps {q : Bool} {b t : State} (v : Nat) (f : Msix → Msix) (h : Keeps q b t) : Keeps q b (modMsix t v
    f) := by
  unfold modMsix
  repeat' first
    | with_reducible assumption
    | intro _
    | (with_reducible apply Keeps.of_pair; with_reducible assumption)
    | with_reducible apply Keeps.of_foldl
    | dsimp only
    | simp only [keeps_mk]
    | (with_reducible refine Keeps.parts ?_)
    | split

theorem unmask_keeps {q : Bool} {b t : State} (v : Nat) (h : Keeps q b t) : Keeps q b (unmask t v) := by
  unfold unmask
  repeat' first
    | with_reducible assumption
    | with_reducible apply issueMessage_keeps
    | with_reducible apply modMsix_keeps
    | intro _
    | (with_reducible apply Keeps.of_pair; with_reducible assumption)
    | with_reducible apply Keeps.of_foldl
    | dsimp only
    | simp only [keeps_mk]
    | (with_reducible refine Keeps.parts ?_)
    | split

theorem execMsixUnmask_keeps {q : Bool} {b t : State} (fn : Nat) (entry : Nat) (h : Keeps q b t) : OutKeeps q b
    (execMsixUnmask fn entry t) := by
  unfold execMsixUnmask
  repeat' first
    | with_reducible apply OutKeeps.done
    | with_reducible assumption
    | with_reducible apply unmask_keeps
    | with_reducible apply issueMessage_keeps
    | intro _
    | (with_reducible apply Keeps.of_pair; with_reducible assumption)
    | with_reducible apply Keeps.of_foldl
    | dsimp only
    | simp only [keeps_mk]
    | (with_reducible refine Keeps.parts ?_)
    | split

theorem tableWrite_keeps {q : Bool} {b t : State} (fn : Nat) (off : Nat) (v : Nat) (h : Keeps q b t) : Keeps q b
    (tableWrite t fn off v) := by
  unfold tableWrite
  repeat' first
    | with_reducible assumption
    | with_reducible apply modMsix_keeps
    | with_reducible apply unmask_keeps
    | intro _
    | (with_reducible apply Keeps.of_pair; with_reducible assumption)
    | with_reducible apply Keeps.of_foldl
    | dsimp only
    | simp only [keeps_mk]
    | (with_reducible refine Keeps.parts ?_)
    | split

theorem resetEntries_keeps {q : Bool} {b t : State} (k : Nat) (h : Keeps q b t) : Keeps q b (resetEntries t k) := by
  unfold resetEntries
  repeat' first
    | with_reducible assumption
    | intro _
    | (with_reducible apply Keeps.of_pair; with_reducible assumption)
    | with_reducible apply Keeps.of_foldl
    | dsimp only
    | simp only [keeps_mk]
    | (with_reducible refine Keeps.parts ?_)
    | split

theorem dropRings_keeps {q : Bool} {b t : State} (k : Nat) (h : Keeps q b t) : Keeps q b (dropRings t k) := by
  unfold dropRings
  repeat' first
    | with_reducible assumption
    | with_reducible apply clearFlag_keeps
    | with_reducible apply setRing_keeps
    | with_reducible apply resetEnds_keeps
    | with_reducible apply adminDone_keeps
    | intro _
    | (with_reducible apply Keeps.of_pair; with_reducible assumption)
    | with_reducible apply Keeps.of_foldl
    | dsimp only
    | simp only [keeps_mk]
    | (with_reducible refine Keeps.parts ?_)
    | split

theorem dropHarqOf_keeps {q : Bool} {b t : State} (k : Nat) (h : Keeps q b t) : Keeps q b (dropHarqOf t k) := by
  unfold dropHarqOf
  repeat' first
    | with_reducible assumption
    | with_reducible apply dropHarq_keeps

theorem resetFunction_keeps {q : Bool} {b t : State} (k : Nat) (h : Keeps q b t) : Keeps q b (resetFunction t k) :=
    by
  unfold resetFunction
  repeat' first
    | with_reducible assumption
    | with_reducible apply setFlag_keeps
    | with_reducible apply pushLog_keeps
    | with_reducible apply watchCols_keeps
    | with_reducible apply resetEntries_keeps
    | with_reducible apply dropRings_keeps
    | with_reducible apply dropHarqOf_keeps
    | dsimp only
    | simp only [keeps_mk]
    | (with_reducible refine Keeps.parts ?_)

theorem execVfFlr_keeps {q : Bool} {b t : State} (k : Nat) (h : Keeps q b t) : OutKeeps q b (execVfFlr k t) := by
  unfold execVfFlr
  repeat' first
    | with_reducible apply OutKeeps.done
    | with_reducible assumption
    | with_reducible apply resetFunction_keeps
    | split

theorem execVfEnableChange_keeps {q : Bool} {b t : State} (enable : Bool) (numVfs : Nat) (h : Keeps q b t) :
    OutKeeps q b (execVfEnableChange enable numVfs t) := by
  unfold execVfEnableChange
  repeat' first
    | with_reducible apply OutKeeps.done
    | with_reducible assumption
    | intro _
    | with_reducible apply resetEntries_keeps
    | with_reducible apply resetFunction_keeps
    | with_reducible apply Keeps.of_foldl
    | dsimp only
    | simp only [keeps_mk]
    | (with_reducible refine Keeps.parts ?_)
    | split

/-- The seal locks nothing that was not locked: it takes effect on a device that is not sealed. -/
theorem execSeal_seals {p : Prop} (t : State) : ∀ u, execSeal t = .next u → SealKeeps p t u := by
  intro u e
  unfold execSeal at e
  replace e := Host.Outcome.next.inj e
  rw [← e]
  clear e u
  have h := Retains.refl t
  split
  · exact h.toSeal
  · rename_i hs
    simp only [Bool.or_eq_true, not_or, Bool.not_eq_true] at hs
    split
    · exact Retains.toSeal (by simp only [retains_mk]; exact h.as)
    · split
      · exact Retains.toSeal (by simp only [retains_mk]; exact h.as)
      · exact ⟨rfl, rfl, .inl rfl, id, id, fun _ e1 _ _ => absurd e1 (by simp [hs.2])⟩

end Sys2Proof.Machine
end

