-- ==== Sys2Proof/Laws/Admin.lean ====
section
/-! SUPPORT. What the operations and rows of Sys2Proof/Machine/Admin.lean keep: `Keeps true` stores nothing, `Keeps q` for
every q likewise, `Keeps false` may store; `Retains` is said of the rows that write a quiet part. -/
namespace Sys2Proof.Machine

theorem execAdminTake_keeps {q : Bool} {b t : State} (h : Keeps q b t) : OutKeeps q b (execAdminTake t) := by
  unfold execAdminTake
  repeat' first
    | with_reducible apply OutKeeps.done
    | with_reducible assumption
    | with_reducible apply modSlot_keeps
    | with_reducible apply decide_keeps
    | intro _
    | (with_reducible apply Keeps.of_pair; with_reducible assumption)
    | with_reducible apply Keeps.of_foldl
    | dsimp only
    | simp only [keeps_mk]
    | (with_reducible refine Keeps.parts ?_)
    | split

theorem adminRun_keeps {q : Bool} {b t : State} (opcode : Nat) (f : AdminJob → State) (h : Keeps q b t) (hf : ∀ a0,
    Keeps q b (f a0)) : Keeps q b (adminRun t opcode f) := by
  unfold adminRun
  repeat' first
    | with_reducible assumption
    | with_reducible apply hf
    | with_reducible apply adminDone_keeps
    | intro _
    | (with_reducible apply Keeps.of_pair; with_reducible assumption)
    | with_reducible apply Keeps.of_foldl
    | dsimp only
    | simp only [keeps_mk]
    | (with_reducible refine Keeps.parts ?_)
    | split

theorem adminFail_keeps {q : Bool} {b t : State} (result : Nat) (h : Keeps q b t) : Keeps q b (adminFail t result)
    := by
  unfold adminFail
  repeat' first
    | with_reducible assumption
    | with_reducible apply adminDone_keeps

theorem execRingSetup_keeps {b t : State} (h : Keeps false b t) : OutKeeps false b (execRingSetup t) := by
  unfold execRingSetup
  repeat' first
    | with_reducible apply OutKeeps.done
    | with_reducible assumption
    | intro _
    | with_reducible apply setRing_keeps
    | with_reducible apply readUse_keeps
    | with_reducible apply adminDone_keeps
    | with_reducible apply adminRun_keeps
    | with_reducible apply adminFail_keeps
    | with_reducible apply afterRes_keeps
    | dsimp only
    | split

theorem execRingTeardown_keeps {q : Bool} {b t : State} (h : Keeps q b t) : OutKeeps q b (execRingTeardown t) := by
  unfold execRingTeardown
  repeat' first
    | with_reducible apply OutKeeps.done
    | with_reducible assumption
    | intro _
    | with_reducible apply clearFlag_keeps
    | with_reducible apply setRing_keeps
    | with_reducible apply watchCols_keeps
    | with_reducible apply adminDone_keeps
    | with_reducible apply adminRun_keeps
    | with_reducible apply adminFail_keeps
    | dsimp only
    | split

theorem startReset_keeps {b t : State} (r : Nat) (byRing : Option Nat) (h : Keeps false b t) : Keeps false b
    (startReset t r byRing) := by
  unfold startReset
  repeat' first
    | with_reducible assumption
    | intro _
    | with_reducible apply setRing_keeps
    | with_reducible apply markStop_keeps
    | with_reducible apply sweepRuns_keeps
    | with_reducible apply Keeps.of_foldl

theorem execRingReset_keeps {b t : State} (h : Keeps false b t) : OutKeeps false b (execRingReset t) := by
  unfold execRingReset
  repeat' first
    | with_reducible apply OutKeeps.done
    | with_reducible assumption
    | intro _
    | with_reducible apply setRing_keeps
    | with_reducible apply finishReset_keeps
    | with_reducible apply adminRun_keeps
    | with_reducible apply adminFail_keeps
    | with_reducible apply startReset_keeps
    | dsimp only
    | simp only [keeps_mk]
    | (with_reducible refine Keeps.parts ?_)
    | split

theorem execEvcAssign_keeps {q : Bool} {b t : State} (h : Keeps q b t) : OutKeeps q b (execEvcAssign t) := by
  unfold execEvcAssign
  repeat' first
    | with_reducible apply OutKeeps.done
    | with_reducible assumption
    | intro _
    | with_reducible apply setEvc_keeps
    | with_reducible apply adminDone_keeps
    | with_reducible apply adminRun_keeps
    | with_reducible apply adminFail_keeps
    | with_reducible apply Keeps.of_foldl
    | dsimp only
    | split

theorem execXltCtxSet_keeps {q : Bool} {b t : State} (h : Keeps q b t) : OutKeeps q b (execXltCtxSet t) := by
  unfold execXltCtxSet
  repeat' first
    | with_reducible apply OutKeeps.done
    | with_reducible assumption
    | intro _
    | with_reducible apply adminDone_keeps
    | with_reducible apply adminRun_keeps
    | with_reducible apply adminFail_keeps
    | dsimp only
    | simp only [keeps_mk]
    | (with_reducible refine Keeps.parts ?_)
    | split

theorem execXltInvalidate_keeps {q : Bool} {b t : State} (h : Keeps q b t) : OutKeeps q b (execXltInvalidate t) :=
    by
  unfold execXltInvalidate
  repeat' first
    | with_reducible apply OutKeeps.done
    | with_reducible assumption
    | intro _
    | with_reducible apply adminDone_keeps
    | with_reducible apply adminRun_keeps
    | with_reducible apply adminFail_keeps
    | dsimp only
    | simp only [keeps_mk]
    | (with_reducible refine Keeps.parts ?_)
    | split

theorem execVfLimits_keeps {q : Bool} {b t : State} (h : Keeps q b t) : OutKeeps q b (execVfLimits t) := by
  unfold execVfLimits
  repeat' first
    | with_reducible apply OutKeeps.done
    | with_reducible assumption
    | intro _
    | with_reducible apply adminDone_keeps
    | with_reducible apply adminRun_keeps
    | with_reducible apply adminFail_keeps
    | dsimp only
    | simp only [keeps_mk]
    | (with_reducible refine Keeps.parts ?_)
    | split

theorem peerResult_keeps {b t : State} (j : AdminJob) (h : Keeps false b t) : Keeps false b (peerResult t j) := by
  unfold peerResult
  repeat' first
    | with_reducible assumption
    | with_reducible apply afterRes_keeps
    | with_reducible apply writeBytes_keeps
    | with_reducible apply takeChoice_keeps
    | with_reducible apply adminDone_keeps
    | with_reducible apply adminFail_keeps
    | intro _
    | dsimp only
    | simp only [keeps_mk]
    | (with_reducible refine Keeps.parts ?_)

theorem execPeerCfg_keeps {b t : State} (h : Keeps false b t) : OutKeeps false b (execPeerCfg t) := by
  unfold execPeerCfg
  repeat' first
    | with_reducible apply OutKeeps.done
    | with_reducible assumption
    | intro _
    | with_reducible apply adminRun_keeps
    | with_reducible apply adminFail_keeps
    | with_reducible apply peerResult_keeps
    | dsimp only
    | split

theorem configAdmin_keeps {q : Bool} {b t : State} (n : Nat) (h : Keeps q b t) : Keeps q b (configAdmin t n) := by
  unfold configAdmin
  repeat' first
    | with_reducible assumption
    | with_reducible apply setRing_keeps
    | intro _
    | (with_reducible apply Keeps.of_pair; with_reducible assumption)
    | with_reducible apply Keeps.of_foldl
    | dsimp only
    | simp only [keeps_mk]
    | (with_reducible refine Keeps.parts ?_)
    | split

theorem execRingAdminCtrl_keeps {q : Bool} {b t : State} (mask : Byte) (h : Keeps q b t) : OutKeeps q b
    (execRingAdminCtrl mask t) := by
  unfold execRingAdminCtrl
  repeat' first
    | with_reducible apply OutKeeps.done
    | with_reducible assumption
    | intro _
    | with_reducible apply configAdmin_keeps
    | with_reducible apply Keeps.of_foldl
    | split

theorem adminReset_keeps {b t : State} (n : Nat) (h : Keeps false b t) : Keeps false b (adminReset t n) := by
  unfold adminReset
  repeat' first
    | with_reducible assumption
    | with_reducible apply adminDone_keeps
    | with_reducible apply finishReset_keeps
    | with_reducible apply startReset_keeps
    | intro _
    | (with_reducible apply Keeps.of_pair; with_reducible assumption)
    | with_reducible apply Keeps.of_foldl
    | dsimp only
    | simp only [keeps_mk]
    | (with_reducible refine Keeps.parts ?_)
    | split

theorem execRingAdminReset_keeps {b t : State} (mask : Byte) (h : Keeps false b t) : OutKeeps false b
    (execRingAdminReset mask t) := by
  unfold execRingAdminReset
  repeat' first
    | with_reducible apply OutKeeps.done
    | with_reducible assumption
    | intro _
    | with_reducible apply adminReset_keeps
    | with_reducible apply Keeps.of_foldl
    | dsimp only
    | simp only [keeps_mk]
    | (with_reducible refine Keeps.parts ?_)
    | split

theorem execEzdanResume_keeps {b t : State} (h : Keeps false b t) : OutKeeps false b (execEzdanResume t) := by
  unfold execEzdanResume
  repeat' first
    | with_reducible apply OutKeeps.done
    | with_reducible assumption
    | intro _
    | with_reducible apply setFlag_keeps
    | with_reducible apply adminDone_keeps
    | with_reducible apply adminReset_keeps
    | with_reducible apply Keeps.of_foldl
    | dsimp only
    | simp only [keeps_mk]
    | (with_reducible refine Keeps.parts ?_)
    | split

end Sys2Proof.Machine
end

