-- ==== Sys2Proof/Laws/Lists.lean ====
section
/-! SUPPORT. What the operations and rows of Sys2Proof/Machine/Lists.lean keep: `Keeps true` stores nothing, `Keeps q` for
every q likewise, `Keeps false` may store; `Retains` is said of the rows that write a quiet part. -/
namespace Sys2Proof.Machine

theorem onOp_keeps {q : Bool} {b t : State} (cls : Nat) (u : Nat) (opc : Nat) (f : Run → Seg → ListOp → State) (h :
    Keeps q b t) (hf : ∀ a0 a1 a2, Keeps q b (f a0 a1 a2)) : Keeps q b (onOp t cls u opc f) := by
  unfold onOp
  repeat' first
    | with_reducible assumption
    | with_reducible apply hf
    | split

theorem setPhase_keeps {q : Bool} {b t : State} (x : Run) (u : Nat) (ph : SegPhase) (h : Keeps q b t) : Keeps q b
    (setPhase t x u ph) := by
  unfold setPhase
  repeat' first
    | with_reducible assumption
    | with_reducible apply modSeg_keeps

theorem failWith_keeps {b t : State} (x : Run) (u : Nat) (idx : Nat) (f : Fail) (h : Keeps false b t) : Keeps false
    b (failWith t x u idx f) := by
  unfold failWith
  repeat' first
    | with_reducible assumption
    | with_reducible apply failOp_keeps

theorem failResult_keeps {b t : State} (x : Run) (u : Nat) (idx : Nat) (result : Nat) (h : Keeps false b t) : Keeps
    false b (failResult t x u idx result) := by
  unfold failResult
  repeat' first
    | with_reducible assumption
    | with_reducible apply failOp_keeps

theorem useVar_keeps {q : Bool} {b t : State} (x : Run) (h : Keeps q b t) : Keeps q b (useVar t x) := by
  unfold useVar
  repeat' first
    | with_reducible assumption
    | with_reducible apply modRun_keeps

theorem execNop_keeps {b t : State} (cls : Nat) (u : Nat) (h : Keeps false b t) : OutKeeps false b (execNop cls u t)
    := by
  unfold execNop
  repeat' first
    | with_reducible apply OutKeeps.done
    | with_reducible assumption
    | intro _
    | with_reducible apply advance_keeps
    | with_reducible apply onOp_keeps

theorem execWait_keeps {b t : State} (cls : Nat) (u : Nat) (h : Keeps false b t) : OutKeeps false b (execWait cls u
    t) := by
  unfold execWait
  repeat' first
    | with_reducible apply OutKeeps.done
    | with_reducible assumption
    | intro _
    | with_reducible apply advance_keeps
    | with_reducible apply onOp_keeps
    | with_reducible apply setPhase_keeps
    | with_reducible apply failResult_keeps
    | split

theorem execWaitPass_keeps {b t : State} (cls : Nat) (u : Nat) (h : Keeps false b t) : OutKeeps false b
    (execWaitPass cls u t) := by
  unfold execWaitPass
  repeat' first
    | with_reducible apply OutKeeps.done
    | with_reducible assumption
    | with_reducible apply advance_keeps
    | split

theorem execSignal_keeps {b t : State} (cls : Nat) (u : Nat) (h : Keeps false b t) : OutKeeps false b (execSignal
    cls u t) := by
  unfold execSignal
  repeat' first
    | with_reducible apply OutKeeps.done
    | with_reducible assumption
    | intro _
    | with_reducible apply modRun_keeps
    | with_reducible apply advance_keeps
    | with_reducible apply onOp_keeps
    | with_reducible apply failResult_keeps
    | split

theorem execSignalLocal_keeps {b t : State} (cls : Nat) (u : Nat) (h : Keeps false b t) : OutKeeps false b
    (execSignalLocal cls u t) := by
  unfold execSignalLocal
  repeat' first
    | with_reducible apply OutKeeps.done
    | with_reducible assumption
    | with_reducible apply evcAdd_keeps
    | with_reducible apply modRun_keeps
    | with_reducible apply advance_keeps
    | with_reducible apply onOp_keeps
    | with_reducible apply failResult_keeps
    | intro _
    | (with_reducible apply Keeps.of_pair; with_reducible assumption)
    | with_reducible apply Keeps.of_foldl
    | dsimp only
    | simp only [keeps_mk]
    | (with_reducible refine Keeps.parts ?_)
    | split

theorem enterBinding_keeps {b t : State} (id : Nat) (b' : Binding) (sent : Bool) (h : Keeps false b t) : Keeps false b
    (enterBinding t id b' sent) := by
  unfold enterBinding
  repeat' first
    | with_reducible assumption
    | with_reducible apply modRun_keeps
    | with_reducible apply finishIfEnded_keeps
    | with_reducible apply squash_keeps
    | intro _
    | (with_reducible apply Keeps.of_pair; with_reducible assumption)
    | with_reducible apply Keeps.of_foldl
    | dsimp only
    | simp only [keeps_mk]
    | (with_reducible refine Keeps.parts ?_)
    | split

theorem raBindList_keeps {b t : State} (x : Run) (o : ListOp) (h : Keeps false b t) : Keeps false b (raBindList t x o)
    := by
  unfold raBindList
  repeat' first
    | with_reducible assumption
    | with_reducible apply modRun_keeps
    | with_reducible apply stopRun_keeps
    | with_reducible apply readUse_keeps
    | with_reducible apply enterBinding_keeps
    | intro _
    | (with_reducible apply Keeps.of_pair; with_reducible assumption)
    | with_reducible apply Keeps.of_foldl
    | dsimp only
    | simp only [keeps_mk]
    | (with_reducible refine Keeps.parts ?_)
    | split

theorem execRaBind_keeps {b t : State} (r : Nat) (h : Keeps false b t) : OutKeeps false b (execRaBind r t) := by
  unfold execRaBind
  repeat' first
    | with_reducible apply OutKeeps.done
    | with_reducible assumption
    | intro _
    | with_reducible apply settleUnit_keeps
    | with_reducible apply raBindList_keeps
    | with_reducible apply Keeps.of_foldl
    | dsimp only
    | split

theorem finishStopped_keeps {b t : State} (id : Nat) (h : Keeps false b t) : Keeps false b (finishStopped t id) := by
  unfold finishStopped
  repeat' first
    | with_reducible assumption
    | with_reducible apply finishRun_keeps
    | intro _
    | (with_reducible apply Keeps.of_pair; with_reducible assumption)
    | with_reducible apply Keeps.of_foldl
    | dsimp only
    | simp only [keeps_mk]
    | (with_reducible refine Keeps.parts ?_)
    | split

theorem withdrawFx_keeps {q : Bool} {b t : State} (x : Run) (u : Nat) (h : Keeps q b t) : Keeps q b (withdrawFx t x
    u) := by
  unfold withdrawFx
  repeat' first
    | with_reducible assumption
    | with_reducible apply discardFrames_keeps
    | split

theorem execSegmentStop_keeps {b t : State} (cls : Nat) (u : Nat) (h : Keeps false b t) : OutKeeps false b
    (execSegmentStop cls u t) := by
  unfold execSegmentStop
  repeat' first
    | with_reducible apply OutKeeps.done
    | with_reducible assumption
    | with_reducible apply endSeg_keeps
    | with_reducible apply settleUnit_keeps
    | with_reducible apply finishStopped_keeps
    | with_reducible apply withdrawFx_keeps
    | split

theorem commitHeld_keeps {q : Bool} {b t : State} (x : Run) (h : Keeps q b t) : Keeps q b (commitHeld t x) := by
  unfold commitHeld
  repeat' first
    | with_reducible assumption
    | intro _
    | with_reducible apply evcAdd_keeps
    | with_reducible apply Keeps.of_foldl

theorem execDescriptorEnd_keeps {b t : State} (r : Nat) (h : Keeps false b t) : OutKeeps false b (execDescriptorEnd r
    t) := by
  unfold execDescriptorEnd
  repeat' first
    | with_reducible apply OutKeeps.done
    | with_reducible assumption
    | with_reducible apply finishRun_keeps
    | with_reducible apply commitHeld_keeps
    | intro _
    | (with_reducible apply Keeps.of_pair; with_reducible assumption)
    | with_reducible apply Keeps.of_foldl
    | dsimp only
    | simp only [keeps_mk]
    | (with_reducible refine Keeps.parts ?_)
    | split

theorem execWaitStuck_keeps {q : Bool} {b t : State} (cls : Nat) (u : Nat) (h : Keeps q b t) : OutKeeps q b
    (execWaitStuck cls u t) := by
  unfold execWaitStuck
  repeat' first
    | with_reducible apply OutKeeps.done
    | with_reducible assumption
    | with_reducible apply setFlag_keeps
    | with_reducible apply pushLog_keeps
    | with_reducible apply setPhase_keeps
    | dsimp only
    | split

end Sys2Proof.Machine
end

