-- ==== Sys2Proof/Laws/Arb.lean ====
section
/-! SUPPORT. What the operations and rows of Sys2Proof/Machine/Arb.lean keep: `Keeps true` stores nothing, `Keeps q` for
every q likewise, `Keeps false` may store; `Retains` is said of the rows that write a quiet part. -/
namespace Sys2Proof.Machine

theorem fetchList_keeps {b t : State} (a : Agent) (x : Slot) (h : Keeps false b t) : Keeps false b (fetchList t a
    x).1 := by
  unfold fetchList
  repeat' first
    | with_reducible assumption
    | with_reducible apply readUse_keeps
    | (with_reducible apply Keeps.of_pair; with_reducible assumption)
    | split

theorem endAtGrant_keeps {q : Bool} {b t : State} (r : Nat) (k : Nat) (status : Nat) (result : Nat) (detail : Nat)
    (h : Keeps q b t) : Keeps q b (endAtGrant t r k status result detail) := by
  unfold endAtGrant
  repeat' first
    | with_reducible assumption
    | with_reducible apply decide_keeps

theorem dispatch_keeps {b t : State} (r : Nat) (g : Ring) (x : Slot) (words : List W64) (h : Keeps false b t) :
    Keeps false b (dispatch t r g x words) := by
  unfold dispatch
  repeat' first
    | with_reducible assumption
    | intro _
    | with_reducible apply modSlot_keeps
    | with_reducible apply finishRun_keeps
    | with_reducible apply settleUnit_keeps
    | with_reducible apply Keeps.of_foldl
    | dsimp only
    | simp only [keeps_mk]
    | (with_reducible refine Keeps.parts ?_)
    | split

theorem grantOne_keeps {b t : State} (r : Nat) (g : Ring) (x : Slot) (h : Keeps false b t) : Keeps false b (grantOne
    t r g x) := by
  unfold grantOne
  repeat' first
    | with_reducible assumption
    | with_reducible apply fetchList_keeps
    | with_reducible apply endAtGrant_keeps
    | with_reducible apply dispatch_keeps
    | (with_reducible apply Keeps.of_pair; with_reducible assumption)
    | split

theorem collectList_keeps {b t : State} (g : Ring) (x : Slot) (h : Keeps false b t) : Keeps false b (collectList t g
    x).1 := by
  unfold collectList
  repeat' first
    | with_reducible assumption
    | with_reducible apply fetchList_keeps
    | (with_reducible apply Keeps.of_pair; with_reducible assumption)
    | dsimp only
    | split

theorem collectLists_keeps {b t : State} (g : Ring) (y0 : List Slot) (y1 : List (Nat × Nat × Nat)) (h : Keeps false
    b t) : Keeps false b (collectLists t g y0 y1).1 := by
  revert h
  fun_induction collectLists t g y0 y1 <;> intro h
  all_goals
   repeat' first
    | with_reducible assumption
    | with_reducible apply collectList_keeps
    | with_reducible apply_assumption
    | (with_reducible apply Keeps.of_pair; with_reducible assumption)

theorem dispatchBatch_keeps {b t : State} (r : Nat) (c : Nat) (g : Ring) (taken : List Slot) (h : Keeps false b t) :
    Keeps false b (dispatchBatch t r c g taken) := by
  unfold dispatchBatch
  repeat' first
    | with_reducible assumption
    | with_reducible apply modSlot_keeps
    | with_reducible apply settleUnit_keeps
    | with_reducible apply descriptor_keeps
    | with_reducible apply setCol_keeps
    | with_reducible apply collectLists_keeps
    | intro _
    | (with_reducible apply Keeps.of_pair; with_reducible assumption)
    | with_reducible apply Keeps.of_foldl
    | dsimp only
    | simp only [keeps_mk]
    | (with_reducible refine Keeps.parts ?_)
    | split

theorem grantBatch_keeps {b t : State} (r : Nat) (c : Nat) (g : Ring) (h : Keeps false b t) : Keeps false b
    (grantBatch t r c g) := by
  unfold grantBatch
  repeat' first
    | with_reducible assumption
    | with_reducible apply setCol_keeps
    | with_reducible apply endAtGrant_keeps
    | with_reducible apply dispatchBatch_keeps
    | intro _
    | (with_reducible apply Keeps.of_pair; with_reducible assumption)
    | with_reducible apply Keeps.of_foldl
    | dsimp only
    | simp only [keeps_mk]
    | (with_reducible refine Keeps.parts ?_)
    | split

theorem execGrant_keeps {b t : State} (h : Keeps false b t) : OutKeeps false b (execGrant t) := by
  unfold execGrant
  repeat' first
    | with_reducible apply OutKeeps.done
    | with_reducible assumption
    | with_reducible apply grantOne_keeps
    | with_reducible apply grantBatch_keeps
    | dsimp only
    | simp only [keeps_mk]
    | (with_reducible refine Keeps.parts ?_)
    | split

theorem execHoldExpire_keeps {q : Bool} {b t : State} (c : Nat) (h : Keeps q b t) : OutKeeps q b (execHoldExpire c t)
    := by
  unfold execHoldExpire
  repeat' first
    | with_reducible apply OutKeeps.done
    | with_reducible assumption
    | with_reducible apply setCol_keeps
    | intro _
    | (with_reducible apply Keeps.of_pair; with_reducible assumption)
    | with_reducible apply Keeps.of_foldl
    | dsimp only
    | simp only [keeps_mk]
    | (with_reducible refine Keeps.parts ?_)
    | split

end Sys2Proof.Machine
end

