-- ==== Sys2Proof/Laws/Converter.lean ====
section
/-! SUPPORT. What the operations and rows of Sys2Proof/Machine/Converter.lean keep: `Keeps true` stores nothing, `Keeps q` for
every q likewise, `Keeps false` may store; `Retains` is said of the rows that write a quiet part. -/
namespace Sys2Proof.Machine

theorem endStop_keeps {b t : State} (k : Nat) (h : Keeps false b t) : Keeps false b (endStop t k) := by
  unfold endStop
  repeat' first
    | with_reducible assumption
    | with_reducible apply advance_keeps
    | split

theorem trySync_keeps {b t : State} (k : Nat) (h : Keeps false b t) : Keeps false b (trySync t k) := by
  unfold trySync
  repeat' first
    | with_reducible assumption
    | with_reducible apply setLink_keeps
    | with_reducible apply endStop_keeps
    | dsimp only
    | split

theorem execLinkSync_keeps {q : Bool} {b t : State} (k : Nat) (h : Keeps q b t) : OutKeeps q b (execLinkSync k t) :=
    by
  unfold execLinkSync
  repeat' first
    | with_reducible apply OutKeeps.done
    | with_reducible assumption
    | with_reducible apply setLink_keeps
    | dsimp only
    | split

theorem execLaneLock_keeps {b t : State} (k : Nat) (h : Keeps false b t) : OutKeeps false b (execLaneLock k t) := by
  unfold execLaneLock
  repeat' first
    | with_reducible apply OutKeeps.done
    | with_reducible assumption
    | with_reducible apply setLink_keeps
    | with_reducible apply trySync_keeps
    | dsimp only
    | split

theorem execSysrefEdge_keeps {b t : State} (k : Nat) (h : Keeps false b t) : OutKeeps false b (execSysrefEdge k t)
    := by
  unfold execSysrefEdge
  repeat' first
    | with_reducible apply OutKeeps.done
    | with_reducible assumption
    | with_reducible apply setFlagIf_keeps
    | with_reducible apply arrive_keeps
    | with_reducible apply setLink_keeps
    | with_reducible apply trySync_keeps
    | dsimp only
    | split

theorem execSrefLatch_retains {b t : State} (k : Nat) (h : Retains b t) : OutRetains b (execSrefLatch k t) := by
  unfold execSrefLatch
  repeat' first
    | with_reducible apply OutRetains.done
    | with_reducible assumption
    | refine Retains.keeps (q := false) ?_ (by (with_reducible apply setLink_keeps) <;> exact Keeps.refl _)
    | dsimp only
    | split
    | simp only [retains_mk]
    | (with_reducible refine Retains.as ?_)

theorem execLinkLoss_keeps {q : Bool} {b t : State} (k : Nat) (h : Keeps q b t) : OutKeeps q b (execLinkLoss k t) :=
    by
  unfold execLinkLoss
  repeat' first
    | with_reducible apply OutKeeps.done
    | with_reducible assumption
    | with_reducible apply linkReset_keeps
    | split

theorem execAirTimeEnd_keeps {q : Bool} {b t : State} (k : Nat) (sfn : Nat) (slot : Nat) (sym : Nat) (h : Keeps q b t)
    : OutKeeps q b (execAirTimeEnd k sfn slot sym t) := by
  unfold execAirTimeEnd
  repeat' first
    | with_reducible apply OutKeeps.done
    | with_reducible assumption
    | with_reducible apply arrive_keeps
    | with_reducible apply symbolStatus_keeps
    | with_reducible apply setLink_keeps
    | intro _
    | (with_reducible apply Keeps.of_pair; with_reducible assumption)
    | with_reducible apply Keeps.of_foldl
    | dsimp only
    | simp only [keeps_mk]
    | (with_reducible refine Keeps.parts ?_)
    | split

theorem stopLink_keeps {b t : State} (k : Nat) (h : Keeps false b t) : Keeps false b (stopLink t k) := by
  unfold stopLink
  repeat' first
    | with_reducible assumption
    | with_reducible apply setLink_keeps
    | with_reducible apply truncateBurst_keeps
    | with_reducible apply endStop_keeps

theorem execCvStart_keeps {b t : State} (k : Nat) (h : Keeps false b t) : OutKeeps false b (execCvStart k t) := by
  unfold execCvStart
  repeat' first
    | with_reducible apply OutKeeps.done
    | with_reducible assumption
    | intro _
    | with_reducible apply onOp_keeps
    | with_reducible apply setPhase_keeps
    | with_reducible apply failResult_keeps
    | with_reducible apply endStop_keeps
    | with_reducible apply stopLink_keeps
    | dsimp only
    | split

theorem execConverterStart_keeps {b t : State} (k : Nat) (h : Keeps false b t) : OutKeeps false b
    (execConverterStart k t) := by
  unfold execConverterStart
  repeat' first
    | with_reducible apply OutKeeps.done
    | with_reducible assumption
    | with_reducible apply setFlag_keeps
    | with_reducible apply setLink_keeps
    | with_reducible apply modRun_keeps
    | with_reducible apply advance_keeps
    | with_reducible apply writeBytes_keeps
    | with_reducible apply failWith_keeps
    | (with_reducible apply Keeps.of_pair; with_reducible assumption)
    | dsimp only
    | simp only [keeps_mk]
    | (with_reducible refine Keeps.parts ?_)
    | split

theorem symbolBoundary_keeps {b t : State} (k : Nat) (h : Keeps false b t) : Keeps false b (symbolBoundary t k) :=
    by
  unfold symbolBoundary
  repeat' first
    | with_reducible assumption
    | with_reducible apply stopLink_keeps
    | split

theorem receiveSymbol_keeps {q : Bool} {b t : State} (k : Nat) (sfn : Nat) (slot : Nat) (sym : Nat) (samples : List
    (List (Int × Int))) (h : Keeps q b t) : Keeps q b (receiveSymbol t k sfn slot sym samples) := by
  unfold receiveSymbol
  repeat' first
    | with_reducible assumption
    | with_reducible apply setFlagIf_keeps
    | with_reducible apply arrive_keeps
    | with_reducible apply ingressStore_keeps
    | with_reducible apply openSlot_keeps
    | with_reducible apply symbolStatus_keeps
    | with_reducible apply setLink_keeps
    | intro _
    | (with_reducible apply Keeps.of_pair; with_reducible assumption)
    | with_reducible apply Keeps.of_foldl
    | dsimp only
    | simp only [keeps_mk]
    | (with_reducible refine Keeps.parts ?_)
    | split

theorem execNrSymbol_keeps {b t : State} (k : Nat) (sfn : Nat) (slot : Nat) (sym : Nat) (samples : List (List (Int ×
    Int))) (h : Keeps false b t) : OutKeeps false b (execNrSymbol k sfn slot sym samples t) := by
  unfold execNrSymbol
  repeat' first
    | with_reducible apply OutKeeps.done
    | with_reducible assumption
    | with_reducible apply symbolBoundary_keeps
    | with_reducible apply receiveSymbol_keeps
    | intro _
    | (with_reducible apply Keeps.of_pair; with_reducible assumption)
    | with_reducible apply Keeps.of_foldl
    | dsimp only
    | simp only [keeps_mk]
    | (with_reducible refine Keeps.parts ?_)
    | split

theorem driveCode_keeps {q : Bool} {b t : State} (k : Nat) (ch : Nat) (code : Nat) (h : Keeps q b t) : Keeps q b
    (driveCode t k ch code) := by
  unfold driveCode
  repeat' first
    | with_reducible assumption
    | with_reducible apply setLink_keeps
    | dsimp only
    | split

theorem driveMask_keeps {q : Bool} {b t : State} (k : Nat) (mask : Nat) (code : Nat) (h : Keeps q b t) : Keeps q b
    (driveMask t k mask code) := by
  unfold driveMask
  repeat' first
    | with_reducible assumption
    | intro _
    | with_reducible apply driveCode_keeps
    | with_reducible apply Keeps.of_foldl
    | split

theorem addDetail_keeps {q : Bool} {b t : State} (x : Run) (lo : Nat) (n : Nat) (h : Keeps q b t) : Keeps q b
    (addDetail t x lo n) := by
  unfold addDetail
  repeat' first
    | with_reducible assumption
    | with_reducible apply modRun_keeps

theorem applyEntry_keeps {q : Bool} {b t : State} (x : Run) (k : Nat) (mask : Nat) (code : Nat) (isLate : Bool) (h :
    Keeps q b t) : Keeps q b (applyEntry t x k mask code isLate) := by
  unfold applyEntry
  repeat' first
    | with_reducible assumption
    | with_reducible apply setFlag_keeps
    | with_reducible apply setLink_keeps
    | with_reducible apply driveMask_keeps
    | with_reducible apply addDetail_keeps
    | dsimp only
    | split

theorem walkAgc_keeps {b t : State} (x : Run) (k : Nat) (y0 : List (Nat × Nat × Nat)) (h : Keeps false b t) : Keeps
    false b (walkAgc t x k y0) := by
  revert h
  fun_induction walkAgc t x k y0 <;> intro h
  all_goals
   repeat' first
    | with_reducible assumption
    | with_reducible apply advance_keeps
    | with_reducible apply setPhase_keeps
    | with_reducible apply applyEntry_keeps
    | with_reducible apply_assumption

theorem execCvAgc_keeps {b t : State} (k : Nat) (h : Keeps false b t) : OutKeeps false b (execCvAgc k t) := by
  unfold execCvAgc
  repeat' first
    | with_reducible apply OutKeeps.done
    | with_reducible assumption
    | intro _
    | with_reducible apply readUse_keeps
    | with_reducible apply onOp_keeps
    | with_reducible apply failWith_keeps
    | with_reducible apply failResult_keeps
    | with_reducible apply walkAgc_keeps
    | (with_reducible apply Keeps.of_pair; with_reducible assumption)
    | dsimp only
    | split

theorem execAgcEntry_keeps {b t : State} (k : Nat) (h : Keeps false b t) : OutKeeps false b (execAgcEntry k t) := by
  unfold execAgcEntry
  repeat' first
    | with_reducible apply OutKeeps.done
    | with_reducible assumption
    | with_reducible apply applyEntry_keeps
    | with_reducible apply walkAgc_keeps
    | split

theorem execStsWindow_keeps {q : Bool} {b t : State} (k : Nat) (power : Int) (h : Keeps q b t) : OutKeeps q b
    (execStsWindow k power t) := by
  unfold execStsWindow
  repeat' first
    | with_reducible apply OutKeeps.done
    | with_reducible assumption
    | with_reducible apply takeChoice_keeps
    | with_reducible apply setLink_keeps
    | with_reducible apply driveCode_keeps
    | intro _
    | (with_reducible apply Keeps.of_pair; with_reducible assumption)
    | with_reducible apply Keeps.of_foldl
    | dsimp only
    | simp only [keeps_mk]
    | (with_reducible refine Keeps.parts ?_)
    | split

theorem armBurst_keeps {q : Bool} {b t : State} (k : Nat) (h : Keeps q b t) : Keeps q b (armBurst t k) := by
  unfold armBurst
  repeat' first
    | with_reducible assumption
    | with_reducible apply setLink_keeps
    | dsimp only
    | split

theorem execListenExpire_keeps {q : Bool} {b t : State} (k : Nat) (h : Keeps q b t) : OutKeeps q b (execListenExpire
    k t) := by
  unfold execListenExpire
  repeat' first
    | with_reducible apply OutKeeps.done
    | with_reducible assumption
    | with_reducible apply setLink_keeps

theorem newBurst_keeps {q : Bool} {b t : State} (k : Nat) (power : Int) (h : Keeps q b t) : Keeps q b (newBurst t k
    power) := by
  unfold newBurst
  repeat' first
    | with_reducible assumption
    | with_reducible apply setLink_keeps
    | intro _
    | (with_reducible apply Keeps.of_pair; with_reducible assumption)
    | with_reducible apply Keeps.of_foldl
    | dsimp only
    | simp only [keeps_mk]
    | (with_reducible refine Keeps.parts ?_)
    | split

theorem countOverlap_keeps {q : Bool} {b t : State} (k : Nat) (h : Keeps q b t) : Keeps q b (countOverlap t k) := by
  unfold countOverlap
  repeat' first
    | with_reducible assumption
    | with_reducible apply setLink_keeps

theorem strongerStart_keeps {q : Bool} {b t : State} (k : Nat) (power : Int) (syms : Nat) (h : Keeps q b t) : Keeps
    q b (strongerStart t k power syms) := by
  unfold strongerStart
  repeat' first
    | with_reducible assumption
    | with_reducible apply setFlag_keeps
    | with_reducible apply setLink_keeps
    | with_reducible apply writeBurst_keeps
    | with_reducible apply newBurst_keeps
    | with_reducible apply countOverlap_keeps
    | dsimp only
    | split

theorem execStartDetection_keeps {q : Bool} {b t : State} (k : Nat) (power : Int) (symsBefore : Nat) (h : Keeps q b
    t) : OutKeeps q b (execStartDetection k power symsBefore t) := by
  unfold execStartDetection
  repeat' first
    | with_reducible apply OutKeeps.done
    | with_reducible assumption
    | with_reducible apply newBurst_keeps
    | with_reducible apply countOverlap_keeps
    | with_reducible apply strongerStart_keeps
    | dsimp only
    | split

theorem execBurstDetected_keeps {q : Bool} {b t : State} (k : Nat) (power : Int) (cfo : Int) (h : Keeps q b t) :
    OutKeeps q b (execBurstDetected k power cfo t) := by
  unfold execBurstDetected
  repeat' first
    | with_reducible apply OutKeeps.done
    | with_reducible assumption
    | with_reducible apply setLink_keeps
    | dsimp only
    | split

theorem execBurstEnd_keeps {q : Bool} {b t : State} (k : Nat) (erased : List Nat) (clipped : List Nat) (syms : Nat)
    (h : Keeps q b t) : OutKeeps q b (execBurstEnd k erased clipped syms t) := by
  unfold execBurstEnd
  repeat' first
    | with_reducible apply OutKeeps.done
    | with_reducible assumption
    | with_reducible apply writeBurst_keeps
    | dsimp only
    | split

theorem execCvProfLoad_keeps {b t : State} (p : Nat) (h : Keeps false b t) : OutKeeps false b (execCvProfLoad p t)
    := by
  unfold execCvProfLoad
  repeat' first
    | with_reducible apply OutKeeps.done
    | with_reducible assumption
    | with_reducible apply setFlag_keeps
    | with_reducible apply takeChoice_keeps
    | with_reducible apply readUse_keeps
    | (with_reducible apply Keeps.of_pair; with_reducible assumption)
    | dsimp only
    | simp only [keeps_mk]
    | (with_reducible refine Keeps.parts ?_)
    | split

end Sys2Proof.Machine
end

