-- ==== Sys2Proof/Laws/Events.lean ====
section
/-! SUPPORT. What the operations and rows of Sys2Proof/Machine/Events.lean keep: `Keeps true` stores nothing, `Keeps q` for
every q likewise, `Keeps false` may store; `Retains` is said of the rows that write a quiet part. -/
namespace Sys2Proof.Machine

theorem keepFiring_keeps {q : Bool} {b t : State} (j : Nat) (t' : Int) (h : Keeps q b t) : Keeps q b (keepFiring t j
    t') := by
  unfold keepFiring
  repeat' first
    | with_reducible assumption
    | dsimp only
    | simp only [keeps_mk]
    | (with_reducible refine Keeps.parts ?_)

theorem fireInterrupt_keeps {q : Bool} {b t : State} (k : Nat) (h : Keeps q b t) : Keeps q b (fireInterrupt t k) :=
    by
  unfold fireInterrupt
  repeat' first
    | with_reducible assumption
    | with_reducible apply requestPf_keeps
    | dsimp only
    | split

theorem fireLine_keeps {q : Bool} {b t : State} (j : Nat) (t' : Int) (merged : Bool) (h : Keeps q b t) : Keeps q b
    (fireLine t j t' merged) := by
  unfold fireLine
  repeat' first
    | with_reducible assumption
    | with_reducible apply armBurst_keeps
    | with_reducible apply keepFiring_keeps
    | with_reducible apply fireInterrupt_keeps
    | intro _
    | (with_reducible apply Keeps.of_pair; with_reducible assumption)
    | with_reducible apply Keeps.of_foldl
    | dsimp only
    | simp only [keeps_mk]
    | (with_reducible refine Keeps.parts ?_)
    | split

theorem countArrival_keeps {q : Bool} {b t : State} (a : Arrival) (h : Keeps q b t) : Keeps q b (countArrival t a)
    := by
  unfold countArrival
  repeat' first
    | with_reducible assumption
    | with_reducible apply evcAdd_keeps
    | dsimp only
    | split

theorem fireGroup_keeps {q : Bool} {b t : State} (l : List Arrival) (j : Nat) (h : Keeps q b t) : Keeps q b (fireGroup
    t l j) := by
  unfold fireGroup
  repeat' first
    | with_reducible assumption
    | with_reducible apply setFlag_keeps
    | with_reducible apply setFlags_keeps
    | with_reducible apply fireLine_keeps
    | intro _
    | (with_reducible apply Keeps.of_pair; with_reducible assumption)
    | with_reducible apply Keeps.of_foldl
    | dsimp only
    | simp only [keeps_mk]
    | (with_reducible refine Keeps.parts ?_)
    | split

theorem execCrossbarArrival_keeps {q : Bool} {b t : State} (inputs : List Nat) (h : Keeps q b t) : OutKeeps q b
    (execCrossbarArrival inputs t) := by
  unfold execCrossbarArrival
  repeat' first
    | with_reducible apply OutKeeps.done
    | with_reducible assumption
    | intro _
    | with_reducible apply countArrival_keeps
    | with_reducible apply fireGroup_keeps
    | with_reducible apply Keeps.of_foldl
    | dsimp only
    | simp only [keeps_mk]
    | (with_reducible refine Keeps.parts ?_)

theorem execHostevAdd_keeps {q : Bool} {b t : State} (n : Nat) (h : Keeps q b t) : OutKeeps q b (execHostevAdd n t)
    := by
  unfold execHostevAdd
  repeat' first
    | with_reducible apply OutKeeps.done
    | with_reducible assumption
    | with_reducible apply evcAdd_keeps
    | split

theorem execHostevSet_keeps {q : Bool} {b t : State} (n : Nat) (adds : List W32) (h : Keeps q b t) : OutKeeps q b
    (execHostevSet n adds t) := by
  unfold execHostevSet
  repeat' first
    | with_reducible apply OutKeeps.done
    | with_reducible assumption
    | with_reducible apply evcSet_keeps
    | split

theorem execOccClr_keeps {q : Bool} {b t : State} (id : Nat) (h : Keeps q b t) : OutKeeps q b (execOccClr id t) :=
    by
  unfold execOccClr
  repeat' first
    | with_reducible apply OutKeeps.done
    | with_reducible assumption
    | simp only [keeps_mk]
    | (with_reducible refine Keeps.parts ?_)
    | split

theorem execOccClrRow_keeps {q : Bool} {b t : State} (id : Nat) (h : Keeps q b t) : OutKeeps q b (execOccClrRow id
    t) := by
  unfold execOccClrRow
  repeat' first
    | with_reducible apply OutKeeps.done
    | with_reducible assumption
    | simp only [keeps_mk]
    | (with_reducible refine Keeps.parts ?_)
    | split

end Sys2Proof.Machine
end

