-- ==== Sys2Proof/Laws/Clocks.lean ====
section
/-! SUPPORT. What the operations and rows of Sys2Proof/Machine/Clocks.lean keep: `Keeps true` stores nothing, `Keeps q` for
every q likewise, `Keeps false` may store; `Retains` is said of the rows that write a quiet part. -/
namespace Sys2Proof.Machine

theorem execXcycLatch_retains {b t : State} (n : Nat) (h : Retains b t) : OutRetains b (execXcycLatch n t) := by
  unfold execXcycLatch
  repeat' first
    | with_reducible apply OutRetains.done
    | with_reducible assumption
    | refine Retains.keeps (q := false) ?_ (by (with_reducible apply setInst_keeps) <;> exact Keeps.refl _)
    | dsimp only
    | split
    | simp only [retains_mk]
    | (with_reducible refine Retains.as ?_)

theorem execExcursion_keeps {q : Bool} {b t : State} (n : Nat) (h : Keeps q b t) : OutKeeps q b (execExcursion n t)
    := by
  unfold execExcursion
  repeat' first
    | with_reducible apply OutKeeps.done
    | with_reducible assumption
    | with_reducible apply setFlag_keeps
    | split

theorem execCapRampTick_keeps {q : Bool} {b t : State} (n : Nat) (h : Keeps q b t) : OutKeeps q b (execCapRampTick n
    t) := by
  unfold execCapRampTick
  repeat' first
    | with_reducible apply OutKeeps.done
    | with_reducible assumption
    | with_reducible apply lowerCap_keeps
    | with_reducible apply setInst_keeps
    | intro _
    | (with_reducible apply Keeps.of_pair; with_reducible assumption)
    | with_reducible apply Keeps.of_foldl
    | dsimp only
    | simp only [keeps_mk]
    | (with_reducible refine Keeps.parts ?_)
    | split

theorem execMinClr_retains {b t : State} (n : Nat) (h : Retains b t) : OutRetains b (execMinClr n t) := by
  unfold execMinClr
  repeat' first
    | with_reducible apply OutRetains.done
    | with_reducible assumption
    | dsimp only
    | split
    | simp only [retains_mk]
    | (with_reducible refine Retains.as ?_)

theorem execPatinaSample_retains {b t : State} (m : Nat) (slack : Nat) (h : Retains b t) : OutRetains b
    (execPatinaSample m slack t) := by
  unfold execPatinaSample
  repeat' first
    | with_reducible apply OutRetains.done
    | with_reducible assumption
    | refine Retains.keeps (q := false) ?_ (by (with_reducible apply setInst_keeps) <;> exact Keeps.refl _)
    | refine Retains.keeps (q := false) ?_ (by (with_reducible apply setFlag_keeps) <;> exact Keeps.refl _)
    | dsimp only
    | split
    | simp only [retains_mk]
    | (with_reducible refine Retains.as ?_)

theorem execPatinaCritTick_keeps {q : Bool} {b t : State} (c : CritTick) (h : Keeps q b t) : OutKeeps q b
    (execPatinaCritTick c t) := by
  unfold execPatinaCritTick
  repeat' first
    | with_reducible apply OutKeeps.done
    | with_reducible assumption
    | with_reducible apply lowerCap_keeps
    | with_reducible apply setInst_keeps
    | with_reducible apply voutCommand_keeps
    | intro _
    | (with_reducible apply Keeps.of_pair; with_reducible assumption)
    | with_reducible apply Keeps.of_foldl
    | dsimp only
    | simp only [keeps_mk]
    | (with_reducible refine Keeps.parts ?_)
    | split

theorem execMarginFail_keeps {b t : State} (n : Nat) (h : Keeps false b t) : OutKeeps false b (execMarginFail n t)
    := by
  unfold execMarginFail
  repeat' first
    | with_reducible apply OutKeeps.done
    | with_reducible assumption
    | intro _
    | with_reducible apply setFlag_keeps
    | with_reducible apply retire_keeps
    | with_reducible apply Keeps.of_foldl
    | dsimp only
    | split

theorem execPatinaRecoveryTick_keeps {q : Bool} {b t : State} (n : Nat) (h : Keeps q b t) : OutKeeps q b
    (execPatinaRecoveryTick n t) := by
  unfold execPatinaRecoveryTick
  repeat' first
    | with_reducible apply OutKeeps.done
    | with_reducible assumption
    | with_reducible apply setInst_keeps
    | intro _
    | (with_reducible apply Keeps.of_pair; with_reducible assumption)
    | with_reducible apply Keeps.of_foldl
    | dsimp only
    | simp only [keeps_mk]
    | (with_reducible refine Keeps.parts ?_)
    | split

theorem setJd_retains {b t : State} (n : Nat) (x : Jd) (h : Retains b t) : Retains b (setJd t n x) := by
  unfold setJd
  repeat' first
    | with_reducible assumption
    | simp only [retains_mk]
    | (with_reducible refine Retains.as ?_)

theorem jdNext_retains {b t : State} (n : Nat) (h : Retains b t) : Retains b (jdNext t n) := by
  unfold jdNext
  repeat' first
    | with_reducible assumption
    | with_reducible apply setJd_retains

theorem jdFlag_keeps {q : Bool} {b t : State} (n : Nat) (i : Nat) (c : Bool) (h : Keeps q b t) : Keeps q b (jdFlag n
    i c t) := by
  unfold jdFlag
  repeat' first
    | with_reducible assumption
    | with_reducible apply setFlag_keeps
    | split

theorem execJdWindow_retains {b t : State} (n : Nat) (jitter : Nat) (duty : Nat) (ppm : Int) (h : Retains b t) :
    OutRetains b (execJdWindow n jitter duty ppm t) := by
  unfold execJdWindow
  repeat' first
    | with_reducible apply OutRetains.done
    | with_reducible assumption
    | with_reducible apply setJd_retains
    | with_reducible apply jdNext_retains
    | refine Retains.keeps (q := false) ?_ (by (with_reducible apply jdFlag_keeps) <;> exact Keeps.refl _)
    | dsimp only
    | split
    | simp only [retains_mk]
    | (with_reducible refine Retains.as ?_)

theorem tclkLoss_keeps {q : Bool} {b t : State} (h : Keeps q b t) : Keeps q b (tclkLoss t) := by
  unfold tclkLoss
  repeat' first
    | with_reducible assumption
    | with_reducible apply setFlag_keeps
    | with_reducible apply logEvent_keeps
    | with_reducible apply settleRadio_keeps
    | dsimp only
    | simp only [keeps_mk]
    | (with_reducible refine Keeps.parts ?_)
    | split

theorem clockLoss_keeps {b t : State} (src : Nat) (h : Keeps false b t) : Keeps false b (clockLoss t src) := by
  unfold clockLoss
  repeat' first
    | with_reducible assumption
    | with_reducible apply linkReset_keeps
    | with_reducible apply unsyncDie_keeps
    | with_reducible apply portLeave_keeps
    | with_reducible apply tclkLoss_keeps
    | intro _
    | (with_reducible apply Keeps.of_pair; with_reducible assumption)
    | with_reducible apply Keeps.of_foldl
    | dsimp only
    | simp only [keeps_mk]
    | (with_reducible refine Keeps.parts ?_)
    | split

theorem execJdLoss_retains {b t : State} (n : Nat) (h : Retains b t) : OutRetains b (execJdLoss n t) := by
  unfold execJdLoss
  repeat' first
    | with_reducible apply OutRetains.done
    | with_reducible assumption
    | with_reducible apply jdNext_retains
    | with_reducible apply setJd_retains
    | refine Retains.keeps (q := false) ?_ (by (with_reducible apply jdFlag_keeps) <;> exact Keeps.refl _)
    | refine Retains.keeps (q := false) ?_ (by (with_reducible apply clockLoss_keeps) <;> exact Keeps.refl _)
    | dsimp only
    | split
    | simp only [retains_mk]
    | (with_reducible refine Retains.as ?_)

end Sys2Proof.Machine
end

