-- ==== Sys2Proof/Laws/PowerCmds.lean ====
section
/-! SUPPORT. What the operations and rows of Sys2Proof/Machine/PowerCmds.lean keep: `Keeps true` stores nothing, `Keeps q` for
every q likewise, `Keeps false` may store; `Retains` is said of the rows that write a quiet part. -/
namespace Sys2Proof.Machine

theorem finishResume_keeps {q : Bool} {b t : State} (h : Keeps q b t) : Keeps q b (finishResume t) := by
  unfold finishResume
  repeat' first
    | with_reducible assumption
    | with_reducible apply arrive_keeps
    | with_reducible apply settleRadio_keeps
    | dsimp only
    | simp only [keeps_mk]
    | (with_reducible refine Keeps.parts ?_)
    | split

theorem execStepAdmit_keeps {q : Bool} {b t : State} (h : Keeps q b t) : OutKeeps q b (execStepAdmit t) := by
  unfold execStepAdmit
  repeat' first
    | with_reducible apply OutKeeps.done
    | with_reducible assumption
    | with_reducible apply admitStep_keeps
    | with_reducible apply settleRamp_keeps
    | with_reducible apply finishResume_keeps
    | intro _
    | (with_reducible apply Keeps.of_pair; with_reducible assumption)
    | with_reducible apply Keeps.of_foldl
    | dsimp only
    | simp only [keeps_mk]
    | (with_reducible refine Keeps.parts ?_)
    | split

theorem execSetpointStep_keeps {q : Bool} {b t : State} (naks : Nat) (h : Keeps q b t) : OutKeeps q b
    (execSetpointStep naks t) := by
  unfold execSetpointStep
  repeat' first
    | with_reducible apply OutKeeps.done
    | with_reducible assumption
    | with_reducible apply voutCommand_keeps
    | with_reducible apply pmbus_keeps
    | intro _
    | (with_reducible apply Keeps.of_pair; with_reducible assumption)
    | with_reducible apply Keeps.of_foldl
    | dsimp only
    | simp only [keeps_mk]
    | (with_reducible refine Keeps.parts ?_)
    | split

theorem execPmbusStatusPoll_keeps {q : Bool} {b t : State} (naks : Nat) (h : Keeps q b t) : OutKeeps q b
    (execPmbusStatusPoll naks t) := by
  unfold execPmbusStatusPoll
  repeat' first
    | with_reducible apply OutKeeps.done
    | with_reducible assumption
    | with_reducible apply pmbus_keeps
    | intro _
    | (with_reducible apply Keeps.of_pair; with_reducible assumption)
    | with_reducible apply Keeps.of_foldl
    | dsimp only
    | simp only [keeps_mk]
    | (with_reducible refine Keeps.parts ?_)
    | split

theorem execPmbusTelemetryPoll_keeps {q : Bool} {b t : State} (naks : Nat) (h : Keeps q b t) : OutKeeps q b
    (execPmbusTelemetryPoll naks t) := by
  unfold execPmbusTelemetryPoll
  repeat' first
    | with_reducible apply OutKeeps.done
    | with_reducible assumption
    | with_reducible apply pmbus_keeps
    | intro _
    | (with_reducible apply Keeps.of_pair; with_reducible assumption)
    | with_reducible apply Keeps.of_foldl
    | dsimp only
    | simp only [keeps_mk]
    | (with_reducible refine Keeps.parts ?_)
    | split

theorem execVrAlert_keeps {q : Bool} {b t : State} (asserted : Bool) (h : Keeps q b t) : OutKeeps q b (execVrAlert
    asserted t) := by
  unfold execVrAlert
  repeat' first
    | with_reducible apply OutKeeps.done
    | with_reducible assumption
    | with_reducible apply vrFault_keeps
    | dsimp only
    | simp only [keeps_mk]
    | (with_reducible refine Keeps.parts ?_)
    | split

theorem throttleArrays_keeps {q : Bool} {b t : State} (h : Keeps q b t) : Keeps q b (throttleArrays t) := by
  unfold throttleArrays
  repeat' first
    | with_reducible assumption
    | with_reducible apply setInst_keeps
    | intro _
    | (with_reducible apply Keeps.of_pair; with_reducible assumption)
    | with_reducible apply Keeps.of_foldl
    | dsimp only
    | simp only [keeps_mk]
    | (with_reducible refine Keeps.parts ?_)
    | split

theorem actHeat_keeps {q : Bool} {b t : State} (h : Keeps q b t) : Keeps q b (actHeat t) := by
  unfold actHeat
  repeat' first
    | with_reducible assumption
    | with_reducible apply throttleArrays_keeps
    | dsimp only
    | simp only [keeps_mk]
    | (with_reducible refine Keeps.parts ?_)
    | split

theorem execTjUpdate_keeps {q : Bool} {b t : State} (t' : Byte) (h : Keeps q b t) : OutKeeps q b (execTjUpdate t' t)
    := by
  unfold execTjUpdate
  repeat' first
    | with_reducible apply OutKeeps.done
    | with_reducible assumption
    | with_reducible apply setFlag_keeps
    | with_reducible apply setFlagIf_keeps
    | with_reducible apply startShed_keeps
    | with_reducible apply actHeat_keeps
    | dsimp only
    | simp only [keeps_mk]
    | (with_reducible refine Keeps.parts ?_)
    | split

theorem execThermtrip_keeps {q : Bool} {b t : State} (h : Keeps q b t) : OutKeeps q b (execThermtrip t) := by
  unfold execThermtrip
  repeat' first
    | with_reducible apply OutKeeps.done
    | with_reducible assumption
    | dsimp only
    | simp only [keeps_mk]
    | (with_reducible refine Keeps.parts ?_)
    | split

theorem execPfwNLow_keeps {q : Bool} {b t : State} (h : Keeps q b t) : OutKeeps q b (execPfwNLow t) := by
  unfold execPfwNLow
  repeat' first
    | with_reducible apply OutKeeps.done
    | with_reducible assumption
    | with_reducible apply startShed_keeps
    | dsimp only
    | simp only [keeps_mk]
    | (with_reducible refine Keeps.parts ?_)
    | split

theorem execPfwNRelease_keeps {q : Bool} {b t : State} (h : Keeps q b t) : OutKeeps q b (execPfwNRelease t) := by
  unfold execPfwNRelease
  repeat' first
    | with_reducible apply OutKeeps.done
    | with_reducible assumption
    | dsimp only
    | simp only [keeps_mk]
    | (with_reducible refine Keeps.parts ?_)

theorem execShed_keeps {q : Bool} {b t : State} (h : Keeps q b t) : OutKeeps q b (execShed t) := by
  unfold execShed
  repeat' first
    | with_reducible apply OutKeeps.done
    | with_reducible assumption
    | with_reducible apply startShed_keeps
    | split

theorem execShedRampStep_keeps {b t : State} (h : Keeps false b t) : OutKeeps false b (execShedRampStep t) := by
  unfold execShedRampStep
  repeat' first
    | with_reducible apply OutKeeps.done
    | with_reducible assumption
    | with_reducible apply shedGroup_keeps
    | dsimp only
    | simp only [keeps_mk]
    | (with_reducible refine Keeps.parts ?_)
    | split

theorem execResume_keeps {q : Bool} {b t : State} (h : Keeps q b t) : OutKeeps q b (execResume t) := by
  unfold execResume
  repeat' first
    | with_reducible apply OutKeeps.done
    | with_reducible assumption
    | intro _
    | with_reducible apply requestStep_keeps
    | with_reducible apply finishResume_keeps
    | with_reducible apply Keeps.of_foldl
    | dsimp only
    | simp only [keeps_mk]
    | (with_reducible refine Keeps.parts ?_)
    | split

theorem setOutput_keeps {q : Bool} {b t : State} (i : Nat) (on : Bool) (h : Keeps q b t) : Keeps q b (setOutput t i
    on) := by
  unfold setOutput
  repeat' first
    | with_reducible assumption
    | with_reducible apply setPort_keeps
    | intro _
    | (with_reducible apply Keeps.of_pair; with_reducible assumption)
    | with_reducible apply Keeps.of_foldl
    | dsimp only
    | simp only [keeps_mk]
    | (with_reducible refine Keeps.parts ?_)
    | split

theorem execOutputEnable_keeps {q : Bool} {b t : State} (ifc : Nat) (h : Keeps q b t) : OutKeeps q b
    (execOutputEnable ifc t) := by
  unfold execOutputEnable
  repeat' first
    | with_reducible apply OutKeeps.done
    | with_reducible assumption
    | with_reducible apply setOutput_keeps
    | split

theorem execOutputDisable_keeps {b t : State} (ifc : Nat) (h : Keeps false b t) : OutKeeps false b (execOutputDisable
    ifc t) := by
  unfold execOutputDisable
  repeat' first
    | with_reducible apply OutKeeps.done
    | with_reducible assumption
    | with_reducible apply settleRadio_keeps
    | with_reducible apply portLeave_keeps
    | with_reducible apply setOutput_keeps
    | intro _
    | (with_reducible apply Keeps.of_pair; with_reducible assumption)
    | with_reducible apply Keeps.of_foldl
    | dsimp only
    | simp only [keeps_mk]
    | (with_reducible refine Keeps.parts ?_)
    | split

theorem execProbeBurst_keeps {q : Bool} {b t : State} (p : Nat) (h : Keeps q b t) : OutKeeps q b (execProbeBurst p
    t) := by
  unfold execProbeBurst
  repeat' first
    | with_reducible apply OutKeeps.done
    | with_reducible assumption
    | dsimp only
    | simp only [keeps_mk]
    | (with_reducible refine Keeps.parts ?_)
    | split

end Sys2Proof.Machine
end

