-- ==== Sys2Proof/Laws/Mover.lean ====
section
/-! SUPPORT. What the operations and rows of Sys2Proof/Machine/Mover.lean keep: `Keeps true` stores nothing, `Keeps q` for
every q likewise, `Keeps false` may store; `Retains` is said of the rows that write a quiet part. -/
namespace Sys2Proof.Machine

theorem nextChunk_keeps {b t : State} (x : Run) (ch : Nat) (n : Nat) (length : Nat) (h : Keeps false b t) : Keeps
    false b (nextChunk t x ch n length) := by
  unfold nextChunk
  repeat' first
    | with_reducible assumption
    | with_reducible apply advance_keeps
    | with_reducible apply setPhase_keeps
    | split

theorem copyChunk_keeps {b t : State} (x : Run) (ch : Nat) (idx : Nat) (src : Nat) (dst : Nat) (length : Nat) (n :
    Nat) (h : Keeps false b t) : Keeps false b (copyChunk t x ch idx src dst length n) := by
  unfold copyChunk
  repeat' first
    | with_reducible assumption
    | with_reducible apply modRun_keeps
    | with_reducible apply readDev_keeps
    | with_reducible apply writeDev_keeps
    | with_reducible apply failWith_keeps
    | with_reducible apply nextChunk_keeps
    | (with_reducible apply Keeps.of_pair; with_reducible assumption)
    | dsimp only
    | split

theorem execMvCopy_keeps {b t : State} (ch : Nat) (h : Keeps false b t) : OutKeeps false b (execMvCopy ch t) := by
  unfold execMvCopy
  repeat' first
    | with_reducible apply OutKeeps.done
    | with_reducible assumption
    | with_reducible apply failResult_keeps
    | with_reducible apply copyChunk_keeps
    | dsimp only
    | split

theorem fillChunk_keeps {b t : State} (x : Run) (ch : Nat) (idx : Nat) (dst : Nat) (length : Nat) (n : Nat) (pattern
    : Nat) (h : Keeps false b t) : Keeps false b (fillChunk t x ch idx dst length n pattern) := by
  unfold fillChunk
  repeat' first
    | with_reducible assumption
    | with_reducible apply writeBytes_keeps
    | with_reducible apply failWith_keeps
    | with_reducible apply nextChunk_keeps
    | (with_reducible apply Keeps.of_pair; with_reducible assumption)
    | dsimp only
    | split

theorem execMvFill_keeps {b t : State} (ch : Nat) (h : Keeps false b t) : OutKeeps false b (execMvFill ch t) := by
  unfold execMvFill
  repeat' first
    | with_reducible apply OutKeeps.done
    | with_reducible assumption
    | with_reducible apply failResult_keeps
    | with_reducible apply fillChunk_keeps
    | dsimp only
    | split

theorem execScrub_keeps {b t : State} (unit : Nat) (off : Nat) (h : Keeps false b t) : OutKeeps false b (execScrub
    unit off t) := by
  unfold execScrub
  repeat' first
    | with_reducible apply OutKeeps.done
    | with_reducible assumption
    | with_reducible apply setCells_keeps
    | with_reducible apply senseCell_keeps
    | intro _
    | (with_reducible apply Keeps.of_pair; with_reducible assumption)
    | with_reducible apply Keeps.of_foldl
    | dsimp only
    | simp only [keeps_mk]
    | (with_reducible refine Keeps.parts ?_)
    | split

theorem layInvStart_keeps {q : Bool} {b t : State} (ctx : Nat) (handle : Option Nat) (h : Keeps q b t) : Keeps q b
    (layInvStart t ctx handle) := by
  unfold layInvStart
  repeat' first
    | with_reducible assumption
    | with_reducible apply setFlag_keeps
    | dsimp only
    | simp only [keeps_mk]
    | (with_reducible refine Keeps.parts ?_)
    | split

theorem execLayInvHandle_keeps {q : Bool} {b t : State} (ctx : Nat) (handle : Nat) (h : Keeps q b t) : OutKeeps q b
    (execLayInvHandle ctx handle t) := by
  unfold execLayInvHandle
  repeat' first
    | with_reducible apply OutKeeps.done
    | with_reducible assumption
    | with_reducible apply layInvStart_keeps

theorem execLayInvAll_keeps {q : Bool} {b t : State} (ctx : Nat) (h : Keeps q b t) : OutKeeps q b (execLayInvAll ctx
    t) := by
  unfold execLayInvAll
  repeat' first
    | with_reducible apply OutKeeps.done
    | with_reducible assumption
    | with_reducible apply layInvStart_keeps

theorem execLayInvDone_keeps {q : Bool} {b t : State} (h : Keeps q b t) : OutKeeps q b (execLayInvDone t) := by
  unfold execLayInvDone
  repeat' first
    | with_reducible apply OutKeeps.done
    | with_reducible assumption
    | dsimp only
    | simp only [keeps_mk]
    | (with_reducible refine Keeps.parts ?_)
    | split

theorem hbmWrite_keeps {b t : State} (g : Agent) (y0 : List (Nat × Nat)) (y1 : List Byte) (h : Keeps false b t) :
    Keeps false b (hbmWrite t g y0 y1) := by
  revert h
  fun_induction hbmWrite t g y0 y1 <;> intro h
  all_goals
   repeat' first
    | with_reducible assumption
    | with_reducible apply storePlace_keeps
    | intro _
    | (with_reducible apply Keeps.of_pair; with_reducible assumption)
    | with_reducible apply Keeps.of_foldl
    | dsimp only
    | simp only [keeps_mk]
    | (with_reducible refine Keeps.parts ?_)
    | split
    | with_reducible apply_assumption
    | dsimp +zetaDelta only

theorem hbmRead_keeps {b t : State} (g : Agent) (y0 : List (Nat × Nat)) (y1 : Data) (h : Keeps false b t) : Keeps
    false b (hbmRead t g y0 y1).1 := by
  revert h
  fun_induction hbmRead t g y0 y1 <;> intro h
  all_goals
   repeat' first
    | with_reducible assumption
    | with_reducible apply readPlace_keeps
    | intro _
    | (with_reducible apply Keeps.of_pair; with_reducible assumption)
    | with_reducible apply Keeps.of_foldl
    | dsimp only
    | simp only [keeps_mk]
    | (with_reducible refine Keeps.parts ?_)
    | split
    | with_reducible apply_assumption
    | dsimp +zetaDelta only

theorem execPeerInbound_keeps {b t : State} (die : Nat) (addr : Nat) (data : Option (List Byte)) (len : Nat) (h :
    Keeps false b t) : OutKeeps false b (execPeerInbound die addr data len t) := by
  unfold execPeerInbound
  repeat' first
    | with_reducible apply OutKeeps.done
    | with_reducible assumption
    | with_reducible apply setFlag_keeps
    | with_reducible apply hbmWrite_keeps
    | with_reducible apply hbmRead_keeps
    | with_reducible apply readPlace_keeps
    | with_reducible apply storePlace_keeps
    | intro _
    | (with_reducible apply Keeps.of_pair; with_reducible assumption)
    | with_reducible apply Keeps.of_foldl
    | dsimp only
    | simp only [keeps_mk]
    | (with_reducible refine Keeps.parts ?_)
    | split

end Sys2Proof.Machine
end

