-- ==== Sys2Proof/Laws/Faults.lean ====
section
/-! SUPPORT. What the operations and rows of Sys2Proof/Machine/Faults.lean keep: `Keeps true` stores nothing, `Keeps q` for
every q likewise, `Keeps false` may store; `Retains` is said of the rows that write a quiet part. -/
namespace Sys2Proof.Machine

theorem execEvcParity_keeps {q : Bool} {b t : State} (n : Nat) (h : Keeps q b t) : OutKeeps q b (execEvcParity n t)
    := by
  unfold execEvcParity
  repeat' first
    | with_reducible apply OutKeeps.done
    | with_reducible assumption
    | with_reducible apply setFlag_keeps
    | with_reducible apply pushLog_keeps
    | with_reducible apply setEvc_keeps
    | dsimp only
    | simp only [keeps_mk]
    | (with_reducible refine Keeps.parts ?_)
    | split

theorem endAllRuns_keeps {b t : State} (h : Keeps false b t) : Keeps false b (endAllRuns t) := by
  unfold endAllRuns
  repeat' first
    | with_reducible assumption
    | intro _
    | with_reducible apply modRun_keeps
    | with_reducible apply finishRun_keeps
    | with_reducible apply freeUnit_keeps
    | with_reducible apply freeArrays_keeps
    | with_reducible apply Keeps.of_foldl
    | split

theorem haltRingsWith_keeps {q : Bool} {b t : State} (p : Slot → Bool) (h : Keeps q b t) : Keeps q b (haltRingsWith
    t p) := by
  unfold haltRingsWith
  repeat' first
    | with_reducible assumption
    | intro _
    | with_reducible apply haltRing_keeps
    | with_reducible apply Keeps.of_foldl
    | split

theorem flushDispatched_keeps {b t : State} (h : Keeps false b t) : Keeps false b (flushDispatched t) := by
  unfold flushDispatched
  repeat' first
    | with_reducible assumption
    | with_reducible apply endAllRuns_keeps
    | with_reducible apply haltRingsWith_keeps

theorem execHedgerowUe_keeps {b t : State} (router : Nat) (h : Keeps false b t) : OutKeeps false b (execHedgerowUe
    router t) := by
  unfold execHedgerowUe
  repeat' first
    | with_reducible apply OutKeeps.done
    | with_reducible assumption
    | with_reducible apply setFlag_keeps
    | with_reducible apply logEvent_keeps
    | with_reducible apply recap_keeps
    | with_reducible apply flushDispatched_keeps
    | dsimp only
    | simp only [keeps_mk]
    | (with_reducible refine Keeps.parts ?_)

theorem setD2d_keeps {q : Bool} {b t : State} (d : Nat) (x : D2d) (h : Keeps q b t) : Keeps q b (setD2d t d x) := by
  unfold setD2d
  repeat' first
    | with_reducible assumption
    | dsimp only
    | simp only [keeps_mk]
    | (with_reducible refine Keeps.parts ?_)

theorem execD2dRetry_keeps {q : Bool} {b t : State} (d : Nat) (many : Bool) (h : Keeps q b t) : OutKeeps q b
    (execD2dRetry d many t) := by
  unfold execD2dRetry
  repeat' first
    | with_reducible apply OutKeeps.done
    | with_reducible assumption
    | with_reducible apply setFlag_keeps
    | with_reducible apply logEvent_keeps
    | with_reducible apply setD2d_keeps
    | dsimp only
    | split

theorem flushOutstanding_keeps {b t : State} (h : Keeps false b t) : Keeps false b (flushOutstanding t) := by
  unfold flushOutstanding
  repeat' first
    | with_reducible assumption
    | intro _
    | with_reducible apply haltRing_keeps
    | with_reducible apply endAllRuns_keeps
    | with_reducible apply Keeps.of_foldl
    | dsimp only
    | simp only [keeps_mk]
    | (with_reducible refine Keeps.parts ?_)
    | split

theorem execD2dDown_keeps {b t : State} (d : Nat) (h : Keeps false b t) : OutKeeps false b (execD2dDown d t) := by
  unfold execD2dDown
  repeat' first
    | with_reducible apply OutKeeps.done
    | with_reducible assumption
    | with_reducible apply setFlag_keeps
    | with_reducible apply logEvent_keeps
    | with_reducible apply recap_keeps
    | with_reducible apply unsyncDie_keeps
    | with_reducible apply retireDie_keeps
    | with_reducible apply setD2d_keeps
    | with_reducible apply flushOutstanding_keeps
    | dsimp only
    | split

theorem execErrRetireCmd_keeps {b t : State} (typ : Nat) (idx : Nat) (h : Keeps false b t) : OutKeeps false b
    (execErrRetireCmd typ idx t) := by
  unfold execErrRetireCmd
  repeat' first
    | with_reducible apply OutKeeps.done
    | with_reducible assumption
    | with_reducible apply retire_keeps
    | split

theorem execLogFlashCopy_retains {b t : State} (ok : Bool) (h : Retains b t) : OutRetains b (execLogFlashCopy ok t)
    := by
  unfold execLogFlashCopy
  repeat' first
    | with_reducible apply OutRetains.done
    | with_reducible assumption
    | refine Retains.keeps (q := false) ?_ (by (with_reducible apply setFlag_keeps) <;> exact Keeps.refl _)
    | dsimp only
    | split
    | simp only [retains_mk]
    | (with_reducible refine Retains.as ?_)

end Sys2Proof.Machine
end

