-- ==== Sys2Proof/Laws/Plinth.lean ====
section
/-! SUPPORT. What the operations and rows of Sys2Proof/Machine/Plinth.lean keep: `Keeps true` stores nothing, `Keeps q` for
every q likewise, `Keeps false` may store; `Retains` is said of the rows that write a quiet part. -/
namespace Sys2Proof.Machine

theorem putAcc_keeps {q : Bool} {b t : State} (a : Nat) (fn : Nat) (row : Nat) (vals : List Nat) (h : Keeps q b t) :
    Keeps q b (putAcc t a fn row vals) := by
  unfold putAcc
  repeat' first
    | with_reducible assumption
    | with_reducible apply setArr_keeps

theorem senseAcc_keeps {b t : State} (a : Nat) (e : Nat × Nat) (h : Keeps false b t) : Keeps false b (senseAcc t a
    e) := by
  unfold senseAcc
  repeat' first
    | with_reducible assumption
    | with_reducible apply corrected_keeps
    | with_reducible apply setArr_keeps
    | with_reducible apply countUe_keeps
    | dsimp only
    | split

theorem senseWords_keeps {b t : State} (g : Agent) (a : Nat) (reach : Nat → Nat → Bool) (h : Keeps false b t) : Keeps
    false b (senseWords t g a reach).1 := by
  unfold senseWords
  repeat' first
    | with_reducible assumption
    | with_reducible apply takeChoice_keeps
    | with_reducible apply consumed_keeps
    | with_reducible apply senseAcc_keeps
    | intro _
    | (with_reducible apply Keeps.of_pair; with_reducible assumption)
    | with_reducible apply Keeps.of_foldl
    | dsimp only
    | simp only [keeps_mk]
    | (with_reducible refine Keeps.parts ?_)
    | split

theorem beginPa_keeps {q : Bool} {b t : State} (x : Run) (a : Nat) (g : Seg) (n : Nat) (foreign : List Nat) (h : Keeps
    q b t) : Keeps q b (beginPa t x a g n foreign) := by
  unfold beginPa
  repeat' first
    | with_reducible assumption
    | with_reducible apply setPhase_keeps
    | intro _
    | (with_reducible apply Keeps.of_pair; with_reducible assumption)
    | with_reducible apply Keeps.of_foldl
    | dsimp only
    | simp only [keeps_mk]
    | (with_reducible refine Keeps.parts ?_)
    | split

theorem withCols_keeps {q : Bool} {b t : State} (x : Run) (a : Nat) (n : Nat) (f : State → State) (h : Keeps q b t)
    (hf : ∀ a0, Keeps q b a0 → Keeps q b (f a0)) : Keeps q b (withCols t x a n f) := by
  unfold withCols
  repeat' first
    | with_reducible assumption
    | with_reducible apply hf
    | with_reducible apply requestCols_keeps
    | intro _
    | (with_reducible apply Keeps.of_pair; with_reducible assumption)
    | with_reducible apply Keeps.of_foldl
    | dsimp only
    | simp only [keeps_mk]
    | (with_reducible refine Keeps.parts ?_)
    | split

theorem endBlock_keeps {b t : State} (x : Run) (a : Nat) (total : Nat) (blk : Nat) (n : Nat) (tile : List (List Nat))
    (foreign : List Nat) (h : Keeps false b t) : Keeps false b (endBlock t x a total blk n tile foreign) := by
  unfold endBlock
  repeat' first
    | with_reducible assumption
    | with_reducible apply advance_keeps
    | with_reducible apply setPhase_keeps
    | intro _
    | (with_reducible apply Keeps.of_pair; with_reducible assumption)
    | with_reducible apply Keeps.of_foldl
    | dsimp only
    | simp only [keeps_mk]
    | (with_reducible refine Keeps.parts ?_)
    | split

/-- What the checks of an operation keep, and each block of the work they answer. -/
structure WorkKeeps (b : State) (z : State × Res PaWork) : Prop where
  checks : Keeps false b z.1
  block : ∀ w, z.2 = .ok w → ∀ u i t f, Keeps false b u → Keeps false b (w.block u i t f).1

theorem WorkKeeps.of_fail {b s : State} {f : Fail} (h : Keeps false b s) : WorkKeeps b (s, .fail f) :=
  ⟨h, fun _ e => nomatch e⟩

theorem WorkKeeps.of_ok {b s : State} {w : PaWork} (h : Keeps false b s)
    (hw : ∀ u i t f, Keeps false b u → Keeps false b (w.block u i t f).1) : WorkKeeps b (s, .ok w) :=
  ⟨h, fun _ e => (Res.ok.inj e) ▸ hw⟩

theorem onArray_keeps {b t : State} (a opc : Nat) (check : State → Run → ListOp → State × Res PaWork)
    (h : Keeps false b t) (hcheck : ∀ u x o, Keeps false b u → WorkKeeps b (check u x o)) :
    Keeps false b (onArray t a opc check) := by
  unfold onArray
  split
  · exact h
  · rename_i x g o _
    have k := hcheck t x o h
    split
    · rename_i u f e
      exact failWith_keeps _ _ _ _ (Keeps.of_pair e k.checks)
    · rename_i u w e
      have hb := k.block w (congrArg Prod.snd e)
      refine withCols_keeps _ _ _ _ (beginPa_keeps _ _ _ _ _ (Keeps.of_pair e k.checks)) fun v hv => ?_
      split
      · rename_i f e
        exact failWith_keeps _ _ _ _ (Keeps.of_pair e (hb v _ _ _ hv))
      · rename_i f e
        exact endBlock_keeps _ _ _ _ _ _ _ (Keeps.of_pair e (hb v _ _ _ hv))

theorem readVecs_keeps {b t : State} (g : Agent) (o : Operand) (y0 : List (List (List Int))) (y1 : List (List Nat))
    (h : Keeps false b t) : Keeps false b (readVecs t g o y0 y1).1 := by
  revert h
  fun_induction readVecs t g o y0 y1 <;> intro h
  all_goals
   repeat' first
    | with_reducible assumption
    | with_reducible apply readElems_keeps
    | with_reducible apply_assumption
    | (with_reducible apply Keeps.of_pair; with_reducible assumption)

theorem storeBlock_keeps {q : Bool} {b t : State} (x : Run) (a : Nat) (row : Nat) (zero : Bool) (fa : Nat) (fb : Nat →
    Nat) (foreign : List Nat) (va : List (List Nat)) (vb : List (List Nat)) (h : Keeps q b t) : Keeps q b (storeBlock
    t x a row zero fa fb foreign va vb) := by
  unfold storeBlock
  repeat' first
    | with_reducible assumption
    | with_reducible apply putAcc_keeps
    | intro _
    | (with_reducible apply Keeps.of_pair; with_reducible assumption)
    | with_reducible apply Keeps.of_foldl
    | dsimp only
    | simp only [keeps_mk]
    | (with_reducible refine Keeps.parts ?_)
    | split

theorem loadTile_keeps {b t : State} (g : Agent) (o : Operand) (idx : Nat → Nat → List Int) (n : Nat) (k0 : Nat) (kn :
    Nat) (m0 : Nat) (tile : List (List Nat)) (h : Keeps false b t) : Keeps false b (loadTile t g o idx n k0 kn m0
    tile).1 := by
  unfold loadTile
  repeat' first
    | with_reducible assumption
    | with_reducible apply readVecs_keeps
    | intro _
    | (with_reducible apply Keeps.of_pair; with_reducible assumption)
    | with_reducible apply Keeps.of_foldl
    | dsimp only
    | simp only [keeps_mk]
    | (with_reducible refine Keeps.parts ?_)
    | split

theorem productBlock_keeps {b t : State} (x : Run) (a : Nat) (p : Product) (oa : Operand) (ob : Operand) (blk : Nat)
    (tile : List (List Nat)) (foreign : List Nat) (h : Keeps false b t) : Keeps false b (productBlock t x a p oa ob
    blk tile foreign).1 := by
  unfold productBlock
  repeat' first
    | with_reducible assumption
    | with_reducible apply senseWords_keeps
    | with_reducible apply readVecs_keeps
    | with_reducible apply storeBlock_keeps
    | with_reducible apply loadTile_keeps
    | intro _
    | (with_reducible apply Keeps.of_pair; with_reducible assumption)
    | with_reducible apply Keeps.of_foldl
    | dsimp only
    | simp only [keeps_mk]
    | (with_reducible refine Keeps.parts ?_)
    | split

theorem productWork_keeps {b t : State} (x : Run) (a : Nat) (p : Product) (h : Keeps false b t) :
    WorkKeeps b (productWork t x a p) := by
  unfold productWork
  repeat' first
    | with_reducible assumption
    | with_reducible apply WorkKeeps.of_fail
    | with_reducible apply WorkKeeps.of_ok
    | with_reducible apply operand_keeps
    | with_reducible apply productBlock_keeps
    | (with_reducible apply Keeps.of_pair; with_reducible assumption)
    | intro _
    | dsimp only
    | split

theorem execPaMatmul_keeps {b t : State} (a : Nat) (h : Keeps false b t) : OutKeeps false b (execPaMatmul a t) := by
  unfold execPaMatmul
  repeat' first
    | with_reducible apply OutKeeps.done
    | with_reducible assumption
    | with_reducible apply onArray_keeps
    | with_reducible apply WorkKeeps.of_fail
    | with_reducible apply WorkKeeps.of_ok
    | with_reducible apply productWork_keeps
    | (with_reducible apply Keeps.of_pair; with_reducible assumption)
    | intro _
    | dsimp only
    | split

theorem execPaConv_keeps {b t : State} (a : Nat) (h : Keeps false b t) : OutKeeps false b (execPaConv a t) := by
  unfold execPaConv
  repeat' first
    | with_reducible apply OutKeeps.done
    | with_reducible assumption
    | with_reducible apply onArray_keeps
    | with_reducible apply WorkKeeps.of_fail
    | with_reducible apply WorkKeeps.of_ok
    | with_reducible apply productWork_keeps
    | (with_reducible apply Keeps.of_pair; with_reducible assumption)
    | intro _
    | dsimp only
    | split

theorem storeChecks_keeps {b t : State} (x : Run) (a : Nat) (p : StoreOp) (fmtOk : Nat → Bool) (h : Keeps false b t) :
    Keeps false b (storeChecks t x a p fmtOk).1 := by
  unfold storeChecks
  repeat' first
    | with_reducible assumption
    | with_reducible apply operand_keeps
    | intro _
    | (with_reducible apply Keeps.of_pair; with_reducible assumption)
    | with_reducible apply Keeps.of_foldl
    | dsimp only
    | simp only [keeps_mk]
    | (with_reducible refine Keeps.parts ?_)
    | split

theorem storeStep_keeps {b t : State} (x : Run) (a : Nat) (p : StoreOp) (blk : Nat) (put : State → List (List Int ×
    Nat) → State × Option Fail) (h : Keeps false b t) (hput : ∀ a0 a1, Keeps false b a0 → Keeps false b (put a0 a1).1)
    : Keeps false b (storeStep t x a p blk put).1 := by
  unfold storeStep
  repeat' first
    | with_reducible assumption
    | with_reducible apply hput
    | with_reducible apply senseWords_keeps
    | intro _
    | (with_reducible apply Keeps.of_pair; with_reducible assumption)
    | with_reducible apply Keeps.of_foldl
    | dsimp only
    | simp only [keeps_mk]
    | (with_reducible refine Keeps.parts ?_)
    | split

theorem putStored_keeps {b t : State} (g : Agent) (d : Operand) (q' : Option Operand) (fp : Bool) (l : List (List Int
    × Nat)) (h : Keeps false b t) : Keeps false b (putStored g d q' fp t l).1 := by
  unfold putStored
  repeat' first
    | with_reducible assumption
    | with_reducible apply storeAccs_keeps
    | intro _
    | (with_reducible apply Keeps.of_pair; with_reducible assumption)
    | with_reducible apply Keeps.of_foldl
    | dsimp only
    | simp only [keeps_mk]
    | (with_reducible refine Keeps.parts ?_)
    | split

theorem execPaStore_keeps {b t : State} (a : Nat) (h : Keeps false b t) : OutKeeps false b (execPaStore a t) := by
  unfold execPaStore
  repeat' first
    | with_reducible apply OutKeeps.done
    | with_reducible assumption
    | with_reducible apply onArray_keeps
    | with_reducible apply WorkKeeps.of_fail
    | with_reducible apply WorkKeeps.of_ok
    | with_reducible apply storeChecks_keeps
    | with_reducible apply scaleOperand_keeps
    | with_reducible apply storeStep_keeps
    | with_reducible apply putStored_keeps
    | unfold storeWork
    | (with_reducible apply Keeps.of_pair; with_reducible assumption)
    | intro _
    | dsimp only
    | split

theorem reduceBlock_keeps {b t : State} (x : Run) (a : Nat) (p : ReduceOp) (blk : Nat) (foreign : List Nat) (h : Keeps
    false b t) : Keeps false b (reduceBlock t x a p blk foreign).1 := by
  unfold reduceBlock
  repeat' first
    | with_reducible assumption
    | with_reducible apply takeChoice_keeps
    | with_reducible apply useVar_keeps
    | with_reducible apply putAcc_keeps
    | with_reducible apply senseWords_keeps
    | intro _
    | (with_reducible apply Keeps.of_pair; with_reducible assumption)
    | with_reducible apply Keeps.of_foldl
    | dsimp only
    | simp only [keeps_mk]
    | (with_reducible refine Keeps.parts ?_)
    | split

theorem execPaReduceF_keeps {b t : State} (a : Nat) (h : Keeps false b t) : OutKeeps false b (execPaReduceF a t) := by
  unfold execPaReduceF
  repeat' first
    | with_reducible apply OutKeeps.done
    | with_reducible assumption
    | with_reducible apply onArray_keeps
    | with_reducible apply WorkKeeps.of_fail
    | with_reducible apply WorkKeeps.of_ok
    | with_reducible apply reduceBlock_keeps
    | (with_reducible apply Keeps.of_pair; with_reducible assumption)
    | intro _
    | dsimp only
    | split

theorem accumElem_keeps {b t : State} (g : Agent) (d : Operand) (fp : Bool) (idx : List Int) (w : Nat) (h : Keeps
    false b t) : Keeps false b (accumElem t g d fp idx w).1 := by
  unfold accumElem
  repeat' first
    | with_reducible assumption
    | with_reducible apply xlate_keeps
    | with_reducible apply readPlace_keeps
    | with_reducible apply consumed_keeps
    | with_reducible apply storePlace_keeps
    | intro _
    | (with_reducible apply Keeps.of_pair; with_reducible assumption)
    | with_reducible apply Keeps.of_foldl
    | dsimp only
    | simp only [keeps_mk]
    | (with_reducible refine Keeps.parts ?_)
    | split

theorem accumElems_keeps {b t : State} (g : Agent) (d : Operand) (fp : Bool) (y0 : List (List Int × Nat)) (h : Keeps
    false b t) : Keeps false b (accumElems g d fp t y0).1 := by
  revert h
  fun_induction accumElems g d fp t y0 <;> intro h
  all_goals
   repeat' first
    | with_reducible assumption
    | with_reducible apply accumElem_keeps
    | with_reducible apply_assumption
    | intro _
    | (with_reducible apply Keeps.of_pair; with_reducible assumption)
    | with_reducible apply Keeps.of_foldl
    | dsimp only
    | simp only [keeps_mk]
    | (with_reducible refine Keeps.parts ?_)
    | split
    | with_reducible apply_assumption
    | dsimp +zetaDelta only

theorem execPaAccumX_keeps {b t : State} (a : Nat) (h : Keeps false b t) : OutKeeps false b (execPaAccumX a t) := by
  unfold execPaAccumX
  repeat' first
    | with_reducible apply OutKeeps.done
    | with_reducible assumption
    | with_reducible apply onArray_keeps
    | with_reducible apply WorkKeeps.of_fail
    | with_reducible apply WorkKeeps.of_ok
    | with_reducible apply storeChecks_keeps
    | with_reducible apply useVar_keeps
    | with_reducible apply storeStep_keeps
    | with_reducible apply accumElems_keeps
    | unfold storeWork
    | (with_reducible apply Keeps.of_pair; with_reducible assumption)
    | intro _
    | dsimp only
    | split

theorem checkRequest_keeps {b t : State} (x : Run) (a : Nat) (e : Nat × Nat × Nat) (h : Keeps false b t) : Keeps false
    b (checkRequest t x a e).1 := by
  unfold checkRequest
  repeat' first
    | with_reducible assumption
    | with_reducible apply operand_keeps
    | with_reducible apply scaleOperand_keeps
    | intro _
    | (with_reducible apply Keeps.of_pair; with_reducible assumption)
    | with_reducible apply Keeps.of_foldl
    | dsimp only
    | simp only [keeps_mk]
    | (with_reducible refine Keeps.parts ?_)
    | split

theorem cutBatch_keeps {q : Bool} {b t : State} (x : Run) (j : Nat) (f : Fail) (h : Keeps q b t) : Keeps q b (cutBatch
    t x j f) := by
  unfold cutBatch
  repeat' first
    | with_reducible assumption
    | with_reducible apply modRun_keeps
    | intro _
    | (with_reducible apply Keeps.of_pair; with_reducible assumption)
    | with_reducible apply Keeps.of_foldl
    | dsimp only
    | simp only [keeps_mk]
    | (with_reducible refine Keeps.parts ?_)
    | split

theorem checkRequests_keeps {b t : State} (x : Run) (a : Nat) (y0 : List (Nat × Nat × Nat)) (y1 : List Request) (h :
    Keeps false b t) : Keeps false b (checkRequests t x a y0 y1).1 := by
  revert h
  fun_induction checkRequests t x a y0 y1 <;> intro h
  all_goals
   repeat' first
    | with_reducible assumption
    | with_reducible apply checkRequest_keeps
    | with_reducible apply_assumption
    | intro _
    | (with_reducible apply Keeps.of_pair; with_reducible assumption)
    | with_reducible apply Keeps.of_foldl
    | dsimp only
    | simp only [keeps_mk]
    | (with_reducible refine Keeps.parts ?_)
    | split
    | with_reducible apply_assumption
    | dsimp +zetaDelta only

theorem readX_keeps {b t : State} (g : Agent) (k0 : Nat) (kn : Nat) (y0 : List Request) (y1 : List (List Nat)) (h :
    Keeps false b t) : Keeps false b (readX t g k0 kn y0 y1).1 := by
  revert h
  fun_induction readX t g k0 kn y0 y1 <;> intro h
  all_goals
   repeat' first
    | with_reducible assumption
    | with_reducible apply readElems_keeps
    | with_reducible apply_assumption
    | intro _
    | (with_reducible apply Keeps.of_pair; with_reducible assumption)
    | with_reducible apply Keeps.of_foldl
    | dsimp only
    | simp only [keeps_mk]
    | (with_reducible refine Keeps.parts ?_)
    | split
    | with_reducible apply_assumption
    | dsimp +zetaDelta only

theorem storeY_keeps {b t : State} (x : Run) (a : Nat) (row : Nat) (t' : Nat) (n : Nat) (fp : Bool) (y0 : List
    Request) (y1 : Nat) (h : Keeps false b t) : Keeps false b (storeY t x a row t' n fp y0 y1).1 := by
  revert h
  fun_induction storeY t x a row t' n fp y0 y1 <;> intro h
  all_goals
   repeat' first
    | with_reducible assumption
    | with_reducible apply storeAccs_keeps
    | with_reducible apply_assumption
    | intro _
    | (with_reducible apply Keeps.of_pair; with_reducible assumption)
    | with_reducible apply Keeps.of_foldl
    | dsimp only
    | simp only [keeps_mk]
    | (with_reducible refine Keeps.parts ?_)
    | split
    | with_reducible apply_assumption
    | dsimp +zetaDelta only

theorem batchProduct_keeps {b t : State} (x : Run) (a : Nat) (w : Operand) (reqs : List Request) (t' : Nat) (tn : Nat)
    (blk : Nat) (tile : List (List Nat)) (h : Keeps false b t) : Keeps false b (batchProduct t x a w reqs t' tn blk
    tile).1 := by
  unfold batchProduct
  repeat' first
    | with_reducible assumption
    | with_reducible apply senseWords_keeps
    | with_reducible apply readVecs_keeps
    | with_reducible apply storeBlock_keeps
    | with_reducible apply readX_keeps
    | intro _
    | (with_reducible apply Keeps.of_pair; with_reducible assumption)
    | with_reducible apply Keeps.of_foldl
    | dsimp only
    | simp only [keeps_mk]
    | (with_reducible refine Keeps.parts ?_)
    | split

theorem batchStore_keeps {b t : State} (x : Run) (a : Nat) (w : Operand) (reqs : List Request) (t' : Nat) (tn : Nat)
    (blk : Nat) (h : Keeps false b t) : Keeps false b (batchStore t x a w reqs t' tn blk).1 := by
  unfold batchStore
  repeat' first
    | with_reducible assumption
    | with_reducible apply senseWords_keeps
    | with_reducible apply storeY_keeps
    | intro _
    | (with_reducible apply Keeps.of_pair; with_reducible assumption)
    | with_reducible apply Keeps.of_foldl
    | dsimp only
    | simp only [keeps_mk]
    | (with_reducible refine Keeps.parts ?_)
    | split

theorem batchBlock_keeps {b t : State} (x : Run) (a : Nat) (w : Operand) (reqs : List Request) (blk : Nat) (tile :
    List (List Nat)) (h : Keeps false b t) : Keeps false b (batchBlock t x a w reqs blk tile).1 := by
  unfold batchBlock
  repeat' first
    | with_reducible assumption
    | with_reducible apply batchProduct_keeps
    | with_reducible apply batchStore_keeps
    | intro _
    | (with_reducible apply Keeps.of_pair; with_reducible assumption)
    | with_reducible apply Keeps.of_foldl
    | dsimp only
    | simp only [keeps_mk]
    | (with_reducible refine Keeps.parts ?_)
    | split

theorem runBatch_keeps {b t : State} (x : Run) (a : Nat) (g : Seg) (w : Operand) (reqs : List Request) (h : Keeps
    false b t) : Keeps false b (runBatch t x a g w reqs) := by
  unfold runBatch
  repeat' first
    | with_reducible assumption
    | with_reducible apply advance_keeps
    | with_reducible apply beginPa_keeps
    | with_reducible apply withCols_keeps
    | with_reducible apply endBlock_keeps
    | with_reducible apply cutBatch_keeps
    | with_reducible apply batchBlock_keeps
    | with_reducible apply failWith_keeps
    | with_reducible apply readVecs_keeps
    | with_reducible apply readX_keeps
    | with_reducible apply storeY_keeps
    | intro _
    | (with_reducible apply Keeps.of_pair; with_reducible assumption)
    | with_reducible apply Keeps.of_foldl
    | dsimp only
    | simp only [keeps_mk]
    | (with_reducible refine Keeps.parts ?_)
    | split

theorem stepBatch_keeps {b t : State} (x : Run) (a : Nat) (g : Seg) (h : Keeps false b t) : Keeps false b (stepBatch t
    x a g) := by
  unfold stepBatch
  repeat' first
    | with_reducible assumption
    | with_reducible apply advance_keeps
    | with_reducible apply cutBatch_keeps
    | with_reducible apply checkRequests_keeps
    | with_reducible apply runBatch_keeps
    | intro _
    | (with_reducible apply Keeps.of_pair; with_reducible assumption)
    | with_reducible apply Keeps.of_foldl
    | dsimp only
    | simp only [keeps_mk]
    | (with_reducible refine Keeps.parts ?_)
    | split

theorem collectAlone_keeps {b t : State} (h : Keeps false b t) : Keeps false b (collectAlone t) := by
  unfold collectAlone
  repeat' first
    | with_reducible assumption
    | with_reducible apply modRun_keeps
    | with_reducible apply stopRun_keeps
    | split

theorem execPaCollect_keeps {b t : State} (a : Nat) (h : Keeps false b t) : OutKeeps false b (execPaCollect a t) := by
  unfold execPaCollect
  repeat' first
    | with_reducible apply OutKeeps.done
    | with_reducible assumption
    | with_reducible apply stepBatch_keeps
    | with_reducible apply collectAlone_keeps
    | intro _
    | (with_reducible apply Keeps.of_pair; with_reducible assumption)
    | with_reducible apply Keeps.of_foldl
    | dsimp only
    | simp only [keeps_mk]
    | (with_reducible refine Keeps.parts ?_)
    | split

theorem execPreemptHandover_keeps {b t : State} (a : Nat) (h : Keeps false b t) : OutKeeps false b
    (execPreemptHandover a t) := by
  unfold execPreemptHandover
  repeat' first
    | with_reducible apply OutKeeps.done
    | with_reducible assumption
    | with_reducible apply setFlag_keeps
    | with_reducible apply arrive_keeps
    | with_reducible apply setArr_keeps
    | with_reducible apply requestCols_keeps
    | with_reducible apply withdrawCols_keeps
    | with_reducible apply modSeg_keeps
    | with_reducible apply rampFor_keeps
    | with_reducible apply settleUnit_keeps
    | intro _
    | (with_reducible apply Keeps.of_pair; with_reducible assumption)
    | with_reducible apply Keeps.of_foldl
    | dsimp only
    | simp only [keeps_mk]
    | (with_reducible refine Keeps.parts ?_)
    | split

theorem execPreemptResume_keeps {b t : State} (a : Nat) (h : Keeps false b t) : OutKeeps false b (execPreemptResume a
    t) := by
  unfold execPreemptResume
  repeat' first
    | with_reducible apply OutKeeps.done
    | with_reducible assumption
    | with_reducible apply setArr_keeps
    | with_reducible apply modSeg_keeps
    | with_reducible apply rampFor_keeps
    | with_reducible apply settleUnit_keeps
    | with_reducible apply requestCols_keeps
    | intro _
    | (with_reducible apply Keeps.of_pair; with_reducible assumption)
    | with_reducible apply Keeps.of_foldl
    | dsimp only
    | simp only [keeps_mk]
    | (with_reducible refine Keeps.parts ?_)
    | split

end Sys2Proof.Machine
end

