-- ==== Sys2Proof/Laws/Tiles.lean ====
section
/-! SUPPORT. What the operations and rows of Sys2Proof/Machine/Tiles.lean keep: `Keeps true` stores nothing, `Keeps q` for
every q likewise, `Keeps false` may store; `Retains` is said of the rows that write a quiet part. -/
namespace Sys2Proof.Machine

theorem noteUnits_keeps {q : Bool} {b t : State} (x : Run) (t' : Nat) (a : Nat) (n : Nat) (h : Keeps q b t) : Keeps
    q b (noteUnits t x t' a n) := by
  unfold noteUnits
  repeat' first
    | with_reducible assumption
    | with_reducible apply modRun_keeps
    | split

theorem segStore_keeps {q : Bool} {b t : State} (x : Run) (t' : Nat) (a : Nat) (bytes : List Byte) (h : Keeps q b t)
    : Keeps q b (segStore t x t' a bytes) := by
  unfold segStore
  repeat' first
    | with_reducible assumption
    | with_reducible apply tileStore_keeps
    | with_reducible apply noteUnits_keeps

theorem refetch_keeps {b t : State} (t' : Nat) (line : Nat) (h : Keeps false b t) : Keeps false b (refetch t t'
    line) := by
  unfold refetch
  repeat' first
    | with_reducible assumption
    | with_reducible apply setTile_keeps
    | with_reducible apply readUse_keeps
    | (with_reducible apply Keeps.of_pair; with_reducible assumption)
    | dsimp only
    | split

theorem senseWord_keeps {b t : State} (t' : Nat) (e : Nat × Nat) (h : Keeps false b t) : Keeps false b (senseWord t
    t' e) := by
  unfold senseWord
  repeat' first
    | with_reducible assumption
    | with_reducible apply corrected_keeps
    | with_reducible apply setTile_keeps
    | with_reducible apply countUe_keeps
    | with_reducible apply refetch_keeps
    | dsimp only
    | split

theorem tileFetch_keeps {b t : State} (t' : Nat) (fn : Nat) (a : Nat) (n : Nat) (h : Keeps false b t) : Keeps false
    b (tileFetch t t' fn a n).1 := by
  unfold tileFetch
  repeat' first
    | with_reducible assumption
    | intro _
    | with_reducible apply senseWord_keeps
    | with_reducible apply Keeps.of_foldl
    | dsimp only
    | split

theorem claimAccs_keeps {q : Bool} {b t : State} (t' : Nat) (fn : Nat) (h : Keeps q b t) : Keeps q b (claimAccs t t'
    fn) := by
  unfold claimAccs
  repeat' first
    | with_reducible assumption
    | with_reducible apply setTile_keeps
    | intro _
    | (with_reducible apply Keeps.of_pair; with_reducible assumption)
    | with_reducible apply Keeps.of_foldl
    | dsimp only
    | simp only [keeps_mk]
    | (with_reducible refine Keeps.parts ?_)
    | split

theorem tmuRunAccs_keeps {q : Bool} {b t : State} (x : Run) (t' : Nat) (p : TmuOp) (a : List Byte) (b' : List Byte) (h
    : Keeps q b t) : Keeps q b (tmuRunAccs t x t' p a b') := by
  unfold tmuRunAccs
  repeat' first
    | with_reducible assumption
    | with_reducible apply setTile_keeps
    | with_reducible apply noteUnits_keeps
    | with_reducible apply claimAccs_keeps
    | intro _
    | (with_reducible apply Keeps.of_pair; with_reducible assumption)
    | with_reducible apply Keeps.of_foldl
    | dsimp only
    | simp only [keeps_mk]
    | (with_reducible refine Keeps.parts ?_)
    | split

theorem tmuStore_keeps {b t : State} (x : Run) (u : Nat) (idx : Nat) (t' : Nat) (p : TmuOp) (d : Operand) (q' : Option
    Operand) (h : Keeps false b t) : Keeps false b (tmuStore t x u idx t' p d q') := by
  unfold tmuStore
  repeat' first
    | with_reducible assumption
    | with_reducible apply modRun_keeps
    | with_reducible apply advance_keeps
    | with_reducible apply storeAccs_keeps
    | with_reducible apply failWith_keeps
    | intro _
    | (with_reducible apply Keeps.of_pair; with_reducible assumption)
    | with_reducible apply Keeps.of_foldl
    | dsimp only
    | simp only [keeps_mk]
    | (with_reducible refine Keeps.parts ?_)
    | split

theorem tmuDest_keeps {b t : State} (x : Run) (u : Nat) (p : TmuOp) (h : Keeps false b t) : Keeps false b (tmuDest t x
    u p).1 := by
  unfold tmuDest
  repeat' first
    | with_reducible assumption
    | with_reducible apply operand_keeps
    | with_reducible apply scaleOperand_keeps
    | intro _
    | (with_reducible apply Keeps.of_pair; with_reducible assumption)
    | with_reducible apply Keeps.of_foldl
    | dsimp only
    | simp only [keeps_mk]
    | (with_reducible refine Keeps.parts ?_)
    | split

theorem runTmu_keeps {b t : State} (x : Run) (u : Nat) (t' : Nat) (idx : Nat) (p : TmuOp) (h : Keeps false b t) :
    Keeps false b (runTmu t x u t' idx p) := by
  unfold runTmu
  repeat' first
    | with_reducible assumption
    | with_reducible apply advance_keeps
    | with_reducible apply failWith_keeps
    | with_reducible apply failResult_keeps
    | with_reducible apply tileFetch_keeps
    | with_reducible apply tmuRunAccs_keeps
    | with_reducible apply tmuStore_keeps
    | with_reducible apply tmuDest_keeps
    | intro _
    | (with_reducible apply Keeps.of_pair; with_reducible assumption)
    | with_reducible apply Keeps.of_foldl
    | dsimp only
    | simp only [keeps_mk]
    | (with_reducible refine Keeps.parts ?_)
    | split

theorem execTmuRun_keeps {b t : State} (u : Nat) (h : Keeps false b t) : OutKeeps false b (execTmuRun u t) := by
  unfold execTmuRun
  repeat' first
    | with_reducible apply OutKeeps.done
    | with_reducible assumption
    | intro _
    | with_reducible apply onOp_keeps
    | with_reducible apply failResult_keeps
    | with_reducible apply runTmu_keeps
    | dsimp only
    | split

theorem txFetch_keeps {b t : State} (t' : Nat) (fn : Nat) (a : Nat) (n : Nat) (h : Keeps false b t) : Keeps false b
    (txFetch t t' fn a n).1 := by
  unfold txFetch
  repeat' first
    | with_reducible assumption
    | with_reducible apply takeChoice_keeps
    | with_reducible apply tileFetch_keeps
    | intro _
    | (with_reducible apply Keeps.of_pair; with_reducible assumption)
    | with_reducible apply Keeps.of_foldl
    | dsimp only
    | simp only [keeps_mk]
    | (with_reducible refine Keeps.parts ?_)
    | split

theorem txReady_keeps {b t : State} (k : Nat) (x : CvLink) (p : Placed) (sfn : Nat) (slot : Nat) (sym : Nat) (h :
    Keeps false b t) : Keeps false b (txReady t k x p sfn slot sym).1 := by
  unfold txReady
  repeat' first
    | with_reducible assumption
    | with_reducible apply Keeps.of_foldl_fst
    | with_reducible apply txFetch_keeps
    | intro _
    | (with_reducible apply Keeps.of_pair; with_reducible assumption)
    | with_reducible apply Keeps.of_foldl
    | dsimp only
    | simp only [keeps_mk]
    | (with_reducible refine Keeps.parts ?_)
    | split

theorem txStream_keeps {b t : State} (k : Nat) (x : CvLink) (p : Placed) (slot : Nat) (sym : Nat) (stream : Nat) (h :
    Keeps false b t) : Keeps false b (txStream t k x p slot sym stream).1 := by
  unfold txStream
  repeat' first
    | with_reducible assumption
    | with_reducible apply txFetch_keeps
    | intro _
    | (with_reducible apply Keeps.of_pair; with_reducible assumption)
    | with_reducible apply Keeps.of_foldl
    | dsimp only
    | simp only [keeps_mk]
    | (with_reducible refine Keeps.parts ?_)
    | split

theorem txSamples_keeps {b t : State} (k : Nat) (x : CvLink) (p : Placed) (slot : Nat) (sym : Nat) (h : Keeps false b
    t) : Keeps false b (txSamples t k x p slot sym).1 := by
  unfold txSamples
  repeat' first
    | with_reducible assumption
    | with_reducible apply Keeps.of_foldl_fst
    | with_reducible apply txStream_keeps
    | intro _
    | (with_reducible apply Keeps.of_pair; with_reducible assumption)
    | with_reducible apply Keeps.of_foldl
    | dsimp only
    | simp only [keeps_mk]
    | (with_reducible refine Keeps.parts ?_)
    | split

theorem sendSymbol_keeps {b t : State} (k : Nat) (sfn : Nat) (slot : Nat) (sym : Nat) (h : Keeps false b t) : Keeps
    false b (sendSymbol t k sfn slot sym) := by
  unfold sendSymbol
  repeat' first
    | with_reducible assumption
    | with_reducible apply setFlag_keeps
    | with_reducible apply setLink_keeps
    | with_reducible apply txReady_keeps
    | with_reducible apply txSamples_keeps
    | intro _
    | (with_reducible apply Keeps.of_pair; with_reducible assumption)
    | with_reducible apply Keeps.of_foldl
    | dsimp only
    | simp only [keeps_mk]
    | (with_reducible refine Keeps.parts ?_)
    | split

theorem execTxSymbol_keeps {b t : State} (k : Nat) (sfn : Nat) (slot : Nat) (sym : Nat) (h : Keeps false b t) :
    OutKeeps false b (execTxSymbol k sfn slot sym t) := by
  unfold execTxSymbol
  repeat' first
    | with_reducible apply OutKeeps.done
    | with_reducible assumption
    | with_reducible apply symbolBoundary_keeps
    | with_reducible apply sendSymbol_keeps
    | intro _
    | (with_reducible apply Keeps.of_pair; with_reducible assumption)
    | with_reducible apply Keeps.of_foldl
    | dsimp only
    | simp only [keeps_mk]
    | (with_reducible refine Keeps.parts ?_)
    | split

end Sys2Proof.Machine
end

