-- ==== Sys2Proof/Laws/Tvc.lean ====
section
/-! SUPPORT. What the operations and rows of Sys2Proof/Machine/Tvc.lean keep: `Keeps true` stores nothing, `Keeps q` for
every q likewise, `Keeps false` may store; `Retains` is said of the rows that write a quiet part. -/
namespace Sys2Proof.Machine

theorem setTvc_keeps {q : Bool} {b t : State} (t' : Nat) (v : Nat) (c : Tvc) (h : Keeps q b t) : Keeps q b (setTvc t
    t' v c) := by
  unfold setTvc
  repeat' first
    | with_reducible assumption
    | with_reducible apply setTile_keeps

theorem tvcFail_keeps {b t : State} (x : Run) (o : ListOp) (t' : Nat) (v : Nat) (f : Fail) (h : Keeps false b t) :
    Keeps false b (tvcFail t x o t' v f) := by
  unfold tvcFail
  repeat' first
    | with_reducible assumption
    | with_reducible apply failOp_keeps
    | with_reducible apply setTvc_keeps

theorem tvcFinish_keeps {b t : State} (x : Run) (t' : Nat) (v : Nat) (h : Keeps false b t) : Keeps false b
    (tvcFinish t x t' v) := by
  unfold tvcFinish
  repeat' first
    | with_reducible assumption
    | with_reducible apply setTile_keeps
    | with_reducible apply modRun_keeps
    | with_reducible apply advance_keeps
    | with_reducible apply setTvc_keeps
    | dsimp only
    | split

theorem checkSlot_keeps {b t : State} (x : Run) (o : ListOp) (t' : Nat) (v : Nat) (h : Keeps false b t) : Keeps
    false b (checkSlot t x o t' v) := by
  unfold checkSlot
  repeat' first
    | with_reducible assumption
    | with_reducible apply tvcFail_keeps
    | dsimp only
    | split

theorem endBundle_keeps {b t : State} (x : Run) (o : ListOp) (t' : Nat) (v : Nat) (h : Keeps false b t) : Keeps
    false b (endBundle t x o t' v) := by
  unfold endBundle
  repeat' first
    | with_reducible assumption
    | intro _
    | with_reducible apply segStore_keeps
    | with_reducible apply setTvc_keeps
    | with_reducible apply tvcFail_keeps
    | with_reducible apply tvcFinish_keeps
    | with_reducible apply checkSlot_keeps
    | with_reducible apply Keeps.of_foldl
    | dsimp only
    | split

theorem endSlot_keeps {b t : State} (x : Run) (o : ListOp) (t' : Nat) (v : Nat) (h : Keeps false b t) : Keeps false
    b (endSlot t x o t' v) := by
  unfold endSlot
  repeat' first
    | with_reducible assumption
    | with_reducible apply setTvc_keeps
    | with_reducible apply checkSlot_keeps
    | with_reducible apply endBundle_keeps
    | dsimp only
    | split

theorem tvcSlot_keeps {b t : State} (t' : Nat) (v : Nat) (i : Instr) (f : State → Run → Tvc → State × SlotEffect) (h
    : Keeps false b t) (hf : ∀ a0 a1 a2, Keeps false b a0 → Keeps false b (f a0 a1 a2).1) : Keeps false b (tvcSlot t
    t' v i f) := by
  unfold tvcSlot
  repeat' first
    | with_reducible assumption
    | with_reducible apply hf
    | with_reducible apply setTvc_keeps
    | with_reducible apply tvcFail_keeps
    | with_reducible apply endSlot_keeps
    | (with_reducible apply Keeps.of_pair; with_reducible assumption)
    | dsimp only
    | split

theorem tvcPure_keeps {b t : State} (t' : Nat) (v : Nat) (i : Instr) (f : Tvc → Tvc) (h : Keeps false b t) : Keeps
    false b (tvcPure t t' v i f) := by
  unfold tvcPure
  repeat' first
    | with_reducible assumption
    | intro _
    | with_reducible apply tvcSlot_keeps

theorem tvcScalar_keeps {b t : State} (t' : Nat) (v : Nat) (sd : Nat) (i : Instr) (f : TvcRegs → Nat) (h : Keeps
    false b t) : Keeps false b (tvcScalar t t' v sd i f) := by
  unfold tvcScalar
  repeat' first
    | with_reducible assumption
    | with_reducible apply tvcPure_keeps

theorem tvcStart_keeps {b t : State} (x : Run) (o : ListOp) (t' : Nat) (v : Nat) (ext : Nat) (h : Keeps false b t) :
    Keeps false b (tvcStart t x o t' v ext) := by
  unfold tvcStart
  repeat' first
    | with_reducible assumption
    | with_reducible apply setPhase_keeps
    | with_reducible apply setTvc_keeps
    | with_reducible apply checkSlot_keeps

theorem tvcFetch_keeps {b t : State} (x : Run) (t' : Nat) (v : Nat) (prog : Nat) (len : Nat) (reload : Bool) (h :
    Keeps false b t) : Keeps false b (tvcFetch t x t' v prog len reload).1 := by
  unfold tvcFetch
  repeat' first
    | with_reducible assumption
    | with_reducible apply readUse_keeps
    | with_reducible apply setTvc_keeps
    | (with_reducible apply Keeps.of_pair; with_reducible assumption)
    | dsimp only
    | split

theorem execTvcRun_keeps {b t : State} (u : Nat) (h : Keeps false b t) : OutKeeps false b (execTvcRun u t) := by
  unfold execTvcRun
  repeat' first
    | with_reducible apply OutKeeps.done
    | with_reducible assumption
    | intro _
    | with_reducible apply onOp_keeps
    | with_reducible apply failWith_keeps
    | with_reducible apply failResult_keeps
    | with_reducible apply tvcStart_keeps
    | with_reducible apply tvcFetch_keeps
    | (with_reducible apply Keeps.of_pair; with_reducible assumption)
    | dsimp only
    | split

theorem execTvcRunaway_keeps {b t : State} (t' : Nat) (v : Nat) (h : Keeps false b t) : OutKeeps false b
    (execTvcRunaway t' v t) := by
  unfold execTvcRunaway
  repeat' first
    | with_reducible apply OutKeeps.done
    | with_reducible assumption
    | with_reducible apply tvcFail_keeps
    | split

theorem writeElems_keeps {b t : State} (g : Agent) (o : Operand) (y0 : List (List Int × Nat)) (h : Keeps false b t)
    : Keeps false b (writeElems t g o y0).1 := by
  revert h
  fun_induction writeElems t g o y0 <;> intro h
  all_goals
   repeat' first
    | with_reducible assumption
    | with_reducible apply writeElem_keeps
    | with_reducible apply_assumption
    | (with_reducible apply Keeps.of_pair; with_reducible assumption)

theorem dmaDevice_keeps {b t : State} (x : Run) (t' : Nat) (v : Nat) (d : DmaBlock) (h : Keeps false b t) : Keeps
    false b (dmaDevice t x t' v d).1 := by
  unfold dmaDevice
  repeat' first
    | with_reducible assumption
    | with_reducible apply operand_keeps
    | with_reducible apply readElems_keeps
    | with_reducible apply segStore_keeps
    | with_reducible apply tileFetch_keeps
    | with_reducible apply writeElems_keeps
    | intro _
    | (with_reducible apply Keeps.of_pair; with_reducible assumption)
    | with_reducible apply Keeps.of_foldl
    | dsimp only
    | simp only [keeps_mk]
    | (with_reducible refine Keeps.parts ?_)
    | split

theorem dmaStaging_keeps {b t : State} (x : Run) (t' : Nat) (d : DmaBlock) (h : Keeps false b t) : Keeps false b
    (dmaStaging t x t' d).1 := by
  unfold dmaStaging
  repeat' first
    | with_reducible assumption
    | with_reducible apply readPlace_keeps
    | with_reducible apply consumed_keeps
    | with_reducible apply storePlace_keeps
    | with_reducible apply segStore_keeps
    | with_reducible apply tileFetch_keeps
    | intro _
    | (with_reducible apply Keeps.of_pair; with_reducible assumption)
    | with_reducible apply Keeps.of_foldl
    | dsimp only
    | simp only [keeps_mk]
    | (with_reducible refine Keeps.parts ?_)
    | split

theorem execDmaDone_keeps {b t : State} (t' : Nat) (v : Nat) (h : Keeps false b t) : OutKeeps false b (execDmaDone t'
    v t) := by
  unfold execDmaDone
  repeat' first
    | with_reducible apply OutKeeps.done
    | with_reducible assumption
    | with_reducible apply setTvc_keeps
    | with_reducible apply tvcFail_keeps
    | with_reducible apply tvcFinish_keeps
    | with_reducible apply dmaDevice_keeps
    | with_reducible apply dmaStaging_keeps
    | intro _
    | (with_reducible apply Keeps.of_pair; with_reducible assumption)
    | with_reducible apply Keeps.of_foldl
    | dsimp only
    | simp only [keeps_mk]
    | (with_reducible refine Keeps.parts ?_)
    | split

end Sys2Proof.Machine
end

