-- ==== Sys2Proof/Laws/TvcOps.lean ====
section
/-! SUPPORT. What the operations and rows of Sys2Proof/Machine/TvcOps.lean keep: `Keeps true` stores nothing, `Keeps q` for
every q likewise, `Keeps false` may store; `Retains` is said of the rows that write a quiet part. -/
namespace Sys2Proof.Machine

theorem execTvcNop_keeps {b t : State} (t' : Nat) (v : Nat) (slot : Nat) (h : Keeps false b t) : OutKeeps false b
    (execTvcNop t' v slot t) := by
  unfold execTvcNop
  repeat' first
    | with_reducible apply OutKeeps.done
    | with_reducible assumption
    | with_reducible apply tvcPure_keeps

theorem execTvcLi_keeps {b t : State} (t' : Nat) (v : Nat) (sd : Nat) (imm : Nat) (h : Keeps false b t) : OutKeeps
    false b (execTvcLi t' v sd imm t) := by
  unfold execTvcLi
  repeat' first
    | with_reducible apply OutKeeps.done
    | with_reducible assumption
    | with_reducible apply tvcScalar_keeps

theorem execTvcLih_keeps {b t : State} (t' : Nat) (v : Nat) (sd : Nat) (imm : Nat) (h : Keeps false b t) : OutKeeps
    false b (execTvcLih t' v sd imm t) := by
  unfold execTvcLih
  repeat' first
    | with_reducible apply OutKeeps.done
    | with_reducible assumption
    | with_reducible apply tvcScalar_keeps

theorem execTvcAdd_keeps {b t : State} (t' : Nat) (v : Nat) (sd : Nat) (sa : Nat) (sb : Nat) (h : Keeps false b t) :
    OutKeeps false b (execTvcAdd t' v sd sa sb t) := by
  unfold execTvcAdd
  repeat' first
    | with_reducible apply OutKeeps.done
    | with_reducible assumption
    | with_reducible apply tvcScalar_keeps

theorem execTvcSub_keeps {b t : State} (t' : Nat) (v : Nat) (sd : Nat) (sa : Nat) (sb : Nat) (h : Keeps false b t) :
    OutKeeps false b (execTvcSub t' v sd sa sb t) := by
  unfold execTvcSub
  repeat' first
    | with_reducible apply OutKeeps.done
    | with_reducible assumption
    | with_reducible apply tvcScalar_keeps

theorem execTvcAddi_keeps {b t : State} (t' : Nat) (v : Nat) (sd : Nat) (sa : Nat) (imm : Nat) (h : Keeps false b t)
    : OutKeeps false b (execTvcAddi t' v sd sa imm t) := by
  unfold execTvcAddi
  repeat' first
    | with_reducible apply OutKeeps.done
    | with_reducible assumption
    | with_reducible apply tvcScalar_keeps

theorem execTvcAnd_keeps {b t : State} (t' : Nat) (v : Nat) (sd : Nat) (sa : Nat) (sb : Nat) (h : Keeps false b t) :
    OutKeeps false b (execTvcAnd t' v sd sa sb t) := by
  unfold execTvcAnd
  repeat' first
    | with_reducible apply OutKeeps.done
    | with_reducible assumption
    | with_reducible apply tvcScalar_keeps

theorem execTvcOr_keeps {b t : State} (t' : Nat) (v : Nat) (sd : Nat) (sa : Nat) (sb : Nat) (h : Keeps false b t) :
    OutKeeps false b (execTvcOr t' v sd sa sb t) := by
  unfold execTvcOr
  repeat' first
    | with_reducible apply OutKeeps.done
    | with_reducible assumption
    | with_reducible apply tvcScalar_keeps

theorem execTvcShl_keeps {b t : State} (t' : Nat) (v : Nat) (sd : Nat) (sa : Nat) (sb : Nat) (h : Keeps false b t) :
    OutKeeps false b (execTvcShl t' v sd sa sb t) := by
  unfold execTvcShl
  repeat' first
    | with_reducible apply OutKeeps.done
    | with_reducible assumption
    | with_reducible apply tvcScalar_keeps

theorem execTvcShr_keeps {b t : State} (t' : Nat) (v : Nat) (sd : Nat) (sa : Nat) (sb : Nat) (h : Keeps false b t) :
    OutKeeps false b (execTvcShr t' v sd sa sb t) := by
  unfold execTvcShr
  repeat' first
    | with_reducible apply OutKeeps.done
    | with_reducible assumption
    | with_reducible apply tvcScalar_keeps

theorem execTvcLoop_keeps {b t : State} (t' : Nat) (v : Nat) (sa : Nat) (body : Nat) (imm : Nat) (h : Keeps false b t)
    : OutKeeps false b (execTvcLoop t' v sa body imm t) := by
  unfold execTvcLoop
  repeat' first
    | with_reducible apply OutKeeps.done
    | with_reducible assumption
    | with_reducible apply tvcPure_keeps
    | with_reducible apply takeChoice_keeps
    | with_reducible apply tvcSlot_keeps
    | intro _
    | (with_reducible apply Keeps.of_pair; with_reducible assumption)
    | with_reducible apply Keeps.of_foldl
    | dsimp only
    | simp only [keeps_mk]
    | (with_reducible refine Keeps.parts ?_)
    | split

theorem execTvcBnz_keeps {b t : State} (t' : Nat) (v : Nat) (sa : Nat) (imm : Nat) (h : Keeps false b t) : OutKeeps
    false b (execTvcBnz t' v sa imm t) := by
  unfold execTvcBnz
  repeat' first
    | with_reducible apply OutKeeps.done
    | with_reducible assumption
    | with_reducible apply tvcPure_keeps

theorem execTvcMovp_keeps {b t : State} (t' : Nat) (v : Nat) (pt : Nat) (sa : Nat) (h : Keeps false b t) : OutKeeps
    false b (execTvcMovp t' v pt sa t) := by
  unfold execTvcMovp
  repeat' first
    | with_reducible apply OutKeeps.done
    | with_reducible assumption
    | with_reducible apply tvcPure_keeps

theorem execTvcSetrm_keeps {b t : State} (t' : Nat) (v : Nat) (imm : Nat) (h : Keeps false b t) : OutKeeps false b
    (execTvcSetrm t' v imm t) := by
  unfold execTvcSetrm
  repeat' first
    | with_reducible apply OutKeeps.done
    | with_reducible assumption
    | with_reducible apply tvcPure_keeps

theorem execTvcRdcyc_keeps {b t : State} (t' : Nat) (v : Nat) (sd : Nat) (h : Keeps false b t) : OutKeeps false b
    (execTvcRdcyc t' v sd t) := by
  unfold execTvcRdcyc
  repeat' first
    | with_reducible apply OutKeeps.done
    | with_reducible assumption
    | intro _
    | with_reducible apply useVar_keeps
    | with_reducible apply tvcSlot_keeps

theorem execTvcDma_keeps {b t : State} (t' : Nat) (v : Nat) (sa : Nat) (h : Keeps false b t) : OutKeeps false b
    (execTvcDma t' v sa t) := by
  unfold execTvcDma
  repeat' first
    | with_reducible apply OutKeeps.done
    | with_reducible assumption
    | intro _
    | with_reducible apply tileFetch_keeps
    | with_reducible apply tvcSlot_keeps
    | (with_reducible apply Keeps.of_pair; with_reducible assumption)
    | dsimp only
    | split

theorem execTvcDmaw_keeps {b t : State} (t' : Nat) (v : Nat) (h : Keeps false b t) : OutKeeps false b (execTvcDmaw
    t' v t) := by
  unfold execTvcDmaw
  repeat' first
    | with_reducible apply OutKeeps.done
    | with_reducible assumption
    | intro _
    | with_reducible apply tvcSlot_keeps

theorem execTvcEnd_keeps {b t : State} (t' : Nat) (v : Nat) (h : Keeps false b t) : OutKeeps false b (execTvcEnd t'
    v t) := by
  unfold execTvcEnd
  repeat' first
    | with_reducible apply OutKeeps.done
    | with_reducible assumption
    | with_reducible apply tvcPure_keeps

theorem vecSat_keeps {b t : State} (t' : Nat) (v : Nat) (vd : Nat) (i : Instr) (f : TvcRegs → List Int) (h : Keeps
    false b t) : Keeps false b (vecSat t t' v vd i f) := by
  unfold vecSat
  repeat' first
    | with_reducible assumption
    | with_reducible apply tvcPure_keeps
    | with_reducible apply takeChoice_keeps
    | with_reducible apply tvcSlot_keeps
    | intro _
    | (with_reducible apply Keeps.of_pair; with_reducible assumption)
    | with_reducible apply Keeps.of_foldl
    | dsimp only
    | simp only [keeps_mk]
    | (with_reducible refine Keeps.parts ?_)
    | split

theorem execTvcVadd_keeps {b t : State} (t' : Nat) (v : Nat) (o : VOperands) (h : Keeps false b t) : OutKeeps false
    b (execTvcVadd t' v o t) := by
  unfold execTvcVadd
  repeat' first
    | with_reducible apply OutKeeps.done
    | with_reducible assumption
    | with_reducible apply vecSat_keeps

theorem execTvcVsub_keeps {b t : State} (t' : Nat) (v : Nat) (o : VOperands) (h : Keeps false b t) : OutKeeps false
    b (execTvcVsub t' v o t) := by
  unfold execTvcVsub
  repeat' first
    | with_reducible apply OutKeeps.done
    | with_reducible assumption
    | with_reducible apply vecSat_keeps

theorem execTvcVcmul_keeps {b t : State} (t' : Nat) (v : Nat) (o : VOperands) (h : Keeps false b t) : OutKeeps false
    b (execTvcVcmul t' v o t) := by
  unfold execTvcVcmul
  repeat' first
    | with_reducible apply OutKeeps.done
    | with_reducible assumption
    | with_reducible apply tvcPure_keeps

theorem execTvcVmag_keeps {b t : State} (t' : Nat) (v : Nat) (o : VOperands) (h : Keeps false b t) : OutKeeps false
    b (execTvcVmag t' v o t) := by
  unfold execTvcVmag
  repeat' first
    | with_reducible apply OutKeeps.done
    | with_reducible assumption
    | with_reducible apply tvcPure_keeps

theorem execTvcVsta_keeps {b t : State} (t' : Nat) (v : Nat) (o : VOperands) (h : Keeps false b t) : OutKeeps false b
    (execTvcVsta t' v o t) := by
  unfold execTvcVsta
  repeat' first
    | with_reducible apply OutKeeps.done
    | with_reducible assumption
    | with_reducible apply tvcPure_keeps
    | with_reducible apply takeChoice_keeps
    | with_reducible apply tvcSlot_keeps
    | intro _
    | (with_reducible apply Keeps.of_pair; with_reducible assumption)
    | with_reducible apply Keeps.of_foldl
    | dsimp only
    | simp only [keeps_mk]
    | (with_reducible refine Keeps.parts ?_)
    | split

theorem execTvcVrcp_keeps {b t : State} (t' : Nat) (v : Nat) (o : VOperands) (h : Keeps false b t) : OutKeeps false b
    (execTvcVrcp t' v o t) := by
  unfold execTvcVrcp
  repeat' first
    | with_reducible apply OutKeeps.done
    | with_reducible assumption
    | with_reducible apply tvcPure_keeps
    | with_reducible apply takeChoice_keeps
    | with_reducible apply tvcSlot_keeps
    | intro _
    | (with_reducible apply Keeps.of_pair; with_reducible assumption)
    | with_reducible apply Keeps.of_foldl
    | dsimp only
    | simp only [keeps_mk]
    | (with_reducible refine Keeps.parts ?_)
    | split

theorem vecWord_keeps {b t : State} (t' : Nat) (v : Nat) (vd : Nat) (i : Instr) (f : TvcRegs → Nat) (h : Keeps false b
    t) : Keeps false b (vecWord t t' v vd i f) := by
  unfold vecWord
  repeat' first
    | with_reducible assumption
    | with_reducible apply tvcPure_keeps
    | with_reducible apply takeChoice_keeps
    | with_reducible apply tvcSlot_keeps
    | intro _
    | (with_reducible apply Keeps.of_pair; with_reducible assumption)
    | with_reducible apply Keeps.of_foldl
    | dsimp only
    | simp only [keeps_mk]
    | (with_reducible refine Keeps.parts ?_)
    | split

theorem execTvcVmov_keeps {b t : State} (t' : Nat) (v : Nat) (o : VOperands) (h : Keeps false b t) : OutKeeps false
    b (execTvcVmov t' v o t) := by
  unfold execTvcVmov
  repeat' first
    | with_reducible apply OutKeeps.done
    | with_reducible assumption
    | with_reducible apply vecWord_keeps

theorem execTvcVbcst_keeps {b t : State} (t' : Nat) (v : Nat) (o : VOperands) (h : Keeps false b t) : OutKeeps false
    b (execTvcVbcst t' v o t) := by
  unfold execTvcVbcst
  repeat' first
    | with_reducible apply OutKeeps.done
    | with_reducible assumption
    | with_reducible apply vecWord_keeps

theorem execTvcVmax_keeps {b t : State} (t' : Nat) (v : Nat) (o : VOperands) (h : Keeps false b t) : OutKeeps false
    b (execTvcVmax t' v o t) := by
  unfold execTvcVmax
  repeat' first
    | with_reducible apply OutKeeps.done
    | with_reducible assumption
    | with_reducible apply vecWord_keeps

theorem execTvcVmin_keeps {b t : State} (t' : Nat) (v : Nat) (o : VOperands) (h : Keeps false b t) : OutKeeps false
    b (execTvcVmin t' v o t) := by
  unfold execTvcVmin
  repeat' first
    | with_reducible apply OutKeeps.done
    | with_reducible assumption
    | with_reducible apply vecWord_keeps

theorem execTvcVclip_keeps {b t : State} (t' : Nat) (v : Nat) (o : VOperands) (h : Keeps false b t) : OutKeeps false
    b (execTvcVclip t' v o t) := by
  unfold execTvcVclip
  repeat' first
    | with_reducible apply OutKeeps.done
    | with_reducible assumption
    | with_reducible apply vecWord_keeps

theorem execTvcVpack8_keeps {b t : State} (t' : Nat) (v : Nat) (o : VOperands) (h : Keeps false b t) : OutKeeps false
    b (execTvcVpack8 t' v o t) := by
  unfold execTvcVpack8
  repeat' first
    | with_reducible apply OutKeeps.done
    | with_reducible assumption
    | with_reducible apply tvcPure_keeps
    | with_reducible apply takeChoice_keeps
    | with_reducible apply tvcSlot_keeps
    | intro _
    | (with_reducible apply Keeps.of_pair; with_reducible assumption)
    | with_reducible apply Keeps.of_foldl
    | dsimp only
    | simp only [keeps_mk]
    | (with_reducible refine Keeps.parts ?_)
    | split

theorem countLanes_keeps {q : Bool} {b t : State} (x : Run) (learned : Nat) (classical : Nat) (h : Keeps q b t) :
    Keeps q b (countLanes t x learned classical) := by
  unfold countLanes
  repeat' first
    | with_reducible assumption
    | dsimp only
    | simp only [keeps_mk]
    | (with_reducible refine Keeps.parts ?_)
    | split

theorem noteExclusion_keeps {q : Bool} {b t : State} (x : Run) (table : Bool) (erase : Bool) (h : Keeps q b t) :
    Keeps q b (noteExclusion t x table erase) := by
  unfold noteExclusion
  repeat' first
    | with_reducible assumption
    | with_reducible apply setFlagIf_keeps
    | with_reducible apply modRun_keeps

theorem execTvcCsel_keeps {b t : State} (t' : Nat) (v : Nat) (o : VOperands) (h : Keeps false b t) : OutKeeps false b
    (execTvcCsel t' v o t) := by
  unfold execTvcCsel
  repeat' first
    | with_reducible apply OutKeeps.done
    | with_reducible assumption
    | with_reducible apply tvcSlot_keeps
    | with_reducible apply countLanes_keeps
    | with_reducible apply noteExclusion_keeps
    | with_reducible apply takeChoice_keeps
    | intro _
    | (with_reducible apply Keeps.of_pair; with_reducible assumption)
    | with_reducible apply Keeps.of_foldl
    | dsimp only
    | simp only [keeps_mk]
    | (with_reducible refine Keeps.parts ?_)
    | split

theorem tvcLoad_keeps {b t : State} (t' : Nat) (v : Nat) (o : MOperands) (i : Instr) (n : Nat) (f : Nat → Nat) (h :
    Keeps false b t) : Keeps false b (tvcLoad t t' v o i n f) := by
  unfold tvcLoad
  repeat' first
    | with_reducible assumption
    | with_reducible apply tileFetch_keeps
    | with_reducible apply tvcSlot_keeps
    | with_reducible apply takeChoice_keeps
    | intro _
    | (with_reducible apply Keeps.of_pair; with_reducible assumption)
    | with_reducible apply Keeps.of_foldl
    | dsimp only
    | simp only [keeps_mk]
    | (with_reducible refine Keeps.parts ?_)
    | split

theorem execTvcLd_keeps {b t : State} (t' : Nat) (v : Nat) (o : MOperands) (h : Keeps false b t) : OutKeeps false b
    (execTvcLd t' v o t) := by
  unfold execTvcLd
  repeat' first
    | with_reducible apply OutKeeps.done
    | with_reducible assumption
    | with_reducible apply tvcLoad_keeps

theorem execTvcLdb_keeps {b t : State} (t' : Nat) (v : Nat) (o : MOperands) (h : Keeps false b t) : OutKeeps false b
    (execTvcLdb t' v o t) := by
  unfold execTvcLdb
  repeat' first
    | with_reducible apply OutKeeps.done
    | with_reducible assumption
    | with_reducible apply tvcLoad_keeps

theorem execTvcSt_keeps {b t : State} (t' : Nat) (v : Nat) (o : MOperands) (h : Keeps false b t) : OutKeeps false b
    (execTvcSt t' v o t) := by
  unfold execTvcSt
  repeat' first
    | with_reducible apply OutKeeps.done
    | with_reducible assumption
    | with_reducible apply tvcSlot_keeps
    | with_reducible apply takeChoice_keeps
    | intro _
    | (with_reducible apply Keeps.of_pair; with_reducible assumption)
    | with_reducible apply Keeps.of_foldl
    | dsimp only
    | simp only [keeps_mk]
    | (with_reducible refine Keeps.parts ?_)
    | split

end Sys2Proof.Machine
end

