-- ==== Sys2Proof/Laws/Learned.lean ====
section
/-! SUPPORT. What the operations and rows of Sys2Proof/Machine/Learned.lean keep: `Keeps true` stores nothing, `Keeps q` for
every q likewise, `Keeps false` may store; `Retains` is said of the rows that write a quiet part. -/
namespace Sys2Proof.Machine

theorem setVer_keeps {q : Bool} {b t : State} (e : Nat) (v : Ver) (h : Keeps q b t) : Keeps q b (setVer t e v) := by
  unfold setVer
  repeat' first
    | with_reducible assumption
    | dsimp only
    | simp only [keeps_mk]
    | (with_reducible refine Keeps.parts ?_)

theorem execPublish_keeps {q : Bool} {b t : State} (func : Nat) (table : Nat) (sfn : Nat) (sf : Nat) (h : Keeps q b
    t) : OutKeeps q b (execPublish func table sfn sf t) := by
  unfold execPublish
  repeat' first
    | with_reducible apply OutKeeps.done
    | with_reducible assumption
    | with_reducible apply setFlag_keeps
    | dsimp only
    | simp only [keeps_mk]
    | (with_reducible refine Keeps.parts ?_)
    | split

theorem postResult_keeps {q : Bool} {b t : State} (result : Nat) (entry : Option Nat) (h : Keeps q b t) : Keeps q b
    (postResult t result entry) := by
  unfold postResult
  repeat' first
    | with_reducible assumption
    | with_reducible apply setFlagIf_keeps
    | with_reducible apply takeChoice_keeps
    | dsimp only
    | simp only [keeps_mk]
    | (with_reducible refine Keeps.parts ?_)

theorem execWithdraw_keeps {q : Bool} {b t : State} (entry : Nat) (h : Keeps q b t) : OutKeeps q b (execWithdraw
    entry t) := by
  unfold execWithdraw
  repeat' first
    | with_reducible apply OutKeeps.done
    | with_reducible assumption
    | with_reducible apply setFlag_keeps
    | with_reducible apply setVer_keeps
    | with_reducible apply postResult_keeps
    | split

theorem readTable_keeps {b t : State} (j : PubJob) (h : Keeps false b t) : Keeps false b (readTable t j).1 := by
  unfold readTable
  repeat' first
    | with_reducible assumption
    | with_reducible apply takeChoice_keeps
    | with_reducible apply readUse_keeps
    | (with_reducible apply Keeps.of_pair; with_reducible assumption)
    | dsimp only
    | split

theorem publishTable_keeps {q : Bool} {b t : State} (j : PubJob) (b' : List Byte) (h : Keeps q b t) : Keeps q b
    (publishTable t j b') := by
  unfold publishTable
  repeat' first
    | with_reducible assumption
    | with_reducible apply setVer_keeps
    | with_reducible apply postResult_keeps
    | dsimp only
    | simp only [keeps_mk]
    | (with_reducible refine Keeps.parts ?_)
    | split

theorem execPublishDone_keeps {b t : State} (h : Keeps false b t) : OutKeeps false b (execPublishDone t) := by
  unfold execPublishDone
  repeat' first
    | with_reducible apply OutKeeps.done
    | with_reducible assumption
    | with_reducible apply postResult_keeps
    | with_reducible apply readTable_keeps
    | with_reducible apply publishTable_keeps
    | (with_reducible apply Keeps.of_pair; with_reducible assumption)
    | split

theorem supersede_keeps {q : Bool} {b t : State} (func : Nat) (table : Nat) (h : Keeps q b t) : Keeps q b (supersede
    t func table) := by
  unfold supersede
  repeat' first
    | with_reducible assumption
    | intro _
    | with_reducible apply setVer_keeps
    | with_reducible apply Keeps.of_foldl
    | dsimp only
    | split

theorem takeEntry_keeps {q : Bool} {b t : State} (e : Nat) (h : Keeps q b t) : Keeps q b (takeEntry t e) := by
  unfold takeEntry
  repeat' first
    | with_reducible assumption
    | with_reducible apply setVer_keeps
    | with_reducible apply supersede_keeps
    | split

theorem noteKey_keeps {q : Bool} {b t : State} (func : Nat) (table : Nat) (key : Nat) (h : Keeps q b t) : Keeps q b
    (noteKey t func table key) := by
  unfold noteKey
  repeat' first
    | with_reducible assumption
    | dsimp only
    | simp only [keeps_mk]
    | (with_reducible refine Keeps.parts ?_)
    | split

theorem setLines_keeps {q : Bool} {b t : State} (t' : Nat) (ofs : Nat) (len : Nat) (src : Option (Nat × Nat)) (h :
    Keeps q b t) : Keeps q b (setLines t t' ofs len src) := by
  unfold setLines
  repeat' first
    | with_reducible assumption
    | with_reducible apply setTile_keeps

theorem addBind_keeps {q : Bool} {b t : State} (x : Run) (b' : BindOp) (e : Option (Nat × Ver)) (h : Keeps q b t) :
    Keeps q b (addBind t x b' e) := by
  unfold addBind
  repeat' first
    | with_reducible assumption
    | with_reducible apply modRun_keeps

theorem bindCopy_keeps {b t : State} (x : Run) (u : Nat) (idx : Nat) (b' : BindOp) (e : Option (Nat × Ver)) (h :
    Keeps false b t) : Keeps false b (bindCopy t x u idx b' e) := by
  unfold bindCopy
  repeat' first
    | with_reducible assumption
    | with_reducible apply advance_keeps
    | with_reducible apply readUse_keeps
    | with_reducible apply failWith_keeps
    | with_reducible apply segStore_keeps
    | with_reducible apply takeEntry_keeps
    | with_reducible apply noteKey_keeps
    | with_reducible apply setLines_keeps
    | with_reducible apply addBind_keeps
    | (with_reducible apply Keeps.of_pair; with_reducible assumption)
    | dsimp only
    | split

theorem execMqBind_keeps {b t : State} (u : Nat) (h : Keeps false b t) : OutKeeps false b (execMqBind u t) := by
  unfold execMqBind
  repeat' first
    | with_reducible apply OutKeeps.done
    | with_reducible assumption
    | intro _
    | with_reducible apply onOp_keeps
    | with_reducible apply failResult_keeps
    | with_reducible apply bindCopy_keeps
    | dsimp only
    | split

end Sys2Proof.Machine
end

