-- ==== Sys2Proof/Laws/Coding.lean ====
section
/-! SUPPORT. What the operations and rows of Sys2Proof/Machine/Coding.lean keep: `Keeps true` stores nothing, `Keeps q` for
every q likewise, `Keeps false` may store; `Retains` is said of the rows that write a quiet part. -/
namespace Sys2Proof.Machine

theorem cdOperand_keeps {b t : State} (g : Agent) (ref : Nat) (fmt : Nat) (n : Nat) (store : Bool) (h : Keeps false
    b t) : Keeps false b (cdOperand t g ref fmt n store).1 := by
  unfold cdOperand
  repeat' first
    | with_reducible assumption
    | with_reducible apply operand_keeps
    | (with_reducible apply Keeps.of_pair; with_reducible assumption)
    | split

theorem storeLine_keeps {b t : State} (g : Agent) (o : Operand) (y0 : List Byte) (y1 : Nat) (h : Keeps false b t) :
    Keeps false b (storeLine t g o y0 y1).1 := by
  revert h
  fun_induction storeLine t g o y0 y1 <;> intro h
  all_goals
   repeat' first
    | with_reducible assumption
    | with_reducible apply writeElem_keeps
    | with_reducible apply_assumption
    | (with_reducible apply Keeps.of_pair; with_reducible assumption)

theorem cdRecord_keeps {b t : State} (x : Run) (o : ListOp) (h : Keeps false b t) : Keeps false b (cdRecord t x o).1
    := by
  unfold cdRecord
  repeat' first
    | with_reducible assumption
    | with_reducible apply readUse_keeps

theorem cdDetail_keeps {q : Bool} {b t : State} (x : Run) (d : Nat) (h : Keeps q b t) : Keeps q b (cdDetail t x d)
    := by
  unfold cdDetail
  repeat' first
    | with_reducible assumption
    | with_reducible apply modRun_keeps

theorem setHarq_keeps {q : Bool} {b t : State} (e : Nat) (h' : Harq) (h : Keeps q b t) : Keeps q b (setHarq t e h')
    := by
  unfold setHarq
  repeat' first
    | with_reducible assumption
    | dsimp only
    | simp only [keeps_mk]
    | (with_reducible refine Keeps.parts ?_)

theorem readPages_keeps {b t : State} (x : Run) (pages : List Nat) (n : Nat) (h : Keeps false b t) : Keeps false b
    (readPages t x pages n).1 := by
  unfold readPages
  repeat' first
    | with_reducible assumption
    | with_reducible apply hbmRead_keeps
    | intro _
    | (with_reducible apply Keeps.of_pair; with_reducible assumption)
    | with_reducible apply Keeps.of_foldl
    | dsimp only
    | simp only [keeps_mk]
    | (with_reducible refine Keeps.parts ?_)
    | split

theorem evictFor_keeps {q : Bool} {b t : State} (y0 : Nat) (y2 : Nat) (y3 : Nat) (h : Keeps q b t) : Keeps q b
    (evictFor y0 t y2 y3) := by
  induction y0 generalizing t 
  case zero =>
    rw [evictFor]
    repeat' first
    | with_reducible assumption
    | with_reducible apply setFlag_keeps
    | dsimp only
    | simp only [keeps_mk]
    | (with_reducible refine Keeps.parts ?_)
    | split
  case succ k ih =>
    rw [evictFor]
    repeat' first
    | with_reducible assumption
    | with_reducible apply setFlag_keeps
    | with_reducible apply ih
    | dsimp only
    | simp only [keeps_mk]
    | (with_reducible refine Keeps.parts ?_)
    | split

theorem dropPoisoned_keeps {q : Bool} {b t : State} (e : Nat) (h : Keeps q b t) : Keeps q b (dropPoisoned t e) := by
  unfold dropPoisoned
  repeat' first
    | with_reducible assumption
    | with_reducible apply setFlag_keeps
    | dsimp only
    | simp only [keeps_mk]
    | (with_reducible refine Keeps.parts ?_)

theorem noStore_keeps {q : Bool} {b t : State} (x : Run) (u : Nat) (e : Option Nat) (job : CdJob) (flags : Nat)
    (comb : Bool) (h : Keeps q b t) : Keeps q b (noStore t x u e job flags comb) := by
  unfold noStore
  repeat' first
    | with_reducible assumption
    | with_reducible apply setFlag_keeps
    | with_reducible apply setPhase_keeps
    | with_reducible apply cdDetail_keeps
    | with_reducible apply setHarq_keeps
    | dsimp only
    | simp only [keeps_mk]
    | (with_reducible refine Keeps.parts ?_)
    | split

theorem reserve_keeps {q : Bool} {b t : State} (x : Run) (u : Nat) (key : Nat) (e : Option Nat) (job : CdJob) (flags :
    Nat) (need : Nat) (comb : Bool) (h : Keeps q b t) : Keeps q b (reserve t x u key e job flags need comb) := by
  unfold reserve
  repeat' first
    | with_reducible assumption
    | with_reducible apply takeChoice_keeps
    | with_reducible apply setPhase_keeps
    | with_reducible apply setHarq_keeps
    | with_reducible apply evictFor_keeps
    | with_reducible apply noStore_keeps
    | intro _
    | (with_reducible apply Keeps.of_pair; with_reducible assumption)
    | with_reducible apply Keeps.of_foldl
    | dsimp only
    | simp only [keeps_mk]
    | (with_reducible refine Keeps.parts ?_)
    | split

theorem useHarq_keeps {q : Bool} {b t : State} (x : Run) (u : Nat) (i : Nat) (p : LdpcRec) (d : LdpcDims) (job :
    CdJob) (y0 : HarqUse) (h : Keeps q b t) : Keeps q b (useHarq t x u i p d job y0) := by
  unfold useHarq
  repeat' first
    | with_reducible assumption
    | with_reducible apply setPhase_keeps
    | with_reducible apply cdDetail_keeps
    | with_reducible apply setHarq_keeps
    | with_reducible apply reserve_keeps
    | intro _
    | (with_reducible apply Keeps.of_pair; with_reducible assumption)
    | with_reducible apply Keeps.of_foldl
    | dsimp only
    | simp only [keeps_mk]
    | (with_reducible refine Keeps.parts ?_)
    | split

theorem takeHarq_keeps {b t : State} (x : Run) (u : Nat) (job : CdJob) (h : Keeps false b t) : Keeps false b (takeHarq
    t x u job) := by
  unfold takeHarq
  repeat' first
    | with_reducible assumption
    | with_reducible apply cdDetail_keeps
    | with_reducible apply readPages_keeps
    | with_reducible apply dropPoisoned_keeps
    | with_reducible apply reserve_keeps
    | with_reducible apply useHarq_keeps
    | with_reducible apply setPhase_keeps
    | with_reducible apply setHarq_keeps
    | intro _
    | (with_reducible apply Keeps.of_pair; with_reducible assumption)
    | with_reducible apply Keeps.of_foldl
    | dsimp only
    | simp only [keeps_mk]
    | (with_reducible refine Keeps.parts ?_)
    | split

theorem freeHarqKeys_keeps {q : Bool} {b t : State} (fn : Nat) (key : Option Nat) (h : Keeps q b t) : Keeps q b
    (freeHarqKeys t fn key) := by
  unfold freeHarqKeys
  repeat' first
    | with_reducible assumption
    | dsimp only
    | simp only [keeps_mk]
    | (with_reducible refine Keeps.parts ?_)

theorem bindWeights_keeps {b t : State} (x : Run) (p : LdpcRec) (h : Keeps false b t) : Keeps false b (bindWeights t
    x p).1 := by
  unfold bindWeights
  repeat' first
    | with_reducible assumption
    | with_reducible apply readUse_keeps
    | with_reducible apply takeEntry_keeps
    | with_reducible apply noteKey_keeps
    | with_reducible apply addBind_keeps
    | (with_reducible apply Keeps.of_pair; with_reducible assumption)
    | dsimp only
    | split

theorem jobWeights_keeps {b t : State} (x : Run) (p : LdpcRec) (b' : List Byte) (h : Keeps false b t) : Keeps false
    b (jobWeights t x p b').1 := by
  unfold jobWeights
  repeat' first
    | with_reducible assumption
    | with_reducible apply modRun_keeps
    | with_reducible apply bindWeights_keeps
    | (with_reducible apply Keeps.of_pair; with_reducible assumption)
    | split

theorem ldpcBegin_keeps {b t : State} (x : Run) (u : Nat) (o : ListOp) (h : Keeps false b t) : Keeps false b
    (ldpcBegin t x u o) := by
  unfold ldpcBegin
  repeat' first
    | with_reducible assumption
    | with_reducible apply setPhase_keeps
    | with_reducible apply failWith_keeps
    | with_reducible apply failResult_keeps
    | with_reducible apply useVar_keeps
    | with_reducible apply cdRecord_keeps
    | with_reducible apply takeHarq_keeps
    | with_reducible apply jobWeights_keeps
    | (with_reducible apply Keeps.of_pair; with_reducible assumption)
    | dsimp only
    | simp only [keeps_mk]
    | (with_reducible refine Keeps.parts ?_)
    | split

theorem execHarqEntryTake_keeps {b t : State} (u : Nat) (h : Keeps false b t) : OutKeeps false b (execHarqEntryTake
    u t) := by
  unfold execHarqEntryTake
  repeat' first
    | with_reducible apply OutKeeps.done
    | with_reducible assumption
    | with_reducible apply advance_keeps
    | with_reducible apply takeHarq_keeps
    | with_reducible apply freeHarqKeys_keeps
    | split

theorem letGo_keeps {q : Bool} {b t : State} (e : Option Nat) (h : Keeps q b t) : Keeps q b (letGo t e) := by
  unfold letGo
  repeat' first
    | with_reducible assumption
    | with_reducible apply setHarq_keeps
    | intro _
    | (with_reducible apply Keeps.of_pair; with_reducible assumption)
    | with_reducible apply Keeps.of_foldl
    | dsimp only
    | simp only [keeps_mk]
    | (with_reducible refine Keeps.parts ?_)
    | split

theorem commitHarq_keeps {b t : State} (x : Run) (i : Nat) (p : LdpcRec) (d : LdpcDims) (pass : Bool) (tx : Nat) (soft
    : List Int) (tb : List Byte) (record : List Byte) (h : Keeps false b t) : Keeps false b (commitHarq t x i p d pass
    tx soft tb record) := by
  unfold commitHarq
  repeat' first
    | with_reducible assumption
    | with_reducible apply hbmWrite_keeps
    | with_reducible apply setHarq_keeps
    | intro _
    | (with_reducible apply Keeps.of_pair; with_reducible assumption)
    | with_reducible apply Keeps.of_foldl
    | dsimp only
    | simp only [keeps_mk]
    | (with_reducible refine Keeps.parts ?_)
    | split

theorem ldpcAnswer_keeps {b t : State} (x : Run) (u : Nat) (o : ListOp) (p : LdpcRec) (i : Nat) (stored : List Byte)
    (h : Keeps false b t) : Keeps false b (ldpcAnswer t x u o p i stored) := by
  unfold ldpcAnswer
  repeat' first
    | with_reducible assumption
    | with_reducible apply advance_keeps
    | with_reducible apply writeBytes_keeps
    | with_reducible apply failWith_keeps
    | with_reducible apply cdOperand_keeps
    | with_reducible apply storeLine_keeps
    | with_reducible apply cdDetail_keeps
    | with_reducible apply letGo_keeps
    | intro _
    | (with_reducible apply Keeps.of_pair; with_reducible assumption)
    | with_reducible apply Keeps.of_foldl
    | dsimp only
    | simp only [keeps_mk]
    | (with_reducible refine Keeps.parts ?_)
    | split

theorem ldpcFinish_keeps {b t : State} (x : Run) (u : Nat) (o : ListOp) (p : LdpcRec) (d : LdpcDims) (e : Option Nat)
    (flags : Nat) (comb : Bool) (t' : Operand) (res : List (List Int × Decoded)) (h : Keeps false b t) : Keeps false b
    (ldpcFinish t x u o p d e flags comb t' res) := by
  unfold ldpcFinish
  repeat' first
    | with_reducible assumption
    | with_reducible apply setFlags_keeps
    | with_reducible apply takeChoice_keeps
    | with_reducible apply advance_keeps
    | with_reducible apply writeBytes_keeps
    | with_reducible apply failWith_keeps
    | with_reducible apply storeLine_keeps
    | with_reducible apply cdDetail_keeps
    | with_reducible apply letGo_keeps
    | with_reducible apply commitHarq_keeps
    | with_reducible apply setFlagIf_keeps
    | intro _
    | (with_reducible apply Keeps.of_pair; with_reducible assumption)
    | with_reducible apply Keeps.of_foldl
    | dsimp only
    | simp only [keeps_mk]
    | (with_reducible refine Keeps.parts ?_)
    | split

theorem ldpcEnd_keeps {b t : State} (x : Run) (u : Nat) (o : ListOp) (job : CdJob) (e : Option Nat) (flags : Nat)
    (comb : Bool) (h : Keeps false b t) : Keeps false b (ldpcEnd t x u o job e flags comb) := by
  unfold ldpcEnd
  repeat' first
    | with_reducible assumption
    | with_reducible apply readElems_keeps
    | with_reducible apply failWith_keeps
    | with_reducible apply cdOperand_keeps
    | with_reducible apply ldpcAnswer_keeps
    | with_reducible apply ldpcFinish_keeps
    | intro _
    | (with_reducible apply Keeps.of_pair; with_reducible assumption)
    | with_reducible apply Keeps.of_foldl
    | dsimp only
    | simp only [keeps_mk]
    | (with_reducible refine Keeps.parts ?_)
    | split

theorem execLdpcDec_keeps {b t : State} (u : Nat) (h : Keeps false b t) : OutKeeps false b (execLdpcDec u t) := by
  unfold execLdpcDec
  repeat' first
    | with_reducible apply OutKeeps.done
    | with_reducible assumption
    | intro _
    | with_reducible apply onOp_keeps
    | with_reducible apply ldpcBegin_keeps
    | with_reducible apply ldpcEnd_keeps
    | split

theorem ldpcEncode_keeps {b t : State} (x : Run) (u : Nat) (o : ListOp) (p : LdpcRec) (h : Keeps false b t) : Keeps
    false b (ldpcEncode t x u o p) := by
  unfold ldpcEncode
  repeat' first
    | with_reducible assumption
    | with_reducible apply advance_keeps
    | with_reducible apply readElems_keeps
    | with_reducible apply failWith_keeps
    | with_reducible apply cdOperand_keeps
    | with_reducible apply storeLine_keeps
    | with_reducible apply takeChoice_keeps
    | intro _
    | (with_reducible apply Keeps.of_pair; with_reducible assumption)
    | with_reducible apply Keeps.of_foldl
    | dsimp only
    | simp only [keeps_mk]
    | (with_reducible refine Keeps.parts ?_)
    | split

theorem execLdpcEnc_keeps {b t : State} (u : Nat) (h : Keeps false b t) : OutKeeps false b (execLdpcEnc u t) := by
  unfold execLdpcEnc
  repeat' first
    | with_reducible apply OutKeeps.done
    | with_reducible assumption
    | intro _
    | with_reducible apply onOp_keeps
    | with_reducible apply failWith_keeps
    | with_reducible apply failResult_keeps
    | with_reducible apply cdRecord_keeps
    | with_reducible apply ldpcEncode_keeps
    | (with_reducible apply Keeps.of_pair; with_reducible assumption)
    | dsimp only
    | split

theorem execPolarDec_keeps {b t : State} (u : Nat) (h : Keeps false b t) : OutKeeps false b (execPolarDec u t) := by
  unfold execPolarDec
  repeat' first
    | with_reducible apply OutKeeps.done
    | with_reducible assumption
    | with_reducible apply advance_keeps
    | with_reducible apply writeBytes_keeps
    | with_reducible apply readElems_keeps
    | with_reducible apply onOp_keeps
    | with_reducible apply failWith_keeps
    | with_reducible apply failResult_keeps
    | with_reducible apply cdOperand_keeps
    | with_reducible apply cdRecord_keeps
    | with_reducible apply cdDetail_keeps
    | intro _
    | (with_reducible apply Keeps.of_pair; with_reducible assumption)
    | with_reducible apply Keeps.of_foldl
    | dsimp only
    | simp only [keeps_mk]
    | (with_reducible refine Keeps.parts ?_)
    | split

theorem execPolarEnc_keeps {b t : State} (u : Nat) (h : Keeps false b t) : OutKeeps false b (execPolarEnc u t) := by
  unfold execPolarEnc
  repeat' first
    | with_reducible apply OutKeeps.done
    | with_reducible assumption
    | with_reducible apply advance_keeps
    | with_reducible apply onOp_keeps
    | with_reducible apply failWith_keeps
    | with_reducible apply failResult_keeps
    | with_reducible apply cdOperand_keeps
    | with_reducible apply storeLine_keeps
    | with_reducible apply cdRecord_keeps
    | intro _
    | (with_reducible apply Keeps.of_pair; with_reducible assumption)
    | with_reducible apply Keeps.of_foldl
    | dsimp only
    | simp only [keeps_mk]
    | (with_reducible refine Keeps.parts ?_)
    | split

theorem execHarqFree_keeps {b t : State} (u : Nat) (h : Keeps false b t) : OutKeeps false b (execHarqFree u t) := by
  unfold execHarqFree
  repeat' first
    | with_reducible apply OutKeeps.done
    | with_reducible assumption
    | intro _
    | with_reducible apply advance_keeps
    | with_reducible apply onOp_keeps
    | with_reducible apply setPhase_keeps
    | with_reducible apply freeHarqKeys_keeps
    | dsimp only
    | simp only [keeps_mk]
    | (with_reducible refine Keeps.parts ?_)
    | split

end Sys2Proof.Machine
end

