-- ==== Sys2Proof/Laws/Frames.lean ====
section
/-! SUPPORT. What the operations and rows of Sys2Proof/Machine/Frames.lean keep: `Keeps true` stores nothing, `Keeps q` for
every q likewise, `Keeps false` may store; `Retains` is said of the rows that write a quiet part. -/
namespace Sys2Proof.Machine

theorem setSeq_keeps {q : Bool} {b t : State} (e : Nat) (q' : EaxcSeq) (h : Keeps q b t) : Keeps q b (setSeq t e q')
    := by
  unfold setSeq
  repeat' first
    | with_reducible assumption
    | dsimp only
    | simp only [keeps_mk]
    | (with_reducible refine Keeps.parts ?_)

end Sys2Proof.Machine
end

