-- ==== Sys2Proof/Laws/Ingress.lean ====
section
/-! SUPPORT. What the operations and rows of Sys2Proof/Machine/Ingress.lean keep: `Keeps true` stores nothing, `Keeps q` for
every q likewise, `Keeps false` may store; `Retains` is said of the rows that write a quiet part. -/
namespace Sys2Proof.Machine

theorem execPortUp_keeps {q : Bool} {b t : State} (p : Nat) (h : Keeps q b t) : OutKeeps q b (execPortUp p t) := by
  unfold execPortUp
  repeat' first
    | with_reducible apply OutKeeps.done
    | with_reducible assumption
    | with_reducible apply arrive_keeps
    | with_reducible apply setPort_keeps
    | intro _
    | (with_reducible apply Keeps.of_pair; with_reducible assumption)
    | with_reducible apply Keeps.of_foldl
    | dsimp only
    | simp only [keeps_mk]
    | (with_reducible refine Keeps.parts ?_)
    | split

theorem execPortDown_keeps {b t : State} (p : Nat) (h : Keeps false b t) : OutKeeps false b (execPortDown p t) := by
  unfold execPortDown
  repeat' first
    | with_reducible apply OutKeeps.done
    | with_reducible assumption
    | with_reducible apply portLeave_keeps
    | intro _
    | (with_reducible apply Keeps.of_pair; with_reducible assumption)
    | with_reducible apply Keeps.of_foldl
    | dsimp only
    | simp only [keeps_mk]
    | (with_reducible refine Keeps.parts ?_)
    | split

theorem execRestart_keeps {b t : State} (p : Nat) (h : Keeps false b t) : OutKeeps false b (execRestart p t) := by
  unfold execRestart
  repeat' first
    | with_reducible apply OutKeeps.done
    | with_reducible assumption
    | with_reducible apply portLeave_keeps
    | intro _
    | (with_reducible apply Keeps.of_pair; with_reducible assumption)
    | with_reducible apply Keeps.of_foldl
    | dsimp only
    | simp only [keeps_mk]
    | (with_reducible refine Keeps.parts ?_)
    | split

theorem police_keeps {q : Bool} {b t : State} (p : Nat) (k : Nat) (h : Keeps q b t) : Keeps q b (police t p k).1 :=
    by
  unfold police
  repeat' first
    | with_reducible assumption
    | with_reducible apply setPort_keeps

theorem toHostQueue_keeps {b t : State} (p : Nat) (stamp : Int) (frame : List Byte) (h : Keeps false b t) : Keeps
    false b (toHostQueue t p stamp frame) := by
  unfold toHostQueue
  repeat' first
    | with_reducible assumption
    | with_reducible apply setFlag_keeps
    | with_reducible apply dropRx_keeps
    | with_reducible apply writeBytes_keeps
    | intro _
    | (with_reducible apply Keeps.of_pair; with_reducible assumption)
    | with_reducible apply Keeps.of_foldl
    | dsimp only
    | simp only [keeps_mk]
    | (with_reducible refine Keeps.parts ?_)
    | split

theorem queueFrame_keeps {q : Bool} {b t : State} (p : Nat) (f : EgFrame) (h : Keeps q b t) : Keeps q b (queueFrame
    t p f) := by
  unfold queueFrame
  repeat' first
    | with_reducible assumption
    | with_reducible apply setPort_keeps

theorem answerDelay_keeps {q : Bool} {b t : State} (p : Nat) (h' : Header) (h : Keeps q b t) : Keeps q b
    (answerDelay t p h') := by
  unfold answerDelay
  repeat' first
    | with_reducible assumption
    | with_reducible apply dropRx_keeps
    | with_reducible apply queueFrame_keeps
    | dsimp only
    | split

theorem announce_keeps {q : Bool} {b t : State} (c : Nat) (p : Placed) (frame : Int) (slot : Nat) (sym : Nat) (v :
    Nat) (h : Keeps q b t) : Keeps q b (announce t c p frame slot sym v) := by
  unfold announce
  repeat' first
    | with_reducible assumption
    | with_reducible apply arrive_keeps
    | with_reducible apply setCarrier_keeps
    | with_reducible apply symbolStatus_keeps
    | dsimp only
    | split

theorem countMax_keeps {q : Bool} {b t : State} (c : Nat) (p : Placed) (frame : Int) (slot : Nat) (sym : Nat) (n :
    Nat) (h : Keeps q b t) : Keeps q b (countMax t c p frame slot sym n) := by
  unfold countMax
  repeat' first
    | with_reducible assumption
    | with_reducible apply setCarrier_keeps
    | with_reducible apply symbolStatus_keeps
    | intro _
    | (with_reducible apply Keeps.of_pair; with_reducible assumption)
    | with_reducible apply Keeps.of_foldl
    | dsimp only
    | simp only [keeps_mk]
    | (with_reducible refine Keeps.parts ?_)
    | split

theorem steerPrb_keeps {q : Bool} {b t : State} (port : Nat) (pl : Placed) (slot : Nat) (sym : Nat) (stream : Nat)
    (prb : Nat) (code : Nat) (b' : List Byte) (h : Keeps q b t) : Keeps q b (steerPrb t port pl slot sym stream prb
    code b').1 := by
  unfold steerPrb
  repeat' first
    | with_reducible assumption
    | with_reducible apply ingressStore_keeps
    | with_reducible apply countPort_keeps
    | split

theorem steerSection_keeps {q : Bool} {b t : State} (port : Nat) (c : Nat) (pl : Placed) (frame : Int) (slot : Nat)
    (sym : Nat) (stream : Nat) (u : USection) (h : Keeps q b t) : Keeps q b (steerSection t port c pl frame slot sym
    stream u) := by
  unfold steerSection
  repeat' first
    | with_reducible assumption
    | with_reducible apply setCarrier_keeps
    | with_reducible apply openSlot_keeps
    | with_reducible apply dropRx_keeps
    | with_reducible apply announce_keeps
    | with_reducible apply countMax_keeps
    | with_reducible apply steerPrb_keeps
    | with_reducible apply Keeps.of_foldl_fst
    | intro _
    | (with_reducible apply Keeps.of_pair; with_reducible assumption)
    | with_reducible apply Keeps.of_foldl
    | dsimp only
    | simp only [keeps_mk]
    | (with_reducible refine Keeps.parts ?_)
    | split

theorem checkSeq_keeps {q : Bool} {b t : State} (port : Nat) (e : Nat) (id : Nat) (h : Keeps q b t) : Keeps q b
    (checkSeq t port e id) := by
  unfold checkSeq
  repeat' first
    | with_reducible assumption
    | with_reducible apply countPort_keeps
    | with_reducible apply setSeq_keeps
    | dsimp only
    | split

theorem receiveUplane_keeps {q : Bool} {b t : State} (port : Nat) (h' : Header) (h : Keeps q b t) : Keeps q b
    (receiveUplane t port h') := by
  unfold receiveUplane
  repeat' first
    | with_reducible assumption
    | with_reducible apply dropRx_keeps
    | with_reducible apply steerSection_keeps
    | with_reducible apply checkSeq_keeps
    | with_reducible apply Keeps.of_foldl_fst
    | intro _
    | (with_reducible apply Keeps.of_pair; with_reducible assumption)
    | with_reducible apply Keeps.of_foldl
    | dsimp only
    | simp only [keeps_mk]
    | (with_reducible refine Keeps.parts ?_)
    | split

theorem byVerdict_keeps {q : Bool} {b : State} (z : State × Bool) (f g : State → State) (h : Keeps q b z.1)
    (hf : ∀ a, Keeps q b a → Keeps q b (f a)) (hg : ∀ a, Keeps q b a → Keeps q b (g a)) : Keeps q b (byVerdict z f g) := by
  unfold byVerdict
  split
  · exact hf _ h
  · exact hg _ h

theorem policed_keeps {q : Bool} {b t : State} (p k : Nat) (f : State → State) (h : Keeps q b t)
    (hf : ∀ a, Keeps q b a → Keeps q b (f a)) : Keeps q b (policed t p k f) :=
  byVerdict_keeps _ _ _ (police_keeps _ _ h) hf fun _ ha => dropRx_keeps _ _ ha

theorem consumeEsmc_keeps {q : Bool} {b t : State} (p : Nat) (body : List Byte) (h : Keeps q b t) : Keeps q b
    (consumeEsmc t p body) := by
  unfold consumeEsmc
  repeat' first
    | with_reducible assumption
    | with_reducible apply refsRecheck_keeps
    | intro _
    | (with_reducible apply Keeps.of_pair; with_reducible assumption)
    | with_reducible apply Keeps.of_foldl
    | dsimp only
    | simp only [keeps_mk]
    | (with_reducible refine Keeps.parts ?_)
    | split

theorem receiveFrame_keeps {b t : State} (p : Nat) (bytes : List Byte) (h : Keeps false b t) : Keeps false b
    (receiveFrame t p bytes) := by
  unfold receiveFrame
  repeat' first
    | with_reducible assumption
    | with_reducible apply dropRx_keeps
    | with_reducible apply toHostQueue_keeps
    | with_reducible apply answerDelay_keeps
    | with_reducible apply receiveUplane_keeps
    | with_reducible apply policed_keeps
    | with_reducible apply consumeEsmc_keeps
    | intro _
    | (with_reducible apply Keeps.of_pair; with_reducible assumption)
    | with_reducible apply Keeps.of_foldl
    | dsimp only
    | simp only [keeps_mk]
    | (with_reducible refine Keeps.parts ?_)
    | split

theorem takeFrame_keeps {b t : State} (p : Nat) (fifoFull : Bool) (bytes : List Byte) (h : Keeps false b t) : Keeps
    false b (takeFrame t p fifoFull bytes) := by
  unfold takeFrame
  repeat' first
    | with_reducible assumption
    | with_reducible apply dropRx_keeps
    | with_reducible apply receiveFrame_keeps
    | intro _
    | (with_reducible apply Keeps.of_pair; with_reducible assumption)
    | with_reducible apply Keeps.of_foldl
    | dsimp only
    | simp only [keeps_mk]
    | (with_reducible refine Keeps.parts ?_)
    | split

theorem mergeFragment_keeps {b t : State} (p : Nat) (kind : Nat) (fifoFull : Bool) (bytes : List Byte) (h : Keeps
    false b t) : Keeps false b (mergeFragment t p kind fifoFull bytes) := by
  unfold mergeFragment
  repeat' first
    | with_reducible assumption
    | with_reducible apply setPort_keeps
    | with_reducible apply dropRx_keeps
    | with_reducible apply takeFrame_keeps
    | intro _
    | (with_reducible apply Keeps.of_pair; with_reducible assumption)
    | with_reducible apply Keeps.of_foldl
    | dsimp only
    | simp only [keeps_mk]
    | (with_reducible refine Keeps.parts ?_)
    | split

theorem execFrameReceive_keeps {b t : State} (p : Nat) (check : Nat) (fifoFull : Bool) (bytes : List Byte) (h : Keeps
    false b t) : OutKeeps false b (execFrameReceive p check fifoFull bytes t) := by
  unfold execFrameReceive
  repeat' first
    | with_reducible apply OutKeeps.done
    | with_reducible assumption
    | with_reducible apply setFlagIf_keeps
    | with_reducible apply dropRx_keeps
    | with_reducible apply takeFrame_keeps
    | with_reducible apply mergeFragment_keeps
    | with_reducible apply receiveFrame_keeps
    | intro _
    | (with_reducible apply Keeps.of_pair; with_reducible assumption)
    | with_reducible apply Keeps.of_foldl
    | dsimp only
    | simp only [keeps_mk]
    | (with_reducible refine Keeps.parts ?_)
    | split

theorem execRxWindowClose_keeps {q : Bool} {b t : State} (c : Nat) (sfn : Nat) (slot : Nat) (sym : Nat) (h : Keeps q b
    t) : OutKeeps q b (execRxWindowClose c sfn slot sym t) := by
  unfold execRxWindowClose
  repeat' first
    | with_reducible apply OutKeeps.done
    | with_reducible assumption
    | with_reducible apply announce_keeps
    | intro _
    | (with_reducible apply Keeps.of_pair; with_reducible assumption)
    | with_reducible apply Keeps.of_foldl
    | dsimp only
    | simp only [keeps_mk]
    | (with_reducible refine Keeps.parts ?_)
    | split

theorem execAdmissionOpen_keeps {q : Bool} {b t : State} (c : Nat) (h : Keeps q b t) : OutKeeps q b (execAdmissionOpen
    c t) := by
  unfold execAdmissionOpen
  repeat' first
    | with_reducible apply OutKeeps.done
    | with_reducible assumption
    | with_reducible apply setCarrier_keeps
    | intro _
    | (with_reducible apply Keeps.of_pair; with_reducible assumption)
    | with_reducible apply Keeps.of_foldl
    | dsimp only
    | simp only [keeps_mk]
    | (with_reducible refine Keeps.parts ?_)
    | split

theorem execPlacementEffect_keeps {q : Bool} {b t : State} (c : Nat) (h : Keeps q b t) : OutKeeps q b
    (execPlacementEffect c t) := by
  unfold execPlacementEffect
  repeat' first
    | with_reducible apply OutKeeps.done
    | with_reducible assumption
    | with_reducible apply setCarrier_keeps
    | with_reducible apply settleRadio_keeps
    | intro _
    | (with_reducible apply Keeps.of_pair; with_reducible assumption)
    | with_reducible apply Keeps.of_foldl
    | dsimp only
    | simp only [keeps_mk]
    | (with_reducible refine Keeps.parts ?_)
    | split

end Sys2Proof.Machine
end

