-- ==== Sys2Proof/Laws/Egress.lean ====
section
/-! SUPPORT. What the operations and rows of Sys2Proof/Machine/Egress.lean keep: `Keeps true` stores nothing, `Keeps q` for
every q likewise, `Keeps false` may store; `Retains` is said of the rows that write a quiet part. -/
namespace Sys2Proof.Machine

theorem withdrawMsgs_keeps {q : Bool} {b t : State} (x : Run) (p : Nat) (l : List FxMsg) (h : Keeps q b t) : Keeps q
    b (withdrawMsgs t x p l).1 := by
  unfold withdrawMsgs
  repeat' first
    | with_reducible assumption
    | intro _
    | with_reducible apply dropTx_keeps
    | with_reducible apply noteMsg_keeps
    | with_reducible apply Keeps.of_foldl

theorem readExts_keeps {b t : State} (g : Agent) (area : Nat) (y0 : List SecEntry) (y1 : List (List Byte)) (h :
    Keeps false b t) : Keeps false b (readExts t g area y0 y1).1 := by
  induction y0 generalizing t y1
  case nil =>
    rw [readExts]
    repeat' first
    | with_reducible assumption
    | with_reducible apply readUse_keeps
    | (with_reducible apply Keeps.of_pair; with_reducible assumption)
    | split
  case cons e l ih =>
    rw [readExts]
    repeat' first
    | with_reducible assumption
    | with_reducible apply readUse_keeps
    | with_reducible apply ih
    | (with_reducible apply Keeps.of_pair; with_reducible assumption)
    | split

theorem resolveBinding_keeps {b t : State} (x : Run) (b' : Binding) (final : List (List Byte)) (h : Keeps false b t) :
    Keeps false b (resolveBinding t x b' final) := by
  unfold resolveBinding
  repeat' first
    | with_reducible assumption
    | with_reducible apply modRun_keeps
    | with_reducible apply finishIfEnded_keeps
    | with_reducible apply squash_keeps
    | intro _
    | (with_reducible apply Keeps.of_pair; with_reducible assumption)
    | with_reducible apply Keeps.of_foldl
    | dsimp only
    | simp only [keeps_mk]
    | (with_reducible refine Keeps.parts ?_)
    | split

theorem resolveBindings_keeps {b t : State} (c : Nat) (sfn : Nat) (slot : Nat) (final : List (List Byte)) (h : Keeps
    false b t) : Keeps false b (resolveBindings t c sfn slot final) := by
  unfold resolveBindings
  repeat' first
    | with_reducible assumption
    | with_reducible apply resolveBinding_keeps
    | intro _
    | (with_reducible apply Keeps.of_pair; with_reducible assumption)
    | with_reducible apply Keeps.of_foldl
    | dsimp only
    | simp only [keeps_mk]
    | (with_reducible refine Keeps.parts ?_)
    | split

theorem requestSections_keeps {q : Bool} {b t : State} (o : ListOp) (l : List SecEntry) (h : Keeps q b t) : Keeps q b
    (requestSections t o l) := by
  unfold requestSections
  repeat' first
    | with_reducible assumption
    | with_reducible apply setCarrier_keeps
    | intro _
    | (with_reducible apply Keeps.of_pair; with_reducible assumption)
    | with_reducible apply Keeps.of_foldl
    | dsimp only
    | simp only [keeps_mk]
    | (with_reducible refine Keeps.parts ?_)
    | split

theorem beginFx_keeps {b t : State} (x : Run) (p : Nat) (l : List FxMsg) (h : Keeps false b t) : Keeps false b
    (beginFx t x p l) := by
  unfold beginFx
  repeat' first
    | with_reducible assumption
    | with_reducible apply setPhase_keeps
    | with_reducible apply withdrawMsgs_keeps
    | with_reducible apply settleFx_keeps

theorem startSections_keeps {b t : State} (x : Run) (p : Nat) (o : ListOp) (l : List (SecEntry × List Byte × List
    Byte)) (h : Keeps false b t) : Keeps false b (startSections t x p o l) := by
  unfold startSections
  repeat' first
    | with_reducible assumption
    | with_reducible apply failResult_keeps
    | with_reducible apply resolveBindings_keeps
    | with_reducible apply requestSections_keeps
    | with_reducible apply beginFx_keeps
    | dsimp only
    | split

theorem execFxSections_keeps {b t : State} (p : Nat) (h : Keeps false b t) : OutKeeps false b (execFxSections p t) :=
    by
  unfold execFxSections
  repeat' first
    | with_reducible apply OutKeeps.done
    | with_reducible assumption
    | with_reducible apply readUse_keeps
    | with_reducible apply onOp_keeps
    | with_reducible apply failWith_keeps
    | with_reducible apply failResult_keeps
    | with_reducible apply readExts_keeps
    | with_reducible apply startSections_keeps
    | intro _
    | (with_reducible apply Keeps.of_pair; with_reducible assumption)
    | with_reducible apply Keeps.of_foldl
    | dsimp only
    | simp only [keeps_mk]
    | (with_reducible refine Keeps.parts ?_)
    | split

theorem execFxUplane_keeps {b t : State} (p : Nat) (h : Keeps false b t) : OutKeeps false b (execFxUplane p t) := by
  unfold execFxUplane
  repeat' first
    | with_reducible apply OutKeeps.done
    | with_reducible assumption
    | with_reducible apply readUse_keeps
    | with_reducible apply onOp_keeps
    | with_reducible apply failWith_keeps
    | with_reducible apply failResult_keeps
    | with_reducible apply beginFx_keeps
    | intro _
    | (with_reducible apply Keeps.of_pair; with_reducible assumption)
    | with_reducible apply Keeps.of_foldl
    | dsimp only
    | simp only [keeps_mk]
    | (with_reducible refine Keeps.parts ?_)
    | split

theorem fetchBfws_keeps {b t : State} (fn : Nat) (y0 : List Nat) (y1 : List (List Byte)) (h : Keeps false b t) :
    Keeps false b (fetchBfws t fn y0 y1).1 := by
  revert h
  fun_induction fetchBfws t fn y0 y1 <;> intro h
  all_goals
   repeat' first
    | with_reducible assumption
    | with_reducible apply tileFetch_keeps
    | with_reducible apply_assumption
    | (with_reducible apply Keeps.of_pair; with_reducible assumption)

theorem buildSecs_keeps {b t : State} (fn : Nat) (y0 : List (List Byte × List Byte)) (y1 : List (SecEntry × List
    Byte)) (h : Keeps false b t) : Keeps false b (buildSecs t fn y0 y1).1 := by
  induction y0 generalizing t y1
  case nil =>
    rw [buildSecs]
    repeat' first
    | with_reducible assumption
    | with_reducible apply fetchBfws_keeps
    | (with_reducible apply Keeps.of_pair; with_reducible assumption)
    | dsimp only
    | split
  case cons e l ih =>
    rw [buildSecs]
    repeat' first
    | with_reducible assumption
    | with_reducible apply fetchBfws_keeps
    | with_reducible apply ih
    | (with_reducible apply Keeps.of_pair; with_reducible assumption)
    | dsimp only
    | split

theorem buildMsg_keeps {b t : State} (x : Run) (m : FxMsg) (h : Keeps false b t) : Keeps false b (buildMsg t x m).1 :=
    by
  unfold buildMsg
  repeat' first
    | with_reducible assumption
    | with_reducible apply tileFetch_keeps
    | with_reducible apply buildSecs_keeps
    | intro _
    | (with_reducible apply Keeps.of_pair; with_reducible assumption)
    | with_reducible apply Keeps.of_foldl
    | dsimp only
    | simp only [keeps_mk]
    | (with_reducible refine Keeps.parts ?_)
    | split

theorem takeSeq_keeps {q : Bool} {b t : State} (m : FxMsg) (h : Keeps q b t) : Keeps q b (takeSeq t m).1 := by
  unfold takeSeq
  repeat' first
    | with_reducible assumption
    | with_reducible apply setSeq_keeps
    | dsimp only
    | split

theorem dropMsg_keeps {q : Bool} {b t : State} (x : Run) (p : Nat) (k : Nat) (h : Keeps q b t) : Keeps q b (dropMsg
    t x p k) := by
  unfold dropMsg
  repeat' first
    | with_reducible assumption
    | with_reducible apply dropTx_keeps
    | with_reducible apply noteMsg_keeps

theorem reachMsg_keeps {b t : State} (x : Run) (p : Nat) (idx : Nat) (m : FxMsg) (rest : List FxMsg) (h : Keeps
    false b t) : Keeps false b (reachMsg t x p idx m rest) := by
  unfold reachMsg
  repeat' first
    | with_reducible assumption
    | with_reducible apply setPhase_keeps
    | with_reducible apply failWith_keeps
    | with_reducible apply queueFrame_keeps
    | with_reducible apply settleFx_keeps
    | with_reducible apply buildMsg_keeps
    | with_reducible apply takeSeq_keeps
    | with_reducible apply dropMsg_keeps
    | (with_reducible apply Keeps.of_pair; with_reducible assumption)
    | dsimp only
    | split

theorem execWindowOpen_keeps {b t : State} (p : Nat) (h : Keeps false b t) : OutKeeps false b (execWindowOpen p t) :=
    by
  unfold execWindowOpen
  repeat' first
    | with_reducible apply OutKeeps.done
    | with_reducible assumption
    | with_reducible apply settleFx_keeps
    | with_reducible apply reachMsg_keeps
    | intro _
    | (with_reducible apply Keeps.of_pair; with_reducible assumption)
    | with_reducible apply Keeps.of_foldl
    | dsimp only
    | simp only [keeps_mk]
    | (with_reducible refine Keeps.parts ?_)
    | split

theorem dropLate_keeps {q : Bool} {b t : State} (p : Nat) (h : Keeps q b t) : Keeps q b (dropLate t p) := by
  unfold dropLate
  repeat' first
    | with_reducible assumption
    | with_reducible apply discardFrames_keeps

theorem stampPtp_keeps {q : Bool} {b t : State} (p : Nat) (f : EgFrame) (h : Keeps q b t) : Keeps q b (stampPtp t p
    f).1 := by
  unfold stampPtp
  repeat' first
    | with_reducible assumption
    | with_reducible apply setPort_keeps
    | intro _
    | (with_reducible apply Keeps.of_pair; with_reducible assumption)
    | with_reducible apply Keeps.of_foldl
    | dsimp only
    | simp only [keeps_mk]
    | (with_reducible refine Keeps.parts ?_)
    | split

theorem leaving_keeps {q : Bool} {b t : State} (p : Nat) (f : EgFrame) (h : Keeps q b t) : Keeps q b (leaving t p
    f).1 := by
  unfold leaving
  repeat' first
    | with_reducible assumption
    | with_reducible apply stampPtp_keeps
    | split

theorem sendFrame_keeps {q : Bool} {b t : State} (p : Nat) (i : Nat) (f : EgFrame) (h : Keeps q b t) : Keeps q b
    (sendFrame t p i f) := by
  unfold sendFrame
  repeat' first
    | with_reducible assumption
    | with_reducible apply setPort_keeps
    | with_reducible apply noteMsg_keeps
    | with_reducible apply leaving_keeps
    | dsimp only
    | split

theorem execEgressGrant_keeps {b t : State} (p : Nat) (h : Keeps false b t) : OutKeeps false b (execEgressGrant p t)
    := by
  unfold execEgressGrant
  repeat' first
    | with_reducible apply OutKeeps.done
    | with_reducible assumption
    | with_reducible apply settleFx_keeps
    | with_reducible apply dropLate_keeps
    | with_reducible apply sendFrame_keeps
    | dsimp only
    | split

theorem withdrawAhead_keeps {q : Bool} {b t : State} (p : Nat) (h : Keeps q b t) : Keeps q b (withdrawAhead t p) :=
    by
  unfold withdrawAhead
  repeat' first
    | with_reducible assumption
    | with_reducible apply setPhase_keeps
    | with_reducible apply withdrawMsgs_keeps
    | dsimp only
    | split

theorem cancelCp_keeps {b t : State} (c : Nat) (sfn : Nat) (slot : Nat) (sec : Option Nat) (h : Keeps false b t) :
    Keeps false b (cancelCp t c sfn slot sec) := by
  unfold cancelCp
  repeat' first
    | with_reducible assumption
    | with_reducible apply setFlag_keeps
    | with_reducible apply takeChoice_keeps
    | with_reducible apply discardFrames_keeps
    | with_reducible apply settleFx_keeps
    | with_reducible apply sendFrame_keeps
    | with_reducible apply withdrawAhead_keeps
    | dsimp only
    | simp only [keeps_mk]
    | (with_reducible refine Keeps.parts ?_)
    | split

theorem execCpCancelSection_keeps {b t : State} (c : Nat) (sfn : Nat) (slot : Nat) (sec : Nat) (h : Keeps false b t)
    : OutKeeps false b (execCpCancelSection c sfn slot sec t) := by
  unfold execCpCancelSection
  repeat' first
    | with_reducible apply OutKeeps.done
    | with_reducible assumption
    | with_reducible apply cancelCp_keeps
    | split

theorem execCpCancelAll_keeps {b t : State} (c : Nat) (sfn : Nat) (slot : Nat) (h : Keeps false b t) : OutKeeps
    false b (execCpCancelAll c sfn slot t) := by
  unfold execCpCancelAll
  repeat' first
    | with_reducible apply OutKeeps.done
    | with_reducible assumption
    | with_reducible apply cancelCp_keeps
    | split

theorem sendEntry_keeps {q : Bool} {b t : State} (b' : List Byte) (h : Keeps q b t) : Keeps q b (sendEntry t b') :=
    by
  unfold sendEntry
  repeat' first
    | with_reducible assumption
    | with_reducible apply dropTx_keeps
    | with_reducible apply queueFrame_keeps
    | dsimp only
    | split

theorem execTqTransmit_keeps {b t : State} (h : Keeps false b t) : OutKeeps false b (execTqTransmit t) := by
  unfold execTqTransmit
  repeat' first
    | with_reducible apply OutKeeps.done
    | with_reducible assumption
    | intro _
    | with_reducible apply readUse_keeps
    | with_reducible apply sendEntry_keeps
    | with_reducible apply afterRes_keeps
    | dsimp only
    | simp only [keeps_mk]
    | (with_reducible refine Keeps.parts ?_)
    | split

end Sys2Proof.Machine
end

