-- ==== Sys2Proof/Laws/Planner.lean ====
section
/-! SUPPORT. What the operations and rows of Sys2Proof/Machine/Planner.lean keep: `Keeps true` stores nothing, `Keeps q` for
every q likewise, `Keeps false` may store; `Retains` is said of the rows that write a quiet part. -/
namespace Sys2Proof.Machine

theorem setCore_keeps {q : Bool} {b t : State} (c : Nat) (x : Core) (h : Keeps q b t) : Keeps q b (setCore t c x) :=
    by
  unfold setCore
  repeat' first
    | with_reducible assumption
    | simp only [keeps_mk]
    | (with_reducible refine Keeps.parts ?_)

theorem notePoison_keeps {q : Bool} {b t : State} (c : Nat) (h : Keeps q b t) : Keeps q b (notePoison t c) := by
  unfold notePoison
  repeat' first
    | with_reducible assumption
    | with_reducible apply setFlag_keeps
    | with_reducible apply setCore_keeps

theorem readVoxel_keeps {b t : State} (y : Cycle) (idx : List Int) (seen : List Nat) (h : Keeps false b t) : Keeps
    false b (readVoxel t y idx seen).1 := by
  unfold readVoxel
  repeat' first
    | with_reducible assumption
    | with_reducible apply readDev_keeps
    | with_reducible apply notePoison_keeps
    | (with_reducible apply Keeps.of_pair; with_reducible assumption)
    | dsimp only
    | split

theorem hitVoxels_keeps {b t : State} (y : Cycle) (c : List Int) (r : Nat) (slice : Nat) (y0 : List (List Int)) (y1
    : List Nat) (y2 : Bool) (h : Keeps false b t) : Keeps false b (hitVoxels t y c r slice y0 y1 y2).1 := by
  revert h
  fun_induction hitVoxels t y c r slice y0 y1 y2 <;> intro h
  all_goals
   repeat' first
    | with_reducible assumption
    | with_reducible apply readVoxel_keeps
    | with_reducible apply_assumption
    | (with_reducible apply Keeps.of_pair; with_reducible assumption)

theorem sphereHits_keeps {b t : State} (y : Cycle) (q' : Pose) (slice : Nat) (k : Sphere) (h : Keeps false b t) :
    Keeps false b (sphereHits t y q' slice k).1 := by
  unfold sphereHits
  repeat' first
    | with_reducible assumption
    | with_reducible apply hitVoxels_keeps

theorem poseHits_keeps {b t : State} (y : Cycle) (q' : Pose) (slice : Nat) (y0 : List Sphere) (h : Keeps false b t)
    : Keeps false b (poseHits t y q' slice y0).1 := by
  revert h
  fun_induction poseHits t y q' slice y0 <;> intro h
  all_goals
   repeat' first
    | with_reducible assumption
    | with_reducible apply sphereHits_keeps
    | with_reducible apply_assumption
    | (with_reducible apply Keeps.of_pair; with_reducible assumption)

theorem occHits_keeps {b t : State} (y : Cycle) (ks : List Sphere) (y0 : List Pose) (y1 : Nat) (h : Keeps false b t)
    : Keeps false b (occHits t y ks y0 y1).1 := by
  revert h
  fun_induction occHits t y ks y0 y1 <;> intro h
  all_goals
   repeat' first
    | with_reducible assumption
    | with_reducible apply poseHits_keeps
    | with_reducible apply_assumption
    | (with_reducible apply Keeps.of_pair; with_reducible assumption)

theorem planClear_keeps {b t : State} (y : Cycle) (rs : List Robot) (r : Nat) (ks : List Sphere) (plan : List Pose)
    (stop : List Pose) (h : Keeps false b t) : Keeps false b (planClear t y rs r ks plan stop).1 := by
  unfold planClear
  repeat' first
    | with_reducible assumption
    | with_reducible apply occHits_keeps
    | (with_reducible apply Keeps.of_pair; with_reducible assumption)
    | split

theorem search_keeps {b t : State} (y : Cycle) (rs : List Robot) (rank : Nat) (r : RobotRec) (y0 : Nat) (y2 : List
    Node) (y3 : List (List Int)) (y4 : Nat) (y5 : Nat) (h : Keeps false b t) : Keeps false b (search y rs rank r y0
    t y2 y3 y4 y5).1 := by
  induction y0 generalizing t y2 y3 y4 y5
  case zero =>
    rw [search]
    repeat' first
    | with_reducible assumption
    | with_reducible apply planClear_keeps
    | (with_reducible apply Keeps.of_pair; with_reducible assumption)
    | dsimp only
    | split
  case succ k ih =>
    rw [search]
    repeat' first
    | with_reducible assumption
    | with_reducible apply planClear_keeps
    | with_reducible apply ih
    | (with_reducible apply Keeps.of_pair; with_reducible assumption)
    | dsimp only
    | split

theorem searchPrim_keeps {b t : State} (y : Cycle) (rs : List Robot) (rank : Nat) (b' : Robot) (h : Keeps false b t)
    : Keeps false b (searchPrim t y rs rank b').1 := by
  unfold searchPrim
  repeat' first
    | with_reducible assumption
    | with_reducible apply search_keeps

theorem trySmooth_keeps {b t : State} (y : Cycle) (rs : List Robot) (rank : Nat) (b' : Robot) (param : List Byte)
    (choice : Nat) (nodes : Nat) (y0 : List Nat) (y1 : Bool) (h : Keeps false b t) : Keeps false b (trySmooth t y rs
    rank b' param choice nodes y0 y1).1 := by
  revert h
  fun_induction trySmooth t y rs rank b' param choice nodes y0 y1 <;> intro h
  all_goals
   repeat' first
    | with_reducible assumption
    | with_reducible apply planClear_keeps
    | with_reducible apply_assumption
    | (with_reducible apply Keeps.of_pair; with_reducible assumption)

theorem searchRobot_keeps {b t : State} (y : Cycle) (rs : List Robot) (rank : Nat) (b' : Robot) (param : List Byte)
    (h : Keeps false b t) : Keeps false b (searchRobot t y rs rank b' param).1 := by
  unfold searchRobot
  repeat' first
    | with_reducible assumption
    | with_reducible apply takeChoice_keeps
    | with_reducible apply searchPrim_keeps
    | with_reducible apply trySmooth_keeps
    | split

end Sys2Proof.Machine
end

