-- ==== Sys2Proof/Laws/Espalier.lean ====
section
/-! SUPPORT. What the operations and rows of Sys2Proof/Machine/Espalier.lean keep: `Keeps true` stores nothing, `Keeps q` for
every q likewise, `Keeps false` may store; `Retains` is said of the rows that write a quiet part. -/
namespace Sys2Proof.Machine

theorem execTeCycle_keeps {b t : State} (c : Nat) (h : Keeps false b t) : OutKeeps false b (execTeCycle c t) := by
  unfold execTeCycle
  repeat' first
    | with_reducible apply OutKeeps.done
    | with_reducible assumption
    | intro _
    | with_reducible apply onOp_keeps
    | with_reducible apply setPhase_keeps
    | with_reducible apply failResult_keeps
    | with_reducible apply setCore_keeps
    | dsimp only
    | simp only [keeps_mk]
    | (with_reducible refine Keeps.parts ?_)
    | split

theorem prevRecord_keeps {b t : State} (g : Agent) (p : TeParam) (r : Nat) (h : Keeps false b t) : Keeps false b
    (prevRecord t g p r).1 := by
  unfold prevRecord
  repeat' first
    | with_reducible assumption
    | with_reducible apply readUse_keeps

theorem startRobots_keeps {b t : State} (g : Agent) (p : TeParam) (m : Nat) (table : List Byte) (y0 : List Nat) (y1
    : List Robot) (h : Keeps false b t) : Keeps false b (startRobots t g p m table y0 y1).1 := by
  induction y0 generalizing t y1
  case nil =>
    rw [startRobots]
    repeat' first
    | with_reducible assumption
    | with_reducible apply prevRecord_keeps
    | (with_reducible apply Keeps.of_pair; with_reducible assumption)
    | split
  case cons e l ih =>
    rw [startRobots]
    repeat' first
    | with_reducible assumption
    | with_reducible apply prevRecord_keeps
    | with_reducible apply ih
    | (with_reducible apply Keeps.of_pair; with_reducible assumption)
    | split

theorem prevTp_keeps {b t : State} (g : Agent) (p : TeParam) (h : Keeps false b t) : Keeps false b (prevTp t g p).1
    := by
  unfold prevTp
  repeat' first
    | with_reducible assumption
    | with_reducible apply readUse_keeps
    | (with_reducible apply Keeps.of_pair; with_reducible assumption)
    | split

theorem readOcc_keeps {b t : State} (g : Agent) (p : TeParam) (h : Keeps false b t) : Keeps false b (readOcc t g
    p).1 := by
  unfold readOcc
  repeat' first
    | with_reducible assumption
    | with_reducible apply descriptor_keeps
    | (with_reducible apply Keeps.of_pair; with_reducible assumption)
    | split

theorem readCycle_keeps {b t : State} (g : Agent) (a : Nat) (h : Keeps false b t) : Keeps false b (readCycle t g
    a).1 := by
  unfold readCycle
  repeat' first
    | with_reducible assumption
    | with_reducible apply readUse_keeps
    | with_reducible apply startRobots_keeps
    | with_reducible apply prevTp_keeps
    | with_reducible apply readOcc_keeps
    | (with_reducible apply Keeps.of_pair; with_reducible assumption)
    | dsimp only
    | split

theorem validate_keeps {b t : State} (y : Cycle) (rs : List Robot) (rank : Nat) (b' : Robot) (h : Keeps false b t) :
    Keeps false b (validate t y rs rank b').1 := by
  unfold validate
  repeat' first
    | with_reducible assumption
    | with_reducible apply occHits_keeps
    | (with_reducible apply Keeps.of_pair; with_reducible assumption)
    | dsimp only
    | split

theorem validateAll_keeps {b t : State} (y : Cycle) (rs : List Robot) (y0 : List (Robot × Nat)) (y1 : List Robot) (h
    : Keeps false b t) : Keeps false b (validateAll t y rs y0 y1).1 := by
  revert h
  fun_induction validateAll t y rs y0 y1 <;> intro h
  all_goals
   repeat' first
    | with_reducible assumption
    | with_reducible apply validate_keeps
    | with_reducible apply_assumption
    | (with_reducible apply Keeps.of_pair; with_reducible assumption)

theorem writeRobot_keeps {b t : State} (y : Cycle) (rs : List Robot) (rank : Nat) (b' : Robot) (v : Verdict) (h :
    Keeps false b t) : Keeps false b (writeRobot t y rs rank b' v).1 := by
  unfold writeRobot
  repeat' first
    | with_reducible assumption
    | with_reducible apply takeChoice_keeps
    | with_reducible apply writeBytes_keeps
    | (with_reducible apply Keeps.of_pair; with_reducible assumption)
    | dsimp only
    | split

theorem writeInactive_keeps {b t : State} (y : Cycle) (rank : Nat) (b' : Robot) (h : Keeps false b t) : Keeps false
    b (writeInactive t y rank b').1 := by
  unfold writeInactive
  repeat' first
    | with_reducible assumption
    | with_reducible apply writeBytes_keeps

theorem noteVerdict_keeps {q : Bool} {b t : State} (y : Cycle) (id : Nat) (v : Verdict) (h : Keeps q b t) : Keeps q
    b (noteVerdict t y id v) := by
  unfold noteVerdict
  repeat' first
    | with_reducible assumption
    | with_reducible apply setFlag_keeps
    | with_reducible apply arrive_keeps
    | with_reducible apply modRun_keeps
    | with_reducible apply setCore_keeps
    | dsimp only
    | split

theorem setRobot_keeps {q : Bool} {b t : State} (c : Nat) (r : Nat) (b' : Robot) (h : Keeps q b t) : Keeps q b
    (setRobot t c r b') := by
  unfold setRobot
  repeat' first
    | with_reducible assumption
    | with_reducible apply setCore_keeps

theorem decideRobot_keeps {b t : State} (y : Cycle) (id : Nat) (rank : Nat) (b' : Robot) (v : Verdict) (h : Keeps
    false b t) : Keeps false b (decideRobot t y id rank b' v).1 := by
  unfold decideRobot
  repeat' first
    | with_reducible assumption
    | with_reducible apply writeRobot_keeps
    | with_reducible apply writeInactive_keeps
    | with_reducible apply noteVerdict_keeps
    | with_reducible apply setRobot_keeps
    | (with_reducible apply Keeps.of_pair; with_reducible assumption)
    | dsimp only
    | split

theorem planRanks_keeps {b t : State} (y : Cycle) (id : Nat) (y0 : List Nat) (h : Keeps false b t) : Keeps false b
    (planRanks t y id y0).1 := by
  revert h
  fun_induction planRanks t y id y0 <;> intro h
  all_goals
   repeat' first
    | with_reducible assumption
    | with_reducible apply searchRobot_keeps
    | with_reducible apply decideRobot_keeps
    | with_reducible apply_assumption
    | (with_reducible apply Keeps.of_pair; with_reducible assumption)
    | split
    | dsimp +zetaDelta only

theorem lateRanks_keeps {b t : State} (y : Cycle) (id : Nat) (y0 : List Nat) (h : Keeps false b t) : Keeps false b
    (lateRanks t y id y0).1 := by
  revert h
  fun_induction lateRanks t y id y0 <;> intro h
  all_goals
   repeat' first
    | with_reducible assumption
    | with_reducible apply takeChoice_keeps
    | with_reducible apply decideRobot_keeps
    | with_reducible apply_assumption
    | (with_reducible apply Keeps.of_pair; with_reducible assumption)

theorem endCycle_keeps {b t : State} (x : Run) (c : Nat) (h : Keeps false b t) : Keeps false b (endCycle t x c) :=
    by
  unfold endCycle
  repeat' first
    | with_reducible assumption
    | with_reducible apply advance_keeps
    | with_reducible apply setCore_keeps

theorem afterRanks_keeps {b t : State} (x : Run) (c : Nat) (idx : Nat) (next : Nat) (nrob : Nat) (r : Res Unit) (h :
    Keeps false b t) : Keeps false b (afterRanks t x c idx next nrob r) := by
  unfold afterRanks
  repeat' first
    | with_reducible assumption
    | with_reducible apply endSeg_keeps
    | with_reducible apply settleUnit_keeps
    | with_reducible apply setPhase_keeps
    | with_reducible apply failWith_keeps
    | with_reducible apply finishStopped_keeps
    | with_reducible apply setCore_keeps
    | with_reducible apply endCycle_keeps
    | dsimp only
    | simp only [keeps_mk]
    | split

theorem cycleLate_keeps {b t : State} (x : Run) (c : Nat) (idx : Nat) (from_ : Nat) (h : Keeps false b t) : Keeps
    false b (cycleLate t x c idx from_) := by
  unfold cycleLate
  repeat' first
    | with_reducible assumption
    | with_reducible apply setCore_keeps
    | with_reducible apply lateRanks_keeps
    | with_reducible apply afterRanks_keeps

theorem startCycle_keeps {b t : State} (x : Run) (c : Nat) (o : ListOp) (upto : Nat) (h : Keeps false b t) : Keeps
    false b (startCycle t x c o upto) := by
  unfold startCycle
  repeat' first
    | with_reducible assumption
    | with_reducible apply failWith_keeps
    | with_reducible apply useVar_keeps
    | with_reducible apply setCore_keeps
    | with_reducible apply readCycle_keeps
    | with_reducible apply validateAll_keeps
    | with_reducible apply planRanks_keeps
    | with_reducible apply afterRanks_keeps
    | with_reducible apply cycleLate_keeps
    | (with_reducible apply Keeps.of_pair; with_reducible assumption)
    | dsimp only
    | split

theorem execPlanningCycleStart_keeps {b t : State} (c : Nat) (upto : Nat) (h : Keeps false b t) : OutKeeps false b
    (execPlanningCycleStart c upto t) := by
  unfold execPlanningCycleStart
  repeat' first
    | with_reducible apply OutKeeps.done
    | with_reducible assumption
    | with_reducible apply failResult_keeps
    | with_reducible apply startCycle_keeps
    | dsimp only
    | simp only [keeps_mk]
    | (with_reducible refine Keeps.parts ?_)
    | split

theorem execSearchBound_keeps {b t : State} (c : Nat) (upto : Nat) (h : Keeps false b t) : OutKeeps false b
    (execSearchBound c upto t) := by
  unfold execSearchBound
  repeat' first
    | with_reducible apply OutKeeps.done
    | with_reducible assumption
    | with_reducible apply takeChoice_keeps
    | with_reducible apply failWith_keeps
    | with_reducible apply decideRobot_keeps
    | with_reducible apply planRanks_keeps
    | with_reducible apply endCycle_keeps
    | with_reducible apply afterRanks_keeps
    | (with_reducible apply Keeps.of_pair; with_reducible assumption)
    | dsimp only
    | simp only [keeps_mk]
    | split

theorem lateUnits_keeps {b t : State} (x : Run) (h : Keeps false b t) : Keeps false b (lateUnits t x) := by
  unfold lateUnits
  repeat' first
    | with_reducible assumption
    | intro _
    | with_reducible apply cycleLate_keeps
    | with_reducible apply Keeps.of_foldl
    | split

theorem execLateEvent_keeps {b t : State} (r : Nat) (h : Keeps false b t) : OutKeeps false b (execLateEvent r t) :=
    by
  unfold execLateEvent
  repeat' first
    | with_reducible apply OutKeeps.done
    | with_reducible assumption
    | with_reducible apply modRun_keeps
    | with_reducible apply finishIfEnded_keeps
    | with_reducible apply squash_keeps
    | with_reducible apply lateUnits_keeps
    | dsimp only
    | split

end Sys2Proof.Machine
end

