-- ==== Sys2Proof/Laws/Access.lean ====
section
/-! SUPPORT. What the operations and rows of Sys2Proof/Machine/Access.lean keep: `Keeps true` stores nothing, `Keeps q` for
every q likewise, `Keeps false` may store; `Retains` is said of the rows that write a quiet part. -/
namespace Sys2Proof.Machine

theorem landed_keeps {q : Bool} {b t : State} (o : Host.Outcome State Fault Refusal) (h : Keeps q b t)
    (ho : OutKeeps q b o) : Keeps q b (landed t o) := by
  cases o with
  | next u => exact ho.out u rfl
  | fault r => exact h
  | refused r => exact h

theorem landed_retains {b t : State} (o : Host.Outcome State Fault Refusal) (h : Retains b t) (ho : OutRetains b o) :
    Retains b (landed t o) := by
  cases o with
  | next u => exact ho.out u rfl
  | fault r => exact h
  | refused r => exact h

theorem holdWord_keeps {q : Bool} {b t : State} (off : Nat) (v : Nat) (h : Keeps q b t) : Keeps q b (holdWord t off
    v) := by
  unfold holdWord
  repeat' first
    | with_reducible assumption
    | simp only [keeps_mk]
    | (with_reducible refine Keeps.parts ?_)

theorem writeGlb_retains {b t : State} (o : Nat) (v : Nat) (ho : o = 0x40 → bits v 7 0 ≠ 5) (h : Retains b t) :
    OptRetains b (writeGlb t o v) := by
  unfold writeGlb
  repeat' first
    | (rename_i e; exact absurd e (ho (by assumption)))
    | with_reducible assumption
    | refine Retains.keeps (q := false) ?_ (by (with_reducible apply clearRow_keeps) <;> exact Keeps.refl _)
    | with_reducible apply execLogRead_retains
    | with_reducible apply execFlashWrite_retains
    | with_reducible apply execFlashActivate_retains
    | with_reducible apply execWarmReset_retains
    | with_reducible apply execMboxUnknown_retains
    | with_reducible apply landed_retains
    | exact OptRetains.of_none _
    | with_reducible apply OptRetains.of_some
    | dsimp only
    | split
    | simp only [retains_mk]
    | (with_reducible refine Retains.as ?_)

theorem writeRing_keeps {b t : State} (o : Nat) (v : Nat) (h : Keeps false b t) : OptKeeps false b (writeRing t o v)
    := by
  unfold writeRing
  repeat' first
    | with_reducible assumption
    | with_reducible apply clearRow_keeps
    | with_reducible apply execRingAdminCtrl_keeps
    | with_reducible apply execRingAdminReset_keeps
    | with_reducible apply landed_keeps
    | exact OptKeeps.of_none _
    | with_reducible apply OptKeeps.of_some
    | split

theorem writeEvx_keeps {q : Bool} {b t : State} (o : Nat) (v : Nat) (h : Keeps q b t) : OptKeeps q b (writeEvx t o
    v) := by
  unfold writeEvx
  repeat' first
    | with_reducible assumption
    | with_reducible apply clearRow_keeps
    | with_reducible apply execHostevAdd_keeps
    | with_reducible apply execHostevSet_keeps
    | with_reducible apply execOccClr_keeps
    | with_reducible apply execOccClrRow_keeps
    | with_reducible apply landed_keeps
    | exact OptKeeps.of_none _
    | with_reducible apply OptKeeps.of_some
    | split

theorem writeEtuCmd_keeps {q : Bool} {b t : State} (v : Nat) (h : Keeps q b t) : Keeps q b (writeEtuCmd t v) := by
  unfold writeEtuCmd
  repeat' first
    | with_reducible assumption
    | with_reducible apply OutKeeps.done
    | with_reducible apply execTimeReset_keeps
    | with_reducible apply execForceHoldover_keeps
    | with_reducible apply execKeepRef_keeps
    | with_reducible apply execClearSuspect_keeps
    | with_reducible apply execReleaseHoldover_keeps
    | with_reducible apply landed_keeps
    | split

theorem writeEtu_retains {b t : State} (o : Nat) (v : Nat) (h : Retains b t) : OptRetains b (writeEtu t o v) := by
  unfold writeEtu
  repeat' first
    | with_reducible assumption
    | refine Retains.keeps (q := false) ?_ (by (with_reducible apply clearFlag_keeps) <;> exact Keeps.refl _)
    | refine Retains.keeps (q := false) ?_ (by (with_reducible apply clearRow_keeps) <;> exact Keeps.refl _)
    | with_reducible apply execRefCfgWrite_retains
    | refine OutRetains.after (q := false) ?_ (by (with_reducible apply execPtpMeas_keeps) <;> exact Keeps.refl _)
    | refine OutRetains.after (q := false) ?_ (by (with_reducible apply execTodSec_keeps) <;> exact Keeps.refl _)
    | with_reducible apply execTrigArm_retains
    | with_reducible apply execTrigDisarm_retains
    | with_reducible apply landed_retains
    | refine Retains.keeps (q := false) ?_ (by (with_reducible apply holdWord_keeps) <;> exact Keeps.refl _)
    | refine Retains.keeps (q := false) ?_ (by (with_reducible apply writeEtuCmd_keeps) <;> exact Keeps.refl _)
    | exact OptRetains.of_none _
    | with_reducible apply OptRetains.of_some
    | dsimp only
    | split

theorem writePwr_keeps {q : Bool} {b t : State} (o : Nat) (v : Nat) (h : Keeps q b t) : OptKeeps q b (writePwr t o
    v) := by
  unfold writePwr
  repeat' first
    | with_reducible assumption
    | with_reducible apply OutKeeps.done
    | with_reducible apply clearRow_keeps
    | with_reducible apply execShed_keeps
    | with_reducible apply execResume_keeps
    | with_reducible apply landed_keeps
    | exact OptKeeps.of_none _
    | with_reducible apply OptKeeps.of_some
    | split

theorem writeClk_keeps {q : Bool} {b t : State} (o : Nat) (v : Nat) (h : Keeps q b t) : OptKeeps q b (writeClk t o
    v) := by
  unfold writeClk
  repeat' first
    | with_reducible assumption
    | with_reducible apply clearFlag_keeps
    | exact OptKeeps.of_none _
    | with_reducible apply OptKeeps.of_some
    | split

theorem writeMon_retains {b t : State} (o : Nat) (v : Nat) (h : Retains b t) : OptRetains b (writeMon t o v) := by
  unfold writeMon
  repeat' first
    | with_reducible assumption
    | intro _
    | refine Retains.keeps (q := false) ?_ (by (with_reducible apply clearFlag_keeps) <;> exact Keeps.refl _)
    | refine Retains.keeps (q := false) ?_ (by (with_reducible apply clearRow_keeps) <;> exact Keeps.refl _)
    | with_reducible apply execMinClr_retains
    | with_reducible apply landed_retains
    | exact OptRetains.of_none _
    | with_reducible apply OptRetains.of_some
    | with_reducible apply Retains.of_foldl
    | dsimp only
    | split

theorem writeErr_keeps {b t : State} (o : Nat) (v : Nat) (h : Keeps false b t) : OptKeeps false b (writeErr t o v)
    := by
  unfold writeErr
  repeat' first
    | with_reducible assumption
    | with_reducible apply clearRow_keeps
    | with_reducible apply execErrRetireCmd_keeps
    | with_reducible apply landed_keeps
    | exact OptKeeps.of_none _
    | with_reducible apply OptKeeps.of_some
    | dsimp only
    | simp only [keeps_mk]
    | (with_reducible refine Keeps.parts ?_)
    | split

theorem writeXlt_keeps {q : Bool} {b t : State} (o : Nat) (v : Nat) (h : Keeps q b t) : OptKeeps q b (writeXlt t o
    v) := by
  unfold writeXlt
  repeat' first
    | with_reducible assumption
    | with_reducible apply clearRow_keeps
    | exact OptKeeps.of_none _
    | with_reducible apply OptKeeps.of_some
    | dsimp only
    | simp only [keeps_mk]
    | (with_reducible refine Keeps.parts ?_)
    | split

theorem writeLay_keeps {q : Bool} {b t : State} (o : Nat) (v : Nat) (h : Keeps q b t) : OptKeeps q b (writeLay t o
    v) := by
  unfold writeLay
  repeat' first
    | with_reducible assumption
    | with_reducible apply clearRow_keeps
    | with_reducible apply execLayInvHandle_keeps
    | with_reducible apply execLayInvAll_keeps
    | with_reducible apply landed_keeps
    | exact OptKeeps.of_none _
    | with_reducible apply OptKeeps.of_some
    | split

theorem writeFh_keeps {b t : State} (o : Nat) (v : Nat) (h : Keeps false b t) : OptKeeps false b (writeFh t o v) :=
    by
  unfold writeFh
  repeat' first
    | with_reducible assumption
    | with_reducible apply clearRow_keeps
    | with_reducible apply execRestart_keeps
    | with_reducible apply execCpCancelSection_keeps
    | with_reducible apply execCpCancelAll_keeps
    | with_reducible apply landed_keeps
    | with_reducible apply holdWord_keeps
    | exact OptKeeps.of_none _
    | with_reducible apply OptKeeps.of_some
    | dsimp only
    | split

theorem writeCv_keeps {b t : State} (o : Nat) (v : Nat) (h : Keeps false b t) : OptKeeps false b (writeCv t o v) :=
    by
  unfold writeCv
  repeat' first
    | with_reducible assumption
    | with_reducible apply clearRow_keeps
    | with_reducible apply execCvProfLoad_keeps
    | with_reducible apply landed_keeps
    | exact OptKeeps.of_none _
    | with_reducible apply OptKeeps.of_some
    | split

theorem writeMq_keeps {q : Bool} {b t : State} (o : Nat) (v : Nat) (h : Keeps q b t) : OptKeeps q b (writeMq t o v) :=
    by
  unfold writeMq
  repeat' first
    | exact OptKeeps.of_none _
    | with_reducible apply OptKeeps.of_some
    | with_reducible assumption
    | with_reducible apply setFlag_keeps
    | with_reducible apply clearRow_keeps
    | with_reducible apply execPublish_keeps
    | with_reducible apply execWithdraw_keeps
    | with_reducible apply landed_keeps
    | intro _
    | (with_reducible apply Keeps.of_pair; with_reducible assumption)
    | with_reducible apply Keeps.of_foldl
    | dsimp only
    | simp only [keeps_mk]
    | (with_reducible refine Keeps.parts ?_)
    | split

theorem byWords_keeps {q : Bool} {b s t : State} (f : State → Nat → Nat → State) (off size : Nat) (val : W64)
    (h : Keeps q b t) (hs : Keeps q b s) (hf : ∀ u o v, Keeps q b u → Keeps q b (f u o v)) :
    Keeps q b (byWords f t off size val s) := by
  unfold byWords
  repeat' first
    | with_reducible assumption
    | with_reducible apply hf
    | split

theorem writeActs_retains {b t : State} (off v : Nat) (ho : off ≠ 0x10020) (hc : off = 0x40 → bits v 7 0 ≠ 5)
    (h : Retains b t) : OptRetains b (writeActs t off v) := by
  have hm := Nat.mod_add_div off 0x10000
  unfold writeActs
  dsimp only
  split
  case h_1 hd => exact writeGlb_retains _ _ (fun e => hc (by rw [hd, e] at hm; exact hm.symm)) h
  case h_2 hd =>
    split
    · rename_i hx
      exact absurd hm (by rw [hd, hx]; exact fun e => ho e.symm)
    · exact OptRetains.of_none _
  all_goals
    repeat' first
      | exact OptRetains.of_none _
      | apply OptRetains.of_some
      | refine Retains.keeps (q := false) ?_ (by (with_reducible apply clearRow_keeps) <;> exact Keeps.refl _)
      | with_reducible exact h
      | refine OptRetains.after (q := false) ?_ (by (with_reducible apply writeRing_keeps) <;> exact Keeps.refl _)
      | refine OptRetains.after (q := false) ?_ (by (with_reducible apply writeEvx_keeps) <;> exact Keeps.refl _)
      | with_reducible apply writeEtu_retains
      | refine OptRetains.after (q := false) ?_ (by (with_reducible apply writePwr_keeps) <;> exact Keeps.refl _)
      | refine OptRetains.after (q := false) ?_ (by (with_reducible apply writeClk_keeps) <;> exact Keeps.refl _)
      | with_reducible apply writeMon_retains
      | refine OptRetains.after (q := false) ?_ (by (with_reducible apply writeErr_keeps) <;> exact Keeps.refl _)
      | refine OptRetains.after (q := false) ?_ (by (with_reducible apply writeXlt_keeps) <;> exact Keeps.refl _)
      | refine OptRetains.after (q := false) ?_ (by (with_reducible apply writeLay_keeps) <;> exact Keeps.refl _)
      | refine OptRetains.after (q := false) ?_ (by (with_reducible apply writeFh_keeps) <;> exact Keeps.refl _)
      | refine OptRetains.after (q := false) ?_ (by (with_reducible apply writeCv_keeps) <;> exact Keeps.refl _)
      | refine OptRetains.after (q := false) ?_ (by (with_reducible apply writeMq_keeps) <;> exact Keeps.refl _)
      | split

theorem writePlacement_retains {b t : State} (off : Nat) (v : Nat) (h : Retains b t) : Retains b (writePlacement t
    off v) := by
  unfold writePlacement
  repeat' first
    | with_reducible assumption
    | with_reducible apply mergeReg_retains
    | refine Retains.keeps (q := false) ?_ (by (with_reducible apply setFlag_keeps) <;> exact Keeps.refl _)
    | refine Retains.keeps (q := false) ?_ (by (with_reducible apply setCarrier_keeps) <;> exact Keeps.refl _)
    | dsimp only
    | split

theorem writePortCfg_retains {b t : State} (off : Nat) (v : Nat) (h : Retains b t) : Retains b (writePortCfg t off v)
    := by
  unfold writePortCfg
  repeat' first
    | with_reducible assumption
    | with_reducible apply mergeReg_retains
    | refine Retains.keeps (q := false) ?_ (by (with_reducible apply setPort_keeps) <;> exact Keeps.refl _)
    | refine Retains.keeps (q := false) ?_ (by (with_reducible apply discardFrames_keeps) <;> exact Keeps.refl _)
    | refine Retains.keeps (q := false) ?_ (by (with_reducible apply settleRadio_keeps) <;> exact Keeps.refl _)
    | refine Retains.keeps (q := false) ?_ (by (with_reducible apply refsRecheck_keeps) <;> exact Keeps.refl _)
    | refine Retains.keeps (q := false) ?_ (by (with_reducible apply portLeave_keeps) <;> exact Keeps.refl _)
    | dsimp only
    | split
    | simp only [retains_mk]
    | (with_reducible refine Retains.as ?_)

theorem writeJdCfg_retains {b t : State} (off : Nat) (v : Nat) (h : Retains b t) : Retains b (writeJdCfg t off v) :=
    by
  unfold writeJdCfg
  repeat' first
    | with_reducible assumption
    | with_reducible apply mergeReg_retains
    | with_reducible apply setJd_retains

theorem storeWord_retains {b t : State} (off : Nat) (v : Nat) (h : Retains b t) : Retains b (storeWord t off v) :=
    by
  unfold storeWord
  repeat' first
    | with_reducible assumption
    | with_reducible apply mergeReg_retains
    | refine Retains.keeps (q := false) ?_ (by (with_reducible apply updateFloor_keeps) <;> exact Keeps.refl _)
    | refine Retains.keeps (q := false) ?_ (by (with_reducible apply settleRadio_keeps) <;> exact Keeps.refl _)
    | refine Retains.keeps (q := false) ?_ (by (with_reducible apply watchCols_keeps) <;> exact Keeps.refl _)
    | refine Retains.keeps (q := false) ?_ (by (with_reducible apply settleEtu_keeps) <;> exact Keeps.refl _)
    | with_reducible apply writePlacement_retains
    | with_reducible apply writePortCfg_retains
    | with_reducible apply writeJdCfg_retains
    | dsimp only
    | split

theorem releaseHeld_retains {b t : State} (off : Nat) (h : Retains b t) : Retains b (releaseHeld t off) := by
  unfold releaseHeld
  repeat' first
    | with_reducible assumption
    | with_reducible apply mergeReg_retains
    | dsimp only
    | split
    | simp only [retains_mk]
    | (with_reducible refine Retains.as ?_)

theorem writeWord_retains {b t : State} (off v : Nat) (ho : off ≠ 0x10020) (hc : off = 0x40 → bits v 7 0 ≠ 5)
    (h : Retains b t) : Retains b (writeWord t off v) := by
  have ha := writeActs_retains off v ho hc h
  unfold writeWord
  generalize writeActs t off v = o at ha
  split
  · exact h
  · cases o with
    | some u => exact ha.out u rfl
    | none =>
      dsimp only
      split
      · exact h.keeps (q := false) (holdWord_keeps _ _ (Keeps.refl t))
      · exact storeWord_retains _ _ (releaseHeld_retains _ h)

/-- A word write keeps what the seal had locked, also one that seals. -/
theorem writeWord_seal {p : Prop} (t : State) (off v : Nat) (hp : off = 0x40 → bits v 7 0 = 5 → p) :
    SealKeeps p t (writeWord t off v) := by
  by_cases ho : off = 0x10020
  · subst ho
    have hs := execSeal_seals (p := p) t
    unfold writeWord
    rw [show absentReg t 0x10020 = false from rfl, show writeActs t 0x10020 v =
      some (if bitAt v 0 then landed t (execSeal t) else t) from rfl]
    dsimp only
    generalize execSeal t = o at hs
    rw [if_neg (by simp)]
    split
    · cases o with
      | next u => exact hs u rfl
      | fault r => exact (Retains.refl t).toSeal
      | refused r => exact (Retains.refl t).toSeal
    · exact (Retains.refl t).toSeal
  · by_cases hc : off = 0x40 ∧ bits v 7 0 = 5
    · obtain ⟨h1, h2⟩ := hc
      subst h1
      have hs := fun u => execSvnCommit_seals (hp rfl h2) t u
      have hw : writeActs t 0x40 v = some (landed t (execSvnCommit t)) := by
        show some (landed t (match bits v 7 0 with
          | 1 => execLogRead t
          | 2 => execFlashWrite t
          | 3 => execFlashActivate t
          | 4 => execWarmReset t
          | 5 => execSvnCommit t
          | c => execMboxUnknown c t)) = _
        rw [h2]; rfl
      unfold writeWord
      rw [show absentReg t 0x40 = false from rfl, hw]
      dsimp only
      generalize execSvnCommit t = o at hs
      rw [if_neg (by simp)]
      cases o with
      | next u => exact hs u rfl
      | fault r => exact (Retains.refl t).toSeal
      | refused r => exact (Retains.refl t).toSeal
    · exact (writeWord_retains off v ho (fun e1 e2 => hc ⟨e1, e2⟩) (Retains.refl t)).toSeal

/-- A write by words to the setup space keeps what the seal had locked. -/
theorem byWords_seal (t u : State) (off size : Nat) (val : W64) (h : Retains t u) :
    SealKeeps (off = 0x40 ∧ bits val.toNat 7 0 = 5) t (byWords writeWord u off size val t) := by
  have hb : bits (val.toNat % 2 ^ 32) 7 0 = bits val.toNat 7 0 := by
    simp only [bits, Nat.pow_zero, Nat.div_one]
    exact Nat.mod_mod_of_dvd _ ⟨2 ^ 24, by decide⟩
  unfold byWords
  split
  · exact writeWord_seal _ _ _ (fun e1 e2 => ⟨e1, hb ▸ e2⟩)
  · split
    · rename_i hs
      simp only [Bool.and_eq_true, decide_eq_true_eq] at hs
      refine (writeWord_seal t off _ (fun e1 e2 => ⟨e1, hb ▸ e2⟩)).trans_retains
        (writeWord_retains _ _ ?_ (fun e => ?_) (Retains.refl _))
      · omega
      · omega
    · exact h.toSeal

theorem execRegisterWrite_seals (t : State) (w : Window) (size : Nat) (val : W64) :
    ∀ u, execRegisterWrite w size val t = .next u →
      SealKeeps (w = .setup 0x40 ∧ bits val.toNat 7 0 = 5) t u := by
  intro u e
  unfold execRegisterWrite at e
  have e := Host.Outcome.next.inj e
  subst e
  cases w with
  | setup off =>
    dsimp only
    split
    · exact (Retains.refl t).toSeal
    · exact (byWords_seal t _ off size val ((Retains.refl t).keeps (q := true) (setFlag_keeps _ (Keeps.refl t)))).mono
        fun e => ⟨e.1 ▸ rfl, e.2⟩
  | doorbells fn off =>
    dsimp only
    split
    · exact (Retains.refl t).toSeal
    · exact ((Retains.refl t).keeps (q := true) (byWords_keeps _ off size val (Keeps.refl t) (Keeps.refl t)
        fun u o v h => pageWrite_keeps fn o v h)).toSeal
  | msix fn off =>
    dsimp only
    split
    · exact (Retains.refl t).toSeal
    · exact ((Retains.refl t).keeps (q := true) (byWords_keeps _ off size val (Keeps.refl t) (Keeps.refl t)
        fun u o v h => tableWrite_keeps fn o v h)).toSeal

end Sys2Proof.Machine
end

