-- ==== Sys2Proof/Laws/State.lean ====
section
/-! SUPPORT. One lemma for each field and each update of the state: an update leaves every field but its own. -/
namespace Sys2Proof.Laws
open Sys2Proof.Machine

@[simp] theorem setRing_pending (s : State) (r : Nat) (g : Ring) : (setRing s r g).pending = s.pending := rfl

@[simp] theorem setRing_fuse (s : State) (r : Nat) (g : Ring) : (setRing s r g).fuse = s.fuse := rfl

@[simp] theorem setRing_flash (s : State) (r : Nat) (g : Ring) : (setRing s r g).flash = s.flash := rfl

@[simp] theorem setRing_boot (s : State) (r : Nat) (g : Ring) : (setRing s r g).boot = s.boot := rfl

@[simp] theorem setRing_mbox (s : State) (r : Nat) (g : Ring) : (setRing s r g).mbox = s.mbox := rfl

@[simp] theorem setRing_link (s : State) (r : Nat) (g : Ring) : (setRing s r g).link = s.link := rfl

@[simp] theorem setRing_feat (s : State) (r : Nat) (g : Ring) : (setRing s r g).feat = s.feat := rfl

@[simp] theorem setRing_limits (s : State) (r : Nat) (g : Ring) : (setRing s r g).limits = s.limits := rfl

@[simp] theorem setRing_regs (s : State) (r : Nat) (g : Ring) : (setRing s r g).regs = s.regs := rfl

@[simp] theorem setRing_held (s : State) (r : Nat) (g : Ring) : (setRing s r g).held = s.held := rfl

@[simp] theorem setRing_flags (s : State) (r : Nat) (g : Ring) : (setRing s r g).flags = s.flags := rfl

@[simp] theorem setRing_occ (s : State) (r : Nat) (g : Ring) : (setRing s r g).occ = s.occ := rfl

@[simp] theorem setRing_etu (s : State) (r : Nat) (g : Ring) : (setRing s r g).etu = s.etu := rfl

@[simp] theorem setRing_inst (s : State) (r : Nat) (g : Ring) : (setRing s r g).inst = s.inst := rfl

@[simp] theorem setRing_pat (s : State) (r : Nat) (g : Ring) : (setRing s r g).pat = s.pat := rfl

@[simp] theorem setRing_jd (s : State) (r : Nat) (g : Ring) : (setRing s r g).jd = s.jd := rfl

@[simp] theorem setRing_power (s : State) (r : Nat) (g : Ring) : (setRing s r g).power = s.power := rfl

@[simp] theorem setRing_tap (s : State) (r : Nat) (g : Ring) : (setRing s r g).tap = s.tap := rfl

@[simp] theorem setRing_arb (s : State) (r : Nat) (g : Ring) : (setRing s r g).arb = s.arb := rfl

@[simp] theorem setRing_runs (s : State) (r : Nat) (g : Ring) : (setRing s r g).runs = s.runs := rfl

@[simp] theorem setRing_ra (s : State) (r : Nat) (g : Ring) : (setRing s r g).ra = s.ra := rfl

@[simp] theorem setRing_ev (s : State) (r : Nat) (g : Ring) : (setRing s r g).ev = s.ev := rfl

@[simp] theorem setRing_mem (s : State) (r : Nat) (g : Ring) : (setRing s r g).mem = s.mem := rfl

@[simp] theorem setRing_arr (s : State) (r : Nat) (g : Ring) : (setRing s r g).arr = s.arr := rfl

@[simp] theorem setRing_col (s : State) (r : Nat) (g : Ring) : (setRing s r g).col = s.col := rfl

@[simp] theorem setRing_tile (s : State) (r : Nat) (g : Ring) : (setRing s r g).tile = s.tile := rfl

@[simp] theorem setRing_mq (s : State) (r : Nat) (g : Ring) : (setRing s r g).mq = s.mq := rfl

@[simp] theorem setRing_ce (s : State) (r : Nat) (g : Ring) : (setRing s r g).ce = s.ce := rfl

@[simp] theorem setRing_fh (s : State) (r : Nat) (g : Ring) : (setRing s r g).fh = s.fh := rfl

@[simp] theorem setRing_cv (s : State) (r : Nat) (g : Ring) : (setRing s r g).cv = s.cv := rfl

@[simp] theorem setRing_core (s : State) (r : Nat) (g : Ring) : (setRing s r g).core = s.core := rfl

@[simp] theorem setRing_err (s : State) (r : Nat) (g : Ring) : (setRing s r g).err = s.err := rfl

@[simp] theorem setRing_retired (s : State) (r : Nat) (g : Ring) : (setRing s r g).retired = s.retired := rfl

@[simp] theorem setRing_smb (s : State) (r : Nat) (g : Ring) : (setRing s r g).smb = s.smb := rfl

@[simp] theorem setRing_readOut (s : State) (r : Nat) (g : Ring) : (setRing s r g).readOut = s.readOut := rfl

@[simp] theorem setRing_tick (s : State) (r : Nat) (g : Ring) : (setRing s r g).tick = s.tick := rfl

@[simp] theorem setRing_sclk (s : State) (r : Nat) (g : Ring) : (setRing s r g).sclk = s.sclk := rfl

@[simp] theorem setRing_hclk (s : State) (r : Nat) (g : Ring) : (setRing s r g).hclk = s.hclk := rfl

@[simp] theorem setRing_choice (s : State) (r : Nat) (g : Ring) : (setRing s r g).choice = s.choice := rfl

@[simp] theorem setEvc_pending (s : State) (n : Nat) (e : Evc) : (setEvc s n e).pending = s.pending := rfl

@[simp] theorem setEvc_fuse (s : State) (n : Nat) (e : Evc) : (setEvc s n e).fuse = s.fuse := rfl

@[simp] theorem setEvc_flash (s : State) (n : Nat) (e : Evc) : (setEvc s n e).flash = s.flash := rfl

@[simp] theorem setEvc_boot (s : State) (n : Nat) (e : Evc) : (setEvc s n e).boot = s.boot := rfl

@[simp] theorem setEvc_mbox (s : State) (n : Nat) (e : Evc) : (setEvc s n e).mbox = s.mbox := rfl

@[simp] theorem setEvc_link (s : State) (n : Nat) (e : Evc) : (setEvc s n e).link = s.link := rfl

@[simp] theorem setEvc_feat (s : State) (n : Nat) (e : Evc) : (setEvc s n e).feat = s.feat := rfl

@[simp] theorem setEvc_limits (s : State) (n : Nat) (e : Evc) : (setEvc s n e).limits = s.limits := rfl

@[simp] theorem setEvc_regs (s : State) (n : Nat) (e : Evc) : (setEvc s n e).regs = s.regs := rfl

@[simp] theorem setEvc_held (s : State) (n : Nat) (e : Evc) : (setEvc s n e).held = s.held := rfl

@[simp] theorem setEvc_flags (s : State) (n : Nat) (e : Evc) : (setEvc s n e).flags = s.flags := rfl

@[simp] theorem setEvc_occ (s : State) (n : Nat) (e : Evc) : (setEvc s n e).occ = s.occ := rfl

@[simp] theorem setEvc_etu (s : State) (n : Nat) (e : Evc) : (setEvc s n e).etu = s.etu := rfl

@[simp] theorem setEvc_inst (s : State) (n : Nat) (e : Evc) : (setEvc s n e).inst = s.inst := rfl

@[simp] theorem setEvc_pat (s : State) (n : Nat) (e : Evc) : (setEvc s n e).pat = s.pat := rfl

@[simp] theorem setEvc_jd (s : State) (n : Nat) (e : Evc) : (setEvc s n e).jd = s.jd := rfl

@[simp] theorem setEvc_power (s : State) (n : Nat) (e : Evc) : (setEvc s n e).power = s.power := rfl

@[simp] theorem setEvc_tap (s : State) (n : Nat) (e : Evc) : (setEvc s n e).tap = s.tap := rfl

@[simp] theorem setEvc_ring (s : State) (n : Nat) (e : Evc) : (setEvc s n e).ring = s.ring := rfl

@[simp] theorem setEvc_arb (s : State) (n : Nat) (e : Evc) : (setEvc s n e).arb = s.arb := rfl

@[simp] theorem setEvc_runs (s : State) (n : Nat) (e : Evc) : (setEvc s n e).runs = s.runs := rfl

@[simp] theorem setEvc_ra (s : State) (n : Nat) (e : Evc) : (setEvc s n e).ra = s.ra := rfl

@[simp] theorem setEvc_mem (s : State) (n : Nat) (e : Evc) : (setEvc s n e).mem = s.mem := rfl

@[simp] theorem setEvc_arr (s : State) (n : Nat) (e : Evc) : (setEvc s n e).arr = s.arr := rfl

@[simp] theorem setEvc_col (s : State) (n : Nat) (e : Evc) : (setEvc s n e).col = s.col := rfl

@[simp] theorem setEvc_tile (s : State) (n : Nat) (e : Evc) : (setEvc s n e).tile = s.tile := rfl

@[simp] theorem setEvc_mq (s : State) (n : Nat) (e : Evc) : (setEvc s n e).mq = s.mq := rfl

@[simp] theorem setEvc_ce (s : State) (n : Nat) (e : Evc) : (setEvc s n e).ce = s.ce := rfl

@[simp] theorem setEvc_fh (s : State) (n : Nat) (e : Evc) : (setEvc s n e).fh = s.fh := rfl

@[simp] theorem setEvc_cv (s : State) (n : Nat) (e : Evc) : (setEvc s n e).cv = s.cv := rfl

@[simp] theorem setEvc_core (s : State) (n : Nat) (e : Evc) : (setEvc s n e).core = s.core := rfl

@[simp] theorem setEvc_err (s : State) (n : Nat) (e : Evc) : (setEvc s n e).err = s.err := rfl

@[simp] theorem setEvc_retired (s : State) (n : Nat) (e : Evc) : (setEvc s n e).retired = s.retired := rfl

@[simp] theorem setEvc_smb (s : State) (n : Nat) (e : Evc) : (setEvc s n e).smb = s.smb := rfl

@[simp] theorem setEvc_readOut (s : State) (n : Nat) (e : Evc) : (setEvc s n e).readOut = s.readOut := rfl

@[simp] theorem setEvc_tick (s : State) (n : Nat) (e : Evc) : (setEvc s n e).tick = s.tick := rfl

@[simp] theorem setEvc_sclk (s : State) (n : Nat) (e : Evc) : (setEvc s n e).sclk = s.sclk := rfl

@[simp] theorem setEvc_hclk (s : State) (n : Nat) (e : Evc) : (setEvc s n e).hclk = s.hclk := rfl

@[simp] theorem setEvc_choice (s : State) (n : Nat) (e : Evc) : (setEvc s n e).choice = s.choice := rfl

@[simp] theorem setTrig_pending (s : State) (n : Nat) (x : Trig) : (setTrig s n x).pending = s.pending := rfl

@[simp] theorem setTrig_fuse (s : State) (n : Nat) (x : Trig) : (setTrig s n x).fuse = s.fuse := rfl

@[simp] theorem setTrig_flash (s : State) (n : Nat) (x : Trig) : (setTrig s n x).flash = s.flash := rfl

@[simp] theorem setTrig_boot (s : State) (n : Nat) (x : Trig) : (setTrig s n x).boot = s.boot := rfl

@[simp] theorem setTrig_mbox (s : State) (n : Nat) (x : Trig) : (setTrig s n x).mbox = s.mbox := rfl

@[simp] theorem setTrig_link (s : State) (n : Nat) (x : Trig) : (setTrig s n x).link = s.link := rfl

@[simp] theorem setTrig_feat (s : State) (n : Nat) (x : Trig) : (setTrig s n x).feat = s.feat := rfl

@[simp] theorem setTrig_limits (s : State) (n : Nat) (x : Trig) : (setTrig s n x).limits = s.limits := rfl

@[simp] theorem setTrig_regs (s : State) (n : Nat) (x : Trig) : (setTrig s n x).regs = s.regs := rfl

@[simp] theorem setTrig_held (s : State) (n : Nat) (x : Trig) : (setTrig s n x).held = s.held := rfl

@[simp] theorem setTrig_flags (s : State) (n : Nat) (x : Trig) : (setTrig s n x).flags = s.flags := rfl

@[simp] theorem setTrig_occ (s : State) (n : Nat) (x : Trig) : (setTrig s n x).occ = s.occ := rfl

@[simp] theorem setTrig_inst (s : State) (n : Nat) (x : Trig) : (setTrig s n x).inst = s.inst := rfl

@[simp] theorem setTrig_pat (s : State) (n : Nat) (x : Trig) : (setTrig s n x).pat = s.pat := rfl

@[simp] theorem setTrig_jd (s : State) (n : Nat) (x : Trig) : (setTrig s n x).jd = s.jd := rfl

@[simp] theorem setTrig_power (s : State) (n : Nat) (x : Trig) : (setTrig s n x).power = s.power := rfl

@[simp] theorem setTrig_tap (s : State) (n : Nat) (x : Trig) : (setTrig s n x).tap = s.tap := rfl

@[simp] theorem setTrig_ring (s : State) (n : Nat) (x : Trig) : (setTrig s n x).ring = s.ring := rfl

@[simp] theorem setTrig_arb (s : State) (n : Nat) (x : Trig) : (setTrig s n x).arb = s.arb := rfl

@[simp] theorem setTrig_runs (s : State) (n : Nat) (x : Trig) : (setTrig s n x).runs = s.runs := rfl

@[simp] theorem setTrig_ra (s : State) (n : Nat) (x : Trig) : (setTrig s n x).ra = s.ra := rfl

@[simp] theorem setTrig_ev (s : State) (n : Nat) (x : Trig) : (setTrig s n x).ev = s.ev := rfl

@[simp] theorem setTrig_mem (s : State) (n : Nat) (x : Trig) : (setTrig s n x).mem = s.mem := rfl

@[simp] theorem setTrig_arr (s : State) (n : Nat) (x : Trig) : (setTrig s n x).arr = s.arr := rfl

@[simp] theorem setTrig_col (s : State) (n : Nat) (x : Trig) : (setTrig s n x).col = s.col := rfl

@[simp] theorem setTrig_tile (s : State) (n : Nat) (x : Trig) : (setTrig s n x).tile = s.tile := rfl

@[simp] theorem setTrig_mq (s : State) (n : Nat) (x : Trig) : (setTrig s n x).mq = s.mq := rfl

@[simp] theorem setTrig_ce (s : State) (n : Nat) (x : Trig) : (setTrig s n x).ce = s.ce := rfl

@[simp] theorem setTrig_fh (s : State) (n : Nat) (x : Trig) : (setTrig s n x).fh = s.fh := rfl

@[simp] theorem setTrig_cv (s : State) (n : Nat) (x : Trig) : (setTrig s n x).cv = s.cv := rfl

@[simp] theorem setTrig_core (s : State) (n : Nat) (x : Trig) : (setTrig s n x).core = s.core := rfl

@[simp] theorem setTrig_err (s : State) (n : Nat) (x : Trig) : (setTrig s n x).err = s.err := rfl

@[simp] theorem setTrig_retired (s : State) (n : Nat) (x : Trig) : (setTrig s n x).retired = s.retired := rfl

@[simp] theorem setTrig_smb (s : State) (n : Nat) (x : Trig) : (setTrig s n x).smb = s.smb := rfl

@[simp] theorem setTrig_readOut (s : State) (n : Nat) (x : Trig) : (setTrig s n x).readOut = s.readOut := rfl

@[simp] theorem setTrig_tick (s : State) (n : Nat) (x : Trig) : (setTrig s n x).tick = s.tick := rfl

@[simp] theorem setTrig_sclk (s : State) (n : Nat) (x : Trig) : (setTrig s n x).sclk = s.sclk := rfl

@[simp] theorem setTrig_hclk (s : State) (n : Nat) (x : Trig) : (setTrig s n x).hclk = s.hclk := rfl

@[simp] theorem setTrig_choice (s : State) (n : Nat) (x : Trig) : (setTrig s n x).choice = s.choice := rfl

@[simp] theorem setRef_pending (s : State) (i : Nat) (x : RefIn) : (setRef s i x).pending = s.pending := rfl

@[simp] theorem setRef_fuse (s : State) (i : Nat) (x : RefIn) : (setRef s i x).fuse = s.fuse := rfl

@[simp] theorem setRef_flash (s : State) (i : Nat) (x : RefIn) : (setRef s i x).flash = s.flash := rfl

@[simp] theorem setRef_boot (s : State) (i : Nat) (x : RefIn) : (setRef s i x).boot = s.boot := rfl

@[simp] theorem setRef_mbox (s : State) (i : Nat) (x : RefIn) : (setRef s i x).mbox = s.mbox := rfl

@[simp] theorem setRef_link (s : State) (i : Nat) (x : RefIn) : (setRef s i x).link = s.link := rfl

@[simp] theorem setRef_feat (s : State) (i : Nat) (x : RefIn) : (setRef s i x).feat = s.feat := rfl

@[simp] theorem setRef_limits (s : State) (i : Nat) (x : RefIn) : (setRef s i x).limits = s.limits := rfl

@[simp] theorem setRef_regs (s : State) (i : Nat) (x : RefIn) : (setRef s i x).regs = s.regs := rfl

@[simp] theorem setRef_held (s : State) (i : Nat) (x : RefIn) : (setRef s i x).held = s.held := rfl

@[simp] theorem setRef_flags (s : State) (i : Nat) (x : RefIn) : (setRef s i x).flags = s.flags := rfl

@[simp] theorem setRef_occ (s : State) (i : Nat) (x : RefIn) : (setRef s i x).occ = s.occ := rfl

@[simp] theorem setRef_inst (s : State) (i : Nat) (x : RefIn) : (setRef s i x).inst = s.inst := rfl

@[simp] theorem setRef_pat (s : State) (i : Nat) (x : RefIn) : (setRef s i x).pat = s.pat := rfl

@[simp] theorem setRef_jd (s : State) (i : Nat) (x : RefIn) : (setRef s i x).jd = s.jd := rfl

@[simp] theorem setRef_power (s : State) (i : Nat) (x : RefIn) : (setRef s i x).power = s.power := rfl

@[simp] theorem setRef_tap (s : State) (i : Nat) (x : RefIn) : (setRef s i x).tap = s.tap := rfl

@[simp] theorem setRef_ring (s : State) (i : Nat) (x : RefIn) : (setRef s i x).ring = s.ring := rfl

@[simp] theorem setRef_arb (s : State) (i : Nat) (x : RefIn) : (setRef s i x).arb = s.arb := rfl

@[simp] theorem setRef_runs (s : State) (i : Nat) (x : RefIn) : (setRef s i x).runs = s.runs := rfl

@[simp] theorem setRef_ra (s : State) (i : Nat) (x : RefIn) : (setRef s i x).ra = s.ra := rfl

@[simp] theorem setRef_ev (s : State) (i : Nat) (x : RefIn) : (setRef s i x).ev = s.ev := rfl

@[simp] theorem setRef_mem (s : State) (i : Nat) (x : RefIn) : (setRef s i x).mem = s.mem := rfl

@[simp] theorem setRef_arr (s : State) (i : Nat) (x : RefIn) : (setRef s i x).arr = s.arr := rfl

@[simp] theorem setRef_col (s : State) (i : Nat) (x : RefIn) : (setRef s i x).col = s.col := rfl

@[simp] theorem setRef_tile (s : State) (i : Nat) (x : RefIn) : (setRef s i x).tile = s.tile := rfl

@[simp] theorem setRef_mq (s : State) (i : Nat) (x : RefIn) : (setRef s i x).mq = s.mq := rfl

@[simp] theorem setRef_ce (s : State) (i : Nat) (x : RefIn) : (setRef s i x).ce = s.ce := rfl

@[simp] theorem setRef_fh (s : State) (i : Nat) (x : RefIn) : (setRef s i x).fh = s.fh := rfl

@[simp] theorem setRef_cv (s : State) (i : Nat) (x : RefIn) : (setRef s i x).cv = s.cv := rfl

@[simp] theorem setRef_core (s : State) (i : Nat) (x : RefIn) : (setRef s i x).core = s.core := rfl

@[simp] theorem setRef_err (s : State) (i : Nat) (x : RefIn) : (setRef s i x).err = s.err := rfl

@[simp] theorem setRef_retired (s : State) (i : Nat) (x : RefIn) : (setRef s i x).retired = s.retired := rfl

@[simp] theorem setRef_smb (s : State) (i : Nat) (x : RefIn) : (setRef s i x).smb = s.smb := rfl

@[simp] theorem setRef_readOut (s : State) (i : Nat) (x : RefIn) : (setRef s i x).readOut = s.readOut := rfl

@[simp] theorem setRef_tick (s : State) (i : Nat) (x : RefIn) : (setRef s i x).tick = s.tick := rfl

@[simp] theorem setRef_sclk (s : State) (i : Nat) (x : RefIn) : (setRef s i x).sclk = s.sclk := rfl

@[simp] theorem setRef_hclk (s : State) (i : Nat) (x : RefIn) : (setRef s i x).hclk = s.hclk := rfl

@[simp] theorem setRef_choice (s : State) (i : Nat) (x : RefIn) : (setRef s i x).choice = s.choice := rfl

@[simp] theorem setInst_pending (s : State) (n : Nat) (i : Inst) : (setInst s n i).pending = s.pending := rfl

@[simp] theorem setInst_fuse (s : State) (n : Nat) (i : Inst) : (setInst s n i).fuse = s.fuse := rfl

@[simp] theorem setInst_flash (s : State) (n : Nat) (i : Inst) : (setInst s n i).flash = s.flash := rfl

@[simp] theorem setInst_boot (s : State) (n : Nat) (i : Inst) : (setInst s n i).boot = s.boot := rfl

@[simp] theorem setInst_mbox (s : State) (n : Nat) (i : Inst) : (setInst s n i).mbox = s.mbox := rfl

@[simp] theorem setInst_link (s : State) (n : Nat) (i : Inst) : (setInst s n i).link = s.link := rfl

@[simp] theorem setInst_feat (s : State) (n : Nat) (i : Inst) : (setInst s n i).feat = s.feat := rfl

@[simp] theorem setInst_limits (s : State) (n : Nat) (i : Inst) : (setInst s n i).limits = s.limits := rfl

@[simp] theorem setInst_regs (s : State) (n : Nat) (i : Inst) : (setInst s n i).regs = s.regs := rfl

@[simp] theorem setInst_held (s : State) (n : Nat) (i : Inst) : (setInst s n i).held = s.held := rfl

@[simp] theorem setInst_flags (s : State) (n : Nat) (i : Inst) : (setInst s n i).flags = s.flags := rfl

@[simp] theorem setInst_occ (s : State) (n : Nat) (i : Inst) : (setInst s n i).occ = s.occ := rfl

@[simp] theorem setInst_etu (s : State) (n : Nat) (i : Inst) : (setInst s n i).etu = s.etu := rfl

@[simp] theorem setInst_pat (s : State) (n : Nat) (i : Inst) : (setInst s n i).pat = s.pat := rfl

@[simp] theorem setInst_jd (s : State) (n : Nat) (i : Inst) : (setInst s n i).jd = s.jd := rfl

@[simp] theorem setInst_power (s : State) (n : Nat) (i : Inst) : (setInst s n i).power = s.power := rfl

@[simp] theorem setInst_tap (s : State) (n : Nat) (i : Inst) : (setInst s n i).tap = s.tap := rfl

@[simp] theorem setInst_ring (s : State) (n : Nat) (i : Inst) : (setInst s n i).ring = s.ring := rfl

@[simp] theorem setInst_arb (s : State) (n : Nat) (i : Inst) : (setInst s n i).arb = s.arb := rfl

@[simp] theorem setInst_runs (s : State) (n : Nat) (i : Inst) : (setInst s n i).runs = s.runs := rfl

@[simp] theorem setInst_ra (s : State) (n : Nat) (i : Inst) : (setInst s n i).ra = s.ra := rfl

@[simp] theorem setInst_ev (s : State) (n : Nat) (i : Inst) : (setInst s n i).ev = s.ev := rfl

@[simp] theorem setInst_mem (s : State) (n : Nat) (i : Inst) : (setInst s n i).mem = s.mem := rfl

@[simp] theorem setInst_arr (s : State) (n : Nat) (i : Inst) : (setInst s n i).arr = s.arr := rfl

@[simp] theorem setInst_col (s : State) (n : Nat) (i : Inst) : (setInst s n i).col = s.col := rfl

@[simp] theorem setInst_tile (s : State) (n : Nat) (i : Inst) : (setInst s n i).tile = s.tile := rfl

@[simp] theorem setInst_mq (s : State) (n : Nat) (i : Inst) : (setInst s n i).mq = s.mq := rfl

@[simp] theorem setInst_ce (s : State) (n : Nat) (i : Inst) : (setInst s n i).ce = s.ce := rfl

@[simp] theorem setInst_fh (s : State) (n : Nat) (i : Inst) : (setInst s n i).fh = s.fh := rfl

@[simp] theorem setInst_cv (s : State) (n : Nat) (i : Inst) : (setInst s n i).cv = s.cv := rfl

@[simp] theorem setInst_core (s : State) (n : Nat) (i : Inst) : (setInst s n i).core = s.core := rfl

@[simp] theorem setInst_err (s : State) (n : Nat) (i : Inst) : (setInst s n i).err = s.err := rfl

@[simp] theorem setInst_retired (s : State) (n : Nat) (i : Inst) : (setInst s n i).retired = s.retired := rfl

@[simp] theorem setInst_smb (s : State) (n : Nat) (i : Inst) : (setInst s n i).smb = s.smb := rfl

@[simp] theorem setInst_readOut (s : State) (n : Nat) (i : Inst) : (setInst s n i).readOut = s.readOut := rfl

@[simp] theorem setInst_tick (s : State) (n : Nat) (i : Inst) : (setInst s n i).tick = s.tick := rfl

@[simp] theorem setInst_sclk (s : State) (n : Nat) (i : Inst) : (setInst s n i).sclk = s.sclk := rfl

@[simp] theorem setInst_hclk (s : State) (n : Nat) (i : Inst) : (setInst s n i).hclk = s.hclk := rfl

@[simp] theorem setInst_choice (s : State) (n : Nat) (i : Inst) : (setInst s n i).choice = s.choice := rfl

@[simp] theorem setJd_pending (s : State) (n : Nat) (x : Jd) : (setJd s n x).pending = s.pending := rfl

@[simp] theorem setJd_fuse (s : State) (n : Nat) (x : Jd) : (setJd s n x).fuse = s.fuse := rfl

@[simp] theorem setJd_flash (s : State) (n : Nat) (x : Jd) : (setJd s n x).flash = s.flash := rfl

@[simp] theorem setJd_boot (s : State) (n : Nat) (x : Jd) : (setJd s n x).boot = s.boot := rfl

@[simp] theorem setJd_mbox (s : State) (n : Nat) (x : Jd) : (setJd s n x).mbox = s.mbox := rfl

@[simp] theorem setJd_link (s : State) (n : Nat) (x : Jd) : (setJd s n x).link = s.link := rfl

@[simp] theorem setJd_feat (s : State) (n : Nat) (x : Jd) : (setJd s n x).feat = s.feat := rfl

@[simp] theorem setJd_limits (s : State) (n : Nat) (x : Jd) : (setJd s n x).limits = s.limits := rfl

@[simp] theorem setJd_regs (s : State) (n : Nat) (x : Jd) : (setJd s n x).regs = s.regs := rfl

@[simp] theorem setJd_held (s : State) (n : Nat) (x : Jd) : (setJd s n x).held = s.held := rfl

@[simp] theorem setJd_flags (s : State) (n : Nat) (x : Jd) : (setJd s n x).flags = s.flags := rfl

@[simp] theorem setJd_occ (s : State) (n : Nat) (x : Jd) : (setJd s n x).occ = s.occ := rfl

@[simp] theorem setJd_etu (s : State) (n : Nat) (x : Jd) : (setJd s n x).etu = s.etu := rfl

@[simp] theorem setJd_inst (s : State) (n : Nat) (x : Jd) : (setJd s n x).inst = s.inst := rfl

@[simp] theorem setJd_pat (s : State) (n : Nat) (x : Jd) : (setJd s n x).pat = s.pat := rfl

@[simp] theorem setJd_power (s : State) (n : Nat) (x : Jd) : (setJd s n x).power = s.power := rfl

@[simp] theorem setJd_tap (s : State) (n : Nat) (x : Jd) : (setJd s n x).tap = s.tap := rfl

@[simp] theorem setJd_ring (s : State) (n : Nat) (x : Jd) : (setJd s n x).ring = s.ring := rfl

@[simp] theorem setJd_arb (s : State) (n : Nat) (x : Jd) : (setJd s n x).arb = s.arb := rfl

@[simp] theorem setJd_runs (s : State) (n : Nat) (x : Jd) : (setJd s n x).runs = s.runs := rfl

@[simp] theorem setJd_ra (s : State) (n : Nat) (x : Jd) : (setJd s n x).ra = s.ra := rfl

@[simp] theorem setJd_ev (s : State) (n : Nat) (x : Jd) : (setJd s n x).ev = s.ev := rfl

@[simp] theorem setJd_mem (s : State) (n : Nat) (x : Jd) : (setJd s n x).mem = s.mem := rfl

@[simp] theorem setJd_arr (s : State) (n : Nat) (x : Jd) : (setJd s n x).arr = s.arr := rfl

@[simp] theorem setJd_col (s : State) (n : Nat) (x : Jd) : (setJd s n x).col = s.col := rfl

@[simp] theorem setJd_tile (s : State) (n : Nat) (x : Jd) : (setJd s n x).tile = s.tile := rfl

@[simp] theorem setJd_mq (s : State) (n : Nat) (x : Jd) : (setJd s n x).mq = s.mq := rfl

@[simp] theorem setJd_ce (s : State) (n : Nat) (x : Jd) : (setJd s n x).ce = s.ce := rfl

@[simp] theorem setJd_fh (s : State) (n : Nat) (x : Jd) : (setJd s n x).fh = s.fh := rfl

@[simp] theorem setJd_cv (s : State) (n : Nat) (x : Jd) : (setJd s n x).cv = s.cv := rfl

@[simp] theorem setJd_core (s : State) (n : Nat) (x : Jd) : (setJd s n x).core = s.core := rfl

@[simp] theorem setJd_err (s : State) (n : Nat) (x : Jd) : (setJd s n x).err = s.err := rfl

@[simp] theorem setJd_retired (s : State) (n : Nat) (x : Jd) : (setJd s n x).retired = s.retired := rfl

@[simp] theorem setJd_smb (s : State) (n : Nat) (x : Jd) : (setJd s n x).smb = s.smb := rfl

@[simp] theorem setJd_readOut (s : State) (n : Nat) (x : Jd) : (setJd s n x).readOut = s.readOut := rfl

@[simp] theorem setJd_tick (s : State) (n : Nat) (x : Jd) : (setJd s n x).tick = s.tick := rfl

@[simp] theorem setJd_sclk (s : State) (n : Nat) (x : Jd) : (setJd s n x).sclk = s.sclk := rfl

@[simp] theorem setJd_hclk (s : State) (n : Nat) (x : Jd) : (setJd s n x).hclk = s.hclk := rfl

@[simp] theorem setJd_choice (s : State) (n : Nat) (x : Jd) : (setJd s n x).choice = s.choice := rfl

@[simp] theorem setArr_pending (s : State) (a : Nat) (x : Arr) : (setArr s a x).pending = s.pending := rfl

@[simp] theorem setArr_fuse (s : State) (a : Nat) (x : Arr) : (setArr s a x).fuse = s.fuse := rfl

@[simp] theorem setArr_flash (s : State) (a : Nat) (x : Arr) : (setArr s a x).flash = s.flash := rfl

@[simp] theorem setArr_boot (s : State) (a : Nat) (x : Arr) : (setArr s a x).boot = s.boot := rfl

@[simp] theorem setArr_mbox (s : State) (a : Nat) (x : Arr) : (setArr s a x).mbox = s.mbox := rfl

@[simp] theorem setArr_link (s : State) (a : Nat) (x : Arr) : (setArr s a x).link = s.link := rfl

@[simp] theorem setArr_feat (s : State) (a : Nat) (x : Arr) : (setArr s a x).feat = s.feat := rfl

@[simp] theorem setArr_limits (s : State) (a : Nat) (x : Arr) : (setArr s a x).limits = s.limits := rfl

@[simp] theorem setArr_regs (s : State) (a : Nat) (x : Arr) : (setArr s a x).regs = s.regs := rfl

@[simp] theorem setArr_held (s : State) (a : Nat) (x : Arr) : (setArr s a x).held = s.held := rfl

@[simp] theorem setArr_flags (s : State) (a : Nat) (x : Arr) : (setArr s a x).flags = s.flags := rfl

@[simp] theorem setArr_occ (s : State) (a : Nat) (x : Arr) : (setArr s a x).occ = s.occ := rfl

@[simp] theorem setArr_etu (s : State) (a : Nat) (x : Arr) : (setArr s a x).etu = s.etu := rfl

@[simp] theorem setArr_inst (s : State) (a : Nat) (x : Arr) : (setArr s a x).inst = s.inst := rfl

@[simp] theorem setArr_pat (s : State) (a : Nat) (x : Arr) : (setArr s a x).pat = s.pat := rfl

@[simp] theorem setArr_jd (s : State) (a : Nat) (x : Arr) : (setArr s a x).jd = s.jd := rfl

@[simp] theorem setArr_power (s : State) (a : Nat) (x : Arr) : (setArr s a x).power = s.power := rfl

@[simp] theorem setArr_tap (s : State) (a : Nat) (x : Arr) : (setArr s a x).tap = s.tap := rfl

@[simp] theorem setArr_ring (s : State) (a : Nat) (x : Arr) : (setArr s a x).ring = s.ring := rfl

@[simp] theorem setArr_arb (s : State) (a : Nat) (x : Arr) : (setArr s a x).arb = s.arb := rfl

@[simp] theorem setArr_runs (s : State) (a : Nat) (x : Arr) : (setArr s a x).runs = s.runs := rfl

@[simp] theorem setArr_ra (s : State) (a : Nat) (x : Arr) : (setArr s a x).ra = s.ra := rfl

@[simp] theorem setArr_ev (s : State) (a : Nat) (x : Arr) : (setArr s a x).ev = s.ev := rfl

@[simp] theorem setArr_mem (s : State) (a : Nat) (x : Arr) : (setArr s a x).mem = s.mem := rfl

@[simp] theorem setArr_col (s : State) (a : Nat) (x : Arr) : (setArr s a x).col = s.col := rfl

@[simp] theorem setArr_tile (s : State) (a : Nat) (x : Arr) : (setArr s a x).tile = s.tile := rfl

@[simp] theorem setArr_mq (s : State) (a : Nat) (x : Arr) : (setArr s a x).mq = s.mq := rfl

@[simp] theorem setArr_ce (s : State) (a : Nat) (x : Arr) : (setArr s a x).ce = s.ce := rfl

@[simp] theorem setArr_fh (s : State) (a : Nat) (x : Arr) : (setArr s a x).fh = s.fh := rfl

@[simp] theorem setArr_cv (s : State) (a : Nat) (x : Arr) : (setArr s a x).cv = s.cv := rfl

@[simp] theorem setArr_core (s : State) (a : Nat) (x : Arr) : (setArr s a x).core = s.core := rfl

@[simp] theorem setArr_err (s : State) (a : Nat) (x : Arr) : (setArr s a x).err = s.err := rfl

@[simp] theorem setArr_retired (s : State) (a : Nat) (x : Arr) : (setArr s a x).retired = s.retired := rfl

@[simp] theorem setArr_smb (s : State) (a : Nat) (x : Arr) : (setArr s a x).smb = s.smb := rfl

@[simp] theorem setArr_readOut (s : State) (a : Nat) (x : Arr) : (setArr s a x).readOut = s.readOut := rfl

@[simp] theorem setArr_tick (s : State) (a : Nat) (x : Arr) : (setArr s a x).tick = s.tick := rfl

@[simp] theorem setArr_sclk (s : State) (a : Nat) (x : Arr) : (setArr s a x).sclk = s.sclk := rfl

@[simp] theorem setArr_hclk (s : State) (a : Nat) (x : Arr) : (setArr s a x).hclk = s.hclk := rfl

@[simp] theorem setArr_choice (s : State) (a : Nat) (x : Arr) : (setArr s a x).choice = s.choice := rfl

@[simp] theorem setTile_pending (s : State) (t : Nat) (x : Tile) : (setTile s t x).pending = s.pending := rfl

@[simp] theorem setTile_fuse (s : State) (t : Nat) (x : Tile) : (setTile s t x).fuse = s.fuse := rfl

@[simp] theorem setTile_flash (s : State) (t : Nat) (x : Tile) : (setTile s t x).flash = s.flash := rfl

@[simp] theorem setTile_boot (s : State) (t : Nat) (x : Tile) : (setTile s t x).boot = s.boot := rfl

@[simp] theorem setTile_mbox (s : State) (t : Nat) (x : Tile) : (setTile s t x).mbox = s.mbox := rfl

@[simp] theorem setTile_link (s : State) (t : Nat) (x : Tile) : (setTile s t x).link = s.link := rfl

@[simp] theorem setTile_feat (s : State) (t : Nat) (x : Tile) : (setTile s t x).feat = s.feat := rfl

@[simp] theorem setTile_limits (s : State) (t : Nat) (x : Tile) : (setTile s t x).limits = s.limits := rfl

@[simp] theorem setTile_regs (s : State) (t : Nat) (x : Tile) : (setTile s t x).regs = s.regs := rfl

@[simp] theorem setTile_held (s : State) (t : Nat) (x : Tile) : (setTile s t x).held = s.held := rfl

@[simp] theorem setTile_flags (s : State) (t : Nat) (x : Tile) : (setTile s t x).flags = s.flags := rfl

@[simp] theorem setTile_occ (s : State) (t : Nat) (x : Tile) : (setTile s t x).occ = s.occ := rfl

@[simp] theorem setTile_etu (s : State) (t : Nat) (x : Tile) : (setTile s t x).etu = s.etu := rfl

@[simp] theorem setTile_inst (s : State) (t : Nat) (x : Tile) : (setTile s t x).inst = s.inst := rfl

@[simp] theorem setTile_pat (s : State) (t : Nat) (x : Tile) : (setTile s t x).pat = s.pat := rfl

@[simp] theorem setTile_jd (s : State) (t : Nat) (x : Tile) : (setTile s t x).jd = s.jd := rfl

@[simp] theorem setTile_power (s : State) (t : Nat) (x : Tile) : (setTile s t x).power = s.power := rfl

@[simp] theorem setTile_tap (s : State) (t : Nat) (x : Tile) : (setTile s t x).tap = s.tap := rfl

@[simp] theorem setTile_ring (s : State) (t : Nat) (x : Tile) : (setTile s t x).ring = s.ring := rfl

@[simp] theorem setTile_arb (s : State) (t : Nat) (x : Tile) : (setTile s t x).arb = s.arb := rfl

@[simp] theorem setTile_runs (s : State) (t : Nat) (x : Tile) : (setTile s t x).runs = s.runs := rfl

@[simp] theorem setTile_ra (s : State) (t : Nat) (x : Tile) : (setTile s t x).ra = s.ra := rfl

@[simp] theorem setTile_ev (s : State) (t : Nat) (x : Tile) : (setTile s t x).ev = s.ev := rfl

@[simp] theorem setTile_mem (s : State) (t : Nat) (x : Tile) : (setTile s t x).mem = s.mem := rfl

@[simp] theorem setTile_arr (s : State) (t : Nat) (x : Tile) : (setTile s t x).arr = s.arr := rfl

@[simp] theorem setTile_col (s : State) (t : Nat) (x : Tile) : (setTile s t x).col = s.col := rfl

@[simp] theorem setTile_mq (s : State) (t : Nat) (x : Tile) : (setTile s t x).mq = s.mq := rfl

@[simp] theorem setTile_ce (s : State) (t : Nat) (x : Tile) : (setTile s t x).ce = s.ce := rfl

@[simp] theorem setTile_fh (s : State) (t : Nat) (x : Tile) : (setTile s t x).fh = s.fh := rfl

@[simp] theorem setTile_cv (s : State) (t : Nat) (x : Tile) : (setTile s t x).cv = s.cv := rfl

@[simp] theorem setTile_core (s : State) (t : Nat) (x : Tile) : (setTile s t x).core = s.core := rfl

@[simp] theorem setTile_err (s : State) (t : Nat) (x : Tile) : (setTile s t x).err = s.err := rfl

@[simp] theorem setTile_retired (s : State) (t : Nat) (x : Tile) : (setTile s t x).retired = s.retired := rfl

@[simp] theorem setTile_smb (s : State) (t : Nat) (x : Tile) : (setTile s t x).smb = s.smb := rfl

@[simp] theorem setTile_readOut (s : State) (t : Nat) (x : Tile) : (setTile s t x).readOut = s.readOut := rfl

@[simp] theorem setTile_tick (s : State) (t : Nat) (x : Tile) : (setTile s t x).tick = s.tick := rfl

@[simp] theorem setTile_sclk (s : State) (t : Nat) (x : Tile) : (setTile s t x).sclk = s.sclk := rfl

@[simp] theorem setTile_hclk (s : State) (t : Nat) (x : Tile) : (setTile s t x).hclk = s.hclk := rfl

@[simp] theorem setTile_choice (s : State) (t : Nat) (x : Tile) : (setTile s t x).choice = s.choice := rfl

@[simp] theorem setCarrier_pending (s : State) (c : Nat) (x : Carrier) : (setCarrier s c x).pending = s.pending := rfl

@[simp] theorem setCarrier_fuse (s : State) (c : Nat) (x : Carrier) : (setCarrier s c x).fuse = s.fuse := rfl

@[simp] theorem setCarrier_flash (s : State) (c : Nat) (x : Carrier) : (setCarrier s c x).flash = s.flash := rfl

@[simp] theorem setCarrier_boot (s : State) (c : Nat) (x : Carrier) : (setCarrier s c x).boot = s.boot := rfl

@[simp] theorem setCarrier_mbox (s : State) (c : Nat) (x : Carrier) : (setCarrier s c x).mbox = s.mbox := rfl

@[simp] theorem setCarrier_link (s : State) (c : Nat) (x : Carrier) : (setCarrier s c x).link = s.link := rfl

@[simp] theorem setCarrier_feat (s : State) (c : Nat) (x : Carrier) : (setCarrier s c x).feat = s.feat := rfl

@[simp] theorem setCarrier_limits (s : State) (c : Nat) (x : Carrier) : (setCarrier s c x).limits = s.limits := rfl

@[simp] theorem setCarrier_regs (s : State) (c : Nat) (x : Carrier) : (setCarrier s c x).regs = s.regs := rfl

@[simp] theorem setCarrier_held (s : State) (c : Nat) (x : Carrier) : (setCarrier s c x).held = s.held := rfl

@[simp] theorem setCarrier_flags (s : State) (c : Nat) (x : Carrier) : (setCarrier s c x).flags = s.flags := rfl

@[simp] theorem setCarrier_occ (s : State) (c : Nat) (x : Carrier) : (setCarrier s c x).occ = s.occ := rfl

@[simp] theorem setCarrier_etu (s : State) (c : Nat) (x : Carrier) : (setCarrier s c x).etu = s.etu := rfl

@[simp] theorem setCarrier_inst (s : State) (c : Nat) (x : Carrier) : (setCarrier s c x).inst = s.inst := rfl

@[simp] theorem setCarrier_pat (s : State) (c : Nat) (x : Carrier) : (setCarrier s c x).pat = s.pat := rfl

@[simp] theorem setCarrier_jd (s : State) (c : Nat) (x : Carrier) : (setCarrier s c x).jd = s.jd := rfl

@[simp] theorem setCarrier_power (s : State) (c : Nat) (x : Carrier) : (setCarrier s c x).power = s.power := rfl

@[simp] theorem setCarrier_tap (s : State) (c : Nat) (x : Carrier) : (setCarrier s c x).tap = s.tap := rfl

@[simp] theorem setCarrier_ring (s : State) (c : Nat) (x : Carrier) : (setCarrier s c x).ring = s.ring := rfl

@[simp] theorem setCarrier_arb (s : State) (c : Nat) (x : Carrier) : (setCarrier s c x).arb = s.arb := rfl

@[simp] theorem setCarrier_runs (s : State) (c : Nat) (x : Carrier) : (setCarrier s c x).runs = s.runs := rfl

@[simp] theorem setCarrier_ra (s : State) (c : Nat) (x : Carrier) : (setCarrier s c x).ra = s.ra := rfl

@[simp] theorem setCarrier_ev (s : State) (c : Nat) (x : Carrier) : (setCarrier s c x).ev = s.ev := rfl

@[simp] theorem setCarrier_mem (s : State) (c : Nat) (x : Carrier) : (setCarrier s c x).mem = s.mem := rfl

@[simp] theorem setCarrier_arr (s : State) (c : Nat) (x : Carrier) : (setCarrier s c x).arr = s.arr := rfl

@[simp] theorem setCarrier_col (s : State) (c : Nat) (x : Carrier) : (setCarrier s c x).col = s.col := rfl

@[simp] theorem setCarrier_tile (s : State) (c : Nat) (x : Carrier) : (setCarrier s c x).tile = s.tile := rfl

@[simp] theorem setCarrier_mq (s : State) (c : Nat) (x : Carrier) : (setCarrier s c x).mq = s.mq := rfl

@[simp] theorem setCarrier_ce (s : State) (c : Nat) (x : Carrier) : (setCarrier s c x).ce = s.ce := rfl

@[simp] theorem setCarrier_cv (s : State) (c : Nat) (x : Carrier) : (setCarrier s c x).cv = s.cv := rfl

@[simp] theorem setCarrier_core (s : State) (c : Nat) (x : Carrier) : (setCarrier s c x).core = s.core := rfl

@[simp] theorem setCarrier_err (s : State) (c : Nat) (x : Carrier) : (setCarrier s c x).err = s.err := rfl

@[simp] theorem setCarrier_retired (s : State) (c : Nat) (x : Carrier) : (setCarrier s c x).retired = s.retired := rfl

@[simp] theorem setCarrier_smb (s : State) (c : Nat) (x : Carrier) : (setCarrier s c x).smb = s.smb := rfl

@[simp] theorem setCarrier_readOut (s : State) (c : Nat) (x : Carrier) : (setCarrier s c x).readOut = s.readOut := rfl

@[simp] theorem setCarrier_tick (s : State) (c : Nat) (x : Carrier) : (setCarrier s c x).tick = s.tick := rfl

@[simp] theorem setCarrier_sclk (s : State) (c : Nat) (x : Carrier) : (setCarrier s c x).sclk = s.sclk := rfl

@[simp] theorem setCarrier_hclk (s : State) (c : Nat) (x : Carrier) : (setCarrier s c x).hclk = s.hclk := rfl

@[simp] theorem setCarrier_choice (s : State) (c : Nat) (x : Carrier) : (setCarrier s c x).choice = s.choice := rfl

@[simp] theorem setPort_pending (s : State) (p : Nat) (x : Port) : (setPort s p x).pending = s.pending := rfl

@[simp] theorem setPort_fuse (s : State) (p : Nat) (x : Port) : (setPort s p x).fuse = s.fuse := rfl

@[simp] theorem setPort_flash (s : State) (p : Nat) (x : Port) : (setPort s p x).flash = s.flash := rfl

@[simp] theorem setPort_boot (s : State) (p : Nat) (x : Port) : (setPort s p x).boot = s.boot := rfl

@[simp] theorem setPort_mbox (s : State) (p : Nat) (x : Port) : (setPort s p x).mbox = s.mbox := rfl

@[simp] theorem setPort_link (s : State) (p : Nat) (x : Port) : (setPort s p x).link = s.link := rfl

@[simp] theorem setPort_feat (s : State) (p : Nat) (x : Port) : (setPort s p x).feat = s.feat := rfl

@[simp] theorem setPort_limits (s : State) (p : Nat) (x : Port) : (setPort s p x).limits = s.limits := rfl

@[simp] theorem setPort_regs (s : State) (p : Nat) (x : Port) : (setPort s p x).regs = s.regs := rfl

@[simp] theorem setPort_held (s : State) (p : Nat) (x : Port) : (setPort s p x).held = s.held := rfl

@[simp] theorem setPort_flags (s : State) (p : Nat) (x : Port) : (setPort s p x).flags = s.flags := rfl

@[simp] theorem setPort_occ (s : State) (p : Nat) (x : Port) : (setPort s p x).occ = s.occ := rfl

@[simp] theorem setPort_etu (s : State) (p : Nat) (x : Port) : (setPort s p x).etu = s.etu := rfl

@[simp] theorem setPort_inst (s : State) (p : Nat) (x : Port) : (setPort s p x).inst = s.inst := rfl

@[simp] theorem setPort_pat (s : State) (p : Nat) (x : Port) : (setPort s p x).pat = s.pat := rfl

@[simp] theorem setPort_jd (s : State) (p : Nat) (x : Port) : (setPort s p x).jd = s.jd := rfl

@[simp] theorem setPort_power (s : State) (p : Nat) (x : Port) : (setPort s p x).power = s.power := rfl

@[simp] theorem setPort_tap (s : State) (p : Nat) (x : Port) : (setPort s p x).tap = s.tap := rfl

@[simp] theorem setPort_ring (s : State) (p : Nat) (x : Port) : (setPort s p x).ring = s.ring := rfl

@[simp] theorem setPort_arb (s : State) (p : Nat) (x : Port) : (setPort s p x).arb = s.arb := rfl

@[simp] theorem setPort_runs (s : State) (p : Nat) (x : Port) : (setPort s p x).runs = s.runs := rfl

@[simp] theorem setPort_ra (s : State) (p : Nat) (x : Port) : (setPort s p x).ra = s.ra := rfl

@[simp] theorem setPort_ev (s : State) (p : Nat) (x : Port) : (setPort s p x).ev = s.ev := rfl

@[simp] theorem setPort_mem (s : State) (p : Nat) (x : Port) : (setPort s p x).mem = s.mem := rfl

@[simp] theorem setPort_arr (s : State) (p : Nat) (x : Port) : (setPort s p x).arr = s.arr := rfl

@[simp] theorem setPort_col (s : State) (p : Nat) (x : Port) : (setPort s p x).col = s.col := rfl

@[simp] theorem setPort_tile (s : State) (p : Nat) (x : Port) : (setPort s p x).tile = s.tile := rfl

@[simp] theorem setPort_mq (s : State) (p : Nat) (x : Port) : (setPort s p x).mq = s.mq := rfl

@[simp] theorem setPort_ce (s : State) (p : Nat) (x : Port) : (setPort s p x).ce = s.ce := rfl

@[simp] theorem setPort_cv (s : State) (p : Nat) (x : Port) : (setPort s p x).cv = s.cv := rfl

@[simp] theorem setPort_core (s : State) (p : Nat) (x : Port) : (setPort s p x).core = s.core := rfl

@[simp] theorem setPort_err (s : State) (p : Nat) (x : Port) : (setPort s p x).err = s.err := rfl

@[simp] theorem setPort_retired (s : State) (p : Nat) (x : Port) : (setPort s p x).retired = s.retired := rfl

@[simp] theorem setPort_smb (s : State) (p : Nat) (x : Port) : (setPort s p x).smb = s.smb := rfl

@[simp] theorem setPort_readOut (s : State) (p : Nat) (x : Port) : (setPort s p x).readOut = s.readOut := rfl

@[simp] theorem setPort_tick (s : State) (p : Nat) (x : Port) : (setPort s p x).tick = s.tick := rfl

@[simp] theorem setPort_sclk (s : State) (p : Nat) (x : Port) : (setPort s p x).sclk = s.sclk := rfl

@[simp] theorem setPort_hclk (s : State) (p : Nat) (x : Port) : (setPort s p x).hclk = s.hclk := rfl

@[simp] theorem setPort_choice (s : State) (p : Nat) (x : Port) : (setPort s p x).choice = s.choice := rfl

@[simp] theorem setSeq_pending (s : State) (e : Nat) (q : EaxcSeq) : (setSeq s e q).pending = s.pending := rfl

@[simp] theorem setSeq_fuse (s : State) (e : Nat) (q : EaxcSeq) : (setSeq s e q).fuse = s.fuse := rfl

@[simp] theorem setSeq_flash (s : State) (e : Nat) (q : EaxcSeq) : (setSeq s e q).flash = s.flash := rfl

@[simp] theorem setSeq_boot (s : State) (e : Nat) (q : EaxcSeq) : (setSeq s e q).boot = s.boot := rfl

@[simp] theorem setSeq_mbox (s : State) (e : Nat) (q : EaxcSeq) : (setSeq s e q).mbox = s.mbox := rfl

@[simp] theorem setSeq_link (s : State) (e : Nat) (q : EaxcSeq) : (setSeq s e q).link = s.link := rfl

@[simp] theorem setSeq_feat (s : State) (e : Nat) (q : EaxcSeq) : (setSeq s e q).feat = s.feat := rfl

@[simp] theorem setSeq_limits (s : State) (e : Nat) (q : EaxcSeq) : (setSeq s e q).limits = s.limits := rfl

@[simp] theorem setSeq_regs (s : State) (e : Nat) (q : EaxcSeq) : (setSeq s e q).regs = s.regs := rfl

@[simp] theorem setSeq_held (s : State) (e : Nat) (q : EaxcSeq) : (setSeq s e q).held = s.held := rfl

@[simp] theorem setSeq_flags (s : State) (e : Nat) (q : EaxcSeq) : (setSeq s e q).flags = s.flags := rfl

@[simp] theorem setSeq_occ (s : State) (e : Nat) (q : EaxcSeq) : (setSeq s e q).occ = s.occ := rfl

@[simp] theorem setSeq_etu (s : State) (e : Nat) (q : EaxcSeq) : (setSeq s e q).etu = s.etu := rfl

@[simp] theorem setSeq_inst (s : State) (e : Nat) (q : EaxcSeq) : (setSeq s e q).inst = s.inst := rfl

@[simp] theorem setSeq_pat (s : State) (e : Nat) (q : EaxcSeq) : (setSeq s e q).pat = s.pat := rfl

@[simp] theorem setSeq_jd (s : State) (e : Nat) (q : EaxcSeq) : (setSeq s e q).jd = s.jd := rfl

@[simp] theorem setSeq_power (s : State) (e : Nat) (q : EaxcSeq) : (setSeq s e q).power = s.power := rfl

@[simp] theorem setSeq_tap (s : State) (e : Nat) (q : EaxcSeq) : (setSeq s e q).tap = s.tap := rfl

@[simp] theorem setSeq_ring (s : State) (e : Nat) (q : EaxcSeq) : (setSeq s e q).ring = s.ring := rfl

@[simp] theorem setSeq_arb (s : State) (e : Nat) (q : EaxcSeq) : (setSeq s e q).arb = s.arb := rfl

@[simp] theorem setSeq_runs (s : State) (e : Nat) (q : EaxcSeq) : (setSeq s e q).runs = s.runs := rfl

@[simp] theorem setSeq_ra (s : State) (e : Nat) (q : EaxcSeq) : (setSeq s e q).ra = s.ra := rfl

@[simp] theorem setSeq_ev (s : State) (e : Nat) (q : EaxcSeq) : (setSeq s e q).ev = s.ev := rfl

@[simp] theorem setSeq_mem (s : State) (e : Nat) (q : EaxcSeq) : (setSeq s e q).mem = s.mem := rfl

@[simp] theorem setSeq_arr (s : State) (e : Nat) (q : EaxcSeq) : (setSeq s e q).arr = s.arr := rfl

@[simp] theorem setSeq_col (s : State) (e : Nat) (q : EaxcSeq) : (setSeq s e q).col = s.col := rfl

@[simp] theorem setSeq_tile (s : State) (e : Nat) (q : EaxcSeq) : (setSeq s e q).tile = s.tile := rfl

@[simp] theorem setSeq_mq (s : State) (e : Nat) (q : EaxcSeq) : (setSeq s e q).mq = s.mq := rfl

@[simp] theorem setSeq_ce (s : State) (e : Nat) (q : EaxcSeq) : (setSeq s e q).ce = s.ce := rfl

@[simp] theorem setSeq_cv (s : State) (e : Nat) (q : EaxcSeq) : (setSeq s e q).cv = s.cv := rfl

@[simp] theorem setSeq_core (s : State) (e : Nat) (q : EaxcSeq) : (setSeq s e q).core = s.core := rfl

@[simp] theorem setSeq_err (s : State) (e : Nat) (q : EaxcSeq) : (setSeq s e q).err = s.err := rfl

@[simp] theorem setSeq_retired (s : State) (e : Nat) (q : EaxcSeq) : (setSeq s e q).retired = s.retired := rfl

@[simp] theorem setSeq_smb (s : State) (e : Nat) (q : EaxcSeq) : (setSeq s e q).smb = s.smb := rfl

@[simp] theorem setSeq_readOut (s : State) (e : Nat) (q : EaxcSeq) : (setSeq s e q).readOut = s.readOut := rfl

@[simp] theorem setSeq_tick (s : State) (e : Nat) (q : EaxcSeq) : (setSeq s e q).tick = s.tick := rfl

@[simp] theorem setSeq_sclk (s : State) (e : Nat) (q : EaxcSeq) : (setSeq s e q).sclk = s.sclk := rfl

@[simp] theorem setSeq_hclk (s : State) (e : Nat) (q : EaxcSeq) : (setSeq s e q).hclk = s.hclk := rfl

@[simp] theorem setSeq_choice (s : State) (e : Nat) (q : EaxcSeq) : (setSeq s e q).choice = s.choice := rfl

@[simp] theorem setLink_pending (s : State) (k : Nat) (x : CvLink) : (setLink s k x).pending = s.pending := rfl

@[simp] theorem setLink_fuse (s : State) (k : Nat) (x : CvLink) : (setLink s k x).fuse = s.fuse := rfl

@[simp] theorem setLink_flash (s : State) (k : Nat) (x : CvLink) : (setLink s k x).flash = s.flash := rfl

@[simp] theorem setLink_boot (s : State) (k : Nat) (x : CvLink) : (setLink s k x).boot = s.boot := rfl

@[simp] theorem setLink_mbox (s : State) (k : Nat) (x : CvLink) : (setLink s k x).mbox = s.mbox := rfl

@[simp] theorem setLink_link (s : State) (k : Nat) (x : CvLink) : (setLink s k x).link = s.link := rfl

@[simp] theorem setLink_feat (s : State) (k : Nat) (x : CvLink) : (setLink s k x).feat = s.feat := rfl

@[simp] theorem setLink_limits (s : State) (k : Nat) (x : CvLink) : (setLink s k x).limits = s.limits := rfl

@[simp] theorem setLink_regs (s : State) (k : Nat) (x : CvLink) : (setLink s k x).regs = s.regs := rfl

@[simp] theorem setLink_held (s : State) (k : Nat) (x : CvLink) : (setLink s k x).held = s.held := rfl

@[simp] theorem setLink_flags (s : State) (k : Nat) (x : CvLink) : (setLink s k x).flags = s.flags := rfl

@[simp] theorem setLink_occ (s : State) (k : Nat) (x : CvLink) : (setLink s k x).occ = s.occ := rfl

@[simp] theorem setLink_etu (s : State) (k : Nat) (x : CvLink) : (setLink s k x).etu = s.etu := rfl

@[simp] theorem setLink_inst (s : State) (k : Nat) (x : CvLink) : (setLink s k x).inst = s.inst := rfl

@[simp] theorem setLink_pat (s : State) (k : Nat) (x : CvLink) : (setLink s k x).pat = s.pat := rfl

@[simp] theorem setLink_jd (s : State) (k : Nat) (x : CvLink) : (setLink s k x).jd = s.jd := rfl

@[simp] theorem setLink_power (s : State) (k : Nat) (x : CvLink) : (setLink s k x).power = s.power := rfl

@[simp] theorem setLink_tap (s : State) (k : Nat) (x : CvLink) : (setLink s k x).tap = s.tap := rfl

@[simp] theorem setLink_ring (s : State) (k : Nat) (x : CvLink) : (setLink s k x).ring = s.ring := rfl

@[simp] theorem setLink_arb (s : State) (k : Nat) (x : CvLink) : (setLink s k x).arb = s.arb := rfl

@[simp] theorem setLink_runs (s : State) (k : Nat) (x : CvLink) : (setLink s k x).runs = s.runs := rfl

@[simp] theorem setLink_ra (s : State) (k : Nat) (x : CvLink) : (setLink s k x).ra = s.ra := rfl

@[simp] theorem setLink_ev (s : State) (k : Nat) (x : CvLink) : (setLink s k x).ev = s.ev := rfl

@[simp] theorem setLink_mem (s : State) (k : Nat) (x : CvLink) : (setLink s k x).mem = s.mem := rfl

@[simp] theorem setLink_arr (s : State) (k : Nat) (x : CvLink) : (setLink s k x).arr = s.arr := rfl

@[simp] theorem setLink_col (s : State) (k : Nat) (x : CvLink) : (setLink s k x).col = s.col := rfl

@[simp] theorem setLink_tile (s : State) (k : Nat) (x : CvLink) : (setLink s k x).tile = s.tile := rfl

@[simp] theorem setLink_mq (s : State) (k : Nat) (x : CvLink) : (setLink s k x).mq = s.mq := rfl

@[simp] theorem setLink_ce (s : State) (k : Nat) (x : CvLink) : (setLink s k x).ce = s.ce := rfl

@[simp] theorem setLink_fh (s : State) (k : Nat) (x : CvLink) : (setLink s k x).fh = s.fh := rfl

@[simp] theorem setLink_core (s : State) (k : Nat) (x : CvLink) : (setLink s k x).core = s.core := rfl

@[simp] theorem setLink_err (s : State) (k : Nat) (x : CvLink) : (setLink s k x).err = s.err := rfl

@[simp] theorem setLink_retired (s : State) (k : Nat) (x : CvLink) : (setLink s k x).retired = s.retired := rfl

@[simp] theorem setLink_smb (s : State) (k : Nat) (x : CvLink) : (setLink s k x).smb = s.smb := rfl

@[simp] theorem setLink_readOut (s : State) (k : Nat) (x : CvLink) : (setLink s k x).readOut = s.readOut := rfl

@[simp] theorem setLink_tick (s : State) (k : Nat) (x : CvLink) : (setLink s k x).tick = s.tick := rfl

@[simp] theorem setLink_sclk (s : State) (k : Nat) (x : CvLink) : (setLink s k x).sclk = s.sclk := rfl

@[simp] theorem setLink_hclk (s : State) (k : Nat) (x : CvLink) : (setLink s k x).hclk = s.hclk := rfl

@[simp] theorem setLink_choice (s : State) (k : Nat) (x : CvLink) : (setLink s k x).choice = s.choice := rfl

@[simp] theorem setVer_pending (s : State) (e : Nat) (v : Ver) : (setVer s e v).pending = s.pending := rfl

@[simp] theorem setVer_fuse (s : State) (e : Nat) (v : Ver) : (setVer s e v).fuse = s.fuse := rfl

@[simp] theorem setVer_flash (s : State) (e : Nat) (v : Ver) : (setVer s e v).flash = s.flash := rfl

@[simp] theorem setVer_boot (s : State) (e : Nat) (v : Ver) : (setVer s e v).boot = s.boot := rfl

@[simp] theorem setVer_mbox (s : State) (e : Nat) (v : Ver) : (setVer s e v).mbox = s.mbox := rfl

@[simp] theorem setVer_link (s : State) (e : Nat) (v : Ver) : (setVer s e v).link = s.link := rfl

@[simp] theorem setVer_feat (s : State) (e : Nat) (v : Ver) : (setVer s e v).feat = s.feat := rfl

@[simp] theorem setVer_limits (s : State) (e : Nat) (v : Ver) : (setVer s e v).limits = s.limits := rfl

@[simp] theorem setVer_regs (s : State) (e : Nat) (v : Ver) : (setVer s e v).regs = s.regs := rfl

@[simp] theorem setVer_held (s : State) (e : Nat) (v : Ver) : (setVer s e v).held = s.held := rfl

@[simp] theorem setVer_flags (s : State) (e : Nat) (v : Ver) : (setVer s e v).flags = s.flags := rfl

@[simp] theorem setVer_occ (s : State) (e : Nat) (v : Ver) : (setVer s e v).occ = s.occ := rfl

@[simp] theorem setVer_etu (s : State) (e : Nat) (v : Ver) : (setVer s e v).etu = s.etu := rfl

@[simp] theorem setVer_inst (s : State) (e : Nat) (v : Ver) : (setVer s e v).inst = s.inst := rfl

@[simp] theorem setVer_pat (s : State) (e : Nat) (v : Ver) : (setVer s e v).pat = s.pat := rfl

@[simp] theorem setVer_jd (s : State) (e : Nat) (v : Ver) : (setVer s e v).jd = s.jd := rfl

@[simp] theorem setVer_power (s : State) (e : Nat) (v : Ver) : (setVer s e v).power = s.power := rfl

@[simp] theorem setVer_tap (s : State) (e : Nat) (v : Ver) : (setVer s e v).tap = s.tap := rfl

@[simp] theorem setVer_ring (s : State) (e : Nat) (v : Ver) : (setVer s e v).ring = s.ring := rfl

@[simp] theorem setVer_arb (s : State) (e : Nat) (v : Ver) : (setVer s e v).arb = s.arb := rfl

@[simp] theorem setVer_runs (s : State) (e : Nat) (v : Ver) : (setVer s e v).runs = s.runs := rfl

@[simp] theorem setVer_ra (s : State) (e : Nat) (v : Ver) : (setVer s e v).ra = s.ra := rfl

@[simp] theorem setVer_ev (s : State) (e : Nat) (v : Ver) : (setVer s e v).ev = s.ev := rfl

@[simp] theorem setVer_mem (s : State) (e : Nat) (v : Ver) : (setVer s e v).mem = s.mem := rfl

@[simp] theorem setVer_arr (s : State) (e : Nat) (v : Ver) : (setVer s e v).arr = s.arr := rfl

@[simp] theorem setVer_col (s : State) (e : Nat) (v : Ver) : (setVer s e v).col = s.col := rfl

@[simp] theorem setVer_tile (s : State) (e : Nat) (v : Ver) : (setVer s e v).tile = s.tile := rfl

@[simp] theorem setVer_ce (s : State) (e : Nat) (v : Ver) : (setVer s e v).ce = s.ce := rfl

@[simp] theorem setVer_fh (s : State) (e : Nat) (v : Ver) : (setVer s e v).fh = s.fh := rfl

@[simp] theorem setVer_cv (s : State) (e : Nat) (v : Ver) : (setVer s e v).cv = s.cv := rfl

@[simp] theorem setVer_core (s : State) (e : Nat) (v : Ver) : (setVer s e v).core = s.core := rfl

@[simp] theorem setVer_err (s : State) (e : Nat) (v : Ver) : (setVer s e v).err = s.err := rfl

@[simp] theorem setVer_retired (s : State) (e : Nat) (v : Ver) : (setVer s e v).retired = s.retired := rfl

@[simp] theorem setVer_smb (s : State) (e : Nat) (v : Ver) : (setVer s e v).smb = s.smb := rfl

@[simp] theorem setVer_readOut (s : State) (e : Nat) (v : Ver) : (setVer s e v).readOut = s.readOut := rfl

@[simp] theorem setVer_tick (s : State) (e : Nat) (v : Ver) : (setVer s e v).tick = s.tick := rfl

@[simp] theorem setVer_sclk (s : State) (e : Nat) (v : Ver) : (setVer s e v).sclk = s.sclk := rfl

@[simp] theorem setVer_hclk (s : State) (e : Nat) (v : Ver) : (setVer s e v).hclk = s.hclk := rfl

@[simp] theorem setVer_choice (s : State) (e : Nat) (v : Ver) : (setVer s e v).choice = s.choice := rfl

@[simp] theorem setCore_pending (s : State) (c : Nat) (x : Core) : (setCore s c x).pending = s.pending := rfl

@[simp] theorem setCore_fuse (s : State) (c : Nat) (x : Core) : (setCore s c x).fuse = s.fuse := rfl

@[simp] theorem setCore_flash (s : State) (c : Nat) (x : Core) : (setCore s c x).flash = s.flash := rfl

@[simp] theorem setCore_boot (s : State) (c : Nat) (x : Core) : (setCore s c x).boot = s.boot := rfl

@[simp] theorem setCore_mbox (s : State) (c : Nat) (x : Core) : (setCore s c x).mbox = s.mbox := rfl

@[simp] theorem setCore_link (s : State) (c : Nat) (x : Core) : (setCore s c x).link = s.link := rfl

@[simp] theorem setCore_feat (s : State) (c : Nat) (x : Core) : (setCore s c x).feat = s.feat := rfl

@[simp] theorem setCore_limits (s : State) (c : Nat) (x : Core) : (setCore s c x).limits = s.limits := rfl

@[simp] theorem setCore_regs (s : State) (c : Nat) (x : Core) : (setCore s c x).regs = s.regs := rfl

@[simp] theorem setCore_held (s : State) (c : Nat) (x : Core) : (setCore s c x).held = s.held := rfl

@[simp] theorem setCore_flags (s : State) (c : Nat) (x : Core) : (setCore s c x).flags = s.flags := rfl

@[simp] theorem setCore_occ (s : State) (c : Nat) (x : Core) : (setCore s c x).occ = s.occ := rfl

@[simp] theorem setCore_etu (s : State) (c : Nat) (x : Core) : (setCore s c x).etu = s.etu := rfl

@[simp] theorem setCore_inst (s : State) (c : Nat) (x : Core) : (setCore s c x).inst = s.inst := rfl

@[simp] theorem setCore_pat (s : State) (c : Nat) (x : Core) : (setCore s c x).pat = s.pat := rfl

@[simp] theorem setCore_jd (s : State) (c : Nat) (x : Core) : (setCore s c x).jd = s.jd := rfl

@[simp] theorem setCore_power (s : State) (c : Nat) (x : Core) : (setCore s c x).power = s.power := rfl

@[simp] theorem setCore_tap (s : State) (c : Nat) (x : Core) : (setCore s c x).tap = s.tap := rfl

@[simp] theorem setCore_ring (s : State) (c : Nat) (x : Core) : (setCore s c x).ring = s.ring := rfl

@[simp] theorem setCore_arb (s : State) (c : Nat) (x : Core) : (setCore s c x).arb = s.arb := rfl

@[simp] theorem setCore_runs (s : State) (c : Nat) (x : Core) : (setCore s c x).runs = s.runs := rfl

@[simp] theorem setCore_ra (s : State) (c : Nat) (x : Core) : (setCore s c x).ra = s.ra := rfl

@[simp] theorem setCore_ev (s : State) (c : Nat) (x : Core) : (setCore s c x).ev = s.ev := rfl

@[simp] theorem setCore_mem (s : State) (c : Nat) (x : Core) : (setCore s c x).mem = s.mem := rfl

@[simp] theorem setCore_arr (s : State) (c : Nat) (x : Core) : (setCore s c x).arr = s.arr := rfl

@[simp] theorem setCore_col (s : State) (c : Nat) (x : Core) : (setCore s c x).col = s.col := rfl

@[simp] theorem setCore_tile (s : State) (c : Nat) (x : Core) : (setCore s c x).tile = s.tile := rfl

@[simp] theorem setCore_mq (s : State) (c : Nat) (x : Core) : (setCore s c x).mq = s.mq := rfl

@[simp] theorem setCore_ce (s : State) (c : Nat) (x : Core) : (setCore s c x).ce = s.ce := rfl

@[simp] theorem setCore_fh (s : State) (c : Nat) (x : Core) : (setCore s c x).fh = s.fh := rfl

@[simp] theorem setCore_cv (s : State) (c : Nat) (x : Core) : (setCore s c x).cv = s.cv := rfl

@[simp] theorem setCore_err (s : State) (c : Nat) (x : Core) : (setCore s c x).err = s.err := rfl

@[simp] theorem setCore_retired (s : State) (c : Nat) (x : Core) : (setCore s c x).retired = s.retired := rfl

@[simp] theorem setCore_smb (s : State) (c : Nat) (x : Core) : (setCore s c x).smb = s.smb := rfl

@[simp] theorem setCore_readOut (s : State) (c : Nat) (x : Core) : (setCore s c x).readOut = s.readOut := rfl

@[simp] theorem setCore_tick (s : State) (c : Nat) (x : Core) : (setCore s c x).tick = s.tick := rfl

@[simp] theorem setCore_sclk (s : State) (c : Nat) (x : Core) : (setCore s c x).sclk = s.sclk := rfl

@[simp] theorem setCore_hclk (s : State) (c : Nat) (x : Core) : (setCore s c x).hclk = s.hclk := rfl

@[simp] theorem setCore_choice (s : State) (c : Nat) (x : Core) : (setCore s c x).choice = s.choice := rfl

@[simp] theorem setCol_pending (s : State) (c : Nat) (x : Collector) : (setCol s c x).pending = s.pending := rfl

@[simp] theorem setCol_fuse (s : State) (c : Nat) (x : Collector) : (setCol s c x).fuse = s.fuse := rfl

@[simp] theorem setCol_flash (s : State) (c : Nat) (x : Collector) : (setCol s c x).flash = s.flash := rfl

@[simp] theorem setCol_boot (s : State) (c : Nat) (x : Collector) : (setCol s c x).boot = s.boot := rfl

@[simp] theorem setCol_mbox (s : State) (c : Nat) (x : Collector) : (setCol s c x).mbox = s.mbox := rfl

@[simp] theorem setCol_link (s : State) (c : Nat) (x : Collector) : (setCol s c x).link = s.link := rfl

@[simp] theorem setCol_feat (s : State) (c : Nat) (x : Collector) : (setCol s c x).feat = s.feat := rfl

@[simp] theorem setCol_limits (s : State) (c : Nat) (x : Collector) : (setCol s c x).limits = s.limits := rfl

@[simp] theorem setCol_regs (s : State) (c : Nat) (x : Collector) : (setCol s c x).regs = s.regs := rfl

@[simp] theorem setCol_held (s : State) (c : Nat) (x : Collector) : (setCol s c x).held = s.held := rfl

@[simp] theorem setCol_flags (s : State) (c : Nat) (x : Collector) : (setCol s c x).flags = s.flags := rfl

@[simp] theorem setCol_occ (s : State) (c : Nat) (x : Collector) : (setCol s c x).occ = s.occ := rfl

@[simp] theorem setCol_etu (s : State) (c : Nat) (x : Collector) : (setCol s c x).etu = s.etu := rfl

@[simp] theorem setCol_inst (s : State) (c : Nat) (x : Collector) : (setCol s c x).inst = s.inst := rfl

@[simp] theorem setCol_pat (s : State) (c : Nat) (x : Collector) : (setCol s c x).pat = s.pat := rfl

@[simp] theorem setCol_jd (s : State) (c : Nat) (x : Collector) : (setCol s c x).jd = s.jd := rfl

@[simp] theorem setCol_power (s : State) (c : Nat) (x : Collector) : (setCol s c x).power = s.power := rfl

@[simp] theorem setCol_tap (s : State) (c : Nat) (x : Collector) : (setCol s c x).tap = s.tap := rfl

@[simp] theorem setCol_ring (s : State) (c : Nat) (x : Collector) : (setCol s c x).ring = s.ring := rfl

@[simp] theorem setCol_arb (s : State) (c : Nat) (x : Collector) : (setCol s c x).arb = s.arb := rfl

@[simp] theorem setCol_runs (s : State) (c : Nat) (x : Collector) : (setCol s c x).runs = s.runs := rfl

@[simp] theorem setCol_ra (s : State) (c : Nat) (x : Collector) : (setCol s c x).ra = s.ra := rfl

@[simp] theorem setCol_ev (s : State) (c : Nat) (x : Collector) : (setCol s c x).ev = s.ev := rfl

@[simp] theorem setCol_mem (s : State) (c : Nat) (x : Collector) : (setCol s c x).mem = s.mem := rfl

@[simp] theorem setCol_arr (s : State) (c : Nat) (x : Collector) : (setCol s c x).arr = s.arr := rfl

@[simp] theorem setCol_tile (s : State) (c : Nat) (x : Collector) : (setCol s c x).tile = s.tile := rfl

@[simp] theorem setCol_mq (s : State) (c : Nat) (x : Collector) : (setCol s c x).mq = s.mq := rfl

@[simp] theorem setCol_ce (s : State) (c : Nat) (x : Collector) : (setCol s c x).ce = s.ce := rfl

@[simp] theorem setCol_fh (s : State) (c : Nat) (x : Collector) : (setCol s c x).fh = s.fh := rfl

@[simp] theorem setCol_cv (s : State) (c : Nat) (x : Collector) : (setCol s c x).cv = s.cv := rfl

@[simp] theorem setCol_core (s : State) (c : Nat) (x : Collector) : (setCol s c x).core = s.core := rfl

@[simp] theorem setCol_err (s : State) (c : Nat) (x : Collector) : (setCol s c x).err = s.err := rfl

@[simp] theorem setCol_retired (s : State) (c : Nat) (x : Collector) : (setCol s c x).retired = s.retired := rfl

@[simp] theorem setCol_smb (s : State) (c : Nat) (x : Collector) : (setCol s c x).smb = s.smb := rfl

@[simp] theorem setCol_readOut (s : State) (c : Nat) (x : Collector) : (setCol s c x).readOut = s.readOut := rfl

@[simp] theorem setCol_tick (s : State) (c : Nat) (x : Collector) : (setCol s c x).tick = s.tick := rfl

@[simp] theorem setCol_sclk (s : State) (c : Nat) (x : Collector) : (setCol s c x).sclk = s.sclk := rfl

@[simp] theorem setCol_hclk (s : State) (c : Nat) (x : Collector) : (setCol s c x).hclk = s.hclk := rfl

@[simp] theorem setCol_choice (s : State) (c : Nat) (x : Collector) : (setCol s c x).choice = s.choice := rfl

@[simp] theorem setD2d_pending (s : State) (d : Nat) (x : D2d) : (setD2d s d x).pending = s.pending := rfl

@[simp] theorem setD2d_fuse (s : State) (d : Nat) (x : D2d) : (setD2d s d x).fuse = s.fuse := rfl

@[simp] theorem setD2d_flash (s : State) (d : Nat) (x : D2d) : (setD2d s d x).flash = s.flash := rfl

@[simp] theorem setD2d_boot (s : State) (d : Nat) (x : D2d) : (setD2d s d x).boot = s.boot := rfl

@[simp] theorem setD2d_mbox (s : State) (d : Nat) (x : D2d) : (setD2d s d x).mbox = s.mbox := rfl

@[simp] theorem setD2d_link (s : State) (d : Nat) (x : D2d) : (setD2d s d x).link = s.link := rfl

@[simp] theorem setD2d_feat (s : State) (d : Nat) (x : D2d) : (setD2d s d x).feat = s.feat := rfl

@[simp] theorem setD2d_limits (s : State) (d : Nat) (x : D2d) : (setD2d s d x).limits = s.limits := rfl

@[simp] theorem setD2d_regs (s : State) (d : Nat) (x : D2d) : (setD2d s d x).regs = s.regs := rfl

@[simp] theorem setD2d_held (s : State) (d : Nat) (x : D2d) : (setD2d s d x).held = s.held := rfl

@[simp] theorem setD2d_flags (s : State) (d : Nat) (x : D2d) : (setD2d s d x).flags = s.flags := rfl

@[simp] theorem setD2d_occ (s : State) (d : Nat) (x : D2d) : (setD2d s d x).occ = s.occ := rfl

@[simp] theorem setD2d_etu (s : State) (d : Nat) (x : D2d) : (setD2d s d x).etu = s.etu := rfl

@[simp] theorem setD2d_inst (s : State) (d : Nat) (x : D2d) : (setD2d s d x).inst = s.inst := rfl

@[simp] theorem setD2d_pat (s : State) (d : Nat) (x : D2d) : (setD2d s d x).pat = s.pat := rfl

@[simp] theorem setD2d_jd (s : State) (d : Nat) (x : D2d) : (setD2d s d x).jd = s.jd := rfl

@[simp] theorem setD2d_power (s : State) (d : Nat) (x : D2d) : (setD2d s d x).power = s.power := rfl

@[simp] theorem setD2d_tap (s : State) (d : Nat) (x : D2d) : (setD2d s d x).tap = s.tap := rfl

@[simp] theorem setD2d_ring (s : State) (d : Nat) (x : D2d) : (setD2d s d x).ring = s.ring := rfl

@[simp] theorem setD2d_arb (s : State) (d : Nat) (x : D2d) : (setD2d s d x).arb = s.arb := rfl

@[simp] theorem setD2d_runs (s : State) (d : Nat) (x : D2d) : (setD2d s d x).runs = s.runs := rfl

@[simp] theorem setD2d_ra (s : State) (d : Nat) (x : D2d) : (setD2d s d x).ra = s.ra := rfl

@[simp] theorem setD2d_ev (s : State) (d : Nat) (x : D2d) : (setD2d s d x).ev = s.ev := rfl

@[simp] theorem setD2d_mem (s : State) (d : Nat) (x : D2d) : (setD2d s d x).mem = s.mem := rfl

@[simp] theorem setD2d_arr (s : State) (d : Nat) (x : D2d) : (setD2d s d x).arr = s.arr := rfl

@[simp] theorem setD2d_col (s : State) (d : Nat) (x : D2d) : (setD2d s d x).col = s.col := rfl

@[simp] theorem setD2d_tile (s : State) (d : Nat) (x : D2d) : (setD2d s d x).tile = s.tile := rfl

@[simp] theorem setD2d_mq (s : State) (d : Nat) (x : D2d) : (setD2d s d x).mq = s.mq := rfl

@[simp] theorem setD2d_ce (s : State) (d : Nat) (x : D2d) : (setD2d s d x).ce = s.ce := rfl

@[simp] theorem setD2d_fh (s : State) (d : Nat) (x : D2d) : (setD2d s d x).fh = s.fh := rfl

@[simp] theorem setD2d_cv (s : State) (d : Nat) (x : D2d) : (setD2d s d x).cv = s.cv := rfl

@[simp] theorem setD2d_core (s : State) (d : Nat) (x : D2d) : (setD2d s d x).core = s.core := rfl

@[simp] theorem setD2d_retired (s : State) (d : Nat) (x : D2d) : (setD2d s d x).retired = s.retired := rfl

@[simp] theorem setD2d_smb (s : State) (d : Nat) (x : D2d) : (setD2d s d x).smb = s.smb := rfl

@[simp] theorem setD2d_readOut (s : State) (d : Nat) (x : D2d) : (setD2d s d x).readOut = s.readOut := rfl

@[simp] theorem setD2d_tick (s : State) (d : Nat) (x : D2d) : (setD2d s d x).tick = s.tick := rfl

@[simp] theorem setD2d_sclk (s : State) (d : Nat) (x : D2d) : (setD2d s d x).sclk = s.sclk := rfl

@[simp] theorem setD2d_hclk (s : State) (d : Nat) (x : D2d) : (setD2d s d x).hclk = s.hclk := rfl

@[simp] theorem setD2d_choice (s : State) (d : Nat) (x : D2d) : (setD2d s d x).choice = s.choice := rfl

@[simp] theorem modRun_pending (s : State) (id : Nat) (f : Run → Run) : (modRun s id f).pending = s.pending := rfl

@[simp] theorem modRun_fuse (s : State) (id : Nat) (f : Run → Run) : (modRun s id f).fuse = s.fuse := rfl

@[simp] theorem modRun_flash (s : State) (id : Nat) (f : Run → Run) : (modRun s id f).flash = s.flash := rfl

@[simp] theorem modRun_boot (s : State) (id : Nat) (f : Run → Run) : (modRun s id f).boot = s.boot := rfl

@[simp] theorem modRun_mbox (s : State) (id : Nat) (f : Run → Run) : (modRun s id f).mbox = s.mbox := rfl

@[simp] theorem modRun_link (s : State) (id : Nat) (f : Run → Run) : (modRun s id f).link = s.link := rfl

@[simp] theorem modRun_feat (s : State) (id : Nat) (f : Run → Run) : (modRun s id f).feat = s.feat := rfl

@[simp] theorem modRun_limits (s : State) (id : Nat) (f : Run → Run) : (modRun s id f).limits = s.limits := rfl

@[simp] theorem modRun_regs (s : State) (id : Nat) (f : Run → Run) : (modRun s id f).regs = s.regs := rfl

@[simp] theorem modRun_held (s : State) (id : Nat) (f : Run → Run) : (modRun s id f).held = s.held := rfl

@[simp] theorem modRun_flags (s : State) (id : Nat) (f : Run → Run) : (modRun s id f).flags = s.flags := rfl

@[simp] theorem modRun_occ (s : State) (id : Nat) (f : Run → Run) : (modRun s id f).occ = s.occ := rfl

@[simp] theorem modRun_etu (s : State) (id : Nat) (f : Run → Run) : (modRun s id f).etu = s.etu := rfl

@[simp] theorem modRun_inst (s : State) (id : Nat) (f : Run → Run) : (modRun s id f).inst = s.inst := rfl

@[simp] theorem modRun_pat (s : State) (id : Nat) (f : Run → Run) : (modRun s id f).pat = s.pat := rfl

@[simp] theorem modRun_jd (s : State) (id : Nat) (f : Run → Run) : (modRun s id f).jd = s.jd := rfl

@[simp] theorem modRun_power (s : State) (id : Nat) (f : Run → Run) : (modRun s id f).power = s.power := rfl

@[simp] theorem modRun_tap (s : State) (id : Nat) (f : Run → Run) : (modRun s id f).tap = s.tap := rfl

@[simp] theorem modRun_ring (s : State) (id : Nat) (f : Run → Run) : (modRun s id f).ring = s.ring := rfl

@[simp] theorem modRun_arb (s : State) (id : Nat) (f : Run → Run) : (modRun s id f).arb = s.arb := rfl

@[simp] theorem modRun_ra (s : State) (id : Nat) (f : Run → Run) : (modRun s id f).ra = s.ra := rfl

@[simp] theorem modRun_ev (s : State) (id : Nat) (f : Run → Run) : (modRun s id f).ev = s.ev := rfl

@[simp] theorem modRun_mem (s : State) (id : Nat) (f : Run → Run) : (modRun s id f).mem = s.mem := rfl

@[simp] theorem modRun_arr (s : State) (id : Nat) (f : Run → Run) : (modRun s id f).arr = s.arr := rfl

@[simp] theorem modRun_col (s : State) (id : Nat) (f : Run → Run) : (modRun s id f).col = s.col := rfl

@[simp] theorem modRun_tile (s : State) (id : Nat) (f : Run → Run) : (modRun s id f).tile = s.tile := rfl

@[simp] theorem modRun_mq (s : State) (id : Nat) (f : Run → Run) : (modRun s id f).mq = s.mq := rfl

@[simp] theorem modRun_ce (s : State) (id : Nat) (f : Run → Run) : (modRun s id f).ce = s.ce := rfl

@[simp] theorem modRun_fh (s : State) (id : Nat) (f : Run → Run) : (modRun s id f).fh = s.fh := rfl

@[simp] theorem modRun_cv (s : State) (id : Nat) (f : Run → Run) : (modRun s id f).cv = s.cv := rfl

@[simp] theorem modRun_core (s : State) (id : Nat) (f : Run → Run) : (modRun s id f).core = s.core := rfl

@[simp] theorem modRun_err (s : State) (id : Nat) (f : Run → Run) : (modRun s id f).err = s.err := rfl

@[simp] theorem modRun_retired (s : State) (id : Nat) (f : Run → Run) : (modRun s id f).retired = s.retired := rfl

@[simp] theorem modRun_smb (s : State) (id : Nat) (f : Run → Run) : (modRun s id f).smb = s.smb := rfl

@[simp] theorem modRun_readOut (s : State) (id : Nat) (f : Run → Run) : (modRun s id f).readOut = s.readOut := rfl

@[simp] theorem modRun_tick (s : State) (id : Nat) (f : Run → Run) : (modRun s id f).tick = s.tick := rfl

@[simp] theorem modRun_sclk (s : State) (id : Nat) (f : Run → Run) : (modRun s id f).sclk = s.sclk := rfl

@[simp] theorem modRun_hclk (s : State) (id : Nat) (f : Run → Run) : (modRun s id f).hclk = s.hclk := rfl

@[simp] theorem modRun_choice (s : State) (id : Nat) (f : Run → Run) : (modRun s id f).choice = s.choice := rfl

@[simp] theorem arrive_pending (s : State) (i : Nat) : (arrive s i).pending = s.pending := rfl

@[simp] theorem arrive_fuse (s : State) (i : Nat) : (arrive s i).fuse = s.fuse := rfl

@[simp] theorem arrive_flash (s : State) (i : Nat) : (arrive s i).flash = s.flash := rfl

@[simp] theorem arrive_boot (s : State) (i : Nat) : (arrive s i).boot = s.boot := rfl

@[simp] theorem arrive_mbox (s : State) (i : Nat) : (arrive s i).mbox = s.mbox := rfl

@[simp] theorem arrive_link (s : State) (i : Nat) : (arrive s i).link = s.link := rfl

@[simp] theorem arrive_feat (s : State) (i : Nat) : (arrive s i).feat = s.feat := rfl

@[simp] theorem arrive_limits (s : State) (i : Nat) : (arrive s i).limits = s.limits := rfl

@[simp] theorem arrive_regs (s : State) (i : Nat) : (arrive s i).regs = s.regs := rfl

@[simp] theorem arrive_held (s : State) (i : Nat) : (arrive s i).held = s.held := rfl

@[simp] theorem arrive_flags (s : State) (i : Nat) : (arrive s i).flags = s.flags := rfl

@[simp] theorem arrive_occ (s : State) (i : Nat) : (arrive s i).occ = s.occ := rfl

@[simp] theorem arrive_etu (s : State) (i : Nat) : (arrive s i).etu = s.etu := rfl

@[simp] theorem arrive_inst (s : State) (i : Nat) : (arrive s i).inst = s.inst := rfl

@[simp] theorem arrive_pat (s : State) (i : Nat) : (arrive s i).pat = s.pat := rfl

@[simp] theorem arrive_jd (s : State) (i : Nat) : (arrive s i).jd = s.jd := rfl

@[simp] theorem arrive_power (s : State) (i : Nat) : (arrive s i).power = s.power := rfl

@[simp] theorem arrive_tap (s : State) (i : Nat) : (arrive s i).tap = s.tap := rfl

@[simp] theorem arrive_ring (s : State) (i : Nat) : (arrive s i).ring = s.ring := rfl

@[simp] theorem arrive_arb (s : State) (i : Nat) : (arrive s i).arb = s.arb := rfl

@[simp] theorem arrive_runs (s : State) (i : Nat) : (arrive s i).runs = s.runs := rfl

@[simp] theorem arrive_ra (s : State) (i : Nat) : (arrive s i).ra = s.ra := rfl

@[simp] theorem arrive_mem (s : State) (i : Nat) : (arrive s i).mem = s.mem := rfl

@[simp] theorem arrive_arr (s : State) (i : Nat) : (arrive s i).arr = s.arr := rfl

@[simp] theorem arrive_col (s : State) (i : Nat) : (arrive s i).col = s.col := rfl

@[simp] theorem arrive_tile (s : State) (i : Nat) : (arrive s i).tile = s.tile := rfl

@[simp] theorem arrive_mq (s : State) (i : Nat) : (arrive s i).mq = s.mq := rfl

@[simp] theorem arrive_ce (s : State) (i : Nat) : (arrive s i).ce = s.ce := rfl

@[simp] theorem arrive_fh (s : State) (i : Nat) : (arrive s i).fh = s.fh := rfl

@[simp] theorem arrive_cv (s : State) (i : Nat) : (arrive s i).cv = s.cv := rfl

@[simp] theorem arrive_core (s : State) (i : Nat) : (arrive s i).core = s.core := rfl

@[simp] theorem arrive_err (s : State) (i : Nat) : (arrive s i).err = s.err := rfl

@[simp] theorem arrive_retired (s : State) (i : Nat) : (arrive s i).retired = s.retired := rfl

@[simp] theorem arrive_smb (s : State) (i : Nat) : (arrive s i).smb = s.smb := rfl

@[simp] theorem arrive_readOut (s : State) (i : Nat) : (arrive s i).readOut = s.readOut := rfl

@[simp] theorem arrive_tick (s : State) (i : Nat) : (arrive s i).tick = s.tick := rfl

@[simp] theorem arrive_sclk (s : State) (i : Nat) : (arrive s i).sclk = s.sclk := rfl

@[simp] theorem arrive_hclk (s : State) (i : Nat) : (arrive s i).hclk = s.hclk := rfl

@[simp] theorem arrive_choice (s : State) (i : Nat) : (arrive s i).choice = s.choice := rfl

@[simp] theorem clearFlag_pending (s : State) (i : Nat) : (clearFlag s i).pending = s.pending := rfl

@[simp] theorem clearFlag_fuse (s : State) (i : Nat) : (clearFlag s i).fuse = s.fuse := rfl

@[simp] theorem clearFlag_flash (s : State) (i : Nat) : (clearFlag s i).flash = s.flash := rfl

@[simp] theorem clearFlag_boot (s : State) (i : Nat) : (clearFlag s i).boot = s.boot := rfl

@[simp] theorem clearFlag_mbox (s : State) (i : Nat) : (clearFlag s i).mbox = s.mbox := rfl

@[simp] theorem clearFlag_link (s : State) (i : Nat) : (clearFlag s i).link = s.link := rfl

@[simp] theorem clearFlag_feat (s : State) (i : Nat) : (clearFlag s i).feat = s.feat := rfl

@[simp] theorem clearFlag_limits (s : State) (i : Nat) : (clearFlag s i).limits = s.limits := rfl

@[simp] theorem clearFlag_regs (s : State) (i : Nat) : (clearFlag s i).regs = s.regs := rfl

@[simp] theorem clearFlag_held (s : State) (i : Nat) : (clearFlag s i).held = s.held := rfl

@[simp] theorem clearFlag_occ (s : State) (i : Nat) : (clearFlag s i).occ = s.occ := rfl

@[simp] theorem clearFlag_etu (s : State) (i : Nat) : (clearFlag s i).etu = s.etu := rfl

@[simp] theorem clearFlag_inst (s : State) (i : Nat) : (clearFlag s i).inst = s.inst := rfl

@[simp] theorem clearFlag_pat (s : State) (i : Nat) : (clearFlag s i).pat = s.pat := rfl

@[simp] theorem clearFlag_jd (s : State) (i : Nat) : (clearFlag s i).jd = s.jd := rfl

@[simp] theorem clearFlag_power (s : State) (i : Nat) : (clearFlag s i).power = s.power := rfl

@[simp] theorem clearFlag_tap (s : State) (i : Nat) : (clearFlag s i).tap = s.tap := rfl

@[simp] theorem clearFlag_ring (s : State) (i : Nat) : (clearFlag s i).ring = s.ring := rfl

@[simp] theorem clearFlag_arb (s : State) (i : Nat) : (clearFlag s i).arb = s.arb := rfl

@[simp] theorem clearFlag_runs (s : State) (i : Nat) : (clearFlag s i).runs = s.runs := rfl

@[simp] theorem clearFlag_ra (s : State) (i : Nat) : (clearFlag s i).ra = s.ra := rfl

@[simp] theorem clearFlag_ev (s : State) (i : Nat) : (clearFlag s i).ev = s.ev := rfl

@[simp] theorem clearFlag_mem (s : State) (i : Nat) : (clearFlag s i).mem = s.mem := rfl

@[simp] theorem clearFlag_arr (s : State) (i : Nat) : (clearFlag s i).arr = s.arr := rfl

@[simp] theorem clearFlag_col (s : State) (i : Nat) : (clearFlag s i).col = s.col := rfl

@[simp] theorem clearFlag_tile (s : State) (i : Nat) : (clearFlag s i).tile = s.tile := rfl

@[simp] theorem clearFlag_mq (s : State) (i : Nat) : (clearFlag s i).mq = s.mq := rfl

@[simp] theorem clearFlag_ce (s : State) (i : Nat) : (clearFlag s i).ce = s.ce := rfl

@[simp] theorem clearFlag_fh (s : State) (i : Nat) : (clearFlag s i).fh = s.fh := rfl

@[simp] theorem clearFlag_cv (s : State) (i : Nat) : (clearFlag s i).cv = s.cv := rfl

@[simp] theorem clearFlag_core (s : State) (i : Nat) : (clearFlag s i).core = s.core := rfl

@[simp] theorem clearFlag_err (s : State) (i : Nat) : (clearFlag s i).err = s.err := rfl

@[simp] theorem clearFlag_retired (s : State) (i : Nat) : (clearFlag s i).retired = s.retired := rfl

@[simp] theorem clearFlag_smb (s : State) (i : Nat) : (clearFlag s i).smb = s.smb := rfl

@[simp] theorem clearFlag_readOut (s : State) (i : Nat) : (clearFlag s i).readOut = s.readOut := rfl

@[simp] theorem clearFlag_tick (s : State) (i : Nat) : (clearFlag s i).tick = s.tick := rfl

@[simp] theorem clearFlag_sclk (s : State) (i : Nat) : (clearFlag s i).sclk = s.sclk := rfl

@[simp] theorem clearFlag_hclk (s : State) (i : Nat) : (clearFlag s i).hclk = s.hclk := rfl

@[simp] theorem clearFlag_choice (s : State) (i : Nat) : (clearFlag s i).choice = s.choice := rfl

@[simp] theorem takeChoice_pending (s : State) : (takeChoice s).pending = s.pending := rfl

@[simp] theorem takeChoice_fuse (s : State) : (takeChoice s).fuse = s.fuse := rfl

@[simp] theorem takeChoice_flash (s : State) : (takeChoice s).flash = s.flash := rfl

@[simp] theorem takeChoice_boot (s : State) : (takeChoice s).boot = s.boot := rfl

@[simp] theorem takeChoice_mbox (s : State) : (takeChoice s).mbox = s.mbox := rfl

@[simp] theorem takeChoice_link (s : State) : (takeChoice s).link = s.link := rfl

@[simp] theorem takeChoice_feat (s : State) : (takeChoice s).feat = s.feat := rfl

@[simp] theorem takeChoice_limits (s : State) : (takeChoice s).limits = s.limits := rfl

@[simp] theorem takeChoice_regs (s : State) : (takeChoice s).regs = s.regs := rfl

@[simp] theorem takeChoice_held (s : State) : (takeChoice s).held = s.held := rfl

@[simp] theorem takeChoice_flags (s : State) : (takeChoice s).flags = s.flags := rfl

@[simp] theorem takeChoice_occ (s : State) : (takeChoice s).occ = s.occ := rfl

@[simp] theorem takeChoice_etu (s : State) : (takeChoice s).etu = s.etu := rfl

@[simp] theorem takeChoice_inst (s : State) : (takeChoice s).inst = s.inst := rfl

@[simp] theorem takeChoice_pat (s : State) : (takeChoice s).pat = s.pat := rfl

@[simp] theorem takeChoice_jd (s : State) : (takeChoice s).jd = s.jd := rfl

@[simp] theorem takeChoice_power (s : State) : (takeChoice s).power = s.power := rfl

@[simp] theorem takeChoice_tap (s : State) : (takeChoice s).tap = s.tap := rfl

@[simp] theorem takeChoice_ring (s : State) : (takeChoice s).ring = s.ring := rfl

@[simp] theorem takeChoice_arb (s : State) : (takeChoice s).arb = s.arb := rfl

@[simp] theorem takeChoice_runs (s : State) : (takeChoice s).runs = s.runs := rfl

@[simp] theorem takeChoice_ra (s : State) : (takeChoice s).ra = s.ra := rfl

@[simp] theorem takeChoice_ev (s : State) : (takeChoice s).ev = s.ev := rfl

@[simp] theorem takeChoice_mem (s : State) : (takeChoice s).mem = s.mem := rfl

@[simp] theorem takeChoice_arr (s : State) : (takeChoice s).arr = s.arr := rfl

@[simp] theorem takeChoice_col (s : State) : (takeChoice s).col = s.col := rfl

@[simp] theorem takeChoice_tile (s : State) : (takeChoice s).tile = s.tile := rfl

@[simp] theorem takeChoice_mq (s : State) : (takeChoice s).mq = s.mq := rfl

@[simp] theorem takeChoice_ce (s : State) : (takeChoice s).ce = s.ce := rfl

@[simp] theorem takeChoice_fh (s : State) : (takeChoice s).fh = s.fh := rfl

@[simp] theorem takeChoice_cv (s : State) : (takeChoice s).cv = s.cv := rfl

@[simp] theorem takeChoice_core (s : State) : (takeChoice s).core = s.core := rfl

@[simp] theorem takeChoice_err (s : State) : (takeChoice s).err = s.err := rfl

@[simp] theorem takeChoice_retired (s : State) : (takeChoice s).retired = s.retired := rfl

@[simp] theorem takeChoice_smb (s : State) : (takeChoice s).smb = s.smb := rfl

@[simp] theorem takeChoice_readOut (s : State) : (takeChoice s).readOut = s.readOut := rfl

@[simp] theorem takeChoice_tick (s : State) : (takeChoice s).tick = s.tick := rfl

@[simp] theorem takeChoice_sclk (s : State) : (takeChoice s).sclk = s.sclk := rfl

@[simp] theorem takeChoice_hclk (s : State) : (takeChoice s).hclk = s.hclk := rfl

end Sys2Proof.Laws
end

