-- ==== Sys2Proof/Laws/Shapes.lean ====
section
/-! SUPPORT. What the shared operations can do, said once: the shape of the state that each answers, and how a
component reads after it was put. The provers cite these in place of unfolding the operations. -/
namespace Sys2Proof.Laws
open Sys2Proof.Machine

/-- Collecting a message changes events and pending messages only. -/
theorem collect_shape (s : State) (v : Nat) :
    ∃ a b c d, collect s v = { s with flags := a, occ := b, ev := c, link := d } := by
  unfold collect; dsimp only; exact ⟨_, _, _, _, rfl⟩

/-- So do a misrouting and its own request. -/
theorem bumpMisrouted_shape (s : State) :
    ∃ a b c d, bumpMisrouted s = { s with flags := a, occ := b, ev := c, link := d } := by
  unfold bumpMisrouted
  dsimp only
  split
  · obtain ⟨a, b, c, d, e⟩ := collect_shape (bump s idMisrouted) (rowVector (bump s idMisrouted) idMisrouted)
    exact ⟨a, b, c, d, e⟩
  · exact ⟨_, _, _, _, rfl⟩

/-- And a misrouting whose counter saturates. -/
theorem misrouted_shape (s : State) :
    ∃ a b c d, misrouted s = { s with flags := a, occ := b, ev := c, link := d } := by
  obtain ⟨a, b, c, d, e⟩ := bumpMisrouted_shape s
  unfold misrouted
  dsimp only
  split
  · exact ⟨a, b, c, d, e⟩
  · split
    · exact ⟨_, _, _, _, by rw [e]; rfl⟩
    · split
      · obtain ⟨a', b', c', d', e'⟩ := collect_shape (bump (bumpMisrouted s) idOccSat)
          (rowVector (bump (bumpMisrouted s) idOccSat) idOccSat)
        exact ⟨a', b', c', d', by rw [e', e]; rfl⟩
      · obtain ⟨a', b', c', d', e'⟩ := bumpMisrouted_shape (bump (bumpMisrouted s) idOccSat)
        exact ⟨a', b', c', d', by rw [e', e]; rfl⟩

/-- Setting a flag changes flags, occurrence counts, events and pending messages only. -/
theorem setFlag_shape (s : State) (v : Nat) : ∃ a b c d, setFlag s v = { s with flags := a, occ := b, ev := c, link := d } := by
  have key : ∀ (u : State) i, (∃ a b c d, requestRow u i = { u with flags := a, occ := b, ev := c, link := d }) := by
    intro u i
    unfold requestRow requestPf
    split
    · split
      · exact collect_shape _ _
      · exact misrouted_shape u
    · exact ⟨_, _, _, _, rfl⟩
  unfold setFlag; dsimp only
  obtain ⟨a, b, c, d, e⟩ := key (bump s v) v
  rw [e]
  split
  · obtain ⟨a', b', c', d', e'⟩ := key (bump { bump s v with flags := a, occ := b, ev := c, link := d } idOccSat) idOccSat
    exact ⟨a', b', c', d', e'⟩
  · exact ⟨a, b, c, d, rfl⟩

/-- A merged register write changes stored words only. -/
theorem mergeReg_shape (s : State) (o v : Nat) : ∃ r, mergeReg s o v = { s with regs := r } := by
  unfold mergeReg putReg
  dsimp only
  generalize hm : (if s.boot.sealed = true then Nat.xor (regSpec o).rw (regSpec o).rwl else (regSpec o).rw : Nat) = m
  by_cases h : m = 0
  · exact ⟨s.regs, if_pos h⟩
  · exact ⟨_, if_neg h⟩
/-
-/

/-- A flag does not change a stored word. -/
theorem reg_setFlag (s : State) (i o : Nat) : reg (setFlag s i) o = reg s o := by
  obtain ⟨a, b, c, d, e⟩ := setFlag_shape s i; rw [e]; rfl

/-- A ring reads as it was put. -/
theorem ringOf_setRing (s : State) (r : Nat) (g : Ring) (w : tblWf s.ring = true) : ringOf (setRing s r g) r = g :=
  tblGet_set_same w _ _ _

/-- The ring that arbitration answers is listed, of the priority, and has work. -/
theorem nextOfPrio_mem (s : State) (p r : Nat) (h : nextOfPrio s p = some r) :
    ∃ e, e ∈ s.ring ∧ e.1 = r ∧ e.2.prio = p ∧ eligible s e.1 e.2 = true := by
  unfold nextOfPrio at h
  dsimp only at h
  have m : r ∈ (s.ring.filter fun e => e.2.prio = p && eligible s e.1 e.2).map (·.1) := by
    rw [Option.or_eq_some_iff] at h
    rcases h with h | ⟨-, h⟩
    · exact List.mem_of_find?_eq_some h
    · exact List.mem_of_head? h
  rw [List.mem_map] at m
  obtain ⟨e, he, h1⟩ := m
  rw [List.mem_filter] at he
  simp at he
  exact ⟨e, he.1, h1, he.2.1, he.2.2⟩

/-- Where a ring of the priority has work, arbitration answers one. -/
theorem nextOfPrio_some (s : State) (p : Nat) (e : Nat × Ring) (h : e ∈ s.ring) (hp : e.2.prio = p)
    (he : eligible s e.1 e.2 = true) : ∃ r, nextOfPrio s p = some r := by
  unfold nextOfPrio
  dsimp only
  cases hl : (s.ring.filter fun e => e.2.prio = p && eligible s e.1 e.2).map (·.1) with
  | nil =>
    exfalso
    have : e.1 ∈ (s.ring.filter fun e => e.2.prio = p && eligible s e.1 e.2).map (·.1) :=
      List.mem_map.2 ⟨e, List.mem_filter.2 ⟨h, by simp [hp, he]⟩, rfl⟩
    rw [hl] at this; cases this
  | cons a l =>
    cases List.find? (fun r => Decidable.decide (tblGet 0 s.arb.last p < r)) (a :: l) with
    | some b => exact ⟨b, rfl⟩
    | none => exact ⟨a, rfl⟩

/-- An access that succeeds goes on with its result. -/
theorem afterRes_ok {α β : Type} {z : State × Res α} {t : State} {b : α} (h : z = (t, .ok b)) {f : State → α → β} {g : State → Fail → β} :
    afterRes z f g = f t b := by subst h; rfl

/-- Putting a counter keeps the table canonical. -/
theorem evc_wf (s : State) (a : Nat) (v : Evc) (w : tblWf s.ev.evc = true) : tblWf (setEvc s a v).ev.evc = true := tblWf_set w _ _ _

/-- A counter reads as it was put. -/
theorem evc_same (s : State) (a : Nat) (v : Evc) (w : tblWf s.ev.evc = true) : evc (setEvc s a v) a = v := tblGet_set_same w _ _ _

/-- The others stay. -/
theorem evc_other (s : State) (a n : Nat) (v : Evc) (w : tblWf s.ev.evc = true) (h : n ≠ a) : evc (setEvc s a v) n = evc s n := tblGet_set_other w _ _ h

/-- A unit that stands before the operation runs it. -/
theorem onOp_eq {s : State} {cls u k : Nat} {x : Run} {g : Seg} {o : ListOp} (h : atOp s cls u k = some (x, g, o)) (f) :
    onOp s cls u k f = f x g o := by unfold onOp; rw [h]

/-- A scalar register reads as it was put, but s0. -/
theorem sreg_putS (r : TvcRegs) (w : tblWf r.s = true) (i v k : Nat) :
    sreg (putS r i v) k = if k = i ∧ i ≠ 0 then v % 2 ^ 32 else sreg r k := by
  unfold sreg putS
  by_cases h0 : i = 0
  · subst h0; simp
  · rw [if_neg h0]
    by_cases hk : k = i
    · subst hk
      rw [if_neg h0, if_pos ⟨rfl, h0⟩, tblGet_set_same w]
      exact BitVec.toNat_ofNat _ _
    · rw [if_neg (show ¬ (k = i ∧ i ≠ 0) from fun h => hk h.1)]
      by_cases hz : k = 0
      · rw [if_pos hz, if_pos hz]
      · rw [if_neg hz, if_neg hz, tblGet_set_other w _ _ hk]

/-- Putting a scalar register keeps the table canonical. -/
theorem putS_wf (r : TvcRegs) (w : tblWf r.s = true) (i v : Nat) : tblWf (putS r i v).s = true := by
  unfold putS
  split
  · exact w
  · exact tblWf_set w _ _ _

/-- What a slot row does, by what its body answers. -/
theorem slot_eq {s : State} {t v : Nat} {x : Run} {o : ListOp} (h : tvcLive s t v = some (x, o))
    (he : (tvcOf s t v).ending = true → (tvcOf s t v).slot ≠ 0) {i : Instr}
    (hi : tvcDecode t v (tvcOf s t v).slot (slotWord (tvcOf s t v)) = some i) (f : State → Run → Tvc → State × SlotEffect) :
    tvcSlot s t v i f = (match f s x (tvcOf s t v) with
      | (s', .go c) => endSlot (setTvc s' t v c) x o t v
      | (s', .fail r) => tvcFail s' x o t v ⟨6, r, false⟩
      | (_, .stall) => s) := by
  unfold tvcSlot
  rw [h]
  dsimp only
  refine (if_neg ?_).trans rfl
  rw [hi]
  cases e : (tvcOf s t v).ending
  · simp
  · simp [he e]

/-- A slot that runs on. -/
theorem slot_go {s : State} {t v : Nat} {x : Run} {o : ListOp} (h : tvcLive s t v = some (x, o))
    (he : (tvcOf s t v).ending = true → (tvcOf s t v).slot ≠ 0) {i : Instr}
    (hi : tvcDecode t v (tvcOf s t v).slot (slotWord (tvcOf s t v)) = some i) {f : State → Run → Tvc → State × SlotEffect}
    {u : State} {d : Tvc} (hf : f s x (tvcOf s t v) = (u, .go d)) :
    done (tvcSlot s t v i f) = .next (endSlot (setTvc u t v d) x o t v) := by
  rw [slot_eq h he hi, hf]; rfl

/-- A slot that fails its list. -/
theorem slot_fail {s : State} {t v : Nat} {x : Run} {o : ListOp} (h : tvcLive s t v = some (x, o))
    (he : (tvcOf s t v).ending = true → (tvcOf s t v).slot ≠ 0) {i : Instr}
    (hi : tvcDecode t v (tvcOf s t v).slot (slotWord (tvcOf s t v)) = some i) {f : State → Run → Tvc → State × SlotEffect}
    {u : State} {r : Nat} (hf : f s x (tvcOf s t v) = (u, .fail r)) :
    done (tvcSlot s t v i f) = .next (tvcFail u x o t v ⟨6, r, false⟩) := by
  rw [slot_eq h he hi, hf]; rfl

/-- A slot that stalls. -/
theorem slot_stall {s : State} {t v : Nat} {x : Run} {o : ListOp} (h : tvcLive s t v = some (x, o))
    (he : (tvcOf s t v).ending = true → (tvcOf s t v).slot ≠ 0) {i : Instr}
    (hi : tvcDecode t v (tvcOf s t v).slot (slotWord (tvcOf s t v)) = some i) {f : State → Run → Tvc → State × SlotEffect}
    {u : State} (hf : f s x (tvcOf s t v) = (u, .stall)) :
    done (tvcSlot s t v i f) = .next s := by
  rw [slot_eq h he hi, hf]; rfl

/-- A scalar register holds 32 bits. -/
theorem sreg_lt (r : TvcRegs) (i : Nat) : sreg r i < 2 ^ 32 := by
  unfold sreg; split
  · decide
  · exact BitVec.isLt _

/-- Sign extension as a bit-vector integer. -/
theorem sext_eq (n w : Nat) (hn : 0 < n) : sext n w = (BitVec.ofNat n w).toInt := by
  unfold sext
  rw [BitVec.toInt_eq_toNat_cond, BitVec.toNat_ofNat]
  have : 2 ^ n = 2 * 2 ^ (n - 1) := by rw [← Nat.pow_succ']; congr; omega
  dsimp only
  by_cases h : w % 2 ^ n < 2 ^ (n - 1)
  · rw [if_pos h, if_pos (by omega)]
  · rw [if_neg h, if_neg (by omega)]

/-- Truncation as a bit vector. -/
theorem trunc_eq (n : Nat) (v : Int) : trunc n v = (BitVec.ofInt n v).toNat := by
  unfold trunc; rw [BitVec.toNat_ofInt]

/-- A packed list read back at a component. -/
theorem packParts_get (n : Nat) (hn : 0 < n) : ∀ (l : List Int) (j : Nat), j < l.length →
    packParts n l / 2 ^ (n * j) % 2 ^ n = trunc n (l.getD j 0)
  | [], j, h => absurd h (by simp)
  | y :: l, 0, _ => by
    show (trunc n y + 2 ^ n * packParts n l) / 2 ^ (n * 0) % 2 ^ n = trunc n y
    have : trunc n y < 2 ^ n := by rw [trunc_eq]; exact BitVec.isLt _
    rw [Nat.mul_zero, Nat.pow_zero, Nat.div_one, Nat.add_mul_mod_self_left, Nat.mod_eq_of_lt this]
  | y :: l, j + 1, h => by
    show (trunc n y + 2 ^ n * packParts n l) / 2 ^ (n * (j + 1)) % 2 ^ n = trunc n (l.getD j 0)
    have : trunc n y < 2 ^ n := by rw [trunc_eq]; exact BitVec.isLt _
    rw [show n * (j + 1) = n + n * j by rw [Nat.mul_add, Nat.mul_one, Nat.add_comm], Nat.pow_add, ← Nat.div_div_eq_div_mul,
      Nat.add_mul_div_left _ _ (Nat.two_pow_pos n), Nat.div_eq_of_lt this, Nat.zero_add]
    exact packParts_get n hn l j (by simpa using h)

/-- A packed list fits its width. -/
theorem packParts_lt (n : Nat) : ∀ l : List Int, packParts n l < 2 ^ (n * l.length)
  | [] => by simp [packParts]
  | y :: l => by
    show trunc n y + 2 ^ n * packParts n l < _
    have h1 : trunc n y < 2 ^ n := by rw [trunc_eq]; exact BitVec.isLt _
    have h2 := packParts_lt n l
    rw [List.length_cons, Nat.mul_add, Nat.mul_one, Nat.add_comm (n * l.length), Nat.pow_add]
    calc trunc n y + 2 ^ n * packParts n l < 2 ^ n + 2 ^ n * packParts n l := by omega
      _ = 2 ^ n * (packParts n l + 1) := by rw [Nat.mul_add, Nat.mul_one, Nat.add_comm]
      _ ≤ 2 ^ n * 2 ^ (n * l.length) := Nat.mul_le_mul_left _ h2

theorem sext_trunc16 (y : Int) (h1 : -32768 ≤ y) (h2 : y ≤ 32767) : sext 16 (trunc 16 y) = y := by
  unfold sext trunc; simp; split <;> omega

/-- A component of a vector register. -/
theorem vparts_getD (r : TvcRegs) (i j : Nat) (hj : j < 32) :
    (vparts r i).getD j 0 = sext 16 ((tblGet 0 r.v i).toNat / 2 ^ (16 * j)) := by
  unfold vparts; dsimp only
  rw [List.getD_eq_getElem _ _ (by simpa using hj)]; simp

theorem sext_mod (w : Nat) : sext 16 (w % 2 ^ 16) = sext 16 w := by unfold sext; simp

theorem sext16_range (w : Nat) : -32768 ≤ sext 16 w ∧ sext 16 w ≤ 32767 := by
  unfold sext; simp; split <;> omega

/-- Thirty-two 16-bit components packed and read back. -/
theorem lanes_pack (l : List Int) (hl : l.length = 32) (hr : ∀ j, j < 32 → -32768 ≤ l.getD j 0 ∧ l.getD j 0 ≤ 32767) (j : Nat) (hj : j < 32) :
    sext 16 (packParts 16 l % 2 ^ 512 / 2 ^ (16 * j)) = l.getD j 0 := by
  have h1 := packParts_lt 16 l
  rw [hl] at h1
  rw [Nat.mod_eq_of_lt h1, ← sext_mod, packParts_get 16 (by decide) l j (by omega)]
  exact sext_trunc16 _ (hr j hj).1 (hr j hj).2

theorem zip_getD (f : Int → Int → Int) (l m : List Int) (hl : l.length = 32) (hm : m.length = 32) (j : Nat) (hj : j < 32) :
    (List.zipWith f l m).getD j 0 = f (l.getD j 0) (m.getD j 0) := by
  rw [List.getD_eq_getElem _ _ (by simp [hl, hm, hj]), List.getD_eq_getElem _ _ (by omega), List.getD_eq_getElem _ _ (by omega)]
  simp

theorem vparts_len (r : TvcRegs) (i : Nat) : (vparts r i).length = 32 := by simp [vparts]

theorem vparts_range (r : TvcRegs) (i j : Nat) (hj : j < 32) : -32768 ≤ (vparts r i).getD j 0 ∧ (vparts r i).getD j 0 ≤ 32767 := by
  rw [vparts_getD _ _ _ hj]; exact sext16_range _

theorem clamp_range (y : Int) : -32768 ≤ clampInt (-32768) 32767 y ∧ clampInt (-32768) 32767 y ≤ 32767 := by
  unfold clampInt; split <;> (try split) <;> omega

theorem sext_trunc (n : Nat) (hn : 0 < n) (y : Int) : sext n (trunc n y) = (BitVec.ofInt n y).toInt := by
  rw [sext_eq n _ hn, trunc_eq, BitVec.ofNat_toNat, BitVec.setWidth_eq]

/-- A component of an accumulator. -/
theorem aparts_getD (r : TvcRegs) (i j : Nat) (hj : j < 32) :
    (aparts r i).getD j 0 = sext 40 ((tblGet 0 r.a i).toNat / 2 ^ (40 * j)) := by
  unfold aparts; dsimp only
  rw [List.getD_eq_getElem _ _ (by simpa using hj)]; simp

theorem aparts_len (r : TvcRegs) (i : Nat) : (aparts r i).length = 32 := by simp [aparts]

/-- Counting lanes changes the MQ_ logic only. -/
theorem countLanes_same (s : State) (x : Run) (n m : Nat) : ∃ z, countLanes s x n m = { s with mq := z } := by
  unfold countLanes; split
  · exact ⟨s.mq, rfl⟩
  · exact ⟨_, rfl⟩

/-- A conditional flag changes what a flag does, or nothing. -/
theorem setFlagIf_shape (b : Bool) (i : Nat) (s : State) : ∃ a b' c d, setFlagIf b i s = { s with flags := a, occ := b', ev := c, link := d } := by
  unfold setFlagIf; split
  · exact setFlag_shape s i
  · exact ⟨s.flags, s.occ, s.ev, s.link, rfl⟩

/-- A unit of the coding engine that stands before an operation is in it and ready. -/
theorem atOp_inside {s : State} {u k : Nat} {x : Run} {g : Seg} {o : ListOp} (h : atOp s 1 u k = some (x, g, o)) :
    cdInside s u = some (x, g, o) ∧ g.phase = .ready := by
  unfold atOp at h
  unfold cdInside
  cases hc : current s 1 u with
  | none => rw [hc] at h; cases h
  | some z =>
    obtain ⟨y, g'⟩ := z
    rw [hc] at h
    dsimp only at h ⊢
    cases ho : g'.ops with
    | nil => rw [ho] at h; cases h
    | cons p rest =>
      rw [ho] at h
      dsimp only at h ⊢
      split at h
      · rename_i hcond
        simp only [Bool.and_eq_true, decide_eq_true_eq] at hcond
        simp only [Option.some.injEq, Prod.mk.injEq] at h
        obtain ⟨h1, h2, h3⟩ := h
        subst h1 h2 h3
        rw [if_pos hcond.1.1.1.2]
        exact ⟨rfl, hcond.1.2⟩
      · cases h

/-- An operation on a Plinth array whose checks fail. -/
theorem onArray_fail {s t : State} {a k : Nat} {x : Run} {g : Seg} {o : ListOp} {f : Fail}
    {check : State → Run → ListOp → State × Res PaWork} (h : paReady s a k = some (x, g, o))
    (hc : check s x o = (t, .fail f)) : onArray s a k check = failWith t x a o.idx f := by
  unfold onArray; rw [h]; dsimp only; rw [hc]

/-- An operation on a Plinth array that has passed its checks and has its columns runs its next block. -/
theorem onArray_block {s t : State} {a k b n : Nat} {x : Run} {g : Seg} {o : ListOp} {w : PaWork} {tile : List (List Nat)}
    {fu : List Nat} {check : State → Run → ListOp → State × Res PaWork} (h : paReady s a k = some (x, g, o))
    (hc : check s x o = (t, .ok w)) (hp : g.phase = .pa b n tile fu)
    (hr : colsReady (requestCols t a w.n (x.prio < 2)) a w.n = true) :
    onArray s a k check = (match w.block (requestCols t a w.n (x.prio < 2)) b tile fu with
      | (s, .fail f) => failWith s x a o.idx f
      | (s, .ok l) => endBlock s x a w.total b w.n l fu) := by
  unfold onArray beginPa withCols; rw [h]; dsimp only; rw [hc]; dsimp only; rw [hp]; dsimp only; exact if_pos hr

/-- An add changes the counters only. -/
theorem reg_evcAdd (s : State) (n : Nat) (v : W32) : ∃ e, evcAdd s n v = { s with ev := { s.ev with evc := e } } := by
  unfold evcAdd setEvc; dsimp only; split
  · exact ⟨s.ev.evc, rfl⟩
  · exact ⟨_, rfl⟩

/-- A log entry changes the error part only, not the parity record. -/
theorem pushLog_shape (s : State) (e : LogEntry) : ∃ x, pushLog s e = { s with err := x } ∧ x.evcPar = s.err.evcPar ∧ x.evcParValid = s.err.evcParValid := by
  unfold pushLog; dsimp only; refine ⟨_, rfl, ?_, ?_⟩ <;> rfl

/-- A frame that may leave: no Sync message while they are stopped. -/
def mayLeave (s : State) (p : Nat) (f : EgFrame) : Bool := !(isSync f && syncStopped s p)

/-- A queue of frames that may not leave grants none. -/
theorem egPick_none (s : State) (p : Nat) : ∀ l : List EgFrame, (∀ f ∈ l, mayLeave s p f = false) → egPick s p l = none
  | [], _ => rfl
  | f :: rest, h => by
    have hf := h f (List.mem_cons_self ..)
    unfold mayLeave at hf
    unfold egPick
    rw [egPick_none s p rest fun g hg => h g (List.mem_cons_of_mem _ hg)]
    simp only [Bool.not_eq_false'] at hf
    simp [hf]

/-- A queue with a frame that may leave has one to grant, and it is such a one of the queue. -/
theorem egPick_some (s : State) (p : Nat) : ∀ l : List EgFrame, (∃ f ∈ l, mayLeave s p f = true) →
    ∃ i f, l[i]? = some f ∧ mayLeave s p f = true ∧ egPick s p l = some (i, f)
  | [], h => by simp at h
  | f :: rest, h => by
    by_cases hr : ∃ g ∈ rest, mayLeave s p g = true
    · obtain ⟨i, g, h1, h2, h3⟩ := egPick_some s p rest hr
      unfold egPick
      rw [h3]
      dsimp only
      split
      · rename_i hc
        exact ⟨0, f, rfl, (Bool.and_eq_true_iff.1 hc).1, rfl⟩
      · exact ⟨i + 1, g, by simpa using h1, h2, rfl⟩
    · have hf : mayLeave s p f = true := by
        obtain ⟨g, hg, hm⟩ := h
        rcases List.mem_cons.1 hg with e | e
        · exact e ▸ hm
        · exact absurd ⟨g, e, hm⟩ hr
      have hn : egPick s p rest = none := egPick_none s p rest fun g hg => by
        by_contra hc
        exact hr ⟨g, hg, by simpa using hc⟩
      refine ⟨0, f, rfl, hf, ?_⟩
      unfold egPick
      rw [hn]
      unfold mayLeave at hf
      simp only [Bool.not_eq_true'] at hf
      simp [hf]

theorem portOf_setFlag (s : State) (i p : Nat) : portOf (setFlag s i) p = portOf s p := by
  obtain ⟨a, b, c, d, e⟩ := setFlag_shape s i
  rw [e]; rfl

theorem dropNote_queue (s : State) (p k r j q : Nat) (w : tblWf s.fh.port = true) :
    (portOf (noteMsg (dropTx s p k) r j false) q).queue = (portOf s q).queue
    ∧ tblWf (noteMsg (dropTx s p k) r j false).fh.port = true := by
  have e1 : (noteMsg (dropTx s p k) r j false).fh = (countPort s p k).fh := by
    obtain ⟨a, b, c, d, e⟩ := setFlagIf_shape (working s 10 p) (2092 + p) (countPort s p k)
    unfold noteMsg dropTx; rw [e]
  have e2 : (countPort s p k).fh.port = tblSet {} s.fh.port p { portOf s p with cnt := tblMod 0 (portOf s p).cnt k (satInc 0xFFFFFFFF) } := rfl
  constructor
  · unfold portOf
    rw [e1, e2]
    by_cases h : q = p
    · subst h; rw [tblGet_set_same w]; rfl
    · rw [tblGet_set_other w _ _ h]
  · rw [e1, e2]; exact tblWf_set w _ _ _

theorem discard_fold_queue (p k q : Nat) : ∀ (l : List EgFrame) (s : State), tblWf s.fh.port = true →
    (portOf (l.foldl (fun s f => noteMsg (dropTx s p k) f.ring f.k false) s) q).queue = (portOf s q).queue
  | [], _, _ => rfl
  | f :: l, s, w => by
    have h := dropNote_queue s p k f.ring f.k q w
    rw [List.foldl_cons, discard_fold_queue p k q l _ h.2, h.1]

/-- Discarding leaves the frames that are not named. -/
theorem discard_queue (s : State) (p k : Nat) (g : EgFrame → Bool) (w : tblWf s.fh.port = true) :
    (portOf (discardFrames s p k g) p).queue = (portOf s p).queue.filter fun f => !g f := by
  unfold discardFrames
  dsimp only
  rw [discard_fold_queue]
  · show (tblGet {} (tblSet {} s.fh.port p _) p).queue = _
    rw [tblGet_set_same w]
  · exact tblWf_set w _ _ _

/-- A port in state UP has the UP bit. -/
theorem portUp_of {s : State} {p : Nat} (h : portState s p = 2) : (portOf s p).up = true := by
  unfold portState at h
  split at h
  · omega
  · split at h
    · assumption
    · omega

/-- A link reads as it was put. -/
theorem link_same (s : State) (k : Nat) (v : CvLink) (w : tblWf s.cv.link = true) : linkOf (setLink s k v) k = v := tblGet_set_same w _ _ _

/-- The other links stay. -/
theorem link_other (s : State) (k j : Nat) (v : CvLink) (w : tblWf s.cv.link = true) (h : j ≠ k) : linkOf (setLink s k v) j = linkOf s j :=
  tblGet_set_other w _ _ h

/-- Putting a link keeps the table canonical. -/
theorem link_wf (s : State) (k : Nat) (v : CvLink) (w : tblWf s.cv.link = true) : tblWf (setLink s k v).cv.link = true := tblWf_set w _ _ _

theorem tileStore_cf (s : State) (t a : Nat) (b : List Byte) (o : Nat) : (tileStore s t a b o).cv = s.cv ∧ (tileStore s t a b o).flags = s.flags := by
  unfold tileStore; exact ⟨rfl, rfl⟩

/-- A store into a tile changes neither links nor flags. -/
theorem ingress_cf (s : State) (t a : Nat) (b : List Byte) : (ingressStore s t a b).cv = s.cv ∧ (ingressStore s t a b).flags = s.flags := by
  unfold ingressStore; split
  · exact tileStore_cf _ _ _ _ _
  · exact ⟨rfl, rfl⟩

theorem fold_cf {α : Type} (f : State → α → State) (h : ∀ s a, (f s a).cv = s.cv ∧ (f s a).flags = s.flags) :
    ∀ (l : List α) (s : State), (l.foldl f s).cv = s.cv ∧ (l.foldl f s).flags = s.flags
  | [], _ => ⟨rfl, rfl⟩
  | a :: l, s => by
    obtain ⟨h1, h2⟩ := fold_cf f h l (f s a)
    rw [List.foldl_cons]
    exact ⟨h1.trans (h s a).1, h2.trans (h s a).2⟩

theorem openSlot_cf (s : State) (p : Placed) (sfn slot : Nat) : (openSlot s p sfn slot).cv = s.cv ∧ (openSlot s p sfn slot).flags = s.flags := by
  unfold openSlot
  apply fold_cf
  intro s a; split
  · exact ⟨rfl, rfl⟩
  · exact ingress_cf _ _ _ _

/-- A symbol status changes neither links nor flags. -/
theorem status_cf (s : State) (c : Nat) (p : Placed) (sfn slot sym v : Nat) :
    (symbolStatus s c p sfn slot sym v).cv = s.cv ∧ (symbolStatus s c p sfn slot sym v).flags = s.flags := by
  have h : (markSymbol s p sfn slot sym v).cv = s.cv ∧ (markSymbol s p sfn slot sym v).flags = s.flags := by
    unfold markSymbol
    dsimp only
    have k := openSlot_cf s p sfn slot
    rw [← k.1, ← k.2]
    apply fold_cf
    intro s a
    split
    · have a1 := ingress_cf s a (areaBase p (plArea p) (plDepth p) (slot % 2) + sym) [tileByte s a (areaBase p (plArea p) (plDepth p) (slot % 2) + sym) ||| BitVec.ofNat 8 v]
      rw [← a1.1, ← a1.2]
      exact ingress_cf _ _ _ _
    · exact ingress_cf _ _ _ _
  exact h

theorem setFlag_cv (s : State) (i : Nat) : (setFlag s i).cv = s.cv := by
  obtain ⟨a, b, c, d, e⟩ := setFlag_shape s i
  rw [e]

/-- Writing a burst buffer ends the burst, on its link alone. -/
theorem writeBurst_link (s : State) (k st n : Nat) (e c : List Nat) (w : tblWf s.cv.link = true) :
    tblWf (writeBurst s k st n e c).cv.link = true ∧ (∀ j, j ≠ k → linkOf (writeBurst s k st n e c) j = linkOf s j)
    ∧ (linkOf (writeBurst s k st n e c) k).burst = {} ∧ (writeBurst s k st n e c).flags = s.flags := by
  unfold writeBurst
  dsimp only
  generalize (List.range 256).map _ ++ _ = l1
  generalize leBytes 4 _ ++ leBytes 4 0 ++ _ ++ _ ++ _ ++ _ ++ _ = l2
  generalize hu : ingressStore (ingressStore s _ _ l1) _ _ l2 = u
  have h1 : u.cv = s.cv ∧ u.flags = s.flags := by
    subst hu
    exact ⟨(ingress_cf _ _ _ _).1.trans (ingress_cf _ _ _ _).1, (ingress_cf _ _ _ _).2.trans (ingress_cf _ _ _ _).2⟩
  have hw : tblWf u.cv.link = true := by rw [h1.1]; exact w
  refine ⟨link_wf _ _ _ hw, fun j hj => ?_, ?_, h1.2⟩
  · show linkOf (setLink u k _) j = _
    rw [link_other _ _ _ _ hw hj]; unfold linkOf; rw [h1.1]
  · show (linkOf (setLink u k _) k).burst = _
    rw [link_same _ _ _ hw]

/-- A link that leaves RUN has no burst. -/
theorem truncate_link (s : State) (k : Nat) (w : tblWf s.cv.link = true) :
    tblWf (truncateBurst s k).cv.link = true ∧ (∀ j, j ≠ k → linkOf (truncateBurst s k) j = linkOf s j)
    ∧ (linkOf (truncateBurst s k) k).burst = {} ∧ (truncateBurst s k).flags = s.flags := by
  unfold truncateBurst
  dsimp only
  split
  · exact writeBurst_link _ _ _ _ _ _ w
  · refine ⟨link_wf _ _ _ w, fun j hj => link_other _ _ _ _ w hj, ?_, rfl⟩
    rw [link_same _ _ _ w]

theorem satInc_min (m n : Nat) (h : n ≤ m) : satInc m n = min m (n + 1) := by unfold satInc; split <;> omega

/-- It counts the burst and the record and sends the arrival. -/
theorem writeBurst_more (s : State) (k st n : Nat) (e c : List Nat) (w : tblWf s.cv.link = true) :
    (linkOf (writeBurst s k st n e c) k).bursts = satInc 65535 (linkOf s k).bursts
    ∧ (linkOf (writeBurst s k st n e c) k).records = (linkOf s k).records + 1
    ∧ (linkOf (writeBurst s k st n e c) k).aborted = (linkOf s k).aborted
    ∧ ∃ l, (writeBurst s k st n e c).ev.inFlight = l ++ [{ input := 392 + k }] := by
  unfold writeBurst
  dsimp only
  generalize (List.range 256).map _ ++ _ = l1
  generalize leBytes 4 _ ++ leBytes 4 0 ++ _ ++ _ ++ _ ++ _ ++ _ = l2
  generalize hu : ingressStore (ingressStore s _ _ l1) _ _ l2 = u
  have h1 : u.cv = s.cv := by
    subst hu
    exact (ingress_cf _ _ _ _).1.trans (ingress_cf _ _ _ _).1
  have hw : tblWf u.cv.link = true := by rw [h1]; exact w
  refine ⟨?_, ?_, ?_, ⟨_, rfl⟩⟩
  rotate_left 2
  · show (linkOf (setLink u k _) k).aborted = _
    rw [link_same _ _ _ hw]
  · show (linkOf (setLink u k _) k).bursts = _
    rw [link_same _ _ _ hw]
  · show (linkOf (setLink u k _) k).records = _
    rw [link_same _ _ _ hw]

/-- Driving a code changes that channel of that link alone. -/
theorem driveCode_link (s : State) (k ch code : Nat) (w : tblWf s.cv.link = true) (wc : tblWf (linkOf s k).codes = true) :
    (∀ j, j ≠ k → linkOf (driveCode s k ch code) j = linkOf s j) ∧ (linkOf (driveCode s k ch code) k).burst = (linkOf s k).burst
    ∧ tblGet 0 (linkOf (driveCode s k ch code) k).codes ch = code
    ∧ ∀ c, c ≠ ch → tblGet 0 (linkOf (driveCode s k ch code) k).codes c = tblGet 0 (linkOf s k).codes c := by
  unfold driveCode
  dsimp only
  split
  · rename_i h; exact ⟨fun _ _ => rfl, rfl, h, fun _ _ => rfl⟩
  · refine ⟨fun j hj => link_other _ _ _ _ w hj, ?_, ?_, fun c hc => ?_⟩
    · rw [link_same _ _ _ w]
    · rw [link_same _ _ _ w]; exact tblGet_set_same wc _ _ _
    · rw [link_same _ _ _ w]; exact tblGet_set_other wc _ _ hc

end Sys2Proof.Laws
end

