-- ==== Sys2Proof/Laws/Tick.lean ====
section
/-! SUPPORT. What the operations and rows of Sys2Proof/Machine/Tick.lean keep: `Keeps true` stores nothing, `Keeps q` for
every q likewise, `Keeps false` may store; `Retains` is said of the rows that write a quiet part. -/
namespace Sys2Proof.Machine

theorem tick_retains {b t : State} (h : Retains b t) : Retains b (tick t) := by
  unfold tick
  repeat' first
    | with_reducible assumption
    | dsimp only
    | split
    | simp only [retains_mk]
    | (with_reducible refine Retains.as ?_)

end Sys2Proof.Machine
end

