-- ==== Sys2Proof/Laws/Timeouts.lean ====
section
/-! SUPPORT. What the operations and rows of Sys2Proof/Machine/Timeouts.lean keep: `Keeps true` stores nothing, `Keeps q` for
every q likewise, `Keeps false` may store; `Retains` is said of the rows that write a quiet part. -/
namespace Sys2Proof.Machine

theorem leaveUnanswered_keeps {q : Bool} {b t : State} (table : Bool) (h : Keeps q b t) :
    Keeps q b (leaveUnanswered table t) := by
  unfold leaveUnanswered
  repeat' first
    | with_reducible assumption
    | dsimp only
    | simp only [keeps_mk]
    | (with_reducible refine Keeps.parts ?_)

theorem unanswered_keeps {q : Bool} {b t : State} (table : Bool) (run : State → Host.Outcome State Fault Refusal)
    (h : Keeps q b t) (hrun : ∀ u, Keeps q b u → OutKeeps q b (run u)) : Keeps q b (unanswered table run t) := by
  unfold unanswered
  dsimp only
  split
  · exact landed_keeps _ h (hrun _ (leaveUnanswered_keeps table h))
  · exact h

theorem execCompletionTimeout_keeps {b t : State} (src : TimeoutSource) (h : Keeps false b t) :
    OutKeeps false b (execCompletionTimeout src t) := by
  unfold execCompletionTimeout
  repeat' first
    | with_reducible apply OutKeeps.done
    | with_reducible assumption
    | with_reducible apply unanswered_keeps
    | with_reducible apply execDescriptorFetch_keeps
    | with_reducible apply execGrant_keeps
    | with_reducible apply execPollRead_keeps
    | with_reducible apply execCompletionWrite_keeps
    | with_reducible apply execRingSetup_keeps
    | with_reducible apply execRaBind_keeps
    | with_reducible apply execPublishDone_keeps
    | with_reducible apply execCvProfLoad_keeps
    | with_reducible apply execTqTransmit_keeps
    | with_reducible apply adminRun_keeps
    | with_reducible apply peerResult_keeps
    | with_reducible apply failWith_keeps
    | with_reducible apply recordFault_keeps
    | with_reducible apply setFlag_keeps
    | intro _
    | split

end Sys2Proof.Machine
end

