-- ==== Sys2Proof/Machine/View.lean ====
section
/-! DEFINITION. What an aligned 4 B read of the setup space returns: the stored words and the read-only fields of every
block (R7 to R9, R425 to R437), and the tenant view (R430). Reads that change something have rows of their own. -/
namespace Sys2Proof.Machine

/-- The bits of a list, the first in bit 0. -/
def wordOf (l : List Bool) : Nat := l.foldr (fun b a => b2n b + 2 * a) 0

/-- Retirement bits of units [first, first + n) of a type. -/
def retiredBits (s : State) (typ first n : Nat) : Nat := wordOf ((List.range n).map fun i => retired s typ (first + i))

/-- GLB_STATUS (R106 Table 3). -/
def viewStatus (s : State) : Nat :=
  s.boot.stage % 16 + b2n s.boot.fwUp * 2 ^ 4 + b2n s.boot.mapDone * 2 ^ 5 + b2n s.boot.ready * 2 ^ 6
    + b2n s.boot.sealed * 2 ^ 7 + s.boot.floor % 4 * 2 ^ 8 + s.boot.floorCap % 4 * 2 ^ 10 + s.boot.slot % 2 * 2 ^ 12
    + b2n s.boot.fallback * 2 ^ 13

/-- GLB_ (R115 Table 8, R429). -/
def viewGlb (s : State) (o : Nat) : Nat :=
  match o with
  | 0x00 => s.fuse.assy % 16 + Config.silicon.toNat * 2 ^ 4 + 7 * 2 ^ 16
  | 0x04 => viewStatus s
  | 0x08 => rowWord s 0
  | 0x0C => s.boot.cap.toNat
  | 0x10 => retiredBits s 0 0 32
  | 0x14 => retiredBits s 0 32 32
  | 0x18 => retiredBits s 2 0 24 + retiredBits s 3 0 8 * 2 ^ 24
  | 0x1C => retiredBits s 1 0 8 + retiredBits s 4 0 4 * 2 ^ 8 + retiredBits s 5 0 2 * 2 ^ 12 + retiredBits s 6 0 4 * 2 ^ 14
      + retiredBits s 7 0 8 * 2 ^ 18
  | 0x20 => retiredBits s 8 0 16 + retiredBits s 9 0 6 * 2 ^ 16
  | 0x24 => retiredBits s 10 0 12 + retiredBits s 11 0 6 * 2 ^ 12 + retiredBits s 12 1 2 * 2 ^ 18
  | 0x30 => s.err.presealDb
  | 0x34 => rowWord s 128
  | 0x38 => rowWord s 160
  | 0x44 => b2n (mboxBusy s) + s.mbox.result * 2 ^ 8
  | _ => if inGrp o 0x1000 4 1024 then ofLe (bytesAt (tblGet 0 s.mbox.window) (o - 0x1000) 4) else reg s o

/-- FEAT_ (R431). -/
def viewFeat (s : State) (o : Nat) : Nat :=
  if inGrp o 0 4 4 then (s.feat.offer.toNat / 2 ^ (8 * o)) % 2 ^ 32
  else if o = 0x24 then s.feat.code + s.feat.badBit * 2 ^ 8
  else if inGrp o 0x30 4 4 then (if s.boot.sealed then reg s (0x10010 + (o - 0x30)) else 0)
  else reg s (0x10000 + o)

/-- RING_STATn (R163). -/
def ringStat (s : State) (n : Nat) : Nat :=
  let g := ringOf s n
  if g.st = 0 then 0
  else g.st + inFlight g % 32 * 2 ^ 4 + b2n g.poll * 2 ^ 9 + g.nextSeq % 65536 * 2 ^ 16

/-- RING_CNTn (R163). -/
def ringCnt (s : State) (n : Nat) : Nat :=
  let g := ringOf s n
  if g.st = 0 then 0 else g.dup + g.cancelMiss * 2 ^ 8 + g.badDb * 2 ^ 16

/-- RING_ (R432). -/
def viewRing (s : State) (o : Nat) : Nat :=
  if o = 0x200 then wordOf ((List.range 8).map fun n => (ringOf s n).st ≠ 0)
  else if inGrp o 0x400 4 32 then rowWord s (1024 + 32 * ((o - 0x400) / 4))
  else if inGrp o 0x1000 0x10 1024 then
    let n := (o - 0x1000) / 0x10
    if o % 0x10 = 0 then ringStat s n else if o % 0x10 = 4 then ringCnt s n else 0
  else reg s (0x20000 + o)

/-- EVX_ (R201, R204, R209, R433). -/
def viewEvx (s : State) (o : Nat) : Nat :=
  if o = 0x10 then rowWord s 896
  else if inGrp o 0x20 4 8 then rowWord s (640 + 32 * ((o - 0x20) / 4))
  else if inGrp o 0x8000 4 2048 then
    let f := (o - 0x8000) / 2
    tblGet 0 s.occ f + tblGet 0 s.occ (f + 1) * 2 ^ 16
  else if inGrp o 0xC000 4 4096 then (evc s ((o - 0xC000) / 4)).val.toNat
  else reg s (0x30000 + o)

/-- The ensemble of a selected input is empty (R38). -/
def noEnsemble (s : State) (n : Nat) : Bool :=
  (s.etu.timeSel = n || s.etu.freqSel = n) && !((List.range 6).any fun m => m ≠ n && refGood s m)

/-- ETU_ (R29, R31, R35, R49, R434). -/
def viewEtu (s : State) (o : Nat) : Nat :=
  if o = 0 then s.etu.count.toNat % 2 ^ 32
  else if o = 4 then s.etu.latch.toNat / 2 ^ 32
  else if o = 0x0C then
    s.etu.state + b2n s.etu.pulling * 2 ^ 2 + b2n s.etu.everLocked * 2 ^ 3 + s.etu.timeSel * 2 ^ 4 + s.etu.freqSel * 2 ^ 8
  else if o = 0x18 then rowWord s 32
  else if o = 0x30 then wordOf ((List.range 3).map fun d => d < s.fuse.assy && dieSynced s d)
  else if inGrp o 0x100 0x10 6 && o % 0x10 = 4 then
    let n := (o - 0x100) / 0x10
    (refOf s n).st + (refOf s n).driftCnt * 2 ^ 3 + b2n (noEnsemble s n) * 2 ^ 5 + trunc 16 (refOf s n).dev * 2 ^ 16
  else if inGrp o 0x1000 0x20 64 && o % 0x20 = 0x10 then
    reg s (0x40000 + o) + b2n (trigOf s ((o - 0x1000) / 0x20)).armed
  else if inGrp o 0x1000 0x20 64 && o % 0x20 = 0x14 then b2n (flag s (544 + (o - 0x1000) / 0x20))
  else if inGrp o 0x2000 0x10 32 && o % 0x10 ≠ 0 then
    let n := (o - 0x2000) / 0x10
    let l := (tblGet {} s.etu.cap n).fifo
    let t := (l.headD 0).toNat
    if o % 0x10 = 4 then t % 2 ^ 32
    else if o % 0x10 = 8 then t / 2 ^ 32
    else l.length + b2n (flag s (608 + n)) * 2 ^ 8
  else reg s (0x40000 + o)

/-- A ledger in steps of 0.1 A, rounded up (R82). -/
def ledgerFigure (s : State) (l : List (Nat × Nat)) : Nat := (ledgerSum s l + 127) / 128

/-- PWR_ (R94 Table 11, R435). -/
def viewPwr (s : State) (o : Nat) : Nat :=
  match o with
  | 0x04 => s.power.shed + b2n s.power.pfw * 2 ^ 2 + s.power.tj.toNat * 2 ^ 8 + s.power.vset * 2 ^ 16
  | 0x08 => rowWord s 96
  | 0x10 => ledgerFigure s s.power.rise + ledgerFigure s s.power.fall * 2 ^ 16
  | _ => if inGrp o 0x20 4 7 then [1500, 220, 100, 47, 80, 20, 10].getD ((o - 0x20) / 4) 0 else reg s (0x50000 + o)

/-- CLK_ (R59 Table 19, R62, R436). -/
def viewClk (s : State) (o : Nat) : Nat :=
  if o = 0 then 0x06D60578
  else if inGrp o 0x1000 0x10 74 then
    let n := (o - 0x1000) / 0x10
    let i := instOf s n
    match o % 0x10 with
    | 0 => i.freq + i.cap * 2 ^ 12 + b2n i.run * 2 ^ 24
        + b2n (flag s (192 + n)) * 2 ^ 25 + b2n (instRetired s n) * 2 ^ 26
    | 4 => i.cycles.toNat % 2 ^ 32
    | 8 => i.latch.toNat / 2 ^ 32
    | _ => 0
  else 0

/-- MON_ (R69, R70, R72, R436). -/
def viewMon (s : State) (o : Nat) : Nat :=
  if o = 0 then rowWord s 64
  else if inGrp o 0x100 4 96 then
    let n := (o - 0x100) / 4
    slackNow s n + (patinaOf s n).min * 2 ^ 8 + b2n (flag s (288 + 2 * n)) * 2 ^ 16 + b2n (flag s (289 + 2 * n)) * 2 ^ 17
  else if inGrp o 0x400 8 16 && o % 8 = 4 then
    let n := (o - 0x400) / 8
    (jdOf s n).jit + (jdOf s n).duty * 2 ^ 8 + wordOf ((List.range 4).map fun i => flag s (480 + 4 * n + i)) * 2 ^ 16
      + (jdOf s n).src * 2 ^ 24
  else reg s (0x70000 + o)

/-- ERR_ (R424). -/
def viewErr (s : State) (o : Nat) : Nat :=
  if o = 0 then rowWord s 3072
  else if o = 0x20 then s.err.strayDb
  else if o = 0x24 then s.err.evcPar + b2n s.err.evcParValid * 2 ^ 31
  else if inGrp o 0x100 0x10 3 && o % 0x10 = 0 then
    let d := (o - 0x100) / 0x10
    let x := tblGet {} s.err.d2d d
    if s.fuse.assy ≤ d then 0 else (if x.down then 3 else if x.degraded then 2 else 1) + x.retry * 2 ^ 16
  else if o = 0x200 then s.err.head % 2 ^ 32
  else if inGrp o 0x8000 32 256 then
    match tblGet? s.err.log ((o - 0x8000) / 32) with
    | some e => ofLe (sub (logBytes e) (o % 32) 4)
    | none => 0
  else reg s (0x80000 + o)

/-- MEM_ (R237 Table 9). -/
def viewMem (s : State) (o : Nat) : Nat :=
  if o = 4 then wordOf ((List.range 6).map fun i => working s 9 i) + hbmCap s / 2 ^ 30 * 2 ^ 8
  else if inGrp o 0x100 4 22 then
    let e := tblGet {} s.mem.ecc ((o - 0x100) / 4)
    e.ce + e.ue * 2 ^ 16
  else if o = 0x200 then s.mem.ueOffset % 2 ^ 32
  else if o = 0x204 then s.mem.ueOffset / 2 ^ 32 % 2 ^ 16 + s.mem.ueUnit * 2 ^ 16
  else if o = 0x210 then rowWord s 2944
  else reg s (0x90000 + o)

/-- XLT_ (R218, R237 Table 9). -/
def viewXlt (s : State) (o : Nat) : Nat :=
  if inGrp o 0 0x10 64 then
    let x := ctxOf s (o / 0x10)
    let w := b2n x.en + x.root / 4096 * 4096
    if o % 0x10 = 0 then w % 2 ^ 32 else if o % 0x10 = 4 then w / 2 ^ 32 else 0
  else if inGrp o 0x800 0x10 64 then
    let x := ctxOf s ((o - 0x800) / 0x10)
    if o % 0x10 = 0 then x.faultAddr % 2 ^ 32
    else if o % 0x10 = 4 then
      x.faultAddr / 2 ^ 32 % 2 ^ 16 + x.faultCause * 2 ^ 16 + b2n x.faultWrite * 2 ^ 24 + b2n x.faultValid * 2 ^ 31
    else 0
  else if o = 0x1000 then rowWord s 2976
  else reg s (0xA0000 + o)

/-- LAY_ (R234, R237 Table 9). -/
def viewLay (s : State) (o : Nat) : Nat :=
  if o = 0x1004 then b2n s.mem.layInv.isSome
  else if o = 0x1010 then rowWord s 3232
  else reg s (0xB0000 + o)

/-- Segments with work left on an array that hold or wait for it, radio or not. -/
def arraySegs (s : State) (a : Nat) (radio : Bool) : List Run :=
  s.runs.filter fun x => x.cls = 2 && (x.prio < 2) = radio && x.segs.any fun g => g.unit = a && !g.ended

/-- PA_ (R265, R437). -/
def viewPa (s : State) (o : Nat) : Nat :=
  if inGrp o 0 0x10 64 && o % 0x10 = 0xC then
    let c := o / 0x10
    let waiting := match ringCollector s (colRing s c) with
      | some d => if d = c then ((ringOf s (colRing s c)).slots.filter fun x => x.st = .waiting).length else 0
      | none => 0
    min 255 waiting + (tblGet {} s.col c).batches * 2 ^ 16
  else if inGrp o 0x800 0x10 8 then
    let a := (o - 0x800) / 0x10
    let x := arrOf s a
    let queued := (arraySegs s a true).length - (if x.occupant = 2 then 1 else 0)
    match o % 0x10 with
    | 0 => colsNow s a + x.occupant * 2 ^ 8 + b2n x.preempted * 2 ^ 10 + b2n (rampRuns s a) * 2 ^ 11 + x.func * 2 ^ 16
        + min 15 queued * 2 ^ 24
    | 4 => x.handovers
    | 8 => if retired s 1 a then 0 else x.ce + x.ue * 2 ^ 16
    | _ => 0
  else if o = 0x1000 then rowWord s 3200
  else reg s (0xC0000 + o)

/-- Some run has a segment on the unit. -/
def unitBusy (s : State) (cls u : Nat) : Bool := (current s cls u).isSome

/-- TILE_ (R191, R290, R437). -/
def viewTile (s : State) (o : Nat) : Nat :=
  match o with
  | 0 => (boundKeys s).length + ((boundRegions s).foldl (fun a z => a + z.2) 15) / 16 * 2 ^ 16
  | 4 => s.ra.confirmed + s.ra.squashed * 2 ^ 16
  | 8 => s.ra.stray
  | _ =>
    if inGrp o 0x1000 0x10 64 && working s 0 ((o - 0x1000) / 0x10) then
      let t := (o - 0x1000) / 0x10
      let x := tileOf s t
      match o % 0x10 with
      | 0 => b2n (unitBusy s 0 t) + b2n (unitBusy s 0 (64 + t)) * 2 + b2n (unitBusy s 0 (128 + t)) * 4
          + x.tvc0.progFn * 2 ^ 16 + x.tvc1.progFn * 2 ^ 24
      | 4 => x.ce + x.mq * 2 ^ 12 + x.ue * 2 ^ 24
      | 8 => x.sats
      | _ => 0
    else 0

/-- CE_ (R340). -/
def viewCe (s : State) (o : Nat) : Nat :=
  match o with
  | 0x20 => (s.ce.harq.filter fun e => e.2.st ≠ 0).length
  | 0x30 => s.ce.evict
  | 0x34 => s.ce.noStore
  | 0x38 => s.ce.already
  | 0x3C => s.ce.drop
  | 0x40 => rowWord s 2560
  | _ =>
    if inGrp o 0x100 8 64 && o % 8 = 4 then
      s.ce.harq.foldl (fun a e => if e.2.func = (o - 0x100) / 8 then a + e.2.pages.length + e.2.reserved.length else a) 0
    else reg s (0xE0000 + o)

/-- FH_ (R342, R346, R359, R368; R317). -/
def viewFh (s : State) (o : Nat) : Nat :=
  if inGrp o 0 0x20 12 && o % 0x20 = 4 then portState s (o / 0x20)
  else if o = 0x300 then rowWord s 2048
  else if o = 0x304 then rowWord s 2080
  else if o = 0x414 then s.fh.rxProd
  else if o = 0x420 then s.fh.txCons
  else if inGrp o 0x1000 0x80 12 then
    let k := (o - 0x1000) % 0x80 / 4
    if k < 19 then tblGet 0 (portOf s ((o - 0x1000) / 0x80)).cnt k else 0
  else if inGrp o 0x3000 8 128 && o % 8 = 4 then (carrierOf s ((o - 0x3000) / 8)).clips
  else if inGrp o 0x4000 0x40 128 && o % 0x40 = 0x30 then b2n (carrierOf s ((o - 0x4000) / 0x40)).open_
  else if inGrp o 0x8000 8 2048 && o % 8 = 4 then
    let e := tblGet {} s.fh.seq ((o - 0x8000) / 8)
    e.cp + e.up * 2 ^ 8 + e.rx * 2 ^ 16
  else reg s (0xF0000 + o)

/-- CV_ (R386 Table 5). -/
def viewCv (s : State) (o : Nat) : Nat :=
  if inGrp o 0 0x100 6 then
    let x := linkOf s (o / 0x100)
    let codes (c : Nat) : Nat := (List.range 8).foldl (fun a i => a + tblGet 0 x.codes (c + i) % 16 * 2 ^ (4 * i)) 0
    match o % 0x100 with
    | 0x10 => x.st
    | 0x18 => x.sref.toNat % 2 ^ 32
    | 0x1C => x.srefLatch.toNat / 2 ^ 32
    | 0x30 => codes 0
    | 0x34 => codes 8
    | 0xD0 => x.bursts + x.aborted * 2 ^ 16 + x.overlap * 2 ^ 24
    | 0xD4 => x.late + x.mid * 2 ^ 16
    | 0xD8 => x.erased + x.underrun * 2 ^ 16
    | _ => reg s (0x100000 + o)
  else if o = 0x1104 then b2n s.cv.lastValid * 2 + s.cv.cause * 2 ^ 8
  else if o = 0x2000 then rowWord s 2304
  else if o = 0x2004 then rowWord s 2336
  else reg s (0x100000 + o)

/-- TE_ (R404): it reads 0 without ESPALIER. -/
def viewTe (s : State) (o : Nat) : Nat :=
  if !feat s 4 then 0
  else if inGrp o 0 0x10 4 then
    let x := tblGet {} s.core (o / 0x10)
    match o % 0x10 with
    | 0 => x.phase + x.rank * 2 ^ 8 + x.func * 2 ^ 16
    | 4 => x.cycles + x.late * 2 ^ 16
    | 8 => x.conflict + x.poison * 2 ^ 16
    | _ => 0
  else if o = 0x100 then wordOf ((List.range 8).map fun g => working s 7 g)
  else if o = 0x200 then rowWord s 2688
  else 0

/-- MQ_ (R306, R317): it reads 0 without LEARNED_RX. -/
def viewMq (s : State) (o : Nat) : Nat :=
  if !feat s 2 then 0
  else if o = 0x1C then b2n s.mq.pub.isSome + s.mq.result * 2 ^ 4 + s.mq.entry * 2 ^ 8
  else if o = 0x20 then rowWord s 2816
  else if inGrp o 0x1000 0x20 256 then
    let v := verOf s ((o - 0x1000) / 0x20)
    match o % 0x20 with
    | 0x00 => v.st + v.func * 2 ^ 8 + v.table * 2 ^ 16 + v.kind * 2 ^ 24
    | 0x04 => v.version
    | 0x08 => v.sfn + v.sf * 2 ^ 10 + v.inUse * 2 ^ 16
    | 0x0C => v.len
    | 0x10 => v.addr % 2 ^ 32
    | 0x14 => v.addr / 2 ^ 32
    | _ => 0
  else if inGrp o 0x4000 0x10 128 then
    let c := tblGet {} s.mq.sel ((o - 0x4000) / 0x10)
    match o % 0x10 with
    | 0 => c.learned
    | 4 => c.classical
    | 8 => c.exclSlots
    | _ => 0
  else reg s (0x120000 + o)

/-- An aligned 4 B read of the setup space by the physical function: absent instances and blocks that do not answer
read 0 (R9, R427), and so do reserved offsets, which store nothing (R8). -/
def readReg (s : State) (off : Nat) : Nat :=
  let o := off % 0x10000
  if !blockAnswers s off || absentReg s off then 0
  else match off / 0x10000 with
  | 0x0 => viewGlb s o
  | 0x1 => viewFeat s o
  | 0x2 => viewRing s o
  | 0x3 => viewEvx s o
  | 0x4 => viewEtu s o
  | 0x5 => viewPwr s o
  | 0x6 => viewClk s o
  | 0x7 => viewMon s o
  | 0x8 => viewErr s o
  | 0x9 => viewMem s o
  | 0xA => viewXlt s o
  | 0xB => viewLay s o
  | 0xC => viewPa s o
  | 0xD => viewTile s o
  | 0xE => viewCe s o
  | 0xF => viewFh s o
  | 0x10 => viewCv s o
  | 0x11 => viewTe s o
  | 0x12 => viewMq s o
  | _ => 0

/-- The configured ring in a slot of a virtual function. -/
def ringAtSlot (s : State) (fn slot : Nat) : Option Nat :=
  (s.ring.find? fun e => e.2.st ≠ 0 && e.2.fn = fn && e.2.vfSlot = slot).map (·.1)

/-- An aligned 4 B read of a virtual function's setup space (R430 Table 3). -/
def readVf (s : State) (fn off : Nat) : Nat :=
  if !served s then 0
  else if inGrp off 0 4 4 then viewFeat s (0x30 + off)
  else if off = 0x10 then
    b2n s.boot.sealed + s.boot.floor % 4 * 2 + b2n (s.link.width < 16 || s.link.gts < 32) * 2 ^ 3 + fn * 2 ^ 8
  else if inGrp off 0x1000 0x10 64 then
    match ringAtSlot s fn ((off - 0x1000) / 0x10) with
    | some n => if off % 0x10 = 0 then ringStat s n else if off % 0x10 = 4 then ringCnt s n else 0
    | none => 0
  else 0

end Sys2Proof.Machine
end

