-- ==== Sys2Proof/WellFormed.lean ====
section
/-! DEFINITION. Well-formed commands: each index names a register, unit or symbol of the largest assembly, each field
fits its width. A command that is not well-formed cannot be sent. -/
namespace Sys2Proof
open Sys2Proof.Machine (bitAt)

/-- An engine class (0 RX, 1 CD, 2 PA, 3 TE, 4 FX, 5 CV, 6 MV) and a value of the UNIT field (R165, R166). -/
def unitOk (cls u : Nat) : Bool := cls < 7 && u < 256

/-- A receiver tile and one of its two TVCs (R266). -/
def tvcOk (t v : Nat) : Bool := t < 64 && v < 2

/-- Fields of format V fit (R280 Table 5). -/
def VOperands.wf (o : VOperands) : Bool := o.vd < 32 && o.va < 32 && o.vb < 32 && o.k < 64 && o.f < 16

/-- Fields of format M fit (R280 Table 5). -/
def MOperands.wf (o : MOperands) : Bool := o.vr < 32 && o.p < 8 && o.o < 8 && o.mode < 4 && o.imm < 8192

/-- An offset lies in its window (R123 Table 1). -/
def Window.wf : Window → Bool
  | .setup off => off < 0x200000
  | .doorbells fn off => fn < 64 && off < (if fn = 0 then 0x400000 else 0x40000)
  | .msix fn off => fn < 64 && off < (if fn = 0 then 0x10000 else 0x1000)

/-- The source of a timeout names a unit or a ring. -/
def TimeoutSource.wf : TimeoutSource → Bool
  | .operation cls u => unitOk cls u
  | .walk cls u va _ => unitOk cls u && va < 2 ^ 48
  | .fetch r _ | .poll r _ | .history r _ | .bind r _ => r < 1024
  | .profile k _ => k < 4
  | .list _ | .ringEntry _ | .publish _ | .ptpQueue _ => true
  | .peerCfg => true

/-- A command whose operands are in range. -/
def Instr.wf : Instr → Bool
  | .pwrokAssert => true
  | .coldReset => true
  | .perstAssert => true
  | .perstDeassert => true
  | .dlDown => true
  | .pfFlr => true
  | .tapReset => true
  | .bootImageCheck => true
  | .fwUp => true
  | .mapDone failed _ d2dBad => failed.all (fun e => e.1 < 13 && e.2 < 1024) && d2dBad.all (· < 3)
  | .ready => true
  | .configRequest fn _ _ => fn < 64
  | .linkRetrain width gts => [1, 2, 4, 8, 16].contains width && [2, 5, 8, 16, 32].contains gts
  | .vfEnableChange _ numVfs => numVfs < 64
  | .vfFlr k => 1 ≤ k && k < 64
  | .lockstepMismatch => true
  | .fwWatchdogExpire => true
  | .ezdanResume => true
  | .logRead => true
  | .flashWrite => true
  | .flashActivate => true
  | .warmReset => true
  | .svnCommit => true
  | .mboxUnknown code => code < 256 && !(1 ≤ code && code ≤ 5)
  | .mboxDone => true
  | .smbBootStage => true
  | .smbTjMax => true
  | .smbShedState => true
  | .smbRetiredCount => true
  | .smbErrorCodes => true
  | .seal => true
  | .registerWrite w _ _ => w.wf
  | .etuTimeLatch => true
  | .xcycLatch n => n < 74
  | .srefLatch k => k < 6
  | .capRead n => n < 32
  | .minClr n => n < 96
  | .occClr id => id < 4096
  | .occClrRow id => id < 4096
  | .hostevAdd evc => evc < 4096
  | .hostevSet evc _ => evc < 4096
  | .refCfgWrite n _ => n < 6
  | .timeReset => true
  | .forceHoldover => true
  | .keepRef => true
  | .clearSuspect n => n < 6
  | .releaseHoldover => true
  | .ptpMeas _ => true
  | .todSec _ => true
  | .ppsPulse => true
  | .refQualified n => n < 6
  | .refCriterionLost n => n < 6
  | .enterLocked => true
  | .pullInDone => true
  | .holdExpired => true
  | .driftWindow freq => freq.all (fun e => e.1 < 6)
  | .dieUnsynced d => 1 ≤ d && d < 3
  | .dieRealign d => 1 ≤ d && d < 3
  | .trigArm n ctrl => n < 64 && bitAt ctrl.toNat 0
  | .trigDisarm n ctrl => n < 64 && !bitAt ctrl.toNat 0
  | .trigFire ns => ns.all (· < 64) && ns.Nodup
  | .captureEdge src _ => src < 1024
  | .excursion n => n < 74
  | .patinaSample m slack => m < 96 && slack < 256
  | .patinaCritTick c => c.inst < 74
  | .marginFail n => n < 74
  | .patinaRecoveryTick n => n < 74
  | .jdWindow n jitter duty _ => n < 16 && jitter < 256 && duty < 256
  | .jdLoss n => n < 16
  | .capRampTick n => n < 74
  | .stepAdmit => true
  | .setpointStep _ => true
  | .pmbusStatusPoll _ => true
  | .pmbusTelemetryPoll _ => true
  | .vrAlert _ => true
  | .tjUpdate _ => true
  | .thermtrip => true
  | .pfwNLow => true
  | .shed => true
  | .shedRampStep => true
  | .resume => true
  | .outputEnable ifc => ifc < 34
  | .outputDisable ifc => ifc < 34
  | .probeBurst p => p < 12
  | .submit fn page _ _ => fn < 64 && page < 1024
  | .cancel fn page target => fn < 64 && page < 1024 && target < 2 ^ 32
  | .pollRead r => r < 1024
  | .descriptorFetch r => r < 1024
  | .grant => true
  | .adminTake => true
  | .ringSetup => true
  | .ringTeardown => true
  | .ringReset => true
  | .evcAssign => true
  | .xltCtxSet => true
  | .xltInvalidate => true
  | .vfLimits => true
  | .peerCfg => true
  | .ringAdminCtrl _ => true
  | .ringAdminReset _ => true
  | .nop cls u => unitOk cls u
  | .wait cls u => unitOk cls u
  | .waitPass cls u => unitOk cls u
  | .signal cls u => unitOk cls u
  | .signalLocal cls u => unitOk cls u
  | .tvcRun u => u < 256
  | .tmuRun u => u < 256
  | .mqBind u => u < 256
  | .raBind r => r < 1024
  | .ldpcDec u => u < 256
  | .harqEntryTake u => u < 256
  | .ldpcEnc u => u < 256
  | .polarDec u => u < 256
  | .polarEnc u => u < 256
  | .harqFree u => u < 256
  | .paMatmul a => a < 256
  | .paConv a => a < 256
  | .paStore a => a < 256
  | .paReduceF a => a < 256
  | .paAccumX a => a < 256
  | .paCollect a => a < 256
  | .holdExpire c => c < 64
  | .preemptHandover a => a < 8
  | .preemptResume a => a < 8
  | .teCycle c => c < 256
  | .planningCycleStart c upto => c < 4 && upto < 65536
  | .searchBound c upto => c < 4 && upto < 65536
  | .fxSections p => p < 256
  | .fxUplane p => p < 256
  | .windowOpen p => p < 12
  | .cvStart k => k < 256
  | .cvAgc k => k < 256
  | .agcEntry k => k < 6
  | .mvCopy ch => ch < 256
  | .mvFill ch => ch < 256
  | .segmentStop cls u => unitOk cls u
  | .lateEvent r => r < 1024
  | .descriptorEnd r => r < 1024
  | .completionWrite r => r < 1024
  | .msixMessage v => v < 2048
  | .crossbarArrival inputs => inputs.all (· < 4096)
  | .evcParity n => n < 4096
  | .hedgerowUe router => router < 64
  | .d2dRetry d _ => d < 3
  | .d2dDown d => d < 3
  | .waitStuck cls u => unitOk cls u
  | .errRetireCmd typ idx => typ < 256 && idx < 65536
  | .logFlashCopy _ => true
  | .scrub unit off => unit < 6 && off < 2 ^ 48
  | .layInvHandle ctx handle => ctx < 64 && handle < 65536
  | .layInvAll ctx => ctx < 64
  | .layInvDone => true
  | .peerInbound die _ _ _ => 1 ≤ die && die < 3
  | .publish func table sfn sf => func < 64 && table < 256 && sfn < 1024 && sf < 16
  | .withdraw entry => entry < 256
  | .publishDone => true
  | .portUp p => p < 12
  | .portDown p => p < 12
  | .restart p => p < 12
  | .frameReceive p check _ _ => p < 12 && check < 7
  | .rxWindowClose c sfn slot sym => c < 128 && sfn < 1024 && slot < 80 && sym < 14
  | .admissionOpen c => c < 128
  | .placementEffect c => c < 128
  | .egressGrant p => p < 12
  | .cpCancelSection c sfn slot sec => c < 128 && sfn < 1024 && slot < 80 && sec < 4096
  | .cpCancelAll c sfn slot => c < 128 && sfn < 1024 && slot < 80
  | .tqTransmit => true
  | .linkSync k => k < 6
  | .sysrefEdge k => k < 6
  | .laneLock k => k < 6
  | .converterStart k => k < 6
  | .linkLoss k => k < 6
  | .nrSymbol k sfn slot sym _ => k < 6 && sfn < 1024 && slot < 80 && sym < 14
  | .txSymbol k sfn slot sym => k < 6 && sfn < 1024 && slot < 80 && sym < 14
  | .stsWindow k _ => k < 6
  | .startDetection k _ _ => k < 6
  | .burstDetected k _ _ => k < 6
  | .burstEnd k _ _ _ => k < 6
  | .listenExpire k => k < 6
  | .cvProfLoad p => p < 4
  | .dmaDone t v => tvcOk t v
  | .tvcRunaway t v => tvcOk t v
  | .tvcNop t v slot => tvcOk t v && slot < 4
  | .tvcLi t v sd imm => tvcOk t v && sd < 16 && imm < 16384
  | .tvcLih t v sd imm => tvcOk t v && sd < 16 && imm < 16384
  | .tvcAdd t v sd sa sb => tvcOk t v && sd < 16 && sa < 16 && sb < 16
  | .tvcSub t v sd sa sb => tvcOk t v && sd < 16 && sa < 16 && sb < 16
  | .tvcAddi t v sd sa imm => tvcOk t v && sd < 16 && sa < 16 && imm < 16384
  | .tvcAnd t v sd sa sb => tvcOk t v && sd < 16 && sa < 16 && sb < 16
  | .tvcOr t v sd sa sb => tvcOk t v && sd < 16 && sa < 16 && sb < 16
  | .tvcShl t v sd sa sb => tvcOk t v && sd < 16 && sa < 16 && sb < 16
  | .tvcShr t v sd sa sb => tvcOk t v && sd < 16 && sa < 16 && sb < 16
  | .tvcLoop t v sa body imm => tvcOk t v && sa < 16 && imm < 4096 && body < 1024
  | .tvcBnz t v sa imm => tvcOk t v && sa < 16 && imm < 16384
  | .tvcMovp t v pt sa => tvcOk t v && sa < 16 && pt < 32
  | .tvcSetrm t v imm => tvcOk t v && imm < 16384
  | .tvcRdcyc t v sd => tvcOk t v && sd < 16
  | .tvcDma t v sa => tvcOk t v && sa < 16
  | .tvcDmaw t v => tvcOk t v
  | .tvcEnd t v => tvcOk t v
  | .tvcVadd t v o => tvcOk t v && o.wf
  | .tvcVsub t v o => tvcOk t v && o.wf
  | .tvcVcmul t v o => tvcOk t v && o.wf
  | .tvcVmag t v o => tvcOk t v && o.wf
  | .tvcVsta t v o => tvcOk t v && o.wf
  | .tvcVrcp t v o => tvcOk t v && o.wf
  | .tvcVmov t v o => tvcOk t v && o.wf
  | .tvcVbcst t v o => tvcOk t v && o.wf
  | .tvcVmax t v o => tvcOk t v && o.wf
  | .tvcVmin t v o => tvcOk t v && o.wf
  | .tvcVclip t v o => tvcOk t v && o.wf
  | .tvcVpack8 t v o => tvcOk t v && o.wf
  | .tvcCsel t v o => tvcOk t v && o.wf
  | .tvcLd t v o => tvcOk t v && o.wf
  | .tvcSt t v o => tvcOk t v && o.wf
  | .tvcLdb t v o => tvcOk t v && o.wf
  | .refCriterionMet n => n < 6
  | .pfwNRelease => true
  | .completionTimeout src => src.wf
  | .airTimeEnd k sfn slot sym => k < 6 && sfn < 1024 && slot < 80 && sym < 14
  | .msixUnmask fn entry => fn < 64 && entry < 2048
  | .tckEdge _ _ => true

end Sys2Proof
end

