-- ==== Sys2Proof/Tests/Slice0.lean ====
section
/-! SUPPORT. This model's own tests: an ill-formed term for each check, states and operands that meet the hypotheses of each
statement, and small single steps whose expected results are the spec's own numbers. -/
namespace Sys2Proof.Tests
open Sys2Proof.Machine

/-! ### Ill-formed commands are refused, one term for each check -/

def vops : VOperands := { t := false, vd := 0, va := 0, vb := 0, k := 0, f := 0 }
def mops : MOperands := { l1 := false, vr := 0, p := 0, o := 0, mode := 0, imm := 0 }
/-- Each field of the operand forms has its own check. -/
theorem test_wf_operands :
    vops.wf = true ∧ mops.wf = true ∧ [{ vops with vd := 32 }, { vops with va := 32 }, { vops with vb := 32 },
      { vops with k := 64 }, { vops with f := 16 }].all (fun o => !o.wf) = true
    ∧ [{ mops with vr := 32 }, { mops with p := 8 }, { mops with o := 8 }, { mops with mode := 4 },
      { mops with imm := 8192 }].all (fun o => !o.wf) = true := by decide
/-- Some commands are well-formed. -/
theorem test_wf_accepts :
    [Instr.pwrokAssert, .mapDone [(12, 2)] false [2], .trigArm 63 1, .trigDisarm 63 0, .submit 63 1023 0 0, .tvcVadd 63 1 vops,
      .tvcLd 0 0 mops, .completionTimeout (.fetch 1023 true), .outputEnable 33, .nop 6 255].all (·.wf) = true := by decide
theorem test_wf_refuses_1 : ([
    .mapDone [(13, 0)] false [], .mapDone [(0, 1024)] false [], .mapDone [] false [3], .configRequest 64 .ident none,
    .linkRetrain 3 5, .linkRetrain 1 3, .vfEnableChange false 64, .vfFlr 0,
    .vfFlr 64, .mboxUnknown 256, .mboxUnknown 5, .registerWrite (.setup 0x200000) 4 0, .registerWrite (.doorbells 64 0) 4 0,
    .registerWrite (.doorbells 1 0x40000) 4 0, .registerWrite (.msix 0 0x10000) 4 0,
    .xcycLatch 74, .srefLatch 6, .capRead 32, .minClr 96,
    .occClr 4096, .occClrRow 4096, .hostevAdd 4096, .hostevSet 4096 [],
    .refCfgWrite 6 0, .clearSuspect 6, .refQualified 6, .refCriterionLost 6] : List Instr).all (fun i => !i.wf) = true := by decide
theorem test_wf_refuses_2 : ([
    .driftWindow [(6, 0)], .dieUnsynced 0, .dieUnsynced 3, .dieRealign 0,
    .dieRealign 3, .trigArm 64 1, .trigArm 0 0, .trigDisarm 64 0,
    .trigDisarm 0 1, .trigFire [64], .trigFire [3, 3], .captureEdge 1024 false,
    .excursion 74, .patinaSample 96 0, .patinaSample 0 256, .patinaCritTick ⟨74, 0⟩,
    .marginFail 74, .patinaRecoveryTick 74, .jdWindow 16 0 0 0, .jdWindow 0 256 0 0,
    .jdWindow 0 0 256 0, .jdLoss 16, .capRampTick 74, .outputEnable 34] : List Instr).all (fun i => !i.wf) = true := by decide
theorem test_wf_refuses_3 : ([
    .outputDisable 34, .probeBurst 12, .submit 64 0 0 0, .submit 0 1024 0 0,
    .cancel 64 0 0, .cancel 0 1024 0, .cancel 0 0 (2 ^ 32), .pollRead 1024,
    .descriptorFetch 1024, .nop 7 0, .nop 0 256, .wait 7 0,
    .wait 0 256, .waitPass 7 0, .waitPass 0 256, .signal 7 0,
    .signal 0 256, .signalLocal 7 0, .signalLocal 0 256, .tvcRun 256,
    .tmuRun 256, .mqBind 256, .raBind 1024, .ldpcDec 256] : List Instr).all (fun i => !i.wf) = true := by decide
theorem test_wf_refuses_4 : ([
    .harqEntryTake 256, .ldpcEnc 256, .polarDec 256, .polarEnc 256,
    .harqFree 256, .paMatmul 256, .paConv 256, .paStore 256,
    .paReduceF 256, .paAccumX 256, .paCollect 256, .holdExpire 64,
    .preemptHandover 8, .preemptResume 8, .teCycle 256, .planningCycleStart 4 0,
    .planningCycleStart 0 65536, .searchBound 4 0, .searchBound 0 65536, .fxSections 256,
    .fxUplane 256, .windowOpen 12, .cvStart 256, .cvAgc 256] : List Instr).all (fun i => !i.wf) = true := by decide
theorem test_wf_refuses_5 : ([
    .agcEntry 6, .mvCopy 256, .mvFill 256, .segmentStop 7 0,
    .segmentStop 0 256, .lateEvent 1024, .descriptorEnd 1024, .completionWrite 1024,
    .msixMessage 2048, .crossbarArrival [4096], .evcParity 4096, .hedgerowUe 64,
    .d2dRetry 3 false, .d2dDown 3, .waitStuck 7 0, .waitStuck 0 256,
    .errRetireCmd 256 0, .errRetireCmd 0 65536, .scrub 6 0, .scrub 0 (2 ^ 48),
    .layInvHandle 64 0, .layInvHandle 0 65536, .layInvAll 64, .peerInbound 0 0 none 0] : List Instr).all (fun i => !i.wf) = true := by decide
theorem test_wf_refuses_6 : ([
    .peerInbound 3 0 none 0, .publish 64 0 0 0, .publish 0 256 0 0, .publish 0 0 1024 0,
    .publish 0 0 0 16, .withdraw 256, .portUp 12, .portDown 12,
    .restart 12, .frameReceive 12 0 false [], .frameReceive 0 7 false [], .rxWindowClose 128 0 0 0,
    .rxWindowClose 0 1024 0 0, .rxWindowClose 0 0 80 0, .rxWindowClose 0 0 0 14, .admissionOpen 128,
    .placementEffect 128, .egressGrant 12, .cpCancelSection 128 0 0 0, .cpCancelSection 0 1024 0 0,
    .cpCancelSection 0 0 80 0, .cpCancelSection 0 0 0 4096, .cpCancelAll 128 0 0, .cpCancelAll 0 1024 0] : List Instr).all (fun i => !i.wf) = true := by decide
theorem test_wf_refuses_7 : ([
    .cpCancelAll 0 0 80, .linkSync 6, .sysrefEdge 6, .laneLock 6,
    .converterStart 6, .linkLoss 6, .nrSymbol 6 0 0 0 [], .nrSymbol 0 1024 0 0 [],
    .nrSymbol 0 0 80 0 [], .nrSymbol 0 0 0 14 [], .txSymbol 6 0 0 0, .txSymbol 0 1024 0 0,
    .txSymbol 0 0 80 0, .txSymbol 0 0 0 14, .stsWindow 6 0, .startDetection 6 0 0,
    .burstDetected 6 0 0, .burstEnd 6 [] [] 0, .listenExpire 6, .cvProfLoad 4,
    .dmaDone 64 0, .dmaDone 0 2, .tvcRunaway 64 0, .tvcRunaway 0 2] : List Instr).all (fun i => !i.wf) = true := by decide
theorem test_wf_refuses_8 : ([
    .tvcNop 64 0 0, .tvcNop 0 2 0, .tvcNop 0 0 4, .tvcLi 64 0 0 0,
    .tvcLi 0 2 0 0, .tvcLi 0 0 16 0, .tvcLi 0 0 0 16384, .tvcLih 64 0 0 0,
    .tvcLih 0 2 0 0, .tvcLih 0 0 16 0, .tvcLih 0 0 0 16384, .tvcAdd 64 0 0 0 0,
    .tvcAdd 0 2 0 0 0, .tvcAdd 0 0 16 0 0, .tvcAdd 0 0 0 16 0, .tvcAdd 0 0 0 0 16,
    .tvcSub 64 0 0 0 0, .tvcSub 0 2 0 0 0, .tvcSub 0 0 16 0 0, .tvcSub 0 0 0 16 0,
    .tvcSub 0 0 0 0 16, .tvcAddi 64 0 0 0 0, .tvcAddi 0 2 0 0 0, .tvcAddi 0 0 16 0 0] : List Instr).all (fun i => !i.wf) = true := by decide
theorem test_wf_refuses_9 : ([
    .tvcAddi 0 0 0 16 0, .tvcAddi 0 0 0 0 16384, .tvcAnd 64 0 0 0 0, .tvcAnd 0 2 0 0 0,
    .tvcAnd 0 0 16 0 0, .tvcAnd 0 0 0 16 0, .tvcAnd 0 0 0 0 16, .tvcOr 64 0 0 0 0,
    .tvcOr 0 2 0 0 0, .tvcOr 0 0 16 0 0, .tvcOr 0 0 0 16 0, .tvcOr 0 0 0 0 16,
    .tvcShl 64 0 0 0 0, .tvcShl 0 2 0 0 0, .tvcShl 0 0 16 0 0, .tvcShl 0 0 0 16 0,
    .tvcShl 0 0 0 0 16, .tvcShr 64 0 0 0 0, .tvcShr 0 2 0 0 0, .tvcShr 0 0 16 0 0,
    .tvcShr 0 0 0 16 0, .tvcShr 0 0 0 0 16, .tvcLoop 64 0 0 0 0, .tvcLoop 0 2 0 0 0] : List Instr).all (fun i => !i.wf) = true := by decide
theorem test_wf_refuses_10 : ([
    .tvcLoop 0 0 16 0 0, .tvcLoop 0 0 0 0 4096, .tvcLoop 0 0 0 1024 0, .tvcBnz 64 0 0 0,
    .tvcBnz 0 2 0 0, .tvcBnz 0 0 16 0, .tvcBnz 0 0 0 16384, .tvcMovp 64 0 0 0,
    .tvcMovp 0 2 0 0, .tvcMovp 0 0 0 16, .tvcMovp 0 0 32 0, .tvcSetrm 64 0 0,
    .tvcSetrm 0 2 0, .tvcSetrm 0 0 16384, .tvcRdcyc 64 0 0, .tvcRdcyc 0 2 0,
    .tvcRdcyc 0 0 16, .tvcDma 64 0 0, .tvcDma 0 2 0, .tvcDma 0 0 16,
    .tvcDmaw 64 0, .tvcDmaw 0 2, .tvcEnd 64 0, .tvcEnd 0 2] : List Instr).all (fun i => !i.wf) = true := by decide
theorem test_wf_refuses_11 : ([
    .tvcVadd 64 0 vops, .tvcVadd 0 2 vops, .tvcVadd 0 0 { vops with f := 16 }, .tvcVsub 64 0 vops,
    .tvcVsub 0 2 vops, .tvcVsub 0 0 { vops with f := 16 }, .tvcVcmul 64 0 vops, .tvcVcmul 0 2 vops,
    .tvcVcmul 0 0 { vops with f := 16 }, .tvcVmag 64 0 vops, .tvcVmag 0 2 vops, .tvcVmag 0 0 { vops with f := 16 },
    .tvcVsta 64 0 vops, .tvcVsta 0 2 vops, .tvcVsta 0 0 { vops with f := 16 }, .tvcVrcp 64 0 vops,
    .tvcVrcp 0 2 vops, .tvcVrcp 0 0 { vops with f := 16 }, .tvcVmov 64 0 vops, .tvcVmov 0 2 vops,
    .tvcVmov 0 0 { vops with f := 16 }, .tvcVbcst 64 0 vops, .tvcVbcst 0 2 vops, .tvcVbcst 0 0 { vops with f := 16 }] : List Instr).all (fun i => !i.wf) = true := by decide
theorem test_wf_refuses_12 : ([
    .tvcVmax 64 0 vops, .tvcVmax 0 2 vops, .tvcVmax 0 0 { vops with f := 16 }, .tvcVmin 64 0 vops,
    .tvcVmin 0 2 vops, .tvcVmin 0 0 { vops with f := 16 }, .tvcVclip 64 0 vops, .tvcVclip 0 2 vops,
    .tvcVclip 0 0 { vops with f := 16 }, .tvcVpack8 64 0 vops, .tvcVpack8 0 2 vops, .tvcVpack8 0 0 { vops with f := 16 },
    .tvcCsel 64 0 vops, .tvcCsel 0 2 vops, .tvcCsel 0 0 { vops with f := 16 }, .tvcLd 64 0 mops,
    .tvcLd 0 2 mops, .tvcLd 0 0 { mops with mode := 4 }, .tvcSt 64 0 mops, .tvcSt 0 2 mops,
    .tvcSt 0 0 { mops with mode := 4 }, .tvcLdb 64 0 mops, .tvcLdb 0 2 mops, .tvcLdb 0 0 { mops with mode := 4 }] : List Instr).all (fun i => !i.wf) = true := by decide
theorem test_wf_refuses_13 : ([
    .refCriterionMet 6, .completionTimeout (.operation 7 0), .completionTimeout (.walk 0 256 0 false), .completionTimeout (.walk 0 0 (2 ^ 48) true),
    .completionTimeout (.fetch 1024 false), .completionTimeout (.poll 1024 false), .completionTimeout (.history 1024 true),
    .completionTimeout (.bind 1024 false), .completionTimeout (.profile 4 false), .airTimeEnd 6 0 0 0, .airTimeEnd 0 1024 0 0, .airTimeEnd 0 0 80 0,
    .airTimeEnd 0 0 0 14, .msixUnmask 64 0, .msixUnmask 0 2048] : List Instr).all (fun i => !i.wf) = true := by decide

/-! ### Each statement has states and operands that meet its hypotheses -/

theorem wit_emptyQueue : ∃ s : State, s.pending = [] ∧ s.etu.tclkLost = false := ⟨{}, rfl, rfl⟩

theorem wit_frontCommand : ∃ s t : State, Machine.step { s with pending := [.pwrokAssert] } = .next t :=
  ⟨{}, _, rfl⟩

theorem wit_fusedFacts : ∃ s t : State, Machine.step s = .next t ∧ t.fuse.svn = 2 :=
  ⟨{ boot := { fwUp := true, runSvn := 2 }, pending := [.svnCommit] }, _, rfl, rfl⟩

theorem wit_memoriesCanonical : ∃ s t : State, s.mem.wf = true ∧ Machine.step s = .next t :=
  ⟨{ mem := { host := [(1, 2), (3, 4)] } }, _, by decide, rfl⟩

theorem wit_registerWords : ∃ s t : State, RegsWf s ∧ Machine.step s = .next t :=
  ⟨{ regs := [(0x48, 1), (0x4C, 2)] }, _, rfl, rfl⟩

theorem wit_sealedSteps : ∃ s t : State, RegsWf s ∧ s.boot.sealed = true ∧ Machine.step s = .next t
    ∧ t.boot.sealed = true :=
  ⟨{ boot := { sealed := true }, pending := [.pwrokAssert] }, _, rfl, rfl, rfl, rfl⟩

theorem wit_quietRows : ∃ (c : Instr) (s t : State), writesQuiet c = false ∧ exec c s = .next t :=
  ⟨.pwrokAssert, {}, _, rfl, rfl⟩

theorem wit_storingRows : ∃ (c : Instr) (s t : State), mayStore c = false ∧ writesQuiet c = false ∧ exec c s = .next t :=
  ⟨.pwrokAssert, {}, _, rfl, rfl, rfl⟩

theorem wit_pinCommands : ∃ s : State, s.boot.pwrok = true ∧ s.tap.state = 4 ∧ tapNext s.tap.state true ≠ 0 :=
  ⟨{ boot := { pwrok := true }, tap := { state := 4 } }, rfl, rfl, by decide⟩

theorem wit_warmResets : ∃ s : State, s.boot.halted = false ∧ s.boot.pwrok = true ∧ s.link.trained = true
    ∧ s.boot.fwUp = true ∧ mboxBusy s = false :=
  ⟨{ boot := { pwrok := true, fwUp := true }, link := { trained := true } }, rfl, rfl, rfl, rfl, rfl⟩

theorem wit_startUp :
    (∃ s : State, s.boot.pwrok = true ∧ s.boot.halted = false ∧ s.boot.stage = 0 ∧ s.boot.fwUp = false
      ∧ accepts s (imageOf s 0) = true ∧ accepts s (imageOf s 1) = false)
    ∧ (∃ s : State, s.boot.pwrok = true ∧ s.boot.perst = false ∧ s.boot.fwUp = false ∧ s.boot.stage = 1)
    ∧ (∃ s : State, s.boot.fwUp = true ∧ s.boot.recovery = false ∧ s.boot.mapDone = false ∧ s.boot.published = true)
    ∧ (∃ s : State, s.boot.mapDone = true ∧ s.boot.ready = false) :=
  ⟨⟨{ boot := { pwrok := true }
      flash := { imageA := { certOk := true, sigOk := true, namesCore := true } } }, by decide⟩,
   ⟨{ boot := { pwrok := true, perst := false, stage := 1 } }, by decide⟩,
   ⟨{ boot := { fwUp := true, published := true } }, by decide⟩, ⟨{ boot := { mapDone := true } }, by decide⟩⟩

theorem wit_ezdan :
    (∃ s : State, s.boot.pwrok = true ∧ s.boot.fwUp = true ∧ s.boot.halted = false ∧ s.boot.ezHalted = false
      ∧ (s.boot.lastRestart.any fun t => s.sclk < t + 100000000) = false)
    ∧ (∃ s : State, s.boot.pwrok = true ∧ s.boot.fwUp = false ∧ s.boot.halted = false)
    ∧ (∃ s : State, s.boot.restarting = true ∧ s.arb.admin = none ∧ s.boot.heldAdminReset = 0) :=
  ⟨⟨{ boot := { pwrok := true, fwUp := true, lastRestart := some 0 }, sclk := 100000000 }, by decide⟩,
   ⟨{ boot := { pwrok := true } }, by decide⟩, ⟨{ boot := { restarting := true } }, by decide⟩⟩

theorem wit_mailbox :
    (∃ s : State, s.boot.fwUp = true ∧ mboxBusy s = false ∧ reg s 0x48 + 4096 ≤ 1048576 ∧ s.flash.active % 2 = 0
      ∧ accepts s (imageOf s 1) = true ∧ s.boot.recovery = false)
    ∧ (∃ s : State, s.boot.fwUp = true ∧ mboxBusy s = false ∧ 4194304 < reg s 0x48 + 4096 ∧ s.flash.active % 2 = 1
      ∧ accepts s (imageOf s 0) = false)
    ∧ (∃ s : State, s.boot.fwUp = true ∧ s.mbox.busy = true ∧ s.boot.restarting = false ∧ s.boot.ezHalted = false) :=
  ⟨⟨{ boot := { fwUp := true }
      flash := { imageB := { certOk := true, sigOk := true, namesCore := true } } }, by decide⟩,
   ⟨{ boot := { fwUp := true }, flash := { active := 1 }, regs := [(0x48, 0x800000)] }, by decide⟩,
   ⟨{ boot := { fwUp := true }, mbox := { busy := true } }, by decide⟩⟩

theorem wit_smbus : ∃ s : State, s.boot.pwrok = true := ⟨{ boot := { pwrok := true } }, rfl⟩

theorem wit_hostLink :
    (∃ s : State, s.boot.pwrok = true ∧ s.boot.perst = false ∧ s.boot.halted = false)
    ∧ (∃ s : State, s.link.trained = true ∧ s.boot.fwUp = true ∧ fnExists s 0 = true)
    ∧ (∃ s : State, s.link.trained = true ∧ s.boot.fwUp = false)
    ∧ (∃ s : State, messageDue s 5 = true ∧ (tblGet {} s.link.msix 5).masked = false ∧ poolEntry s 0 5 = some 5) :=
  ⟨⟨{ boot := { pwrok := true, perst := false } }, by decide⟩,
   ⟨{ boot := { fwUp := true }, link := { trained := true } }, by decide⟩,
   ⟨{ link := { trained := true } }, by decide⟩,
   ⟨{ ev := { vec := [(5, { n := 1 })] }, link := { msix := [(5, { masked := false })] } }, by decide⟩⟩

theorem wit_functionResets :
    (∃ s : State, s.link.vfEnable = true ∧ 1 ≤ 3 ∧ 3 ≤ s.link.numVfs ∧ s.boot.fwUp = true)
    ∧ ∃ s : State, s.boot.fwUp = true ∧ s.link.vfEnable = false :=
  ⟨⟨{ link := { vfEnable := true, numVfs := 3 }, boot := { fwUp := true } }, by decide⟩,
   ⟨{ boot := { fwUp := true } }, by decide⟩⟩

theorem wit_seal :
    (∃ s : State, s.boot.fwUp = true ∧ s.boot.recovery = false ∧ s.boot.sealed = true)
    ∧ (∃ s : State, s.boot.fwUp = true ∧ s.boot.sealed = false ∧ s.boot.ready = false)
    ∧ (∃ s : State, s.boot.fwUp = true ∧ s.boot.sealed = false ∧ s.boot.ready = true
        ∧ bitAt (reg s 0x10010) 0 = true ∧ s.feat.offer.getLsbD 0 = false)
    ∧ (∃ s : State, s.boot.fwUp = true ∧ s.boot.sealed = false ∧ s.boot.ready = true
        ∧ bitAt (reg s 0x10010) 3 = true ∧ s.feat.offer.getLsbD 3 = true ∧ bitAt (reg s 0x10010) 2 = false
        ∧ ∀ b < 3, bitAt (reg s (0x10010 + 4 * (b / 32))) (b % 32) = false)
    ∧ ∃ s : State, s.boot.fwUp = true ∧ s.boot.sealed = false ∧ s.boot.ready = true
        ∧ ∀ b < 128, bitAt (reg s (0x10010 + 4 * (b / 32))) (b % 32) = false :=
  ⟨⟨{ boot := { fwUp := true, sealed := true } }, by decide⟩, ⟨{ boot := { fwUp := true } }, by decide⟩,
   ⟨{ boot := { fwUp := true, ready := true }, regs := [(0x10010, 1)] }, by decide⟩,
   ⟨{ boot := { fwUp := true, ready := true }, regs := [(0x10010, 8)], feat := { offer := 8 } }, by decide⟩,
   ⟨{ boot := { fwUp := true, ready := true } }, by decide⟩⟩

theorem wit_registerWrites :
    (∃ s : State, blockAnswers s 0x10010 = true ∧ RegsWf s ∧ s.boot.sealed = false)
    ∧ ∃ s : State, blockAnswers s 0x1001C = true ∧ RegsWf s ∧ s.boot.sealed = true :=
  ⟨⟨{ boot := { fwUp := true } }, by decide, rfl, rfl⟩, ⟨{ boot := { fwUp := true, sealed := true } }, by decide, rfl, rfl⟩⟩

theorem wit_flagSet : (38 : Nat) ≠ 896 ∧ (38 : Nat) ≠ 897 ∧ (1024 : Nat) ≠ 896 := by decide

theorem wit_latchingReads : ∃ s : State, served s = true ∧ unitExists s 11 5 = true
    ∧ (tblGet {} s.etu.cap 31).fifo = [7, 8] :=
  ⟨{ boot := { fwUp := true }, etu := { cap := [(31, { fifo := [7, 8] })] } }, by decide⟩

theorem wit_hostCounters :
    (∃ s : State, served s = true ∧ tblWf s.occ = true ∧ tblWf s.ev.evc = true ∧ (evc s 4095).frozen = true)
    ∧ ∃ s : State, served s = true ∧ (evc s 0).frozen = false ∧ tblWf s.ev.evc = true :=
  ⟨⟨{ boot := { fwUp := true }, occ := [(5, 9)], ev := { evc := [(4095, { frozen := true })] } }, by decide⟩,
   ⟨{ boot := { fwUp := true } }, by decide⟩⟩

theorem wit_references :
    (∃ s : State, etuLive s = true ∧ (refOf s 4).st = 1 ∧ refSignal s 4 = true)
    ∧ (∃ s : State, etuLive s = true ∧ (refOf s 5).st = 2 ∧ served s = true)
    ∧ (∃ s : State, etuLive s = true ∧ (refOf s 0).st = 3 ∧ served s = true)
    ∧ ∃ s : State, etuLive s = true ∧ (refOf s 4).st = 4 ∧ refSignal s 4 = true :=
  ⟨⟨{ etu := { refs := [(4, { st := 1 })] }, regs := [(0x40140, 1)] }, by decide⟩,
   ⟨{ etu := { refs := [(5, { st := 2 })] }, boot := { fwUp := true } }, by decide⟩,
   ⟨{ etu := { refs := [(0, { st := 3 })] }, boot := { fwUp := true } }, by decide⟩,
   ⟨{ etu := { refs := [(4, { st := 4 })] }, regs := [(0x40140, 1)] }, by decide⟩⟩

theorem wit_etuModes :
    (∃ s : State, refsReady s = true ∧ etuLive s = true ∧ s.etu.state = 1)
    ∧ (∃ s : State, refsReady s = true ∧ etuLive s = true ∧ s.etu.state = 3 ∧ s.etu.pulling = true ∧ s.etu.forced = false)
    ∧ (∃ s : State, served s = true ∧ etuLive s = true ∧ s.etu.state = 2 ∧ s.etu.tclkLost = false)
    ∧ (∃ s : State, served s = true ∧ etuLive s = true ∧ s.etu.state = 3 ∧ s.etu.forced = true)
    ∧ ∃ s : State, served s = true ∧ s.etu.timeSel < 6 ∧ s.etu.freqSel < 6 :=
  ⟨⟨{ etu := { state := 1, timeSel := 0, freqSel := 0, refs := [(0, { st := 2 })] } }, by decide⟩,
   ⟨{ etu := { state := 3, pulling := true, timeSel := 0, freqSel := 0, refs := [(0, { st := 2 })] } }, by decide⟩,
   ⟨{ boot := { fwUp := true }, etu := { state := 2 } }, by decide⟩,
   ⟨{ boot := { fwUp := true }, etu := { state := 3, forced := true } }, by decide⟩,
   ⟨{ boot := { fwUp := true }, etu := { timeSel := 0, freqSel := 5 } }, by decide⟩⟩

theorem wit_holdExpired : (∃ s : State, s.etu.state = 3 ∧ reg s 0x4001C ≠ 0) ∧ ∃ s : State, s.etu.state = 3 ∧ reg s 0x4001C = 0 :=
  ⟨⟨{ etu := { state := 3 }, regs := [(0x4001C, 60)] }, by decide⟩, ⟨{ etu := { state := 3 }, regs := [(0x4001C, 0)] }, by decide⟩⟩

theorem wit_measurements :
    (∃ s : State, served s = true ∧ s.etu.tod = some 7)
    ∧ (∃ s : State, etuLive s = true ∧ s.etu.timeSel = 0 ∧ s.etu.freqSel = 0 ∧ (refOf s 0).st = 2)
    ∧ (∃ s : State, 1 ≤ 2 ∧ 2 < s.fuse.assy ∧ dieSynced s 2 = true)
    ∧ ∃ s : State, dieSynced s 1 = false ∧ d2dDown s 1 = false :=
  ⟨⟨{ boot := { fwUp := true }, etu := { tod := some 7 } }, by decide⟩,
   ⟨{ etu := { timeSel := 0, freqSel := 0, refs := [(0, { st := 2 })] } }, by decide⟩,
   ⟨{}, by decide⟩, ⟨{ etu := { unsynced := [(1, true)] } }, by decide⟩⟩

theorem wit_comparators :
    (∃ s : State, served s = true)
    ∧ (∃ s : State, (trigOf s 0).armed = true ∧ tblWf s.etu.trig = true ∧ (trigOf s 0).periodic = true
        ∧ 0 < (trigOf s 0).period ∧ (trigOf s 0).cmp.toNat ≤ (dieCount s (trigOf s 0).die).toNat)
    ∧ (∃ s : State, (trigOf s 63).armed = true ∧ tblWf s.etu.trig = true ∧ (trigOf s 63).periodic = false
        ∧ (trigOf s 63).cmp.toNat ≤ (dieCount s (trigOf s 63).die).toNat)
    ∧ (∃ s : State, trigDue s 63 = true) ∧ ∃ s : State, capDie s 0x115 = some 2 :=
  ⟨⟨{ boot := { fwUp := true } }, by decide⟩,
   ⟨{ etu := { count := 100, trig := [(0, { armed := true, periodic := true, period := 2000, cmp := 100 })] } }, by decide⟩,
   ⟨{ etu := { count := 100, trig := [(63, { armed := true, cmp := 100 })] } }, by decide⟩,
   ⟨{ etu := { count := 100, trig := [(63, { armed := true, cmp := 100 })] } }, by decide⟩, ⟨{}, by decide⟩⟩


theorem wit_jitter :
    (∃ s : State, jdMeasured s (jdSource s 15) = true ∧ jdSecond s 15 = false ∧ (jdOf s 15).lostA = false)
    ∧ (∃ s : State, jdMeasured s (jdSource s 0) = false)
    ∧ ∃ s : State, jdSecond s 0 = false ∧ (jdOf s 0).lostA = true :=
  ⟨⟨{ regs := [(0x70478, 1)] }, by decide⟩, ⟨{ regs := [(0x70400, 4)] }, by decide⟩,
   ⟨{ regs := [(0x70400, 1)], jd := [(0, { lostA := true })] }, by decide⟩⟩

theorem wit_regulator :
    (∃ s : State, (nextStep s).isSome = true)
    ∧ (∃ s : State, s.boot.pwrok = true ∧ s.boot.halted = false ∧ s.power.vset < s.fuse.vset
      ∧ (∀ e, e ∈ s.inst → e.2.held = true → e.2.hot = true) ∧ s.power.vrAlert = false ∧ s.power.driving = true)
    ∧ ∃ s : State, s.boot.pwrok = true ∧ s.boot.halted = false ∧ s.fuse.vset < s.power.vset :=
  ⟨⟨{ power := { waiting := [{ kind := .start 0, amount := 1, rising := true, radio := true }] } }, by decide⟩,
   ⟨{ boot := { pwrok := true }, fuse := { vset := 760 }, power := { vset := 750, driving := true } }, by decide⟩,
   ⟨{ boot := { pwrok := true }, fuse := { vset := 740 }, power := { vset := 750 } }, by decide⟩⟩

theorem wit_shedding :
    (∃ s : State, s.boot.pwrok = true ∧ served s = true ∧ s.power.shed = 2 ∧ s.power.pfw = false
      ∧ s.power.vrAlert = false ∧ s.power.ack = true ∧ s.power.tj.toInt < 115)
    ∧ (∃ s : State, s.power.shed = 1)
    ∧ (∃ s : State, s.power.tjValid = true ∧ 120 ≤ s.power.tj.toInt ∧ s.power.shed = 2)
    ∧ ∃ s : State, s.boot.pwrok = true ∧ s.power.tj.toInt < 115 ∧ 115 ≤ (BitVec.ofNat 8 115).toInt :=
  ⟨⟨{ boot := { pwrok := true, fwUp := true }, power := { shed := 2, ack := true } }, by decide⟩,
   ⟨{ power := { shed := 1 } }, by decide⟩, ⟨{ power := { shed := 2, tj := 121, tjValid := true } }, by decide⟩,
   ⟨{ boot := { pwrok := true } }, by decide⟩⟩

theorem wit_outputs :
    (∃ s : State, outputExists s 0 = true ∧ ethMode s 0 ≠ 2 ∧ outputExists s 21 = true ∧ outputExists s 32 = true)
    ∧ ∃ s : State, working s 10 0 = true ∧ bits (portCfg s 0) 1 0 ≠ 0 ∧ ethMode s 0 = 1 ∧ (portOf s 0).lock = false :=
  ⟨⟨{}, by decide⟩, ⟨{ regs := [(0x50018, 1), (0xF0000, 1)] }, by decide⟩⟩

def sealedRing : State :=
  { boot := { fwUp := true, sealed := true }
    ring := [(8, { st := 1, log2 := 6, nextSeq := 3, poll := true
                   slots := [{ k := 0, seq := 1 }, { k := 1, seq := 2, st := .running 0 }] })] }
theorem wit_doorbells : fnExists sealedRing 0 = true ∧ sealedRing.boot.sealed = true ∧ pageRing sealedRing 0 8 = some 8
    ∧ (ringOf sealedRing 9).st = 0 ∧ fnExists sealedRing 9 = false ∧ (ringOf sealedRing 8).st = 1 ∧ (ringOf sealedRing 8).poll = true
    ∧ ((ringOf sealedRing 8).slots.find? (fun x => x.accepted && x.seq = 1 && x.st ≠ .duplicate)) = some { k := 0, seq := 1 }
    ∧ ((ringOf sealedRing 8).slots.find? (fun x => x.accepted && x.seq = 3 && x.st ≠ .duplicate)) = none := by decide

theorem wit_fetchAndComplete :
    (∃ s : State, fetchDue s 8 = true)
    ∧ ∃ s : State, (ringOf s 8).st ≠ 0 ∧ (ringOf s 8).slots = [{ k := 0, seq := 0, st := .decided { status := 1 } }] :=
  ⟨⟨{ ring := [(8, { st := 1, producer := 1 })] }, by decide⟩,
   ⟨{ ring := [(8, { st := 1, slots := [{ k := 0, seq := 0, st := .decided { status := 1 } }] })] }, by decide⟩⟩

def readyRing : State :=
  { boot := { fwUp := true, sealed := true, floorCap := 2 }
    ring := [(8, { st := 1, prio := 1, inflight := 4, slots := [{ k := 0, seq := 0 }] })] }
theorem wit_grant : arbiterRuns readyRing = true ∧ nextGrant readyRing = some 8
    ∧ ringCollector { readyRing with arb := { readyRing.arb with last := tblPut readyRing.arb.last 1 8 } } 8 = none
    ∧ waitingSlots (ringOf readyRing 8) = [{ k := 0, seq := 0 }] ∧ late readyRing 0 = false
    ∧ classFloor (ringOf readyRing 8).cls ≤ readyRing.boot.floorCap := by decide

def adminState (opcode : Nat) : State :=
  { boot := { fwUp := true, sealed := true }
    ring := [(0, { st := 1, cls := 7, slots := [{ k := 0, seq := 0, st := .running 0 }] }), (9, { st := 1 })]
    arb := { admin := some { ring := 0, k := 0, opcode := opcode, args := [9, 0], grant := 0 } } }
theorem wit_adminRings :
    (ezdanRuns (adminState 1) = true ∧ setupRefusal (adminState 1) 9 0 0 0 = some 3)
    ∧ (ezdanRuns (adminState 3) = true ∧ 9 ≠ 0 ∧ (ringOf (adminState 3) 9).st = 1 ∧ beyondRings (adminState 3) 9 = false
      ∧ (ringOf (adminState 2) 9).producer ≤ (ringOf (adminState 2) 9).completed)
    ∧ ∃ s : State, ezdanRuns s = true ∧ s.arb.admin = none ∧ nextAdmin s = some (0, { k := 0, seq := 0, kind := 1, cmdAddr := 1 })
      ∧ late s 0 = false :=
  ⟨by decide, by decide,
   ⟨{ boot := { fwUp := true, sealed := true }
      ring := [(0, { st := 1, cls := 7, slots := [{ k := 0, seq := 0, kind := 1, cmdAddr := 1 }] })] }, by decide⟩⟩

def adminJob (opcode : Nat) (args : List W32) : State :=
  { boot := { fwUp := true, sealed := true }
    ring := [(0, { st := 1, cls := 7, slots := [{ k := 0, seq := 0, st := .running 0 }] })]
    arb := { admin := some { ring := 0, k := 0, opcode := opcode, args := args, grant := 0 } } }
theorem wit_adminCommands : ezdanRuns (adminJob 4 [4000, 96, 0]) = true ∧ fnExists (adminJob 4 []) 0 = true
    ∧ (evc (adminJob 4 []) 4000).owner = none ∧ arg64 [0, 0, 0x1000, 0] 2 = 4096 ∧ working (adminJob 8 []) 12 1 = true
    ∧ 0 < peerSegments (adminJob 8 []) 1 := by decide

theorem wit_adminByRegister :
    (∃ s : State, served s = true ∧ (ringOf s 7).st = 0 ∧ s.boot.restarting = false
      ∧ entryFits s (parseEntry (adminEntry s 7)) 0 false = false)
    ∧ (∃ s : State, served s = true ∧ s.boot.restarting = true) ∧ ∃ s : State, served s = true ∧ (ringOf s 0).st = 3 :=
  ⟨⟨{ boot := { fwUp := true } }, by decide⟩, ⟨{ boot := { fwUp := true, restarting := true } }, by decide⟩,
   ⟨{ boot := { fwUp := true }, ring := [(0, { st := 3 })] }, by decide⟩⟩

/-- A state in which one unit of a class stands before one operation. -/
def unitState (cls u opc : Nat) (imm : Nat) (extra : List W64) : State :=
  { boot := { fwUp := true, sealed := true, floorCap := 2 }
    inst := [(u % 64, { run := true }), (64 + u % 8, { run := true }), (72, { run := true }), (73, { run := true })].foldl
      (fun t e => tblPut t e.1 e.2) []
    ev := { evc := [(5, { val := 7, owner := some 0 })] }
    ring := [(8, { st := 1, cls := cls, slots := [{ k := 0, seq := 0, st := .running 0 }] })]
    runs := [{ id := 0, ring := 8, k := 0, seq := 0, fn := 0, cls := cls, prio := 1, deadline := 0, redeliver := false
               args := [], grant := 0, lateEvt := false, ra := false
               segs := [{ unit := u, ops := [{ idx := 2, opc := opc, unit := u, evc := 5, imm := imm, extra := extra }] }] }] }
theorem wit_listOperations : (atOp (unitState 6 3 0x00 0 []) 6 3 0x00).isSome = true
    ∧ (atOp (unitState 6 15 0x04 7 []) 6 15 0x04).isSome = true ∧ (atOp (unitState 6 3 0x05 0 []) 6 3 0x05).isSome = true
    ∧ (atOp (unitState 6 3 0x06 0 []) 6 3 0x06).isSome = true ∧ (inOp (unitState 6 3 0x04 9 []) 6 3).isSome = true
    ∧ (evc (unitState 6 3 0x00 0 []) 5).owner = some 0 := by decide

theorem wit_lists :
    (∃ (s : State) (x : Run), toStop s 6 3 = some x) ∧ (∃ (s : State) (x : Run), (s.runs.find? fun x => x.ring = 8 && (canEnd x || (x.cause = some .discarded && allEnded x))) = some x)
    ∧ (∃ (s : State) (x : Run), s.runs.find? (takesLate s 8) = some x)
    ∧ (∃ (s : State) (x : Run) (o : ListOp), (s.runs.find? fun x => x.ring = 8 && x.cause.isNone && x.loose.any fun l => l.opc = 0x18) = some x
        ∧ (x.loose.find? fun l => l.opc = 0x18) = some o)
    ∧ ∃ s : State, (inOp s 6 3).isSome = true ∧ reg s 0x80018 ≠ 0 := by
  let run : Run := { id := 0, ring := 8, k := 0, seq := 0, fn := 0, cls := 6, prio := 1, deadline := 5, redeliver := false
                     args := [], grant := 0, lateEvt := true, ra := true, segs := [] }
  let op : ListOp := { idx := 2, opc := 0x18, unit := 3, evc := 0, imm := 0, extra := [] }
  exact ⟨⟨{ runs := [{ run with segs := [{ unit := 3, ops := [op], stop := true }] }] }, _, rfl⟩,
    ⟨{ runs := [run] }, _, rfl⟩,
    ⟨{ etu := { state := 2, count := 9 }, runs := [{ run with segs := [{ unit := 3, ops := [op] }] }] }, _, rfl⟩,
    ⟨{ runs := [{ run with loose := [op] }] }, _, _, rfl, rfl⟩,
    ⟨{ regs := [(0x80018, 1)], runs := [{ run with segs := [{ unit := 3, ops := [op] }] }] }, by decide⟩⟩

def tvcState (word : Nat) (slot : Nat) : State :=
  { unitState 0 5 0x10 0 [0, 1] with
    tile := [(5, { tvc0 := { active := true, slot := slot, len := 2, words := List.replicate 4 (BitVec.ofNat 32 word)
                             dmas := [(0, List.replicate 32 0)] } })]
    runs := (unitState 0 5 0x10 0 [0, 1]).runs.map fun x => { x with segs := x.segs.map fun g => { g with phase := .tvc } } }
theorem wit_tiles :
    (atOp (unitState 0 5 0x10 0 [0, 1]) 0 5 0x10).isSome = true ∧ (instOf (unitState 0 5 0x10 0 [0, 1]) 5).run = true
    ∧ bits 1 10 0 = 1
    ∧ (tvcLive (tvcState 0 0) 5 0).isSome = true ∧ (tvcOf (tvcState 0 0) 5 0).dmas.length = 1
    ∧ (atOp (unitState 0 133 0x11 0 []) 0 133 0x11).isSome = true
    ∧ (atOp { unitState 0 133 0x12 0 [] with regs := [(0x10010, 4)] } 0 133 0x12).isSome = true
    ∧ feat { unitState 0 133 0x12 0 [] with regs := [(0x10010, 4)] } 2 = true := by decide

theorem wit_controlSlots :
    (∃ x, tvcLive (tvcState 0 0) 5 0 = some x) ∧ (tvcOf (tvcState 0 0) 5 0).ending = false
    ∧ tvcDecode 5 0 0 (slotWord (tvcOf (tvcState 0 0) 5 0)) = some (.tvcNop 5 0 0)
    ∧ tvcDecode 5 0 0 (0x0A * 2 ^ 26 + 3 * 2 ^ 12 + 4) = some (.tvcLoop 5 0 0 3 4)
    ∧ tvcDecode 5 0 0 (0x0B * 2 ^ 26 + 2 * 2 ^ 18 + 0x3FFF) = some (.tvcBnz 5 0 2 0x3FFF)
    ∧ tvcDecode 5 0 0 (0x0C * 2 ^ 26 + 31 * 2 ^ 21 + 1 * 2 ^ 17) = some (.tvcMovp 5 0 31 1)
    ∧ tvcDecode 5 0 0 (0x10 * 2 ^ 26 + 1 * 2 ^ 18) = some (.tvcDma 5 0 1)
    ∧ tvcDecode 5 0 0 (0x11 * 2 ^ 26) = some (.tvcDmaw 5 0) ∧ tvcDecode 5 0 0 (0x3F * 2 ^ 26) = some (.tvcEnd 5 0) :=
  ⟨⟨_, rfl⟩, by decide, by decide, by decide, by decide, by decide, by decide, by decide, by decide⟩

theorem wit_scalarSlot :
    (∃ x, tvcLive (tvcState (0x03 * 2 ^ 26 + 15 * 2 ^ 22 + 1 * 2 ^ 18 + 2 * 2 ^ 14) 0) 5 0 = some x)
    ∧ tblWf (tvcOf (tvcState 0 0) 5 0).new.s = true ∧ (tvcOf (tvcState 0 0) 5 0).ending = false
    ∧ tvcDecode 5 0 0 (0x03 * 2 ^ 26 + 15 * 2 ^ 22 + 1 * 2 ^ 18 + 2 * 2 ^ 14) = some (.tvcAdd 5 0 15 1 2)
    ∧ tvcDecode 5 0 0 (0x01 * 2 ^ 26 + 0 * 2 ^ 22 + 0x3FFF) = some (.tvcLi 5 0 0 0x3FFF)
    ∧ tvcDecode 5 0 0 (0x09 * 2 ^ 26 + 3 * 2 ^ 22 + 4 * 2 ^ 18 + 5 * 2 ^ 14) = some (.tvcShr 5 0 3 4 5) :=
  ⟨⟨_, rfl⟩, by decide, by decide, by decide, by decide, by decide⟩

theorem wit_vectorLanes :
    (∃ x, tvcLive (tvcState (0x01 * 2 ^ 26 + 31 * 2 ^ 20 + 1 * 2 ^ 15 + 2 * 2 ^ 10) 1) 5 0 = some x)
    ∧ tblWf (tvcOf (tvcState 0 1) 5 0).new.v = true ∧ (tvcOf (tvcState 0 1) 5 0).wrote = []
    ∧ (tvcOf (tvcState 0 1) 5 0).slot = 1
    ∧ tvcDecode 5 0 1 (slotWord (tvcOf (tvcState (0x01 * 2 ^ 26 + 31 * 2 ^ 20 + 1 * 2 ^ 15 + 2 * 2 ^ 10) 1) 5 0))
      = some (.tvcVadd 5 0 { t := false, vd := 31, va := 1, vb := 2, k := 0, f := 0 })
    ∧ tblGet? (tvcOf (tvcState 0 1) 5 0).old.v 2 = none ∧ sext 16 0 ≠ -32768 :=
  ⟨⟨_, rfl⟩, by decide, by decide, by decide, by decide, by decide⟩

theorem wit_accumulators :
    (∃ x, tvcLive (tvcState (0x03 * 2 ^ 26 + 7 * 2 ^ 20 + 1) 1) 5 0 = some x)
    ∧ tblWf (tvcOf (tvcState 0 1) 5 0).new.a = true
    ∧ tvcDecode 5 0 1 (0x03 * 2 ^ 26 + 7 * 2 ^ 20 + 1) = some (.tvcVcmul 5 0 { t := false, vd := 7, va := 0, vb := 0, k := 0, f := 1 })
    ∧ tvcDecode 5 0 1 (0x05 * 2 ^ 26 + 39 * 2 ^ 4) = some (.tvcVsta 5 0 { t := false, vd := 0, va := 0, vb := 0, k := 39, f := 0 })
    ∧ tvcDecode 5 0 1 (0x06 * 2 ^ 26 + 47 * 2 ^ 4) = some (.tvcVrcp 5 0 { t := false, vd := 0, va := 0, vb := 0, k := 47, f := 0 }) :=
  ⟨⟨_, rfl⟩, by decide, by decide, by decide, by decide⟩

theorem wit_selectorAndMemory :
    (∃ x, tvcLive (tvcState (0x01 * 2 ^ 26 + 3 * 2 ^ 13) 3) 5 0 = some x) ∧ (tvcOf (tvcState 0 2) 5 0).ending = false
    ∧ tvcDecode 5 0 3 (0x01 * 2 ^ 26 + 3 * 2 ^ 13) = some (.tvcLd 5 0 { l1 := true, vr := 0, p := 0, o := 0, mode := 3, imm := 0 })
    ∧ tvcDecode 5 0 2 (0x02 * 2 ^ 26) = some (.tvcSt 5 0 { l1 := false, vr := 0, p := 0, o := 0, mode := 0, imm := 0 })
    ∧ tvcDecode 5 0 2 (0x03 * 2 ^ 26) = some (.tvcLdb 5 0 { l1 := false, vr := 0, p := 0, o := 0, mode := 0, imm := 0 })
    ∧ tvcDecode 5 0 1 (0x10 * 2 ^ 26 + 2 ^ 25) = some (.tvcCsel 5 0 { t := true, vd := 0, va := 0, vb := 0, k := 0, f := 0 })
    ∧ tvcReadable 0 64 = true ∧ tileWritable 0 64 = true :=
  ⟨⟨_, rfl⟩, by decide, by decide, by decide, by decide, by decide, by decide, by decide⟩

theorem wit_coding : (atOp (unitState 1 0 0x20 0 []) 1 0 0x20).isSome = true ∧ (atOp (unitState 1 24 0x20 0 []) 1 24 0x20).isSome = true
    ∧ (atOp (unitState 1 31 0x21 0 []) 1 31 0x21).isSome = true ∧ (atOp (unitState 1 32 0x22 0 []) 1 32 0x22).isSome = true
    ∧ (atOp (unitState 1 37 0x23 0 []) 1 37 0x23).isSome = true ∧ (cdInside (unitState 1 5 0x24 0 []) 5).isSome = true
    ∧ uciOk { typ := 0, a := 12, e := 100, rnti := 0, result := 0, payload := [] } = true
    ∧ dlOk { typ := 2, a := 32, e := 864, rnti := 0, result := 0, payload := [] } = true := by decide

theorem wit_harqFree :
    (atOp (unitState 1 0 0x24 1 [7]) 1 0 0x24).isSome = true
    ∧ entryFree { unitState 1 0 0x24 1 [7] with ce := { harq := [(0, { func := 0, key := 7, st := 1 })] } } 0 none 1 = true
    ∧ entryFree (unitState 1 0 0x24 0 [7]) 0 (some 7) 1 = true := by decide

/-- An array that holds its operation's segment and has its columns. -/
def arrayState (opc imm : Nat) (extra : List W64) (cols : Nat) : State :=
  { unitState 2 3 opc imm extra with arr := [(3, { holder := some 0, occupant := 2, cols := cols })] }
theorem wit_plinth :
    (paReady (arrayState 0x30 0 [0, 0, 0, 5 * 2 ^ 33 + 2 ^ 13] 5) 3 0x30).isSome = true
    ∧ (arrOf (requestCols (arrayState 0x30 0 [0, 0, 0, 5 * 2 ^ 33 + 2 ^ 13] 5) 3 5 true) 3).cols = 5
    ∧ (paReady (arrayState 0x33 2 [2 ^ 13, 2 ^ 13 + 1] 1) 3 0x33).isSome = true
    ∧ shapeOk 1 1 = true ∧ bits (5 * 2 ^ 33 + 2 ^ 13) 32 13 ≠ 0 ∧ bits 2 4 0 = 2 := by decide


theorem wit_planner :
    (atOp (unitState 3 2 0x40 0 [0]) 3 2 0x40).isSome = true ∧ groups (unitState 3 2 0x40 0 [0]) ≠ 0
    ∧ (let s := { unitState 3 2 0x40 0 [0] with
          core := [(2, { phase := 3, rank := 0, robots := [{ record := [], active := true }] })]
          runs := (unitState 3 2 0x40 0 [0]).runs.map fun x => { x with segs := x.segs.map fun g => { g with phase := .planning } } }
       (inSearch s 2).isSome = true ∧ (coreOf s 2).robots.length = 1)
    ∧ (let s := { unitState 3 2 0x40 0 [0] with
          ev := { fired := [(18, 5)] }
          runs := (unitState 3 2 0x40 0 [0]).runs.map fun x => { x with segs := x.segs.map fun g => { g with phase := .awaitLine } } }
       (inOp s 3 2).isSome = true ∧ unitClocked s 3 2 = true ∧ (s.ev.fired.any fun e => e.1 = 18) = true) := by decide

theorem wit_memory :
    (atChunk (unitState 6 3 0x60 0 [0, 4096, 64]) 3 0x60).isSome = true
    ∧ (atChunk (unitState 6 3 0x61 0 [0, 64]) 3 0x61).isSome = true
    ∧ (∃ s : State, reg s 0x90008 ≠ 0 ∧ s.power.selfRefresh = false ∧ 0 < hbmCap s ∧ tblGet? s.mem.hbmCell 0 = some 1)
    ∧ (∃ s : State, s.mem.layInv = some (3, some 9))
    ∧ ∃ s : State, working s 12 1 = true ∧ inboundOffset s 1 0 64 = none :=
  ⟨by decide, by decide, ⟨{ regs := [(0x90008, 1)], mem := { hbmCell := [(0, 1)] } }, by decide⟩,
   ⟨{ mem := { layInv := some (3, some 9) } }, rfl⟩, ⟨{}, by decide⟩⟩

theorem wit_faults :
    (∃ s : State, tblWf s.ev.evc = true ∧ (evc s 4095).val = 9)
    ∧ (∃ s : State, 2 < s.fuse.assy ∧ (d2dOf s 2).down = false ∧ (d2dOf s 2).retry ≤ 0xFFFF ∧ (d2dOf s 1).down = true)
    ∧ (∃ s : State, s.err.toFlash = [3] ∧ s.boot.fwUp = true ∧ s.boot.halted = false)
    ∧ ∃ (s : State) (z : Arrival × List Arrival), takeArrival 5 s.ev.inFlight = some z ∧ routeLine s z.1.input = some 3 :=
  ⟨⟨{ ev := { evc := [(4095, { val := 9 })] } }, by decide⟩, ⟨{ err := { d2d := [(1, { down := true })] } }, by decide⟩,
   ⟨{ boot := { fwUp := true }, err := { toFlash := [3] } }, by decide⟩,
   ⟨{ ev := { inFlight := [{ input := 5, comparator := none, fired := 0 }] }, regs := [(0x34014, 2 ^ 31 + 3 * 2 ^ 16)] }, _, rfl, by decide⟩⟩

theorem wit_publish :
    (∃ s : State, mqLive s = true ∧ s.mq.pub = none ∧ (verOf s 255).st = 1)
    ∧ ∃ s : State, mqLive s = true ∧ s.mq.pub.isSome = true ∧ fnExists s 0 = true ∧ (ctxOf s 0).en = true :=
  ⟨⟨{ boot := { fwUp := true, sealed := true }, regs := [(0x10010, 4)], mq := { ver := [(255, { st := 1 })] } }, by decide⟩,
   ⟨{ boot := { fwUp := true, sealed := true }, regs := [(0x10010, 4)], mem := { ctx := [(0, { en := true })] }
      mq := { pub := some { func := 0, table := 0, sfn := 0, sf := 0, addr := 0 } } }, by decide⟩⟩

theorem wit_egress :
    (atOp (unitState 4 2 0x50 0 [0, 0]) 4 2 0x50).isSome = true ∧ (atOp (unitState 4 2 0x51 0 [0]) 4 2 0x51).isSome = true
    ∧ (let s := { unitState 4 2 0x50 0 [0, 0] with
          runs := (unitState 4 2 0x50 0 [0, 0]).runs.map fun x => { x with segs := x.segs.map fun g =>
            { g with phase := .fx [{ carrier := 0, plane := 0, dir := 0, sfn := 0, slot := 0, sym := 0, eaxc := 0, sections := [] }] } } }
       (inOp s 4 2).isSome = true)
    ∧ (∃ s : State, portState s 0 = 2 ∧ (portOf s 0).queue = [{ kind := 2, bytes := [] }])
    ∧ (∃ s : State, served s = true ∧ tblWf s.fh.port = true ∧ cancelsFrame 5 9 1 (some 7) { kind := 0, carrier := 5, sfn := 9, slot := 1, sections := [7], bytes := [] } = true)
    ∧ ∃ s : State, served s = true ∧ bitAt (reg s 0xF0410) 9 = true ∧ s.fh.txCons % tqSize s true ≠ reg s 0xF041C % tqSize s true :=
  ⟨by decide, by decide, by decide,
   ⟨{ regs := [(0xF0000, 1)], fh := { port := [(0, { up := true, queue := [{ kind := 2, bytes := [] }] })] } }, by decide⟩,
   ⟨{ boot := { fwUp := true } }, by decide⟩,
   ⟨{ boot := { fwUp := true }, regs := [(0xF0410, 512), (0xF041C, 1)] }, by decide⟩⟩

def upPort : State := { boot := { fwUp := true }, regs := [(0xF0000, 1), (0xF000C, 0), (0xF0010, 0), (0xF0014, 0)], fh := { port := [(0, { up := true })] } }

theorem wit_links :
    (∃ s : State, tblWf s.cv.link = true ∧ (linkOf s 1).st = 1 ∧ (linkOf s 1).srefSeen = false ∧ (linkOf s 1).lanes = true)
    ∧ (∃ s : State, tblWf s.cv.link = true ∧ (linkOf s 1).st = 1 ∧ (linkOf s 1).srefSeen = true)
    ∧ (∃ s : State, tblWf s.cv.link = true ∧ (linkOf s 5).st = 3 ∧ cvBurst (linkOf s 5) = false ∧ (linkOf s 5).dir = 3
        ∧ plEn (carrierOf s (cvCarrier (linkOf s 5))).now = true)
    ∧ (∃ s : State, tblWf s.cv.link = true ∧ (linkOf s 2).lostSlot = some (9, 1, [3]))
    ∧ (atOp (unitState 5 1 0x58 0 [0]) 5 1 0x58).isSome = true
    ∧ (let s := { unitState 5 1 0x58 0 [0] with
          ev := { fired := [(1, 100)] }, cv := { link := [(1, { st := 2 })] }
          runs := (unitState 5 1 0x58 0 [0]).runs.map fun x => { x with segs := x.segs.map fun g => { g with phase := .awaitLine } } }
       (inOp s 5 1).isSome = true ∧ (s.ev.fired.find? fun e => e.1 = 1).isSome = true ∧ (linkOf s 1).st = 2 ∧ tblWf s.cv.link = true) :=
  ⟨⟨{ cv := { link := [(1, { st := 1, lanes := true })] } }, by decide⟩, ⟨{ cv := { link := [(1, { st := 1, srefSeen := true })] } }, by decide⟩,
   ⟨{ cv := { link := [(5, { st := 3, dir := 3 })] }, fh := { carrier := [(0, { now := { cfg := 0x20000, place := 0 } })] } }, by decide⟩,
   ⟨{ cv := { link := [(2, { lostSlot := some (9, 1, [3]) })] } }, by decide⟩, by decide, by decide⟩
/-- LINK_SYNC's premise. -/
theorem wit_link_may_run : ∃ s : State, tblWf s.cv.link = true ∧ (linkOf s 0).st = 0 ∧ linkMayRun s 0 = true :=
  ⟨{ cv := { link := [(0, { spent := true })] }, power := { powerGood := [(16, true)] }, etu := { state := 2 }, boot := { fwUp := true } }, by decide⟩

theorem wit_bursts :
    (atOp (unitState 5 1 0x59 0 [0]) 5 1 0x59).isSome = true
    ∧ (let s := { unitState 5 1 0x59 0 [0] with
          runs := (unitState 5 1 0x59 0 [0]).runs.map fun x => { x with segs := x.segs.map fun g => { g with phase := .agc [(5, 1, 2)] } } }
       (inOp s 5 1).isSome = true)
    ∧ (∃ s : State, tblWf s.cv.link = true ∧ burstRuns (linkOf s 1) = true ∧ (linkOf s 1).burst.moves < bits (linkOf s 1).agc.toNat 27 24
        ∧ bits (linkOf s 1).agc.toNat 3 0 = 5 ∧ (2 * 110 + 40 : Int).fmod 80 ≠ 0 ∧ tblWf (linkOf s 1).codes = true)
    ∧ (∃ s : State, tblWf s.cv.link = true ∧ burstRuns (linkOf s 0) = true ∧ listens s 0 = true ∧ (linkOf s 0).burst.st = 1)
    ∧ (∃ s : State, tblWf s.cv.link = true ∧ burstRuns (linkOf s 0) = true ∧ listens s 0 = true ∧ (linkOf s 0).burst.st = 2
        ∧ fld s (linkReg 0 0xC0) 1 0 = 2)
    ∧ profOk [0x0A140106, 0x00030000, 0, 0, 0] = true ∧ profOk [0, 0, 0, 0, 0] = false :=
  ⟨by decide, by decide,
   ⟨{ cv := { link := [(1, { st := 3, dir := 1, cfg := 0x100000, agc := 0x1000005 })] } }, by decide⟩,
   ⟨{ cv := { link := [(0, { st := 3, dir := 1, cfg := 0x100000, listening := true, burst := { st := 1 } })] } }, by decide⟩,
   ⟨{ cv := { link := [(0, { st := 3, dir := 1, cfg := 0x100000, listening := true, burst := { st := 2 } })] }, regs := [(0x1000C0, 2)] }, by decide⟩,
   by decide, by decide⟩

/-- Device addresses from 0x200000 of function 0 map to host memory from 0, which holds its page tables and these bytes
from 0x100. -/
def mapped (b : List Nat) : Memory :=
  { ctx := [(0, { en := true })]
    host := ([3, 0, 0, 0, 0, 0, 0, 0, 7, 0, 0, 0, 0, 0, 0, 0].zipIdx.map fun e => (e.2, BitVec.ofNat 8 e.1))
      ++ b.zipIdx.map fun e => (0x100 + e.2, BitVec.ofNat 8 e.1) }
/-- Bytes with some values at some places, 0 elsewhere. -/
def bytesWith (n : Nat) (l : List (Nat × Nat)) : List Nat := (List.range n).map fun i => (l.lookup i).getD 0

theorem wit_resetForms :
    (∃ s : State, s.boot.halted = false ∧ s.link.trained = true ∧ s.boot.fwUp = true ∧ mboxBusy s = false)
    ∧ (∃ s : State, s.boot.pwrok = false) ∧ (∃ s : State, s.link.trained = false ∧ s.boot.fwUp = false)
    ∧ (∃ u : State, (refOf u 4).st = 2 ∧ ∀ n, n < 6 → (refOf u n).st = 2 → refMeets u n = true)
    ∧ ∃ u : State, etuLive u = true ∧ u.etu.state = 2 ∧ (refOf u 4).st = 2
        ∧ ∀ n, n < 6 → (refOf u n).st = 2 → refMeets u n = false :=
  ⟨⟨{ boot := { fwUp := true }, link := { trained := true } }, by decide⟩, ⟨{}, by decide⟩, ⟨{}, by decide⟩,
   ⟨{ etu := { refs := [(4, { st := 2 })] }, regs := [(0x40140, 1)] }, by decide⟩,
   ⟨{ etu := { state := 2, refs := [(4, { st := 2 })] } }, by decide⟩⟩

theorem wit_startUpForms :
    (∃ s : State, s.boot.pwrok = true ∧ s.boot.halted = false ∧ s.boot.stage = 0 ∧ s.boot.fwUp = false
      ∧ accepts s (imageOf s 0) = false ∧ accepts s (imageOf s 1) = true)
    ∧ (∃ s : State, s.boot.pwrok = true ∧ s.boot.stage = 0 ∧ accepts s (imageOf s 0) = false ∧ accepts s (imageOf s 1) = false)
    ∧ (∃ s : State, s.boot.pwrok = true ∧ s.boot.perst = false ∧ s.boot.fwUp = false ∧ s.boot.recovery = true)
    ∧ (∃ s : State, s.boot.fwUp = true ∧ s.boot.mapDone = false ∧ s.boot.published = false ∧ testsRan s = true)
    ∧ ∃ s : State, s.boot.fwUp = true ∧ s.boot.mapDone = false ∧ s.boot.published = false ∧ testsRan s = false :=
  ⟨⟨{ boot := { pwrok := true }
      flash := { imageB := { certOk := true, sigOk := true, namesCore := true } } }, by decide⟩,
   ⟨{ boot := { pwrok := true } }, by decide⟩, ⟨{ boot := { pwrok := true, perst := false, recovery := true } }, by decide⟩,
   ⟨{ boot := { fwUp := true }, inst := (List.range 74).map fun n => (n, { run := true, cap := 1750 }) }, by decide⟩,
   ⟨{ boot := { fwUp := true } }, by decide⟩⟩

theorem wit_ezdanAgain : ∃ s : State, s.boot.pwrok = true ∧ s.boot.fwUp = true ∧ s.boot.halted = false ∧ s.boot.ezHalted = false
    ∧ (s.boot.lastRestart.any fun t => s.sclk < t + 100000000) = true :=
  ⟨{ boot := { pwrok := true, fwUp := true, lastRestart := some 0 }, sclk := 5 }, by decide⟩

theorem wit_mailboxForms :
    (∃ s : State, s.boot.fwUp = true ∧ mboxBusy s = false ∧ 1048576 < reg s 0x48 + 4096 ∧ s.boot.recovery = true)
    ∧ ∃ s : State, s.boot.fwUp = true ∧ mboxBusy s = true :=
  ⟨⟨{ boot := { fwUp := true, recovery := true }, regs := [(0x48, 0x800000)] }, by decide⟩,
   ⟨{ boot := { fwUp := true }, mbox := { busy := true } }, by decide⟩⟩

theorem wit_smbusAddress :
    (∃ s : State, s.boot.pwrok = true ∧ s.boot.smbTo = fld s 0x5001C 6 0)
    ∧ ∃ s : State, s.boot.pwrok = true ∧ s.boot.smbTo ≠ fld s 0x5001C 6 0 :=
  ⟨⟨{ boot := { pwrok := true } }, by decide⟩, ⟨{ boot := { pwrok := true, smbTo := 0x10 } }, by decide⟩⟩

theorem wit_hostLinkForms :
    (∃ s : State, s.boot.pwrok = true ∧ s.boot.perst = false ∧ s.boot.halted = false
      ∧ tblGet false s.power.outputs 32 = true ∧ linkForm 16 32 = true ∧ linkForm 8 16 = true)
    ∧ (∃ s : State, tblGet false s.power.outputs 32 = false)
    ∧ (∃ s : State, messageDue s 5 = true ∧ vecMasked s 5 = false)
    ∧ ∃ s : State, fnExists s 3 = true ∧ poolEntry s 3 31 = some 127 :=
  ⟨⟨{ boot := { pwrok := true, perst := false }, power := { outputs := [(32, true)] } }, by decide⟩, ⟨{}, by decide⟩,
   ⟨{ ev := { vec := [(5, { n := 1 })] }, link := { msix := [(5, { masked := false })] } }, by decide⟩,
   ⟨{ link := { vfEnable := true, numVfs := 3 }, boot := { fwUp := true } }, by decide⟩⟩

theorem wit_functionForms :
    (∃ s : State, tblWf s.ring = true ∧ (8, { st := 1, fn := 3 : Ring }) ∈ s.ring)
    ∧ (∃ s : State, s.boot.fwUp = true ∧ s.link.vfEnable = true ∧ s.link.numVfs = 3) ∧ ∃ s : State, s.boot.fwUp = false :=
  ⟨⟨{ ring := [(8, { st := 1, fn := 3 })] }, by decide⟩,
   ⟨{ link := { vfEnable := true, numVfs := 3 }, boot := { fwUp := true } }, by decide⟩, ⟨{}, by decide⟩⟩

theorem wit_registerWindows :
    (∃ s : State, blockAnswers s 0x10010 = false) ∧ (∃ s : State, s.boot.fwUp = true ∧ fnExists s 2 = true)
    ∧ ∃ s : State, s.boot.fwUp = true ∧ fnExists s 2 = false :=
  ⟨⟨{}, by decide⟩, ⟨{ link := { vfEnable := true, numVfs := 3 }, boot := { fwUp := true } }, by decide⟩,
   ⟨{ boot := { fwUp := true } }, by decide⟩⟩

theorem wit_counterForms : ∃ s : State, served s = true ∧ (evc s 7).frozen = false ∧ tblWf s.ev.evc = true ∧ tblWf s.occ = true :=
  ⟨{ boot := { fwUp := true }, occ := [(5, 9)], ev := { evc := [(7, { val := 3 })] } }, by decide⟩

/-- GNSS with a pulse just seen meets what the device can tell; SyncE on port 0 with a recent PDU does; PTP with eight
measurements does. -/
theorem wit_refMeets :
    (∃ s : State, refMeets s 0 = true) ∧ (∃ s : State, refMeets s 1 = true ∧ s.etu.loaded = true)
    ∧ (∃ s : State, refMeets s 2 = true) ∧ (∃ s : State, refMeets s 4 = true) :=
  ⟨⟨{ regs := [(0x40100, 3)], etu := { meas := List.replicate 8 (0, 0) } }, by decide⟩,
   ⟨{ regs := [(0x40110, 1)], etu := { ppsAt := some 0, ppsSec := some 5, loaded := true } }, by decide⟩,
   ⟨{ regs := [(0x40120, 1), (0xF0000, 1)], fh := { esmc := [(0, { n := 1, at_ := some 0, ql := 4 })] } }, by decide⟩,
   ⟨{ regs := [(0x40140, 1)] }, by decide⟩⟩

theorem wit_referenceForms :
    (∃ s : State, etuLive s = true ∧ (refOf s 4).st = 1 ∧ (refOf s 4).crit = true ∧ refMeets s 4 = true
      ∧ (refOf s 4).since + bits (refCfg s 4) 31 24 * 100000000 ≤ s.sclk)
    ∧ (∃ s : State, etuLive s = true ∧ (refOf s 4).st = 1 ∧ s.sclk < (refOf s 4).since + bits (refCfg s 4) 31 24 * 100000000)
    ∧ (∃ s : State, etuLive s = true ∧ (refOf s 1).st = 2 ∧ refMeets s 1 = true)
    ∧ (∃ s : State, etuLive s = true ∧ (refOf s 1).st = 2 ∧ refMeets s 1 = false)
    ∧ (∃ s : State, etuLive s = true ∧ (refOf s 5).st = 4 ∧ (refOf s 5).crit = false ∧ refMeets s 5 = true)
    ∧ (∃ s : State, etuLive s = true ∧ (refOf s 5).st = 0) ∧ ∃ s : State, etuLive s = true ∧ (refOf s 5).st = 1 :=
  ⟨⟨{ etu := { refs := [(4, { st := 1, crit := true })] }, regs := [(0x40140, 0x1000001)], sclk := 100000000 }, by decide⟩,
   ⟨{ etu := { refs := [(4, { st := 1, crit := true })] }, regs := [(0x40140, 0x1000001)] }, by decide⟩,
   ⟨{ etu := { refs := [(1, { st := 2 })], ppsAt := some 0, ppsSec := some 5 }, regs := [(0x40110, 1)] }, by decide⟩,
   ⟨{ etu := { refs := [(1, { st := 2 })] }, regs := [(0x40110, 1)] }, by decide⟩,
   ⟨{ etu := { refs := [(5, { st := 4 })] }, regs := [(0x40150, 1)] }, by decide⟩, ⟨{}, by decide⟩,
   ⟨{ etu := { refs := [(5, { st := 1 })] } }, by decide⟩⟩

theorem wit_etuModeForms :
    (∃ s : State, refsReady s = false) ∧ (∃ s : State, served s = true ∧ etuLive s = true ∧ s.etu.state = 3 ∧ s.etu.forced = false)
    ∧ (∃ s : State, s.etu.state < 2) ∧ (∃ s : State, served s = true ∧ s.etu.tclkLost = true ∧ s.etu.tclkEdges = true)
    ∧ ∃ s : State, served s = true ∧ s.etu.tclkLost = true ∧ s.etu.tclkEdges = false :=
  ⟨⟨{}, by decide⟩, ⟨{ boot := { fwUp := true }, etu := { state := 3 } }, by decide⟩, ⟨{}, by decide⟩,
   ⟨{ boot := { fwUp := true }, etu := { tclkLost := true } }, by decide⟩,
   ⟨{ boot := { fwUp := true }, etu := { tclkLost := true, tclkEdges := false } }, by decide⟩⟩

theorem wit_measurementForms :
    (∃ s : State, etuLive s = true ∧ (refOf s 4).st = 2 ∧ (refOf s 4).crit = true ∧ refMeets s 4 = false)
    ∧ (∃ s : State, etuLive s = true ∧ (refOf s 4).st = 1 ∧ (refOf s 4).crit = true ∧ refMeets s 4 = false)
    ∧ (∃ s : State, ensemble s 0 = [4, 5] ∧ (refOf s 0).driftCnt = 3 ∧ tblGet false s.etu.ambiguous 0 = false)
    ∧ (∃ s : State, ensemble s 0 = []) ∧ (∃ s : State, served s = false ∧ s.etu.tod = none ∧ etuLive s = true)
    ∧ (∃ s : State, etuLive s = false) ∧ (∃ s : State, refGood s s.etu.timeSel = false ∧ refGood s s.etu.freqSel = false)
    ∧ (∃ s : State, refGood s 4 = true ∧ refGood s s.etu.timeSel = false ∧ s.etu.freqSel = 4)
    ∧ (∃ s : State, s.etu.timeSel = 0 ∧ s.etu.freqSel = 4 ∧ refGood s 0 = true ∧ refGood s 4 = true)
    ∧ ∃ s : State, dieSynced s 1 = false ∧ d2dDown s 1 = false ∧ tblWf s.etu.unsynced = true ∧ tblWf s.etu.skew = true :=
  ⟨⟨{ etu := { refs := [(4, { st := 2, crit := true })] } }, by decide⟩,
   ⟨{ etu := { refs := [(4, { st := 1, crit := true })] } }, by decide⟩,
   ⟨{ etu := { refs := [(0, { st := 2, driftCnt := 3 }), (4, { st := 2 }), (5, { st := 2 })] } }, by decide⟩, ⟨{}, by decide⟩,
   ⟨{}, by decide⟩, ⟨{ etu := { tclkLost := true } }, by decide⟩, ⟨{}, by decide⟩,
   ⟨{ etu := { freqSel := 4, refs := [(4, { st := 2 })] } }, by decide⟩,
   ⟨{ etu := { timeSel := 0, freqSel := 4, refs := [(0, { st := 2 }), (4, { st := 2 })] } }, by decide⟩,
   ⟨{ etu := { unsynced := [(1, true)] } }, by decide⟩⟩

theorem wit_captures :
    (∃ s : State, trigDue s 63 = false)
    ∧ (∃ s : State, capDie s 0x100 = some 0) ∧ (∃ s : State, capDie s 5 = some 2 ∧ s.ev.toCapture.find? (fun e => e.1 = 5) = some (5, true, 9))
    ∧ (∃ s : State, capDie s 5 ≠ none ∧ s.ev.toCapture.find? (fun e => e.1 = 5) = none) ∧ ∃ s : State, capDie s 0x109 = none :=
  ⟨⟨{}, by decide⟩, ⟨{}, by decide⟩, ⟨{ ev := { toCapture := [(5, true, 9)] } }, by decide⟩, ⟨{}, by decide⟩, ⟨{}, by decide⟩⟩

theorem wit_patina :
    (∃ s : State, (instOf s 3).run = false)
    ∧ (∃ s : State, (instOf s 73).run = true ∧ (instOf s 73).stopping = false ∧ (instOf s 73).held = false
      ∧ (instOf s 73).hot = false ∧ (instOf s 73).cap < 1750)
    ∧ (∃ s : State, (instOf s 3).run = true ∧ (instOf s 3).stopping = false ∧ (instOf s 3).held = true)
    ∧ (∃ s : State, (instOf s 3).run = true ∧ (instOf s 3).stopping = true ∧ 1425 < (instOf s 3).cap)
    ∧ (∃ s : State, (instOf s 3).run = true ∧ (instOf s 3).stopping = true ∧ 1400 < (instOf s 3).cap ∧ (instOf s 3).cap ≤ 1425)
    ∧ (∃ s : State, (instOf s 3).run = true ∧ (instOf s 3).stopping = true ∧ (instOf s 3).cap ≤ 1400)
    ∧ (∃ s : State, (instOf s (patInst 94)).run = true ∧ fld s 0x70004 15 8 ≤ 20 ∧ s.boot.stage = 3 ∧ 2 < fld s 0x70004 15 8)
    ∧ (∃ s : State, (instOf s 3).run = true ∧ (instOf s 3).crit ≠ [] ∧ 1400 < (instOf s 3).cap)
    ∧ (∃ s : State, (instOf s 3).run = true ∧ (instOf s 3).crit ≠ [] ∧ (instOf s 3).cap ≤ 1400 ∧ s.power.vset < 850
      ∧ s.power.vsetAt = some 0 ∧ 100000 ≤ s.sclk)
    ∧ (∃ s : State, (instOf s 3).run = true ∧ (instOf s 3).crit ≠ [] ∧ (instOf s 3).cap ≤ 1400 ∧ s.power.vset = 850)
    ∧ (∃ s : State, (instOf s 3).run = true ∧ (instOf s 3).crit = [] ∧ (instOf s 3).held = true ∧ (instOf s 3).warn = []
      ∧ (instOf s 3).hot = false)
    ∧ ∃ s : State, (instOf s 3).run = true ∧ (instOf s 3).held = true ∧ (instOf s 3).warn ≠ [] :=
  ⟨⟨{}, by decide⟩, ⟨{ inst := [(73, { run := true, cap := 1725 })] }, by decide⟩,
   ⟨{ inst := [(3, { run := true, held := true })] }, by decide⟩,
   ⟨{ inst := [(3, { run := true, stopping := true, cap := 1426 })] }, by decide⟩,
   ⟨{ inst := [(3, { run := true, stopping := true, cap := 1425 })] }, by decide⟩,
   ⟨{ inst := [(3, { run := true, stopping := true, cap := 1400 })] }, by decide⟩,
   ⟨{ inst := [(patInst 94, { run := true })], boot := { stage := 3 } }, by decide⟩,
   ⟨{ inst := [(3, { run := true, crit := [3], cap := 1425 })] }, by decide⟩,
   ⟨{ inst := [(3, { run := true, crit := [3], cap := 1400 })], power := { vset := 845, vsetAt := some 0 }, sclk := 100000 }, by decide⟩,
   ⟨{ inst := [(3, { run := true, crit := [3], cap := 1400 })], power := { vset := 850 } }, by decide⟩,
   ⟨{ inst := [(3, { run := true, held := true })] }, by decide⟩,
   ⟨{ inst := [(3, { run := true, held := true, warn := [3] })] }, by decide⟩⟩

theorem wit_ledger :
    (∃ s : State, nextStep ((List.range 8).foldl settleRamp s) = none)
    ∧ (∃ s : State, (nextStep ((List.range 8).foldl settleRamp s)).isSome = true)
    ∧ (∃ s : State, (arrOf s 7).ramp = some ⟨64, 0, 100⟩ ∧ rampDone s 7 ⟨64, 0, 100⟩ < 100)
    ∧ (∃ s : State, (arrOf s 7).ramp = some ⟨64, 0, 100⟩ ∧ 100 ≤ rampDone s 7 ⟨64, 0, 100⟩ ∧ (arrOf s 7).want = none)
    ∧ (∃ s : State, s.boot.pwrok = true ∧ s.boot.halted = false ∧ s.power.vsetAt = some 0 ∧ 100000 ≤ s.sclk
      ∧ s.power.vset ≠ s.fuse.vset ∧ ∀ e, e ∈ s.inst → e.2.held = false)
    ∧ (∃ s : State, s.boot.pwrok = true ∧ s.power.vset = s.fuse.vset ∧ s.power.driving = false)
    ∧ (∃ s : State, s.power.driving = true) ∧ ∃ s : State, s.boot.pwrok = true ∧ s.power.vrAlert = false :=
  ⟨⟨{}, by decide⟩,
   ⟨{ power := { waiting := [{ kind := .start 0, amount := 1, rising := true, radio := true }] } }, by decide⟩,
   ⟨{ arr := [(7, { ramp := some ⟨64, 0, 100⟩ })] }, by decide⟩,
   ⟨{ arr := [(7, { ramp := some ⟨64, 0, 100⟩ })], inst := [(71, { cycles := 100 })] }, by decide⟩,
   ⟨{ boot := { pwrok := true }, fuse := { vset := 760 }, power := { vset := 750, driving := true, vsetAt := some 0 }, sclk := 100000 }, by decide⟩,
   ⟨{ boot := { pwrok := true }, fuse := { vset := 760 }, power := { vset := 760, driving := false } }, by decide⟩,
   ⟨{ power := { driving := true } }, by decide⟩, ⟨{ boot := { pwrok := true } }, by decide⟩⟩

theorem wit_sheddingForms :
    (∃ s : State, s.power.shed = 0 ∧ s.boot.pwrok = false) ∧ (∃ s : State, s.power.shed = 2 ∧ served s = false)
    ∧ (∃ s : State, s.power.shed ≠ 1) ∧ ∃ s : State, s.power.tjValid = false ∧ s.power.pfw = true :=
  ⟨⟨{}, by decide⟩, ⟨{ power := { shed := 2 } }, by decide⟩, ⟨{}, by decide⟩, ⟨{ power := { pfw := true } }, by decide⟩⟩

theorem wit_outputForms :
    (∃ s : State, outputExists s 33 = true ∧ outputExists s 32 = true ∧ s.boot.perst = false)
    ∧ (∃ s : State, outputExists s 12 = false) ∧ (∃ s : State, outputExists s 0 = true ∧ ethMode s 0 = 2)
    ∧ ∃ s : State, working s 10 0 = true ∧ bits (portCfg s 0) 1 0 = 0 :=
  ⟨⟨{ boot := { perst := false } }, by decide⟩, ⟨{}, by decide⟩, ⟨{ regs := [(0x50018, 2)] }, by decide⟩,
   ⟨{ regs := [(0xF0000, 4)] }, by decide⟩⟩

/-- An access that succeeds with such a result. -/
def okWith {α : Type} (p : State × Res α) (f : State → α → Bool) : Bool :=
  match p with
  | (t, .ok a) => f t a
  | _ => false
/-- An access that fails. -/
def fails {α : Type} (p : State × Res α) : Bool :=
  match p with
  | (_, .fail _) => true
  | _ => false

def doorRing (g : Ring) : State := { boot := { fwUp := true, sealed := true }, ring := [(8, g)] }
theorem wit_doorbellForms :
    (∃ s : State, fnExists s 9 = false) ∧ (∃ s : State, fnExists s 0 = true ∧ s.boot.sealed = false)
    ∧ (∃ s : State, fnExists s 0 = true ∧ s.boot.sealed = true ∧ (ringOf s 8).st = 0)
    ∧ (∃ s : State, fnExists s 2 = true ∧ s.boot.sealed = true ∧ ∀ e ∈ s.ring, e.2.vfSlot = 5 → e.2.st = 0 ∨ e.2.fn ≠ 2)
    ∧ (∃ s : State, pageRing s 0 8 = some 8 ∧ (1 : Nat) = ((ringOf s 8).producer + 1) % 2 ^ 32
      ∧ (ringOf s 8).producer + 1 ≤ (ringOf s 8).completed + 2 ^ (ringOf s 8).log2)
    ∧ (∃ s : State, pageRing s 0 8 = some 8 ∧ (ringOf s 8).completed + 2 ^ (ringOf s 8).log2 < (ringOf s 8).producer + 65)
    ∧ (∃ s : State, (ringOf s 8).st = 2 ∧ (ringOf s 8).slots = [{ k := 0, seq := 1 }])
    ∧ (∃ s : State, (ringOf s 8).slots = [{ k := 0, seq := 1, st := .running 3 }])
    ∧ (∃ s : State, (ringOf s 8).slots = [{ k := 0, seq := 1, st := .decided { grant := some 4 } }])
    ∧ (∃ s : State, (ringOf s 8).slots = [{ k := 0, seq := 1, st := .decided {} }])
    ∧ (∃ s : State, (ringOf s 8).st = 1 ∧ 4096 < (5000 + 65536 - (ringOf s 8).nextSeq) % 65536)
    ∧ (∃ s : State, (ringOf s 8).st = 1 ∧ (5 + 65536 - (ringOf s 8).nextSeq) % 65536 ≤ 4096 ∧ 5 ∈ (ringOf s 8).cancels)
    ∧ (∃ s : State, (ringOf s 8).st = 1 ∧ 5 ∉ (ringOf s 8).cancels ∧ 16 ≤ (ringOf s 8).cancels.length)
    ∧ (∃ s : State, (ringOf s 8).st = 1 ∧ (ringOf s 8).poll = true ∧ fails (readUse s (ringAgent 8 (ringOf s 8)) (ringOf s 8).dbAddr 16) = true)
    ∧ (∃ s : State, (ringOf s 8).st = 1 ∧ (ringOf s 8).poll = true ∧ okWith (readUse s (ringAgent 8 (ringOf s 8)) (ringOf s 8).dbAddr 16)
        (fun _ b => bits (w32At b 4) 3 0 = 1 && (ringOf s 8).gen ≠ some (w32At b 12)) = true)
    ∧ ∃ s : State, (ringOf s 8).st = 1 ∧ (ringOf s 8).poll = true ∧ okWith (readUse s (ringAgent 8 (ringOf s 8)) (ringOf s 8).dbAddr 16)
        (fun _ b => (ringOf s 8).gen = some (w32At b 12)) = true :=
  ⟨⟨{}, by decide⟩, ⟨{}, by decide⟩, ⟨doorRing {}, by decide⟩,
   ⟨{ boot := { fwUp := true, sealed := true }, link := { vfEnable := true, numVfs := 2 } }, by decide⟩,
   ⟨doorRing { st := 1 }, by decide⟩, ⟨doorRing { st := 1 }, by decide⟩,
   ⟨doorRing { st := 2, slots := [{ k := 0, seq := 1 }] }, by decide⟩,
   ⟨doorRing { st := 1, slots := [{ k := 0, seq := 1, st := .running 3 }] }, by decide⟩,
   ⟨doorRing { st := 1, slots := [{ k := 0, seq := 1, st := .decided { grant := some 4 } }] }, by decide⟩,
   ⟨doorRing { st := 1, slots := [{ k := 0, seq := 1, st := .decided {} }] }, by decide⟩, ⟨doorRing { st := 1 }, by decide⟩,
   ⟨doorRing { st := 1, cancels := [5] }, by decide⟩, ⟨doorRing { st := 1, cancels := List.range 16 |>.map (· + 100) }, by decide⟩,
   ⟨doorRing { st := 1, poll := true }, by decide⟩,
   ⟨{ doorRing { st := 1, poll := true, dbAddr := 0x200100 } with mem := mapped (bytesWith 16 [(4, 1), (12, 7)]) }, by decide⟩,
   ⟨{ doorRing { st := 1, poll := true, gen := some 7, dbAddr := 0x200100 } with mem := mapped (bytesWith 16 [(4, 1), (12, 7)]) }, by decide⟩⟩

/-- A ring with one descriptor to fetch, whose sequence number is 3. -/
def fetchRing (g : Ring) : State :=
  { ring := [(8, { g with producer := 1, descBase := 0x200100 })], mem := mapped (bytesWith 64 [(0, 3)]) }
def fetches (s : State) (f : Ring → Nat → Bool) : Bool :=
  fetchDue s 8 && okWith (readUse s (ringAgent 8 (ringOf s 8)) ((ringOf s 8).descBase + 64 * ((ringOf s 8).fetched % depth (ringOf s 8))) 64)
    fun t b => f (ringOf t 8) (parseDesc b).seq
theorem wit_fetchForms :
    (∃ s : State, fetchDue s 8 = false)
    ∧ (∃ s : State, fetchDue s 8 = true ∧ fails (readUse s (ringAgent 8 (ringOf s 8)) (ringOf s 8).descBase 64) = true)
    ∧ fetches (fetchRing { st := 1, nextSeq := 3, cancels := [3] }) (fun g n => n = g.nextSeq && g.cancels.contains n) = true
    ∧ fetches (fetchRing { st := 1, nextSeq := 3 }) (fun g n => n = g.nextSeq && g.st = 1 && g.cancels.isEmpty) = true
    ∧ fetches (fetchRing { st := 2, nextSeq := 3 }) (fun g n => n = g.nextSeq && g.st = 2) = true
    ∧ fetches (fetchRing { st := 1, nextSeq := 4, accepted := 1 }) (fun g n => g.nextSeq = (n + 1) % 65536 && 1 ≤ g.accepted) = true
    ∧ fetches (fetchRing { st := 1, nextSeq := 4 }) (fun g n => g.nextSeq = (n + 1) % 65536 && g.accepted < 1) = true
    ∧ (∃ s : State, (ringOf s 8).st ≠ 0 ∧ (ringOf s 8).slots = [{ k := 0, seq := 0, st := .duplicate }])
    ∧ ∃ s : State, (ringOf s 8).st ≠ 0 ∧ (ringOf s 8).slots = [{ k := 0, seq := 0 }] :=
  ⟨⟨{}, by decide⟩, ⟨doorRing { st := 1, producer := 1 }, by decide⟩, by decide, by decide, by decide, by decide, by decide,
   ⟨doorRing { st := 1, slots := [{ k := 0, seq := 0, st := .duplicate }] }, by decide⟩,
   ⟨doorRing { st := 1, slots := [{ k := 0, seq := 0 }] }, by decide⟩⟩

/-- Ring 8 waits with one list of two words at 0x200100, which is HDR of class 0 unless told otherwise. -/
def grantState (x : Slot) (hdr : Nat) : State :=
  { boot := { fwUp := true, sealed := true, floorCap := 2 }, etu := { count := 9 }
    ring := [(8, { st := 1, prio := 1, inflight := 4, slots := [{ x with cmdAddr := 0x200100, cmdLen := 2 }] })]
    mem := mapped (bytesWith 16 [(0, hdr), (1, 1), (6, 1)]) }
def grants (s : State) (f : State → List W64 → Bool) : Bool :=
  nextGrant s = some 8 && okWith (fetchList s { ctx := 0, cls := 0 } ((ringOf s 8).slots.headD { k := 0, seq := 0 })) f
theorem wit_grantForms :
    (∃ s : State, arbiterRuns s = false) ∧ (∃ s : State, arbiterRuns s = true ∧ nextGrant s = none)
    ∧ late (grantState {k := 0, seq := 0, deadline := 5} 1) 5 = true
    ∧ nextGrant (grantState { k := 0, seq := 0, kind := 1 } 1) = some 8
    ∧ (∃ s : State, nextGrant s = some 8 ∧ s.boot.floorCap < classFloor (ringOf s 8).cls)
    ∧ fails (fetchList { grantState { k := 0, seq := 0 } 1 with mem := {} } { ctx := 0, cls := 0 } { k := 0, seq := 0, cmdAddr := 0x200100, cmdLen := 2 }) = true
    ∧ grants (grantState { k := 0, seq := 0 } 0) (fun t w => hdrBad t 0 0 w = some 0xC0) = true
    ∧ grants (grantState { k := 0, seq := 0 } 1) (fun t w => hdrBad t 0 0 w = none) = true
    ∧ ∃ s : State, arbiterRuns s = true ∧ nextGrant s = some 8 ∧ ringCollector s 8 = some 0 :=
  ⟨⟨{}, by decide⟩, ⟨{ boot := { sealed := true } }, by decide⟩, by decide, by decide,
   ⟨{ boot := { fwUp := true, sealed := true }, ring := [(8, { st := 1, prio := 1, inflight := 4, slots := [{ k := 0, seq := 0 }] })] }, by decide⟩,
   by decide, by decide, by decide,
   ⟨{ boot := { fwUp := true, sealed := true }, regs := [(0x10010, 16), (0xC0000, 2 ^ 15 + 8)], col := [(0, { expired := true })]
      ring := [(8, { st := 1, cls := 2, prio := 2, inflight := 4, slots := [{ k := 0, seq := 0 }] })] }, by decide⟩⟩

/-- An admin job on a ring that runs, or does not. -/
def jobState (st opcode : Nat) (args : List W32) (target : Ring) : State :=
  { boot := { fwUp := true, sealed := true }
    ring := [(0, { st := st, cls := 7, slots := [{ k := 0, seq := 0, st := .running 0 }] }), (9, target)]
    arb := { admin := some { ring := 0, k := 0, opcode := opcode, args := args } } }
def entryBytes (log2 : Nat) : Memory := mapped (bytesWith 64 [(16, log2), (18, 1), (33, 16)])
theorem wit_adminForms :
    (∃ s : State, ezdanRuns s = true ∧ s.arb.admin = none ∧ nextAdmin s = none)
    ∧ (∃ s : State, ezdanRuns s = true ∧ adminIdle s = true ∧ s.arb.admin = none ∧ late s 5 = true
      ∧ nextAdmin s = some (0, { k := 0, seq := 0, kind := 1, cmdAddr := 9, deadline := 5 }))
    ∧ (∃ s : State, adminIdle s = false)
    ∧ (ezdanRuns (jobState 2 1 [] {}) = true ∧ (ringOf (jobState 2 1 [] {}) 0).st ≠ 1)
    ∧ (setupRefusal { jobState 1 1 [9, 4, 0x200100, 0] {} with mem := entryBytes 6 } 9 0 0 4 = none
      ∧ okWith (readUse { jobState 1 1 [9, 4, 0x200100, 0] {} with mem := entryBytes 6 } { ctx := 0, cls := 7 } 0x200100 64)
          (fun t b => entryFits t (parseEntry b) 0 false) = true
      ∧ okWith (readUse { jobState 1 1 [9, 4, 0x200100, 0] {} with mem := entryBytes 5 } { ctx := 0, cls := 7 } 0x200100 64)
          (fun t b => !entryFits t (parseEntry b) 0 false) = true
      ∧ fails (readUse (jobState 1 1 [9, 4, 0, 0] {}) { ctx := 0, cls := 7 } 0 64) = true)
    ∧ ((ringOf (jobState 1 2 [9] { st := 1, producer := 3 }) 9).completed < (ringOf (jobState 1 2 [9] { st := 1, producer := 3 }) 9).producer)
    ∧ (ringOf (jobState 1 3 [9] { st := 3 }) 9).st = 3 ∧ beyondRings (jobState 1 3 [300] {}) 300 = true :=
  ⟨⟨{ boot := { fwUp := true, sealed := true } }, by decide⟩,
   ⟨{ boot := { fwUp := true, sealed := true }, etu := { count := 9 }
      ring := [(0, { st := 1, cls := 7, slots := [{ k := 0, seq := 0, kind := 1, cmdAddr := 9, deadline := 5 }] })] }, by decide⟩,
   ⟨jobState 1 1 [] {}, by decide⟩, by decide, by decide, by decide, by decide, by decide⟩

theorem wit_adminCommandForms :
    (∃ s : State, fnExists s 0 = true ∧ (evc s 7).owner = some 3) ∧ tblWf (jobState 1 4 [] {}).ev.evc = true
    ∧ arg64 [0, 0, 0x1001, 0] 2 % 4096 ≠ 0 ∧ bitAt (argAt [0x100, 0, 0, 0, 1, 0] 0) 8 = true
    ∧ (0 < arg64 [0, 0, 0, 0, 1, 0] 4 ∧ bitAt (argAt [0, 0, 0, 0, 1, 0] 0) 8 = false)
    ∧ fnExists (jobState 1 7 [] {}) 5 = false ∧ peerSegments (jobState 1 8 [] {}) 1 ≤ 1
    ∧ okWith (writeBytes { jobState 1 8 [] {} with mem := mapped [] } { ctx := 0, cls := 7 } 0x200100 (leBytes 4 5)) (fun _ _ => true) = true
    ∧ fails (writeBytes (jobState 1 8 [] {}) { ctx := 0, cls := 7 } 0x200100 (leBytes 4 5)) = true :=
  ⟨⟨{ ev := { evc := [(7, { owner := some 3 })] } }, by decide⟩, by decide, by decide, by decide, by decide, by decide, by decide,
   by decide, by decide⟩

theorem wit_adminRegisterForms :
    (∃ s : State, served s = true ∧ (ringOf s 0).st = 0
      ∧ entryFits s { parseEntry (adminEntry s 0) with mode := 0, inflight := 1 } 0 false = true)
    ∧ (∃ s : State, (ringOf s 0).st = 1 ∧ s.arb.admin = none)
    ∧ ∃ (s : State) (j : AdminJob), (ringOf s 0).st = 1 ∧ s.arb.admin = some j ∧ j.ring = 0 :=
  ⟨⟨{ boot := { fwUp := true }, regs := [(0x20010, 6), (0x20020, 4096)] }, by decide⟩, ⟨{ ring := [(0, { st := 1 })] }, by decide⟩,
   ⟨jobState 1 1 [] {}, _, by decide, rfl, by decide⟩⟩

theorem wit_operationForms :
    (atOp (unitState 6 3 0x04 9 []) 6 3 0x04).isSome = true
    ∧ waitPasses (unitState 6 3 0x04 9 []) { idx := 2, opc := 0x04, unit := 3, evc := 5, imm := 9, extra := [], bad := 0 } = false
    ∧ waitPasses (unitState 6 3 0x04 7 []) { idx := 2, opc := 0x04, unit := 3, evc := 5, imm := 7, extra := [], bad := 0 } = true
    ∧ (∃ s : State, (evc s 5).owner = some 0 ∧ (evc s 5).frozen = true) ∧ (∃ s : State, (evc s 5).owner ≠ some 0)
    ∧ (∃ s : State, atOp s 6 3 0x00 = none) ∧ (evc (unitState 6 3 0x06 9 []) 5).frozen = false :=
  ⟨by decide, by decide, by decide, ⟨{ ev := { evc := [(5, { owner := some 0, frozen := true })] } }, by decide⟩, ⟨{}, by decide⟩,
   ⟨{}, by decide⟩, by decide⟩

theorem wit_listForms :
    (∃ s : State, toStop s 6 3 = none) ∧ (∃ s : State, ∀ x ∈ s.runs, x.ring = 8 → canEnd x = false ∧ endsStopped x = false)
    ∧ (∃ s : State, ∀ x ∈ s.runs, takesLate s 8 x = false)
    ∧ (∃ s : State, (s.runs.find? fun x => x.ring = 8 && (canEnd x || endsStopped x)).any (·.cause = some .flushed) = true)
    ∧ (∃ s : State, (s.runs.find? (takesLate s 8)).any unresolved = true)
    ∧ (∃ s : State, (inOp s 6 3).any (fun z => z.2.1.phase = .blocked false) = true ∧ reg s 0x80018 ≠ 0)
    ∧ (∃ s : State, (inOp s 6 3).any (fun z => z.2.1.phase = .blocked true) = true) ∧ (∃ s : State, inOp s 6 3 = none)
    ∧ (landed (fetchRing { st := 1, nextSeq := 3 }) (execDescriptorFetch 8 { fetchRing { st := 1, nextSeq := 3 } with
        mem := { (fetchRing { st := 1, nextSeq := 3 }).mem with timesOut := 2 } })).mem.timesOut = 0
    ∧ (landed ({} : State) (execDescriptorFetch 8 { mem := { timesOut := 1 } })).mem.timesOut ≠ 0
    ∧ ezdanRuns (jobState 1 8 [] {}) = true := by
  let run : Run := { id := 0, ring := 8, k := 0, seq := 0, fn := 0, cls := 6, prio := 1, deadline := 5, redeliver := false
                     args := [], grant := 0, lateEvt := true, ra := true, segs := [] }
  let op : ListOp := { idx := 2, opc := 0x04, unit := 3, evc := 0, imm := 0, extra := [] }
  exact ⟨⟨{}, by decide⟩, ⟨{}, by decide⟩, ⟨{}, by decide⟩, ⟨{ runs := [{ run with cause := some .flushed }] }, by decide⟩,
    ⟨{ etu := { state := 2, count := 9 }
       runs := [{ run with bind := some { carrier := 0, sfn := 0, slot := 0, entries := [], stgOff := 0, stgSize := 0 } }] }, by decide⟩,
    ⟨{ regs := [(0x80018, 1)], runs := [{ run with segs := [{ unit := 3, ops := [op], phase := .blocked false }] }] }, by decide⟩,
    ⟨{ runs := [{ run with segs := [{ unit := 3, ops := [op], phase := .blocked true }] }] }, by decide⟩, ⟨{}, by decide⟩,
    by decide, by decide, by decide⟩

def withRuns (s : State) (f : Run → Run) : State := { s with runs := s.runs.map f }
def withSegs (s : State) (f : Seg → Seg) : State := withRuns s fun x => { x with segs := x.segs.map f }
def unbound : Binding := { carrier := 0, sfn := 0, slot := 0, entries := [], stgOff := 0, stgSize := 1 }
/-- A layout descriptor of rank 2, or of rank 1 with one element in its second dimension. -/
def layout (base fmt rank d0 d1 s1 : Nat) : List Byte :=
  leBytes 8 (base + fmt * 2 ^ 48 + rank * 2 ^ 52) ++ leBytes 8 (d0 + d1 * 2 ^ 20) ++ leBytes 8 0 ++ leBytes 8 s1 ++ List.replicate 32 0
def withCopies (s : State) (l : List (Nat × List Byte)) : State := withSegs s fun g => { g with copies := l }

def runWords : State := { unitState 0 5 0x10 0 [0x200100, 1] with mem := mapped (bytesWith 16 [(0, 1)]) }
theorem wit_tileForms :
    (atOp (unitState 0 133 0x10 0 [0, 1]) 0 133 0x10).isSome = true ∧ (atOp (unitState 0 5 0x11 0 []) 0 5 0x11).isSome = true
    ∧ (atOp (unitState 0 5 0x10 0 [0, 1]) 0 5 0x11 = none ∧ tvcLive (unitState 0 5 0x10 0 [0, 1]) 5 0 = none)
    ∧ (let s := withRuns (unitState 0 5 0x10 0 [0, 2 * 2 ^ 16 + 1]) fun x => { x with bind := some unbound };
       (atOp s 0 5 0x10).any fun z => barred s z.1 && bits (xw z.2.2 2) 17 16 = 2) = true
    ∧ (let s := withRuns (unitState 0 133 0x11 8 []) fun x => { x with bind := some unbound };
       (atOp s 0 133 0x11).any fun z => barred s z.1 && (tmuOf z.2.2).store) = true
    ∧ ((atOp (unitState 0 5 0x10 0 [0, 0]) 0 5 0x10).any fun z => bits (xw z.2.2 2) 10 0 = 0) = true
    ∧ ((atOp runWords 0 5 0x10).any fun z => okWith (tvcFetch runWords z.1 5 0 0x200100 1 false) fun _ _ => true) = true
    ∧ ((atOp (unitState 0 5 0x10 0 [0, 1]) 0 5 0x10).any fun z => fails (tvcFetch (unitState 0 5 0x10 0 [0, 1]) z.1 5 0 0 1 false)) = true
    ∧ ((tvcLive (tvcState 0 0) 5 0).any fun z =>
        okWith (dmaStaging (tvcState 0 0) { z.1 with bind := some unbound } 5 (parseDma (List.replicate 32 0))) (fun _ _ => true)
        && fails (dmaDevice (tvcState 0 0) z.1 5 0 (parseDma (List.replicate 32 0)))) = true
    ∧ ((atOp (unitState 0 133 0x11 0 []) 0 133 0x11).any fun z => !tmuShapeOk (tmuOf z.2.2)) = true
    ∧ ((atOp (unitState 0 133 0x11 (2 ^ 16) [2 ^ 40 + 2 ^ 46]) 0 133 0x11).any fun z => tmuShapeOk (tmuOf z.2.2) && !(tmuOf z.2.2).store) = true
    ∧ feat (unitState 0 133 0x12 0 []) 2 = false
    ∧ ((atOp (unitState 0 133 0x12 0 []) 0 133 0x12).any fun z => !bindMismatch z.1 (bindOf z.2.2)
        && (resolve (unitState 0 133 0x12 0 []) z.1.fn 0 (bindKey (unitState 0 133 0x12 0 []) (bindOf z.2.2))).isNone) = true
    ∧ ((atOp (unitState 0 133 0x12 0 [1023 + 2 * 2 ^ 16]) 0 133 0x12).any fun z => 1024 < (bindOf z.2.2).ofs + (bindOf z.2.2).len) = true
    ∧ ((atOp (unitState 0 133 0x12 0 []) 0 133 0x12).any fun z => bindMismatch { z.1 with tables := [{ kind := 1, carrier := 1, sfn := 0, slot := 0, entry := none }] } (bindOf z.2.2)) = true := by
  decide

def twoLoops : State :=
  let s := tvcState (0x0A * 2 ^ 26 + 3 * 2 ^ 12 + 4) 0
  { s with tile := s.tile.map fun e => (e.1, { e.2 with tvc0 := { e.2.tvc0 with loops := [⟨0, 1, 2⟩, ⟨0, 1, 2⟩] } }) }
theorem wit_controlForms :
    ((tvcLive twoLoops 5 0).isSome = true ∧ 2 ≤ (tvcOf twoLoops 5 0).loops.length ∧ (tvcOf twoLoops 5 0).ending = false
      ∧ tvcDecode 5 0 0 (slotWord (tvcOf twoLoops 5 0)) = some (.tvcLoop 5 0 0 3 4))
    ∧ (let s := { tvcState (0x10 * 2 ^ 26 + 1 * 2 ^ 18) 0 with
          tile := (tvcState (0x10 * 2 ^ 26 + 1 * 2 ^ 18) 0).tile.map fun e => (e.1, { e.2 with owner := [(0, 9)] }) };
       (tvcOf s 5 0).dmas.length < 4 ∧ sreg (tvcOf s 5 0).old 1 % 32 = 0 ∧ inPart 0 0x20000 (sreg (tvcOf s 5 0).old 1) 32 = true
       ∧ okWith (tileFetch s 5 0 (sreg (tvcOf s 5 0).old 1) 32) (fun _ b =>
          (tvcLive s 5 0).any fun z => !dmaUndeclared z.1 (tvcOf s 5 0) (parseDma b)) = true
       ∧ ((tvcLive s 5 0).any fun z => dmaUndeclared z.1 (tvcOf s 5 0) { parseDma [] with out := true }) = true)
    ∧ (let s := tvcState 0 0
       let f (n : Nat) : State := { s with tile := s.tile.map fun e => (e.1, { e.2 with tvc0 := { e.2.tvc0 with
          dmas := List.replicate n (0, List.replicate 32 0), old := { s := [(1, 4)] } } }) };
       4 ≤ (tvcOf (f 4) 5 0).dmas.length ∧ (tvcOf (f 0) 5 0).dmas = [] ∧ sreg (tvcOf (f 0) 5 0).old 1 % 32 ≠ 0
       ∧ sreg (tvcOf (f 0) 5 0).old 1 ≠ 0) := by decide

theorem wit_vectorForms :
    tblWf (tvcOf (tvcState 0 1) 5 0).new.v = true ∧ tblWf (tvcOf (tvcState 0 1) 5 0).new.a = true
    ∧ tvcDecode 5 0 1 (0x05 * 2 ^ 26 + 40 * 2 ^ 4) = some (.tvcVsta 5 0 { t := false, vd := 0, va := 0, vb := 0, k := 40, f := 0 })
    ∧ tvcDecode 5 0 1 (0x06 * 2 ^ 26 + 48 * 2 ^ 4) = some (.tvcVrcp 5 0 { t := false, vd := 0, va := 0, vb := 0, k := 48, f := 0 })
    ∧ (let s := { tvcState (0x10 * 2 ^ 26) 1 with regs := [(0x10010, 4)] };
       feat s 2 = true ∧ (tvcOf s 5 0).slot = 1 ∧ ((tvcLive s 5 0).any fun z => !hasTable z.1 1
        && hasTable { z.1 with tables := [{ kind := 1, carrier := 0, sfn := 0, slot := 0, entry := some 3 }] } 1 && !exclBound s z.1) = true)
    ∧ (let s := { tvcState 0 1 with mq := { excl := [(0, absFrame {} 0, 0)] } };
       ((tvcLive s 5 0).any fun z => exclBound s { z.1 with bind := some unbound }) = true)
    ∧ (4 : Nat) % 64 ≠ 0 ∧ tvcReadable 0x100000 64 = false ∧ tileWritable 0x100000 64 = false
    ∧ okWith (tileFetch (tvcState 0 2) 5 0 64 64) (fun _ _ => true) = true := by decide

/-- A coding command whose record at 0x200100 is this one. -/
def cdState (u opc : Nat) (rec : List (Nat × Nat)) : State :=
  { unitState 1 u opc 0 [0x200100, 7, 8] with mem := mapped (bytesWith 64 rec) }
def atRecord (s : State) (u opc : Nat) (f : State → Run → List Byte → Bool) : Bool :=
  (atOp s 1 u opc).any fun z => okWith (cdRecord s z.1 z.2.2) fun t b => f t z.1 b
/-- TBS 24, BG2, QPSK, one layer, G 96, ten iterations; byte 7 holds NW, SCR, HARQ and NDI. -/
def smallLdpc (flags : Nat) : List (Nat × Nat) := [(0, 24), (3, 0x20 + 4 + 1), (4, 96), (7, flags), (11, 10)]
theorem wit_codingForms :
    atRecord (cdState 0 0x20 (smallLdpc 0)) 0 0x20 (fun _ _ b => ldpcOk (parseLdpc b) && decBoundOk (parseLdpc b)
      && !(parseLdpc b).nw && !(parseLdpc b).harq) = true
    ∧ atRecord (cdState 0 0x20 (smallLdpc 0x80)) 0 0x20 (fun t _ b => (parseLdpc b).nw && !feat t 3) = true
    ∧ atRecord { cdState 0 0x20 (smallLdpc 0x80) with regs := [(0x10010, 12)] } 0 0x20 (fun t x b => (parseLdpc b).nw && feat t 3
        && ldpcOk (parseLdpc b) && okWith (jobWeights t x (parseLdpc b) b) fun _ j => j.fallback) = true
    ∧ atRecord (cdState 0 0x20 [(0, 23)]) 0 0x20 (fun _ _ b => !ldpcOk (parseLdpc b)) = true
    ∧ atRecord (cdState 0 0x20 (smallLdpc 8)) 0 0x20 (fun t x b => (parseLdpc b).harq && entryFree t x.fn (some 0) 1) = true
    ∧ atRecord { cdState 0 0x20 (smallLdpc 8) with ce := { harq := [(0, { func := 0, key := 0, st := 1, heldBy := some 9 })] } } 0 0x20
        (fun t x b => (parseLdpc b).harq && !entryFree t x.fn (some (parseLdpc b).key) 1) = true
    ∧ (cdInside (withSegs (cdState 0 0x20 []) fun g => { g with phase := .decoding {} none 0 false }) 0).isSome = true
    ∧ (cdInside (withSegs (cdState 0 0x24 []) fun g => { g with phase := .harq 0 none {} }) 0).isSome = true
    ∧ (∃ s : State, cdInside s 0 = none)
    ∧ (atOp (unitState 1 0 0x21 0 []) 1 0 0x21).isSome = true ∧ (atOp (unitState 1 0 0x22 0 []) 1 0 0x22).isSome = true
    ∧ (atOp (unitState 1 0 0x23 0 []) 1 0 0x23).isSome = true ∧ atOp (unitState 1 0 0x20 0 []) 1 0 0x21 = none
    ∧ atRecord (cdState 31 0x21 (smallLdpc 0)) 31 0x21 (fun _ _ b => ldpcOk (parseLdpc b) && encBoundOk (parseLdpc b)) = true
    ∧ atRecord (cdState 32 0x22 []) 32 0x22 (fun _ _ b => !uciOk (parsePolar b)) = true
    ∧ atRecord (cdState 36 0x23 []) 36 0x23 (fun _ _ b => !dlOk (parsePolar b)) = true := by
  refine ⟨by decide, by decide, by decide, by decide, by decide, by decide, by decide, by decide, ⟨{}, by decide⟩, by decide,
    by decide, by decide, by decide, by decide, by decide, by decide⟩

def arrayWith (opc imm : Nat) (extra : List W64) (cols : Nat) (copies : List (Nat × List Byte)) : State :=
  withCopies (arrayState opc imm extra cols) copies
def atPa (s : State) (opc : Nat) (f : Run → ListOp → Bool) : Bool := (paReady s 3 opc).any fun z => f z.1 z.2.2
/-- An INT8 matrix of 2 by 2 elements at 0x200100, and one whose format pairs with no INT8 operand. -/
def mats : List (Nat × List Byte) := [(1, layout 0x200100 0 2 2 2 2), (2, layout 0x200100 5 2 2 2 4)]
/-- PA_MATMUL of 1 by 2 by 2 from accumulator row 6144. -/
def matmulWords (a b : Nat) : List W64 := [BitVec.ofNat 64 a, BitVec.ofNat 64 b, 0, BitVec.ofNat 64 (1 + 2 * 2 ^ 13 + 2 * 2 ^ 33 + 6144 * 2 ^ 41)]
theorem wit_plinthForms :
    atPa (arrayWith 0x30 0 (matmulWords 1 1) 2 mats) 0x30 (fun x o =>
      let p := matmulOf o
      let s := arrayWith 0x30 0 (matmulWords 1 1) 2 mats
      shapeOk p.m p.n && p.k ≠ 0 && rowsOk x p.row p.m && colsReady s 3 2
      && okWith (operand s (agentOf x (some 3)) p.refA false) (fun t oa => okWith (operand t (agentOf x (some 3)) p.refB false) fun _ ob =>
          pairOk oa.lay.fmt ob.lay.fmt && windowOk oa p.orgA p.extA && windowOk ob p.orgB p.extB)) = true
    ∧ atPa (arrayWith 0x30 0 (matmulWords 1 2) 2 mats) 0x30 (fun x o =>
      let p := matmulOf o
      let s := arrayWith 0x30 0 (matmulWords 1 2) 2 mats
      okWith (operand s (agentOf x (some 3)) p.refA false) fun t oa => okWith (operand t (agentOf x (some 3)) p.refB false) fun _ ob =>
        !pairOk oa.lay.fmt ob.lay.fmt) = true
    ∧ atPa (arrayState 0x30 0 [] 0) 0x30 (fun _ o => !shapeOk (matmulOf o).m (matmulOf o).n) = true
    ∧ atPa (arrayState 0x30 0 [0, 0, 0, 1 + 2 ^ 13 + 2 ^ 33] 0) 0x30 (fun x o => shapeOk (matmulOf o).m (matmulOf o).n
        && !rowsOk x (matmulOf o).row (matmulOf o).m) = true
    ∧ atPa (arrayState 0x31 0 [] 0) 0x31 (fun _ o => !shapeOk (convOf o).m (convOf o).n) = true
    ∧ atPa (arrayState 0x31 0 [0, 0, 1 + 32 + 2 ^ 38, 2 ^ 32 + 2 ^ 48, 2 ^ 20] 0) 0x31 (fun _ o => shapeOk (convOf o).m (convOf o).n
        && bits (xw o 3) 4 0 ≠ 0 && bits (xw o 3) 9 5 ≠ 0 && bits (xw o 3) 53 38 ≠ 0) = true
    ∧ (let s := arrayWith 0x32 (1 + 2 * 2 ^ 13) [1, 6144 * 2 ^ 40] 2 mats
       atPa s 0x32 fun x o => okWith (storeChecks s x 3 (storeOf o) fun _ => true) fun t d =>
        okWith (scaleOperand t (agentOf x (some 3)) d true) fun _ q => q.isNone) = true
    ∧ (let s := arrayWith 0x34 (1 + 2 * 2 ^ 13) [1, 6144 * 2 ^ 40] 2 mats
       atPa s 0x34 fun x o => fails (storeChecks s x 3 (storeOf o) fun f => f = 4)) = true
    ∧ (let s := arrayWith 0x34 (1 + 2 * 2 ^ 13) [1, 6144 * 2 ^ 40] 2 [(1, layout 0x200100 4 2 2 2 8)]
       atPa s 0x34 fun x o => okWith (storeChecks s x 3 (storeOf o) fun f => f = 4) fun _ _ => true) = true
    ∧ atPa (arrayState 0x33 2 [6144 + 2 ^ 13, 1 + 2 ^ 13] 1) 0x33 (fun x o => let p := reduceOf o
        shapeOk p.m p.n && 2 ≤ p.count && p.m ≤ p.step && (reduceRegions p).all fun r => rowsOk x r p.m) = true
    ∧ atPa (arrayState 0x33 1 [0, 1 + 2 ^ 13] 1) 0x33 (fun _ o => (reduceOf o).count < 2) = true
    ∧ atPa (arrayState 0x33 2 [2 ^ 13, 1 + 2 ^ 13] 1) 0x33 (fun x o => (reduceRegions (reduceOf o)).any fun r => !rowsOk x r 1) = true
    ∧ (paReady (withSegs (arrayState 0x30 0 [] 2) fun g => { g with phase := .pa 1 2 [] [] }) 3 0x30).isSome = true := by
  refine ⟨by decide, by decide, by decide, by decide, by decide, by decide, by decide, by decide, by decide, by decide,
    by decide, by decide, by decide⟩

def twoRuns (mine : Nat) : State :=
  let run : Run := { id := 0, ring := 8, k := 0, seq := 0, fn := 0, cls := 2, prio := mine, deadline := 0, redeliver := false
                     args := [], grant := 0, lateEvt := false, ra := false, segs := [{ unit := 3, ops := [] }] }
  { arr := [(3, { holder := some 0, occupant := 1 })], runs := [run, { run with id := 1, prio := 0 }] }
theorem wit_preemption :
    (let s := withRuns (arrayState 0x35 0 [] 0) fun x => { x with isBatch := true, colDesc := layout 0x200100 0 2 2 2 2 };
     (paReady s 3 0x35).any fun z => (checkRequests s z.1 3 z.1.batch []).2.2.isNone && (match batchW z.1 with | .ok _ => true | .fail _ => false)) = true
    ∧ (let s := withRuns (arrayState 0x35 0 [] 0) fun x => { x with isBatch := true, colFail := some (4, 0xD0, false), batch := [(0, 1, 1)] };
       (paReady s 3 0x35).any fun z => (checkRequests s z.1 3 z.1.batch []).2.2.isSome && (match batchW z.1 with | .ok _ => false | .fail _ => true)) = true
    ∧ (let s := withRuns (withCopies (arrayState 0x35 0 [] 0) [(1, layout 0x200100 0 1 2 1 0), (2, layout 0x200100 7 1 2 1 0)]) fun x =>
        { x with isBatch := true, colDesc := layout 0x200100 0 2 2 2 2, batch := [(0, 1, 2)], colB := 6144 * 2 ^ 19 };
       (paReady s 3 0x35).any fun z => !(checkRequests s z.1 3 z.1.batch []).2.1.isEmpty) = true
    ∧ (let s := withRuns (unitState 2 3 0x35 0 []) fun x => { x with segs := [], loose := [{ idx := 2, opc := 0x35, unit := 3, evc := 0, imm := 0, extra := [] }] };
       paReady s 3 0x35 = none ∧ (s.runs.find? fun x => x.cls = 2 && x.cause.isNone && x.loose.any fun l => l.opc = 0x35).isSome = true)
    ∧ (∃ s : State, ∀ x ∈ s.runs, ∀ o ∈ x.loose, o.opc ≠ 0x35)
    ∧ (∃ s : State, (colOf s 63).timing = some 0 ∧ holdCycles s 63 ≤ s.hclk ∧ waitingSlots (ringOf s (colRing s 63)) ≠ [])
    ∧ (∃ s : State, (colOf s 63).timing = none)
    ∧ ((holding (twoRuns 3) 3).any (fun z => 2 ≤ z.1.prio) && (radioNext (twoRuns 3) 3).isSome && !rampRuns (twoRuns 3) 3
        && (radioNext (twoRuns 3) 3).any fun z => (opColumns z.1 z.2).isSome) = true
    ∧ (holding (twoRuns 1) 3).any (fun z => z.1.prio < 2) = true
    ∧ ((preemptedOn { withSegs (twoRuns 3) fun g => { g with preempted := true } with arr := [], runs := (withSegs (twoRuns 3) fun g => { g with preempted := true }).runs.take 1 } 3).isSome
        && (radioNext { withSegs (twoRuns 3) fun g => { g with preempted := true } with arr := [], runs := (withSegs (twoRuns 3) fun g => { g with preempted := true }).runs.take 1 } 3).isNone) = true
    ∧ ∃ s : State, holding s 3 = none ∧ preemptedOn s 3 = none :=
  ⟨by decide, by decide, by decide, by decide, ⟨{}, by decide⟩,
   ⟨{ hclk := 1000, col := [(63, { timing := some 0 })], ring := [(0, { st := 1, slots := [{ k := 0, seq := 0 }] })] }, by decide⟩,
   ⟨{}, by decide⟩, by decide, by decide, by decide, ⟨{}, by decide⟩⟩

theorem wit_plannerForms :
    (∃ s : State, atOp s 3 2 0x40 = none ∧ inSearch s 2 = none)
    ∧ (let s := { unitState 3 2 0x40 0 [0] with retired := (List.range 8).map fun g => ((7 * 256 + g), true) };
       (atOp s 3 2 0x40).isSome = true ∧ groups s = 0)
    ∧ (∃ s : State, ∀ e ∈ s.ev.fired, e.1 ≠ 18)
    ∧ (let v := stopVerdict { record := [], active := true } 2 true 5
       v.emitted = [] ∧ v.budget = true ∧ v.result = 2)
    ∧ (let s := withSegs { unitState 3 2 0x40 0 [0] with core := [(2, { phase := 3, robots := [{ record := [], active := false }] })] }
          fun g => { g with phase := .planning }
       ((inSearch s 2).isSome = true ∧ (coreOf s 2).robots[(coreOf s 2).rank]? = some { record := [], active := false })
       ∧ ((current s 3 2).any fun z => !z.2.stop) = true
       ∧ ((inSearch s 2).any fun z => fails (decideRobot s (cycleOf s 2 z.1) z.1.id 0 { record := [], active := false }
            (stopVerdict { record := [], active := false } 2 true 5))) = true
       ∧ ((inSearch { s with mem := mapped [] } 2).any fun z => okWith (decideRobot { s with mem := mapped [] }
            { cycleOf s 2 z.1 with p := { (cycleOf s 2 z.1).p with out := 0x200800 } } z.1.id 0 { record := [], active := false }
            (stopVerdict { record := [], active := false } 2 true 5)) fun _ _ => true) = true) := by
  refine ⟨⟨{}, by decide⟩, by decide, ⟨{}, by decide⟩, by decide, by decide, by decide, by decide, by decide⟩

theorem wit_memoryForms :
    ((atChunk (unitState 6 3 0x60 0 [0, 4096, 0]) 3 0x60).any fun z => z.2.2 = 0 && bits (xw z.2.1 3) 39 0 = 0) = true
    ∧ (let s := { unitState 6 3 0x60 0 [0x200100, 0x200200, 8] with mem := mapped (List.replicate 8 1) }
       ((atChunk s 3 0x60).any fun z => okWith (readDev s (agentOf z.1) 0x200100 8) fun t d =>
          okWith (writeDev t (agentOf z.1) 0x200200 d) fun _ _ => d.poison.isEmpty) = true)
    ∧ ((atChunk (unitState 6 3 0x60 0 [0, 4096, 64]) 3 0x60).any fun z => fails (readDev (unitState 6 3 0x60 0 [0, 4096, 64]) (agentOf z.1) 0 64)) = true
    ∧ ((atChunk (withSegs (unitState 6 3 0x60 0 [0, 4096, 0x30000]) fun g => { g with phase := .chunks 1 }) 3 0x60).any fun z =>
        z.2.2 = 1 && 2 * 65536 < bits (xw z.2.1 3) 39 0) = true
    ∧ (let s := { unitState 6 3 0x61 5 [0x200200, 8] with mem := mapped [] }
       ((atChunk s 3 0x61).any fun z => okWith (writeBytes s (agentOf z.1) 0x200200 (List.replicate 2 (leBytes 4 5)).flatten) fun _ _ => true) = true)
    ∧ ((atChunk (unitState 6 3 0x61 0 [2, 64]) 3 0x61).any fun z => bits (xw z.2.1 1) 47 0 % 4 ≠ 0) = true
    ∧ (∃ s : State, atChunk s 3 0x60 = none)
    ∧ (∃ s : State, reg s 0x90008 ≠ 0 ∧ 0x1000 < hbmCap s ∧ stackOf s 0x1000 = 1 ∧ tblGet? s.mem.hbmCell (hbmPlace s 0x1000 / 32) = some 1)
    ∧ (∃ s : State, reg s 0x90008 ≠ 0 ∧ tblGet? s.mem.hbmCell 0 = some 2) ∧ (∃ s : State, reg s 0x90008 = 0)
    ∧ (∃ s : State, served s = true ∧ s.mem.layInv = none) ∧ (∃ s : State, served s = true ∧ s.mem.layInv ≠ none)
    ∧ (let s : State := { regs := [(0xA2000, 2 + 1 * 4 + 12 * 256)] }
       working s 12 1 = true ∧ inboundOffset s 1 0 64 = some 0 ∧ 0 + 64 ≤ hbmCap s)
    ∧ (∃ s : State, working s 12 1 = false) := by
  refine ⟨by decide, by decide, by decide, by decide, by decide, by decide, ⟨{}, by decide⟩,
    ⟨{ regs := [(0x90008, 1)], mem := { hbmCell := [(805306368, 1)] } }, by decide⟩,
    ⟨{ regs := [(0x90008, 1)], mem := { hbmCell := [(0, 2)] } }, by decide⟩, ⟨{ regs := [(0x90008, 0)] }, by decide⟩,
    ⟨{ boot := { fwUp := true } }, by decide⟩, ⟨{ boot := { fwUp := true }, mem := { layInv := some (3, none) } }, by decide⟩,
    by decide, ⟨{ retired := [(12 * 256 + 1, true)] }, by decide⟩⟩

theorem wit_faultForms :
    (∃ s : State, tblWf s.ev.evc = true ∧ (d2dOf s 0).down = false) ∧ (∃ s : State, (d2dOf s 1).down = true)
    ∧ (∃ s : State, servedIo s = true) ∧ (∃ s : State, servedIo s = false) ∧ (∃ s : State, s.err.toFlash = [])
    ∧ (∃ s : State, s.err.toFlash = [3] ∧ s.boot.fwUp = true ∧ tblGet? s.err.log 3 = some { time := 0, code := 1, func := 0, ring := 0, seq := 0, index := 0, arg0 := 0, arg1 := 0 })
    ∧ (∃ s : State, takeArrival 5 s.ev.inFlight = none)
    ∧ (let s : State := { ev := { inFlight := [{ input := 5 }, { input := 6 }] }, regs := [(0x34014, 2 ^ 31 + 3 * 2 ^ 16), (0x34018, 2 ^ 31 + 3 * 2 ^ 16)] }
       ((takeArrival 5 s.ev.inFlight).any fun z => (fixedPath s z.1).isNone && routeLine s z.1.input = some 3
          && (takeArrival 6 z.2).any fun y => (fixedPath s y.1).isNone && routeLine s y.1.input = some 3) = true)
    ∧ (let s : State := { ev := { inFlight := [{ input := 5 }] }, regs := [(0x34014, 0)] }
       ((takeArrival 5 s.ev.inFlight).any fun z => (fixedPath s z.1).isNone && (routeLine s z.1.input).isNone) = true)
    ∧ (let s : State := { ev := { inFlight := [{ input := 5, comparator := some 7, fired := 9 }, { input := 6, comparator := some 8, fired := 9 }] }
                          regs := [(0x34014, 2 ^ 31 + 32 * 2 ^ 16), (0x34018, 2 ^ 31 + 32 * 2 ^ 16)] }
       ((takeArrival 5 s.ev.inFlight).any fun z => fixedPath s z.1 = some (32, 0, 9) && z.2.any fun b => fixedPath s b = some (32, 0, 9)) = true) := by
  refine ⟨⟨{}, by decide⟩, ⟨{ err := { d2d := [(1, { down := true })] } }, by decide⟩, ⟨{ boot := { fwUp := true } }, by decide⟩,
    ⟨{}, by decide⟩, ⟨{}, by decide⟩, ⟨{ boot := { fwUp := true }, err := { toFlash := [3], log := [(3, { time := 0, code := 1, func := 0, ring := 0, seq := 0, index := 0, arg0 := 0, arg1 := 0 })] } }, by decide⟩,
    ⟨{}, by decide⟩, by decide, by decide, by decide⟩

theorem wit_publishForms :
    (∃ s : State, mqLive s = false ∧ s.mq.pub = none) ∧ (∃ s : State, mqLive s = true ∧ (verOf s 3).st ≠ 1)
    ∧ (let j : PubJob := { func := 0, table := 0, sfn := 0, sf := 0, addr := 0 }; let s : State := { mq := { pub := some j } };
       (ctxOf s 0).en = false ∧ fnExists s 5 = false)
    ∧ (let j : PubJob := { func := 0, table := 0, sfn := 0, sf := 0, addr := 0x200100 }
       (readTable { mem := mapped (List.replicate 64 0) } j).2 = .inr 2) := by
  refine ⟨⟨{}, by decide⟩, ⟨{ boot := { fwUp := true, sealed := true }, regs := [(0x10010, 4)] }, by decide⟩, by decide, by decide⟩

/-- Port 2 sends for carrier 0: placed there with 10 PRBs, its eAxC 9 valid. -/
def fxState (opc imm : Nat) (extra : List W64) (b : List Nat) : State :=
  { unitState 4 2 opc imm extra with
    mem := mapped b, regs := [(0xF0040, 1500 * 2 ^ 16 + 1), (0xF8000, 2 ^ 31 + 9)]
    fh := { carrier := [(0, { now := { cfg := BitVec.ofNat 32 (2 ^ 17 + 10 * 256 + 2), place := 0 } })] } }
def atFx (s : State) (opc n : Nat) (f : State → Run → ListOp → List Byte → Bool) : Bool :=
  (atOp s 4 2 opc).any fun z => fxPlaced s (fxCarrier z.2.2) 2
    && okWith (readUse s (agentOf z.1) (bits (xw z.2.2 1) 47 0) n) fun t b => f t z.1 z.2.2 b
set_option maxRecDepth 20000 in
theorem wit_egressForms :
    (∃ s : State, atOp s 4 2 0x50 = none ∧ inOp s 4 2 = none)
    ∧ ((atOp (unitState 4 2 0x50 0 [0, 0]) 4 2 0x50).any fun z => !fxPlaced (unitState 4 2 0x50 0 [0, 0]) (fxCarrier z.2.2) 2) = true
    ∧ ((atOp (fxState 0x50 0 [0, 0] []) 4 2 0x50).any fun z => fxPlaced (fxState 0x50 0 [0, 0] []) (fxCarrier z.2.2) 2
        && bits (xw z.2.2 1) 56 48 = 0) = true
    ∧ atFx (fxState 0x50 0 [0x200100 + 2 ^ 48, 0x200200] (bytesWith 32 [(1, 0x10), (2, 0x10), (5, 4), (8, 9)])) 0x50 32 (fun t _ _ b =>
        let l := cutEntries b 1
        entriesBad t 0 0 0 (l.map parseEntrySec) = none
        && okWith (readExts t { ctx := 0, cls := 4 } 0 (l.map parseEntrySec) []) fun u x => (l.zip x).all fun z =>
          cplaneSize (parseEntrySec z.1).typ (secSize (parseEntrySec z.1) z.2) ≤ portMtu u 2) = true
    ∧ atFx (fxState 0x50 0 [0x200100 + 2 ^ 48, 0x200200] (bytesWith 32 [])) 0x50 32 (fun t _ _ b =>
        entriesBad t 0 0 0 ((cutEntries b 1).map parseEntrySec) = some 0x40) = true
    ∧ atFx (fxState 0x51 0 [0x200100 + 2 ^ 48] (bytesWith 16 [(2, 0x10), (5, 4), (8, 9), (14, 4)])) 0x51 16 (fun t _ o b =>
        (cutUEntries b 1).all fun e => uentryFits (slotPl t (fxCarrier o) (fxSfn o) (fxSlot o)) e && (eaxcOn t (fxCarrier o) e.eaxc).isSome) = true
    ∧ atFx (fxState 0x51 0 [0x200100 + 2 ^ 48] (bytesWith 16 [(2, 0x10), (5, 4), (8, 8), (14, 4)])) 0x51 16 (fun t _ o b =>
        (cutUEntries b 1).all fun e => uentryFits (slotPl t (fxCarrier o) (fxSfn o) (fxSlot o)) e && (eaxcOn t (fxCarrier o) e.eaxc).isNone) = true
    ∧ ((inOp (withSegs (unitState 4 2 0x50 0 [0, 0]) fun g => { g with phase := .fx [] }) 4 2).any fun z => z.2.1.phase = .fx []) = true
    ∧ (∃ s : State, portState s 0 ≠ 2) := by
  refine ⟨⟨{}, by decide⟩, by decide, by decide, by decide, by decide, by decide, by decide, by decide, ⟨{ regs := [(0xF0000, 0)] }, by decide⟩⟩

/-- A message of carrier 0 on port 0 whose window is open, on an admitting port. -/
def sendingState (sealed : Bool) (count : Int) : State :=
  let s := withSegs { unitState 4 0 0x50 0 [0, 0] with
    etu := { state := 2, count := BitVec.ofInt 64 (gpsEpoch + count) }
    regs := [(0xF0000, 17), (0xF000C, 0), (0xF0010, 0), (0xF0014, 0), (0xF4010, 1000)]
    fh := { port := [(0, { up := true })], carrier := [(0, { now := { cfg := 2 ^ 17 + 10 * 256, place := 0 }, open_ := true, openAt := gpsEpoch })] } }
    fun g => { g with phase := .fx [{ carrier := 0, plane := 0, dir := 1, sfn := sfnAt { etu := { count := BitVec.ofInt 64 gpsEpoch } } gpsEpoch, slot := 0, sym := 0, eaxc := 0, sections := [] }] }
  { s with boot := { s.boot with sealed := sealed } }
def atMsg (s : State) (f : State → Run → FxMsg → Bool) : Bool :=
  (inOp s 4 0).any fun z => match z.2.1.phase with
    | .fx (m :: _) => f s z.1 m
    | _ => false
theorem wit_windows :
    atMsg (sendingState true (-2000)) (fun s _ m => txStamp s 0 < winOpen s m) = true
    ∧ atMsg (sendingState true (-500)) (fun s x m => winOpen s m ≤ txStamp s 0 && txStamp s 0 ≤ winClose s m && mayTransmit s m.carrier m
        && okWith (buildMsg (setPhase (takeSeq s m).1 x 0 (.fx [])) x m) fun _ _ => true) = true
    ∧ atMsg (sendingState true 500) (fun s _ m => winClose s m < txStamp s 0 && mayTransmit s m.carrier m) = true
    ∧ atMsg (sendingState false (-500)) (fun s _ m => winOpen s m ≤ txStamp s 0 && !mayTransmit s m.carrier m) = true := by
  decide

theorem wit_egressQueue :
    (let s : State := { regs := [(0xF0000, 1)], etu := { tclkLost := true }, fh := { port := [(0, { up := true, queue := [{ kind := 2, bytes := [] }] })] } }
     portState s 0 = 2 ∧ (portOf (dropLate s 0) 0).queue.all (fun f => isSync f && syncStopped (dropLate s 0) 0) = true)
    ∧ (let s : State := { regs := [(0xF0000, 1)], fh := { port := [(0, { up := true, queue := [{ kind := 2, bytes := [] }] })] } }
       portState s 0 = 2 ∧ (portOf (dropLate s 0) 0).queue.any (fun f => !(isSync f && syncStopped (dropLate s 0) 0)) = true)
    ∧ (∃ s : State, served s = false) ∧ (∃ s : State, served s = true ∧ egPick s 0 (portOf s 0).queue = none)
    ∧ (let s : State := { boot := { fwUp := true }, regs := [(0xF0410, 512), (0xF041C, 1), (0xF0408, 0x2040)] }
       s.fh.txCons % tqSize s true ≠ reg s 0xF041C % tqSize s true) :=
  ⟨by decide, by decide, ⟨{}, by decide⟩, ⟨{ boot := { fwUp := true } }, by decide⟩, by decide⟩

def ptpFrame : List Byte := [0x01, 0x1B, 0x19, 0, 0, 0, 0, 0, 0, 0, 0, 0, 0x88, 0xF7]
def esmcFrame : List Byte := [0x01, 0x80, 0xC2, 0, 0, 2, 0, 0, 0, 0, 0, 0, 0x88, 0x09, 0x0A]
theorem wit_ingress :
    (∃ s : State, s.boot.fwUp = true ∧ s.boot.recovery = false ∧ portState s 3 = 1 ∧ tblGet false s.power.outputs 3 = true ∧ tblWf s.fh.port = true)
    ∧ (∃ s : State, tblGet false s.power.outputs 3 = false ∧ served s = false ∧ portState s 3 ≠ 2)
    ∧ portState upPort 0 = 2 ∧ served upPort = true ∧ tblWf upPort.fh.port = true ∧ preempts upPort 0 = false
    ∧ (let s := { upPort with regs := [(0xF0000, 9)], fh := { port := [(0, { up := true, frag := some [] })] } };
       portState s 0 = 2 ∧ preempts s 0 = true ∧ (portOf s 0).frag = some [])
    ∧ classify upPort 0 (parseFrame []) = .other
    ∧ classify upPort 0 { dst := 0, src := 0, tags := 0, vid := 0, typ := 0xAEFE, body := [] } = .unsup
    ∧ (classify upPort 0 (parseFrame ptpFrame) = .ptp ∧ ptpFrame.length ≤ 112)
    ∧ classify upPort 0 (parseFrame esmcFrame) = .esmc
    ∧ classify { upPort with regs := upPort.regs ++ [(0xF4008, 5), (0xF400C, 0)] } 0
        { dst := 0, src := 5, tags := 1, vid := 0, typ := 0xAEFE, body := [0x10, 0] } = .uplane
    ∧ classify upPort 0 { dst := 0, src := 5, tags := 1, vid := 0, typ := 0xAEFE, body := [0x10, 5] } = .delay
    ∧ (police upPort 0 0).2 = true ∧ (police upPort 0 1).2 = true ∧ (police upPort 0 2).2 = true
    ∧ (let s := { upPort with fh := { port := [(0, { up := true, used := [(0, 10 ^ 12), (1, 10 ^ 12), (2, 10 ^ 12)] })] } };
       (police s 0 0).2 = false ∧ (police s 0 1).2 = false ∧ (police s 0 2).2 = false)
    ∧ rxEnabled (police upPort 0 0).1 = false
    ∧ (let t := (police { upPort with regs := upPort.regs ++ [(0xF0410, 256), (0xF0418, 0)] } 0 0).1
       rxEnabled t = true ∧ (t.fh.rxProd % tqSize t false + 1) % tqSize t false ≠ reg t 0xF0418 % tqSize t false)
    ∧ (let t := (police { upPort with regs := upPort.regs ++ [(0xF0410, 256), (0xF0418, 1)] } 0 0).1
       (t.fh.rxProd % tqSize t false + 1) % tqSize t false = reg t 0xF0418 % tqSize t false) := by
  refine ⟨⟨{ boot := { fwUp := true }, regs := [(0xF0060, 1)], power := { outputs := [(3, true)] } }, by decide⟩,
    ⟨{ regs := [(0xF0060, 0)] }, by decide⟩, by decide, by decide, by decide, by decide, by decide, by decide, by decide, by decide,
    by decide, by decide, by decide, by decide, by decide, by decide, by decide, by decide, by decide, by decide⟩

/-- The count at a slot boundary, the carrier placed on port 0. -/
def boundaryState (x : Carrier) (off : Int) : State :=
  { boot := { fwUp := true, sealed := true }, etu := { state := 2, count := BitVec.ofInt 64 (gpsEpoch + off) }, regs := [(0xF0000, 17)]
    fh := { port := [(0, { up := true })], carrier := [(9, { x with now := { cfg := 0x20000, place := 0 } })] } }
def atBoundary (s : State) : Bool := inFrame s (dieCount s 0) % slotTc 0 = 0
theorem wit_admission :
    (admits (boundaryState {} 0) 0 = true ∧ atBoundary (boundaryState {} 0) = true ∧ (carrierOf (boundaryState {} 0) 9).open_ = false
      ∧ plEn (carrierOf (boundaryState {} 0) 9).now = true)
    ∧ atBoundary (boundaryState {} 5) = false ∧ (carrierOf (boundaryState { open_ := true } 0) 9).open_ = true
    ∧ (carrierOf (boundaryState { pending := true } 0) 9).pending = true
    ∧ (let f := absFrame (boundaryState {} 0) 1
       let r : ReqSection := { frame := f, slot := 0, sec := 0, stream := 0, startPrb := 0, numPrb := 1, startSym := 0, numSym := 1 }
       let s := boundaryState { requested := [r] } 0
       let late := { s with etu := { s.etu with count := BitVec.ofInt 64 (slotStart s 0 1 0 + 5) } }
       (plEn (slotPl late 9 1 0) = true ∧ slotStart late 0 1 0 + symbolOfs 0 0 0 + carWin late 9 7 ≤ rxStamp late 0
        ∧ r ∈ (carrierOf late 9).requested ∧ absFrame late 1 = f)
       ∧ rxStamp s 0 < slotStart s 0 1 0 + symbolOfs 0 0 0 + carWin s 9 7) := by
  decide

def oneLink (k : Nat) (x : CvLink) : State :=
  { boot := { fwUp := true }, cv := { link := [(k, x)] }, fh := { carrier := [(0, { now := { cfg := 0x20000, place := 0 } })] } }
def cvState (opc imm : Nat) (cfg : Nat) (x : CvLink) : State :=
  { unitState 5 1 opc imm [0] with regs := [(0x100100, cfg)], cv := { link := [(1, x)] } }
theorem wit_linkForms :
    (∃ s : State, linkMayRun s 1 = false ∧ (linkOf s 1).st = 0)
    ∧ ((linkOf (oneLink 1 { st := 2, srefSeen := true }) 1).st ≠ 1)
    ∧ misaligned { st := 2, cfg := 12385, sref := 5 } 100 = true
    ∧ (let x : CvLink := { st := 3, dir := 1 }; let s := oneLink 1 x
       plEn (placedNow (carrierOf s (cvCarrier x)) (dieCount s (linkDie 1) - cvOfs s 1 0x04)) = true ∧ bitAt x.dir 0 = true
       ∧ cvBurst x = false ∧ (x.t0.toNat : Int) ≤ dieCount s (linkDie 1))
    ∧ (∃ s : State, atOp s 5 1 0x58 = none)
    ∧ (startBad (cvState 0x58 0 0 {}) 1 0 = some 0x50 ∧ (atOp (cvState 0x58 0 0 {}) 5 1 0x58).isSome = true)
    ∧ startBad (cvState 0x58 0 12385 {}) 1 0 = none
    ∧ (startBad (cvState 0x58 1 (2 ^ 20) { st := 3, cfg := 0x100000 }) 1 1 = none ∧ cvBurst (linkOf (cvState 0x58 1 (2 ^ 20) { st := 3, cfg := 0x100000 }) 1) = true)
    ∧ (let s := withSegs { cvState 0x58 0 0 { st := 2 } with ev := { fired := [(1, 100)] } } fun g => { g with phase := .awaitLine };
       ((inOp s 5 1).any fun z => fails (writeBytes s (agentOf z.1) (bits (xw z.2.2 1) 47 0) (leBytes 8 0))) = true
       ∧ ((inOp s 5 1).any fun z => okWith (writeBytes { s with mem := mapped [] } (agentOf z.1) 0x200200 (leBytes 8 0)) fun _ _ => true) = true)
    ∧ (∃ s : State, (∀ e ∈ s.ev.fired, e.1 ≠ 1) ∧ inOp s 5 1 = none) := by
  refine ⟨⟨{}, by decide⟩, by decide, by decide, by decide, ⟨{}, by decide⟩, by decide, by decide, by decide, by decide, ⟨{}, by decide⟩⟩

set_option maxRecDepth 4000 in
theorem wit_symbols :
    (let x : CvLink := { st := 3, cfg := 0x3000, dir := 3 }; let s := oneLink 1 x
     (x.st = 3 ∧ cvBurst x = false ∧ plEn (slotPl s (cvCarrier x) 0 0) = true ∧ bitAt x.dir 0 = true ∧ bitAt x.dir 1 = true)
     ∧ symWhole x (slotPl s (cvCarrier x) 0 0) 0 0 [] = false
     ∧ (txReady s 1 x (slotPl s (cvCarrier x) 0 0) 0 0 0).2 = true)
    ∧ symWhole { st := 3, cfg := 0x4000, dir := 1 } { cfg := 0x200C0, place := 0 } 0 0 [List.replicate 500 (0, 0)] = true
    ∧ (let x : CvLink := { st := 3, dir := 2 }; bitAt x.dir 0 = false)
    ∧ (let x : CvLink := { st := 3, dir := 2, cfg := 0x3000 }
       let s := { oneLink 1 x with fh := { carrier := [(0, { now := { cfg := 0x20000, place := 1 } })] }
                                   tile := [(0, { owner := (List.range 256).map fun i => (i, 9) })] }
       (txReady s 1 x (slotPl s (cvCarrier x) 1 0) 1 0 0).2 = false)
    ∧ (let f := absFrame {} 1
       let s := oneLink 1 { lostSlot := some (f, 0, [3]) }
       let late := { s with etu := { s.etu with count := BitVec.ofInt 64 (gpsEpoch) } }
       let t := oneLink 1 { lostSlot := some (absFrame late 1023, 0, [3]) }
       let u := { t with etu := late.etu }
       (linkOf u 1).lostSlot = some (absFrame u 1023, 0, [3])
       ∧ slotStart u 0 1023 0 + symbolOfs 0 0 4 ≤ dieCount u (linkDie 1)
       ∧ ¬ slotStart u 0 1 0 + symbolOfs 0 0 4 ≤ dieCount u (linkDie 1)) := by decide

theorem wit_burstForms :
    (∃ s : State, atOp s 5 1 0x59 = none ∧ inOp s 5 1 = none)
    ∧ ((atOp (unitState 5 1 0x59 0 [0]) 5 1 0x59).any fun z => bits (xw z.2.2 1) 56 48 = 0) = true
    ∧ ((atOp (unitState 5 1 0x59 0 [2 ^ 48]) 5 1 0x59).any fun z => fails (readUse (unitState 5 1 0x59 0 [2 ^ 48]) (agentOf z.1) 0 16)) = true
    ∧ (let s := { unitState 5 1 0x59 0 [0x200100 + 2 ^ 48] with mem := mapped (bytesWith 16 [(0, 9)]) }
       ((atOp s 5 1 0x59).any fun z => okWith (readUse s (agentOf z.1) 0x200100 16) fun t d =>
          agcEntries d 1 = [(9, 0, 0)] && dieCount t (linkDie 1) ≤ 9) = true)
    ∧ (let s := { unitState 5 1 0x59 0 [0x200100 + 2 ^ 48] with mem := mapped (bytesWith 16 [(0, 9)]), etu := { count := 10 } };
       (9 : Int) < dieCount s (linkDie 1))
    ∧ (let b : CvLink := { st := 3, dir := 1, cfg := 0x100000, agc := 0x1000005 };
       burstRuns { b with burst := { frozen := true } } = true ∧ burstRuns { b with burst := { quiet := some 5 } } = true)
    ∧ (let b : CvLink := { st := 3, dir := 1, cfg := 0x100000, listening := true }
       let s (x : CvLink) (r : Nat) : State := { regs := [(0x1000C0, r)], cv := { link := [(0, x)], prof := [(0, { valid := true })] } }
       ((cvProfile (s b 0) 0).valid = true ∧ listens (s b 0) 0 = true ∧ (linkOf (s b 0) 0).burst.st = 0)
       ∧ (cvProfile (oneLink 0 b) 0).valid = false
       ∧ (linkOf (s { b with burst := { st := 2 } } 0) 0).burst.power + 16 * fld (s b 0) (linkReg 0 0xC0) 7 2 ≤ 0
       ∧ fld (s b 1) (linkReg 0 0xC0) 1 0 = 1 ∧ fld (s b 3) (linkReg 0 0xC0) 1 0 = 3 ∧ b.overlap ≤ 255)
    ∧ (∃ s : State, burstRuns (linkOf s 0) = false) ∧ (∃ s : State, served s = false)
    ∧ (let w : List W32 := [0x0A140106, 0x00030000, 0x200100, 0, 0]
       profOk w = true 
       ∧ fails (readUse { mem := { ctx := [(0, { wasEn := true })] } } { ctx := 0, cls := 7 } 0x200100 (8 * profNumSc w)) = true
       ∧ okWith (readUse { mem := mapped (List.replicate (8 * profNumSc w) 0) } { ctx := 0, cls := 7 } 0x200100 (8 * profNumSc w)) (fun _ _ => true) = true) := by
  refine ⟨⟨{}, by decide⟩, by decide, by decide, by decide, by decide, by decide, by decide, ⟨{}, by decide⟩, ⟨{}, by decide⟩, by decide⟩

/-! ### Single steps with the spec's own numbers -/

/-- Chapter 15, Table 9: at μ = 1 a slot lasts 983 040 Tc; symbols 2 and 7 of slot 4 begin 141 312 and 492 032 Tc after it. -/
theorem test_symbolTimes : slotTc 1 = 983040 ∧ symbolOfs 1 4 2 = 141312 ∧ symbolOfs 1 4 7 = 492032 := by decide
/-- Chapter 15: message B begins 0x1002_0014, 0x0100_FF80. -/
theorem test_ecpriHeader :
    (ecpri 2 0x100 0xFF (List.replicate 16 0)).take 8 = [0x10, 0x02, 0x00, 0x14, 0x01, 0x00, 0xFF, 0x80] := by decide
/-- Chapter 15: the completion of 0x0021 begins 0x0000_0021, 0x8001_0200. -/
theorem test_completionWords :
    (completionBytes 0x21 { detail := 0x102, status := 0 } false true 0 0).take 8 = leBytes 4 0x00000021 ++ leBytes 4 0x80010200 := by decide
/-- Chapter 8: 0x0001_0300_0000_0101 is HDR with LATE_EVT, RA and ABI 1, and word 1 names feature bits 6. -/
theorem test_header :
    parseHdr [0x0001030000000101, 6] = some { cls := 0, lateEvt := true, ra := true, abi := 1, reqFeat := 6 } := by decide
/-- Chapter 12: 0x0000_00CD_0001_1210 is TVC_RUN of tile 17 with two extra words and IMM 205. -/
theorem test_tvcRunHeader : parseOp 0 1 0x000000CD00011210 [0x400000, 0x40] =
    { idx := 1, opc := 0x10, unit := 17, evc := 0, imm := 205, extra := [0x400000, 0x40], bad := 0 } := by decide
/-- Chapter 16: 64 streams at 122.88 Msps fit 16 and 12 lanes, not 8. -/
theorem test_laneRates :
    [16, 12, 8].map (fun l => linkParamBad { cfg := BitVec.ofNat 32 (l + 63 * 32 + 2 * 4096) }) = [false, false, true] := by decide
/-- R57: CLK_FLOOR reads 0x06D6_0578. -/
theorem test_clkFloor : viewClk {} 0 = 0x06D60578 := rfl
/-- R69: MON_PAT_STATn reads 0x0000_FF00 after cold reset. -/
theorem test_patinaStat : viewMon {} 0x100 = 0xFF00 := by decide
/-- Chapter 2: ETU_STATUS reads 0x0000_030A and ETU_REF_STAT2 0x008B_001B at the example's end. -/
theorem test_etuViews :
    viewEtu { etu := { state := 2, everLocked := true, timeSel := 0, freqSel := 3 } } 0x0C = 0x30A
    ∧ viewEtu { etu := { refs := [(2, { st := 3, driftCnt := 3, dev := 139 })] } } 0x124 = 0x8B001B := by decide
/-- Chapter 5: GLB_STATUS reads 0x0000_09F4 after the seal and before the first lock. -/
theorem test_glbStatus : viewStatus { boot := { stage := 4, fwUp := true, mapDone := true, ready := true, sealed := true, floor := 1, floorCap := 2 } } = 0x9F4 := by decide
/-- Chapter 7: RING_STAT40 reads 0x0105_0011. -/
theorem test_ringStat :
    ringStat { ring := [(40, { st := 1, nextSeq := 0x105, slots := [{ k := 0, seq := 0x104, st := .running 3 }] })] } 40 = 0x01050011 := by decide
/-- R171: ((value - IMM) mod 2^32) < 2^31. -/
theorem test_waitTest :
    evcReached { ev := { evc := [(5, { val := 3 })] } } 5 3 = true ∧ evcReached { ev := { evc := [(5, { val := 2 })] } } 5 3 = false
    ∧ evcReached { ev := { evc := [(5, { val := 1 })] } } 5 0xFFFFFFFF = true := by decide
/-- R204: an occurrence counter saturates at 0xFFFF and the saturation sets OCC_SAT. -/
theorem test_occSaturates :
    (let s := setFlag { occ := [(7, 0xFFFE)] } 7
     tblGet 0 s.occ 7 = 0xFFFF ∧ flag s 896 = true) := by decide
/-- R94: THERM_CRIT and shedding at 115 °C. -/
theorem test_thermCrit :
    (match exec (.tjUpdate 115) { boot := { pwrok := true } } with
     | .next s => flag s 100 && s.power.shed = 1
     | _ => false) = true := by decide
/-- R94: the comparison is signed; -40 °C is 0xD8. -/
theorem test_thermSigned :
    (match exec (.tjUpdate 0xD8) { boot := { pwrok := true } } with
     | .next s => !flag s 100 && s.power.shed = 0
     | _ => false) = true := by decide

/-- Log entry 57: before context 0 is enabled an admin ring's own access goes to the bus address, an engine ring's
access in that context is CTX_DISABLED (R217, 0xDC); and so is the admin ring's once the host has disabled it again. -/
theorem test_adminBootstrap :
    (xlate State.reset (ringAgent 0 {}) 0x2040 false).2 = .ok ⟨0, 0x2040, 0, false⟩
    ∧ (xlate State.reset (ringAgent 8 {}) 0x2040 false).2 = .fail ⟨5, 0xDC, false⟩
    ∧ (xlate { mem := { ctx := [(0, { wasEn := true })] } } (ringAgent 0 {}) 0x2040 false).2 = .fail ⟨5, 0xDC, false⟩ := by
  decide
/-- R164: a list of the one word HDR ends before HDR's extra word; R166: another word 0 is BAD_HDR. -/
theorem test_headerAlone :
    hdrBad {} 0 0 [0x0001000000000101] = some 0xC4 ∧ hdrBad {} 0 0 [0x0001000000000001] = some 0xC0
    ∧ hdrBad {} 0 0 [] = some 0xC0 := by decide

end Sys2Proof.Tests
end

section
/-! PROOFS. What setting a flag does to the flags themselves (R203, R204, R207), and the row HOLD_EXPIRED (R33). -/
namespace Sys2Proof.Proofs
open Sys2Proof.Machine Sys2Proof.Laws

/-! ### Setting flags -/

/-- From `s` to `t` no flag clears, and only the flags of `ids` may be set. -/
def SetsAmong (ids : List Nat) (s t : State) : Prop := ∀ k, flag t k = flag s k ∨ (k ∈ ids ∧ flag t k = true)

theorem SetsAmong.refl (ids : List Nat) (s : State) : SetsAmong ids s s := fun _ => .inl rfl

theorem SetsAmong.trans {ids : List Nat} {s t u : State} (h : SetsAmong ids s t) (g : SetsAmong ids t u) :
    SetsAmong ids s u := by
  intro k
  rcases g k with g | g
  · rw [g]; exact h k
  · exact .inr g

theorem SetsAmong.flag_mono {ids : List Nat} {s t : State} (h : SetsAmong ids s t) {k : Nat} (hk : flag s k = true) :
    flag t k = true :=
  (h k).elim (fun e => e.trans hk) And.right

theorem SetsAmong.flag_eq {ids : List Nat} {s t : State} (h : SetsAmong ids s t) {k : Nat} (hk : k ∉ ids) :
    flag t k = flag s k :=
  (h k).resolve_right fun g => hk g.1

/-- Setting a flag lists it, whatever the table holds. -/
@[simp] theorem flag_bump_same (s : State) (id : Nat) : flag (bump s id) id = true := by
  simp [flag, bump, tblSet, tblGet, tblGet?_put_same]

theorem flag_bump_other (s : State) {id k : Nat} (hk : k ≠ id) : flag (bump s id) k = flag s k := by
  simp [flag, bump, tblSet, tblGet, tblGet?_put_other _ _ hk]

@[simp] theorem flag_collect (s : State) (v k : Nat) : flag (collect s v) k = flag s k := rfl

theorem bump_setsAmong {ids : List Nat} {id : Nat} (h : id ∈ ids) (s : State) : SetsAmong ids s (bump s id) := by
  intro k
  by_cases hk : k = id
  · exact .inr ⟨hk ▸ h, hk ▸ flag_bump_same s id⟩
  · exact .inl (flag_bump_other s hk)

theorem collect_setsAmong (ids : List Nat) (s : State) (v : Nat) : SetsAmong ids s (collect s v) :=
  fun k => .inl (flag_collect s v k)

theorem bumpMisrouted_setsAmong (s : State) : SetsAmong [idOccSat, idMisrouted] s (bumpMisrouted s) := by
  have hb : SetsAmong [idOccSat, idMisrouted] s (bump s idMisrouted) := bump_setsAmong (by simp) s
  unfold bumpMisrouted
  dsimp only
  split
  · exact hb.trans (collect_setsAmong _ _ _)
  · exact hb

theorem misrouted_setsAmong (s : State) : SetsAmong [idOccSat, idMisrouted] s (misrouted s) := by
  have hm := bumpMisrouted_setsAmong s
  have hb := hm.trans (bump_setsAmong (id := idOccSat) (by simp) (bumpMisrouted s))
  unfold misrouted
  dsimp only
  split
  · exact hm
  · split
    · exact hb
    · split
      · exact hb.trans (collect_setsAmong _ _ _)
      · exact hb.trans (bumpMisrouted_setsAmong _)

/-- The request that a set flag makes sets no flag but OCC_SAT and INT_MISROUTED (R207). -/
theorem requestRow_setsAmong (s : State) (id : Nat) : SetsAmong [idOccSat, idMisrouted] s (requestRow s id) := by
  unfold requestRow requestPf
  split
  · split
    · exact collect_setsAmong _ _ _
    · exact misrouted_setsAmong s
  · exact .refl _ s

/-- Once the flag's own bit is set, what is left of `setFlag` sets no flag but OCC_SAT and INT_MISROUTED. -/
theorem bump_setFlag_setsAmong (s : State) (id : Nat) : SetsAmong [idOccSat, idMisrouted] (bump s id) (setFlag s id) := by
  have hr := requestRow_setsAmong (bump s id) id
  unfold setFlag
  dsimp only
  split
  · exact (hr.trans (bump_setsAmong (by simp) _)).trans (requestRow_setsAmong _ _)
  · exact hr

/-- A flag that is set reads 1. -/
@[simp] theorem flag_setFlag_same (s : State) (id : Nat) : flag (setFlag s id) id = true :=
  (bump_setFlag_setsAmong s id).flag_mono (flag_bump_same s id)

/-- Every other flag but OCC_SAT and INT_MISROUTED keeps. -/
theorem flag_setFlag_other (s : State) {id k : Nat} (hk : k ≠ id) (hs : k ≠ idOccSat) (hm : k ≠ idMisrouted) :
    flag (setFlag s id) k = flag s k :=
  ((bump_setFlag_setsAmong s id).flag_eq (by simp [hs, hm])).trans (flag_bump_other s hk)

/-! ### HOLD_EXPIRED -/

/-- In HOLDOVER with a limit the row is the set of its flag. -/
theorem exec_holdExpired_of_limit {s : State} (h : s.etu.state = 3) (hl : reg s 0x4001C ≠ 0) :
    exec .holdExpired s = .next (setFlag s 36) := by
  change execHoldExpired s = _
  simp [execHoldExpired, done, h, hl]

/-- Without a limit, in any state of the ETU, the row does nothing. -/
theorem exec_holdExpired_of_no_limit {s : State} (hl : reg s 0x4001C = 0) : exec .holdExpired s = .next s := by
  change execHoldExpired s = _
  simp [execHoldExpired, done, hl]

/-- Settles O27: with a limit the row is `setFlag s 36`, whose shape and flags are known; without one it is the identity. -/
theorem holdExpiredOnlySetsItsFlag : Obligations.HoldExpiredOnlySetsItsFlag := by
  unfold Obligations.HoldExpiredOnlySetsItsFlag
  intro s h
  refine ⟨fun hl => ?_, exec_holdExpired_of_no_limit⟩
  obtain ⟨f, o, e, l, shape⟩ := setFlag_shape s 36
  have hetu : (setFlag s 36).etu = s.etu := by rw [shape]
  have hfh : (setFlag s 36).fh = s.fh := by rw [shape]
  exact ⟨setFlag s 36, exec_holdExpired_of_limit h hl, flag_setFlag_same s 36, hetu, hfh,
    fun _ => flag_setFlag_other s, f, o, e, l, shape⟩

end Sys2Proof.Proofs
end

section
/-! PROOFS. What one step keeps of the state, whatever the command: the rows' own laws collected along the dispatch. -/
namespace Sys2Proof.Proofs
open Sys2Proof.Machine

/-! ### The rows -/

/-- A row that writes no quiet part keeps them all, and one that stores nothing keeps every byte of the memories. -/
theorem exec_keeps {c : Instr} (hq : writesQuiet c = false) (s : State) : OutKeeps (!mayStore c) s (exec c s) := by
  -- First the row whose name is a keyword of Lean, which no case label can spell.
  obtain rfl | hne := eq_or_ne c .resume
  · exact execResume_keeps (.refl s)
  cases c with
  | pwrokAssert => exact execPwrokAssert_keeps (.refl s)
  | perstDeassert => exact execPerstDeassert_keeps (.refl s)
  | bootImageCheck => exact execBootImageCheck_keeps (.refl s)
  | fwUp => exact execFwUp_keeps (.refl s)
  | mapDone => exact execMapDone_keeps _ _ _ (.refl s)
  | configRequest => exact execConfigRequest_keeps _ _ _ (.refl s)
  | linkRetrain => exact execLinkRetrain_keeps _ _ (.refl s)
  | vfEnableChange => exact execVfEnableChange_keeps _ _ (.refl s)
  | vfFlr => exact execVfFlr_keeps _ (.refl s)
  | lockstepMismatch => exact execLockstepMismatch_keeps (.refl s)
  | fwWatchdogExpire => exact execFwWatchdogExpire_keeps (.refl s)
  | ezdanResume => exact execEzdanResume_keeps (.refl s)
  | occClr => exact execOccClr_keeps _ (.refl s)
  | occClrRow => exact execOccClrRow_keeps _ (.refl s)
  | hostevAdd => exact execHostevAdd_keeps _ (.refl s)
  | hostevSet => exact execHostevSet_keeps _ _ (.refl s)
  | timeReset => exact execTimeReset_keeps (.refl s)
  | forceHoldover => exact execForceHoldover_keeps (.refl s)
  | keepRef => exact execKeepRef_keeps (.refl s)
  | clearSuspect => exact execClearSuspect_keeps _ (.refl s)
  | releaseHoldover => exact execReleaseHoldover_keeps (.refl s)
  | ptpMeas => exact execPtpMeas_keeps _ (.refl s)
  | todSec => exact execTodSec_keeps _ (.refl s)
  | ppsPulse => exact execPpsPulse_keeps (.refl s)
  | refQualified => exact execRefQualified_keeps _ (.refl s)
  | refCriterionLost => exact execRefCriterionLost_keeps _ (.refl s)
  | enterLocked => exact execEnterLocked_keeps (.refl s)
  | pullInDone => exact execPullInDone_keeps (.refl s)
  | holdExpired => exact execHoldExpired_keeps (.refl s)
  | driftWindow => exact execDriftWindow_keeps _ (.refl s)
  | dieUnsynced => exact execDieUnsynced_keeps _ (.refl s)
  | dieRealign => exact execDieRealign_keeps _ (.refl s)
  | trigFire => exact execTrigFire_keeps _ (.refl s)
  | captureEdge => exact execCaptureEdge_keeps _ _ (.refl s)
  | excursion => exact execExcursion_keeps _ (.refl s)
  | patinaCritTick => exact execPatinaCritTick_keeps _ (.refl s)
  | marginFail => exact execMarginFail_keeps _ (.refl s)
  | patinaRecoveryTick => exact execPatinaRecoveryTick_keeps _ (.refl s)
  | capRampTick => exact execCapRampTick_keeps _ (.refl s)
  | stepAdmit => exact execStepAdmit_keeps (t := s) (.refl s)
  | setpointStep => exact execSetpointStep_keeps _ (.refl s)
  | pmbusStatusPoll => exact execPmbusStatusPoll_keeps _ (.refl s)
  | pmbusTelemetryPoll => exact execPmbusTelemetryPoll_keeps _ (.refl s)
  | vrAlert => exact execVrAlert_keeps _ (.refl s)
  | tjUpdate => exact execTjUpdate_keeps _ (.refl s)
  | thermtrip => exact execThermtrip_keeps (.refl s)
  | pfwNLow => exact execPfwNLow_keeps (.refl s)
  | shed => exact execShed_keeps (.refl s)
  | shedRampStep => exact execShedRampStep_keeps (.refl s)
  | outputEnable => exact execOutputEnable_keeps _ (.refl s)
  | outputDisable => exact execOutputDisable_keeps _ (.refl s)
  | probeBurst => exact execProbeBurst_keeps _ (.refl s)
  | submit fn page producer gen => exact execSubmit_keeps fn page producer gen (.refl s)
  | cancel => exact execCancel_keeps _ _ _ (.refl s)
  | pollRead => exact execPollRead_keeps _ (.refl s)
  | descriptorFetch => exact execDescriptorFetch_keeps _ (.refl s)
  | grant => exact execGrant_keeps (.refl s)
  | adminTake => exact execAdminTake_keeps (.refl s)
  | ringSetup => exact execRingSetup_keeps (.refl s)
  | ringTeardown => exact execRingTeardown_keeps (.refl s)
  | ringReset => exact execRingReset_keeps (.refl s)
  | evcAssign => exact execEvcAssign_keeps (.refl s)
  | xltCtxSet => exact execXltCtxSet_keeps (.refl s)
  | xltInvalidate => exact execXltInvalidate_keeps (.refl s)
  | vfLimits => exact execVfLimits_keeps (.refl s)
  | peerCfg => exact execPeerCfg_keeps (.refl s)
  | ringAdminCtrl => exact execRingAdminCtrl_keeps _ (.refl s)
  | ringAdminReset => exact execRingAdminReset_keeps _ (.refl s)
  | nop => exact execNop_keeps _ _ (.refl s)
  | wait => exact execWait_keeps _ _ (.refl s)
  | waitPass => exact execWaitPass_keeps _ _ (.refl s)
  | signal => exact execSignal_keeps _ _ (.refl s)
  | signalLocal => exact execSignalLocal_keeps _ _ (.refl s)
  | tvcRun => exact execTvcRun_keeps _ (.refl s)
  | tmuRun => exact execTmuRun_keeps _ (.refl s)
  | mqBind => exact execMqBind_keeps _ (.refl s)
  | raBind => exact execRaBind_keeps _ (.refl s)
  | ldpcDec => exact execLdpcDec_keeps _ (.refl s)
  | harqEntryTake => exact execHarqEntryTake_keeps _ (.refl s)
  | ldpcEnc => exact execLdpcEnc_keeps _ (.refl s)
  | polarDec => exact execPolarDec_keeps _ (.refl s)
  | polarEnc => exact execPolarEnc_keeps _ (.refl s)
  | harqFree => exact execHarqFree_keeps _ (.refl s)
  | paMatmul => exact execPaMatmul_keeps _ (.refl s)
  | paConv => exact execPaConv_keeps _ (.refl s)
  | paStore => exact execPaStore_keeps _ (.refl s)
  | paReduceF => exact execPaReduceF_keeps _ (.refl s)
  | paAccumX => exact execPaAccumX_keeps _ (.refl s)
  | paCollect => exact execPaCollect_keeps _ (.refl s)
  | holdExpire => exact execHoldExpire_keeps _ (.refl s)
  | preemptHandover => exact execPreemptHandover_keeps _ (.refl s)
  | preemptResume => exact execPreemptResume_keeps _ (.refl s)
  | teCycle => exact execTeCycle_keeps _ (.refl s)
  | planningCycleStart => exact execPlanningCycleStart_keeps _ _ (.refl s)
  | searchBound => exact execSearchBound_keeps _ _ (.refl s)
  | fxSections => exact execFxSections_keeps _ (.refl s)
  | fxUplane => exact execFxUplane_keeps _ (.refl s)
  | windowOpen => exact execWindowOpen_keeps _ (.refl s)
  | cvStart => exact execCvStart_keeps _ (.refl s)
  | cvAgc => exact execCvAgc_keeps _ (.refl s)
  | agcEntry => exact execAgcEntry_keeps _ (.refl s)
  | mvCopy => exact execMvCopy_keeps _ (.refl s)
  | mvFill => exact execMvFill_keeps _ (.refl s)
  | segmentStop => exact execSegmentStop_keeps _ _ (.refl s)
  | lateEvent => exact execLateEvent_keeps _ (.refl s)
  | descriptorEnd => exact execDescriptorEnd_keeps _ (.refl s)
  | completionWrite => exact execCompletionWrite_keeps _ (.refl s)
  | msixMessage => exact execMsixMessage_keeps _ (.refl s)
  | crossbarArrival => exact execCrossbarArrival_keeps _ (.refl s)
  | evcParity => exact execEvcParity_keeps _ (.refl s)
  | hedgerowUe => exact execHedgerowUe_keeps _ (.refl s)
  | d2dRetry => exact execD2dRetry_keeps _ _ (.refl s)
  | d2dDown => exact execD2dDown_keeps _ (.refl s)
  | waitStuck => exact execWaitStuck_keeps _ _ (.refl s)
  | errRetireCmd => exact execErrRetireCmd_keeps _ _ (.refl s)
  | scrub => exact execScrub_keeps _ _ (.refl s)
  | layInvHandle => exact execLayInvHandle_keeps _ _ (.refl s)
  | layInvAll => exact execLayInvAll_keeps _ (.refl s)
  | layInvDone => exact execLayInvDone_keeps (.refl s)
  | peerInbound => exact execPeerInbound_keeps _ _ _ _ (.refl s)
  | publish => exact execPublish_keeps _ _ _ _ (.refl s)
  | withdraw => exact execWithdraw_keeps _ (.refl s)
  | publishDone => exact execPublishDone_keeps (.refl s)
  | portUp => exact execPortUp_keeps _ (.refl s)
  | portDown => exact execPortDown_keeps _ (.refl s)
  | restart => exact execRestart_keeps _ (.refl s)
  | frameReceive => exact execFrameReceive_keeps _ _ _ _ (.refl s)
  | rxWindowClose => exact execRxWindowClose_keeps _ _ _ _ (.refl s)
  | admissionOpen => exact execAdmissionOpen_keeps _ (.refl s)
  | placementEffect => exact execPlacementEffect_keeps _ (.refl s)
  | egressGrant => exact execEgressGrant_keeps _ (.refl s)
  | cpCancelSection => exact execCpCancelSection_keeps _ _ _ _ (.refl s)
  | cpCancelAll => exact execCpCancelAll_keeps _ _ _ (.refl s)
  | tqTransmit => exact execTqTransmit_keeps (.refl s)
  | linkSync => exact execLinkSync_keeps _ (.refl s)
  | sysrefEdge => exact execSysrefEdge_keeps _ (.refl s)
  | laneLock => exact execLaneLock_keeps _ (.refl s)
  | converterStart => exact execConverterStart_keeps _ (.refl s)
  | linkLoss => exact execLinkLoss_keeps _ (.refl s)
  | nrSymbol => exact execNrSymbol_keeps _ _ _ _ _ (.refl s)
  | txSymbol => exact execTxSymbol_keeps _ _ _ _ (.refl s)
  | stsWindow => exact execStsWindow_keeps _ _ (.refl s)
  | startDetection => exact execStartDetection_keeps _ _ _ (.refl s)
  | burstDetected => exact execBurstDetected_keeps _ _ _ (.refl s)
  | burstEnd => exact execBurstEnd_keeps _ _ _ _ (.refl s)
  | listenExpire => exact execListenExpire_keeps _ (.refl s)
  | cvProfLoad => exact execCvProfLoad_keeps _ (.refl s)
  | dmaDone => exact execDmaDone_keeps _ _ (.refl s)
  | tvcRunaway => exact execTvcRunaway_keeps _ _ (.refl s)
  | tvcNop => exact execTvcNop_keeps _ _ _ (.refl s)
  | tvcLi => exact execTvcLi_keeps _ _ _ _ (.refl s)
  | tvcLih => exact execTvcLih_keeps _ _ _ _ (.refl s)
  | tvcAdd => exact execTvcAdd_keeps _ _ _ _ _ (.refl s)
  | tvcSub => exact execTvcSub_keeps _ _ _ _ _ (.refl s)
  | tvcAddi => exact execTvcAddi_keeps _ _ _ _ _ (.refl s)
  | tvcAnd => exact execTvcAnd_keeps _ _ _ _ _ (.refl s)
  | tvcOr => exact execTvcOr_keeps _ _ _ _ _ (.refl s)
  | tvcShl => exact execTvcShl_keeps _ _ _ _ _ (.refl s)
  | tvcShr => exact execTvcShr_keeps _ _ _ _ _ (.refl s)
  | tvcLoop => exact execTvcLoop_keeps _ _ _ _ _ (.refl s)
  | tvcBnz => exact execTvcBnz_keeps _ _ _ _ (.refl s)
  | tvcMovp => exact execTvcMovp_keeps _ _ _ _ (.refl s)
  | tvcSetrm => exact execTvcSetrm_keeps _ _ _ (.refl s)
  | tvcRdcyc => exact execTvcRdcyc_keeps _ _ _ (.refl s)
  | tvcDma => exact execTvcDma_keeps _ _ _ (.refl s)
  | tvcDmaw => exact execTvcDmaw_keeps _ _ (.refl s)
  | tvcEnd => exact execTvcEnd_keeps _ _ (.refl s)
  | tvcVadd => exact execTvcVadd_keeps _ _ _ (.refl s)
  | tvcVsub => exact execTvcVsub_keeps _ _ _ (.refl s)
  | tvcVcmul => exact execTvcVcmul_keeps _ _ _ (.refl s)
  | tvcVmag => exact execTvcVmag_keeps _ _ _ (.refl s)
  | tvcVsta => exact execTvcVsta_keeps _ _ _ (.refl s)
  | tvcVrcp => exact execTvcVrcp_keeps _ _ _ (.refl s)
  | tvcVmov => exact execTvcVmov_keeps _ _ _ (.refl s)
  | tvcVbcst => exact execTvcVbcst_keeps _ _ _ (.refl s)
  | tvcVmax => exact execTvcVmax_keeps _ _ _ (.refl s)
  | tvcVmin => exact execTvcVmin_keeps _ _ _ (.refl s)
  | tvcVclip => exact execTvcVclip_keeps _ _ _ (.refl s)
  | tvcVpack8 => exact execTvcVpack8_keeps _ _ _ (.refl s)
  | tvcCsel => exact execTvcCsel_keeps _ _ _ (.refl s)
  | tvcLd => exact execTvcLd_keeps _ _ _ (.refl s)
  | tvcSt => exact execTvcSt_keeps _ _ _ (.refl s)
  | tvcLdb => exact execTvcLdb_keeps _ _ _ (.refl s)
  | refCriterionMet => exact execRefCriterionMet_keeps _ (.refl s)
  | pfwNRelease => exact execPfwNRelease_keeps (.refl s)
  | completionTimeout => exact execCompletionTimeout_keeps _ (.refl s)
  | airTimeEnd => exact execAirTimeEnd_keeps _ _ _ _ (.refl s)
  | msixUnmask => exact execMsixUnmask_keeps _ _ (.refl s)
  | _ => contradiction

/-- The rows that write a quiet part: only SVN_COMMIT touches a fused fact, and only SEAL or a register write seals. -/
theorem exec_seals_of_writesQuiet {c : Instr} (hq : writesQuiet c = true) {s t : State} (e : exec c s = .next t) :
    SealKeeps (commitsSvn c) s t := by
  -- First the row whose name is a keyword of Lean.
  obtain rfl | hne := eq_or_ne c .seal
  · exact execSeal_seals s t e
  cases c with
  | svnCommit => exact execSvnCommit_seals trivial s t e
  | registerWrite w size val =>
    refine (execRegisterWrite_seals s w size val t e).mono ?_
    rintro ⟨rfl, hcode⟩
    exact ⟨rfl, hcode⟩
  | coldReset => exact ((execColdReset_retains (.refl s)).out t e).toSeal
  | perstAssert => exact ((execPerstAssert_retains (.refl s)).out t e).toSeal
  | dlDown => exact ((execDlDown_retains (.refl s)).out t e).toSeal
  | pfFlr => exact ((execPfFlr_retains (.refl s)).out t e).toSeal
  | tapReset => exact ((execTapReset_retains (.refl s)).out t e).toSeal
  | ready => exact ((execReady_retains (.refl s)).out t e).toSeal
  | logRead => exact ((execLogRead_retains (.refl s)).out t e).toSeal
  | flashWrite => exact ((execFlashWrite_retains (.refl s)).out t e).toSeal
  | flashActivate => exact ((execFlashActivate_retains (.refl s)).out t e).toSeal
  | warmReset => exact ((execWarmReset_retains (.refl s)).out t e).toSeal
  | mboxUnknown => exact ((execMboxUnknown_retains _ (.refl s)).out t e).toSeal
  | mboxDone => exact ((execMboxDone_retains (.refl s)).out t e).toSeal
  | smbBootStage => exact ((execSmbBootStage_retains (.refl s)).out t e).toSeal
  | smbTjMax => exact ((execSmbTjMax_retains (.refl s)).out t e).toSeal
  | smbShedState => exact ((execSmbShedState_retains (.refl s)).out t e).toSeal
  | smbRetiredCount => exact ((execSmbRetiredCount_retains (.refl s)).out t e).toSeal
  | smbErrorCodes => exact ((execSmbErrorCodes_retains (.refl s)).out t e).toSeal
  | etuTimeLatch => exact ((execEtuTimeLatch_retains (.refl s)).out t e).toSeal
  | xcycLatch => exact ((execXcycLatch_retains _ (.refl s)).out t e).toSeal
  | srefLatch => exact ((execSrefLatch_retains _ (.refl s)).out t e).toSeal
  | capRead => exact ((execCapRead_retains _ (.refl s)).out t e).toSeal
  | minClr => exact ((execMinClr_retains _ (.refl s)).out t e).toSeal
  | refCfgWrite => exact ((execRefCfgWrite_retains _ _ (.refl s)).out t e).toSeal
  | trigArm => exact ((execTrigArm_retains _ _ (.refl s)).out t e).toSeal
  | trigDisarm => exact ((execTrigDisarm_retains _ _ (.refl s)).out t e).toSeal
  | patinaSample => exact ((execPatinaSample_retains _ _ (.refl s)).out t e).toSeal
  | jdWindow => exact ((execJdWindow_retains _ _ _ _ (.refl s)).out t e).toSeal
  | jdLoss => exact ((execJdLoss_retains _ (.refl s)).out t e).toSeal
  | logFlashCopy => exact ((execLogFlashCopy_retains _ (.refl s)).out t e).toSeal
  | tckEdge => exact ((execTckEdge_retains _ _ (.refl s)).out t e).toSeal
  | _ => contradiction

/-- What every row keeps, over all commands and states. -/
theorem exec_seals {c : Instr} {s t : State} (e : exec c s = .next t) : SealKeeps (commitsSvn c) s t := by
  cases hq : writesQuiet c with
  | false => exact ((exec_keeps hq s).out t e).retains.toSeal
  | true => exact exec_seals_of_writesQuiet hq e

/-- The command is SVN_COMMIT as its own row or as code 5 to GLB_MBOX_CMD (R103, R105). -/
theorem commitsSvn_iff (c : Instr) : commitsSvn c ↔
    c = .svnCommit ∨ ∃ size val, c = .registerWrite (.setup 0x40) size val ∧ bits val.toNat 7 0 = 5 := by
  unfold commitsSvn
  split
  · simp
  · simp
  next hsvn hwrite =>
    refine ⟨False.elim, ?_⟩
    rintro (rfl | ⟨size, val, rfl, -⟩)
    · exact hsvn rfl
    · exact hwrite _ _ _ rfl

/-! ### The step -/

/-- On an empty queue a step is one edge of TCLK (log entry 2). -/
theorem step_of_nil {s : State} (hp : s.pending = []) : step s = .next (tick s) := by
  unfold step; rw [hp]

/-- Otherwise a step runs the front command on the queue's rest. -/
theorem step_of_cons {s : State} {c : Instr} {rest : List Instr} (hp : s.pending = c :: rest) :
    step s = exec c { s with pending := rest } := by
  unfold step; rw [hp]

/-- All that one step can be. -/
theorem step_cases {s t : State} (h : step s = .next t) :
    (s.pending = [] ∧ t = tick s)
    ∨ ∃ c rest, s.pending = c :: rest ∧ exec c { s with pending := rest } = .next t := by
  cases hp : s.pending with
  | nil =>
    rw [step_of_nil hp] at h
    exact .inl ⟨rfl, (Host.Outcome.next.inj h).symm⟩
  | cons c rest => exact .inr ⟨c, rest, rfl, step_of_cons hp ▸ h⟩

/-! ### The fused facts -/

/-- The fused facts besides the security version stay. -/
theorem fused_eq_of_sealKeeps {p : Prop} {s t : State} (h : SealKeeps p s t) :
    t.fuse.assy = s.fuse.assy ∧ t.fuse.vset = s.fuse.vset ∧ t.fuse.rootHash = s.fuse.rootHash
    ∧ t.fuse.lifecycle = s.fuse.lifecycle := by
  rw [h.fuse]; exact ⟨rfl, rfl, rfl, rfl⟩

/-- Where the fused security version moves, it rises to that of the running image, and `p` allows it (R103). -/
theorem svn_rises_of_ne {p : Prop} {s t : State} (h : SealKeeps p s t) (hne : t.fuse.svn ≠ s.fuse.svn) :
    s.fuse.svn < t.fuse.svn ∧ t.fuse.svn = s.boot.runSvn ∧ p := by
  obtain ⟨hp, hmax⟩ := h.svn.resolve_left hne
  have hlt : s.fuse.svn < s.boot.runSvn := by
    by_contra hle
    exact hne (hmax.trans (max_eq_left (Nat.le_of_not_lt hle)))
  have heq : t.fuse.svn = s.boot.runSvn := hmax.trans (max_eq_right hlt.le)
  exact ⟨heq ▸ hlt, heq, hp⟩

/-- Settles O4: an edge of TCLK keeps the fuses whole; a row keeps all but the security version, and that but for
SVN_COMMIT. -/
theorem stepKeepsFusedFacts : Obligations.StepKeepsFusedFacts := by
  unfold Obligations.StepKeepsFusedFacts
  intro s t h
  rcases step_cases h with ⟨-, rfl⟩ | ⟨c, rest, hp, he⟩
  · have hf : (tick s).fuse = s.fuse := (tick_retains (.refl s)).fuse
    simp [hf]
  · have hk := exec_seals he
    obtain ⟨hassy, hvset, hroot, hlife⟩ := fused_eq_of_sealKeeps hk
    refine ⟨hassy, hvset, hroot, hlife, fun hne => ?_⟩
    obtain ⟨hlt, heq, hc⟩ := svn_rises_of_ne hk hne
    exact ⟨hlt, heq, c, rest, hp, (commitsSvn_iff c).1 hc⟩

end Sys2Proof.Proofs
end

section
/-! PROOFS. Doorbell records (R108, R126, R143, R144, R155, R156): what a page stages and commits, which ring a record
reaches, and what it does there. -/
namespace Sys2Proof.Proofs
open Sys2Proof.Machine

/-! ### Staging a record (R143) -/

/-- Of two writes to one index the second stands. -/
@[simp] theorem tblPut_put_same {α : Type} (t : Tbl α) (i : Nat) (a b : α) : tblPut (tblPut t i a) i b = tblPut t i b := by
  induction t with
  | nil => simp [tblPut]
  | cons e t ih =>
    obtain ⟨j, c⟩ := e
    rcases Nat.lt_trichotomy i j with h | rfl | h
    · simp [tblPut, h]
    · simp [tblPut]
    · simp [tblPut, Nat.lt_asymm h, Nat.ne_of_gt h, ih]

/-- The page's staged words are those staged last. -/
@[simp] theorem stageWords_stageWords (s : State) (fn page v0 v1 v2 w0 w1 w2 : Nat) :
    stageWords (stageWords s fn page v0 v1 v2) fn page w0 w1 w2 = stageWords s fn page w0 w1 w2 := by
  simp [stageWords]

@[simp] theorem stagedWord_stageWords_zero (s : State) (fn page w0 w1 w2 : Nat) :
    stagedWord (stageWords s fn page w0 w1 w2) fn page 0 = w0 % 2 ^ 32 := by
  simp [stagedWord, stageWords, tblGet, tblGet?_put_same]

@[simp] theorem stagedWord_stageWords_one (s : State) (fn page w0 w1 w2 : Nat) :
    stagedWord (stageWords s fn page w0 w1 w2) fn page 1 = w1 % 2 ^ 32 := by
  simp [stagedWord, stageWords, tblGet, tblGet?_put_same]

@[simp] theorem stagedWord_stageWords_two (s : State) (fn page w0 w1 w2 : Nat) :
    stagedWord (stageWords s fn page w0 w1 w2) fn page 2 = w2 % 2 ^ 32 := by
  simp [stagedWord, stageWords, tblGet, tblGet?_put_same]

theorem pageWrite_zero (s : State) (fn page v : Nat) :
    pageWrite s fn (4096 * page + 0) v = stageWords s fn page v (stagedWord s fn page 1) (stagedWord s fn page 2) := by
  simp [pageWrite]

theorem pageWrite_four (s : State) (fn page v : Nat) :
    pageWrite s fn (4096 * page + 4) v = stageWords s fn page (stagedWord s fn page 0) v (stagedWord s fn page 2) := by
  have hpage : (4096 * page + 4) / 4096 = page := by omega
  have hoff : (4096 * page + 4) % 4096 = 4 := by omega
  simp [pageWrite, hpage, hoff]

theorem pageWrite_eight (s : State) (fn page v : Nat) :
    pageWrite s fn (4096 * page + 8) v = stageWords s fn page (stagedWord s fn page 0) (stagedWord s fn page 1) v := by
  have hpage : (4096 * page + 8) / 4096 = page := by omega
  have hoff : (4096 * page + 8) % 4096 = 8 := by omega
  simp [pageWrite, hpage, hoff]

/-- Word 0xC commits what the page has staged as a SUBMIT. -/
theorem pageWrite_commit_submit {s : State} {fn page : Nat} (h : bits (stagedWord s fn page 1) 3 0 = 1) (v : Nat) :
    pageWrite s fn (4096 * page + 12) v = doorbell s fn page fun r => applySubmit s r (stagedWord s fn page 0) := by
  have hpage : (4096 * page + 12) / 4096 = page := by omega
  have hoff : (4096 * page + 12) % 4096 = 12 := by omega
  simp [pageWrite, hpage, hoff, h]

/-- Word 0xC commits what the page has staged as a CANCEL. -/
theorem pageWrite_commit_cancel {s : State} {fn page : Nat} (h : bits (stagedWord s fn page 1) 3 0 = 2) (v : Nat) :
    pageWrite s fn (4096 * page + 12) v =
      doorbell s fn page fun r => applyCancel s r (bits (stagedWord s fn page 1) 31 16) := by
  have hpage : (4096 * page + 12) / 4096 = page := by omega
  have hoff : (4096 * page + 12) % 4096 = 12 := by omega
  simp [pageWrite, hpage, hoff, h]

/-- The first three words of a record leave it staged, whatever the page had staged before. -/
theorem pageWrite_stages (s : State) (fn page w0 w1 w2 : Nat) :
    pageWrite (pageWrite (pageWrite s fn (4096 * page + 0) w0) fn (4096 * page + 4) w1) fn (4096 * page + 8) w2 =
      stageWords s fn page w0 w1 w2 := by
  rw [pageWrite_zero, pageWrite_four, pageWrite_eight]
  simp only [stageWords_stageWords, stagedWord_stageWords_zero, stagedWord_stageWords_one]
  have hmod (w : Nat) : BitVec.ofNat 32 (w % 2 ^ 32) = BitVec.ofNat 32 w := BitVec.eq_of_toNat_eq (by simp)
  simp only [stageWords, hmod]

/-- A SUBMIT stages its record and commits it. -/
theorem exec_submit (s : State) (fn page : Nat) (p gen : W32) :
    exec (.submit fn page p gen) s = .next (doorbell (stageWords s fn page p.toNat 1 0) fn page fun r =>
      applySubmit (stageWords s fn page p.toNat 1 0) r p.toNat) := rfl

/-- A CANCEL stages its record and commits it. -/
theorem exec_cancel (s : State) (fn page target : Nat) :
    exec (.cancel fn page target) s = .next (doorbell (stageWords s fn page 0 (2 + target % 65536 * 65536) 0) fn page fun r =>
      applyCancel (stageWords s fn page 0 (2 + target % 65536 * 65536) 0) r (target % 65536)) := rfl

/-- A SUBMIT is what its four words do in turn. -/
theorem exec_submit_eq_pageWrite (s : State) (fn page : Nat) (p gen : W32) :
    exec (.submit fn page p gen) s = .next (pageWrite (pageWrite (pageWrite (pageWrite s fn (4096 * page + 0) p.toNat)
      fn (4096 * page + 4) 1) fn (4096 * page + 8) 0) fn (4096 * page + 12) gen.toNat) := by
  have hp : p.toNat % 2 ^ 32 = p.toNat := Nat.mod_eq_of_lt p.isLt
  rw [pageWrite_stages, pageWrite_commit_submit (by rw [stagedWord_stageWords_one]; rfl), exec_submit,
    stagedWord_stageWords_zero, hp]

/-- A CANCEL is what its four words do in turn; the last one's value does not matter. -/
theorem exec_cancel_eq_pageWrite (s : State) (fn page target v : Nat) :
    exec (.cancel fn page target) s = .next (pageWrite (pageWrite (pageWrite (pageWrite s fn (4096 * page + 0) 0)
      fn (4096 * page + 4) (2 + target % 65536 * 65536)) fn (4096 * page + 8) 0) fn (4096 * page + 12) v) := by
  have hop : bits ((2 + target % 65536 * 65536) % 2 ^ 32) 3 0 = 2 := by unfold bits; omega
  have hseq : bits ((2 + target % 65536 * 65536) % 2 ^ 32) 31 16 = target % 65536 := by unfold bits; omega
  rw [pageWrite_stages, pageWrite_commit_cancel (by rw [stagedWord_stageWords_one]; exact hop), exec_cancel,
    stagedWord_stageWords_one, hseq]

/-! ### The ring that a record reaches (R108, R126) -/

theorem doorbell_of_no_function {s : State} {fn : Nat} (he : fnExists s fn = false) (page : Nat) (f : Nat → State) :
    doorbell s fn page f = s := by
  simp [doorbell, he]

theorem doorbell_of_unsealed {s : State} {fn : Nat} (he : fnExists s fn = true) (hs : s.boot.sealed = false)
    (page : Nat) (f : Nat → State) :
    doorbell s fn page f = { s with err := { s.err with presealDb := satInc 0xFFFFFFFF s.err.presealDb } } := by
  simp [doorbell, he, hs]

theorem doorbell_of_stray {s : State} {fn page : Nat} (he : fnExists s fn = true) (hs : s.boot.sealed = true)
    (hp : pageRing s fn page = none) (f : Nat → State) :
    doorbell s fn page f = { s with err := { s.err with strayDb := satInc 0xFFFFFFFF s.err.strayDb } } := by
  simp [doorbell, he, hs, hp]

theorem doorbell_of_ring {s : State} {fn page r : Nat} (he : fnExists s fn = true) (hs : s.boot.sealed = true)
    (hp : pageRing s fn page = some r) (f : Nat → State) : doorbell s fn page f = f r := by
  simp [doorbell, he, hs, hp]

/-- The physical function's page is stray beyond the rings, of a ring not configured and of another function's ring. -/
theorem pageRing_pf_eq_none {s : State} {page : Nat} (h : 1024 ≤ page ∨ (ringOf s page).st = 0 ∨ (ringOf s page).fn ≠ 0) :
    pageRing s 0 page = none := by
  have hlt : page < 1024 → (ringOf s page).st ≠ 0 → (ringOf s page).fn ≠ 0 := by
    intro hlt hst
    exact (h.resolve_left (Nat.not_le_of_lt hlt)).resolve_left hst
  simpa [pageRing] using hlt

/-- A virtual function's page is stray where none of its configured rings has the slot. -/
theorem pageRing_vf_eq_none {s : State} {fn page : Nat} (hfn : fn ≠ 0)
    (h : ∀ r g, (r, g) ∈ s.ring → g.vfSlot = page → g.st = 0 ∨ g.fn ≠ fn) : pageRing s fn page = none := by
  have hnone : ∀ r g, (r, g) ∈ s.ring → g.st ≠ 0 → g.fn = fn → g.vfSlot ≠ page := by
    intro r g hm hst hg hpage
    exact ((h r g hm hpage).resolve_left hst) hg
  simpa [pageRing, hfn] using hnone

section
variable {s : State} {r : Nat} {g : Ring} (hg : ringOf s r = g)
include hg

/-! ### SUBMIT on a ring (R144) -/

/-- The distance of PRODUCER decides: none, within reach, or out of it. -/
theorem applySubmit_of_distance {p d : Nat} (hp : p = (g.producer + d) % 2 ^ 32) (hd : d < 2 ^ 32) :
    applySubmit s r p =
      if d = 0 then s
      else if d < 2 ^ 31 ∧ g.producer + d ≤ g.completed + 2 ^ g.log2 then setRing s r { g with producer := g.producer + d }
      else setRing s r { g with badDb := satInc 0xFF g.badDb } := by
  have hdist : (p + 2 ^ 32 - g.producer % 2 ^ 32) % 2 ^ 32 = d := by omega
  have hreach : g.producer + d - g.completed ≤ depth g ↔ g.producer + d ≤ g.completed + 2 ^ g.log2 := by
    rw [depth, Nat.sub_le_iff_le_add']
  simp only [applySubmit, hg, hdist, hreach, Bool.and_eq_true, decide_eq_true_eq]

theorem applySubmit_same {p d : Nat} (hp : p = (g.producer + d) % 2 ^ 32) (hd : d = 0) : applySubmit s r p = s := by
  rw [applySubmit_of_distance hg hp (by omega), if_pos hd]

theorem applySubmit_in_reach {p d : Nat} (hp : p = (g.producer + d) % 2 ^ 32) (hpos : 0 < d) (hd : d < 2 ^ 31)
    (hfit : g.producer + d ≤ g.completed + 2 ^ g.log2) :
    applySubmit s r p = setRing s r { g with producer := g.producer + d } := by
  rw [applySubmit_of_distance hg hp (by omega), if_neg (Nat.ne_of_gt hpos), if_pos ⟨hd, hfit⟩]

theorem applySubmit_out_of_reach {p d : Nat} (hp : p = (g.producer + d) % 2 ^ 32) (hd : d < 2 ^ 32)
    (hout : 2 ^ 31 ≤ d ∨ 0 < d ∧ g.completed + 2 ^ g.log2 < g.producer + d) :
    applySubmit s r p = setRing s r { g with badDb := satInc 0xFF g.badDb } := by
  rw [applySubmit_of_distance hg hp hd, if_neg (by omega), if_neg (by omega)]

/-! ### CANCEL on a ring (R155, R156) -/

theorem applyCancel_of_slot {t : Nat} {x : Slot}
    (h : g.slots.find? (fun x => x.accepted && x.seq = t && x.st ≠ .duplicate) = some x) :
    applyCancel s r t = cancelSlot s r x := by
  simp only [applyCancel, hg, h]

/-- Of a sequence number that names no fetched slot, the distance ahead, the ring's state and the cancels it keeps
decide. -/
theorem applyCancel_of_no_slot {t : Nat}
    (h : g.slots.find? (fun x => x.accepted && x.seq = t && x.st ≠ .duplicate) = none) :
    applyCancel s r t =
      if 4096 < (t + 65536 - g.nextSeq) % 65536 then setRing s r { g with cancelMiss := satInc 0xFF g.cancelMiss }
      else if g.st ≠ 1 ∨ t ∈ g.cancels then s
      else if 16 ≤ g.cancels.length then setRing s r { g with cancelMiss := satInc 0xFF g.cancelMiss }
      else setRing s r { g with cancels := g.cancels ++ [t] } := by
  simp only [applyCancel, cancelMiss, hg, h, Bool.or_eq_true, decide_eq_true_eq, List.contains_iff_mem]

theorem cancelSlot_waiting {x : Slot} (hx : x.st = .waiting) :
    cancelSlot s r x =
      if g.st = 1 then modSlot s r x.k fun y => { y with st := .decided { status := 1 } } else s := by
  simp only [cancelSlot, hx, hg]

end

/-- A slot that runs, or is decided after its grant, only remembers the cancel. -/
theorem cancelSlot_granted (s : State) (r : Nat) {x : Slot}
    (hx : (∃ id, x.st = .running id) ∨ ∃ o, x.st = .decided o ∧ o.grant ≠ none) :
    cancelSlot s r x = modSlot s r x.k fun y => { y with cancelLate := true } := by
  rcases hx with ⟨id, hx⟩ | ⟨o, hx, hg⟩
  · simp only [cancelSlot, hx]
  · have hsome : o.grant.isSome = true := Option.isSome_iff_ne_none.2 hg
    simp only [cancelSlot, hx, hsome, if_true]

theorem cancelSlot_decided_ungranted (s : State) (r : Nat) {x : Slot} {o : Outcome} (hx : x.st = .decided o)
    (hg : o.grant = none) : cancelSlot s r x = s := by
  simp [cancelSlot, hx, hg]

/-! ### POLL_READ (R143) -/

theorem exec_pollRead_idle {s : State} {r : Nat} (h : (ringOf s r).st = 0 ∨ (ringOf s r).poll = false) :
    exec (.pollRead r) s = .next s := by
  change execPollRead r s = _
  rcases h with h | h <;> simp [execPollRead, done, h]

section
variable {s t : State} {r : Nat} (hst : (ringOf s r).st ≠ 0) (hpoll : (ringOf s r).poll = true)
include hst hpoll

theorem exec_pollRead_fail {f : Fail}
    (hread : readUse s (ringAgent r (ringOf s r)) (ringOf s r).dbAddr 16 = (t, .fail f)) :
    exec (.pollRead r) s = .next t := by
  change execPollRead r s = _
  simp [execPollRead, done, hst, hpoll, hread]

/-- The record that is read acts as a SUBMIT with a new GEN, or not at all. -/
theorem exec_pollRead_ok {b : List Byte}
    (hread : readUse s (ringAgent r (ringOf s r)) (ringOf s r).dbAddr 16 = (t, .ok b)) :
    exec (.pollRead r) s = .next (
      if (ringOf s r).gen = some (w32At b 12) ∨ bits (w32At b 4) 3 0 ≠ 1 then t
      else applySubmit (setRing t r { ringOf s r with gen := some (w32At b 12) }) r (w32At b 0)) := by
  change execPollRead r s = _
  simp [execPollRead, done, hst, hpoll, hread]

end

/-! ### The obligation -/

/-- Settles O35: the record of a SUBMIT or CANCEL is its staged words and its commit; the commit goes by the function, the
seal and the page to a ring, where the distance of PRODUCER, the state of the cancelled slot or the room for a later
cancel decides. -/
theorem doorbellsReachTheirRing : Obligations.DoorbellsReachTheirRing := by
  unfold Obligations.DoorbellsReachTheirRing
  intro s fn page p gen target tg word staged a b
  have ha : stageWords s fn page p.toNat 1 0 = a := by simp [stageWords, a, staged]
  have hb : stageWords s fn page 0 (2 + tg * 65536) 0 = b := rfl
  have hsubmit : exec (.submit fn page p gen) s = .next (doorbell a fn page fun r => applySubmit a r p.toNat) := by
    rw [exec_submit, ha]
  have hcancel : exec (.cancel fn page target) s = .next (doorbell b fn page fun r => applyCancel b r tg) := by
    rw [exec_cancel, hb]
  refine ⟨exec_submit_eq_pageWrite s fn page p gen, exec_cancel_eq_pageWrite s fn page target gen.toNat, ?absent,
    ?unsealed, ?stray, ?ring, fun r => exec_pollRead_idle, ?poll⟩
  case absent =>
    intro he
    rw [hsubmit, hcancel, doorbell_of_no_function (s := a) he, doorbell_of_no_function (s := b) he]
    exact ⟨rfl, rfl⟩
  case unsealed =>
    intro he hs
    rw [hsubmit, hcancel, doorbell_of_unsealed (s := a) he hs, doorbell_of_unsealed (s := b) he hs]
    exact ⟨rfl, rfl⟩
  case stray =>
    intro he hs hpf hvf
    have hnone : pageRing s fn page = none := by
      by_cases hfn : fn = 0
      · subst hfn; exact pageRing_pf_eq_none (hpf rfl)
      · exact pageRing_vf_eq_none hfn (hvf hfn)
    rw [hsubmit, hcancel, doorbell_of_stray (s := a) he hs hnone, doorbell_of_stray (s := b) he hs hnone]
    exact ⟨rfl, rfl⟩
  case ring =>
    intro he hs r hr g ahead found
    have hga : ringOf a r = g := rfl
    have hgb : ringOf b r = g := rfl
    rw [hsubmit, hcancel, doorbell_of_ring (s := a) he hs hr, doorbell_of_ring (s := b) he hs hr]
    refine ⟨fun d hp hd => ⟨fun h0 => ?_, fun hpos hlt hfit => ?_, fun hout => ?_⟩, fun x hx => ?_, fun hnone => ?_⟩
    · rw [applySubmit_same hga hp h0]
    · rw [applySubmit_in_reach hga hp hpos hlt hfit]
    · rw [applySubmit_out_of_reach hga hp hd hout]
    · rw [applyCancel_of_slot hgb hx]
      refine ⟨fun hw h1 => ?_, fun hw h1 => ?_, fun hl => ?_, fun o ho hg => ?_⟩
      · rw [cancelSlot_waiting hgb hw, if_pos h1]
      · rw [cancelSlot_waiting hgb hw, if_neg h1]
      · rw [cancelSlot_granted b r hl]
      · rw [cancelSlot_decided_ungranted b r ho hg]
    · rw [applyCancel_of_no_slot hgb hnone]
      refine ⟨fun hfar => ?_, fun hnear hoff => ?_, fun hnear h1 hnew hfull => ?_, fun hnear h1 hnew hroom => ?_⟩
      · rw [if_pos hfar]
      · rw [if_neg (Nat.not_lt_of_le hnear), if_pos hoff]
      · rw [if_neg (Nat.not_lt_of_le hnear), if_neg (not_or.2 ⟨not_not.2 h1, hnew⟩), if_pos hfull]
      · rw [if_neg (Nat.not_lt_of_le hnear), if_neg (not_or.2 ⟨not_not.2 h1, hnew⟩), if_neg (Nat.not_le_of_lt hroom)]
  case poll =>
    intro r t hst hpoll
    refine ⟨fun f hread => exec_pollRead_fail hst hpoll hread, fun b hread => ⟨fun hold => ?_, fun hnew hop => ?_⟩⟩
    · rw [exec_pollRead_ok hst hpoll hread, if_pos hold]
    · rw [exec_pollRead_ok hst hpoll hread, if_neg (not_or.2 ⟨hnew, not_not.2 hop⟩)]

end Sys2Proof.Proofs
end

section
/-! PROOFS. HARQ_FREE (R335): which entries of the pool a key names, and what freeing them leaves. -/
namespace Sys2Proof.Proofs
open Sys2Proof.Machine Sys2Proof.Laws

/-! ### The entries that a key names -/

/-- The key of a HARQ_FREE meets the keys that ALL or KEY names. -/
theorem keysMeet_allOrKey_iff (all : Bool) (key k : Nat) :
    keysMeet (if all then none else some key) (some k) = true ↔ all = true ∨ k = key := by
  cases all with
  | true => simp [keysMeet]
  | false => simp [keysMeet, eq_comm]

/-! ### Freeing them -/

/-- The pool holds afterwards the entries of another function and those whose key does not meet the freed one. -/
theorem mem_harq_freeHarqKeys {s : State} {fn : Nat} {key : Option Nat} {e : Nat × Harq} :
    e ∈ (freeHarqKeys s fn key).ce.harq ↔
      e ∈ s.ce.harq ∧ ¬ (e.2.func = fn ∧ keysMeet key (some e.2.key) = true) := by
  simp [freeHarqKeys, imp_iff_not_or]

/-- Freeing a key without an entry has no effect (R335). -/
theorem freeHarqKeys_eq_self {s : State} {fn : Nat} {key : Option Nat}
    (h : ∀ e ∈ s.ce.harq, ¬ (e.2.func = fn ∧ keysMeet key (some e.2.key) = true)) : freeHarqKeys s fn key = s := by
  have hkeep : (s.ce.harq.filter fun e => !(e.2.func = fn && keysMeet key (some e.2.key))) = s.ce.harq :=
    List.filter_eq_self.2 fun e he => by simpa [imp_iff_not_or] using h e he
  rw [freeHarqKeys, hkeep]

/-! ### The row -/

/-- Where no other operation holds or waits for an entry it names, HARQ_FREE frees them and its segment goes on. -/
theorem exec_harqFree_of_entryFree {s : State} {u : Nat} {x : Run} {g : Seg} {o : ListOp}
    (hop : atOp s 1 u 0x24 = some (x, g, o)) {key : Option Nat}
    (hkey : (if bitAt o.imm 0 then none else some (bits (xw o 1) 23 0)) = key)
    (hfree : entryFree s x.fn key (s.ce.turns + 1) = true) :
    exec (.harqFree u) s = .next (advance (freeHarqKeys s x.fn key) x u) := by
  change execHarqFree u s = _
  rw [execHarqFree, onOp_eq hop]
  simp only [hkey, hfree, if_true, done]

/-! ### The obligation -/

/-- Settles O50: HARQ_FREE keeps of the pool the entries that its key does not name, so all of it when it names none. -/
theorem harqFreeFreesWhatItNames : Obligations.HarqFreeFreesWhatItNames := by
  unfold Obligations.HarqFreeFreesWhatItNames
  intro s u x g o hop all key names hfree
  have hnames (h : Harq) :
      (h.func = x.fn ∧ keysMeet (if all then none else some key) (some h.key) = true) ↔ names h :=
    and_congr_right fun _ => keysMeet_allOrKey_iff all key h.key
  refine ⟨freeHarqKeys s x.fn (if all then none else some key), exec_harqFree_of_entryFree hop rfl hfree,
    ⟨_, rfl⟩, fun i h => ?kept, fun hnone => ?nothing⟩
  case kept => rw [mem_harq_freeHarqKeys, hnames]
  case nothing => exact freeHarqKeys_eq_self fun e he => (hnames e.2).not.2 (hnone e.1 e.2 he)

end Sys2Proof.Proofs
end

section
/-! PROOFS. What every step keeps, over all commands and states: the queue's rest, the canonical forms, the locked bits;
and the frames of the rows that write no quiet part. -/
namespace Sys2Proof.Proofs
open Sys2Proof.Machine

/-- What an edge of TCLK or a row keeps, from the state that has already lost the front command. -/
theorem step_sealKeeps {s t : State} (h : step s = .next t) :
    ∃ p : Prop, SealKeeps p { s with pending := s.pending.tail } t := by
  rcases step_cases h with ⟨hp, rfl⟩ | ⟨c, rest, hp, he⟩
  · have hs : { s with pending := s.pending.tail } = s := by rw [hp, List.tail_nil, ← hp]
    exact ⟨False, hs.symm ▸ (tick_retains (.refl s)).toSeal⟩
  · have hs : { s with pending := s.pending.tail } = { s with pending := rest } := by rw [hp, List.tail_cons]
    exact ⟨commitsSvn c, hs.symm ▸ exec_seals he⟩

/-- Settles O3: no row and no edge of TCLK writes the queue. -/
theorem stepTakesOnlyTheFrontCommand : Obligations.StepTakesOnlyTheFrontCommand := by
  unfold Obligations.StepTakesOnlyTheFrontCommand
  refine ⟨fun c rest s t h => ?_, fun s t hp h => ?_⟩
  · obtain ⟨p, hk⟩ := step_sealKeeps h
    exact hk.pending
  · obtain ⟨p, hk⟩ := step_sealKeeps h
    exact hk.pending.trans (congrArg List.tail hp)

/-- Settles O5: every row and every edge of TCLK keeps the tables of the memories canonical. -/
theorem stepKeepsMemoriesCanonical : Obligations.StepKeepsMemoriesCanonical := by
  unfold Obligations.StepKeepsMemoriesCanonical
  intro s t w h
  obtain ⟨p, hk⟩ := step_sealKeeps h
  exact hk.mem w

/-- Settles O6: every row and every edge of TCLK keeps the table of the register words canonical. -/
theorem stepKeepsRegisterWordsCanonical : Obligations.StepKeepsRegisterWordsCanonical := by
  unfold Obligations.StepKeepsRegisterWordsCanonical
  intro s t w h
  obtain ⟨p, hk⟩ := step_sealKeeps h
  exact hk.regs w

/-- Settles O7: a masked write leaves the locked bits out, and nothing else writes them while the seal stands. -/
theorem sealedStepsKeepLockedBits : Obligations.SealedStepsKeepLockedBits := by
  unfold Obligations.SealedStepsKeepLockedBits
  intro s t w hs h ht
  obtain ⟨p, hk⟩ := step_sealKeeps h
  exact hk.lock w hs ht

/-- Settles O9: each of these rows keeps the quiet parts. -/
theorem otherRowsLeaveQuietParts : Obligations.OtherRowsLeaveQuietParts := by
  unfold Obligations.OtherRowsLeaveQuietParts
  intro c s t hq h
  exact ((exec_keeps hq s).out t h).quiet

/-- Settles O10: of a row that stores nothing `Keeps` holds with the bytes themselves kept. -/
theorem otherRowsLeaveMemoryBytes : Obligations.OtherRowsLeaveMemoryBytes := by
  unfold Obligations.OtherRowsLeaveMemoryBytes
  intro c s t hm hq h
  have hk := ((exec_keeps hq s).out t h).mem
  rw [hm] at hk
  exact hk

end Sys2Proof.Proofs
end

section
/-! PROOFS. Pins, the cold reset, start-up, Ezdan and SMBus (chapter 5): what each row does where its guard holds. -/
namespace Sys2Proof.Proofs
open Sys2Proof.Machine Sys2Proof.Laws

/-- A row that answers a state goes on from it. -/
@[simp] theorem done_eq_next (s : State) : done s = .next s := rfl

/-! ### The reset state -/

@[simp] theorem reg_of_no_words {s : State} (h : s.regs = []) (off : Nat) : reg s off = (regSpec off).reset := by
  simp [reg, h, tblGet?]

@[simp] theorem flag_of_no_flags {s : State} (h : s.flags = []) (id : Nat) : flag s id = false := by
  simp [flag, h, tblGet, tblGet?]

/-- Settles O8: the reset state lists nothing. -/
theorem resetStateIsWellFormed : Obligations.ResetStateIsWellFormed := by
  unfold Obligations.ResetStateIsWellFormed
  exact ⟨rfl, rfl, rfl, rfl, rfl, rfl, rfl, rfl, flag_of_no_flags rfl, rfl, rfl, reg_of_no_words rfl⟩

/-! ### Pins and the test access port -/

theorem exec_pwrokAssert (s : State) :
    exec .pwrokAssert s = .next { s with boot := { s.boot with pwrok := true } } := by
  change execPwrokAssert s = _
  cases h : s.boot.pwrok with
  | true => rw [execPwrokAssert, if_pos h, done_eq_next, ← h]
  | false => simp [execPwrokAssert, h]

/-- What the controller does in the state it leaves, before it moves on. -/
def tapActs (s : State) (tdi : Bool) : Tap :=
  match s.tap.state with
  | 3 => { s.tap with dr := captureDr s }
  | 4 => { s.tap with dr := shiftIn s.tap.dr tdi, tdo := s.tap.dr.headD false }
  | 8 => if s.tap.instr = 2 ∨ s.tap.instr = 3 then { s.tap with boundary := s.tap.dr } else s.tap
  | 10 => { s.tap with ir := true :: List.replicate (Config.irLength - 1) false }
  | 11 => { s.tap with ir := shiftIn s.tap.ir tdi, tdo := s.tap.ir.headD false }
  | 15 => { s.tap with instr := Config.irSelects s.tap.ir }
  | _ => s.tap

theorem tapActs_shift {s : State} (h : s.tap.state = 4) (tdi : Bool) :
    tapActs s tdi = { s.tap with dr := shiftIn s.tap.dr tdi, tdo := s.tap.dr.headD false } := by
  simp [tapActs, h]

/-- A rising edge of TCK on a powered device. -/
theorem exec_tckEdge {s : State} (hp : s.boot.pwrok = true) (tms tdi : Bool) :
    exec (.tckEdge tms tdi) s = .next { s with tap :=
      { (if tapNext s.tap.state tms = 0 then { tapActs s tdi with instr := 1 } else tapActs s tdi) with
        state := tapNext s.tap.state tms } } := by
  change execTckEdge tms tdi s = _
  rw [execTckEdge, if_pos hp, done_eq_next]
  rfl

/-- From Shift-DR no edge leads into Test-Logic-Reset. -/
theorem tapNext_shift (tms : Bool) : tapNext 4 tms ≠ 0 := by
  cases tms <;> decide

/-- Settles O11: four rows write their pin alone; an edge of TCK writes the test access port. -/
theorem pinCommandsChangeOnlyTheirPin : Obligations.PinCommandsChangeOnlyTheirPin := by
  unfold Obligations.PinCommandsChangeOnlyTheirPin
  intro s
  refine ⟨exec_pwrokAssert s, rfl, rfl, rfl, fun hp tms tdi => ⟨_, exec_tckEdge hp tms tdi, rfl, fun h4 => ?_, fun h0 => ?_⟩⟩
  · have hne : tapNext s.tap.state tms ≠ 0 := h4 ▸ tapNext_shift tms
    rw [if_neg hne, tapActs_shift h4]
    exact ⟨rfl, rfl, rfl⟩
  · have hz : tapNext s.tap.state tms = 0 := h0
    rw [if_pos hz]

/-! ### COLD_RESET -/

/-- A table that lists the numbers below `n` in order answers each of them. -/
theorem tblGet?_range_map {α : Type} (f : Nat → α) {n k : Nat} (h : k < n) :
    tblGet? ((List.range n).map fun a => (a, f a)) k = some (f k) := by
  have key : ∀ (m a : Nat), a ≤ k → k < a + m →
      tblGet? ((List.range' a m).map fun a => (a, f a)) k = some (f k) := by
    intro m
    induction m with
    | zero => omega
    | succ m ih =>
      intro a ha hk
      by_cases he : k = a
      · simp [List.range', tblGet?, he]
      · have hlt : ¬ k < a := by omega
        simpa [List.range', tblGet?, he, hlt] using ih (a + 1) (by omega) (by omega)
  rw [List.range_eq_range']
  exact key n 0 (Nat.zero_le k) (by omega)

theorem tblGet_range_map {α : Type} (d : α) (f : Nat → α) {n k : Nat} (h : k < n) :
    tblGet d ((List.range n).map fun a => (a, f a)) k = f k := by
  rw [tblGet, tblGet?_range_map f h, Option.getD_some]

theorem arrOf_coldReset (s : State) {a : Nat} (h : a < 8) :
    arrOf (coldReset s) a = { epoch := (arrOf s a).epoch + 1 } :=
  tblGet_range_map _ (fun a => ({ epoch := (arrOf s a).epoch + 1 } : Arr)) h

theorem tileOf_coldReset (s : State) {n : Nat} (h : n < 64) :
    tileOf (coldReset s) n = { epoch := (tileOf s n).epoch + 1 } :=
  tblGet_range_map _ (fun n => ({ epoch := (tileOf s n).epoch + 1 } : Tile)) h

theorem tileByte_coldReset (s : State) {n : Nat} (a : Nat) (h : n < 64) :
    tileByte (coldReset s) n a = Config.freeByte (16 + n) ((tileOf s n).epoch + 1) a := by
  simp [tileByte, tileOf_coldReset s h, tblGet, tblGet?]

/-- Settles O12: the reset is `coldReset`, which lists nothing but what the statement names. -/
theorem coldResetKeepsFusesAndFlash : Obligations.ColdResetKeepsFusesAndFlash := by
  unfold Obligations.ColdResetKeepsFusesAndFlash
  intro s
  exact ⟨coldReset s, rfl, rfl, fun a h => arrOf_coldReset s h, fun n h => tileOf_coldReset s h, fun _ => rfl,
    fun _ => rfl, fun n a h => tileByte_coldReset s a h, rfl, rfl, rfl, rfl, rfl, reg_of_no_words rfl,
    flag_of_no_flags rfl⟩

/-! ### Start-up -/

/-- The four conditions of R101. -/
theorem accepts_iff (s : State) (i : Image) :
    accepts s i = true ↔ i.certOk = true ∧ i.sigOk = true ∧ i.namesCore = true ∧ s.fuse.svn ≤ i.svn := by
  simp [accepts, Bool.and_eq_true, and_assoc]

section
variable {s : State}

/-- At its first stage the boot ROM takes the active slot, else the other one, else it enters recovery. -/
theorem exec_bootImageCheck (hp : s.boot.pwrok = true) (hh : s.boot.halted = false) (hs : s.boot.stage = 0)
    (hf : s.boot.fwUp = false) :
    exec .bootImageCheck s = .next (
      if accepts s (imageOf s (s.flash.active % 2)) then loadImage s (s.flash.active % 2) false
      else if accepts s (imageOf s (1 - s.flash.active % 2)) then loadImage s (1 - s.flash.active % 2) true
      else { s with boot := { s.boot with stage := 0xE, recovery := true, fallback := false } }) := by
  change execBootImageCheck s = _
  simp [execBootImageCheck, hp, hh, hs, hf]



theorem exec_fwUp (hp : s.boot.pwrok = true) (hh : s.boot.halted = false) (hr : s.boot.perst = false)
    (hf : s.boot.fwUp = false) :
    exec .fwUp s = .next (
      if s.boot.recovery then { s with boot := { s.boot with fwUp := true } }
      else if s.boot.stage = 1 then startAll { s with
        boot := { s.boot with fwUp := true, stage := if s.boot.published then 2 else 3, testFailed := [] },
        link := { s.link with
          bifurcation :=
            (List.range 2).foldl (fun t i => tblSet 0 t (i + 1) (Config.flashBifurcation (i + 1))) s.link.bifurcation } }
      else s) := by
  change execFwUp s = _
  rw [execFwUp, if_neg (by simp [hp, hh, hr, hf])]
  rfl

/-- The end of MAP_DONE: the map is in force and the capacities follow from it. -/
def mapPublished (s : State) : State :=
  recap { dropRetired s with boot := { (dropRetired s).boot with mapDone := true } }

section
variable (hf : s.boot.fwUp = true) (hr : s.boot.recovery = false) (hm : s.boot.mapDone = false)
  (failed : List (Nat × Nat)) (bad : Bool) (d2d : List Nat)
include hf hr hm

theorem exec_mapDone_published (hp : s.boot.published = true) :
    exec (.mapDone failed bad d2d) s = .next (mapPublished s) := by
  change execMapDone failed bad d2d s = _
  rw [execMapDone, if_neg (by simp [hf, hr, hm, hp]), if_pos hp]
  rfl

theorem exec_mapDone_tested (hp : s.boot.published = false) (ht : testsRan s = true) :
    exec (.mapDone failed bad d2d) s = .next (
      let v := d2d.foldl failD2d (retireFailed s (failed ++ s.boot.testFailed))
      mapPublished { v with boot := { v.boot with hedgerowBad := bad, published := true } }) := by
  change execMapDone failed bad d2d s = _
  rw [execMapDone, if_neg (by simp [hf, hr, hm, ht]), if_neg (Bool.eq_false_iff.1 hp)]
  dsimp only [mapPublished, done_eq_next]

omit hf hr hm in
theorem exec_mapDone_untested (hp : s.boot.published = false) (ht : testsRan s = false) :
    exec (.mapDone failed bad d2d) s = .next s := by
  change execMapDone failed bad d2d s = _
  rw [execMapDone, if_pos (by simp [hp, ht])]
  rfl

end

theorem exec_ready (hm : s.boot.mapDone = true) (hr : s.boot.ready = false) :
    exec .ready s = .next (updateFloor { s with
      feat := { s.feat with offer := BitVec.ofNat 128 (offerOf s) }
      boot := { s.boot with ready := true, stage := 4 } }) := by
  change execReady s = _
  simp [execReady, hm, hr]

end

/-- Settles O14: each of the four rows, at its stage, is one cascade of conditions. -/
theorem startUpStagesFollowInOrder : Obligations.StartUpStagesFollowInOrder := by
  unfold Obligations.StartUpStagesFollowInOrder
  intro s
  refine ⟨fun hp hh hs hf => ?image, fun hp hh hr hf => ?firmware, fun hf hr hm failed bad d2d => ?map, exec_ready⟩
  case image =>
    intro a pass start
    have hpass (i : Image) : accepts s i = true ↔ pass i := accepts_iff s i
    simp only [exec_bootImageCheck hp hh hs hf, hpass]
    refine ⟨fun h => ?_, fun hn h => ?_, fun hn hm => ?_⟩
    · rw [if_pos h]; rfl
    · rw [if_neg hn, if_pos h]; rfl
    · rw [if_neg hn, if_neg hm]
  case firmware =>
    intro modes
    rw [exec_fwUp hp hh hr hf]
    refine ⟨fun h => ?_, fun h h1 => ?_⟩
    · rw [if_pos h]
    · rw [if_neg (Bool.eq_false_iff.1 h), if_pos h1]
  case map =>
    refine ⟨exec_mapDone_published hf hr hm failed bad d2d, fun hp ht => ?_, exec_mapDone_untested failed bad d2d⟩
    rw [exec_mapDone_tested hf hr hm failed bad d2d hp ht]
    dsimp only [mapPublished]

/-! ### Ezdan -/

/-- A restart halts an Ezdan that restarted within the last second. -/
theorem restartEzdan_eq {s : State} (h : s.boot.ezHalted = false) (cause : Nat) :
    restartEzdan s cause =
      if s.boot.lastRestart.any (fun t => s.sclk < t + 100000000) then updateFloor (logEvent
        { s with boot := { s.boot with ezHalted := true, restarting := false, stage := 0xF } } 0x5003 0 0 0)
      else logEvent { s with boot := { s.boot with restarting := true, lastRestart := some s.sclk } } 0x5001 0 cause 0 := by
  simp [restartEzdan, h]

theorem exec_lockstepMismatch {s : State} (hp : s.boot.pwrok = true) (hh : s.boot.halted = false) :
    exec .lockstepMismatch s = .next (if s.boot.fwUp then restartEzdan s 0
      else linkOff { s with boot := { s.boot with halted := true, stage := 0xF } }) := by
  change execLockstepMismatch s = _
  simp [execLockstepMismatch, hp, hh]

theorem exec_fwWatchdogExpire {s : State} (hf : s.boot.fwUp = true) (hh : s.boot.halted = false) :
    exec .fwWatchdogExpire s = .next (restartEzdan s 1) := by
  change execFwWatchdogExpire s = _
  simp [execFwWatchdogExpire, hf, hh]

/-- The resets held back over a restart are none where no bit of the word is set. -/
theorem foldl_heldReset_zero (s : State) :
    (List.range 8).foldl (fun u n => if bitAt 0 n then adminReset u n else u) s = s := by
  simp [List.range, List.range.loop, bitAt]

/-- With nothing held back and no admin command, the end of a restart is its flag. -/
theorem exec_ezdanResume_idle {s : State} (hr : s.boot.restarting = true) (ha : s.arb.admin = none)
    (h0 : s.boot.heldAdminReset = 0) :
    exec .ezdanResume s =
      .next (setFlag { s with boot := { s.boot with restarting := false, heldAdminReset := 0 } } 3078) := by
  change execEzdanResume s = _
  obtain ⟨f, o, e, l, shape⟩ :=
    setFlag_shape { s with boot := { s.boot with restarting := false, heldAdminReset := 0 } } 3078
  have hadm : (setFlag { s with boot := { s.boot with restarting := false, heldAdminReset := 0 } } 3078).arb.admin = none := by
    rw [shape]; exact ha
  simp only [execEzdanResume, hr, h0, hadm, foldl_heldReset_zero, Bool.not_true, Bool.false_eq_true, if_false, done_eq_next]

/-- Settles O15: by the second since the last restart, and by whether firmware runs. -/
theorem ezdanRestartsAndResumes : Obligations.EzdanRestartsAndResumes := by
  unfold Obligations.EzdanRestartsAndResumes
  intro s
  refine ⟨fun hp hh hf => ?before, fun hf hh hz => ?running, exec_ezdanResume_idle⟩
  case before => rw [exec_lockstepMismatch hp hh, if_neg (Bool.eq_false_iff.1 hf)]
  case running =>
    intro again restart halt
    refine ⟨fun hp => ?_, ?_⟩
    · rw [exec_lockstepMismatch hp hh, if_pos hf, restartEzdan_eq hz]
    · rw [exec_fwWatchdogExpire hf hh, restartEzdan_eq hz]

/-! ### SMBus -/

theorem smbAnswer_named {s : State} (hp : s.boot.pwrok = true) (ha : s.boot.smbTo = fld s 0x5001C 6 0) (l : List Byte) :
    smbAnswer s l = { s with smb := l } := by
  simp [smbAnswer, hp, ← ha]

theorem smbAnswer_other {s : State} (ha : s.boot.smbTo ≠ fld s 0x5001C 6 0) (l : List Byte) : smbAnswer s l = s := by
  simp [smbAnswer, ha]

/-- Settles O17: each of the five rows is `smbAnswer` of its bytes. -/
theorem smbusAnswersTheManagementBytes : Obligations.SmbusAnswersTheManagementBytes := by
  unfold Obligations.SmbusAnswersTheManagementBytes
  intro s hp
  refine ⟨fun ha => ?named, fun ha => ?other⟩
  case named =>
    have answers (l : List Byte) : done (smbAnswer s l) = .next { s with smb := l } := by rw [smbAnswer_named hp ha]; rfl
    exact ⟨answers _, answers _, answers _, answers _, answers _⟩
  case other =>
    have ignores (l : List Byte) : done (smbAnswer s l) = .next s := by rw [smbAnswer_other ha]; rfl
    exact ⟨ignores _, ignores _, ignores _, ignores _, ignores _⟩

end Sys2Proof.Proofs
end

section
/-! PROOFS. What the radio's shared operations leave alone (R31, R54, R90, R111, R370): they write flags and their requests,
messages, tiles, the fronthaul, the converter links and the exclusions, and nothing else. -/
namespace Sys2Proof.Proofs
open Sys2Proof.Machine Sys2Proof.Laws

/-! ### The batches of runs -/

/-- From `s` to `t` a run that is still there has the W of its batch as it was. -/
def BatchesStay (s t : State) : Prop := ∀ id y, findRun t id = some y → ∃ x, findRun s id = some x ∧ batchW x = batchW y

namespace BatchesStay

variable {s t u : State}

theorem trans (h : BatchesStay s t) (k : BatchesStay t u) : BatchesStay s u := by
  intro id z hz
  obtain ⟨y, hy, hyz⟩ := k id z hz
  obtain ⟨x, hx, hxy⟩ := h id y hy
  exact ⟨x, hx, hxy.trans hyz⟩

theorem of_runs (h : t.runs = s.runs) : BatchesStay s t := by
  intro id y hy
  rw [findRun, h] at hy
  exact ⟨y, hy, rfl⟩

theorem refl (s : State) : BatchesStay s s := of_runs rfl

/-- A change of the runs in place that leaves their identities and batches. -/
theorem of_map {f : Run → Run} (hid : ∀ x, (f x).id = x.id) (hw : ∀ x, batchW (f x) = batchW x)
    (h : t.runs = s.runs.map f) : BatchesStay s t := by
  intro id y hy
  have hsame : ((fun x : Run => Decidable.decide (x.id = id)) ∘ f) = fun x => Decidable.decide (x.id = id) :=
    funext fun x => by simp only [Function.comp_apply, hid]
  rw [findRun, h, List.find?_map, hsame, Option.map_eq_some_iff] at hy
  obtain ⟨x, hx, rfl⟩ := hy
  exact ⟨x, hx, (hw x).symm⟩

/-- All runs of one identity are taken away. -/
theorem of_filter (id : Nat) (h : t.runs = s.runs.filter fun y => y.id ≠ id) : BatchesStay s t := by
  intro j y hy
  rw [findRun, h, List.find?_filter] at hy
  have hj : j ≠ id := by
    have hkept := List.find?_some hy
    simp only [Bool.decide_and, Bool.and_eq_true, decide_eq_true_eq] at hkept
    exact hkept.2 ▸ hkept.1
  refine ⟨y, ?_, rfl⟩
  rw [← hy, findRun]
  congr 1
  funext x
  by_cases hx : x.id = j
  · simp [hx, hj]
  · simp [hx]

theorem foldl {α : Type} {f : State → α → State} (hf : ∀ s a, BatchesStay s (f s a)) (l : List α) (s : State) :
    BatchesStay s (l.foldl f s) := by
  induction l generalizing s with
  | nil => exact refl s
  | cons a l ih => exact (hf s a).trans (ih (f s a))

theorem ite {c : Prop} [Decidable c] (h : BatchesStay s t) (k : BatchesStay s u) : BatchesStay s (if c then t else u) := by
  split
  · exact h
  · exact k

end BatchesStay

theorem noteMsg_batches (s : State) (r k : Nat) (b : Bool) : BatchesStay s (noteMsg s r k b) :=
  .of_map (fun x => by split <;> rfl) (fun x => by split <;> rfl) rfl

/-! ### The radio -/

/-- From `s` to `t` only the parts that radio work writes change, no flag clears and batches stay. -/
def RadioMoves (s t : State) : Prop :=
  (∃ flags occ link runs ev tile mq fh cv,
    t = { s with flags := flags, occ := occ, link := link, runs := runs, ev := ev, tile := tile, mq := mq, fh := fh, cv := cv })
  ∧ (∀ k, flag s k = true → flag t k = true) ∧ BatchesStay s t

namespace RadioMoves

/-- An update of some of those parts that leaves the flags. -/
theorem of_update (s : State) (link : Link) (ev : Events) (tile : Tbl Tile) (mq : Maquette) (fh : Fronthaul)
    (cv : Converters) : RadioMoves s { s with link := link, ev := ev, tile := tile, mq := mq, fh := fh, cv := cv } :=
  ⟨⟨_, _, _, _, _, _, _, _, _, rfl⟩, fun _ h => h, .of_runs rfl⟩

theorem noteMsg (s : State) (r k : Nat) (b : Bool) : RadioMoves s (noteMsg s r k b) :=
  ⟨⟨_, _, _, _, _, _, _, _, _, rfl⟩, fun _ h => h, noteMsg_batches s r k b⟩

theorem refl (s : State) : RadioMoves s s := of_update s _ _ _ _ _ _

theorem trans {s t u : State} (h : RadioMoves s t) (k : RadioMoves t u) : RadioMoves s u := by
  obtain ⟨⟨_, _, _, _, _, _, _, _, _, rfl⟩, hf, hb⟩ := h
  obtain ⟨⟨_, _, _, _, _, _, _, _, _, rfl⟩, kf, kb⟩ := k
  exact ⟨⟨_, _, _, _, _, _, _, _, _, rfl⟩, fun i hi => kf i (hf i hi), hb.trans kb⟩

theorem foldl {α : Type} {f : State → α → State} (hf : ∀ s a, RadioMoves s (f s a)) (l : List α) (s : State) :
    RadioMoves s (l.foldl f s) := by
  induction l generalizing s with
  | nil => exact refl s
  | cons a l ih => exact (hf s a).trans (ih (f s a))

theorem ite {s t u : State} {c : Prop} [Decidable c] (h : RadioMoves s t) (k : RadioMoves s u) :
    RadioMoves s (if c then t else u) := by
  split
  · exact h
  · exact k

section
variable {s t : State} (h : RadioMoves s t)
include h

theorem etu : t.etu = s.etu := by obtain ⟨⟨_, _, _, _, _, _, _, _, _, rfl⟩, -⟩ := h; rfl
theorem boot : t.boot = s.boot := by obtain ⟨⟨_, _, _, _, _, _, _, _, _, rfl⟩, -⟩ := h; rfl
theorem batches : BatchesStay s t := h.2.2
theorem power : t.power = s.power := by obtain ⟨⟨_, _, _, _, _, _, _, _, _, rfl⟩, -⟩ := h; rfl

end

theorem setFlag (s : State) (id : Nat) : RadioMoves s (setFlag s id) := by
  obtain ⟨f, o, e, l, shape⟩ := setFlag_shape s id
  refine ⟨?_, fun k hk => ?_, .of_runs (by rw [shape])⟩
  · rw [shape]
    exact ⟨_, _, _, _, _, _, _, _, _, rfl⟩
  · exact (bump_setFlag_setsAmong s id).flag_mono ((bump_setsAmong (List.mem_singleton_self id) s).flag_mono hk)

theorem setFlagIf (c : Bool) (id : Nat) (s : State) : RadioMoves s (setFlagIf c id s) := ite (setFlag s id) (refl s)

theorem arrive (s : State) (i : Nat) : RadioMoves s (arrive s i) := of_update _ _ _ _ _ _ _

theorem setLink (s : State) (k : Nat) (x : CvLink) : RadioMoves s (setLink s k x) := of_update _ _ _ _ _ _ _

/-! ### Symbols and bursts -/

theorem ingressStore (s : State) (t a : Nat) (b : List Byte) : RadioMoves s (ingressStore s t a b) :=
  ite (of_update _ _ _ _ _ _ _) (refl s)

theorem openSlot (s : State) (p : Placed) (sfn slot : Nat) : RadioMoves s (openSlot s p sfn slot) :=
  foldl (fun s t => ite (refl s) (ingressStore s t _ _)) _ s

theorem markSymbol (s : State) (p : Placed) (sfn slot sym v : Nat) : RadioMoves s (markSymbol s p sfn slot sym v) :=
  (openSlot s p sfn slot).trans
    (foldl (fun s _ => ite ((ingressStore s _ _ _).trans (ingressStore _ _ _ _)) (ingressStore s _ _ _)) _ _)

theorem symbolStatus (s : State) (c : Nat) (p : Placed) (sfn slot sym v : Nat) :
    RadioMoves s (symbolStatus s c p sfn slot sym v) :=
  (markSymbol s p sfn slot sym v).trans (of_update _ _ _ _ _ _ _)

theorem writeBurst (s : State) (k st n : Nat) (e c : List Nat) : RadioMoves s (writeBurst s k st n e c) :=
  (ingressStore s _ _ _).trans ((ingressStore _ _ _ _).trans ((setLink _ _ _).trans (arrive _ _)))

theorem truncateBurst (s : State) (k : Nat) : RadioMoves s (truncateBurst s k) :=
  ite (writeBurst s k _ _ _ _) (setLink s k _)

theorem linkReset (s : State) (k : Nat) : RadioMoves s (linkReset s k) := by
  unfold Machine.linkReset
  dsimp only
  refine ite (refl s) (trans (ite (trans ?cut ((symbolStatus _ _ _ _ _ _ _).trans (arrive _ _))) ?cut) (setLink _ _ _))
  exact (setFlagIf _ _ s).trans (ite (truncateBurst _ k) (refl _))

/-! ### Ports and carriers -/

theorem discardFrames (s : State) (p k : Nat) (g : EgFrame → Bool) : RadioMoves s (discardFrames s p k g) := by
  have count (u : State) : RadioMoves u (countPort u p k) := of_update _ _ _ _ _ _ _
  have note (u : State) (f : EgFrame) : RadioMoves u (Machine.noteMsg (dropTx u p k) f.ring f.k false) :=
    ((count u).trans (setFlagIf _ _ _)).trans (Proofs.RadioMoves.noteMsg _ _ _ _)
  have keep (x : Port) : RadioMoves s (setPort s p x) := of_update _ _ _ _ _ _ _
  exact (keep _).trans (foldl note _ _)

theorem discardMsgs (s : State) (g : EgFrame → Bool) : RadioMoves s (discardMsgs s g) :=
  foldl (fun s p => ite (discardFrames s p 16 _) (refl s)) _ s

theorem setCarrier (s : State) (c : Nat) (x : Carrier) : RadioMoves s (setCarrier s c x) :=
  of_update _ _ _ _ _ _ _

theorem closeCarrier (s : State) (c : Nat) : RadioMoves s (closeCarrier s c) := (setCarrier s c _).trans (discardMsgs _ _)

theorem narrowCarrier (s : State) (c : Nat) : RadioMoves s (narrowCarrier s c) := (setCarrier s c _).trans (discardMsgs _ _)

theorem closeCarriers (s : State) : RadioMoves s (closeCarriers s) := by
  have narrow (u : State) (e : Nat × Carrier) : RadioMoves u (Machine.narrowCarrier u e.1) := narrowCarrier u e.1
  unfold Machine.closeCarriers
  exact foldl narrow _ s

theorem settleRadio (s : State) : RadioMoves s (settleRadio s) := by
  have settle (u : State) (k : Nat) : RadioMoves u (if linkMayRun u k then u else Machine.linkReset u k) :=
    ite (refl u) (linkReset u k)
  unfold Machine.settleRadio
  exact (closeCarriers s).trans (foldl settle _ _)

end RadioMoves

/-- The floor is boot's, and its change sets a flag. -/
theorem updateFloor_shape (s : State) : ∃ b f o l e, updateFloor s = { s with boot := b, flags := f, occ := o, link := l, ev := e } := by
  unfold updateFloor
  dsimp only
  split
  · exact ⟨_, _, _, _, _, rfl⟩
  · obtain ⟨f, o, e, l, shape⟩ := setFlag_shape { s with boot := { s.boot with floor := floorOf s } } 1
    exact ⟨_, _, _, _, _, shape⟩

@[simp] theorem updateFloor_etu (s : State) : (updateFloor s).etu = s.etu := by
  obtain ⟨b, f, o, l, e, shape⟩ := updateFloor_shape s
  rw [shape]

@[simp] theorem settleRadio_etu (s : State) : (settleRadio s).etu = s.etu := (RadioMoves.settleRadio s).etu

end Sys2Proof.Proofs
end

section
/-! PROOFS. The management mailbox (R105). -/
namespace Sys2Proof.Proofs
open Sys2Proof.Machine Sys2Proof.Laws

/-- The mailbox takes a command: BUSY with its code and the result to post. -/
def mboxTakes (t : State) (code due : Nat) : State :=
  { t with mbox := { t.mbox with busy := true, code := code, due := due } }

section
variable {s : State} (hf : s.boot.fwUp = true)
include hf

theorem mboxCommand_of_idle (hb : mboxBusy s = false) (code : Nat) (f : State → State × Nat) :
    mboxCommand s code f = mboxTakes (f s).1 code (f s).2 := by
  rw [mboxCommand, if_neg (by simp [hf]), if_neg (Bool.eq_false_iff.1 hb)]
  rfl

theorem mboxCommand_of_busy (hb : mboxBusy s = true) (code : Nat) (f : State → State × Nat) :
    mboxCommand s code f = setFlag s 0 := by
  rw [mboxCommand, if_neg (by simp [hf]), if_pos hb]

/-! ### Rows that find the mailbox free -/

section
variable (hb : mboxBusy s = false)
include hb

theorem exec_logRead (h : reg s 0x48 + 4096 ≤ 1048576) :
    exec .logRead s = .next (mboxTakes { s with mbox := { s.mbox with
      window := fillTbl 0 [] 0 (bytesAt (tblGet 0xFF s.flash.log) (reg s 0x48) 4096) } } 1 0) := by
  change execLogRead s = _
  rw [execLogRead, mboxCommand_of_idle hf hb, mboxArg0, if_neg (Nat.not_lt_of_le h)]
  rfl

theorem exec_logRead_past (h : 1048576 < reg s 0x48 + 4096) : exec .logRead s = .next (mboxTakes s 1 4) := by
  change execLogRead s = _
  rw [execLogRead, mboxCommand_of_idle hf hb, mboxArg0, if_pos h]
  rfl

/-- The bytes that a FLASH_WRITE brings to the slot: the data window, or anything where the flash fails. -/
def flashData (s : State) : List Byte :=
  bytesAt (fun i => if Config.flashFails s.choice then Config.freeByte 3 s.choice i else tblGet 0 s.mbox.window i) 0 4096

/-- The flash after a FLASH_WRITE: the inactive slot is another image. -/
def flashWritten (s : State) : Flash :=
  if s.flash.active % 2 = 0 then
    { s.flash with bytesB := fillTbl 0xFF s.flash.bytesB (reg s 0x48) (flashData s), imageB := openImage s.choice }
  else { s.flash with bytesA := fillTbl 0xFF s.flash.bytesA (reg s 0x48) (flashData s), imageA := openImage s.choice }

theorem exec_flashWrite (h : reg s 0x48 + 4096 ≤ 4194304) :
    exec .flashWrite s = .next (mboxTakes { s with choice := s.choice + 1, flash := flashWritten s } 2
      (if Config.flashFails s.choice then 3 else 0)) := by
  change execFlashWrite s = _
  rw [execFlashWrite, mboxCommand_of_idle hf hb, mboxArg0, if_neg (Nat.not_lt_of_le h)]
  rfl

theorem exec_flashWrite_past (h : 4194304 < reg s 0x48 + 4096) : exec .flashWrite s = .next (mboxTakes s 2 4) := by
  change execFlashWrite s = _
  rw [execFlashWrite, mboxCommand_of_idle hf hb, mboxArg0, if_pos h]
  rfl

/-- The slot that the header marks active once a FLASH_ACTIVATE has verified the inactive one. -/
def slotActivated (s : State) : Nat :=
  if !Config.flashFails s.choice || Config.raceWinner s.choice then 1 - s.flash.active % 2 else s.flash.active

theorem exec_flashActivate (h : accepts s (imageOf s (1 - s.flash.active % 2)) = true) :
    exec .flashActivate s = .next (mboxTakes
      { s with choice := s.choice + 1, flash := { s.flash with active := slotActivated s } } 3
      (if Config.flashFails s.choice then 3 else 0)) := by
  change execFlashActivate s = _
  rw [execFlashActivate, mboxCommand_of_idle hf hb, if_neg (by simp [h]), slotActivated]
  dsimp only
  split <;> rfl

theorem exec_flashActivate_refused (h : accepts s (imageOf s (1 - s.flash.active % 2)) = false) :
    exec .flashActivate s = .next (mboxTakes s 3 2) := by
  change execFlashActivate s = _
  rw [execFlashActivate, mboxCommand_of_idle hf hb, if_pos (by simp [h])]
  rfl

theorem exec_svnCommit (h : s.boot.recovery = false) :
    exec .svnCommit s = .next (mboxTakes { s with fuse := { s.fuse with svn := max s.fuse.svn s.boot.runSvn } } 5 0) := by
  change execSvnCommit s = _
  rw [execSvnCommit, mboxCommand_of_idle hf hb, if_neg (Bool.eq_false_iff.1 h)]
  rfl

theorem exec_svnCommit_recovery (h : s.boot.recovery = true) :
    exec .svnCommit s = .next (mboxTakes { s with choice := s.choice + 1 } 5 (Config.freeNat s.choice % 256)) := by
  change execSvnCommit s = _
  rw [execSvnCommit, mboxCommand_of_idle hf hb, if_pos h]
  rfl

theorem exec_mboxUnknown (code : Nat) : exec (.mboxUnknown code) s = .next (mboxTakes s code 1) := by
  change execMboxUnknown code s = _
  rw [execMboxUnknown, mboxCommand_of_idle hf hb]
  rfl

end

theorem exec_warmReset_busy (hb : mboxBusy s = true) : exec .warmReset s = .next (setFlag s 0) := by
  change execWarmReset s = _
  rw [execWarmReset, if_neg (by simp [hf]), if_pos hb]
  rfl

end

theorem flashData_of_write {s : State} (h : Config.flashFails s.choice = false) :
    flashData s = bytesAt (tblGet 0 s.mbox.window) 0 4096 := by
  simp [flashData, h]

theorem flashWritten_of_even {s : State} (h : s.flash.active % 2 = 0) :
    flashWritten s =
      { s.flash with bytesB := fillTbl 0xFF s.flash.bytesB (reg s 0x48) (flashData s), imageB := openImage s.choice } :=
  if_pos h

theorem flashWritten_of_odd {s : State} (h : s.flash.active % 2 = 1) :
    flashWritten s =
      { s.flash with bytesA := fillTbl 0xFF s.flash.bytesA (reg s 0x48) (flashData s), imageA := openImage s.choice } :=
  if_neg (by omega)

theorem slotActivated_of_write {s : State} (h : Config.flashFails s.choice = false) :
    slotActivated s = 1 - s.flash.active % 2 := by
  simp [slotActivated, h]

theorem slotActivated_cases (s : State) :
    slotActivated s = 1 - s.flash.active % 2 ∨ slotActivated s = s.flash.active := by
  unfold slotActivated
  split
  · exact .inl rfl
  · exact .inr rfl

theorem exec_mboxDone {s : State} (hb : s.mbox.busy = true) (hr : s.boot.restarting = false)
    (hz : s.boot.ezHalted = false) :
    exec .mboxDone s = .next { s with mbox := { s.mbox with busy := false, result := s.mbox.due } } := by
  change execMboxDone s = _
  rw [execMboxDone, if_neg (by simp [hb, hr, hz])]
  rfl

/-- Settles O16: the mailbox is BUSY or free; free, each row takes its command with the result of its check. -/
theorem mailboxCommandsPostTheirResult : Obligations.MailboxCommandsPostTheirResult := by
  unfold Obligations.MailboxCommandsPostTheirResult
  intro s hf
  refine ⟨fun hb => ?free, exec_mboxDone, fun hb code => ?busy⟩
  case free =>
    intro o post other
    refine ⟨exec_logRead hf hb, exec_logRead_past hf hb, fun h => ?write, exec_flashWrite_past hf hb, fun h => ?activate,
      exec_flashActivate_refused hf hb, exec_svnCommit hf hb, fun h => ⟨_, exec_svnCommit_recovery hf hb h⟩,
      exec_mboxUnknown hf hb⟩
    case write =>
      refine ⟨{ s with choice := s.choice + 1, flash := flashWritten s }, exec_flashWrite hf hb h, rfl, ?_⟩
      rcases Nat.mod_two_eq_zero_or_one s.flash.active with h0 | h1
      · rw [flashWritten_of_even h0]
        exact ⟨rfl, rfl, fun _ => ⟨rfl, rfl, rfl, fun hw => by rw [flashData_of_write hw]⟩, fun h1 => by omega⟩
      · rw [flashWritten_of_odd h1]
        exact ⟨rfl, rfl, fun h0 => by omega, fun _ => ⟨rfl, rfl, rfl, fun hw => by rw [flashData_of_write hw]⟩⟩
    case activate =>
      exact ⟨slotActivated s, exec_flashActivate hf hb h, slotActivated_of_write, fun _ => slotActivated_cases s⟩
  case busy =>
    have refuses (code : Nat) (f : State → State × Nat) : done (mboxCommand s code f) = .next (setFlag s 0) := by
      rw [mboxCommand_of_busy hf hb]; rfl
    exact ⟨refuses 1 _, refuses 2 _, refuses 3 _, refuses 5 _, exec_warmReset_busy hf hb, refuses code _⟩

end Sys2Proof.Proofs
end

section
/-! PROOFS. The warm resets (R98 to R100): what each keeps and clears, and how the references are judged anew. -/
namespace Sys2Proof.Proofs
open Sys2Proof.Machine Sys2Proof.Laws

/-! ### Tables -/

theorem mem_of_tblGet? {α : Type} {t : Tbl α} {i : Nat} {a : α} (h : tblGet? t i = some a) : (i, a) ∈ t := by
  induction t with
  | nil => simp [tblGet?] at h
  | cons e t ih =>
    obtain ⟨j, b⟩ := e
    rw [tblGet?] at h
    split at h
    next hij => rw [hij, ← Option.some.inj h]; exact List.mem_cons_self
    next => split at h
            next => exact nomatch h
            next => exact List.mem_cons_of_mem _ (ih h)

/-- Entries changed in place. -/
theorem tblGet?_map {α β : Type} (f : Nat → α → β) (t : Tbl α) (i : Nat) :
    tblGet? (t.map fun x => (x.1, f x.1 x.2)) i = (tblGet? t i).map (f i) := by
  induction t with
  | nil => rfl
  | cons e t ih =>
    obtain ⟨j, b⟩ := e
    simp only [List.map_cons, tblGet?]
    split
    next hij => rw [hij]; rfl
    next => split
            next => rfl
            next => exact ih

theorem tblGet_map {α β : Type} (d : β) (f : Nat → α → β) (t : Tbl α) (i : Nat) :
    tblGet d (t.map fun x => (x.1, f x.1 x.2)) i = ((tblGet? t i).map (f i)).getD d := by
  rw [tblGet, tblGet?_map]

/-! ### What is kept and what goes back -/

/-- What a warm reset keeps. -/
def WarmKept (s u : State) : Prop :=
  u.fuse = s.fuse ∧ u.flash = s.flash ∧ u.pending = s.pending ∧ u.retired = s.retired ∧ u.tap = s.tap
  ∧ u.etu.count = s.etu.count ∧ u.etu.state = s.etu.state ∧ u.etu.everLocked = s.etu.everLocked
  ∧ u.regs = warmRegs s ∧ u.fh.seq = s.fh.seq.map (fun e => (e.1, { e.2 with rxKnown := false }))
  ∧ u.err.log = s.err.log ∧ u.err.head = s.err.head
  ∧ u.boot.pwrok = s.boot.pwrok ∧ u.boot.fallback = s.boot.fallback
  ∧ u.mem.host = s.mem.host ∧ u.mem.peer = s.mem.peer

/-- What a warm reset clears. -/
def WarmGone (s u : State) : Prop :=
  u.boot.stage = 0 ∧ u.boot.fwUp = false ∧ u.boot.mapDone = false ∧ u.boot.ready = false ∧ u.boot.sealed = false
  ∧ u.mbox = {} ∧ u.feat = {} ∧ u.limits = [] ∧ u.ring = [] ∧ u.runs = [] ∧ u.ev.evc = [] ∧ u.col = [] ∧ u.mq = {}
  ∧ u.ce = {} ∧ u.cv = {} ∧ u.core = [] ∧ u.inst = [] ∧ u.pat = [] ∧ u.jd = [] ∧ u.fh.port = [] ∧ u.fh.carrier = []
  ∧ u.etu.trig = [] ∧ u.etu.cap = [] ∧ flag u 39 = true ∧ u.power.shed = 0 ∧ u.etu.forced = false
  ∧ (∀ n, (refOf u n).st = (refOf s n).st ∧ (refOf u n).dev = 0 ∧ (refOf u n).driftCnt = 0)
  ∧ (∀ a, hbmByte u a = Config.freeByte 1 (s.mem.hbmEpoch + 1) a)
  ∧ (∀ a, ssramByte u a = Config.freeByte 2 (s.mem.ssramEpoch + 1) a)

/-- A word without RWS bits and with reset value 0 is back at it after a warm reset. -/
theorem reg_warmRegs {s t : State} (ht : t.regs = warmRegs s) {off : Nat} (hw : (regSpec off).rws = 0)
    (hr : (regSpec off).reset = 0) : reg t off = 0 := by
  have hnone : tblGet? t.regs off = none := by
    rw [Option.eq_none_iff_forall_ne_some]
    intro w hg
    rw [ht] at hg
    obtain ⟨e, -, he⟩ := List.mem_filterMap.1 (mem_of_tblGet? hg)
    dsimp only at he
    have hzero : mergeMask 0 e.2.toNat 0 = 0 := by
      show Nat.land e.2.toNat 0 + Nat.land 0 _ = 0
      rw [show Nat.land e.2.toNat 0 = 0 from Nat.and_zero _, show Nat.land 0 _ = 0 from Nat.zero_and _]
    split at he
    · exact nomatch he
    next hne =>
      obtain ⟨rfl, -⟩ := Prod.mk.inj (Option.some.inj he)
      exact hne (by rw [hr, hw]; exact hzero)
  rw [reg, hnone]
  exact hr

/-- A flag whose request is not enabled and whose counter does not saturate only sets its bit and counts. -/
theorem setFlag_eq_bump {s : State} {id : Nat} (hi : irqEnabled s id = false) (hs : saturates s id = false) :
    setFlag s id = bump s id := by
  have hb : irqEnabled (bump s id) id = false := hi
  simp only [setFlag, requestRow, hb, hs, Bool.false_eq_true, if_false]

theorem refOf_warmEtu {s u : State} (h : u.etu = warmEtu s.etu) (n : Nat) :
    (refOf u n).st = (refOf s n).st ∧ (refOf u n).dev = 0 ∧ (refOf u n).driftCnt = 0 := by
  have hg : refOf u n = ((tblGet? s.etu.refs n).map fun x => { x with dev := 0, driftCnt := 0 }).getD {} := by
    rw [refOf, h]
    exact tblGet_map {} (fun _ x => ({ x with dev := 0, driftCnt := 0 } : RefIn)) s.etu.refs n
  rw [hg, refOf, tblGet]
  cases tblGet? s.etu.refs n <;> exact ⟨rfl, rfl, rfl⟩

/-- The warm reset of a device that is not halted, before the references are judged anew. -/
theorem warmReset_spec {s : State} (hh : s.boot.halted = false) :
    ∃ u, warmReset s = warmRefs u ∧ WarmKept s u ∧ WarmGone s u ∧ u.boot.perst = s.boot.perst
      ∧ u.link = { trained := s.link.trained, width := s.link.width, gts := s.link.gts }
      ∧ u.power.outputs = s.power.outputs := by
  refine ⟨_, by rw [warmReset, if_neg (Bool.eq_false_iff.1 hh)], ?_⟩
  rw [setFlag_eq_bump ?quiet rfl]
  case quiet =>
    rw [irqEnabled, reg_warmRegs (s := s) rfl rfl rfl]
    rfl
  exact ⟨⟨rfl, rfl, rfl, rfl, rfl, rfl, rfl, rfl, rfl, rfl, rfl, rfl, rfl, rfl, rfl, rfl⟩,
    ⟨rfl, rfl, rfl, rfl, rfl, rfl, rfl, rfl, rfl, rfl, rfl, rfl, rfl, rfl, rfl, rfl, rfl, rfl, rfl, rfl, rfl, rfl, rfl,
      flag_bump_same _ _, rfl, rfl, refOf_warmEtu rfl, fun _ => rfl, fun _ => rfl⟩, rfl, rfl, rfl⟩

/-! ### The references judged anew -/

/-- What a criterion reads besides the input's own table entry. -/
theorem refMeets_setRef (s : State) (m n : Nat) (x : RefIn) : refMeets (setRef s m x) n = refMeets s n := rfl

theorem refMeets_setFlag (s : State) (id n : Nat) : refMeets (setFlag s id) n = refMeets s n := by
  obtain ⟨f, o, e, l, shape⟩ := setFlag_shape s id
  rw [shape]; rfl

theorem refOf_setFlag (s : State) (id n : Nat) : refOf (setFlag s id) n = refOf s n := by
  obtain ⟨f, o, e, l, shape⟩ := setFlag_shape s id
  rw [shape]; rfl

@[simp] theorem refMeets_failRef (s : State) (m n : Nat) : refMeets (failRef s m) n = refMeets s n := by
  rw [failRef, refMeets_setFlag, refMeets_setRef]

/-- An input that failed is FAILED; the others stay. -/
theorem refOf_failRef (s : State) (m n : Nat) :
    refOf (failRef s m) n = if n = m then { refOf s m with st := 4, crit := false } else refOf s n := by
  have hne : ({ refOf s m with st := 4, crit := false } : RefIn) ≠ {} := fun h => nomatch congrArg RefIn.st h
  rw [failRef, refOf_setFlag, setRef, refOf, tblGet, tblSet, if_neg hne]
  split
  next h => rw [h, tblGet?_put_same, Option.getD_some]
  next h => rw [tblGet?_put_other _ _ h]; rfl

/-- Fail the input if it is QUALIFIED and its criterion does not hold. -/
def judgeRef (s : State) (n : Nat) : State := if refGood s n && !refMeets s n then failRef s n else s

/-- What judging the inputs of `l` does: the mode and the count stay, and of `l` only those that meet stay QUALIFIED. -/
structure Judged (l : List Nat) (s t : State) : Prop where
  state : t.etu.state = s.etu.state
  count : t.etu.count = s.etu.count
  live : etuLive t = etuLive s
  meets : ∀ n, refMeets t n = refMeets s n
  good : ∀ n, refGood t n = true → refGood s n = true ∧ (n ∈ l → refMeets s n = true)

theorem failRef_etu (s : State) (m : Nat) : (failRef s m).etu = (setRef s m { refOf s m with st := 4, crit := false }).etu := by
  obtain ⟨f, o, e, l, shape⟩ := setFlag_shape (setRef s m { refOf s m with st := 4, crit := false }) 37
  rw [failRef, shape]

theorem judgeRef_judged (s : State) (m : Nat) : Judged [m] s (judgeRef s m) := by
  unfold judgeRef
  split
  · refine ⟨by rw [failRef_etu]; rfl, by rw [failRef_etu]; rfl, by rw [etuLive, failRef_etu]; rfl,
      refMeets_failRef s m, fun n hn => ?_⟩
    simp only [refGood, Bool.and_eq_true, decide_eq_true_eq, refOf_failRef] at hn ⊢
    split at hn
    · exact absurd hn.2 (by simp)
    · exact ⟨hn, fun h => absurd (List.mem_singleton.1 h) ‹_›⟩
  next h =>
    refine ⟨rfl, rfl, rfl, fun _ => rfl, fun n hn => ⟨hn, fun hm => ?_⟩⟩
    rw [List.mem_singleton.1 hm] at hn ⊢
    simpa [hn] using h

theorem Judged.trans {l m : List Nat} {s t u : State} (h : Judged l s t) (k : Judged m t u) : Judged (l ++ m) s u where
  state := k.state.trans h.state
  count := k.count.trans h.count
  live := k.live.trans h.live
  meets n := (k.meets n).trans (h.meets n)
  good n hn := by
    obtain ⟨ht, hm⟩ := k.good n hn
    obtain ⟨hs, hl⟩ := h.good n ht
    exact ⟨hs, fun hmem => (List.mem_append.1 hmem).elim hl fun hx => h.meets n ▸ hm hx⟩

theorem foldl_judgeRef (l : List Nat) (s : State) : Judged l s (l.foldl judgeRef s) := by
  induction l generalizing s with
  | nil => exact ⟨rfl, rfl, rfl, fun _ => rfl, fun _ hn => ⟨hn, fun h => nomatch h⟩⟩
  | cons m l ih => exact (judgeRef_judged s m).trans (ih _)

theorem refsRecheck_eq (s : State) : refsRecheck s =
    if etuLive s && (List.range 6).any (fun n => refGood s n && !refMeets s n) then
      settleEtu ((List.range 6).foldl judgeRef s) else s := rfl

/-! ### The ETU without a reference -/

section
variable {s : State} (hg : ∀ n, refGood s n = false)
include hg

theorem nextRef_of_none (role : Nat) : nextRef s role = 7 := by
  have hb : bestRef s role = none := by simp [bestRef, hg]
  simp [nextRef, hb, hg]

omit hg in
theorem setSel_time_seven (s : State) :
    ∃ b c, setSel s 0 7 = { s with etu := { s.etu with timeSel := 7, buildOut := b }, choice := c } := by
  by_cases h : 7 = s.etu.timeSel
  · exact ⟨s.etu.buildOut, s.choice, (if_pos h).trans (by rw [h])⟩
  · exact ⟨_, _, (if_neg h).trans rfl⟩

omit hg in
theorem setSel_freq_seven (s : State) :
    ∃ b c, setSel s 1 7 = { s with etu := { s.etu with freqSel := 7, buildOut := b }, choice := c } := by
  by_cases h : 7 = s.etu.freqSel
  · exact ⟨s.etu.buildOut, s.choice, (if_pos h).trans (by rw [h])⟩
  · exact ⟨_, _, (if_neg h).trans rfl⟩

/-- Without a QUALIFIED input no reference is selected. -/
theorem selectRefs_of_none :
    ∃ b c, selectRefs s = { s with etu := { s.etu with timeSel := 7, freqSel := 7, buildOut := b }, choice := c } := by
  obtain ⟨b, c, ht⟩ := setSel_time_seven s
  obtain ⟨b', c', hf⟩ := setSel_freq_seven (setSel s 0 7)
  have hg' (n : Nat) : refGood (setSel s 0 7) n = false := by rw [ht]; exact hg n
  unfold selectRefs
  simp only [nextRef_of_none hg, nextRef_of_none hg']
  rw [hf, ht]
  exact ⟨_, _, rfl⟩

/-- An ETU in LOCKED goes to HOLDOVER with its count. -/
theorem settleEtu_of_none (hl : etuLive s = true) (h2 : s.etu.state = 2) :
    (settleEtu s).etu.state = 3 ∧ (settleEtu s).etu.count = s.etu.count := by
  obtain ⟨b, c, hsel⟩ := selectRefs_of_none hg
  have hnot : refsReady (selectRefs s) = false := by
    rw [hsel, refsReady]
    exact Bool.and_eq_false_imp.2 fun h => nomatch h
  have hst : (selectRefs s).etu.state = 2 := by rw [hsel]; exact h2
  have hcount : (selectRefs s).etu.count = s.etu.count := by rw [hsel]
  simp only [settleEtu, hl, if_true, hnot, hst, updateFloor_etu, settleRadio_etu, enterHoldover, arrive_etu]
  obtain ⟨f, o, e, l, shape⟩ := setFlag_shape
    { selectRefs s with etu := { (selectRefs s).etu with state := 3, pulling := false, stepWait := false } } 34
  rw [shape]
  exact ⟨rfl, hcount⟩

end

/-- The state whose references `warmRefs` judges: the criteria are those that hold now. -/
def warmCriteria (u : State) : State :=
  { u with etu := { u.etu with refs := u.etu.refs.map fun x => (x.1, { x.2 with crit := x.2.crit && refMeets u x.1 }) } }

theorem warmRefs_eq (u : State) : warmRefs u = refsRecheck (warmCriteria u) := rfl

theorem refMeets_warmCriteria (u : State) (n : Nat) : refMeets (warmCriteria u) n = refMeets u n := rfl

theorem refGood_warmCriteria (u : State) (n : Nat) : refGood (warmCriteria u) n = (n < 6 && (refOf u n).st = 2 : Bool) := by
  have hst : (refOf (warmCriteria u) n).st = (refOf u n).st := by
    have hg : refOf (warmCriteria u) n =
        ((tblGet? u.etu.refs n).map fun x => { x with crit := x.crit && refMeets u n }).getD {} :=
      tblGet_map ({} : RefIn) (fun (n : Nat) (x : RefIn) => ({ x with crit := x.crit && refMeets u n } : RefIn)) u.etu.refs n
    rw [hg, refOf, tblGet]
    cases tblGet? u.etu.refs n <;> rfl
  rw [refGood, hst]

/-- With every QUALIFIED input meeting its criterion nothing else changes. -/
theorem warmRefs_of_meets {u : State} (h : ∀ n, n < 6 → (refOf u n).st = 2 → refMeets u n = true) :
    warmRefs u = warmCriteria u := by
  rw [warmRefs_eq, refsRecheck_eq, if_neg]
  simp only [refGood_warmCriteria, refMeets_warmCriteria, Bool.and_eq_true, List.any_eq_true, not_and, not_exists]
  intro _ n _ ⟨hn, hst⟩
  simp only [decide_eq_true_eq] at hn hst
  simp [h n hn hst]

/-- With none meeting it, and one QUALIFIED, a locked ETU goes to HOLDOVER. -/
theorem warmRefs_of_misses {u : State} (hl : etuLive u = true) (h2 : u.etu.state = 2)
    (h : ∀ n, n < 6 → (refOf u n).st = 2 → refMeets u n = false) (hex : ∃ n, n < 6 ∧ (refOf u n).st = 2) :
    (warmRefs u).etu.state = 3 ∧ (warmRefs u).etu.count = u.etu.count := by
  have hjudged := foldl_judgeRef (List.range 6) (warmCriteria u)
  have hnone (n : Nat) : refGood ((List.range 6).foldl judgeRef (warmCriteria u)) n = false := by
    rw [Bool.eq_false_iff]
    intro hn
    obtain ⟨hgood, hmeets⟩ := hjudged.good n hn
    rw [refGood_warmCriteria, Bool.and_eq_true, decide_eq_true_eq, decide_eq_true_eq] at hgood
    have hm : refMeets u n = true := hmeets (List.mem_range.2 hgood.1)
    rw [h n hgood.1 hgood.2] at hm
    exact nomatch hm
  have hany : (etuLive (warmCriteria u) &&
      (List.range 6).any fun n => refGood (warmCriteria u) n && !refMeets (warmCriteria u) n) = true := by
    obtain ⟨n, hn, hst⟩ := hex
    have hlive : etuLive (warmCriteria u) = true := hl
    rw [hlive, Bool.true_and, List.any_eq_true]
    exact ⟨n, List.mem_range.2 hn, by simp [refGood_warmCriteria, refMeets_warmCriteria, hn, hst, h n hn hst]⟩
  rw [warmRefs_eq, refsRecheck_eq, if_pos hany]
  obtain ⟨hstate, hcount⟩ := settleEtu_of_none hnone (hjudged.live.trans hl) (hjudged.state.trans h2)
  exact ⟨hstate, hcount.trans hjudged.count⟩

/-! ### The rows -/

theorem exec_perstAssert_of_powered {s : State} (hp : s.boot.pwrok = true) :
    exec .perstAssert s = .next (warmReset (portOff { s with boot := { s.boot with perst := true } })) := by
  change execPerstAssert s = _
  exact congrArg Host.Outcome.next (if_pos hp)

/-- Without PWROK, or on a halted device, the host port goes off and no more. -/
theorem exec_perstAssert_of_idle {s : State} (h : s.boot.pwrok = false ∨ s.boot.halted = true) :
    exec .perstAssert s = .next (portOff { s with boot := { s.boot with perst := true } }) := by
  cases hp : s.boot.pwrok with
  | false => exact congrArg Host.Outcome.next (if_neg (Bool.eq_false_iff.1 hp))
  | true =>
    have hh : s.boot.halted = true := h.resolve_left (by simp [hp])
    rw [exec_perstAssert_of_powered hp, warmReset]
    exact congrArg Host.Outcome.next (if_pos hh)

theorem exec_dlDown {s : State} : exec .dlDown s = .next (if s.link.trained then warmReset (linkOff s) else s) := rfl

theorem exec_pfFlr {s : State} :
    exec .pfFlr s = .next (if s.link.trained && s.boot.fwUp then warmReset s else s) := rfl

theorem exec_warmReset {s : State} :
    exec .warmReset s = .next (if !s.boot.fwUp then s else if mboxBusy s then setFlag s 0 else warmReset s) := rfl

/-- Settles O13: the four rows run `warmReset`, whose state before `warmRefs` is `warmReset_spec`'s. -/
theorem warmResetsKeepCountAndMap : Obligations.WarmResetsKeepCountAndMap := by
  unfold Obligations.WarmResetsKeepCountAndMap
  refine ⟨fun s hh => ?reset, fun s => exec_perstAssert_of_idle, fun s ht => ?untrained, fun s hf => ?early,
    fun u => warmRefs_of_meets, fun u => warmRefs_of_misses⟩
  case reset =>
    intro kept gone
    refine ⟨fun hp => ?perst, fun ht => ?dl, fun c hc hf => ?own⟩
    case perst =>
      obtain ⟨u, hu, hk, hg, hperst, hlink, hout⟩ :=
        warmReset_spec (s := portOff { s with boot := { s.boot with perst := true } }) hh
      exact ⟨u, by rw [exec_perstAssert_of_powered hp, hu], hk, hg, hperst, hlink, hout⟩
    case dl =>
      obtain ⟨u, hu, hk, hg, hperst, hlink, hout⟩ := warmReset_spec (s := linkOff s) hh
      exact ⟨u, by rw [exec_dlDown, if_pos ht, hu], hk, hg, hperst, hlink, hout⟩
    case own =>
      obtain ⟨u, hu, spec⟩ := warmReset_spec hh
      refine ⟨u, ?_, spec⟩
      rcases hc with ⟨rfl, ht⟩ | ⟨rfl, hb⟩
      · rw [exec_pfFlr, if_pos (by simp [ht, hf]), hu]
      · rw [exec_warmReset, if_neg (by simp [hf]), if_neg (Bool.eq_false_iff.1 hb), hu]
  case untrained =>
    exact ⟨by rw [exec_dlDown, if_neg (Bool.eq_false_iff.1 ht)], by rw [exec_pfFlr, if_neg (by simp [ht])]⟩
  case early =>
    exact ⟨by rw [exec_pfFlr, if_neg (by simp [hf])], by rw [exec_warmReset, if_pos (by simp [hf])]⟩

end Sys2Proof.Proofs
end

section
/-! PROOFS. The seal (R131), register writes (R7, R8, R425, R427), flags (R203, R204), and reads and clears that software
makes (R201, R202, R204). -/
namespace Sys2Proof.Proofs
open Sys2Proof.Machine Sys2Proof.Laws

/-! ### The seal -/

/-- Why bit `b` of FEAT_ACCEPT refuses the seal. -/
def sealCheck (s : State) (b : Nat) : Option (Nat × Nat) :=
  if !accepted s b then none
  else if !s.feat.offer.getLsbD b then some (3, b)
  else match featNeeds b with
  | some n => if accepted s n then none else some (4, b)
  | none => none

/-- The first index that answers, in a range. -/
theorem findSome?_range_of_first {α : Type} {f : Nat → Option α} {b n : Nat} {x : α} (hb : b < n) (hx : f b = some x)
    (hbelow : ∀ k < b, f k = none) : (List.range n).findSome? f = some x := by
  obtain ⟨m, rfl⟩ := Nat.exists_eq_add_of_lt hb
  have hnone : (List.range b).findSome? f = none := List.findSome?_eq_none_iff.2 fun k hk => hbelow k (List.mem_range.1 hk)
  rw [Nat.add_assoc, List.range_add, List.findSome?_append, hnone, Option.none_or, List.range_succ_eq_map]
  simp [hx]

section
variable {s : State} (hf : s.boot.fwUp = true) (hr : s.boot.recovery = false)
include hf hr

theorem servedIo_of_fwUp : servedIo s = true := by simp [servedIo, hf, hr]

omit hf hr in
theorem exec_seal_sealed (hs : s.boot.sealed = true) : exec .seal s = .next s := by
  change execSeal s = _
  rw [execSeal, if_pos (by simp [hs])]
  rfl

theorem exec_seal_early (hs : s.boot.sealed = false) (hn : s.boot.ready = false) :
    exec .seal s = .next { s with feat := { s.feat with code := 2, badBit := 0 } } := by
  change execSeal s = _
  rw [execSeal, if_neg (by simp [servedIo_of_fwUp hf hr, hs]), if_pos (by simp [hn])]
  rfl

theorem exec_seal_refused (hs : s.boot.sealed = false) (hn : s.boot.ready = true) {b c : Nat}
    (h : sealRefusal s = some (c, b)) :
    exec .seal s = .next { s with feat := { s.feat with code := c, badBit := b } } := by
  change execSeal s = _
  rw [execSeal, if_neg (by simp [servedIo_of_fwUp hf hr, hs]), if_neg (by simp [hn]), h]
  rfl

theorem exec_seal_accepted (hs : s.boot.sealed = false) (hn : s.boot.ready = true) (h : sealRefusal s = none) :
    exec .seal s = .next
      { s with feat := { s.feat with code := 1, badBit := 0 }, boot := { s.boot with sealed := true } } := by
  change execSeal s = _
  rw [execSeal, if_neg (by simp [servedIo_of_fwUp hf hr, hs]), if_neg (by simp [hn]), h]
  rfl

end

/-- Bit 3 alone needs another bit, bit 2 (R130). -/
theorem sealCheck_eq_some_iff (s : State) (b c : Nat) : sealCheck s b = some (c, b) ↔
    accepted s b = true ∧ ((s.feat.offer.getLsbD b = false ∧ c = 3)
      ∨ (s.feat.offer.getLsbD b = true ∧ b = 3 ∧ accepted s 2 = false ∧ c = 4)) := by
  unfold sealCheck featNeeds
  cases accepted s b with
  | false => simp
  | true =>
    cases s.feat.offer.getLsbD b with
    | false => simp [eq_comm (b := c)]
    | true =>
      by_cases h3 : b = 3
      · cases h2 : accepted s 2 <;> simp [h3, h2, eq_comm (b := c)]
      · simp [h3]

theorem sealCheck_eq_none_or_bit (s : State) (b : Nat) : sealCheck s b = none ∨ ∃ c, sealCheck s b = some (c, b) := by
  unfold sealCheck featNeeds
  cases accepted s b with
  | false => simp
  | true =>
    cases s.feat.offer.getLsbD b with
    | false => simp
    | true =>
      by_cases h3 : b = 3
      · cases accepted s 2 <;> simp [h3]
      · simp [h3]

/-- Settles O20: a seal that is evaluated takes the first bit that refuses it. -/
theorem sealIsEvaluatedInOrder : Obligations.SealIsEvaluatedInOrder := by
  unfold Obligations.SealIsEvaluatedInOrder
  intro s hf hr acc bad
  have hbad (b c : Nat) : sealCheck s b = some (c, b) ↔ bad b c := sealCheck_eq_some_iff s b c
  have hcheck {b : Nat} (h : ∀ c, ¬ bad b c) : sealCheck s b = none :=
    (sealCheck_eq_none_or_bit s b).resolve_right fun ⟨c, hc⟩ => h c ((hbad b c).1 hc)
  refine ⟨exec_seal_sealed, exec_seal_early hf hr, fun hs hn b c hb hbc hfirst => ?_, fun hs hn hall => ?_⟩
  · exact exec_seal_refused hf hr hs hn
      (findSome?_range_of_first hb ((hbad b c).2 hbc) fun k hk => hcheck (hfirst k hk))
  · exact exec_seal_accepted hf hr hs hn
      (List.findSome?_eq_none_iff.2 fun k hk => hcheck (hall k (List.mem_range.1 hk)))

/-! ### Register writes -/

section
variable {off : Nat}

theorem byWords_four (f : State → Nat → Nat → State) (bad : State) (val : W64) (s : State) (h : off % 4 = 0) :
    byWords f bad off 4 val s = f s off (val.toNat % 2 ^ 32) := by
  simp [byWords, h]

theorem byWords_eight (f : State → Nat → Nat → State) (bad : State) (val : W64) (s : State) (h : off % 8 = 0) :
    byWords f bad off 8 val s = f (f s off (val.toNat % 2 ^ 32)) (off + 4) (val.toNat / 2 ^ 32) := by
  simp [byWords, h]

theorem byWords_bad (f : State → Nat → Nat → State) (bad : State) {size : Nat} (val : W64) (s : State)
    (h4 : size ≠ 4 ∨ off % 4 ≠ 0) (h8 : size ≠ 8 ∨ off % 8 ≠ 0) : byWords f bad off size val s = bad := by
  rw [byWords, if_neg (by simpa [imp_iff_not_or] using h4), if_neg (by simpa [imp_iff_not_or] using h8)]

theorem exec_registerWrite_setup {s : State} (ho : off < 0x200000) (hb : blockAnswers s off = true) (size : Nat)
    (val : W64) : exec (.registerWrite (.setup off) size val) s =
      .next (byWords writeWord (setFlag s 3) off size val s) :=
  congrArg Host.Outcome.next (if_neg (by simp [ho, hb]))

theorem exec_registerWrite_elsewhere {s : State} (h : 0x200000 ≤ off ∨ blockAnswers s off = false) (size : Nat)
    (val : W64) : exec (.registerWrite (.setup off) size val) s = .next s :=
  congrArg Host.Outcome.next (if_pos (by simpa using h))

end

/-- A masked write of all 32 bits is a store. -/
theorem mergeMask_all {old v : Nat} (hv : v < 2 ^ 32) : mergeMask old v 0xFFFFFFFF = v := by
  have hand : Nat.land v 0xFFFFFFFF = v := Nat.and_two_pow_sub_one_of_lt_two_pow hv
  have hzero : Nat.land old 0 = 0 := Nat.and_zero old
  rw [mergeMask, hand]
  exact (congrArg (v + ·) hzero).trans (Nat.add_zero v)

/-- The four words of FEAT_ACCEPT: no special action, not split, every bit RWL. -/
theorem writeWord_accept (s : State) {i : Nat} (hi : i < 4) (v : Nat) :
    writeWord s (0x10010 + 4 * i) v = mergeReg s (0x10010 + 4 * i) v := by
  match i, hi with
  | 0, _ | 1, _ | 2, _ | 3, _ => rfl

theorem regSpec_accept {i : Nat} (hi : i < 4) : regSpec (0x10010 + 4 * i) = rwlReg 0xFFFFFFFF 0 := by
  match i, hi with
  | 0, _ | 1, _ | 2, _ | 3, _ => rfl

theorem mergeReg_accept (s : State) {i : Nat} (hi : i < 4) {v : Nat} (hv : v < 2 ^ 32) :
    mergeReg s (0x10010 + 4 * i) v = if s.boot.sealed then s else putReg s (0x10010 + 4 * i) v := by
  simp only [mergeReg, regSpec_accept hi]
  cases s.boot.sealed with
  | true => rfl
  | false => exact (if_neg (by decide)).trans (by rw [show (rwlReg 0xFFFFFFFF 0).rw = 0xFFFFFFFF from rfl]; rw [if_neg (by decide), mergeMask_all hv]; rfl)

theorem putReg_regs (s : State) (off w : Nat) : putReg s off w = { s with regs := (putReg s off w).regs } := rfl

/-- Settles O21: by the window, then by size and alignment. -/
theorem registerWritesAreAlignedWords : Obligations.RegisterWritesAreAlignedWords := by
  unfold Obligations.RegisterWritesAreAlignedWords
  refine ⟨fun s off val ho hb => ?setup, fun s off size val h => exec_registerWrite_elsewhere h size val,
    fun s fn off val w f hw => ?page⟩
  case setup =>
    refine ⟨fun h4 => ?_, fun h8 => ?_, fun size h4 h8 => ?_, fun i hi hoff hwf => ?_⟩
    · rw [exec_registerWrite_setup ho hb, byWords_four _ _ _ _ h4]
    · rw [exec_registerWrite_setup ho hb, byWords_eight _ _ _ _ h8]
    · rw [exec_registerWrite_setup ho hb, byWords_bad _ _ _ _ h4 h8]
    · have hv : val.toNat % 2 ^ 32 < 2 ^ 32 := Nat.mod_lt _ (by norm_num)
      rw [exec_registerWrite_setup ho hb, byWords_four _ _ _ _ (by omega), hoff, writeWord_accept s hi,
        mergeReg_accept s hi hv]
      cases hs : s.boot.sealed with
      | true => exact ⟨s, rfl, rfl, fun _ => rfl, fun h => (nomatch h), fun _ _ => rfl⟩
      | false =>
        exact ⟨_, rfl, putReg_regs s _ _, fun h => (nomatch h), fun _ => reg_putReg_same hwf _ _ hv,
          fun k hk => reg_putReg_other hwf _ hk⟩
  case page =>
    have habsent (h : s.boot.fwUp = false ∨ fnExists s fn = false) : (!s.boot.fwUp || !fnExists s fn) = true := by
      simpa using h
    have hserved (hf : s.boot.fwUp = true) (he : fnExists s fn = true) : ¬ (!s.boot.fwUp || !fnExists s fn) = true := by
      simp [hf, he]
    have hwords (size : Nat) (hf : s.boot.fwUp = true) (he : fnExists s fn = true) :
        exec (.registerWrite w size val) s = .next (byWords f s off size val s) := by
      rcases hw with ⟨rfl, rfl⟩ | ⟨rfl, rfl⟩ <;> exact congrArg Host.Outcome.next (if_neg (hserved hf he))
    refine ⟨fun h size => ?_, fun hf he => ⟨fun h4 => ?_, fun h8 => ?_, fun size h4 h8 => ?_⟩⟩
    · rcases hw with ⟨rfl, rfl⟩ | ⟨rfl, rfl⟩ <;> exact congrArg Host.Outcome.next (if_pos (habsent h))
    · rw [hwords 4 hf he, byWords_four _ _ _ _ h4]
    · rw [hwords 8 hf he, byWords_eight _ _ _ _ h8]
    · rw [hwords size hf he, byWords_bad _ _ _ _ h4 h8]

/-! ### Setting a flag -/

/-- A state whose counter of flag 0 already lies above 0xFFFF, which the type allows. -/
def overfullCounter : State := { occ := [(0, 0x10000)] }

/-- Setting the flag limits that counter to 0xFFFF. -/
theorem occ_setFlag_overfull : tblGet 0 (setFlag overfullCounter 0).occ 0 = 0xFFFF := by decide

/-- Refutes O22: a counter above 0xFFFF, which no invariant of the statement excludes, does not stay but falls to
0xFFFF. -/
theorem not_flagSetCountsAndKeepsTheRest : ¬ Obligations.FlagSetCountsAndKeepsTheRest := by
  unfold Obligations.FlagSetCountsAndKeepsTheRest
  intro h
  obtain ⟨-, hcount, -⟩ := h overfullCounter 0 (by decide) (by decide)
  have hkept : tblGet 0 (setFlag overfullCounter 0).occ 0 = 0x10000 := hcount
  rw [occ_setFlag_overfull] at hkept
  exact absurd hkept (by decide)

/-! ### Reads that latch -/

/-- Settles O23: each of the four rows, for a block that answers and an index in range. -/
theorem latchingReadsReturnTheirWord : Obligations.LatchingReadsReturnTheirWord := by
  unfold Obligations.LatchingReadsReturnTheirWord
  intro s hs
  refine ⟨?_, fun n hn => ?_, fun k hk hu => ?_, fun n t rest hn hq => ?_⟩
  · exact congrArg Host.Outcome.next (if_neg (by simp [hs]))
  · exact congrArg Host.Outcome.next (if_neg (by simp [hs, hn]))
  · exact congrArg Host.Outcome.next (if_neg (by simp [hs, hk, hu]))
  · change execCapRead n s = _
    rw [execCapRead, if_neg (by simp [hs, hn]), hq]
    rfl

/-! ### Clears and event counters -/

section
variable {s : State} (hs : served s = true)
include hs

theorem exec_occClr {id : Nat} (h : id < 4096) : exec (.occClr id) s = .next { s with occ := tblDel s.occ id } :=
  (congrArg Host.Outcome.next (if_pos (by simp [hs, h]))).trans (by rw [tblSet, if_pos rfl])

theorem exec_occClrRow {id : Nat} (h : id < 4096) :
    exec (.occClrRow id) s = .next { s with occ := dropRange s.occ (id / 32 * 32) 32 } :=
  congrArg Host.Outcome.next (if_pos (by simp [hs, h]))

theorem exec_hostevAdd {n : Nat} (h : n < 4096) :
    exec (.hostevAdd n) s = .next (evcAdd s n (BitVec.ofNat 32 (reg s 0x30000))) :=
  congrArg Host.Outcome.next (if_pos (by simp [hs, h]))

theorem exec_hostevSet {n : Nat} (h : n < 4096) (adds : List W32) :
    exec (.hostevSet n adds) s = .next (evcSet s n (BitVec.ofNat 32 (reg s 0x30000)) adds) :=
  congrArg Host.Outcome.next (if_pos (by simp [hs, h]))

end

/-- What a row of 32 leaves of a table. -/
theorem mem_dropRange_row {α : Type} (t : Tbl α) (id : Nat) (e : Nat × α) :
    e ∈ dropRange t (id / 32 * 32) 32 ↔ e ∈ t ∧ e.1 / 32 ≠ id / 32 := by
  have harith : (¬ (id / 32 * 32 ≤ e.1 ∧ e.1 < id / 32 * 32 + 32)) ↔ e.1 / 32 ≠ id / 32 := by omega
  rw [← harith]
  simp only [dropRange, List.mem_filter, Bool.not_eq_true', Bool.and_eq_false_iff, decide_eq_false_iff_not, not_and_or]

theorem evcAdd_frozen {s : State} {n : Nat} (h : (evc s n).frozen = true) (v : W32) : evcAdd s n v = s := if_pos h

theorem evcAdd_running {s : State} {n : Nat} (h : (evc s n).frozen = false) (v : W32) :
    evcAdd s n v = setEvc s n { evc s n with val := (evc s n).val + v } :=
  if_neg (Bool.eq_false_iff.1 h)

/-- Settles O24: each row, for blocks that answer and an index in range. -/
theorem hostClearsAndSetsCounters : Obligations.HostClearsAndSetsCounters := by
  unfold Obligations.HostClearsAndSetsCounters
  intro s hs
  refine ⟨fun n hn => ?_, fun id hid hw => ?_, fun id hid => ?_, fun n hn => ?add, fun n adds hn hw => ?set⟩
  · exact congrArg Host.Outcome.next (if_pos (by simp [hs, hn]))
  · exact ⟨_, exec_occClr hs hid, tblGet?_del_same hw id, fun k hk => tblGet?_del_other hw hk⟩
  · exact ⟨_, exec_occClrRow hs hid, mem_dropRange_row s.occ id⟩
  case add =>
    refine ⟨_, exec_hostevAdd hs hn, ?_, fun h => evcAdd_frozen h _, fun h hw => ?_⟩
    · obtain ⟨e, he⟩ := reg_evcAdd s n (BitVec.ofNat 32 (reg s 0x30000))
      rw [he]
    · rw [evcAdd_running h]
      exact ⟨evc_same s n _ hw, fun k hk => evc_other s n k _ hw hk⟩
  case set =>
    exact ⟨_, exec_hostevSet hs hn adds, rfl, evc_same s n _ hw, fun k hk => evc_other s n k _ hw hk⟩

end Sys2Proof.Proofs
end

section
/-! PROOFS. The reference inputs (R34 to R37) and the modes of the ETU (R31, R32, R38, R52). -/
namespace Sys2Proof.Proofs
open Sys2Proof.Machine Sys2Proof.Laws

/-! ### What a lost or met criterion does -/

section
variable {s : State} {n : Nat}

theorem loseRef_qualified (h : (refOf s n).st = 2) : loseRef s n = settleEtu (failRef s n) := if_pos h

theorem loseRef_disabled (h : (refOf s n).st = 0) : loseRef s n = s := by
  rw [loseRef, if_neg (by omega), if_pos h]

theorem loseRef_other (h0 : (refOf s n).st ≠ 0) (h2 : (refOf s n).st ≠ 2) :
    loseRef s n = setRef s n { refOf s n with crit := false } := by
  rw [loseRef, if_neg h2, if_neg h0]

/-! ### What a criterion asks for -/

theorem refMeets_enabled (h : refMeets s n = true) : bitAt (refCfg s n) 0 = true := by
  unfold refMeets refSignal at h
  exact (Bool.and_eq_true_iff.1 (Bool.and_eq_true_iff.1 h).1).1

theorem refMeets_ptp (h : refMeets s 0 = true) :
    bitAt (refCfg s 0) 1 = true ∧ 8 ≤ (s.etu.meas.filter fun m => s.sclk ≤ m.1 + 100000000).length := by
  obtain ⟨hsig, hptp⟩ := Bool.and_eq_true_iff.1 h
  have hlen : 8 ≤ (measIn s 100000000).length := by
    unfold ptpMeets at hptp
    exact of_decide_eq_true (Bool.and_eq_true_iff.1 hptp).1
  exact ⟨(Bool.and_eq_true_iff.1 hsig).2, by simpa [measIn] using hlen⟩

theorem refMeets_pps (h : refMeets s 1 = true) :
    ∃ c sec, s.etu.ppsAt = some c ∧ s.etu.ppsSec = some sec ∧ now s - c.toNat ≤ 2 * 1966080000 + 200 := by
  have hpps : ppsMeets s = true := (Bool.and_eq_true_iff.1 h).2
  unfold ppsMeets at hpps
  split at hpps
  next c sec hc hsec => exact ⟨c, sec, hc, hsec, of_decide_eq_true (Bool.and_eq_true_iff.1 hpps).1⟩
  next => exact nomatch hpps

theorem refMeets_syncE (hn : n = 2 ∨ n = 3) (h : refMeets s n = true) :
    portState s (bits (refCfg s n) 19 16) ≠ 0 ∧ (tblGet {} s.fh.esmc (bits (refCfg s n) 19 16)).ql ≠ 15
    ∧ ∃ t, (tblGet {} s.fh.esmc (bits (refCfg s n) 19 16)).at_ = some t ∧ s.sclk ≤ t + 500000000 := by
  obtain ⟨hsig, hesmc⟩ := Bool.and_eq_true_iff.1 h
  have hport : portState s (bits (refCfg s n) 19 16) ≠ 0 := by
    unfold refSignal at hsig
    rcases hn with rfl | rfl <;> exact of_decide_eq_true (Bool.and_eq_true_iff.1 hsig).2
  have hquality : esmcMeets s n = true := by rcases hn with rfl | rfl <;> exact hesmc
  unfold esmcMeets at hquality
  obtain ⟨hat, hql⟩ := Bool.and_eq_true_iff.1 hquality
  obtain ⟨t, ht, hfresh⟩ := (Option.any_eq_true _ _).1 hat
  exact ⟨hport, of_decide_eq_true hql, t, ht, of_decide_eq_true hfresh⟩

end

/-! ### The rows of the inputs -/

section
variable {s : State} {n : Nat} (hn : n < 6) (hl : etuLive s = true)
include hn hl

theorem exec_refQualified (h1 : (refOf s n).st = 1) (hc : (refOf s n).crit = true) (hm : refMeets s n = true)
    (ht : (refOf s n).since + bits (refCfg s n) 31 24 * 100000000 ≤ s.sclk) :
    exec (.refQualified n) s = .next (settleEtu (setRef s n { refOf s n with st := 2 })) :=
  congrArg Host.Outcome.next (if_pos (by simp [hn, hl, h1, hc, hm, qualCycles, ht]))

omit hn hl in
theorem exec_refQualified_idle (h : (refOf s n).st ≠ 1 ∨ (refOf s n).crit = false ∨ refMeets s n = false
    ∨ s.sclk < (refOf s n).since + bits (refCfg s n) 31 24 * 100000000) : exec (.refQualified n) s = .next s := by
  refine congrArg Host.Outcome.next (if_neg ?_)
  simp only [Bool.and_eq_true, decide_eq_true_eq, qualCycles]
  rintro ⟨⟨⟨⟨⟨-, h1⟩, hc⟩, hm⟩, ht⟩, -⟩
  rcases h with h | h | h | h
  · exact h h1
  · rw [hc] at h; exact nomatch h
  · rw [hm] at h; exact nomatch h
  · exact Nat.not_le_of_lt h (of_decide_eq_true ht)

theorem exec_refCriterionLost (h : 2 ≤ n ∨ refMeets s n = false) :
    exec (.refCriterionLost n) s = .next (loseRef s n) := by
  refine congrArg Host.Outcome.next (if_neg ?_)
  rcases h with h | h
  · simp [hl]; omega
  · simp [hl, h]; omega

omit hn hl in
theorem exec_refCriterionLost_stands (h2 : n < 2) (hm : refMeets s n = true) : exec (.refCriterionLost n) s = .next s :=
  congrArg Host.Outcome.next (if_pos (by simp [h2, hm]))

theorem exec_refCriterionMet (h0 : (refOf s n).st ≠ 0) (hm : refMeets s n = true) :
    exec (.refCriterionMet n) s = .next (meetRef s n) :=
  congrArg Host.Outcome.next (if_neg (by simp [hl, h0, hm, hn]))

omit hn hl in
theorem exec_refCriterionMet_idle (h : (refOf s n).st = 0 ∨ refMeets s n = false) :
    exec (.refCriterionMet n) s = .next s :=
  congrArg Host.Outcome.next (if_pos (by rcases h with h | h <;> simp [h]))

theorem exec_clearSuspect (hs : served s = true) (h3 : (refOf s n).st = 3) :
    exec (.clearSuspect n) s = .next (setRef s n { refOf s n with st := 1, since := s.sclk }) :=
  congrArg Host.Outcome.next (if_pos (by simp [hs, hn, hl, h3]))

theorem exec_refCfgWrite (hs : served s = true) (val : W32) :
    exec (.refCfgWrite n val) s =
      .next (settleEtu (refsRecheck (refEnable (mergeReg s (0x40100 + 0x10 * n) val.toNat) n))) := by
  have hlive : etuLive (mergeReg s (0x40100 + 0x10 * n) val.toNat) = true := by
    obtain ⟨r, hr⟩ := mergeReg_shape s (0x40100 + 0x10 * n) val.toNat
    rw [hr]; exact hl
  refine congrArg Host.Outcome.next ((if_neg ?_).trans (if_pos hlive))
  simp [hs, hn]

end

/-- Settles O25: each row by its guard; what a criterion asks for is `refMeets`'s own. -/
theorem referencesQualifyAndFail : Obligations.ReferencesQualifyAndFail := by
  unfold Obligations.ReferencesQualifyAndFail
  intro s n hn hl x
  refine ⟨exec_refQualified hn hl, exec_refQualified_idle, exec_refCriterionLost_stands, fun hlost => ?lost,
    exec_refCriterionMet hn hl, exec_refCriterionMet_idle, exec_clearSuspect hn hl, exec_refCfgWrite hn hl,
    fun hm => ?criterion⟩
  case lost =>
    rw [exec_refCriterionLost hn hl hlost]
    refine ⟨fun h2 => ?_, fun h0 => ?_, fun h0 h2 => ?_⟩
    · rw [loseRef_qualified h2]; rfl
    · rw [loseRef_disabled h0]
    · rw [loseRef_other h0 h2]
  case criterion =>
    refine ⟨refMeets_enabled hm, ?_, ?_, fun h => refMeets_syncE h hm⟩
    · rintro rfl; exact refMeets_ptp hm
    · rintro rfl; exact refMeets_pps hm

/-! ### The rows of the modes -/

section
variable {s : State}

theorem exec_enterLocked (hr : refsReady s = true) (hl : etuLive s = true) (h1 : s.etu.state = 1) :
    exec .enterLocked s = .next (lockEtu s) :=
  congrArg Host.Outcome.next (if_pos (by simp [hr, hl, h1]))

theorem exec_enterLocked_idle (h : refsReady s = false ∨ etuLive s = false ∨ s.etu.state ≠ 1) :
    exec .enterLocked s = .next s :=
  congrArg Host.Outcome.next (if_neg (by rcases h with h | h | h <;> simp [h]))

theorem exec_pullInDone_holdover (hr : refsReady s = true) (hl : etuLive s = true) (h3 : s.etu.state = 3)
    (hp : s.etu.pulling = true) (hf : s.etu.forced = false) : exec .pullInDone s = .next (lockEtu s) :=
  congrArg Host.Outcome.next (if_pos (by simp [hr, hl, h3, hp, hf]))

theorem exec_pullInDone_locked (hl : etuLive s = true) (h2 : s.etu.state = 2) :
    exec .pullInDone s = .next { s with etu := { s.etu with buildOut := tblSet 0 s.etu.buildOut 0 0 } } :=
  congrArg Host.Outcome.next ((if_neg (by simp [h2])).trans (if_pos (by simp [h2, hl])))

theorem exec_forceHoldover (hs : served s = true) (hl : etuLive s = true) (h : ¬ s.etu.state < 2) :
    exec .forceHoldover s = .next (
      let u := if s.etu.state = 2 then enterHoldover s else s
      updateFloor (settleRadio { u with etu := { u.etu with forced := true, pulling := false, ambiguous := [] } })) :=
  congrArg Host.Outcome.next (if_neg (by simpa [hs, hl] using h))

theorem exec_forceHoldover_idle (h : s.etu.state < 2) : exec .forceHoldover s = .next s :=
  congrArg Host.Outcome.next (if_pos (by simp [h]))

theorem exec_releaseHoldover (hs : served s = true) (hf : s.etu.forced = true) :
    exec .releaseHoldover s = .next (settleEtu { s with etu := { s.etu with forced := false } }) :=
  congrArg Host.Outcome.next (if_pos (by simp [hs, hf]))

theorem exec_releaseHoldover_idle (hf : s.etu.forced = false) : exec .releaseHoldover s = .next s :=
  congrArg Host.Outcome.next (if_neg (by simp [hf]))

theorem exec_keepRef (hs : served s = true) (ha : s.etu.timeSel < 6) (hb : s.etu.freqSel < 6) :
    exec .keepRef s = .next (
      let u := setRef s s.etu.timeSel { refOf s s.etu.timeSel with driftCnt := 0 }
      let v := setRef u s.etu.freqSel { refOf u s.etu.freqSel with driftCnt := 0 }
      clearFlag { v with etu := { v.etu with ambiguous := [] } } 33) := by
  change execKeepRef s = _
  rw [execKeepRef, if_neg (by simp [hs])]
  simp only [ha, hb, if_true, done_eq_next]

/-- The ETU after a TIME_RESET, before the references are judged: FREE_RUN with the load to come. -/
def timeResetBase (s : State) : State :=
  { s.fh.carrier.foldl (fun s c => closeCarrier s c.1) s with
    etu := { s.etu with state := 0, pulling := false, stepWait := false, forced := false, loaded := false,
                        recovering := s.etu.tclkLost } }

theorem exec_timeReset (hs : served s = true) (h : s.etu.tclkLost = false ∨ s.etu.tclkEdges = true) :
    exec .timeReset s = .next (
      if s.etu.tclkLost then settleEtu (refsRecheck ((List.range 6).foldl refEnable (settleEtu (timeResetBase s))))
      else settleEtu (timeResetBase s)) :=
  congrArg Host.Outcome.next (if_neg (by rcases h with h | h <;> simp [hs, h]))

theorem exec_timeReset_waits (hl : s.etu.tclkLost = true) (he : s.etu.tclkEdges = false) :
    exec .timeReset s = .next s :=
  congrArg Host.Outcome.next (if_pos (by simp [hl, he]))

end

/-- Settles O26: each row by the mode it finds. -/
theorem etuModesFollowTheirCommands : Obligations.EtuModesFollowTheirCommands := by
  unfold Obligations.EtuModesFollowTheirCommands
  intro s e locked
  refine ⟨exec_enterLocked, exec_enterLocked_idle, exec_pullInDone_holdover, exec_pullInDone_locked,
    fun hs hl u h2 h3 hmode => ?force, exec_forceHoldover_idle, exec_releaseHoldover, exec_releaseHoldover_idle,
    exec_keepRef, fun hs => ?reset⟩
  case force =>
    have hst : s.etu.state = 2 ∨ s.etu.state = 3 := hmode
    rw [exec_forceHoldover hs hl (by omega)]
    rcases hst with hm | hm
    · rw [h2 hm, if_pos hm]; rfl
    · rw [h3 hm, if_neg (by omega)]
  case reset =>
    intro u v
    refine ⟨fun hl => ?_, fun hl he => ?_, exec_timeReset_waits⟩
    · rw [exec_timeReset hs (.inl hl), if_neg (Bool.eq_false_iff.1 hl), timeResetBase, hl]
    · rw [exec_timeReset hs (.inr he), if_pos hl, timeResetBase, hl]

end Sys2Proof.Proofs
end

section
/-! PROOFS. Measurements of the references and drift windows (R34 to R38), and dies that lose and regain alignment (R54). -/
namespace Sys2Proof.Proofs
open Sys2Proof.Machine Sys2Proof.Laws

/-! ### Judging one input -/

section
variable {s : State} {n : Nat}

theorem refEval_idle (h : etuLive s = false ∨ (refOf s n).st = 0) : refEval s n = s :=
  if_pos (by rcases h with h | h <;> simp [h])

theorem refEval_of_live (hl : etuLive s = true) (h0 : (refOf s n).st ≠ 0) :
    refEval s n = if refMeets s n then meetRef s n else if (refOf s n).crit then loseRef s n else s :=
  if_neg (by simp [hl, h0])

end

/-! ### Drift -/

/-- A floor division by 2, raised by one or not where it is not exact, is the value or one of its two neighbours. -/
theorem half_of_fdiv (d : Int) (up : Bool) :
    let h := d.fdiv 2 + (if d % 2 ≠ 0 && up then 1 else 0)
    2 * h = d ∨ 2 * h = d - 1 ∨ 2 * h = d + 1 := by
  intro h
  have hdiv : d.fdiv 2 = d / 2 := Int.fdiv_eq_ediv_of_nonneg d (by norm_num)
  have hh : h = d / 2 + (if d % 2 ≠ 0 && up then 1 else 0) := by rw [← hdiv]
  rw [hh]
  by_cases h0 : d % 2 = 0
  · simp only [h0]; left; simp; omega
  · cases up <;> simp [h0] <;> omega

section
variable {s : State} {n : Nat}

theorem measureDrift_alone (f : Nat → Int) (h : ensemble s n = []) :
    measureDrift s f n = setRef s n { refOf s n with dev := 0, driftCnt := 0 } :=
  if_pos (by simp [h])

theorem measureDrift_ensemble (f : Nat → Int) (h : ensemble s n ≠ []) :
    let d2 := 2 * f n - median2 ((ensemble s n).map f)
    measureDrift s f n = setRef (takeChoice s) n { refOf s n with
      dev := clampInt (-32767) 32767 (d2.fdiv 2 + (if d2 % 2 ≠ 0 && Config.raceWinner s.choice then 1 else 0))
      driftCnt := if tblGet false s.etu.ambiguous n then (refOf s n).driftCnt
        else if 2 * (driftThresh s : Int) < absInt d2 then min 3 ((refOf s n).driftCnt + 1) else 0 } :=
  if_neg (by simpa using h)

theorem actDrift_idle (k : Nat) (h : (refOf s n).driftCnt ≠ 3 ∨ tblGet false s.etu.ambiguous n = true) :
    actDrift s k n = s :=
  if_neg (by rcases h with h | h <;> simp [h])

theorem actDrift_third (k : Nat) (h : (refOf s n).driftCnt = 3) (ha : tblGet false s.etu.ambiguous n = false) :
    actDrift s k n = if 2 ≤ k then setFlag (setRef s n { refOf s n with st := 3 }) 32
      else setFlag { s with etu := { s.etu with ambiguous := tblSet false s.etu.ambiguous n true } } 33 :=
  if_pos (by simp [h, ha])

end

/-- The figure of an input in what the window measured: 0 of one that it leaves out. -/
def driftFigure (freq : List (Nat × Int)) (m : Nat) : Int :=
  match freq.find? (fun e => e.1 = m) with
  | some e => e.2
  | none => 0

/-- Act on an input that has an ensemble. -/
def driftAct (ens : List Nat) (u : State) (n : Nat) : State := if ens = [] then u else actDrift u ens.length n

theorem driftAct_eq (s u : State) (n : Nat) :
    (if (ensemble s n).length = 0 then u else actDrift u (ensemble s n).length n) = driftAct (ensemble s n) u n := by
  unfold driftAct
  cases ensemble s n <;> rfl

/-- The inputs that a window measures: the selected ones that are QUALIFIED, each once. -/
def driftSel (s : State) : List Nat :=
  ([s.etu.timeSel, s.etu.freqSel].foldl (fun l n => insertNew n l) []).filter (refGood s)

theorem exec_driftWindow {s : State} (hl : etuLive s = true) (freq : List (Nat × Int)) :
    exec (.driftWindow freq) s = .next (settleEtu
      ((driftSel s).foldl (fun u n => driftAct (ensemble s n) u n)
        ((driftSel s).foldl (fun u n => measureDrift u (driftFigure freq) n) s))) := by
  refine congrArg Host.Outcome.next ((if_neg (by simp [hl])).trans (congrArg settleEtu ?_))
  rw [List.foldl_map]
  simp only [driftAct_eq]
  rfl

theorem driftSel_eq (s : State) : driftSel s =
    (if s.etu.timeSel = s.etu.freqSel then [s.etu.timeSel] else [s.etu.timeSel, s.etu.freqSel]).filter (refGood s) := by
  unfold driftSel
  by_cases h : s.etu.timeSel = s.etu.freqSel
  · simp [insertNew, h]
  · simp [insertNew, h, Ne.symm h]

section
variable {s : State} (hl : etuLive s = true)
include hl

theorem exec_driftWindow_none (freq : List (Nat × Int)) (ha : refGood s s.etu.timeSel = false)
    (hb : refGood s s.etu.freqSel = false) : exec (.driftWindow freq) s = .next (settleEtu s) := by
  have hsel : driftSel s = [] := by
    rw [driftSel_eq]
    split <;> simp [ha, hb]
  rw [exec_driftWindow hl, hsel]
  rfl

theorem exec_driftWindow_one (freq : List (Nat × Int)) {n : Nat} (hn : refGood s n = true)
    (hsel : s.etu.timeSel = n ∧ s.etu.freqSel = n ∨ s.etu.timeSel = n ∧ refGood s s.etu.freqSel = false
      ∨ refGood s s.etu.timeSel = false ∧ s.etu.freqSel = n) :
    exec (.driftWindow freq) s =
      .next (settleEtu (driftAct (ensemble s n) (measureDrift s (driftFigure freq) n) n)) := by
  have hone : driftSel s = [n] := by
    rw [driftSel_eq]
    rcases hsel with ⟨ha, hb⟩ | ⟨ha, hb⟩ | ⟨ha, hb⟩
    · simp [ha, hb, hn]
    · rw [ha, if_neg fun h => by rw [← h, hn] at hb; exact nomatch hb]
      simp [hn, hb]
    · rw [hb, if_neg fun h => by rw [h, hn] at ha; exact nomatch ha]
      simp [hn, ha]
  rw [exec_driftWindow hl, hone]
  rfl

theorem exec_driftWindow_two (freq : List (Nat × Int)) (hne : s.etu.timeSel ≠ s.etu.freqSel)
    (ha : refGood s s.etu.timeSel = true) (hb : refGood s s.etu.freqSel = true) :
    exec (.driftWindow freq) s = .next (settleEtu
      (driftAct (ensemble s s.etu.freqSel) (driftAct (ensemble s s.etu.timeSel)
        (measureDrift (measureDrift s (driftFigure freq) s.etu.timeSel) (driftFigure freq) s.etu.freqSel)
        s.etu.timeSel) s.etu.freqSel)) := by
  have htwo : driftSel s = [s.etu.timeSel, s.etu.freqSel] := by
    rw [driftSel_eq, if_neg hne]
    simp [ha, hb]
  rw [exec_driftWindow hl, htwo]
  rfl

end

theorem exec_driftWindow_idle {s : State} (hl : etuLive s = false) (freq : List (Nat × Int)) :
    exec (.driftWindow freq) s = .next s :=
  congrArg Host.Outcome.next (if_pos (by simp [hl]))

/-! ### Measurements -/

theorem exec_ptpMeas {s : State} (hs : served s = true) (hi : W32) :
    let v := sext 64 ((tblGet 0 s.held 0x40020).toNat + hi.toNat * 2 ^ 32)
    exec (.ptpMeas hi) s =
      .next (refEval { s with etu := { s.etu with lastMeas := v, meas := keepMeas s ++ [(s.sclk, v)] } } 0) :=
  congrArg Host.Outcome.next (if_neg (by simp [hs]))

theorem exec_ptpMeas_unserved {s : State} (hs : served s = false) (hi : W32) : exec (.ptpMeas hi) s = .next s :=
  congrArg Host.Outcome.next (if_pos (by simp [hs]))

theorem exec_todSec {s : State} (hs : served s = true) (hi : W32) :
    exec (.todSec hi) s = .next { s with etu := { s.etu with
      tod := some ((tblGet 0 s.held 0x40028).toNat + hi.toNat % 65536 * 2 ^ 32) } } :=
  congrArg Host.Outcome.next (if_neg (by simp [hs]))

theorem exec_todSec_unserved {s : State} (hs : served s = false) (hi : W32) : exec (.todSec hi) s = .next s :=
  congrArg Host.Outcome.next (if_pos (by simp [hs]))

/-- The pulse's measurement: edge time less its second, or the last one where none was written. -/
def ppsFigure (s : State) : Int :=
  match s.etu.tod with
  | some sec => (now s - (sec : Int) * 1966080000) * 65536
  | none => s.etu.ppsMeas

theorem exec_ppsPulse {s : State} {m : Int}
    (hsec : ∀ sec, s.etu.tod = some sec → m = ((s.etu.count.toNat : Int) - sec * 1966080000) * 65536)
    (hnone : s.etu.tod = none → m = s.etu.ppsMeas) :
    exec .ppsPulse s = .next (refEval { s with etu := { s.etu with
      ppsAt := some s.etu.count, ppsPrev := s.etu.ppsAt, ppsSec := s.etu.tod, ppsMeas := m, tod := none } } 1) := by
  have hm : ppsFigure s = m := by
    unfold ppsFigure
    cases htod : s.etu.tod with
    | none => exact (hnone htod).symm
    | some sec => exact (hsec sec htod).symm
  rw [← hm]
  rfl

/-! ### Dies -/

theorem exec_dieUnsynced {s : State} {d : Nat} (h1 : 1 ≤ d) (ha : d < s.fuse.assy) (hd : dieSynced s d = true) :
    exec (.dieUnsynced d) s = .next (unsyncDie s d) :=
  congrArg Host.Outcome.next (if_pos (by simp [h1, ha, hd]))

theorem exec_dieUnsynced_idle {s : State} {d : Nat} (h : d = 0 ∨ s.fuse.assy ≤ d ∨ dieSynced s d = false) :
    exec (.dieUnsynced d) s = .next s :=
  congrArg Host.Outcome.next (if_neg (by rcases h with h | h | h <;> simp [h]))

theorem setFlag_etu (s : State) (id : Nat) : (setFlag s id).etu = s.etu := by
  obtain ⟨f, o, e, l, shape⟩ := setFlag_shape s id
  rw [shape]

theorem unsyncDie_etu (s : State) (d : Nat) : (unsyncDie s d).etu = { s.etu with
    unsynced := tblSet false s.etu.unsynced d true, skew := tblSet 0 s.etu.skew d (Config.loopStep s.choice) } := by
  rw [unsyncDie, settleRadio_etu]
  exact setFlag_etu _ 41

theorem dieSynced_unsyncDie (s : State) {d : Nat} (h : d ≠ 0) : dieSynced (unsyncDie s d) d = false := by
  have hset : tblSet false s.etu.unsynced d true = tblPut s.etu.unsynced d true := if_neg (by decide)
  rw [dieSynced, unsyncDie_etu, hset]
  simp [h, tblGet, tblGet?_put_same]

/-- A comparator that is armed late writes only its own entry and flags. -/
theorem lateArm_etu (s : State) (n : Nat) : ∃ t, (lateArm s n).etu = { s.etu with trig := t } := by
  unfold lateArm
  dsimp only
  split
  · exact ⟨_, setFlag_etu _ 38⟩
  · exact ⟨s.etu.trig, rfl⟩

theorem foldl_lateArm_etu (d : Nat) (l : List Nat) (s : State) : ∃ t,
    (l.foldl (fun s n => if (trigOf s n).die = d then lateArm s n else s) s).etu = { s.etu with trig := t } := by
  induction l generalizing s with
  | nil => exact ⟨s.etu.trig, rfl⟩
  | cons n l ih =>
    obtain ⟨t, ht⟩ := ih (if (trigOf s n).die = d then lateArm s n else s)
    refine ⟨t, ht.trans ?_⟩
    split
    · obtain ⟨t', ht'⟩ := lateArm_etu s n
      rw [ht']
    · rfl

theorem exec_dieRealign {s : State} {d : Nat} (h0 : d ≠ 0) (hd : dieSynced s d = false) (hl : d2dDown s d = false) :
    exec (.dieRealign d) s = .next (settleRadio ((List.range 64).foldl
      (fun s n => if (trigOf s n).die = d then lateArm s n else s)
      { s with etu := { s.etu with
        unsynced := tblSet false s.etu.unsynced d false, skew := tblSet 0 s.etu.skew d 0 } })) :=
  congrArg Host.Outcome.next (if_neg (by simp [h0, hd, hl]))

theorem exec_dieRealign_idle {s : State} {d : Nat} (h : d = 0 ∨ dieSynced s d = true ∨ d2dDown s d = true) :
    exec (.dieRealign d) s = .next s :=
  congrArg Host.Outcome.next (if_pos (by rcases h with h | h | h <;> simp [h]))

/-- A die counts with the master where its entries are unlisted. -/
theorem dieCount_of_no_skew {s : State} {d : Nat} (h : tblGet 0 s.etu.skew d = 0) : dieCount s d = now s := by
  simp [dieCount, h]

/-! ### The obligation -/

/-- Settles O28: judging, measuring and acting by their branches, then each row by what it commits. -/
theorem measurementsAndDiesCommit : Obligations.MeasurementsAndDiesCommit := by
  unfold Obligations.MeasurementsAndDiesCommit
  refine ⟨fun s n => ?shared, fun s => ?rows⟩
  case shared =>
    intro x
    refine ⟨refEval_idle, fun hl h0 hm => ?_, fun hl h0 hm => ⟨fun hc => ?_, fun hc h2 => ?_, fun hc h2 => ?_⟩,
      fun f => ?drift⟩
    · rw [refEval_of_live hl h0, if_pos hm]; rfl
    · have hcrit : ¬ (refOf s n).crit = true := Bool.eq_false_iff.1 hc
      rw [refEval_of_live hl h0, if_neg (Bool.eq_false_iff.1 hm), if_neg hcrit]
    · rw [refEval_of_live hl h0, if_neg (Bool.eq_false_iff.1 hm), if_pos hc, loseRef_other h0 h2]
    · rw [refEval_of_live hl h0, if_neg (Bool.eq_false_iff.1 hm), if_pos hc, loseRef_qualified h2]; rfl
    case drift =>
      intro d2
      refine ⟨measureDrift_alone f, fun hne => ⟨_, half_of_fdiv d2 (Config.raceWinner s.choice), ?_⟩,
        fun h3 ha => ⟨fun k hk => ?_, ?_⟩, fun k => actDrift_idle k⟩
      · rw [measureDrift_ensemble f hne, driftThresh]
        push_cast
        rfl
      · rw [actDrift_third k h3 ha, if_pos hk]
      · rw [actDrift_third 1 h3 ha, if_neg (by norm_num)]
  case rows =>
    refine ⟨exec_ptpMeas, exec_todSec, fun hs hi => ⟨exec_ptpMeas_unserved hs hi, exec_todSec_unserved hs hi⟩,
      fun m => exec_ppsPulse, fun freq => ?window,
      fun d h1 ha hd => ⟨exec_dieUnsynced h1 ha hd, dieSynced_unsyncDie s (by omega), ?same⟩,
      fun d => exec_dieUnsynced_idle, fun d h0 hd hl hu hk => ?realign, fun d => exec_dieRealign_idle⟩
    case window =>
      intro f act
      exact ⟨fun hl => exec_driftWindow_idle hl freq, fun hl => ⟨exec_driftWindow_none hl freq,
        fun n hn => exec_driftWindow_one hl freq hn, exec_driftWindow_two hl freq⟩⟩
    case same => rw [now, unsyncDie_etu]; rfl
    case realign =>
      intro e t
      obtain ⟨trig, ht⟩ := foldl_lateArm_etu d (List.range 64) { s with etu := e }
      have htu : t.etu = { e with trig := trig } := (settleRadio_etu _).trans ht
      refine ⟨exec_dieRealign h0 hd hl, ?_, ?_⟩
      · rw [dieSynced, htu, tblGet_set_same hu]
        simp
      · rw [dieCount_of_no_skew (by rw [htu]; exact tblGet_set_same hk 0 d 0), now, htu]; rfl

end Sys2Proof.Proofs
end

section
/-! PROOFS. Trigger comparators and captures (R44 to R49, R195 to R200). -/
namespace Sys2Proof.Proofs
open Sys2Proof.Machine Sys2Proof.Laws

/-! ### Arming late -/

section
variable {s : State} {n : Nat} (ha : (trigOf s n).armed = true)
include ha

theorem lateArm_in_time (h : (dieCount s (trigOf s n).die).toNat < (trigOf s n).cmp.toNat) : lateArm s n = s :=
  if_neg (by simpa [ha] using h)

theorem lateArm_late (h : (trigOf s n).cmp.toNat ≤ (dieCount s (trigOf s n).die).toNat) :
    lateArm s n = setFlag (setTrig s n
      (if (trigOf s n).periodic then { trigOf s n with
          cmp := BitVec.ofNat 64 <|
            nextCompare (trigOf s n).cmp.toNat (trigOf s n).period (dieCount s (trigOf s n).die).toNat }
        else { trigOf s n with armed := false })) 38 :=
  if_pos (by simp [ha, h])

end

theorem trigOf_setFlag (s : State) (id n : Nat) : trigOf (setFlag s id) n = trigOf s n := by
  rw [trigOf, setFlag_etu]; rfl

theorem trigOf_setTrig {s : State} (hw : tblWf s.etu.trig = true) (n : Nat) (x : Trig) : trigOf (setTrig s n x) n = x :=
  tblGet_set_same hw {} n x

/-- The next compare value is the first one later than the count. -/
theorem nextCompare_first {v p c : Nat} (hv : v ≤ c) (hp : 0 < p) :
    c < nextCompare v p c ∧ nextCompare v p c ≤ c + p := by
  have hdiv := Nat.div_add_mod (c - v) p
  have hmod := Nat.mod_lt (c - v) hp
  have hmul : ((c - v) / p + 1) * p = p * ((c - v) / p) + p := by ring
  unfold nextCompare
  omega

/-! ### Firing -/

theorem range_filter_eq_singleton {p : Nat → Bool} {n m : Nat} (hn : n < m) (hp : ∀ k, p k = true ↔ k = n) :
    (List.range m).filter p = [n] := by
  induction m with
  | zero => exact absurd hn (Nat.not_lt_zero n)
  | succ m ih =>
    rw [List.range_succ, List.filter_append]
    rcases Nat.lt_succ_iff_lt_or_eq.1 hn with h | rfl
    · have hm : p m = false := Bool.eq_false_iff.2 fun e => absurd ((hp m).1 e) (by omega)
      simp [ih h, hm]
    · have hbelow : (List.range n).filter p = [] := List.filter_eq_nil_iff.2 fun k hk e =>
        absurd ((hp k).1 e) (Nat.ne_of_lt (List.mem_range.1 hk))
      simp [hbelow, (hp n).2 rfl]

theorem exec_trigFire_due {s : State} {n : Nat} (hn : n < 64) (hd : trigDue s n = true) :
    exec (.trigFire [n]) s = .next (settleRadio (fireTrig s n)) := by
  have hone : (List.range 64).filter (fun k => [n].contains k && trigDue s k) = [n] := by
    refine range_filter_eq_singleton hn fun k => ⟨fun h => ?_, fun h => ?_⟩
    · simpa using (Bool.and_eq_true_iff.1 h).1
    · simp [h, hd]
  change execTrigFire [n] s = _
  rw [execTrigFire, hone]
  rfl

theorem exec_trigFire_idle {s : State} {n : Nat} (hd : trigDue s n = false) :
    exec (.trigFire [n]) s = .next (settleRadio s) := by
  have hnone : (List.range 64).filter (fun k => [n].contains k && trigDue s k) = [] := by
    refine List.filter_eq_nil_iff.2 fun k _ h => ?_
    obtain ⟨hk, hdue⟩ := Bool.and_eq_true_iff.1 h
    have hkn : k = n := by simpa using hk
    rw [hkn, hd] at hdue
    exact nomatch hdue
  change execTrigFire [n] s = _
  rw [execTrigFire, hnone]
  rfl

/-! ### Captures -/

section
variable {s : State} {src : Nat}

theorem exec_captureEdge_outside (h : 256 ≤ src) {d : Nat} (hd : capDie s src = some d) (rising : Bool) :
    exec (.captureEdge src rising) s = .next (captureEdge s src rising false (dieCount s d)) := by
  change execCaptureEdge src rising s = _
  rw [execCaptureEdge, hd]
  exact congrArg Host.Outcome.next (if_pos h)

theorem exec_captureEdge_unknown (hd : capDie s src = none) (rising : Bool) :
    exec (.captureEdge src rising) s = .next s := by
  change execCaptureEdge src rising s = _
  rw [execCaptureEdge, hd]
  rfl

section
variable (h : src < 256) (hd : capDie s src ≠ none)
include h hd

theorem exec_captureEdge_line {e : Nat × Bool × Int} (he : s.ev.toCapture.find? (fun e => e.1 = src) = some e) :
    exec (.captureEdge src true) s = .next (captureEdge
      { s with ev := { s.ev with toCapture := s.ev.toCapture.eraseP fun e => e.1 = src } } src true e.2.1 e.2.2) := by
  obtain ⟨d, hsome⟩ := Option.ne_none_iff_exists'.1 hd
  obtain ⟨k, merged, t⟩ := e
  change execCaptureEdge src true s = _
  rw [execCaptureEdge, hsome]
  dsimp only
  rw [if_neg (Nat.not_le_of_lt h), he]
  rfl

theorem exec_captureEdge_line_empty (he : s.ev.toCapture.find? (fun e => e.1 = src) = none) (rising : Bool) :
    exec (.captureEdge src rising) s = .next s := by
  obtain ⟨d, hsome⟩ := Option.ne_none_iff_exists'.1 hd
  change execCaptureEdge src rising s = _
  rw [execCaptureEdge, hsome]
  dsimp only
  rw [if_neg (Nat.not_le_of_lt h), he]
  rfl

/-- A line has no falling edge. -/
theorem exec_captureEdge_line_falling : exec (.captureEdge src false) s = .next s := by
  cases he : s.ev.toCapture.find? (fun e => e.1 = src) with
  | none => exact exec_captureEdge_line_empty h hd he false
  | some e =>
    obtain ⟨d, hsome⟩ := Option.ne_none_iff_exists'.1 hd
    obtain ⟨k, merged, t⟩ := e
    change execCaptureEdge src false s = _
    rw [execCaptureEdge, hsome]
    dsimp only
    rw [if_neg (Nat.not_le_of_lt h), he]
    rfl

end
end

/-! ### The obligation -/

/-- Settles O29: an armed comparator by its time, and a capture by its source and what the line holds. -/
theorem comparatorsFireAndCapturesRecord : Obligations.ComparatorsFireAndCapturesRecord := by
  unfold Obligations.ComparatorsFireAndCapturesRecord
  intro s
  refine ⟨fun hs n ctrl hn => ?arm, fun n ha hw => ?late, fun n => exec_trigFire_due, fun n => exec_trigFire_idle,
    fun src rising => ?capture⟩
  case arm =>
    have hserved : ¬ (64 ≤ n || !served s) = true := by simp [hs, hn]
    obtain ⟨r, hr⟩ := mergeReg_shape s (trigReg n 0x10) ctrl.toNat
    have hfuse : (mergeReg s (trigReg n 0x10) ctrl.toNat).fuse = s.fuse := by rw [hr]
    intro u c period die t
    refine ⟨congrArg Host.Outcome.next ((if_neg hserved).trans ?_), congrArg Host.Outcome.next (if_neg hserved)⟩
    simp only [hfuse]
    rfl
  case late =>
    intro c
    refine ⟨fun h => lateArm_in_time ha h, fun h => ?_⟩
    rw [lateArm_late ha h]
    simp only [trigOf_setFlag, trigOf_setTrig hw]
    refine ⟨flag_setFlag_same _ 38, fun hp => ?_, fun hp h0 => ?_⟩
    · rw [if_neg (Bool.eq_false_iff.1 hp)]
    · rw [if_pos hp]
      exact ⟨_, rfl, nextCompare_first h h0⟩
  case capture =>
    intro edge
    refine ⟨fun d h hd => exec_captureEdge_outside h hd rising, fun h hd => ⟨fun e => exec_captureEdge_line h hd,
      fun he => exec_captureEdge_line_empty h hd he rising, exec_captureEdge_line_falling h hd⟩,
      fun hd => exec_captureEdge_unknown hd rising⟩

end Sys2Proof.Proofs
end

section
/-! PROOFS. Oscillators and Patina (R58, R59, R69, R70, R84), jitter and duty monitors (R71 to R73). -/
namespace Sys2Proof.Proofs
open Sys2Proof.Machine Sys2Proof.Laws

/-! ### Oscillators -/

theorem lowerCap_eq (s : State) (n : Nat) (i : Inst) : lowerCap s n i =
    if i.stopping && i.cap ≤ 1425 then requestStep (setInst s n { i with cap := i.cap - 25 }) (stopStep n)
    else setInst s n { i with cap := i.cap - 25 } := rfl

section
variable {s : State} {n : Nat} (hn : n < 74) (hrun : (instOf s n).run = true)
include hn hrun

theorem exec_excursion : exec (.excursion n) s = .next (setFlag (setFlag s (192 + n)) 67) :=
  congrArg Host.Outcome.next (if_pos (by simp [hn, hrun]))

theorem exec_capRampTick_starting (hs : (instOf s n).stopping = false) :
    exec (.capRampTick n) s = .next (
      if !(instOf s n).held && !(instOf s n).hot && (instOf s n).cap < 1750 then
        setInst s n { instOf s n with cap := (instOf s n).cap + 25 } else s) :=
  congrArg Host.Outcome.next ((if_neg (by simp [hn, hrun])).trans (if_neg (Bool.eq_false_iff.1 hs)))

theorem exec_capRampTick_stopping (hs : (instOf s n).stopping = true) :
    exec (.capRampTick n) s = .next (if 1400 < (instOf s n).cap then lowerCap s n (instOf s n) else s) :=
  congrArg Host.Outcome.next ((if_neg (by simp [hn, hrun])).trans (if_pos hs))

end

/-! ### Patina samples -/

theorem critPct_setFlag (s : State) (id : Nat) : critPct (setFlag s id) = critPct s := by
  rw [critPct, fld, reg_setFlag]; rfl

theorem boot_setFlag (s : State) (id : Nat) : (setFlag s id).boot = s.boot := by
  obtain ⟨f, o, e, l, shape⟩ := setFlag_shape s id
  rw [shape]

/-- The state that a sample leaves before its flags. -/
def patinaSampled (s : State) (n m slack : Nat) : State :=
  setInst { s with pat := tblSet {} s.pat m { slack := slack, min := min slack (patinaOf s m).min } } n
    { instOf s n with crit := mark (instOf s n).crit m (Decidable.decide (slack < critPct s))
                      warn := mark (instOf s n).warn m (Decidable.decide (slack < warnPct s)) }

/-- With the warning's flags. -/
def patinaWarned (s : State) (n m slack : Nat) : State :=
  if slack < warnPct s then setFlag (setFlag (patinaSampled s n m slack) (288 + 2 * m)) 64 else patinaSampled s n m slack

theorem patinaWarned_critPct (s : State) (n m slack : Nat) : critPct (patinaWarned s n m slack) = critPct s := by
  unfold patinaWarned
  split
  · rw [critPct_setFlag, critPct_setFlag]; rfl
  · rfl

theorem patinaWarned_boot (s : State) (n m slack : Nat) : (patinaWarned s n m slack).boot = s.boot := by
  unfold patinaWarned
  split
  · rw [boot_setFlag, boot_setFlag]; rfl
  · rfl

section
variable {s : State} {m slack : Nat}

theorem exec_patinaSample (hm : m < 96) (hslack : slack ≤ 100) (hrun : (instOf s (patInst m)).run = true) :
    exec (.patinaSample m slack) s = .next (
      let v := patinaWarned s (patInst m) m slack
      let w := setFlag (setFlag v (289 + 2 * m)) 65
      if slack < critPct v then
        if w.boot.stage = 3 then
          { w with boot := { w.boot with
              testFailed := (instUnits (patInst m)).foldl (fun l u => insertNew u l) w.boot.testFailed } }
        else w
      else v) :=
  congrArg Host.Outcome.next (if_pos (by simp [hm, hslack, hrun]))

theorem exec_patinaSample_stopped (hrun : (instOf s (patInst m)).run = false) :
    exec (.patinaSample m slack) s = .next s :=
  congrArg Host.Outcome.next (if_neg (by simp [hrun]))

end

/-! ### The critical tick -/

theorem vsetDue_iff (s : State) : vsetDue s = true ↔ ∀ c, s.power.vsetAt = some c → c + 100000 ≤ s.sclk := by
  unfold vsetDue
  cases s.power.vsetAt <;> simp

theorem voutCommand_acked (s : State) (v : Nat) {naks : Nat} (h : naks < 3) :
    voutCommand s v naks =
      { s with power := { s.power with ack := true, driving := true, vsetAt := some s.sclk, vset := v } } := by
  simp [voutCommand, pmbus, h]

theorem voutCommand_failed (s : State) (v : Nat) {naks : Nat} (h : 3 ≤ naks) :
    voutCommand s v naks =
      vrFault { s with power := { s.power with ack := false, driving := true, vsetAt := some s.sclk } } := by
  simp [voutCommand, pmbus, Nat.not_lt_of_le h]

section
variable {s : State} {n : Nat}

theorem underCrit_of_ne (hrun : (instOf s n).run = true) (hc : (instOf s n).crit ≠ []) : underCrit s n = true := by
  simp [underCrit, hrun, hc]

theorem underCrit_stopped (hrun : (instOf s n).run = false) : underCrit s n = false := by
  simp [underCrit, hrun]

theorem underCrit_of_nil (hc : (instOf s n).crit = []) : underCrit s n = false := by
  simp [underCrit, hc]

theorem exec_patinaCritTick_idle (h : underCrit s n = false) (naks : Nat) : exec (.patinaCritTick ⟨n, naks⟩) s = .next s :=
  congrArg Host.Outcome.next (if_neg (by simp [h]))

theorem exec_marginFail_idle (h : underCrit s n = false) : exec (.marginFail n) s = .next s :=
  congrArg Host.Outcome.next (if_neg (by simp [h]))

section
variable (hn : n < 74) (hu : underCrit s n = true) (naks : Nat)
include hn hu

theorem exec_patinaCritTick_above (hc : 1400 < (instOf s n).cap) :
    exec (.patinaCritTick ⟨n, naks⟩) s = .next (lowerCap s n { instOf s n with held := true }) :=
  congrArg Host.Outcome.next ((if_pos (by simp [hn, hu])).trans (if_pos hc))

theorem exec_patinaCritTick_floor (hc : (instOf s n).cap ≤ 1400) :
    exec (.patinaCritTick ⟨n, naks⟩) s = .next (
      let t := setInst s n { instOf s n with held := true }
      if s.power.vset < 850 && vsetDue s then voutCommand t (min 850 (s.power.vset + 5)) naks else t) :=
  congrArg Host.Outcome.next ((if_pos (by simp [hn, hu])).trans (if_neg (Nat.not_lt_of_le hc)))

omit naks in
theorem exec_marginFail (hc : (instOf s n).cap ≤ 1400) (hv : s.power.vset = 850) :
    exec (.marginFail n) s = .next (
      let slack := (patOf n).foldl (fun a m => min a (patinaOf s m).slack) 255
      (instUnits n).foldl (fun s u => retire s u.1 u.2 0x3001 slack) (setFlag s 66)) :=
  congrArg Host.Outcome.next (if_pos (by simp [hn, hu, hc, hv]))

end

/-! ### Recovery -/

theorem exec_patinaRecoveryTick (hn : n < 74) (hrun : (instOf s n).run = true) (hs : (instOf s n).stopping = false)
    (hh : (instOf s n).held = true ∨ (instOf s n).hot = true) (hw : (instOf s n).warn = [])
    (hc : (instOf s n).hot = false ∨ 100 ≤ s.power.coolMs) :
    exec (.patinaRecoveryTick n) s = .next (setInst s n { instOf s n with
      cap := min 1750 ((instOf s n).cap + 25)
      held := (instOf s n).held && min 1750 ((instOf s n).cap + 25) < 1750
      hot := (instOf s n).hot && min 1750 ((instOf s n).cap + 25) < 1750 }) := by
  have hhold : ((instOf s n).held || (instOf s n).hot) = true := by simpa using hh
  have hcool : ((instOf s n).hot && Decidable.decide (s.power.coolMs < 100)) = false := by
    rcases hc with hc | hc
    · simp [hc]
    · simp [Nat.not_lt_of_le hc]
  exact congrArg Host.Outcome.next (if_pos (by simp only [hn, hrun, hs, hhold, hw, hcool]; rfl))

theorem exec_patinaRecoveryTick_idle (h : (instOf s n).run = false ∨ (instOf s n).stopping = true
    ∨ (instOf s n).held = false ∧ (instOf s n).hot = false ∨ (instOf s n).warn ≠ []
    ∨ (instOf s n).hot = true ∧ s.power.coolMs < 100) : exec (.patinaRecoveryTick n) s = .next s := by
  refine congrArg Host.Outcome.next (if_neg ?_)
  rcases h with h | h | ⟨h, h'⟩ | h | ⟨h, h'⟩
  · simp [h]
  · simp [h]
  · simp [h, h']
  · simp [h]
  · simp [h, h']

end

/-- Settles O30: a stopped oscillator, then each row of a running one by cap, threshold and setpoint. -/
theorem patinaMovesCapsAndRetires : Obligations.PatinaMovesCapsAndRetires := by
  unfold Obligations.PatinaMovesCapsAndRetires
  intro s n hn i
  refine ⟨fun hrun => ?stopped, fun hrun => ⟨exec_excursion hn hrun, fun hs => ?starting, fun hs => ?stopping,
    fun m slack hm hmn hslack => ?sample, fun hc naks => ?critical,
    fun hc => ⟨exec_marginFail_idle (underCrit_of_nil hc), exec_patinaCritTick_idle (underCrit_of_nil hc)⟩,
    exec_patinaRecoveryTick hn hrun, fun h => exec_patinaRecoveryTick_idle (.inr h)⟩⟩
  case stopped =>
    have hu : underCrit s n = false := underCrit_stopped hrun
    refine ⟨exec_patinaCritTick_idle hu, ?_, ?_, exec_marginFail_idle hu, exec_patinaRecoveryTick_idle (.inl hrun),
      fun m slack hm => exec_patinaSample_stopped (hm ▸ hrun)⟩
    · exact congrArg Host.Outcome.next (if_neg (by simp [show (instOf s n).run = false from hrun]))
    · exact congrArg Host.Outcome.next (if_pos (by simp [show (instOf s n).run = false from hrun]))
  case starting =>
    rw [exec_capRampTick_starting hn hrun hs]
    refine ⟨fun hh ht hc => ?_, fun h => ?_⟩
    · have hcond : (!(instOf s n).held && !(instOf s n).hot && Decidable.decide ((instOf s n).cap < 1750)) = true := by
        simp only [Bool.and_eq_true, Bool.not_eq_true', decide_eq_true_eq]
        exact ⟨⟨hh, ht⟩, hc⟩
      rw [if_pos hcond]
    · have hcond : ¬ (!(instOf s n).held && !(instOf s n).hot && Decidable.decide ((instOf s n).cap < 1750)) = true := by
        simp only [Bool.and_eq_true, Bool.not_eq_true', decide_eq_true_eq]
        rintro ⟨⟨hh, ht⟩, hc⟩
        rcases h with h | h | h
        · exact Bool.eq_false_iff.1 hh h
        · exact Bool.eq_false_iff.1 ht h
        · exact Nat.not_le_of_lt hc h
      rw [if_neg hcond]
  case stopping =>
    rw [exec_capRampTick_stopping hn hrun hs]
    refine ⟨fun h => ?_, fun h h' => ?_, fun h => ?_⟩
    · rw [if_pos (Nat.lt_trans (by norm_num) h), lowerCap_eq, if_neg (by simpa using fun _ => h)]
    · rw [if_pos h, lowerCap_eq, if_pos (by simpa using ⟨hs, h'⟩)]; rfl
    · rw [if_neg (Nat.not_lt_of_le h)]
  case sample =>
    intro u v w
    subst hmn
    have hboot : (setFlag (setFlag (patinaWarned s (patInst m) m slack) (289 + 2 * m)) 65).boot = s.boot := by
      rw [boot_setFlag, boot_setFlag, patinaWarned_boot]
    rw [exec_patinaSample hm hslack hrun]
    dsimp only
    rw [patinaWarned_critPct, show critPct s = fld s 0x70004 15 8 from rfl, hboot]
    refine ⟨fun h => ?_, fun h h3 => ?_, fun h h3 => ?_⟩
    · rw [if_neg (Nat.not_lt_of_le h)]; rfl
    · rw [if_pos h, if_neg h3]; rfl
    · rw [if_pos h, if_pos h3, ← hboot]; rfl
  case critical =>
    have hu : underCrit s n = true := underCrit_of_ne hrun hc
    refine ⟨fun h => ?_, fun h => ?floor⟩
    · rw [exec_patinaCritTick_above hn hu naks h, lowerCap_eq]
      simp only [Bool.and_eq_true, decide_eq_true_eq]
      rfl
    case floor =>
      intro t due
      have hdue : vsetDue s = true ↔ due := vsetDue_iff s
      rw [exec_patinaCritTick_floor hn hu naks h]
      refine ⟨fun hv hd ha => ?_, fun hv hd ha => ?_, fun hnot => ?_, exec_marginFail hn hu h⟩
      · dsimp only
        rw [if_pos (by simp [hv, hdue.2 hd]), voutCommand_acked _ _ ha]
        rfl
      · dsimp only
        rw [if_pos (by simp [hv, hdue.2 hd]), voutCommand_failed _ _ ha]
        rfl
      · dsimp only
        rw [if_neg]
        rw [Bool.and_eq_true, decide_eq_true_eq, hdue]
        rintro ⟨hv, hd⟩
        exact hnot.elim (Nat.not_le_of_lt hv) fun h => h hd

end Sys2Proof.Proofs
end

section
/-! PROOFS. Jitter and duty monitors (R71 to R73), the step ledger (R82, R85, R86) and the regulator (R79, R80). -/
namespace Sys2Proof.Proofs
open Sys2Proof.Machine Sys2Proof.Laws

/-! ### Jitter and duty monitors -/

section
variable {s : State} {n : Nat} (hn : n < 16)
include hn

theorem exec_jdWindow_unmeasured (hm : jdMeasured s (jdSource s n) = false) (jitter duty : Nat) (ppm : Int) :
    exec (.jdWindow n jitter duty ppm) s = .next (jdNext s n) :=
  congrArg Host.Outcome.next ((if_neg (Nat.not_le_of_lt hn)).trans (if_pos (by simp [hm])))

/-- A whole window of a measured source. -/
theorem exec_jdWindow_measured (hm : jdMeasured s (jdSource s n) = true) (jitter duty : Nat) (ppm : Int) :
    exec (.jdWindow n jitter duty ppm) s = .next (
      let x := jdOf s n
      let y := if jdSecond s n then { x with lostB := false } else { x with lostA := false }
      let t := setJd s n { y with jit := min 255 jitter, duty := min 100 duty, src := jdSource s n }
      let t := if jdSource s n = 1 then { t with etu := { t.etu with tclkEdges := true } } else t
      let dev := if duty < 50 then 50 - duty else duty - 50
      let t := jdFlag n 0 (bits (jdCfg s n) 23 16 < jitter) t
      let t := jdFlag n 1 (bits (jdCfg s n) 27 24 < dev) t
      jdNext (jdFlag n 2 (100 < absInt ppm) t) n) :=
  congrArg Host.Outcome.next ((if_neg (Nat.not_le_of_lt hn)).trans (if_neg (by simp [hm])))

theorem exec_jdLoss_idle
    (h : jdMeasured s (jdSource s n) = false ∨ (if jdSecond s n then (jdOf s n).lostB else (jdOf s n).lostA) = true) :
    exec (.jdLoss n) s = .next (jdNext s n) :=
  congrArg Host.Outcome.next ((if_neg (Nat.not_le_of_lt hn)).trans (if_pos (by rcases h with h | h <;> simp [h])))

/-- A loss that is not remembered yet. -/
theorem exec_jdLoss_first (hm : jdMeasured s (jdSource s n) = true)
    (hl : (if jdSecond s n then (jdOf s n).lostB else (jdOf s n).lostA) = false) :
    exec (.jdLoss n) s = .next (
      let x := jdOf s n
      let y := if jdSecond s n then { x with lostB := true } else { x with lostA := true }
      jdNext (clockLoss (jdFlag n 3 true (setJd s n y)) (jdSource s n)) n) :=
  congrArg Host.Outcome.next ((if_neg (Nat.not_le_of_lt hn)).trans (if_neg (by simp [hm, hl])))

end

/-- What the loss of a clock does, by its source. -/
theorem clockLoss_eq (s : State) (src : Nat) : clockLoss s src =
    if src = 1 then tclkLoss s
    else if src = 2 ∨ src = 3 then (if dieSynced s (src - 1) then unsyncDie s (src - 1) else s)
    else if src < 10 then linkReset s (src - 4)
    else portLeave s (src - 10) := by
  simp only [clockLoss, Bool.or_eq_true, decide_eq_true_eq]

/-- Settles O31: a source that is not measured, a window of one that is, and a loss by whether it is remembered. -/
theorem jitterMonitorsMeasureAndReport : Obligations.JitterMonitorsMeasureAndReport := by
  unfold Obligations.JitterMonitorsMeasureAndReport
  intro s n hn cfg x second src next found loses
  refine ⟨fun jitter duty ppm hm => ⟨exec_jdWindow_unmeasured hn hm jitter duty ppm, exec_jdLoss_idle hn (.inl hm)⟩,
    fun hm => ⟨fun jitter duty ppm => exec_jdWindow_measured hn hm jitter duty ppm, fun hl => ?_,
      fun hl => exec_jdLoss_idle hn (.inr hl)⟩⟩
  rw [exec_jdLoss_first hn hm hl]
  simp only [clockLoss_eq]
  rfl

/-! ### The step ledger -/

/-! A step with the ramps settled: `u` is the state after them. -/
section
variable {s u : State} (hu : (List.range 8).foldl settleRamp s = u)
include hu

theorem exec_stepAdmit_none (h : nextStep u = none) : exec .stepAdmit s = .next u := by
  change execStepAdmit s = _
  rw [execStepAdmit, hu]
  dsimp only
  rw [h]
  rfl

theorem exec_stepAdmit_some {x : LedgerStep} (h : nextStep u = some x) : exec .stepAdmit s =
    .next (finishResume (admitStep { u with power := { u.power with waiting := u.power.waiting.erase x } } x)) := by
  change execStepAdmit s = _
  rw [execStepAdmit, hu]
  dsimp only
  rw [h]
  rfl

end

section
variable {s : State} {x : LedgerStep} (h : nextStep s = some x)
include h

/-- The step that is admitted waits and fits. -/
theorem nextStep_waits : x ∈ s.power.waiting := by
  have hmem := List.mem_of_find?_eq_some h
  have hhead {l : List LedgerStep} : x ∈ l.head?.toList → x ∈ l := fun hx => List.mem_of_head? (Option.mem_toList.1 hx)
  have horder : x ∈ waitingOrder s := by
    rcases List.mem_append.1 hmem with hx | hx <;> exact List.mem_of_mem_filter (hhead hx)
  rcases List.mem_append.1 horder with hx | hx <;> exact List.mem_of_mem_filter hx

theorem nextStep_fits : ledgerSum s (if x.rising then s.power.rise else s.power.fall) + x.amount ≤ 32000 := by
  have hfits : stepFits s x = true := List.find?_some h
  exact of_decide_eq_true hfits

end

/-- An admitted step's own effect leaves the ledgers. -/
theorem applyStep_ledgers (s : State) (k : StepKind) :
    (applyStep s k).power.rise = s.power.rise ∧ (applyStep s k).power.fall = s.power.fall := by
  cases k with
  | start n =>
    by_cases hr : instRetired s n
    · simp [applyStep, hr]
    · simp [applyStep, hr]
  | stop n => exact ⟨rfl, rfl⟩
  | cols a n => exact ⟨rfl, rfl⟩
  | fabric on => exact ⟨rfl, rfl⟩

theorem admitStep_rise (s : State) {x : LedgerStep} (h : x.rising = true) :
    (admitStep s x).power.rise = inWindow s s.power.rise ++ [(x.amount, s.sclk)] := by
  rw [admitStep, (applyStep_ledgers _ _).1]
  exact congrArg Power.rise (if_pos h)

theorem admitStep_fall (s : State) {x : LedgerStep} (h : x.rising = false) :
    (admitStep s x).power.fall = inWindow s s.power.fall ++ [(x.amount, s.sclk)] := by
  rw [admitStep, (applyStep_ledgers _ _).2]
  exact congrArg Power.fall (if_neg (Bool.eq_false_iff.1 h))

/-! ### Column ramps -/

section
variable {s : State} {a : Nat}

theorem settleRamp_none (h : (arrOf s a).ramp = none) : settleRamp s a = s := by
  simp [settleRamp, h]

theorem settleRamp_running {r : Ramp} (h : (arrOf s a).ramp = some r) (hr : rampDone s a r < r.len) :
    settleRamp s a = s := by
  simp [settleRamp, h, hr]

theorem settleRamp_over {r : Ramp} (h : (arrOf s a).ramp = some r) (hr : r.len ≤ rampDone s a r)
    (hw : (arrOf s a).want = none) : settleRamp s a = setArr s a { arrOf s a with cols := r.dest, ramp := none } := by
  have hwant : ({ arrOf s a with cols := r.dest, ramp := none, want := none } : Arr) =
      { arrOf s a with cols := r.dest, ramp := none } := by rw [← hw]
  simp [settleRamp, h, Nat.not_lt_of_le hr, hw]

end

/-! ### The regulator -/

section
variable {s : State}

theorem exec_setpointStep (hp : s.boot.pwrok = true) (hh : s.boot.halted = false) (hd : vsetDue s = true)
    (hv : s.power.vset ≠ s.fuse.vset ∨ s.power.driving = false) (hi : ∀ e, e ∈ s.inst → e.2.held = false) (naks : Nat) :
    exec (.setpointStep naks) s = .next (voutCommand s
      (if s.power.vset < s.fuse.vset then min s.fuse.vset (s.power.vset + 5) else max s.fuse.vset (s.power.vset - 5))
      naks) := by
  have hset : (Decidable.decide (s.power.vset = s.fuse.vset) && s.power.driving) = false := by
    rcases hv with hv | hv <;> simp [hv]
  have hany : s.inst.any (fun e => e.2.held) = false := by
    simpa [List.any_eq_false] using fun a b h => hi (a, b) h
  exact congrArg Host.Outcome.next (if_neg (by simp only [hp, hh, hd, hset, hany]; decide))

theorem exec_setpointStep_idle (h : s.boot.pwrok = false ∨ s.boot.halted = true ∨ vsetDue s = false
    ∨ s.power.vset = s.fuse.vset ∧ s.power.driving = true ∨ ∃ e, e ∈ s.inst ∧ e.2.held = true) (naks : Nat) :
    exec (.setpointStep naks) s = .next s := by
  refine congrArg Host.Outcome.next (if_pos ?_)
  rcases h with h | h | h | ⟨h, h'⟩ | ⟨e, he, hheld⟩
  · simp [h]
  · simp [h]
  · simp [h]
  · simp [h, h']
  · have hany : s.inst.any (fun e => e.2.held) = true := List.any_eq_true.2 ⟨e, he, hheld⟩
    simp [hany]

theorem pmbus_eq (naks : Nat) : pmbus s naks =
    if naks < 3 then { s with power := { s.power with ack := Decidable.decide (naks < 3) } }
    else vrFault { s with power := { s.power with ack := Decidable.decide (naks < 3) } } := rfl

theorem exec_pmbusStatusPoll (hd : s.power.driving = true) (naks : Nat) :
    exec (.pmbusStatusPoll naks) s = .next (pmbus s naks) := congrArg Host.Outcome.next (if_pos hd)

theorem exec_pmbusTelemetryPoll (hd : s.power.driving = true) (naks : Nat) :
    exec (.pmbusTelemetryPoll naks) s =
      .next (pmbus { s with power := { s.power with readIout := !s.power.readIout } } naks) :=
  congrArg Host.Outcome.next (if_pos hd)

theorem exec_pmbusStatusPoll_idle (hd : s.power.driving = false) (naks : Nat) :
    exec (.pmbusStatusPoll naks) s = .next s := congrArg Host.Outcome.next (if_neg (Bool.eq_false_iff.1 hd))

theorem exec_pmbusTelemetryPoll_idle (hd : s.power.driving = false) (naks : Nat) :
    exec (.pmbusTelemetryPoll naks) s = .next s := congrArg Host.Outcome.next (if_neg (Bool.eq_false_iff.1 hd))

theorem exec_vrAlert_rising (hp : s.boot.pwrok = true) (hv : s.power.vrAlert = false) :
    exec (.vrAlert true) s = .next (vrFault { s with power := { s.power with vrAlert := true } }) :=
  congrArg Host.Outcome.next (if_pos (by simp [hp, hv]))

theorem exec_vrAlert_other {v : Bool} (h : v = false ∨ s.power.vrAlert = true ∨ s.boot.pwrok = false) :
    exec (.vrAlert v) s = .next { s with power := { s.power with vrAlert := v } } :=
  congrArg Host.Outcome.next (if_neg (by rcases h with h | h | h <;> simp [h]))

end

/-- Settles O32: the ledger by the step that is next, a ramp by its cycles, and the regulator by its guards. -/
theorem ledgerAndRegulatorMove : Obligations.LedgerAndRegulatorMove := by
  unfold Obligations.LedgerAndRegulatorMove
  intro s
  refine ⟨?ledger, fun a => ⟨settleRamp_none, fun r hr => ⟨settleRamp_running hr, settleRamp_over hr⟩⟩, ?regulator,
    exec_vrAlert_rising, fun v => exec_vrAlert_other, rfl⟩
  case ledger =>
    intro u
    have hu : (List.range 8).foldl settleRamp s = u := rfl
    clear_value u
    exact ⟨exec_stepAdmit_none hu, fun x h => ⟨exec_stepAdmit_some hu h, nextStep_waits h, nextStep_fits h,
      admitStep_rise _, admitStep_fall _⟩⟩
  case regulator =>
    intro p due
    have hdue : vsetDue s = true ↔ due := vsetDue_iff s
    refine ⟨fun hp hh hd hv hi naks => ?_, fun h naks => exec_setpointStep_idle ?_ naks, fun hd naks => ⟨?_, ?_⟩,
      fun hd naks => ⟨exec_pmbusStatusPoll_idle hd naks, exec_pmbusTelemetryPoll_idle hd naks⟩⟩
    · rw [exec_setpointStep hp hh (hdue.2 hd) hv hi]
      exact ⟨fun ha => by rw [voutCommand_acked _ _ ha], fun ha => by rw [voutCommand_failed _ _ ha]⟩
    · exact h.imp_right (Or.imp_right (Or.imp_left fun hd => Bool.eq_false_iff.2 fun e => hd (hdue.1 e)))
    · rw [exec_pmbusStatusPoll hd, pmbus_eq]
    · rw [exec_pmbusTelemetryPoll hd, pmbus_eq]

end Sys2Proof.Proofs
end

section
/-! PROOFS. Shedding (R87 to R90, R93, R94) and the outputs that follow their partners (R91). -/
namespace Sys2Proof.Proofs
open Sys2Proof.Machine Sys2Proof.Laws

/-! ### What concerns one converter link alone -/

/-- From `s` to `t` the links other than `k` stay, and their table stays canonical. -/
def LinkOnly (k : Nat) (s t : State) : Prop := tblWf t.cv.link = true ∧ ∀ j, j ≠ k → linkOf t j = linkOf s j

namespace LinkOnly

variable {k : Nat} {s t u : State}

theorem of_cv (w : tblWf s.cv.link = true) (h : t.cv = s.cv) : LinkOnly k s t :=
  ⟨by rw [h]; exact w, fun j _ => by unfold linkOf; rw [h]⟩

theorem refl (w : tblWf s.cv.link = true) : LinkOnly k s s := of_cv w rfl

theorem trans (h : LinkOnly k s t) (i : LinkOnly k t u) : LinkOnly k s u :=
  ⟨i.1, fun j hj => (i.2 j hj).trans (h.2 j hj)⟩

theorem setLink (w : tblWf s.cv.link = true) (x : CvLink) : LinkOnly k s (setLink s k x) :=
  ⟨link_wf s k x w, fun j hj => link_other s k j x w hj⟩

theorem ite {c : Prop} [Decidable c] (h : LinkOnly k s t) (i : LinkOnly k s u) : LinkOnly k s (if c then t else u) := by
  split
  · exact h
  · exact i

end LinkOnly

theorem setFlagIf_cv (c : Bool) (i : Nat) (s : State) : (setFlagIf c i s).cv = s.cv := by
  cases c
  · rfl
  · exact setFlag_cv s i

theorem truncateBurst_only {s : State} (k : Nat) (w : tblWf s.cv.link = true) : LinkOnly k s (truncateBurst s k) := by
  obtain ⟨hwf, hothers, -, -⟩ := truncate_link s k w
  exact ⟨hwf, hothers⟩

theorem symbolStatus_cv (s : State) (c : Nat) (p : Placed) (sfn slot sym v : Nat) :
    (symbolStatus s c p sfn slot sym v).cv = s.cv := (status_cf s c p sfn slot sym v).1

/-- A reset concerns its link alone and leaves it in RESET. -/
theorem linkReset_only {s : State} (k : Nat) (w : tblWf s.cv.link = true) :
    LinkOnly k s (linkReset s k) ∧ (linkOf (linkReset s k) k).st = 0 := by
  by_cases h0 : (linkOf s k).st = 0
  · simp [linkReset, h0, LinkOnly.refl w]
  · unfold linkReset
    dsimp only
    rw [if_neg h0]
    have hflag : LinkOnly k s (setFlagIf (2 ≤ (linkOf s k).st) (2304 + k) s) := .of_cv w (setFlagIf_cv _ _ s)
    have hcut : LinkOnly k s (if (linkOf s k).st = 3
        then truncateBurst (setFlagIf (2 ≤ (linkOf s k).st) (2304 + k) s) k
        else setFlagIf (2 ≤ (linkOf s k).st) (2304 + k) s) :=
      .ite (hflag.trans (truncateBurst_only k hflag.1)) hflag
    refine (fun {u} hu => ⟨LinkOnly.trans hu (.setLink hu.1 _), by rw [link_same _ _ _ hu.1]⟩ :
      ∀ {u : State}, LinkOnly k s u → LinkOnly k s (setLink u k _) ∧ (linkOf (setLink u k _) k).st = 0) ?_
    refine .ite (hcut.trans (.of_cv hcut.1 ?_)) hcut
    rw [arrive_cv, symbolStatus_cv]

/-! ### Shedding -/

theorem foldl_cv {α : Type} {f : State → α → State} (h : ∀ u a, (f u a).cv = u.cv) (l : List α) (s : State) :
    (l.foldl f s).cv = s.cv := by
  induction l generalizing s with
  | nil => rfl
  | cons a l ih => exact (ih (f s a)).trans (h s a)

theorem discardMsgs_cv (s : State) (g : EgFrame → Bool) : (discardMsgs s g).cv = s.cv := by
  have drop (p : Nat) (u : State) (f : EgFrame) : (noteMsg (dropTx u p 16) f.ring f.k false).cv = u.cv :=
    setFlagIf_cv _ _ (countPort u p 16)
  refine foldl_cv (fun u p => ?_) _ s
  split
  · exact foldl_cv (drop p) _ _
  · rfl

theorem closeCarriers_cv (s : State) : (closeCarriers s).cv = s.cv := by
  have narrow (u : State) (e : Nat × Carrier) : (narrowCarrier u e.1).cv = u.cv := discardMsgs_cv _ _
  unfold closeCarriers
  exact foldl_cv narrow _ s

/-- What of a link a shedding leaves: every link in the list is in RESET, and the table is canonical. -/
def LinksRest (l : List Nat) (s : State) : Prop := tblWf s.cv.link = true ∧ ∀ k, k ∈ l → (linkOf s k).st = 0

/-- While the device sheds no link may run, so settling resets each. -/
theorem linksRest_settleRadio {s : State} (w : tblWf s.cv.link = true) (hs : s.power.shed = 1) :
    LinksRest (List.range 6) (settleRadio s) := by
  have reset (l : List Nat) : ∀ (done : List Nat) (u : State), u.power.shed = 1 → LinksRest done u →
      LinksRest (done ++ l) (l.foldl (fun s k => if linkMayRun s k then s else linkReset s k) u) := by
    induction l with
    | nil => exact fun done u _ h => by rw [List.append_nil]; exact h
    | cons k l ih =>
      intro done u hu h
      have hnot : linkMayRun u k = false := by simp [linkMayRun, hu]
      obtain ⟨⟨hwf, hothers⟩, hzero⟩ := linkReset_only k h.1
      have hnext := ih (done ++ [k]) (linkReset u k) (by rw [(RadioMoves.linkReset u k).power]; exact hu)
        ⟨hwf, fun j hj => by
          by_cases hjk : j = k
          · rw [hjk, hzero]
          · rw [hothers j hjk]
            rcases List.mem_append.1 hj with hj | hj
            · exact h.2 j hj
            · exact absurd (List.mem_singleton.1 hj) hjk⟩
      rw [List.append_assoc, List.singleton_append] at hnext
      rw [List.foldl_cons, hnot]
      exact hnext
  unfold settleRadio
  exact reset _ [] _ (by rw [(RadioMoves.closeCarriers s).power]; exact hs)
    ⟨by rw [closeCarriers_cv]; exact w, fun k hk => absurd hk List.not_mem_nil⟩

/-- Marking the links below `n` for the next write of their registers. -/
def rearmLinks (n : Nat) (s : State) : State :=
  (List.range n).foldl (fun s k => setLink s k { linkOf s k with rearm := true }) s

theorem rearmLinks_moves (n : Nat) (s : State) : RadioMoves s (rearmLinks n s) := by
  have mark (u : State) (k : Nat) : RadioMoves u (setLink u k { linkOf u k with rearm := true }) := .setLink u k _
  exact .foldl mark _ s

theorem rearmLinks_succ (n : Nat) (s : State) : rearmLinks (n + 1) s =
    setLink (rearmLinks n s) n { linkOf (rearmLinks n s) n with rearm := true } := by
  simp only [rearmLinks, List.range_succ, List.foldl_append, List.foldl_cons, List.foldl_nil]

theorem linkOf_rearmLinks {s : State} (w : tblWf s.cv.link = true) (n : Nat) :
    tblWf (rearmLinks n s).cv.link = true ∧ (∀ k, k < n → linkOf (rearmLinks n s) k = { linkOf s k with rearm := true })
    ∧ ∀ k, n ≤ k → linkOf (rearmLinks n s) k = linkOf s k := by
  induction n with
  | zero => exact ⟨w, fun k hk => absurd hk (Nat.not_lt_zero k), fun _ _ => rfl⟩
  | succ n ih =>
    obtain ⟨hwf, hdone, hrest⟩ := ih
    rw [rearmLinks_succ]
    refine ⟨link_wf _ _ _ hwf, fun k hk => ?_, fun k hk => ?_⟩
    · rcases Nat.lt_succ_iff_lt_or_eq.1 hk with hk | rfl
      · exact (link_other _ _ _ _ hwf (Nat.ne_of_lt hk)).trans (hdone k hk)
      · exact (link_same _ _ _ hwf).trans (by rw [hrest _ (Nat.le_refl _)])
    · exact (link_other _ _ _ _ hwf (by omega)).trans (hrest k (by omega))

section
variable {s : State} (cause : Nat)

theorem startShed_going (h : s.power.shed ≠ 0) (h3 : s.power.shed ≠ 3) : startShed s cause = s :=
  if_neg (by simp [h, h3])

/-- The state before the links settle: the flag, the first group to come, no step waiting, the log entry, the arrival. -/
def shedBegun (s : State) (cause : Nat) : State :=
  let s := setFlagIf (cause = 0) 96 s
  let s := { s with power := { s.power with shed := 1, shedStep := 1, waiting := [] } }
  let s := { s with arr := s.arr.map fun e => (e.1, { e.2 with asked := false, want := none }) }
  arrive (logEvent s 0x5004 0 cause 0) 458

variable (h : s.power.shed = 0 ∨ s.power.shed = 3)

theorem shedBegun_power : (shedBegun s cause).power = { s.power with shed := 1, shedStep := 1, waiting := [] } := by
  have hflag : (setFlagIf (cause = 0) 96 s).power = s.power := (RadioMoves.setFlagIf _ 96 s).power
  rw [← hflag]
  rfl

theorem shedBegun_cv : (shedBegun s cause).cv = s.cv := setFlagIf_cv _ 96 s

theorem flag_shedBegun (k : Nat) : flag (shedBegun s cause) k = flag (setFlagIf (cause = 0) 96 s) k := rfl

include h

theorem startShed_eq : startShed s cause = rearmLinks 6 (settleRadio (shedBegun s cause)) :=
  if_pos (by rcases h with h | h <;> simp [h])

end

/-- A shedding that starts: the power part, flag 96 of a power failure, and every link in RESET until it is written. -/
theorem startShed_starts {s : State} (cause : Nat) (h : s.power.shed = 0 ∨ s.power.shed = 3) :
    (startShed s cause).power = { s.power with shed := 1, shedStep := 1, waiting := [] }
    ∧ (cause = 0 → flag (startShed s cause) 96 = true)
    ∧ (tblWf s.cv.link = true → ∀ k, k < 6 → (linkOf (startShed s cause) k).rearm = true ∧ (linkOf (startShed s cause) k).st = 0) := by
  rw [startShed_eq cause h]
  have hbegun := shedBegun_power (s := s) cause
  have hmoves := (RadioMoves.settleRadio (shedBegun s cause)).trans (rearmLinks_moves 6 _)
  refine ⟨hmoves.power.trans hbegun, fun hc => hmoves.2.1 96 ?_, fun w k hk => ?_⟩
  · rw [flag_shedBegun, setFlagIf, if_pos (decide_eq_true hc)]
    exact flag_setFlag_same s 96
  · have hcanon : tblWf (shedBegun s cause).cv.link = true := by rw [shedBegun_cv]; exact w
    obtain ⟨hwf, hrest⟩ := linksRest_settleRadio hcanon (by rw [hbegun])
    obtain ⟨-, hmarked, -⟩ := linkOf_rearmLinks hwf 6
    generalize settleRadio (shedBegun s cause) = u at hrest hmarked ⊢
    rw [hmarked k hk]
    exact ⟨rfl, hrest k (List.mem_range.2 hk)⟩

/-! ### Heat -/

theorem throttleArrays_power (s : State) : (throttleArrays s).power = s.power := by
  have slower (u : State) (a : Nat) : ((fun s a =>
      let i := instOf s (64 + a)
      if i.run && 1400 < i.cap then setInst s (64 + a) { i with cap := i.cap - 25, hot := true } else s) u a).power = u.power := by
    dsimp only
    split <;> rfl
  unfold throttleArrays
  generalize inferenceArrays s = l
  induction l generalizing s with
  | nil => rfl
  | cons a l ih => exact (ih _).trans (slower s a)

section
variable (s : State)

/-- Heat moves the hold and the cool time alone of the power part. -/
theorem actHeat_power : ∃ hold, (actHeat s).power =
      { s.power with thermHold := hold, coolMs := if tjMax s < tjThrottle s then min 100 (s.power.coolMs + 1) else 0 }
    ∧ (tjMax s < tjThrottle s → hold = false)
    ∧ (tjThrottle s ≤ tjMax s → tjMax s < tjThrottle s + 5 → hold = s.power.thermHold) := by
  have hkept : (if tjThrottle s < tjMax s then throttleArrays s else s).power = s.power := by
    split
    · exact throttleArrays_power s
    · rfl
  unfold actHeat
  dsimp only
  rw [hkept]
  refine ⟨_, rfl, fun h => if_pos h, fun h h5 => ?_⟩
  rw [if_neg (not_lt.2 h), decide_eq_false (not_le.2 h5), Bool.false_and, Bool.or_false]

end

section
variable {s : State} (hp : s.boot.pwrok = true) (t : Byte)
include hp

/-- The temperature of a powered device is stored and acted on; shedding starts when it crosses 115 degrees. -/
theorem exec_tjUpdate_stored {v w : State} (hv : v = { s with power := { s.power with tj := t, tjValid := true } })
    (hw : w = actHeat (setFlagIf (s.power.tj.toInt ≤ min 105 (sext 8 (fld s 0x50000 15 8))
      && min 105 (sext 8 (fld s 0x50000 15 8)) < t.toInt) 99 v)) :
    exec (.tjUpdate t) s = .next (if 115 ≤ tjMax w && s.power.tj.toInt < 115 then startShed (setFlag w 100) 2 else w) := by
  subst hv
  subst hw
  exact congrArg Host.Outcome.next (if_neg (by simp [hp]))

end

theorem exec_tjUpdate_unpowered {s : State} (hp : s.boot.pwrok = false) (t : Byte) : exec (.tjUpdate t) s = .next s :=
  congrArg Host.Outcome.next (if_pos (by simp [hp]))

theorem tjThrottle_setFlagIf (c : Bool) (i : Nat) (s : State) : tjThrottle (setFlagIf c i s) = tjThrottle s := by
  cases c
  · rfl
  · simp [tjThrottle, fld, setFlagIf, reg_setFlag]

/-- The clauses on TJ_UPDATE. -/
theorem tjUpdate_acts {s : State} (hp : s.boot.pwrok = true) (t : Byte) :
    let th := min 105 (sext 8 (fld s 0x50000 15 8))
    let v : State := { s with power := { s.power with tj := t, tjValid := true } }
    let w := actHeat (setFlagIf (s.power.tj.toInt ≤ th && th < t.toInt) 99 v)
    ((t.toInt < 115 ∨ 115 ≤ s.power.tj.toInt) → exec (.tjUpdate t) s = .next w)
    ∧ (s.power.tj.toInt < 115 → 115 ≤ t.toInt → exec (.tjUpdate t) s = .next (startShed (setFlag w 100) 2))
    ∧ (t.toInt < th → w.power.thermHold = false ∧ w.power.coolMs = min 100 (s.power.coolMs + 1))
    ∧ (th ≤ t.toInt → w.power.coolMs = 0)
    ∧ (th ≤ t.toInt → t.toInt < th + 5 → w.power.thermHold = s.power.thermHold) := by
  intro th v w
  have hexec := exec_tjUpdate_stored hp t (v := v) (w := w) rfl rfl
  have hflag : (setFlagIf (s.power.tj.toInt ≤ th && th < t.toInt) 99 v).power = v.power := (RadioMoves.setFlagIf _ 99 v).power
  have hth : tjThrottle (setFlagIf (s.power.tj.toInt ≤ th && th < t.toInt) 99 v) = th := tjThrottle_setFlagIf _ 99 v
  have htj : tjMax (setFlagIf (s.power.tj.toInt ≤ th && th < t.toInt) 99 v) = t.toInt := by rw [tjMax, hflag]
  obtain ⟨hold, hpower, hcool, hwarm⟩ := actHeat_power (setFlagIf (s.power.tj.toInt ≤ th && th < t.toInt) 99 v)
  rw [hth, htj] at hcool hwarm
  rw [hth, htj, hflag] at hpower
  have hw : w.power = { v.power with thermHold := hold, coolMs := if t.toInt < th then min 100 (v.power.coolMs + 1) else 0 } := hpower
  have hmax : tjMax w = t.toInt := by rw [tjMax, hw]
  rw [hmax] at hexec
  refine ⟨fun h => ?_, fun hlow hhigh => ?_, fun h => ?_, fun h => ?_, fun h h5 => ?_⟩
  · rw [hexec, if_neg (by rcases h with h | h <;> simp [h])]
  · rw [hexec, if_pos (by simp [hlow, hhigh])]
  · rw [hw]
    exact ⟨hcool h, if_pos h⟩
  · rw [hw]
    exact if_neg (not_lt.2 h)
  · rw [hw]
    exact (hwarm h h5).trans (by rw [hflag])

theorem exec_thermtrip {s : State} (hv : s.power.tjValid = true) (ht : 120 ≤ s.power.tj.toInt) (hs : s.power.shed = 2) :
    exec .thermtrip s = .next { s with power := { s.power with thermtrip := true } } :=
  congrArg Host.Outcome.next (if_pos (by simp [hv, hs, tjMax, ht]))

theorem exec_thermtrip_idle {s : State} (h : s.power.tjValid = false ∨ s.power.tj.toInt < 120 ∨ s.power.shed ≠ 2) :
    exec .thermtrip s = .next s :=
  congrArg Host.Outcome.next (if_neg (by
    rcases h with h | h | h
    · simp [h]
    · simp [tjMax, not_le.2 h]
    · simp [h]))

/-! ### The end of shedding -/

theorem mayResume_iff (s : State) : mayResume s = true ↔ s.power.shed = 2 ∧ s.power.pfw = false ∧ s.power.vrAlert = false
    ∧ s.power.ack = true ∧ s.power.tj.toInt < 115 := by
  simp only [mayResume, tjMax, Bool.and_eq_true, Bool.not_eq_true', decide_eq_true_eq, and_assoc]
  exact ⟨fun ⟨a, b, c, d, e⟩ => ⟨a, b, c, d, of_decide_eq_true e⟩, fun ⟨a, b, c, d, e⟩ => ⟨a, b, c, d, decide_eq_true e⟩⟩

theorem exec_resume {s : State} (hs : served s = true) (hr : mayResume s = true) :
    exec .resume s = .next (finishResume ((resumeSteps s).foldl requestStep
      { s with power := { s.power with shed := 3, selfRefresh := false } })) :=
  congrArg Host.Outcome.next (if_pos (by simp [hs, hr]))

theorem exec_resume_idle {s : State} (h : served s = false ∨ mayResume s = false) : exec .resume s = .next s :=
  congrArg Host.Outcome.next (if_neg (by rcases h with h | h <;> simp [h]))

/-- Settles O33: the start by the links' resets, the rows by their guards. -/
theorem sheddingStartsRampsAndResumes : Obligations.SheddingStartsRampsAndResumes := by
  unfold Obligations.SheddingStartsRampsAndResumes
  refine ⟨fun s cause => ⟨startShed_going cause, startShed_starts cause⟩, fun s => ?_⟩
  refine ⟨fun h => congrArg Host.Outcome.next (if_pos h), fun h => congrArg Host.Outcome.next (if_neg (Bool.eq_false_iff.1 h)),
    fun h => congrArg Host.Outcome.next (if_pos h),
    fun h => ⟨congrArg Host.Outcome.next (if_neg (Bool.eq_false_iff.1 h)), exec_resume_idle (.inl h)⟩,
    exec_tjUpdate_unpowered, tjUpdate_acts, fun h => congrArg Host.Outcome.next (if_pos h),
    fun h => congrArg Host.Outcome.next (if_neg h), exec_thermtrip, exec_thermtrip_idle,
    fun hs hshed hpfw halert hack htj => exec_resume hs ((mayResume_iff s).2 ⟨hshed, hpfw, halert, hack, htj⟩), fun h => ?_⟩
  refine exec_resume_idle (.inr (Bool.eq_false_iff.2 fun hr => ?_))
  obtain ⟨hshed, hpfw, halert, hack, htj⟩ := (mayResume_iff s).1 hr
  rcases h with h | h | h | h | h
  · exact h hshed
  · simp [hpfw] at h
  · simp [halert] at h
  · simp [hack] at h
  · exact absurd htj (not_lt.2 h)

/-! ### Outputs -/

section
variable {s : State} {i : Nat}

theorem outputExists_iff (s : State) (i : Nat) : outputExists s i = true ↔
    i < 12 ∧ unitExists s 10 i = true ∨ 16 ≤ i ∧ i < 22 ∧ unitExists s 11 (i - 16) = true ∨ i = 32 ∨ i = 33 := by
  unfold outputExists
  split
  case isTrue h =>
    have hne : i ≠ 32 ∧ i ≠ 33 ∧ ¬ 16 ≤ i := by omega
    simp [h, hne]
  case isFalse h =>
    split
    case isTrue h16 =>
      have hin : (16 ≤ i ∧ i < 22) ∧ i ≠ 32 ∧ i ≠ 33 := by simp at h16; omega
      simp [h, hin]
    case isFalse h16 =>
      have hout : ¬ (16 ≤ i ∧ i < 22) := by simpa using h16
      simp only [h, false_and, false_or, Bool.or_eq_true, decide_eq_true_eq]
      exact ⟨.inr, fun e => e.resolve_left fun ⟨h1, h2, _⟩ => hout ⟨h1, h2⟩⟩

theorem byPowerGood_iff (s : State) (i : Nat) : byPowerGood s i = true ↔
    i < 12 ∧ (ethMode s i = 0 ∨ ethMode s i = 3) ∨ 16 ≤ i ∧ i < 22 := by
  simp only [byPowerGood, Bool.or_eq_true, Bool.and_eq_true, decide_eq_true_eq]

/-- Turning the outputs of an interface on or off, by its mode. -/
theorem setOutput_eq (s : State) (i : Nat) (on : Bool) : setOutput s i on =
    (let out : State := { s with power := { s.power with
        outputs := tblSet false s.power.outputs i on
        powerGood := if i < 12 ∧ (ethMode s i = 0 ∨ ethMode s i = 3) ∨ 16 ≤ i ∧ i < 22
          then tblSet false s.power.powerGood i on else s.power.powerGood } }
      if i < 12 ∧ ethMode s i = 1 then setPort out i { portOf s i with lock := on } else out) := by
  by_cases hpart : byPowerGood s i = true
  · simp only [setOutput, hpart, (byPowerGood_iff s i).1 hpart, Bool.and_eq_true, decide_eq_true_eq]
    rfl
  · have hpart' := mt (byPowerGood_iff s i).2 hpart
    simp only [setOutput, hpart, if_neg hpart', Bool.and_eq_true, decide_eq_true_eq]
    rfl

theorem exec_outputEnable (h : outputExists s i = true) (hp : i = 32 → s.boot.perst = false) :
    exec (.outputEnable i) s = .next (setOutput s i true) :=
  congrArg Host.Outcome.next (if_pos (by by_cases hi : i = 32 <;> simp_all))

theorem exec_outputEnable_idle (h : outputExists s i = false ∨ i = 32 ∧ s.boot.perst = true) :
    exec (.outputEnable i) s = .next s :=
  congrArg Host.Outcome.next (if_neg (by
    rcases h with h | ⟨h, hp⟩
    · simp [h]
    · simp [h, hp]))

theorem exec_outputDisable (h : outputExists s i = true) (hi : i < 32) (hm : i < 12 → ethMode s i ≠ 2) :
    exec (.outputDisable i) s =
      .next (if i < 12 then portLeave (setOutput s i false) i else settleRadio (setOutput s i false)) :=
  congrArg Host.Outcome.next (if_neg (by
    have hm' : ¬ (i < 12 ∧ ethMode s i = 2) := fun ⟨hlt, he⟩ => hm hlt he
    simpa [h, hi] using hm))

theorem exec_outputDisable_idle (h : outputExists s i = false ∨ 32 ≤ i ∨ i < 12 ∧ ethMode s i = 2) :
    exec (.outputDisable i) s = .next s :=
  congrArg Host.Outcome.next (if_pos (by rcases h with h | h | h <;> simp [h]))

end

/-- Settles O34: the interfaces that exist, what a turn does by the mode, and the rows by their guards. -/
theorem outputsFollowTheirPartners : Obligations.OutputsFollowTheirPartners := by
  unfold Obligations.OutputsFollowTheirPartners
  intro s i mode present partner out turned
  have hpresent : outputExists s i = true ↔ present := outputExists_iff s i
  have hturned (on : Bool) : setOutput s i on = turned on := setOutput_eq s i on
  have habsent (h : ¬ present) : outputExists s i = false := Bool.eq_false_iff.2 (mt hpresent.1 h)
  refine ⟨fun h hp => ?_, fun h => exec_outputEnable_idle (h.imp_left habsent), fun h hi hm => ?_, fun h h16 h22 => ?_,
    fun h => exec_outputDisable_idle (h.imp_left habsent), fun hi hw hc hm hl => ?_, fun h => ?_⟩
  · rw [exec_outputEnable (hpresent.2 h) hp, hturned]
  · rw [exec_outputDisable (hpresent.2 h) (by omega) (fun _ => hm), if_pos hi, hturned]
  · rw [exec_outputDisable (hpresent.2 h) (by omega) (fun hlt => by omega), if_neg (by omega), hturned]
    exact congrArg (fun x => Host.Outcome.next (settleRadio x)) (if_neg fun hlt => by omega)
  · exact congrArg Host.Outcome.next (if_pos (by
      have hmode : ethMode s i = 1 := hm
      simp [hi, hw, hc, hmode, hl]))
  · refine congrArg Host.Outcome.next (if_neg ?_)
    rcases h with h | h | h | h | h
    · simp [h]
    · simp [h]
    · simp [h]
    · have hmode : ethMode s i ≠ 1 := h
      simp [hmode]
    · simp [h]

end Sys2Proof.Proofs
end

section
/-! PROOFS. The step's two forms, and the host link with its interrupt entries (R112, R113, R127, R210). -/
namespace Sys2Proof.Proofs
open Sys2Proof.Machine Sys2Proof.Laws

/-! ### The step -/

/-- Settles O1: the command at the front runs on the rest. -/
theorem stepRunsTheFrontCommand : Obligations.StepRunsTheFrontCommand := by
  unfold Obligations.StepRunsTheFrontCommand
  intro c rest s
  exact step_of_cons rfl

theorem b2n_le_one (b : Bool) : b2n b ≤ 1 := by cases b <;> decide

theorem runInst_stopped (sclk n i : Nat) {x : Inst} (h : x.run = false) : runInst sclk n i x = x := if_pos (by simp [h])

/-- An oscillator that does not run keeps its cycle count over a tick. -/
theorem cycles_tick_stopped {s : State} {n : Nat} (h : (instOf s n).run = false) :
    (instOf (tick s) n).cycles = (instOf s n).cycles := by
  have hmap : instOf (tick s) n = ((tblGet? s.inst n).map (runInst (s.sclk + b2n (Config.sclkEdge s.tick)) s.tick n)).getD {} :=
    tblGet_map {} (runInst (s.sclk + b2n (Config.sclkEdge s.tick)) s.tick) s.inst n
  rw [hmap]
  unfold instOf tblGet at h ⊢
  cases hg : tblGet? s.inst n with
  | none => rfl
  | some x =>
    rw [hg] at h
    exact congrArg Inst.cycles (runInst_stopped _ _ _ h)

/-- Settles O2: the step of an empty queue is a tick. -/
theorem emptyQueueStepCountsOneTc : Obligations.EmptyQueueStepCountsOneTc := by
  unfold Obligations.EmptyQueueStepCountsOneTc
  intro s h
  have hsclk : (tick s).sclk = s.sclk + b2n (Config.sclkEdge s.tick) := rfl
  have hhclk : (tick s).hclk = s.hclk + b2n (Config.hclkEdge s.tick) := rfl
  have hs := b2n_le_one (Config.sclkEdge s.tick)
  have hh := b2n_le_one (Config.hclkEdge s.tick)
  refine ⟨tick s, step_of_nil h, rfl, ?_, ?_, ?_, ?_, fun n hn => cycles_tick_stopped hn, rfl⟩
  · omega
  · omega
  · omega
  · omega

/-! ### The host link -/

section
variable {s : State}

theorem exec_linkRetrain (hp : s.boot.pwrok = true) (hr : s.boot.perst = false) (hh : s.boot.halted = false)
    (ho : tblGet false s.power.outputs 32 = true) {width gts : Nat} (hf : linkForm width gts = true) :
    exec (.linkRetrain width gts) s = .next (setFlagIf (!(width = 16 && gts = 32)) 2
      { s with link := { s.link with trained := true, width := width, gts := gts } }) :=
  congrArg Host.Outcome.next (if_neg (by simp [hp, hr, hh, ho, hf]))

theorem exec_configRequest_retry (ht : s.link.trained = true) (hf : s.boot.fwUp = false) (fn : Nat) (r : CfgReg)
    (wr : Option W32) : exec (.configRequest fn r wr) s = .next { s with link := { s.link with answer := .retry } } :=
  congrArg Host.Outcome.next ((if_neg (by simp [ht])).trans (if_pos (by simp [hf])))

/-- A request of a function that exists, after FW_UP. -/
theorem exec_configRequest_data (ht : s.link.trained = true) (hf : s.boot.fwUp = true) {fn : Nat}
    (hx : fnExists s fn = true) (r : CfgReg) (wr : Option W32) :
    exec (.configRequest fn r wr) s = .next (match wr with
      | some w => { configWrite s fn r w with link := { (configWrite s fn r w).link with answer := .data fn w } }
      | none => takeChoice { s with link := { s.link with answer := .data fn (configRead s fn r) } }) := by
  cases wr <;> exact congrArg Host.Outcome.next
    ((if_neg (by simp [ht])).trans ((if_neg (by simp [hf])).trans (if_neg (by simp [hx]))))

theorem exec_msixMessage {v : Nat} (hd : messageDue s v = true) (hm : vecMasked s v = false) :
    exec (.msixMessage v) s = .next (issueMessage s v) :=
  congrArg Host.Outcome.next (if_pos (by simp [hd, hm]))

/-- An entry with a message pending is stored, so after its unmasking the Function Mask alone decides. -/
theorem vecMasked_unmasked {v : Nat} (hp : (tblGet {} s.link.msix v).pending = true) :
    vecMasked (modMsix s v fun e => { e with masked := false }) v = tblGet false s.link.fnMask (poolOwner s v) := by
  have hstored : tblGet {} (tblMod {} s.link.msix v fun e => { e with masked := false }) v =
      { tblGet {} s.link.msix v with masked := false } := by
    rw [tblMod, tblSet, if_neg (fun h => ?_), tblGet, tblGet?_put_same]
    · rfl
    · have hpending : (tblGet {} s.link.msix v).pending = false := congrArg Msix.pending h
      exact Bool.noConfusion (hp.symm.trans hpending)
  change ((tblGet {} (tblMod {} s.link.msix v fun e => { e with masked := false }) v).masked
    || tblGet false s.link.fnMask (poolOwner s v)) = _
  rw [hstored, Bool.false_or]

theorem unmask_eq (s : State) (v : Nat) : unmask s v =
    (let e := tblGet {} s.link.msix v
      let t := modMsix s v fun e => { e with masked := false }
      if e.pending && messageDue s v && !tblGet false s.link.fnMask (poolOwner s v) then issueMessage t v else t) := by
  unfold unmask
  dsimp only
  cases hp : (tblGet {} s.link.msix v).pending with
  | false => simp only [Bool.false_and]
  | true =>
    rw [vecMasked_unmasked hp]
    rfl

end

/-- Settles O18: training by its guard, a request by FW_UP, and the messages by their entry. -/
theorem hostLinkTrainsAndAnswers : Obligations.HostLinkTrainsAndAnswers := by
  unfold Obligations.HostLinkTrainsAndAnswers
  intro s
  refine ⟨fun hp hr hh ho width gts hf => ?_, fun ht fn r => ⟨fun wr hf => exec_configRequest_retry ht hf fn r wr,
      fun hf hx => ⟨exec_configRequest_data ht hf hx r none, fun w => exec_configRequest_data ht hf hx r (some w)⟩⟩,
    fun ho width gts => congrArg Host.Outcome.next (if_pos (by simp [ho])),
    fun v hd hm => ⟨_, exec_msixMessage hd hm, rfl, rfl, rfl⟩, fun fn entry v hv => ?_⟩
  · rw [exec_linkRetrain hp hr hh ho hf]
    by_cases hfull : width = 16 ∧ gts = 32
    · simp [setFlagIf, hfull]
    · simp [setFlagIf, hfull]
  · change execMsixUnmask fn entry s = _
    rw [execMsixUnmask, hv]
    exact congrArg Host.Outcome.next (unmask_eq s v)

end Sys2Proof.Proofs
end

section
/-! PROOFS. Function-level reset and VF Enable (R127, R128). -/
namespace Sys2Proof.Proofs
open Sys2Proof.Machine Sys2Proof.Laws

/-! ### Tables by their entries -/

section
variable {α : Type} {t : Tbl α} {i : Nat} {a : α} {e : Nat × α}

/-- In canonical form an entry is what its key reads. -/
theorem tblGet?_of_mem (w : tblWf t = true) (h : (i, a) ∈ t) : tblGet? t i = some a := by
  induction t with
  | nil => exact absurd h List.not_mem_nil
  | cons x t ih =>
    obtain ⟨hlt, hwf⟩ := (tblWf_cons _ _).1 w
    rcases List.mem_cons.1 h with rfl | h
    · exact if_pos rfl
    · have hx := hlt _ h
      exact ((if_neg (Nat.ne_of_gt hx)).trans (if_neg (Nat.not_lt_of_gt hx))).trans (ih hwf h)

theorem mem_tblSet [DecidableEq α] {d : α} (h : e ∈ tblSet d t i a) : e = (i, a) ∨ e ∈ t := by
  rw [tblSet] at h
  split at h
  · exact .inr (tblDel_mem h)
  · exact tblPut_mem h

/-- Entries under a key speak for what is read there. -/
theorem tblGet_of_forall {p : α → Prop} {d : α} (hd : p d) (h : ∀ e, e ∈ t → e.1 = i → p e.2) : p (tblGet d t i) := by
  rw [tblGet]
  cases hg : tblGet? t i with
  | none => exact hd
  | some b => exact h _ (mem_of_tblGet? hg) rfl

end

/-! ### What a flag's set keeps -/

/-- A set of a flag is made of bits counted and requests collected on entries of the physical function. -/
theorem setFlag_keeps_of {p : State → Prop} (hbump : ∀ u id, p u → p (bump u id))
    (hcollect : ∀ u w, poolOwner u w = 0 → p u → p (collect u w)) {s : State} (h : p s) (id : Nat) : p (setFlag s id) := by
  have hmis (u : State) (hu : p u) : p (bumpMisrouted u) := by
    unfold bumpMisrouted
    dsimp only
    split
    next hc => exact hcollect _ _ (of_decide_eq_true ((Bool.and_eq_true _ _).mp hc).2) (hbump _ _ hu)
    next => exact hbump _ _ hu
  have hmisrouted (u : State) (hu : p u) : p (misrouted u) := by
    unfold misrouted
    dsimp only
    split
    · exact hmis u hu
    · split
      · exact hbump _ _ (hmis u hu)
      · split
        next ho => exact hcollect _ _ ho (hbump _ _ (hmis u hu))
        next => exact hmis _ (hbump _ _ (hmis u hu))
  have hrow (u : State) (i : Nat) (hu : p u) : p (requestRow u i) := by
    unfold requestRow requestPf
    split
    · split
      next ho => exact hcollect _ _ ho hu
      next => exact hmisrouted u hu
    · exact hu
  unfold setFlag
  dsimp only
  split
  · exact hrow _ _ (hbump _ _ (hrow _ _ (hbump _ _ h)))
  · exact hrow _ _ (hbump _ _ h)

theorem evc_setFlag (s : State) (id : Nat) : (setFlag s id).ev.evc = s.ev.evc :=
  setFlag_keeps_of (p := fun u => u.ev.evc = s.ev.evc) (fun _ _ h => h) (fun _ _ _ h => h) rfl id

theorem poolOwner_collect (s : State) (w v : Nat) : poolOwner (collect s w) v = poolOwner s v := by
  unfold poolOwner collect
  dsimp only
  split <;> rfl

/-- Entry `v` of the pool belongs to a virtual function, no request is collected on it, and it is as at reset. -/
def EntryFresh (v : Nat) (s : State) : Prop :=
  poolOwner s v ≠ 0 ∧ (∀ e, e ∈ s.ev.vec → e.1 = v → e.2.n = 0) ∧ ∀ e, e ∈ s.link.msix → e.1 ≠ v

theorem EntryFresh.collect {v w : Nat} {s : State} (h : EntryFresh v s) (hw : poolOwner s w = 0) :
    EntryFresh v (collect s w) := by
  obtain ⟨howner, hvec, hmsix⟩ := h
  have hne : w ≠ v := fun e => howner (e ▸ hw)
  refine ⟨by rw [poolOwner_collect]; exact howner, fun e he hk => ?_, fun e he => ?_⟩
  · rw [Machine.collect] at he
    dsimp only at he
    rcases mem_tblSet he with rfl | he
    · exact absurd hk hne
    · exact hvec e he hk
  · rw [Machine.collect] at he
    dsimp only at he
    split at he
    · rcases mem_tblSet he with rfl | he
      · exact hne
      · exact hmsix e he
    · exact hmsix e he

theorem EntryFresh.setFlag {v : Nat} {s : State} (h : EntryFresh v s) (id : Nat) : EntryFresh v (setFlag s id) :=
  setFlag_keeps_of (fun _ _ hu => hu) (fun _ _ hw hu => hu.collect hw) h id

/-- A fresh entry reads as at reset. -/
theorem EntryFresh.reads {v : Nat} {s : State} (h : EntryFresh v s) :
    tblGet {} s.link.msix v = {} ∧ (tblGet {} s.ev.vec v).n = 0 := by
  obtain ⟨-, hvec, hmsix⟩ := h
  exact ⟨tblGet_of_forall (p := fun x => x = {}) rfl fun e he hk => absurd hk (hmsix e he),
    tblGet_of_forall (p := fun x : VecReq => x.n = 0) rfl hvec⟩

theorem entryFresh_resetEntries {s : State} {k v : Nat} (h1 : 1 ≤ k) (he : s.link.vfEnable = true) (hk : k ≤ s.link.numVfs)
    (hlo : 32 * k ≤ v) (hhi : v < 32 * k + 32) : EntryFresh v (resetEntries s k) := by
  have hdiv : v / 32 = k := by omega
  refine ⟨?_, fun e hmem hkey => ?_, fun e hmem => ?_⟩
  · have howner : poolOwner (resetEntries s k) v = v / 32 := by
      have h32 : 32 ≤ v := by omega
      exact if_pos (by simp [resetEntries, he, h32, hdiv, hk])
    omega
  · obtain ⟨x, -, rfl⟩ := List.mem_map.1 hmem
    have hx : x.1 = v := by
      split at hkey <;> exact hkey
    rw [if_pos (by simp [hx, hlo, hhi])]
  · obtain ⟨-, hkeep⟩ := List.mem_filter.1 hmem
    rintro rfl
    simp [hlo, hhi] at hkeep

/-! ### The rings of a function -/

/-- From `s` to `t` only flags, their counters and requests move. -/
def FlagsMove (s t : State) : Prop :=
  ∃ flags occ vec link, t = { s with flags := flags, occ := occ, ev := { s.ev with vec := vec }, link := link }
    ∧ link.vfEnable = s.link.vfEnable ∧ link.numVfs = s.link.numVfs

theorem FlagsMove.setFlagIf {s t : State} (h : FlagsMove s t) (c : Bool) (id : Nat) : FlagsMove s (setFlagIf c id t) := by
  cases c with
  | false => exact h
  | true =>
    refine setFlag_keeps_of (fun u i hu => ?_) (fun u w _ hu => ?_) h id
    · obtain ⟨_, _, _, _, rfl, hlink⟩ := hu
      exact ⟨_, _, _, _, rfl, hlink⟩
    · obtain ⟨_, _, _, link, rfl, hlink⟩ := hu
      refine ⟨_, _, _, _, rfl, ?_⟩
      dsimp only
      split <;> exact hlink

theorem watchCols_flagsMove (before t : State) : FlagsMove t (watchCols before t) := by
  have watch (l : List Nat) : ∀ u, FlagsMove t u → FlagsMove t (l.foldl (fun u c =>
      setFlagIf (colEnabled t c && !colValid t c && (colValid before c || !colEnabled before c)) 3208 u) u) := by
    induction l with
    | nil => exact fun u h => h
    | cons c l ih => exact fun u h => ih _ (h.setFlagIf _ _)
  unfold watchCols
  exact watch _ t ⟨_, _, _, _, rfl, rfl, rfl⟩

/-- From `s` to `t` only slots of rings and the arbiter's admin command move. -/
def OwnersStay (s t : State) : Prop :=
  (∃ ring arb, t = { s with ring := ring, arb := arb })
  ∧ (tblWf s.ring = true → tblWf t.ring = true ∧ ∀ r, (ringOf t r).st = (ringOf s r).st ∧ (ringOf t r).fn = (ringOf s r).fn)

theorem ringOf_setRing_other (s : State) {r q : Nat} (g : Ring) (w : tblWf s.ring = true) (h : q ≠ r) :
    ringOf (setRing s r g) q = ringOf s q := tblGet_set_other w _ _ h

theorem ownersStay_modSlot (s : State) (r k : Nat) (f : Slot → Slot) : OwnersStay s (modSlot s r k f) := by
  refine ⟨⟨_, _, rfl⟩, fun w => ⟨tblWf_set w _ _ _, fun q => ?_⟩⟩
  by_cases hq : q = r
  · rw [modSlot, hq, ringOf_setRing _ _ _ w]
    exact ⟨rfl, rfl⟩
  · rw [modSlot, ringOf_setRing_other _ _ w hq]
    exact ⟨rfl, rfl⟩

/-- An outcome that does not halt its ring is entered in its slot alone. -/
theorem ownersStay_decide (s : State) (r k unit : Nat) {o : Outcome} (h : halts r o = false) :
    OwnersStay s (Machine.decide s r k unit o) := by
  unfold Machine.decide
  dsimp only
  split
  · exact ⟨⟨_, _, rfl⟩, fun w => ⟨w, fun _ => ⟨rfl, rfl⟩⟩⟩
  · rw [if_neg (Bool.eq_false_iff.1 h)]
    exact ownersStay_modSlot _ _ _ _

theorem ownersStay_adminDone (s : State) : OwnersStay s (adminDone s 0 0) := by
  unfold adminDone
  split
  · exact ⟨⟨_, _, rfl⟩, fun w => ⟨w, fun _ => ⟨rfl, rfl⟩⟩⟩
  next j _ =>
    dsimp only
    have hfree : OwnersStay s { s with arb := { s.arb with admin := none } } :=
      ⟨⟨_, _, rfl⟩, fun w => ⟨w, fun _ => ⟨rfl, rfl⟩⟩⟩
    split
    · exact hfree
    · split
      · split
        · exact ownersStay_decide { s with arb := { s.arb with admin := none } } _ _ _ rfl
        · exact ownersStay_decide { s with arb := { s.arb with admin := none } } _ _ _ rfl
      · exact hfree

theorem ownersStay_resetEnds (s : State) (r : Nat) (asked : Option Nat) : OwnersStay s (resetEnds s r asked) := by
  have hself : OwnersStay s s := ⟨⟨_, _, rfl⟩, fun w => ⟨w, fun _ => ⟨rfl, rfl⟩⟩⟩
  unfold resetEnds
  split
  · split
    · exact ownersStay_adminDone s
    · exact hself
  · exact hself

/-- A ring is taken off: it becomes unconfigured and its flag clears. -/
def dropRing (s : State) (e : Nat × Ring) : State := resetEnds (clearFlag (setRing s e.1 {}) (1024 + e.1)) e.1 e.2.resetBy

theorem dropRing_spec (s : State) (e : Nat × Ring) :
    (∃ ring arb flags, dropRing s e = { s with ring := ring, arb := arb, flags := flags })
    ∧ (tblWf s.ring = true → tblWf (dropRing s e).ring = true ∧ (ringOf (dropRing s e) e.1).st = 0
      ∧ ∀ r, r ≠ e.1 → (ringOf (dropRing s e) r).st = (ringOf s r).st ∧ (ringOf (dropRing s e) r).fn = (ringOf s r).fn) := by
  obtain ⟨⟨ring, arb, hshape⟩, howners⟩ :=
    ownersStay_resetEnds (clearFlag (setRing s e.1 {}) (1024 + e.1)) e.1 e.2.resetBy
  refine ⟨⟨ring, arb, _, hshape⟩, fun w => ?_⟩
  have hset : tblWf (setRing s e.1 {}).ring = true := by
    exact tblWf_set (t := s.ring) w {} e.1 {}
  obtain ⟨hwf, hsame⟩ := howners hset
  refine ⟨hwf, (hsame e.1).1.trans ?_, fun r hr => ?_⟩
  · exact congrArg Ring.st (ringOf_setRing s e.1 {} w)
  · obtain ⟨hst, hfn⟩ := hsame r
    have hother : ringOf (clearFlag (setRing s e.1 {}) (1024 + e.1)) r = ringOf s r := ringOf_setRing_other s {} w hr
    rw [hother] at hst hfn
    exact ⟨hst, hfn⟩

/-- After the rings of a list are dropped, a function without a ring outside the list has none. -/
theorem foldl_dropRing_spec (k : Nat) (l : List (Nat × Ring)) : ∀ s : State,
    (∃ ring arb flags, l.foldl dropRing s = { s with ring := ring, arb := arb, flags := flags })
    ∧ (tblWf s.ring = true → (∀ r, (ringOf s r).st ≠ 0 → (ringOf s r).fn = k → r ∈ l.map (·.1)) →
      tblWf (l.foldl dropRing s).ring = true
      ∧ ∀ r, (ringOf (l.foldl dropRing s) r).st ≠ 0 → (ringOf (l.foldl dropRing s) r).fn ≠ k) := by
  induction l with
  | nil => exact fun s => ⟨⟨_, _, _, rfl⟩, fun w h => ⟨w, fun r hst hfn => List.not_mem_nil (h r hst hfn)⟩⟩
  | cons e l ih =>
    intro s
    obtain ⟨⟨_, _, _, hshape⟩, hdrop⟩ := dropRing_spec s e
    obtain ⟨⟨_, _, _, hrest⟩, hclear⟩ := ih (dropRing s e)
    refine ⟨⟨_, _, _, by rw [List.foldl_cons, hrest, hshape]⟩, fun w h => ?_⟩
    obtain ⟨hwf, hzero, hother⟩ := hdrop w
    refine hclear hwf fun r hst hfn => ?_
    by_cases hr : r = e.1
    · exact absurd (hr ▸ hzero) hst
    · obtain ⟨hst', hfn'⟩ := hother r hr
      rw [hst'] at hst
      rw [hfn'] at hfn
      exact (List.mem_cons.1 (h r hst hfn)).resolve_left hr

theorem dropRings_spec (s : State) (k : Nat) :
    (∃ ring arb flags, dropRings s k = { s with ring := ring, arb := arb, flags := flags })
    ∧ (tblWf s.ring = true → tblWf (dropRings s k).ring = true
      ∧ ∀ r, (ringOf (dropRings s k) r).st ≠ 0 → (ringOf (dropRings s k) r).fn ≠ k) := by
  obtain ⟨hshape, hclear⟩ := foldl_dropRing_spec k (s.ring.filter fun e => e.2.st ≠ 0 && e.2.fn = k) s
  refine ⟨hshape, fun w => hclear w fun r hst hfn => ?_⟩
  have hstored : (r, ringOf s r) ∈ s.ring := by
    unfold ringOf tblGet at hst ⊢
    cases hg : tblGet? s.ring r with
    | none => rw [hg] at hst; exact absurd rfl hst
    | some g => exact mem_of_tblGet? hg
  exact List.mem_map.2 ⟨(r, ringOf s r), List.mem_filter.2 ⟨hstored, by simp [hst, hfn]⟩, rfl⟩

theorem ringOf_of_mem {s : State} (w : tblWf s.ring = true) {r : Nat} {g : Ring} (h : (r, g) ∈ s.ring) : ringOf s r = g := by
  rw [ringOf, tblGet, tblGet?_of_mem w h]
  rfl

/-! ### The reset -/

/-- A function's reset, seen from the state with its rings dropped: what is set, and then the flag. -/
theorem resetFunction_eq (s : State) (k : Nat) : ∃ u : State,
    FlagsMove (dropRings { s with runs := s.runs.map fun x => if x.fn = k then { x with cause := some .discarded } else x } k) u
    ∧ resetFunction s k = pushLog (setFlag (resetEntries (dropHarqOf
        { u with
          ev := { u.ev with evc := u.ev.evc.map fun e => if e.2.owner = some k then (e.1, { e.2 with val := 0 }) else e }
          mem := { u.mem with xlt := u.mem.xlt.filter fun e => e.ctx ≠ k } } k) k) (128 + k))
      { time := 0, code := 0x2002, func := k, index := k, arg0 := k } :=
  ⟨_, watchCols_flagsMove _ _, rfl⟩

/-- The clauses on a function's reset. -/
theorem resetFunction_clears (s : State) {k : Nat} (h1 : 1 ≤ k) :
    let t := resetFunction s k
    t.runs = s.runs.map (fun x => if x.fn = k then { x with cause := some .discarded } else x)
    ∧ (tblWf s.ring = true → ∀ r g, (r, g) ∈ t.ring → g.st ≠ 0 → g.fn ≠ k)
    ∧ t.ev.evc = s.ev.evc.map (fun e => if e.2.owner = some k then (e.1, { e.2 with val := 0 }) else e)
    ∧ t.mem = { s.mem with xlt := s.mem.xlt.filter fun e => e.ctx ≠ k }
    ∧ t.ce.harq = s.ce.harq.filter (fun e => e.2.func ≠ k)
    ∧ flag t (128 + k) = true
    ∧ (∃ e, tblGet? t.err.log ((t.err.head - 1) % 256) = some e ∧ e.code = 0x2002 ∧ e.func = k)
    ∧ (s.link.vfEnable = true → k ≤ s.link.numVfs → ∀ v, 32 * k ≤ v → v < 32 * k + 32 →
        tblGet {} t.link.msix v = {} ∧ (tblGet {} t.ev.vec v).n = 0) := by
  obtain ⟨u, ⟨_, _, _, link, hu, hvf, hn⟩, ht⟩ := resetFunction_eq s k
  obtain ⟨⟨ring, arb, _, hdrop⟩, hclear⟩ := dropRings_spec
    { s with runs := s.runs.map fun x => if x.fn = k then { x with cause := some .discarded } else x } k
  rw [hdrop] at hu hvf hn hclear
  subst hu
  generalize hX : resetEntries _ k = X at ht
  obtain ⟨_, _, _, _, hflag⟩ := setFlag_shape X (128 + k)
  intro t
  have hrest : t = pushLog (setFlag X (128 + k)) { time := 0, code := 0x2002, func := k, index := k, arg0 := k } := ht
  clear_value t
  subst hrest
  refine ⟨?runs, fun w r g hg hst hfn => ?rings, ?counters, ?mem, ?harq, flag_setFlag_same X (128 + k),
    ⟨_, tblGet?_put_same _ _ _, rfl, rfl⟩, fun he hk v hlo hhi => ?entries⟩
  case runs => exact (congrArg State.runs hflag).trans (by rw [← hX]; rfl)
  case rings =>
    have hring : (setFlag X (128 + k)).ring = ring := (congrArg State.ring hflag).trans (by rw [← hX]; rfl)
    have hmem : (r, g) ∈ (setFlag X (128 + k)).ring := hg
    rw [hring] at hmem
    obtain ⟨hwf, hnone⟩ := hclear w
    have hget := ringOf_of_mem hwf hmem
    have hgone := hnone r
    rw [hget] at hgone
    exact hgone hst hfn
  case counters => exact (evc_setFlag X (128 + k)).trans (by rw [← hX]; rfl)
  case mem => exact (congrArg State.mem hflag).trans (by rw [← hX]; rfl)
  case harq =>
    refine (congrArg (fun y : State => y.ce.harq) hflag).trans ?_
    subst hX
    exact List.filter_congr fun e _ => by simp
  case entries =>
    have hfresh : EntryFresh v X := hX ▸ entryFresh_resetEntries h1 (hvf.trans he) (by rw [← hn] at hk; exact hk) hlo hhi
    exact (hfresh.setFlag (128 + k)).reads

section
variable {s : State} (hf : s.boot.fwUp = true) (n : Nat)
include hf

theorem exec_vfEnableChange_on (he : s.link.vfEnable = false) {t : State}
    (ht : ((List.range n).map fun i => i + 1).foldl resetEntries s = t) :
    exec (.vfEnableChange true n) s = .next { t with link := { t.link with vfEnable := true, numVfs := n } } := by
  subst ht
  exact congrArg Host.Outcome.next (if_neg (by simp [hf, he]))

theorem exec_vfEnableChange_off (he : s.link.vfEnable = true) {t u : State}
    (hu : ((List.range s.link.numVfs).map fun i => i + 1).foldl resetFunction s = u)
    (ht : ((List.range s.link.numVfs).map fun i => i + 1).foldl resetEntries u = t) :
    exec (.vfEnableChange false n) s =
      .next { t with link := { t.link with vfEnable := false, numVfs := s.link.numVfs } } := by
  subst hu
  subst ht
  exact congrArg Host.Outcome.next (if_neg (by simp [hf, he]))

end

/-- Settles O19: a reset as the rings dropped, the parts that are set and a flag; the rows by their guards. -/
theorem functionResetsFollowVfEnable : Obligations.FunctionResetsFollowVfEnable := by
  unfold Obligations.FunctionResetsFollowVfEnable
  refine ⟨fun s k h1 => ?_, fun s => ⟨fun k he hk1 hk => ?_, fun k h => ?_, fun hf n => ?_, fun on n h => ?_⟩⟩
  · exact resetFunction_clears s h1
  · exact congrArg Host.Outcome.next (if_pos (by simp [he, hk1, hk]))
  · exact congrArg Host.Outcome.next (if_neg (by
      rcases h with h | h | h
      · simp [h]
      · simp [h]
      · simp [Nat.not_le_of_lt h]))
  · exact ⟨fun he => exec_vfEnableChange_on hf n he rfl, fun he => exec_vfEnableChange_off hf n he rfl rfl⟩
  · exact congrArg Host.Outcome.next (if_pos (by
      rcases h with h | h
      · simp [h]
      · simp [h]))

end Sys2Proof.Proofs
end

section
/-! PROOFS. Descriptors, completions and the grant (R135 to R145, R157 to R161). -/
namespace Sys2Proof.Proofs
open Sys2Proof.Machine Sys2Proof.Laws

/-! ### Fetch -/

section
variable {s t : State} {r : Nat}

theorem exec_descriptorFetch_idle (h : fetchDue s r = false) : exec (.descriptorFetch r) s = .next s :=
  congrArg Host.Outcome.next (if_pos (by simp [h]))

section
variable (hd : fetchDue s r = true)
include hd

theorem exec_descriptorFetch_fault {f : Fail}
    (h : readUse s (ringAgent r (ringOf s r)) ((ringOf s r).descBase + 64 * ((ringOf s r).fetched % depth (ringOf s r))) 64
      = (t, .fail f)) : exec (.descriptorFetch r) s = .next (fetchFault t r f) := by
  change execDescriptorFetch r s = _
  rw [execDescriptorFetch, if_neg (by simp [hd]), h]
  rfl

theorem exec_descriptorFetch_read {b : List Byte}
    (h : readUse s (ringAgent r (ringOf s r)) ((ringOf s r).descBase + 64 * ((ringOf s r).fetched % depth (ringOf s r))) 64
      = (t, .ok b)) : exec (.descriptorFetch r) s = .next (takeDesc t r (parseDesc b)) := by
  change execDescriptorFetch r s = _
  rw [execDescriptorFetch, if_neg (by simp [hd]), h]
  rfl

end

section
variable {d : Desc}

/-- A descriptor whose sequence number is the next one is accepted. -/
theorem takeDesc_next (h : d.seq = (ringOf t r).nextSeq) :
    takeDesc t r d = acceptSlot t r (slotFrom (ringOf t r).fetched d) :=
  if_pos (by omega)

theorem takeDesc_duplicate {n : Nat} (h0 : 0 < n) (hn : n ≤ (ringOf t r).accepted) (ha : (ringOf t r).accepted < 65536)
    (hs : d.seq < 65536) (h : (ringOf t r).nextSeq = (d.seq + n) % 65536) :
    takeDesc t r d = addSlot (setRing t r { ringOf t r with dup := satInc 0xFF (ringOf t r).dup }) r
      { slotFrom (ringOf t r).fetched d with st := .duplicate } := by
  have hdist : ((ringOf t r).nextSeq + 65536 - d.seq) % 65536 = n := by omega
  exact (if_neg (by omega)).trans (if_pos (by omega))

theorem takeDesc_foreign {n : Nat} (hn : (ringOf t r).accepted < n) (hm : n < 65536)
    (hs : d.seq < 65536)
    (h : (ringOf t r).nextSeq = (d.seq + n) % 65536) :
    takeDesc t r d = Machine.decide (addSlot t r { slotFrom (ringOf t r).fetched d with accepted := false }) r
      (ringOf t r).fetched 0 { status := 6, result := 0xE0 } := by
  have hdist : ((ringOf t r).nextSeq + 65536 - d.seq) % 65536 = n := by omega
  exact (if_neg (by omega)).trans (if_neg (by omega))

end

section
variable {x : Slot}

theorem acceptSlot_cancelled (h : x.seq ∈ (ringOf t r).cancels) :
    acceptSlot t r x = (let u := addSlot (acceptSeq t r) r { x with st := .decided { status := 1 } }
      setRing u r { ringOf u r with cancels := (ringOf t r).cancels.filter (· ≠ x.seq) }) :=
  if_pos (by simpa using h)

variable (h : x.seq ∉ (ringOf t r).cancels)
include h

theorem acceptSlot_running (hst : (ringOf t r).st = 1) : acceptSlot t r x = startHold (addSlot (acceptSeq t r) r x) r :=
  (if_neg (by simpa using h)).trans (if_neg (by simp [hst]))

theorem acceptSlot_flushed (hst : (ringOf t r).st ≠ 1) :
    acceptSlot t r x = addSlot (acceptSeq t r) r { x with st := .decided { status := 7, result := 0xF0 } } :=
  (if_neg (by simpa using h)).trans (if_pos hst)

end

/-! ### Completions -/

theorem exec_completionWrite_empty (h : (ringOf s r).slots = []) : exec (.completionWrite r) s = .next s := by
  change execCompletionWrite r s = _
  rw [execCompletionWrite]
  dsimp only
  rw [h]
  rfl

theorem exec_completionWrite_unconfigured (h : (ringOf s r).st = 0) : exec (.completionWrite r) s = .next s := by
  cases hl : (ringOf s r).slots with
  | nil => exact exec_completionWrite_empty hl
  | cons x rest =>
    change execCompletionWrite r s = _
    rw [execCompletionWrite]
    dsimp only
    rw [hl]
    exact congrArg Host.Outcome.next (if_pos h)

/-- What follows the write of slot `x`'s completion on a ring of function `fn` with this vector. -/
def retireSlot (r : Nat) (x : Slot) (fn vector : Nat) (w : State × Option Outcome) : State :=
  let u := historyHalt w.1 r x w.2
  let v := setRing u r { ringOf u r with slots := (ringOf u r).slots.tail, completed := (ringOf u r).completed + 1 }
  let v := x.binds.foldl releaseVer v
  finishReset (if x.irq then requestVec v fn vector else v) r

theorem exec_completionWrite_eq (hs : (ringOf s r).st ≠ 0) {x : Slot} {rest : List Slot} (h : (ringOf s r).slots = x :: rest) :
    exec (.completionWrite r) s = .next (match x.st with
      | .decided o => retireSlot r x (ringOf s r).fn (ringOf s r).vector (writeOutcome s r x o)
      | .duplicate => retireSlot r x (ringOf s r).fn (ringOf s r).vector (writeDuplicate s r x)
      | _ => s) := by
  change execCompletionWrite r s = _
  rw [execCompletionWrite]
  dsimp only
  rw [h]
  dsimp only
  rw [if_neg hs]
  rfl

end

/-- Settles O36: a fetch by what was read and its sequence number, a completion by its slot. -/
theorem descriptorsEnterAndCompletionsLeaveInOrder : Obligations.DescriptorsEnterAndCompletionsLeaveInOrder := by
  unfold Obligations.DescriptorsEnterAndCompletionsLeaveInOrder
  intro s r
  refine ⟨exec_descriptorFetch_idle, fun hd => ?fetch, fun hs x rest hx => ?complete, fun h => ?_⟩
  case fetch =>
    intro g t
    refine ⟨fun f h => exec_descriptorFetch_fault hd h, fun b h => ?_⟩
    intro h' d x
    rw [exec_descriptorFetch_read hd h]
    refine ⟨fun hseq hn hc => ?_, fun hseq hn hc hst => ?_, fun hseq hn hc hst => ?_, fun n h0 hn ha hs hseq => ?_,
      fun n hn hm hs hseq => ?_⟩
    · rw [takeDesc_next hseq, acceptSlot_cancelled hc]
      rfl
    · rw [takeDesc_next hseq, acceptSlot_running hc hst]
    · rw [takeDesc_next hseq, acceptSlot_flushed hc hst]
    · rw [takeDesc_duplicate h0 hn ha hs hseq]
    · rw [takeDesc_foreign hn hm hs hseq]
  case complete =>
    intro g finish
    rw [exec_completionWrite_eq hs hx]
    refine ⟨fun o ho => by rw [ho]; rfl, fun ho => by rw [ho]; rfl, fun ho => ?_⟩
    rcases ho with ho | ⟨id, ho⟩
    · rw [ho]
    · rw [ho]
  · rcases h with h | h
    · exact exec_completionWrite_unconfigured h
    · exact exec_completionWrite_empty h

/-! ### The grant -/

section
variable {s : State}

theorem exec_grant_idle (h : arbiterRuns s = false ∨ nextGrant s = none) : exec .grant s = .next s := by
  change execGrant s = _
  rw [execGrant]
  rcases h with h | h
  · exact congrArg Host.Outcome.next (if_pos (by simp [h]))
  · rw [h]
    exact congrArg Host.Outcome.next (ite_self s)

section
variable {r : Nat} (ha : arbiterRuns s = true) (hn : nextGrant s = some r) {t : State}
  (ht : t = { s with arb := { s.arb with last := tblPut s.arb.last (ringOf s r).prio r } })
include ha hn ht

theorem exec_grant_batch {c : Nat} (hc : ringCollector t r = some c) : exec .grant s = .next (grantBatch t r c (ringOf s r)) := by
  subst ht
  change execGrant s = _
  rw [execGrant, if_neg (by simp [ha]), hn]
  dsimp only
  rw [hc]
  rfl

theorem exec_grant_one (hc : ringCollector t r = none) {x : Slot} {rest : List Slot}
    (hx : waitingSlots (ringOf s r) = x :: rest) : exec .grant s = .next (grantOne t r (ringOf s r) x) := by
  subst ht
  change execGrant s = _
  rw [execGrant, if_neg (by simp [ha]), hn]
  dsimp only
  rw [hc, hx]
  rfl

end

/-- The ring that is served is eligible, and of no lower class than any eligible ring. -/
theorem nextGrant_first {r : Nat} (hn : nextGrant s = some r) {p : Nat} {e : Nat × Ring} (hp : p < 4) (he : e ∈ s.ring)
    (hprio : e.2.prio = p) (hel : eligible s e.1 e.2 = true) :
    ∃ q e', q ≤ p ∧ e' ∈ s.ring ∧ e'.1 = r ∧ e'.2.prio = q ∧ eligible s e'.1 e'.2 = true := by
  obtain ⟨r', hr'⟩ := nextOfPrio_some s p e he hprio hel
  obtain ⟨l, q, m, hsplit, hq, hbefore⟩ := List.findSome?_eq_some_iff.1 (show [0, 1, 2, 3].findSome? (nextOfPrio s) = some r from hn)
  obtain ⟨e', hmem, hkey, hprio', hel'⟩ := nextOfPrio_mem s q r hq
  refine ⟨q, e', Nat.le_of_not_lt fun hlt => ?_, hmem, hkey, hprio', hel'⟩
  have hsorted : ([0, 1, 2, 3] : List Nat).Pairwise (· < ·) := by decide
  have hin : p ∈ ([0, 1, 2, 3] : List Nat) := by
    rcases p with _ | _ | _ | _ | p
    · simp
    · simp
    · simp
    · simp
    · omega
  rw [hsplit] at hsorted hin
  obtain ⟨-, hqm, -⟩ := List.pairwise_append.1 hsorted
  rcases List.mem_append.1 hin with hin | hin
  · rw [hbefore p hin] at hr'
    cases hr'
  · rcases List.mem_cons.1 hin with rfl | hin
    · exact Nat.lt_irrefl _ hlt
    · exact absurd (List.rel_of_pairwise_cons hqm hin) (by omega)

end

section
variable {t : State} {r : Nat} {g : Ring} {x : Slot}

theorem grantOne_late (h : late t x.deadline = true) : grantOne t r g x = endAtGrant t r x.k 2 0 0 := if_pos h

variable (h : late t x.deadline = false)
include h

theorem grantOne_noList (hk : x.kind ≠ 0) : grantOne t r g x = endAtGrant t r x.k 6 0xE1 0 :=
  (if_neg (Bool.eq_false_iff.1 h)).trans (if_pos hk)

theorem grantOne_floor (hk : x.kind = 0) (hf : t.boot.floorCap < classFloor g.cls) :
    grantOne t r g x = endAtGrant t r x.k 6 0xE2 0 :=
  (if_neg (Bool.eq_false_iff.1 h)).trans ((if_neg (not_not.2 hk)).trans (if_pos hf))

variable (hk : x.kind = 0) (hf : classFloor g.cls ≤ t.boot.floorCap) {u : State}
include hk hf

theorem grantOne_fetch : grantOne t r g x = (match fetchList t { ctx := g.fn, cls := g.cls } x with
    | (u, .fail f) => endAtGrant u r x.k f.status f.result (fetchDetail f)
    | (u, .ok w) => match hdrBad u g.cls x.deadline w with
      | some c => endAtGrant u r x.k 6 c 0
      | none => dispatch u r g x w) :=
  (if_neg (Bool.eq_false_iff.1 h)).trans ((if_neg (not_not.2 hk)).trans (if_neg (Nat.not_lt.2 hf)))

end

/-- Settles O37: the ring by its class, the slot by its checks in order. -/
theorem grantDispatchesTheNextRing : Obligations.GrantDispatchesTheNextRing := by
  unfold Obligations.GrantDispatchesTheNextRing
  refine ⟨fun s => exec_grant_idle, fun s r c ha hn => ?batch, fun s r x rest ha hn => ?one⟩
  case batch =>
    intro t hc
    exact exec_grant_batch ha hn rfl hc
  case one =>
    intro g t hc hx
    have hone : exec .grant s = .next (grantOne t r g x) := exec_grant_one ha hn rfl hc hx
    rw [hone]
    refine ⟨fun h => ?_, fun h hk => ?_, fun h hk hf => ?_, fun h hk hf u => ?_, fun p e => nextGrant_first hn⟩
    · rw [grantOne_late (t := t) h]
    · rw [grantOne_noList (t := t) h hk]
    · rw [grantOne_floor (t := t) h hk hf]
    · rw [grantOne_fetch (t := t) h hk hf]
      refine ⟨fun f hl => by rw [hl], fun w hl => ⟨fun c hb => ?_, fun hb => ?_⟩⟩
      · rw [hl]
        dsimp only
        rw [hb]
      · rw [hl]
        dsimp only
        rw [hb]

end Sys2Proof.Proofs
end

section
/-! PROOFS. Admin rings and their commands (R115 to R124, R137, R138, R159). -/
namespace Sys2Proof.Proofs
open Sys2Proof.Machine Sys2Proof.Laws

/-! ### Taking and running an admin command -/

section
variable {s : State}

theorem exec_adminTake_idle (h : ezdanRuns s = false ∨ s.arb.admin ≠ none ∨ adminIdle s = false ∨ nextAdmin s = none) :
    exec .adminTake s = .next s := by
  change execAdminTake s = _
  rw [execAdminTake]
  rcases h with h | h | h | h
  · exact congrArg Host.Outcome.next (if_pos (by simp [h]))
  · exact congrArg Host.Outcome.next (if_pos (by simp [Option.isSome_iff_ne_none.2 h]))
  · exact congrArg Host.Outcome.next (if_pos (by simp [h]))
  · rw [h]
    exact congrArg Host.Outcome.next (ite_self s)

/-- The next ready admin descriptor is taken: late-cut, refused, or in execution. -/
theorem exec_adminTake_taken (he : ezdanRuns s = true) (hn : s.arb.admin = none) (hi : adminIdle s = true) {n : Nat} {x : Slot}
    (hx : nextAdmin s = some (n, x)) {t : State} (ht : t = { s with arb := { s.arb with adminLast := n } }) :
    exec .adminTake s = .next (
      if late s x.deadline then Machine.decide t n x.k 0 { status := 2, grant := some s.etu.count }
      else if x.kind ≠ 1 || x.cmdAddr % 256 = 0 || 8 < x.cmdAddr % 256 then
        Machine.decide t n x.k 0 { status := 6, result := 1, grant := some s.etu.count }
      else
        let u := modSlot t n x.k fun y => { y with st := .running s.arb.runs }
        { u with arb := { u.arb with
            runs := s.arb.runs + 1
            admin := some { ring := n, k := x.k, opcode := x.cmdAddr % 256, args := x.args, grant := s.etu.count.toNat } } }) := by
  subst ht
  change execAdminTake s = _
  rw [execAdminTake, if_neg (by simp [he, hn, hi]), hx]
  rfl

theorem adminRun_idle (h : ezdanRuns s = false ∨ s.arb.admin = none) (opcode : Nat) (f : AdminJob → State) :
    adminRun s opcode f = s := by
  unfold adminRun
  rcases h with h | h
  · split
    · exact if_neg (by simp [h])
    · rfl
  · rw [h]

section
variable {j : AdminJob} (he : ezdanRuns s = true) (hj : s.arb.admin = some j) (hb : j.begun = false) (f : AdminJob → State)
include he hj hb

/-- A command whose own ring has left RUNNING is stopped. -/
theorem adminRun_stopped (hr : (ringOf s j.ring).st ≠ 1) : adminRun s j.opcode f = adminDone s 7 0xF1 := by
  unfold adminRun
  rw [hj]
  exact (if_pos (by simp [he, hb])).trans (if_neg hr)

theorem adminRun_runs (hr : (ringOf s j.ring).st = 1) : adminRun s j.opcode f = f j := by
  unfold adminRun
  rw [hj]
  exact (if_pos (by simp [he, hb])).trans (if_pos hr)

end

theorem afterRes_fail {α β : Type} {z : State × Res α} {t : State} {e : Fail} (h : z = (t, .fail e)) {f : State → α → β}
    {g : State → Fail → β} : afterRes z f g = g t e := by rw [h]; rfl

end

/-! ### Rings -/

/-- What RING_SETUP does with its arguments. -/
def setupRing (s : State) (j : AdminJob) : State :=
  let a0 := argAt j.args 0
  let a1 := argAt j.args 1
  match setupRefusal s (bits a0 9 0) (bits a0 21 16) (bits a0 29 24) (bits a1 2 0) with
  | some c => adminDone s 6 c
  | none =>
    afterRes (readUse s { ctx := 0, cls := 7 } (arg64 j.args 2) 64)
      (fun s b =>
        let e := parseEntry b
        let poll := e.mode = 1 && feat s 7
        if entryFits s e (bits a0 21 16) poll then
          adminDone (setRing s (bits a0 9 0)
            (ringFrom e (bits a0 21 16) (bits a0 29 24) (bits a1 2 0) (bits a1 5 4) e.inflight poll)) 0 0
        else adminDone s 6 7)
      fun s _ => adminDone s 6 7

/-- What RING_TEARDOWN does with its arguments. -/
def teardownRing (s : State) (j : AdminJob) : State :=
  let r := bits (argAt j.args 0) 9 0
  if r < 8 || beyondRings s r || (ringOf s r).st = 0 then adminDone s 6 2
  else if (ringOf s r).completed < (ringOf s r).producer || (ringOf s r).st = 3 then adminDone s 6 3
  else adminDone (watchCols s (clearFlag (setRing s r {}) (1024 + r))) 0 0

/-- What RING_RESET does with its arguments. -/
def resetRing (s : State) (j : AdminJob) : State :=
  let r := bits (argAt j.args 0) 9 0
  if r = j.ring || beyondRings s r || (ringOf s r).st = 0 then adminDone s 6 2
  else
    let s := { s with arb := { s.arb with admin := some { j with begun := true } } }
    finishReset (if (ringOf s r).st = 3 then setRing s r { ringOf s r with resetBy := some j.ring }
      else startReset s r (some j.ring)) r

theorem exec_ringSetup (s : State) : exec .ringSetup s = .next (adminRun s 1 (setupRing s)) := rfl
theorem exec_ringTeardown (s : State) : exec .ringTeardown s = .next (adminRun s 2 (teardownRing s)) := rfl
theorem exec_ringReset (s : State) : exec .ringReset s = .next (adminRun s 3 (resetRing s)) := rfl

section
variable {s : State} {j : AdminJob}

theorem setupRing_refused {c : Nat} (h : setupRefusal s (bits (argAt j.args 0) 9 0) (bits (argAt j.args 0) 21 16)
    (bits (argAt j.args 0) 29 24) (bits (argAt j.args 1) 2 0) = some c) : setupRing s j = adminDone s 6 c := by
  rw [setupRing, h]

theorem setupRing_fault (h : setupRefusal s (bits (argAt j.args 0) 9 0) (bits (argAt j.args 0) 21 16)
    (bits (argAt j.args 0) 29 24) (bits (argAt j.args 1) 2 0) = none) {t : State} {f : Fail}
    (hread : readUse s { ctx := 0, cls := 7 } (arg64 j.args 2) 64 = (t, .fail f)) : setupRing s j = adminDone t 6 7 := by
  rw [setupRing, h]
  exact afterRes_fail hread

theorem setupRing_read (h : setupRefusal s (bits (argAt j.args 0) 9 0) (bits (argAt j.args 0) 21 16)
    (bits (argAt j.args 0) 29 24) (bits (argAt j.args 1) 2 0) = none) {t : State} {b : List Byte}
    (hread : readUse s { ctx := 0, cls := 7 } (arg64 j.args 2) 64 = (t, .ok b)) :
    setupRing s j = (let e := parseEntry b
      let poll := e.mode = 1 && feat t 7
      if entryFits t e (bits (argAt j.args 0) 21 16) poll then
        adminDone (setRing t (bits (argAt j.args 0) 9 0) (ringFrom e (bits (argAt j.args 0) 21 16)
          (bits (argAt j.args 0) 29 24) (bits (argAt j.args 1) 2 0) (bits (argAt j.args 1) 5 4) e.inflight poll)) 0 0
      else adminDone t 6 7) := by
  rw [setupRing, h]
  exact afterRes_ok hread

theorem teardownRing_refused (h : bits (argAt j.args 0) 9 0 < 8 ∨ beyondRings s (bits (argAt j.args 0) 9 0) = true
    ∨ (ringOf s (bits (argAt j.args 0) 9 0)).st = 0) : teardownRing s j = adminDone s 6 2 :=
  if_pos (by rcases h with h | h | h <;> simp [h])

section
variable (h8 : 8 ≤ bits (argAt j.args 0) 9 0) (hb : beyondRings s (bits (argAt j.args 0) 9 0) = false)
  (hst : (ringOf s (bits (argAt j.args 0) 9 0)).st ≠ 0)
include h8 hb hst

theorem teardownRing_busy (h : (ringOf s (bits (argAt j.args 0) 9 0)).completed < (ringOf s (bits (argAt j.args 0) 9 0)).producer
    ∨ (ringOf s (bits (argAt j.args 0) 9 0)).st = 3) : teardownRing s j = adminDone s 6 3 :=
  (if_neg (by simp [Nat.not_lt_of_le h8, hb, hst])).trans (if_pos (by rcases h with h | h <;> simp [h]))

theorem teardownRing_removes (h3 : (ringOf s (bits (argAt j.args 0) 9 0)).st ≠ 3)
    (h : (ringOf s (bits (argAt j.args 0) 9 0)).producer ≤ (ringOf s (bits (argAt j.args 0) 9 0)).completed) :
    teardownRing s j = adminDone (watchCols s (clearFlag (setRing s (bits (argAt j.args 0) 9 0) {})
      (1024 + bits (argAt j.args 0) 9 0))) 0 0 :=
  (if_neg (by simp [Nat.not_lt_of_le h8, hb, hst])).trans (if_neg (by simp [Nat.not_lt_of_le h, h3]))

end

theorem resetRing_refused (h : bits (argAt j.args 0) 9 0 = j.ring ∨ beyondRings s (bits (argAt j.args 0) 9 0) = true
    ∨ (ringOf s (bits (argAt j.args 0) 9 0)).st = 0) : resetRing s j = adminDone s 6 2 :=
  if_pos (by rcases h with h | h | h <;> simp [h])

section
variable (hr : bits (argAt j.args 0) 9 0 ≠ j.ring) (hb : beyondRings s (bits (argAt j.args 0) 9 0) = false)
  (hst : (ringOf s (bits (argAt j.args 0) 9 0)).st ≠ 0) {t : State}
  (ht : t = { s with arb := { s.arb with admin := some { j with begun := true } } })
include hr hb hst ht

theorem resetRing_starts (h : (ringOf s (bits (argAt j.args 0) 9 0)).st ≠ 3) : resetRing s j =
    finishReset (startReset t (bits (argAt j.args 0) 9 0) (some j.ring)) (bits (argAt j.args 0) 9 0) := by
  subst ht
  exact (if_neg (by simp [hr, hb, hst])).trans (congrArg (finishReset · _) (if_neg h))

theorem resetRing_joins (h : (ringOf s (bits (argAt j.args 0) 9 0)).st = 3) : resetRing s j =
    finishReset (setRing t (bits (argAt j.args 0) 9 0)
      { ringOf t (bits (argAt j.args 0) 9 0) with resetBy := some j.ring }) (bits (argAt j.args 0) 9 0) := by
  subst ht
  exact (if_neg (by simp [hr, hb, hst])).trans (congrArg (finishReset · _) (if_pos h))

end

end

/-- Settles O38: the descriptor that is taken, and each ring command by its own ring's state and its checks. -/
theorem adminRingsSetUpTearDownAndReset : Obligations.AdminRingsSetUpTearDownAndReset := by
  unfold Obligations.AdminRingsSetUpTearDownAndReset
  intro s
  refine ⟨exec_adminTake_idle, fun he hn hi n x hx => ?take, fun h => ?idle, fun he j hj hb hr => ?stopped,
    fun he j hj hb hr => ?runs⟩
  case take =>
    intro t
    rw [exec_adminTake_taken he hn hi hx (t := t) rfl]
    refine ⟨fun h => congrArg Host.Outcome.next (if_pos h),
      fun h hbad => congrArg Host.Outcome.next ((if_neg (Bool.eq_false_iff.1 h)).trans (if_pos ?_)),
      fun h hk h1 h8 => congrArg Host.Outcome.next ((if_neg (Bool.eq_false_iff.1 h)).trans (if_neg ?_))⟩
    · rcases hbad with hbad | hbad | hbad
      · simp [hbad]
      · simp [hbad]
      · simp [hbad]
    · simp [hk, Nat.pos_iff_ne_zero.1 h1, h8]
  case idle =>
    rw [exec_ringSetup, exec_ringTeardown, exec_ringReset]
    exact ⟨congrArg _ (adminRun_idle h _ _), congrArg _ (adminRun_idle h _ _), congrArg _ (adminRun_idle h _ _)⟩
  case stopped =>
    have hstop (f : AdminJob → State) : adminRun s j.opcode f = adminDone s 7 0xF1 := adminRun_stopped he hj hb f hr
    refine ⟨fun ho => ?_, fun ho => ?_, fun ho => ?_⟩
    · rw [exec_ringSetup, ← ho, hstop]
    · rw [exec_ringTeardown, ← ho, hstop]
    · rw [exec_ringReset, ← ho, hstop]
  case runs =>
    intro a0 a1 r fn refusal
    have hrun (f : AdminJob → State) : adminRun s j.opcode f = f j := adminRun_runs he hj hb f hr
    have hsetup (ho : j.opcode = 1) : exec .ringSetup s = .next (setupRing s j) := by rw [exec_ringSetup, ← ho, hrun]
    have hteardown (ho : j.opcode = 2) : exec .ringTeardown s = .next (teardownRing s j) := by
      rw [exec_ringTeardown, ← ho, hrun]
    have hreset (ho : j.opcode = 3) : exec .ringReset s = .next (resetRing s j) := by rw [exec_ringReset, ← ho, hrun]
    refine ⟨fun ho c hc => ?_, fun ho hc t f hread => ?_, fun ho hc t b hread => ?_, fun ho => ?_, fun ho => ?_⟩
    · rw [hsetup ho, setupRing_refused hc]
    · rw [hsetup ho, setupRing_fault hc hread]
    · rw [hsetup ho, setupRing_read hc hread]
      exact ⟨fun hfit => congrArg Host.Outcome.next (if_pos hfit),
        fun hfit => congrArg Host.Outcome.next (if_neg (Bool.eq_false_iff.1 hfit))⟩
    · rw [hteardown ho]
      exact ⟨fun h => congrArg _ (teardownRing_refused h), fun h8 hbey hst =>
        ⟨fun h => congrArg _ (teardownRing_busy h8 hbey hst h),
          fun h3 h => congrArg _ (teardownRing_removes h8 hbey hst h3 h)⟩⟩
    · rw [hreset ho]
      exact ⟨fun h => congrArg _ (resetRing_refused h), fun hne hbey hst =>
        ⟨fun h => congrArg _ (resetRing_starts hne hbey hst rfl h),
          fun h => congrArg _ (resetRing_joins hne hbey hst rfl h)⟩⟩

end Sys2Proof.Proofs
end

section
/-! PROOFS. Admin commands on counters, contexts, limits and peers, and the admin rings' registers (R115, R119 to R124, R139, R161). -/
namespace Sys2Proof.Proofs
open Sys2Proof.Machine Sys2Proof.Laws

/-! ### Event counters -/

/-- The counters of a range go to a function. -/
def assignRange (s : State) (first count fn : Nat) : State :=
  ((List.range count).map (first + ·)).foldl (fun s n => setEvc s n { val := 0, owner := some fn, frozen := false }) s

theorem assignRange_succ (s : State) (first count fn : Nat) : assignRange s first (count + 1) fn =
    setEvc (assignRange s first count fn) (first + count) { val := 0, owner := some fn, frozen := false } := by
  simp only [assignRange, List.range_succ, List.map_append, List.foldl_append, List.map_cons, List.map_nil, List.foldl_cons,
    List.foldl_nil]

theorem assignRange_shape (s : State) (first count fn : Nat) :
    assignRange s first count fn = { s with ev := { s.ev with evc := (assignRange s first count fn).ev.evc } } := by
  induction count with
  | zero => rfl
  | succ n ih =>
    rw [assignRange_succ, ih]
    rfl

theorem evc_assignRange {s : State} (w : tblWf s.ev.evc = true) (first count fn : Nat) :
    tblWf (assignRange s first count fn).ev.evc = true
    ∧ ∀ n, evc (assignRange s first count fn) n =
      if first ≤ n ∧ n < first + count then { val := 0, owner := some fn, frozen := false } else evc s n := by
  induction count with
  | zero => exact ⟨w, fun n => (if_neg (by omega)).symm⟩
  | succ c ih =>
    obtain ⟨hwf, hget⟩ := ih
    rw [assignRange_succ]
    refine ⟨evc_wf _ _ _ hwf, fun n => ?_⟩
    by_cases hn : n = first + c
    · rw [hn, evc_same _ _ _ hwf, if_pos (by omega)]
    · rw [evc_other _ _ _ _ hwf hn, hget n]
      by_cases hin : first ≤ n ∧ n < first + c
      · rw [if_pos hin, if_pos (by omega)]
      · rw [if_neg hin, if_neg (by omega)]

/-- What EVC_ASSIGN does with its arguments. -/
def assignCounters (s : State) (j : AdminJob) : State :=
  let first := bits (argAt j.args 0) 11 0
  let count := bits (argAt j.args 1) 12 0
  let fn := bits (argAt j.args 2) 5 0
  if badFunction s fn then adminDone s 6 5
  else if ((List.range count).map (first + ·)).any
      (fun n => match (evc s n).owner with | some f => f ≠ fn | none => false) then adminDone s 6 6
  else if count = 0 || 4096 < first + count then adminDone s 6 7
  else adminDone (assignRange s first count fn) 0 0

theorem exec_evcAssign (s : State) : exec .evcAssign s = .next (adminRun s 4 (assignCounters s)) := rfl

theorem range_owned_iff (s : State) (first count fn : Nat) :
    ((List.range count).map (first + ·)).any (fun n => match (evc s n).owner with | some f => f ≠ fn | none => false) = true ↔
      ∃ n, first ≤ n ∧ n < first + count ∧ ∃ f, (evc s n).owner = some f ∧ f ≠ fn := by
  have howned (n : Nat) : (match (evc s n).owner with | some f => Decidable.decide (f ≠ fn) | none => false) = true ↔
      ∃ f, (evc s n).owner = some f ∧ f ≠ fn := by
    cases (evc s n).owner with
    | none => simp
    | some f => simp
  rw [List.any_map, List.any_eq_true]
  constructor
  · rintro ⟨i, hi, h⟩
    exact ⟨first + i, by omega, by have := List.mem_range.1 hi; omega, (howned _).1 h⟩
  · rintro ⟨n, hlo, hhi, h⟩
    refine ⟨n - first, List.mem_range.2 (by omega), ?_⟩
    have hn : (fun x => first + x) (n - first) = n := Nat.add_sub_cancel' hlo
    exact (howned _).2 (by rw [hn]; exact h)

/-! ### The other commands -/

section
variable (s : State) (j : AdminJob)

/-- What XLT_CTX_SET does with its arguments. -/
def setContext : State :=
  let c := bits (argAt j.args 0) 5 0
  let root := arg64 j.args 2
  if root % 4096 ≠ 0 || 2 ^ 52 ≤ root then adminDone s 6 7
  else adminDone { s with mem := { s.mem with
      ctx := tblSet {} s.mem.ctx c { ctxOf s c with
        en := bitAt (argAt j.args 0) 8, wasEn := (ctxOf s c).wasEn || bitAt (argAt j.args 0) 8, root := root }
      xlt := s.mem.xlt.filter fun e => e.ctx ≠ c } } 0 0

theorem exec_xltCtxSet : exec .xltCtxSet s = .next (adminRun s 5 (setContext s)) := rfl

/-- A cached translation that an invalidation with these arguments keeps. -/
def keepsTranslation (e : XltEntry) : Bool :=
  e.ctx ≠ bits (argAt j.args 0) 5 0 || (!bitAt (argAt j.args 0) 8
    && ((arg64 j.args 2 + arg64 j.args 4 * 4096 - 1) / 4096 < e.firstPage || e.firstPage + e.pages ≤ arg64 j.args 2 / 4096))

/-- What XLT_INVALIDATE does with its arguments. -/
def dropTranslations : State :=
  if !bitAt (argAt j.args 0) 8 && (arg64 j.args 4 = 0 || 2 ^ 48 < arg64 j.args 2 + arg64 j.args 4 * 4096) then adminDone s 6 7
  else adminDone { s with mem := { s.mem with xlt := s.mem.xlt.filter (keepsTranslation j) } } 0 0

theorem exec_xltInvalidate : exec .xltInvalidate s = .next (adminRun s 6 (dropTranslations s)) := rfl

/-- What VF_LIMITS does with its arguments. -/
def setLimits : State :=
  let fn := bits (argAt j.args 0) 5 0
  let rings := bits (argAt j.args 1) 6 0
  let arrays := bits (argAt j.args 2) 3 0
  if badFunction s fn then adminDone s 6 5
  else if rings = 0 || 64 < rings || arrays = 0 || 8 < arrays then adminDone s 6 7
  else adminDone { s with limits := tblPut s.limits fn { rings := rings, arrays := arrays } } 0 0

theorem exec_vfLimits : exec .vfLimits s = .next (adminRun s 7 (setLimits s)) := rfl

/-- What PEER_CFG does with its arguments. -/
def askPeer : State :=
  let d := bits (argAt j.args 0) 1 0
  if !working s 12 d || peerSegments s d ≤ bits (argAt j.args 0) 5 4 then adminDone s 6 7 else peerResult s j

theorem exec_peerCfg : exec .peerCfg s = .next (adminRun s 8 (askPeer s)) := rfl

end

section
variable {s : State} {j : AdminJob}

theorem assignCounters_owned (hf : fnExists s (bits (argAt j.args 2) 5 0) = true)
    (ho : ∃ n, bits (argAt j.args 0) 11 0 ≤ n ∧ n < bits (argAt j.args 0) 11 0 + bits (argAt j.args 1) 12 0
      ∧ ∃ f, (evc s n).owner = some f ∧ f ≠ bits (argAt j.args 2) 5 0) : assignCounters s j = adminDone s 6 6 :=
  (if_neg (by simp [badFunction, hf])).trans (if_pos ((range_owned_iff s _ _ _).2 ho))

theorem assignCounters_free (hf : fnExists s (bits (argAt j.args 2) 5 0) = true)
    (ho : ¬ ∃ n, bits (argAt j.args 0) 11 0 ≤ n ∧ n < bits (argAt j.args 0) 11 0 + bits (argAt j.args 1) 12 0
      ∧ ∃ f, (evc s n).owner = some f ∧ f ≠ bits (argAt j.args 2) 5 0)
    (hc : 0 < bits (argAt j.args 1) 12 0) (hr : bits (argAt j.args 0) 11 0 + bits (argAt j.args 1) 12 0 ≤ 4096) :
    assignCounters s j = adminDone
      (assignRange s (bits (argAt j.args 0) 11 0) (bits (argAt j.args 1) 12 0) (bits (argAt j.args 2) 5 0)) 0 0 :=
  (if_neg (by simp [badFunction, hf])).trans ((if_neg (mt (range_owned_iff s _ _ _).1 ho)).trans
    (if_neg (by simp [Nat.pos_iff_ne_zero.1 hc, Nat.not_lt_of_le hr])))

theorem mem_keptTranslations (ha : bitAt (argAt j.args 0) 8 = false) (l : List XltEntry) (e : XltEntry) :
    e ∈ l.filter (keepsTranslation j) ↔ e ∈ l ∧ (e.ctx = bits (argAt j.args 0) 5 0 →
      (arg64 j.args 2 + arg64 j.args 4 * 4096 - 1) / 4096 < e.firstPage ∨ e.firstPage + e.pages ≤ arg64 j.args 2 / 4096) := by
  rw [List.mem_filter]
  simp only [keepsTranslation, ha, Bool.or_eq_true, Bool.not_false, Bool.true_and, decide_eq_true_eq, ne_eq]
  tauto

theorem keepsTranslation_all (ha : bitAt (argAt j.args 0) 8 = true) :
    keepsTranslation j = fun e => Decidable.decide (e.ctx ≠ bits (argAt j.args 0) 5 0) := by
  funext e
  simp [keepsTranslation, ha]

end

/-- Settles O39: each command by the checks of its arguments. -/
theorem adminCommandsActOrRefuse : Obligations.AdminCommandsActOrRefuse := by
  unfold Obligations.AdminCommandsActOrRefuse
  intro s j he hj hb hr
  have hrun (f : AdminJob → State) : adminRun s j.opcode f = f j := adminRun_runs he hj hb f hr
  refine ⟨fun ho => ?counters, fun ho => ?context, fun ho => ?translations, fun ho => ?limits, fun ho => ?peer⟩
  case counters =>
    have hexec : exec .evcAssign s = .next (assignCounters s j) := by rw [exec_evcAssign, ← ho, hrun]
    rw [hexec]
    refine ⟨fun hf hown => congrArg _ (assignCounters_owned hf hown), fun hf hown hc hrange w => ?_⟩
    exact ⟨_, congrArg _ (assignCounters_free hf hown hc hrange), assignRange_shape _ _ _ _, (evc_assignRange w _ _ _).2⟩
  case context =>
    have hexec : exec .xltCtxSet s = .next (setContext s j) := by rw [exec_xltCtxSet, ← ho, hrun]
    rw [hexec]
    exact ⟨fun halign hlow => congrArg Host.Outcome.next (if_neg (by simp [halign]; omega)),
      fun halign => congrArg Host.Outcome.next (if_pos (by simp [halign]))⟩
  case translations =>
    have hexec : exec .xltInvalidate s = .next (dropTranslations s j) := by rw [exec_xltInvalidate, ← ho, hrun]
    rw [hexec]
    refine ⟨fun hp hrange hall => ⟨_, congrArg Host.Outcome.next (if_neg ?_), mem_keptTranslations hall s.mem.xlt⟩,
      fun hall => ?_⟩
    · have hin : ¬ 2 ^ 48 < arg64 j.args 2 + arg64 j.args 4 * 4096 := Nat.not_lt_of_le hrange
      simp only [hall, hin, Nat.pos_iff_ne_zero.1 hp]
      decide
    · rw [dropTranslations, if_neg (by simp [hall]), keepsTranslation_all hall]
  case limits =>
    have hexec : exec .vfLimits s = .next (setLimits s j) := by rw [exec_vfLimits, ← ho, hrun]
    rw [hexec]
    refine ⟨fun hf h1 h64 ha1 ha8 => congrArg Host.Outcome.next ((if_neg (by simp [badFunction, hf])).trans (if_neg ?_)),
      fun hf => congrArg Host.Outcome.next (if_pos (by simp [badFunction, hf]))⟩
    simp [Nat.pos_iff_ne_zero.1 h1, Nat.not_lt_of_le h64, Nat.pos_iff_ne_zero.1 ha1, Nat.not_lt_of_le ha8]
  case peer =>
    have hexec : exec .peerCfg s = .next (askPeer s j) := by rw [exec_peerCfg, ← ho, hrun]
    rw [hexec]
    refine ⟨fun hw hseg => ?_, fun h => congrArg Host.Outcome.next (if_pos (by rcases h with h | h <;> simp [h]))⟩
    have hpeer : askPeer s j = peerResult s j := if_neg (by simp [hw, Nat.not_le_of_lt hseg])
    rw [hpeer]
    exact ⟨fun t hwrite => congrArg Host.Outcome.next (afterRes_ok hwrite),
      fun t f hwrite => congrArg Host.Outcome.next (afterRes_fail hwrite)⟩

/-! ### Admin rings by register -/

/-- A mask with one bit acts on that bit's index alone. -/
theorem foldl_oneBit (f : State → Nat → State) {n : Nat} (hn : n < 8) (s : State) :
    (List.range 8).foldl (fun s i => if (BitVec.ofNat 8 (2 ^ n)).getLsbD i then f s i else s) s = f s n := by
  have hbit (i : Nat) (hi : i < 8) : (BitVec.ofNat 8 (2 ^ n)).getLsbD i = Decidable.decide (n = i) := by
    rw [BitVec.getLsbD_ofNat, Nat.testBit_two_pow]
    simp [hi]
  have hmarks (k : Nat) (hk : k ≤ 8) :
      (List.range k).foldl (fun s i => if (BitVec.ofNat 8 (2 ^ n)).getLsbD i then f s i else s) s =
        if n < k then f s n else s := by
    induction k with
    | zero => rfl
    | succ k ih =>
      rw [List.range_succ, List.foldl_append, ih (by omega), List.foldl_cons, List.foldl_nil, hbit k (by omega)]
      rcases Nat.lt_trichotomy n k with h | h | h
      · simp [h, Nat.ne_of_lt h, Nat.lt_succ_of_lt h]
      · simp [h]
      · simp [Nat.ne_of_gt h, Nat.not_lt_of_gt h, Nat.not_lt_of_le h]
  rw [hmarks 8 (Nat.le_refl 8), if_pos hn]

theorem foldl_noBit (f : State → Nat → State) (s : State) :
    (List.range 8).foldl (fun s i => if (0 : Byte).getLsbD i then f s i else s) s = s := by
  generalize List.range 8 = l
  induction l with
  | nil => rfl
  | cons i l ih => rw [List.foldl_cons, if_neg (by simp)]; exact ih

section
variable {s : State} (hs : served s = true)
include hs

theorem exec_ringAdminCtrl (m : Byte) : exec (.ringAdminCtrl m) s =
    .next ((List.range 8).foldl (fun s n => if m.getLsbD n then configAdmin s n else s) s) :=
  congrArg Host.Outcome.next (if_pos hs)

theorem exec_ringAdminReset_held (hr : s.boot.restarting = true) (m : Byte) : exec (.ringAdminReset m) s =
    .next { s with boot := { s.boot with heldAdminReset := Nat.lor s.boot.heldAdminReset m.toNat } } :=
  congrArg Host.Outcome.next ((if_neg (by simp [hs])).trans (if_pos hr))

theorem exec_ringAdminReset (hr : s.boot.restarting = false) (m : Byte) : exec (.ringAdminReset m) s =
    .next ((List.range 8).foldl (fun s n => if m.getLsbD n then adminReset s n else s) s) :=
  congrArg Host.Outcome.next ((if_neg (by simp [hs])).trans (if_neg (Bool.eq_false_iff.1 hr)))

end

/-- The reset of an admin ring that is configured and not RESETTING. -/
theorem adminReset_eq {s : State} {n : Nat} (h0 : (ringOf s n).st ≠ 0) (h3 : (ringOf s n).st ≠ 3) {t : State}
    (ht : t = startReset { s with
      ring := s.ring.map fun e => if e.2.resetBy = some n then (e.1, { e.2 with resetBy := none }) else e } n none) :
    adminReset s n = finishReset (match t.arb.admin with
      | some j => if j.ring = n then adminDone t 7 0xF1 else t
      | none => t) n := by
  subst ht
  exact if_neg (by simp [h0, h3])

/-- Settles O40: a written bit by the state of its ring. -/
theorem adminRingsActByRegister : Obligations.AdminRingsActByRegister := by
  unfold Obligations.AdminRingsActByRegister
  intro s hs n hn m e
  refine ⟨fun h0 hfit => ?_, fun h => ?_, fun hr => ?_, fun hr mask => exec_ringAdminReset_held hs hr mask, fun hr => ?_, ?_,
    fun h => if_pos (by rcases h with h | h <;> simp [h]), fun h0 h3 => ?_⟩
  · rw [exec_ringAdminCtrl hs, foldl_oneBit configAdmin hn]
    exact congrArg Host.Outcome.next (if_neg (by
      have hfit' : entryFits s { parseEntry (adminEntry s n) with mode := 0, inflight := 1 } 0 false = true := hfit
      simp [h0, hfit']))
  · rw [exec_ringAdminCtrl hs, foldl_oneBit configAdmin hn]
    refine congrArg Host.Outcome.next (if_pos ?_)
    rcases h with h | h
    · simp [h]
    · have hfit : entryFits s { parseEntry (adminEntry s n) with mode := 0, inflight := 1 } 0 false = false := h
      simp [hfit]
  · rw [exec_ringAdminReset hs hr, foldl_oneBit adminReset hn]
  · rw [exec_ringAdminReset hs hr, foldl_noBit]
  · rw [exec_ringAdminCtrl hs, foldl_noBit]
  · intro freed t
    rw [adminReset_eq h0 h3 (t := t) rfl]
    refine ⟨fun hother => ?_, fun j hj hown => ?_⟩
    · cases hj : t.arb.admin with
      | none => rfl
      | some j => exact congrArg (finishReset · n) (if_neg (hother j hj))
    · rw [hj]
      exact congrArg (finishReset · n) (if_pos hown)

end Sys2Proof.Proofs
end

section
/-! PROOFS. List operations that no engine runs, and the ends and reports of lists (R128, R171 to R174, R183, R414 to R416). -/
namespace Sys2Proof.Proofs
open Sys2Proof.Machine Sys2Proof.Laws

/-! ### The operation a unit stands before -/

section
variable {s : State} {cls u opc : Nat}

theorem onOp_none (h : atOp s cls u opc = none) (f : Run → Seg → ListOp → State) : onOp s cls u opc f = s := by
  unfold onOp
  rw [h]

theorem ownsEvc_iff (s : State) (x : Run) (o : ListOp) : ownsEvc s x o = true ↔ (evc s o.evc).owner = some x.fn := by
  simp [ownsEvc]

theorem exec_nop (s : State) (cls u : Nat) : exec (.nop cls u) s = .next (onOp s cls u 0x00 fun x _ _ => advance s x u) := rfl

theorem exec_wait (s : State) (cls u : Nat) : exec (.wait cls u) s = .next (onOp s cls u 0x04 fun x _ o =>
    if !ownsEvc s x o then failOp s x u 6 0xC6 o.idx
    else if waitPasses s o then advance s x u else setPhase s x u (.blocked false)) := rfl

theorem exec_signal (s : State) (cls u : Nat) : exec (.signal cls u) s = .next (onOp s cls u 0x05 fun x _ o =>
    if !ownsEvc s x o then failOp s x u 6 0xC6 o.idx
    else advance (modRun s x.id fun y => { y with held := y.held ++ [(o.idx, o.evc, o.imm)] }) x u) := rfl

/-- The add of a SIGNAL_LOCAL, with the total remembered for taking it back. -/
def localAdd (s : State) (x : Run) (o : ListOp) : State :=
  modRun (evcAdd s o.evc (BitVec.ofNat 32 o.imm)) x.id fun y =>
    { y with locals := tblMod 0 y.locals o.evc fun n => (n + o.imm) % 2 ^ 32 }

theorem exec_signalLocal (s : State) (cls u : Nat) : exec (.signalLocal cls u) s = .next (onOp s cls u 0x06 fun x _ o =>
    if !ownsEvc s x o then failOp s x u 6 0xC6 o.idx
    else if x.cause = some .discarded || (evc s o.evc).frozen then advance s x u
    else advance (localAdd s x o) x u) := rfl

theorem evc_localAdd (x : Run) {o : ListOp} (hf : (evc s o.evc).frozen = false) (w : tblWf s.ev.evc = true) :
    evc (localAdd s x o) o.evc = { evc s o.evc with val := (evc s o.evc).val + BitVec.ofNat 32 o.imm }
    ∧ ∀ n, n ≠ o.evc → evc (localAdd s x o) n = evc s n := by
  have hadd (n : Nat) : evc (localAdd s x o) n = evc (evcAdd s o.evc (BitVec.ofNat 32 o.imm)) n := rfl
  rw [evcAdd_running hf] at hadd
  exact ⟨(hadd _).trans (evc_same s _ _ w), fun n hn => (hadd n).trans (evc_other s _ _ _ w hn)⟩

theorem exec_waitPass_blocked {x : Run} {g : Seg} {o : ListOp} {logged : Bool} (h : inOp s cls u = some (x, g, o))
    (hp : g.phase = .blocked logged) :
    exec (.waitPass cls u) s = .next (if waitPasses s o then advance s x u else s) := by
  change execWaitPass cls u s = _
  rw [execWaitPass, h]
  dsimp only
  rw [hp]
  rfl

end

/-- Settles O41: each operation by whether its unit stands before it and its function owns the counter. -/
theorem listOperationsActBlockOrFail : Obligations.ListOperationsActBlockOrFail := by
  unfold Obligations.ListOperationsActBlockOrFail
  intro s cls u x g o owned
  have hown : ownsEvc s x o = true ↔ owned := ownsEvc_iff s x o
  have howns (h : owned) : ¬ (!ownsEvc s x o) = true := by simp [hown.2 h]
  refine ⟨fun h => ?_, fun h ho => ⟨fun hp => ?_, fun hp => ?_⟩, fun h ho => ?_, fun h ho hc hf => ?_, fun h ho hc => ?_,
    fun h => ?_, fun h => ?_, fun h => ?_, fun h => ?_, fun ho => ?_, fun logged h hp => ⟨fun hw => ?_, fun hw => ?_⟩⟩
  · rw [exec_nop, onOp_eq h]
  · rw [exec_wait, onOp_eq h, if_neg (howns ho), if_pos hp]
  · rw [exec_wait, onOp_eq h, if_neg (howns ho), if_neg (Bool.eq_false_iff.1 hp)]
  · rw [exec_signal, onOp_eq h, if_neg (howns ho)]
  · refine ⟨localAdd s x o, rfl, ?_, evc_localAdd x hf⟩
    rw [exec_signalLocal, onOp_eq h, if_neg (howns ho), if_neg (by simp [hc, hf])]
  · rw [exec_signalLocal, onOp_eq h, if_neg (howns ho), if_pos (by rcases hc with hc | hc <;> simp [hc])]
  · rw [exec_nop, onOp_none h]
  · rw [exec_wait, onOp_none h]
  · rw [exec_signal, onOp_none h]
  · rw [exec_signalLocal, onOp_none h]
  · have hnot : (!ownsEvc s x o) = true := by simp [Bool.eq_false_iff.2 (mt hown.1 ho)]
    refine ⟨fun h => ?_, fun h => ?_, fun h => ?_⟩
    · rw [exec_wait, onOp_eq h, if_pos hnot]
    · rw [exec_signal, onOp_eq h, if_pos hnot]
    · rw [exec_signalLocal, onOp_eq h, if_pos hnot]
  · rw [exec_waitPass_blocked h hp, if_pos hw]
  · rw [exec_waitPass_blocked h hp, if_neg (Bool.eq_false_iff.1 hw)]

/-! ### Ends and reports -/

section
variable {s : State} {cls u r : Nat}

theorem exec_segmentStop {x : Run} (h : toStop s cls u = some x) : exec (.segmentStop cls u) s =
    .next (settleUnit (finishStopped (endSeg (withdrawFx s x u) x u) x.id) cls u) := by
  change execSegmentStop cls u s = _
  rw [execSegmentStop, h]
  rfl

theorem exec_segmentStop_idle (h : toStop s cls u = none) : exec (.segmentStop cls u) s = .next s := by
  change execSegmentStop cls u s = _
  rw [execSegmentStop, h]
  rfl

theorem exec_descriptorEnd {x : Run} (h : (s.runs.find? fun x => x.ring = r && (canEnd x || endsStopped x)) = some x) :
    exec (.descriptorEnd r) s = .next (finishRun (if x.cause.isNone then commitHeld s x else s) x.id) := by
  change execDescriptorEnd r s = _
  rw [execDescriptorEnd, h]
  rfl

theorem exec_descriptorEnd_idle (h : (s.runs.find? fun x => x.ring = r && (canEnd x || endsStopped x)) = none) :
    exec (.descriptorEnd r) s = .next s := by
  change execDescriptorEnd r s = _
  rw [execDescriptorEnd, h]
  rfl

theorem exec_lateEvent {x : Run} (h : s.runs.find? (takesLate s r) = some x) {t : State}
    (ht : t = modRun s x.id fun y => { y with lateSent := true }) : exec (.lateEvent r) s =
    .next (lateUnits (if unresolved x then finishIfEnded (squash t x.id 1) x.id else t) x) := by
  subst ht
  change execLateEvent r s = _
  rw [execLateEvent, h]
  rfl

theorem exec_lateEvent_idle (h : s.runs.find? (takesLate s r) = none) : exec (.lateEvent r) s = .next s := by
  change execLateEvent r s = _
  rw [execLateEvent, h]
  rfl

theorem exec_raBind {x : Run} {o : ListOp}
    (h : (s.runs.find? fun x => x.ring = r && x.cause.isNone && x.loose.any fun l => l.opc = 0x18) = some x)
    (ho : (x.loose.find? fun l => l.opc = 0x18) = some o) :
    exec (.raBind r) s = .next (x.segs.foldl (fun t g => settleUnit t x.cls g.unit) (raBindList s x o)) := by
  change execRaBind r s = _
  rw [execRaBind, h]
  dsimp only
  rw [ho]
  rfl

section
variable {x : Run} {g : Seg} {o : ListOp} (h : inOp s cls u = some (x, g, o))
include h

theorem exec_waitStuck_in : exec (.waitStuck cls u) s = .next (
    if g.phase = .blocked false && reg s 0x80018 ≠ 0 then
      pushLog (setPhase (setFlag s 3079) x u (.blocked true)) {
        time := 0, code := 0x2003, func := x.fn, ring := x.ring, seq := x.seq, index := unitIndex cls u
        arg0 := o.evc, arg1 := o.imm }
    else s) := by
  change execWaitStuck cls u s = _
  rw [execWaitStuck, h]
  rfl

theorem exec_completionTimeout_operation :
    exec (.completionTimeout (.operation cls u)) s = .next (failOp (setFlag s 3080) x u 6 0xCC o.idx) := by
  change execCompletionTimeout (.operation cls u) s = _
  rw [execCompletionTimeout, h]
  rfl

theorem exec_completionTimeout_walk (va : Nat) (wr : Bool) : exec (.completionTimeout (.walk cls u va wr)) s =
    .next (failOp (recordFault s x.fn va 0xDF wr) x u 5 0xDF o.idx) := by
  change execCompletionTimeout (.walk cls u va wr) s = _
  rw [execCompletionTimeout, h]
  rfl

end

section
variable (h : inOp s cls u = none)
include h

theorem exec_waitStuck_idle : exec (.waitStuck cls u) s = .next s := by
  change execWaitStuck cls u s = _
  rw [execWaitStuck, h]
  rfl

theorem exec_completionTimeout_operation_idle : exec (.completionTimeout (.operation cls u)) s = .next s := by
  change execCompletionTimeout (.operation cls u) s = _
  rw [execCompletionTimeout, h]
  rfl

theorem exec_completionTimeout_walk_idle (va : Nat) (wr : Bool) : exec (.completionTimeout (.walk cls u va wr)) s = .next s := by
  change execCompletionTimeout (.walk cls u va wr) s = _
  rw [execCompletionTimeout, h]
  rfl

end

/-- The timeout of another read is that read's command with the read left unanswered, where the command reads it. -/
theorem unanswered_of_next {table : Bool} {run : State → Host.Outcome State Fault Refusal} {t : State}
    (h : run { s with mem := { s.mem with timesOut := if table then 2 else 1 } } = .next t) :
    unanswered table run s = if t.mem.timesOut = 0 then t else s := by
  unfold unanswered
  have hland : landed s (run (leaveUnanswered table s)) = t := by
    rw [show run (leaveUnanswered table s) = .next t from h]
    rfl
  rw [hland]

theorem timeout_of_read {src : TimeoutSource} {c : Instr} {table : Bool} {run : State → Host.Outcome State Fault Refusal}
    (hsrc : exec (.completionTimeout src) s = .next (unanswered table run s)) (hrun : ∀ t, exec c t = run t)
    (hnext : ∀ t, ∃ u, run t = .next u) :
    ∃ t, exec c { s with mem := { s.mem with timesOut := if table then 2 else 1 } } = .next t
      ∧ (t.mem.timesOut = 0 → exec (.completionTimeout src) s = .next t)
      ∧ (t.mem.timesOut ≠ 0 → exec (.completionTimeout src) s = .next s) := by
  obtain ⟨t, ht⟩ := hnext { s with mem := { s.mem with timesOut := if table then 2 else 1 } }
  refine ⟨t, (hrun _).trans ht, fun h0 => ?_, fun h0 => ?_⟩
  · rw [hsrc, unanswered_of_next ht, if_pos h0]
  · rw [hsrc, unanswered_of_next ht, if_neg h0]

end

/-- Settles O42: each row by what it finds. -/
theorem listsStopEndAndReport : Obligations.ListsStopEndAndReport := by
  unfold Obligations.ListsStopEndAndReport
  intro s cls u r
  refine ⟨fun x => exec_segmentStop, exec_segmentStop_idle, fun x h => ⟨fun hc => ?_, fun hc => ?_⟩, fun h => ?_, fun h => ?_,
    fun x h => ?late, fun x o => exec_raBind, fun x g o h => ⟨fun hp hr => ?_, fun hp => ?_,
      exec_completionTimeout_operation h, exec_completionTimeout_walk h⟩,
    fun h => ⟨exec_waitStuck_idle h, exec_completionTimeout_operation_idle h, exec_completionTimeout_walk_idle h⟩,
    fun k table e he => ?reads, fun j hj hez ho hb hr => ?_, fun h => ?_⟩
  · rw [exec_descriptorEnd h, hc]
    rfl
  · rw [exec_descriptorEnd h, if_neg (by simpa using hc)]
  · refine exec_descriptorEnd_idle (List.find?_eq_none.2 fun x hx hsel => ?_)
    obtain ⟨hring, hend⟩ := Bool.and_eq_true _ _ ▸ hsel
    obtain ⟨hcan, hstop⟩ := h x hx (of_decide_eq_true hring)
    simp [hcan, hstop] at hend
  · exact exec_lateEvent_idle (List.find?_eq_none.2 fun x hx => by simp [h x hx])
  case late =>
    intro t
    rw [exec_lateEvent h (t := t) rfl]
    exact ⟨fun hu => by rw [if_neg (Bool.eq_false_iff.1 hu)], fun hu => by rw [if_pos hu]⟩
  · rw [exec_waitStuck_in h, if_pos (by simp [hp, hr])]
  · rw [exec_waitStuck_in h, if_neg (by simp [hp])]
  case reads =>
    simp only [List.mem_cons, List.not_mem_nil, or_false] at he
    rcases he with rfl | rfl | rfl | rfl | rfl | rfl | rfl | rfl | rfl
    · exact timeout_of_read (run := execDescriptorFetch r) rfl (fun _ => rfl) fun _ => ⟨_, rfl⟩
    · exact timeout_of_read (run := execGrant) rfl (fun _ => rfl) fun _ => ⟨_, rfl⟩
    · exact timeout_of_read (run := execPollRead r) rfl (fun _ => rfl) fun _ => ⟨_, rfl⟩
    · exact timeout_of_read (run := execCompletionWrite r) rfl (fun _ => rfl) fun _ => ⟨_, rfl⟩
    · exact timeout_of_read (run := execRingSetup) rfl (fun _ => rfl) fun _ => ⟨_, rfl⟩
    · exact timeout_of_read (run := execRaBind r) rfl (fun _ => rfl) fun _ => ⟨_, rfl⟩
    · exact timeout_of_read (run := execPublishDone) rfl (fun _ => rfl) fun _ => ⟨_, rfl⟩
    · exact timeout_of_read (run := execCvProfLoad k) rfl (fun _ => rfl) fun _ => ⟨_, rfl⟩
    · exact timeout_of_read (run := execTqTransmit) rfl (fun _ => rfl) fun _ => ⟨_, rfl⟩
  · have hrun := adminRun_runs hez hj hb (peerResult s) hr
    rw [ho] at hrun
    exact congrArg Host.Outcome.next hrun
  · exact congrArg Host.Outcome.next (adminRun_idle (.inr h) 8 (peerResult s))

end Sys2Proof.Proofs
end

section
/-! PROOFS. The tiles' operations: programs, transfers, the matrix unit and MQ_BIND (R268 to R272, R279 to R294). -/
namespace Sys2Proof.Proofs
open Sys2Proof.Machine Sys2Proof.Laws

/-! ### TVC_RUN -/

section
variable {s : State} {u : Nat} {x : Run} {g : Seg} {o : ListOp} (h : atOp s 0 u 0x10 = some (x, g, o))
include h

/-- TVC_RUN before its unit, as its checks come in order. -/
theorem exec_tvcRun_at : exec (.tvcRun u) s = .next (
    if 128 ≤ u then failOp s x u 6 0xC5 o.idx
    else if !(instOf s (u % 64)).run || (bits (xw o 2) 17 16 = 2 && barred s x) then s
    else if bits (xw o 2) 10 0 = 0 || 1024 < bits (xw o 2) 10 0 || bits (xw o 1) 47 0 % 16 ≠ 0 then failOp s x u 6 0x14 o.idx
    else match tvcFetch s x (u % 64) (u / 64) (bits (xw o 1) 47 0) (bits (xw o 2) 10 0) (bitAt (xw o 2) 20) with
    | (s, .fail f) => failWith s x u o.idx f
    | (s, .ok ()) => tvcStart s x o (u % 64) (u / 64) (bits (xw o 2) 17 16)) :=
  congrArg Host.Outcome.next (onOp_eq h _)

theorem exec_tvcRun_kind (hu : 128 ≤ u) : exec (.tvcRun u) s = .next (failOp s x u 6 0xC5 o.idx) := by
  rw [exec_tvcRun_at h, if_pos hu]

theorem exec_tvcRun_barred (hu : u < 128) (he : bits (xw o 2) 17 16 = 2) (hb : barred s x = true) :
    exec (.tvcRun u) s = .next s := by
  rw [exec_tvcRun_at h, if_neg (Nat.not_le_of_lt hu), if_pos (by simp [he, hb])]

section
variable (hu : u < 128) (hr : (instOf s (u % 64)).run = true) (hb : bits (xw o 2) 17 16 = 2 → barred s x = false)
include hu hr hb

theorem exec_tvcRun_checked : exec (.tvcRun u) s = .next (
    if bits (xw o 2) 10 0 = 0 || 1024 < bits (xw o 2) 10 0 || bits (xw o 1) 47 0 % 16 ≠ 0 then failOp s x u 6 0x14 o.idx
    else match tvcFetch s x (u % 64) (u / 64) (bits (xw o 1) 47 0) (bits (xw o 2) 10 0) (bitAt (xw o 2) 20) with
    | (s, .fail f) => failWith s x u o.idx f
    | (s, .ok ()) => tvcStart s x o (u % 64) (u / 64) (bits (xw o 2) 17 16)) := by
  have hpass : ¬ (!(instOf s (u % 64)).run || (bits (xw o 2) 17 16 = 2 && barred s x)) = true := by
    by_cases he : bits (xw o 2) 17 16 = 2
    · simp [hr, hb he]
    · simp [hr, he]
  rw [exec_tvcRun_at h, if_neg (Nat.not_le_of_lt hu), if_neg hpass]

theorem exec_tvcRun_fetch (h1 : 1 ≤ bits (xw o 2) 10 0) (hl : bits (xw o 2) 10 0 ≤ 1024) (ha : bits (xw o 1) 47 0 % 16 = 0) :
    exec (.tvcRun u) s = .next (
      match tvcFetch s x (u % 64) (u / 64) (bits (xw o 1) 47 0) (bits (xw o 2) 10 0) (bitAt (xw o 2) 20) with
      | (s, .fail f) => failWith s x u o.idx f
      | (s, .ok ()) => tvcStart s x o (u % 64) (u / 64) (bits (xw o 2) 17 16)) := by
  rw [exec_tvcRun_checked h hu hr hb, if_neg (by simp [Nat.pos_iff_ne_zero.1 h1, Nat.not_lt_of_le hl, ha])]

end

end

/-- The registers a program starts with, after the first arguments have been put. -/
theorem foldl_putS_args (x : Run) (r : TvcRegs) (hr : tblWf r.s = true) (n : Nat) :
    tblWf ((List.range n).foldl (fun r i => putS r (8 + i) (argAt x.args i)) r).s = true
    ∧ ∀ k, sreg ((List.range n).foldl (fun r i => putS r (8 + i) (argAt x.args i)) r) k =
      if 8 ≤ k ∧ k < 8 + n then argAt x.args (k - 8) % 2 ^ 32 else sreg r k := by
  induction n with
  | zero => exact ⟨hr, fun k => (if_neg (by omega)).symm⟩
  | succ n ih =>
    obtain ⟨hwf, hget⟩ := ih
    rw [List.range_succ, List.foldl_append, List.foldl_cons, List.foldl_nil]
    refine ⟨putS_wf _ hwf _ _, fun k => ?_⟩
    rw [sreg_putS _ hwf]
    by_cases hk : k = 8 + n
    · subst hk
      rw [if_pos ⟨rfl, by omega⟩, if_pos (by omega), Nat.add_sub_cancel_left]
    · rw [if_neg (fun e => hk e.1), hget k]
      by_cases hin : 8 ≤ k ∧ k < 8 + n
      · rw [if_pos hin, if_pos (by omega)]
      · rw [if_neg hin, if_neg (by omega)]

theorem sreg_startRegs (x : Run) (imm k : Nat) : sreg (startRegs x imm) k =
    if 8 ≤ k ∧ k < 16 then argAt x.args (k - 8) % 2 ^ 32 else if k = 1 then imm % 2 ^ 32 else 0 := by
  have hempty : tblWf ({} : TvcRegs).s = true := rfl
  rw [startRegs, (foldl_putS_args x _ (putS_wf _ hempty 1 imm) 8).2 k]
  by_cases hk : 8 ≤ k ∧ k < 8 + 8
  · rw [if_pos hk, if_pos hk]
  · rw [if_neg hk, if_neg hk, sreg_putS _ hempty]
    by_cases h1 : k = 1
    · rw [if_pos ⟨h1, by decide⟩, if_pos h1]
    · rw [if_neg (fun e => h1 e.1), if_neg h1]
      unfold sreg
      exact ite_self 0

/-! ### A live program -/

section
variable {s : State} {t v : Nat}

theorem exec_tvcRunaway {x : Run} {o : ListOp} (h : tvcLive s t v = some (x, o)) :
    exec (.tvcRunaway t v) s = .next (tvcFail s x o t v ⟨6, 0x12, false⟩) := by
  change execTvcRunaway t v s = _
  rw [execTvcRunaway, h]
  rfl

theorem exec_tvcRunaway_idle (h : tvcLive s t v = none) : exec (.tvcRunaway t v) s = .next s := by
  change execTvcRunaway t v s = _
  rw [execTvcRunaway, h]
  rfl

theorem exec_dmaDone_idle (h : tvcLive s t v = none) : exec (.dmaDone t v) s = .next s := by
  change execDmaDone t v s = _
  rw [execDmaDone, h]
  rfl

section
variable {x : Run} {o : ListOp} (h : tvcLive s t v = some (x, o))
include h

theorem exec_dmaDone_empty (hd : (tvcOf s t v).dmas = []) : exec (.dmaDone t v) s = .next s := by
  change execDmaDone t v s = _
  rw [execDmaDone, h]
  dsimp only
  rw [hd]
  rfl

/-! The oldest transfer is made: `p` is the state without it. -/
section
variable {a : Nat} {b : List Byte} {rest : List (Nat × List Byte)} (hd : (tvcOf s t v).dmas = (a, b) :: rest) {p w : State}
  (hp : p = setTvc s t v { tvcOf s t v with dmas := rest })
include hd hp

theorem exec_dmaDone_fail {f : Fail}
    (hz : (if (parseDma b).stg then dmaStaging p x t (parseDma b) else dmaDevice p x t v (parseDma b)) = (w, .fail f)) :
    exec (.dmaDone t v) s = .next (tvcFail w x o t v f) := by
  subst hp
  change execDmaDone t v s = _
  rw [execDmaDone, h]
  dsimp only
  rw [hd]
  dsimp only
  rw [hz]
  rfl

theorem exec_dmaDone_made
    (hz : (if (parseDma b).stg then dmaStaging p x t (parseDma b) else dmaDevice p x t v (parseDma b)) = (w, .ok ())) :
    exec (.dmaDone t v) s = .next (
      if (tvcOf w t v).ending && (tvcOf w t v).slot = 0 && rest.isEmpty then tvcFinish w x t v else w) := by
  subst hp
  change execDmaDone t v s = _
  rw [execDmaDone, h]
  dsimp only
  rw [hd]
  dsimp only
  rw [hz]
  rfl

end

end

end

/-! ### TMU_RUN and MQ_BIND -/

section
variable {s : State} {u : Nat} {x : Run} {g : Seg} {o : ListOp}

theorem exec_tmuRun_at (h : atOp s 0 u 0x11 = some (x, g, o)) : exec (.tmuRun u) s = .next (
    if u < 128 then failOp s x u 6 0xC5 o.idx
    else if (tmuOf o).store && barred s x then s
    else if !tmuShapeOk (tmuOf o) then failOp s x u 6 0x16 o.idx
    else runTmu s x u (u % 64) o.idx (tmuOf o)) :=
  congrArg Host.Outcome.next (onOp_eq h _)

section
variable (h : atOp s 0 u 0x11 = some (x, g, o)) (hu : 128 ≤ u)
include h hu

theorem exec_tmuRun_barred (hs : (tmuOf o).store = true) (hb : barred s x = true) : exec (.tmuRun u) s = .next s := by
  rw [exec_tmuRun_at h, if_neg (Nat.not_lt_of_le hu), if_pos (by simp [hs, hb])]

theorem exec_tmuRun_checked (hb : (tmuOf o).store = true → barred s x = false) : exec (.tmuRun u) s = .next (
    if !tmuShapeOk (tmuOf o) then failOp s x u 6 0x16 o.idx else runTmu s x u (u % 64) o.idx (tmuOf o)) := by
  have hpass : ¬ ((tmuOf o).store && barred s x) = true := by
    cases hs : (tmuOf o).store with
    | false => simp
    | true => simp [hb hs]
  rw [exec_tmuRun_at h, if_neg (Nat.not_lt_of_le hu), if_neg hpass]

end

/-- A table that is shorter than what a binding takes of it. -/
def tableShort (b : BindOp) (e : Option (Nat × Ver)) : Bool :=
  match e with
  | some (_, v) => v.len < b.tblOfs + 64 * b.len
  | none => false

theorem tableShort_iff (b : BindOp) (e : Option (Nat × Ver)) :
    tableShort b e = true ↔ ∃ i v, e = some (i, v) ∧ v.len < b.tblOfs + 64 * b.len := by
  cases e with
  | none => simp [tableShort]
  | some y => simp [tableShort, Prod.ext_iff]

section
variable (h : atOp s 0 u 0x12 = some (x, g, o))
include h

theorem exec_mqBind_off (hf : feat s 2 = false) : exec (.mqBind u) s = .next (failOp s x u 6 0xC2 o.idx) :=
  congrArg Host.Outcome.next ((onOp_eq h _).trans (if_pos (by simp [hf])))

variable (hf : feat s 2 = true)
include hf

theorem exec_mqBind_mismatch (hm : bindMismatch x (bindOf o) = true) :
    exec (.mqBind u) s = .next (failOp s x u 6 0x19 o.idx) :=
  congrArg Host.Outcome.next ((onOp_eq h _).trans ((if_neg (by simp [hf])).trans (if_pos hm)))

variable (hm : bindMismatch x (bindOf o) = false)
include hm

/-- A binding that matches, by its lines and the table's length. -/
theorem exec_mqBind_match {e : Option (Nat × Ver)} (he : resolve s x.fn (bindOf o).table (bindKey s (bindOf o)) = e) :
    exec (.mqBind u) s = .next (
      if 1024 < (bindOf o).ofs + (bindOf o).len || tableShort (bindOf o) e then failOp s x u 6 0x18 o.idx
      else bindCopy s x u o.idx (bindOf o) e) := by
  subst he
  exact congrArg Host.Outcome.next
    ((onOp_eq h _).trans ((if_neg (by simp [hf])).trans (if_neg (Bool.eq_false_iff.1 hm))))

end

end

/-- Settles O43: each operation by its checks in order. -/
theorem tilesRunTheirOperations : Obligations.TilesRunTheirOperations := by
  unfold Obligations.TilesRunTheirOperations
  intro s u t v x g o
  refine ⟨fun opc hopc h => ?_, ⟨fun h => congrArg _ (onOp_none h _), fun h => congrArg _ (onOp_none h _),
      fun h => congrArg _ (onOp_none h _), fun h => ⟨exec_tvcRunaway_idle h, exec_dmaDone_idle h⟩⟩,
    fun h hu he hb => exec_tvcRun_barred h hu he hb, fun h hu hs hb => exec_tmuRun_barred h hu hs hb,
    fun h hu hr hb => ?run, fun imm i hi => ⟨?_, ?_, ?_⟩, fun h => ⟨exec_tvcRunaway h, exec_dmaDone_empty h, ?dma⟩,
    fun h hu hb => ⟨fun hs => ?_, fun hs => ?_⟩, fun h hf => exec_mqBind_off h hf, fun h hf => ?bind⟩
  · rcases hopc with ⟨rfl, hu⟩ | ⟨rfl, hu⟩
    · exact exec_tvcRun_kind h hu
    · exact (exec_tmuRun_at h).trans (congrArg Host.Outcome.next (if_pos hu))
  case run =>
    intro prog len
    refine ⟨fun hbad => ?_, fun h1 hl ha w f hw => ?_, fun h1 hl ha w hw => ?_⟩
    · exact (exec_tvcRun_checked h hu hr hb).trans (congrArg Host.Outcome.next
        (if_pos (by simpa only [Bool.or_eq_true, decide_eq_true_eq, or_assoc] using hbad)))
    · rw [exec_tvcRun_fetch h hu hr hb h1 hl ha, hw]
      rfl
    · rw [exec_tvcRun_fetch h hu hr hb h1 hl ha, hw]
  · rw [sreg_startRegs, if_neg (by omega), if_pos rfl]
  · rw [sreg_startRegs, if_pos (by omega), Nat.add_sub_cancel_left]
  · rw [sreg_startRegs, if_neg (by omega), if_neg (by omega)]
  case dma =>
    intro a b rest hd p z
    exact ⟨fun w f hz => exec_dmaDone_fail h hd (p := p) rfl hz, fun w hz => exec_dmaDone_made h hd (p := p) rfl hz⟩
  · rw [exec_tmuRun_checked h hu hb, if_pos (by simp [hs])]
  · rw [exec_tmuRun_checked h hu hb, if_neg (by simp [hs])]
  case bind =>
    intro b e
    refine ⟨exec_mqBind_mismatch h hf, fun hm hlong => ?_, fun hm hfit hlen => ?_⟩
    · rw [exec_mqBind_match h hf hm (e := e) rfl, if_pos]
      exact Bool.or_eq_true_iff.2 (hlong.imp decide_eq_true (tableShort_iff b e).2)
    · rw [exec_mqBind_match h hf hm (e := e) rfl, if_neg]
      intro hlong
      rcases Bool.or_eq_true_iff.1 hlong with hlong | hlong
      · exact absurd hfit (Nat.not_le_of_lt (of_decide_eq_true hlong))
      · obtain ⟨i, w, hw, hshort⟩ := (tableShort_iff b e).1 hlong
        exact absurd (hlen i w hw) (Nat.not_le_of_lt hshort)

end Sys2Proof.Proofs
end

section
/-! PROOFS. Control and scalar slots of the vector core (R273 to R282). -/
namespace Sys2Proof.Proofs
open Sys2Proof.Machine Sys2Proof.Laws

section
variable {s : State} {t v : Nat} {x : Run} {o : ListOp} (h : tvcLive s t v = some (x, o))
  (he : (tvcOf s t v).ending = true → (tvcOf s t v).slot ≠ 0) {i : Instr}
  (hi : tvcDecode t v (tvcOf s t v).slot (slotWord (tvcOf s t v)) = some i)
include h he hi

/-- A slot whose effect is on the core alone. -/
theorem pure_go (f : Tvc → Tvc) : done (tvcPure s t v i f) = .next (endSlot (setTvc s t v (f (tvcOf s t v))) x o t v) :=
  slot_go h he hi rfl

end

/-! ### Control slots -/

theorem loopEffect_empty (c : Tvc) (count : Nat) : loopEffect c count 0 = c := if_pos rfl

theorem loopEffect_skip (c : Tvc) {body : Nat} (hb : 0 < body) : loopEffect c 0 body = { c with skip := body } :=
  (if_neg (Nat.pos_iff_ne_zero.1 hb)).trans (if_pos rfl)

/-- A loop with a count and a body opens its level, of a third one by a free value. -/
theorem loopEffect_opens (c : Tvc) {count body : Nat} (hb : 0 < body) (hc : 0 < count) : loopEffect c count body =
    if c.loops.length < 2 || bitAt (Config.freeFor 5 [count, body]) 0 then
      { c with opened := some { first := c.pc + 1, last := c.pc + body, left := count } } else c :=
  (if_neg (Nat.pos_iff_ne_zero.1 hb)).trans (if_neg (Nat.pos_iff_ne_zero.1 hc))

section
variable {s : State} {t v : Nat} {x : Run} {o : ListOp} (h : tvcLive s t v = some (x, o))
  (he : (tvcOf s t v).ending = true → (tvcOf s t v).slot ≠ 0)
include h he

/-- A DMA slot, by the free places and the block's address. -/
theorem exec_tvcDma {sa : Nat} (hi : tvcDecode t v (tvcOf s t v).slot (slotWord (tvcOf s t v)) = some (.tvcDma t v sa)) :
    (4 ≤ (tvcOf s t v).dmas.length → exec (.tvcDma t v sa) s = .next s)
    ∧ ((tvcOf s t v).dmas.length < 4 → (sreg (tvcOf s t v).old sa % 32 ≠ 0
          ∨ inPart (v * 0x20000) (v * 0x20000 + 0x20000) (sreg (tvcOf s t v).old sa) 32 = false) →
        exec (.tvcDma t v sa) s = .next (tvcFail s x o t v ⟨6, 0x11, false⟩))
    ∧ ((tvcOf s t v).dmas.length < 4 → sreg (tvcOf s t v).old sa % 32 = 0 →
        inPart (v * 0x20000) (v * 0x20000 + 0x20000) (sreg (tvcOf s t v).old sa) 32 = true →
        ∀ u b, tileFetch s t x.fn (sreg (tvcOf s t v).old sa) 32 = (u, .ok b) →
        (dmaUndeclared x (tvcOf s t v) (parseDma b) = true →
          exec (.tvcDma t v sa) s = .next (tvcFail u x o t v ⟨6, 0x15, false⟩))
        ∧ (dmaUndeclared x (tvcOf s t v) (parseDma b) = false → exec (.tvcDma t v sa) s = .next (endSlot (setTvc u t v
            { tvcOf s t v with dmas := (tvcOf s t v).dmas ++ [(sreg (tvcOf s t v).old sa, b)] }) x o t v))) := by
  refine ⟨fun h4 => slot_stall (u := s) h he hi (if_pos h4), fun h4 hbad => slot_fail h he hi ?_,
    fun h4 ha hin u b hread => ⟨fun hd => slot_fail h he hi ?_, fun hd => slot_go h he hi ?_⟩⟩
  · refine (if_neg (Nat.not_le_of_lt h4)).trans (if_pos ?_)
    rcases hbad with hbad | hbad
    · simp [hbad]
    · simp [hbad]
  · refine (if_neg (Nat.not_le_of_lt h4)).trans ((if_neg (by simp [ha, hin])).trans ?_)
    rw [hread]
    exact if_pos hd
  · refine (if_neg (Nat.not_le_of_lt h4)).trans ((if_neg (by simp [ha, hin])).trans ?_)
    rw [hread]
    exact if_neg (Bool.eq_false_iff.1 hd)

end

/-- Settles O44: each control slot by its effect on the core. -/
theorem controlSlotsAct : Obligations.ControlSlotsAct := by
  unfold Obligations.ControlSlotsAct
  intro s t v x o h c he stands goes
  have hpure {i : Instr} (hi : stands i) (f : Tvc → Tvc) : done (tvcPure s t v i f) = goes s (f c) := pure_go h he hi f
  refine ⟨fun slot hi => hpure hi _, fun sa body imm hi => ?loop, fun sa imm hi => ⟨fun hz => ?_, fun hz => ?_⟩,
    fun pt sa hi => hpure hi _, fun imm hi => hpure hi _, fun sd hi => slot_go h he hi rfl, fun sa hi => exec_tvcDma h he hi,
    fun hi => ⟨fun hd => slot_go h he hi ?_, fun hd => slot_stall (u := s) h he hi ?_⟩, fun hi => hpure hi _⟩
  case loop =>
    intro count opens
    have hloop : exec (.tvcLoop t v sa body imm) s = goes s (loopEffect c count body) := hpure hi _
    rw [hloop]
    refine ⟨fun hb => ?_, fun hb hc => ?_, fun hb hc hl => ?_, fun hb hc hl => ?_⟩
    · rw [hb, loopEffect_empty]
    · rw [hc, loopEffect_skip c hb]
    · rw [loopEffect_opens c hb hc, if_pos (by simp [hl])]
    · rw [loopEffect_opens c hb hc]
      simp only [Nat.not_lt_of_le hl, decide_false, Bool.false_or]
      rfl
  · exact (hpure hi _).trans (congrArg (goes s) (if_pos hz))
  · exact (hpure hi _).trans (congrArg (goes s) (if_neg hz))
  · have hempty : (tvcOf s t v).dmas.isEmpty = true := by rw [List.isEmpty_iff]; exact hd
    exact congrArg (Prod.mk s) (if_pos hempty)
  · have hempty : ¬ (tvcOf s t v).dmas.isEmpty = true := by rw [List.isEmpty_iff]; exact hd
    exact congrArg (Prod.mk s) (if_neg hempty)

/-! ### Scalar slots -/

theorem putS_eta (r : TvcRegs) (i v : Nat) : putS r i v = { r with s := (putS r i v).s } := by
  unfold putS
  split <;> rfl

section
variable {s : State} {t v : Nat} {x : Run} {o : ListOp} (h : tvcLive s t v = some (x, o))
  (he : (tvcOf s t v).ending = true → (tvcOf s t v).slot ≠ 0) (w : tblWf (tvcOf s t v).new.s = true)
include h he w

/-- A scalar slot writes its destination with the value modulo 2^32. -/
theorem scalar_writes {i : Instr} {sd : Nat} {f : TvcRegs → Nat} {y : Nat} (hexec : exec i s = done (tvcScalar s t v sd i f))
    (hy : f (tvcOf s t v).old % 2 ^ 32 = y) (hi : tvcDecode t v (tvcOf s t v).slot (slotWord (tvcOf s t v)) = some i) :
    ∃ r, exec i s = .next (endSlot (setTvc s t v
        { tvcOf s t v with new := { (tvcOf s t v).new with s := r } }) x o t v)
      ∧ ∀ k, sreg { (tvcOf s t v).new with s := r } k = if k = sd ∧ sd ≠ 0 then y else sreg (tvcOf s t v).new k := by
  refine ⟨(putS (tvcOf s t v).new sd (f (tvcOf s t v).old)).s, ?_, fun k => ?_⟩
  · rw [hexec, ← putS_eta]
    exact pure_go h he hi _
  · rw [← putS_eta, sreg_putS _ w, hy]

end

/-! The values the scalar instructions write. -/
section
variable (r : TvcRegs)

theorem sub_mod_word (i j : Nat) : (sreg r i + (2 ^ 32 - sreg r j)) % 2 ^ 32 = (sreg r i + 2 ^ 32 - sreg r j) % 2 ^ 32 := by
  rw [Nat.add_sub_assoc (Nat.le_of_lt (sreg_lt r j))]

theorem addi_word (i imm : Nat) : trunc 32 (sreg r i + sext 14 imm) % 2 ^ 32 =
    (BitVec.ofNat 32 (sreg r i) + (BitVec.ofNat 14 imm).signExtend 32).toNat := by
  rw [trunc_eq, sext_eq 14 imm (by decide), Nat.mod_eq_of_lt (BitVec.isLt _), BitVec.ofInt_add, BitVec.ofInt_natCast]
  rfl

theorem and_word (i j : Nat) : (sreg r i &&& sreg r j) % 2 ^ 32 = sreg r i &&& sreg r j :=
  Nat.mod_eq_of_lt (Nat.lt_of_le_of_lt Nat.and_le_left (sreg_lt r i))

theorem or_word (i j : Nat) : (sreg r i ||| sreg r j) % 2 ^ 32 = sreg r i ||| sreg r j :=
  Nat.mod_eq_of_lt (Nat.or_lt_two_pow (sreg_lt r i) (sreg_lt r j))

theorem shr_word (i n : Nat) : trunc 32 ((sext 32 (sreg r i)).fdiv (2 ^ n : Nat)) % 2 ^ 32 =
    ((BitVec.ofNat 32 (sreg r i)).sshiftRight n).toNat := by
  rw [trunc_eq, Nat.mod_eq_of_lt (BitVec.isLt _), sext_eq 32 _ (by decide), Int.fdiv_eq_ediv_of_nonneg _ (Int.natCast_nonneg _),
    ← Int.shiftRight_eq_div_pow]
  rfl

end

/-- Settles O45: each scalar slot by the value it writes. -/
theorem scalarSlotComputes : Obligations.ScalarSlotComputes := by
  unfold Obligations.ScalarSlotComputes
  intro s t v x o h c he w sd sa sb imm himm a b runs
  have himm32 : imm < 2 ^ 32 := by omega
  exact ⟨scalar_writes h he w rfl (Nat.mod_eq_of_lt himm32), scalar_writes h he w rfl rfl, scalar_writes h he w rfl rfl,
    scalar_writes h he w rfl (sub_mod_word c.old sa sb), scalar_writes h he w rfl (addi_word c.old sa imm),
    scalar_writes h he w rfl (and_word c.old sa sb), scalar_writes h he w rfl (or_word c.old sa sb),
    scalar_writes h he w rfl rfl, scalar_writes h he w rfl (shr_word c.old sa _)⟩

end Sys2Proof.Proofs
end

section
/-! PROOFS. Vector and accumulator slots of the vector core (R275, R276, R280). -/
namespace Sys2Proof.Proofs
open Sys2Proof.Machine Sys2Proof.Laws

/-! ### Lists by their components -/

section
variable {α β : Type} (l : List α)

theorem map_getD {f : α → β} {d : α} {e : β} {j : Nat} (hj : j < l.length) : (l.map f).getD j e = f (l.getD j d) := by
  rw [List.getD_eq_getElem _ _ (by simpa using hj), List.getD_eq_getElem _ _ hj, List.getElem_map]

theorem zipIdx_map_getD {f : α × Nat → β} {d : α} {e : β} {j : Nat} (hj : j < l.length) :
    (l.zipIdx.map f).getD j e = f (l.getD j d, j) := by
  rw [List.getD_eq_getElem _ _ (by simpa using hj), List.getD_eq_getElem _ _ hj, List.getElem_map, List.getElem_zipIdx,
    Nat.zero_add]

theorem range_map_getD {f : Nat → β} {e : β} {n j : Nat} (hj : j < n) : ((List.range n).map f).getD j e = f j := by
  rw [List.getD_eq_getElem _ _ (by simpa using hj), List.getElem_map, List.getElem_range]

/-- A list has an element when one of its places does. -/
theorem any_eq_range_any (d : α) (p : α → Bool) {n : Nat} (hn : l.length = n) :
    l.any p = (List.range n).any fun j => p (l.getD j d) := by
  subst hn
  rw [Bool.eq_iff_iff, List.any_eq_true, List.any_eq_true]
  constructor
  · rintro ⟨x, hx, hp⟩
    obtain ⟨j, hj, rfl⟩ := List.mem_iff_getElem.1 hx
    exact ⟨j, List.mem_range.2 hj, by rw [List.getD_eq_getElem _ _ hj]; exact hp⟩
  · rintro ⟨j, hj, hp⟩
    have hlt := List.mem_range.1 hj
    rw [List.getD_eq_getElem _ _ hlt] at hp
    exact ⟨_, List.getElem_mem hlt, hp⟩

end

theorem any_range_congr {p q : Nat → Bool} {n : Nat} (h : ∀ j, j < n → p j = q j) :
    (List.range n).any p = (List.range n).any q := by
  rw [Bool.eq_iff_iff, List.any_eq_true, List.any_eq_true]
  exact exists_congr fun j => and_congr_right fun hj => by rw [h j (List.mem_range.1 hj)]

theorem decide_map_ne_eq_any (f : Int → Int) (l : List Int) :
    Decidable.decide (l.map f ≠ l) = l.any fun x => Decidable.decide (f x ≠ x) := by
  induction l with
  | nil => rfl
  | cons x l ih =>
    rw [List.any_cons, ← ih]
    by_cases hx : f x = x
    · simp [hx]
    · simp [hx]

/-! ### Packed words -/

theorem sext_mod_pow (n w : Nat) : sext n (w % 2 ^ n) = sext n w := by
  unfold sext
  rw [Nat.mod_mod]

/-- A component of a packed word is the part taken to its width. -/
theorem sext_packParts {n : Nat} (hn : 0 < n) (l : List Int) {m : Nat} (hm : n * l.length ≤ m) {j : Nat} (hj : j < l.length) :
    sext n (packParts n l % 2 ^ m / 2 ^ (n * j)) = (BitVec.ofInt n (l.getD j 0)).toInt := by
  have hlt : packParts n l < 2 ^ m := Nat.lt_of_lt_of_le (packParts_lt n l) (Nat.pow_le_pow_right (by decide) hm)
  rw [Nat.mod_eq_of_lt hlt, ← sext_mod_pow, packParts_get n hn l j hj, sext_trunc n hn]

theorem toInt_ofInt_of_range {n : Nat} (hn : 0 < n) {y : Int} (h1 : -((2 ^ (n - 1) : Nat) : Int) ≤ y)
    (h2 : y ≤ ((2 ^ (n - 1) : Nat) : Int) - 1) : (BitVec.ofInt n y).toInt = y := by
  have hpow : 2 ^ n = 2 * 2 ^ (n - 1) := by rw [← Nat.pow_succ']; congr; omega
  rw [BitVec.toInt_ofInt]
  exact Int.bmod_eq_of_le (by omega) (by omega)

theorem clampInt_range {lo hi : Int} (h : lo ≤ hi) (y : Int) : lo ≤ clampInt lo hi y ∧ clampInt lo hi y ≤ hi := by
  unfold clampInt
  split
  · omega
  · split
    · omega
    · omega

theorem clampInt_le_max (lo hi y : Int) : clampInt lo hi y ≤ max lo y := by
  unfold clampInt
  split
  · omega
  · split
    · omega
    · omega

theorem absInt_range {z : Int} (h1 : -32768 ≤ z) (h2 : z ≤ 32767) : 0 ≤ absInt z ∧ absInt z ≤ 32768 := by
  unfold absInt
  split
  · omega
  · omega

/-- A word repeated over the complex lanes, read back by components. -/
theorem sext_packReplicate {w : Nat} (hw : w < 2 ^ 32) {j : Nat} (hj : j < 32) :
    sext 16 (packParts 32 (List.replicate 16 (w : Int)) % 2 ^ 512 / 2 ^ (16 * j)) = sext 16 (w / 2 ^ (16 * (j % 2))) := by
  have hlt : packParts 32 (List.replicate 16 (w : Int)) < 2 ^ 512 := packParts_lt 32 (List.replicate 16 (w : Int))
  have hlane : packParts 32 (List.replicate 16 (w : Int)) / 2 ^ (32 * (j / 2)) % 2 ^ 32 = w := by
    have hplace : j / 2 < (List.replicate 16 (w : Int)).length := by rw [List.length_replicate]; omega
    rw [packParts_get 32 (by decide) _ _ hplace, List.getD_eq_getElem _ _ hplace, List.getElem_replicate, trunc_eq,
      BitVec.ofInt_natCast, BitVec.toNat_ofNat, Nat.mod_eq_of_lt hw]
  rw [Nat.mod_eq_of_lt hlt, show 16 * j = 32 * (j / 2) + 16 * (j % 2) by omega, Nat.pow_add, ← Nat.div_div_eq_div_mul,
    ← sext_mod_pow, ← sext_mod_pow 16 (w / _)]
  generalize packParts 32 (List.replicate 16 (w : Int)) / 2 ^ (32 * (j / 2)) = y at hlane ⊢
  rcases Nat.mod_two_eq_zero_or_one j with h | h
  · rw [h, Nat.mul_zero, Nat.pow_zero]
    exact congrArg (sext 16) (by omega)
  · rw [h, Nat.mul_one]
    exact congrArg (sext 16) (by omega)

/-- The limit of `n` bits. -/
def limitTo (n : Nat) (y : Int) : Int := clampInt (-((2 ^ (n - 1) : Nat) : Int)) (((2 ^ (n - 1) : Nat) : Int) - 1) y

theorem satParts_eq (n : Nat) (l : List Int) : satParts n l =
    (l.map (limitTo n), l.any fun x => Decidable.decide (limitTo n x ≠ x)) :=
  Prod.ext rfl (decide_map_ne_eq_any (limitTo n) l)

/-- Limited parts packed and read back. -/
theorem sext_packLimited {n : Nat} (hn : 0 < n) (l : List Int) {m : Nat} (hm : n * l.length ≤ m) {j : Nat} (hj : j < l.length) :
    sext n (packParts n (l.map (limitTo n)) % 2 ^ m / 2 ^ (n * j)) = limitTo n (l.getD j 0) := by
  have hle : -((2 ^ (n - 1) : Nat) : Int) ≤ ((2 ^ (n - 1) : Nat) : Int) - 1 := by
    have := Nat.two_pow_pos (n - 1)
    omega
  obtain ⟨h1, h2⟩ := clampInt_range hle (l.getD j 0)
  rw [sext_packParts hn _ (by rwa [List.length_map]) (by rwa [List.length_map]), map_getD l (d := 0) hj]
  exact toInt_ofInt_of_range hn h1 h2

/-! ### A slot that writes a vector register -/

theorem noteSat_eq (c : Tvc) (b : Bool) : noteSat c b = { c with new := { c.new with sat := c.new.sat || b } } := by
  cases b with
  | false => simp [noteSat]
  | true => simp [noteSat]

theorem putV_free {c : Tvc} {i : Nat} (h : c.wrote.find? (fun e => e.1 = i) = none) (lat w : Nat) : putV c i lat w =
    { c with wrote := c.wrote ++ [(i, lat)], new := { c.new with v := tblSet 0 c.new.v i (BitVec.ofNat 512 w) } } := by
  have hrev : c.wrote.reverse.find? (fun e => e.1 = i) = none :=
    List.find?_eq_none.2 fun e he => List.find?_eq_none.1 h e (List.mem_reverse.1 he)
  unfold putV
  rw [hrev]
  rfl

section
variable {s : State} {t v : Nat} {x : Run} {o : ListOp} (h : tvcLive s t v = some (x, o))
  (he : (tvcOf s t v).ending = true → (tvcOf s t v).slot ≠ 0)
include h he

/-- A slot that writes `word` to `vd`, in a bundle that has not written it. -/
theorem vector_writes {i : Instr} (hi : tvcDecode t v (tvcOf s t v).slot (slotWord (tvcOf s t v)) = some i) {vd : Nat}
    (hw : (tvcOf s t v).wrote.find? (fun e => e.1 = vd) = none) (wv : tblWf (tvcOf s t v).new.v = true)
    {f : Tvc → Tvc} (hexec : exec i s = done (tvcPure s t v i f)) {lat word : Nat} {sat : Bool}
    (hf : f (tvcOf s t v) = noteSat (putV (tvcOf s t v) vd lat word) sat) {n m : Nat} {part : Nat → Int}
    (hpart : ∀ j, j < m → sext n (word % 2 ^ 512 / 2 ^ (n * j)) = part j) : ∃ d,
      exec i s = .next (endSlot (setTvc s t v d) x o t v)
      ∧ (∀ j, j < m → sext n ((tblGet 0 d.new.v vd).toNat / 2 ^ (n * j)) = part j)
      ∧ (∀ k, k ≠ vd → tblGet 0 d.new.v k = tblGet 0 (tvcOf s t v).new.v k)
      ∧ d = { tvcOf s t v with
          wrote := (tvcOf s t v).wrote ++ [(vd, lat)],
          new := { (tvcOf s t v).new with v := d.new.v, sat := (tvcOf s t v).new.sat || sat } } := by
  refine ⟨f (tvcOf s t v), by rw [hexec]; exact pure_go h he hi f, ?_⟩
  rw [hf, noteSat_eq, putV_free hw]
  refine ⟨fun j hj => ?_, fun k hk => tblGet_set_other wv _ _ hk, rfl⟩
  rw [tblGet_set_same wv, BitVec.toNat_ofNat]
  exact hpart j hj

end

/-- Settles O46: each instruction by the components it packs. -/
theorem vectorLanesCompute : Obligations.VectorLanesCompute := by
  unfold Obligations.VectorLanesCompute
  intro s t v x o h c he q hw wv a b lim runs limited
  have hla : (vparts c.old q.va).length = 32 := vparts_len _ _
  have hlb : (vparts c.old q.vb).length = 32 := vparts_len _ _
  have hzip (f : Int → Int → Int) : (List.zipWith f (vparts c.old q.va) (vparts c.old q.vb)).length = 32 := by simp [hla, hlb]
  have hget (f : Int → Int → Int) (j : Nat) (hj : j < 32) :
      (List.zipWith f (vparts c.old q.va) (vparts c.old q.vb)).getD j 0 = f (a j) (b j) := zip_getD f _ _ hla hlb j hj
  have hwrites {i : Instr} {f : Tvc → Tvc} (hexec : exec i s = done (tvcPure s t v i f)) {word : Nat} {sat : Bool}
      (hf : f c = noteSat (putV c q.vd 2 word) sat) {part : Nat → Int}
      (hpart : ∀ j, j < 32 → sext 16 (word % 2 ^ 512 / 2 ^ (16 * j)) = part j) : runs i part sat := fun hi => by
    obtain ⟨d, hd, hsame, hother, heq⟩ := vector_writes h he hi hw wv hexec hf hpart
    exact ⟨d, hd, fun j hj => by rw [vparts_getD _ _ _ hj]; exact hsame j hj, hother, heq⟩
  have hlimited {i : Instr} (f : Int → Int → Int) (hexec : exec i s = done (vecSat s t v q.vd i fun r =>
        List.zipWith f (vparts r q.va) (vparts r q.vb))) :
      runs i (fun j => lim (f (a j) (b j))) (limited fun j => f (a j) (b j)) := by
    refine hwrites hexec ?_ (word := packParts 16 ((List.zipWith f (vparts c.old q.va) (vparts c.old q.vb)).map (limitTo 16)))
      fun j hj => ?_
    · dsimp only
      rw [satParts_eq]
      dsimp only
      rw [any_eq_range_any _ 0 _ (hzip f)]
      exact congrArg _ (any_range_congr fun j hj => by rw [hget f j hj]; rfl)
    · rw [sext_packLimited (by decide) _ (by rw [hzip]) (by rw [hzip]; exact hj), hget f j hj]
      rfl
  have hplain {i : Instr} (f : Int → Int → Int) (hexec : exec i s = done (vecWord s t v q.vd i fun r =>
        packParts 16 (List.zipWith f (vparts r q.va) (vparts r q.vb))))
      (hrange : ∀ j, j < 32 → -32768 ≤ f (a j) (b j) ∧ f (a j) (b j) ≤ 32767) : runs i (fun j => f (a j) (b j)) false := by
    refine hwrites hexec rfl fun j hj => ?_
    rw [lanes_pack _ (hzip f) (fun k hk => by rw [hget f k hk]; exact hrange k hk) j hj, hget f j hj]
  have ha (j : Nat) (hj : j < 32) : -32768 ≤ a j ∧ a j ≤ 32767 := vparts_range _ _ j hj
  have hb (j : Nat) (hj : j < 32) : -32768 ≤ b j ∧ b j ≤ 32767 := vparts_range _ _ j hj
  refine ⟨hlimited (· + ·) rfl, hlimited (· - ·) rfl, hplain max rfl fun j hj => ?_, hplain min rfl fun j hj => ?_,
    hplain (fun y z => clampInt (-absInt z) (absInt z) y) rfl fun j hj => ?_, hwrites rfl rfl fun j hj => ?_,
    hwrites rfl rfl fun j hj => ?_⟩
  · have := ha j hj
    have := hb j hj
    omega
  · have := ha j hj
    have := hb j hj
    omega
  · obtain ⟨ha1, ha2⟩ := ha j hj
    obtain ⟨hb1, hb2⟩ := hb j hj
    obtain ⟨h0, h1⟩ := absInt_range hb1 hb2
    obtain ⟨hlo, -⟩ := clampInt_range (lo := -absInt (b j)) (hi := absInt (b j)) (by omega) (a j)
    have hhi := clampInt_le_max (-absInt (b j)) (absInt (b j)) (a j)
    omega
  · rw [Nat.mod_eq_of_lt (BitVec.isLt _)]
    exact (vparts_getD _ _ _ hj).symm
  · exact sext_packReplicate (sreg_lt _ _) hj

/-! ### Accumulators -/

section
variable {s : State} {t v : Nat} {x : Run} {o : ListOp} (h : tvcLive s t v = some (x, o))
  (he : (tvcOf s t v).ending = true → (tvcOf s t v).slot ≠ 0)
include h he

/-- A slot that puts a list of sums into an accumulator: each part modulo 2^40. -/
theorem accumulator_writes {i : Instr} (hi : tvcDecode t v (tvcOf s t v).slot (slotWord (tvcOf s t v)) = some i) {k : Nat}
    (wa : tblWf (tvcOf s t v).new.a = true) {f : Tvc → Tvc} (hexec : exec i s = done (tvcPure s t v i f)) {l : List Int}
    (hf : f (tvcOf s t v) = putA (tvcOf s t v) k l) (hl : l.length = 32) {part : Nat → Int}
    (hpart : ∀ j, j < 32 → l.getD j 0 = part j) : ∃ d,
      exec i s = .next (endSlot (setTvc s t v d) x o t v)
      ∧ (∀ j, j < 32 → (aparts d.new k).getD j 0 = (BitVec.ofInt 40 (part j)).toInt)
      ∧ (∀ n, n ≠ k → tblGet 0 d.new.a n = tblGet 0 (tvcOf s t v).new.a n)
      ∧ d = { tvcOf s t v with new := { (tvcOf s t v).new with a := d.new.a } } := by
  refine ⟨f (tvcOf s t v), by rw [hexec]; exact pure_go h he hi f, ?_⟩
  rw [hf]
  refine ⟨fun j hj => ?_, fun n hn => tblGet_set_other wa _ _ hn, rfl⟩
  have hstored : tblGet 0 (putA (tvcOf s t v) k l).new.a k = BitVec.ofNat 1280 (packParts 40 l) := tblGet_set_same wa _ _ _
  rw [aparts_getD _ _ _ hj, hstored, BitVec.toNat_ofNat, sext_packParts (by decide) l (by rw [hl]) (by rw [hl]; exact hj),
    hpart j hj]

/-- A slot whose word and SAT are free writes some word. -/
theorem vector_writesSome {i : Instr} (hi : tvcDecode t v (tvcOf s t v).slot (slotWord (tvcOf s t v)) = some i) {vd : Nat}
    (hw : (tvcOf s t v).wrote.find? (fun e => e.1 = vd) = none) {f : Tvc → Tvc}
    (hexec : exec i s = done (tvcPure s t v i f)) {lat word : Nat} {sat : Bool}
    (hf : f (tvcOf s t v) = noteSat (putV (tvcOf s t v) vd lat word) sat) : ∃ w sat,
      exec i s = .next (endSlot (setTvc s t v { tvcOf s t v with
        wrote := (tvcOf s t v).wrote ++ [(vd, lat)],
        new := { (tvcOf s t v).new with
          v := tblSet 0 (tvcOf s t v).new.v vd w, sat := (tvcOf s t v).new.sat || sat } }) x o t v) := by
  refine ⟨BitVec.ofNat 512 word, sat, ?_⟩
  have hgo := pure_go h he hi f
  rw [hf, noteSat_eq, putV_free hw] at hgo
  exact hexec.trans hgo

end

/-- What VSTA writes within its range of shifts. -/
theorem staValue_eq (r : TvcRegs) (q : VOperands) (hk : q.k ≤ 39) : staValue r q =
    (packParts 16 (((aparts r (q.va % 8)).zipIdx.map fun e => staPart r.rmode q.k e.2 e.1).map (limitTo 16)),
      ((aparts r (q.va % 8)).zipIdx.map fun e => staPart r.rmode q.k e.2 e.1).any
        fun y => Decidable.decide (limitTo 16 y ≠ y)) := by
  unfold staValue
  rw [satParts_eq]
  exact if_pos hk

/-- The lanes of VRCP: the quotient and whether it is limited. -/
def rcpLanes (r : TvcRegs) (q : VOperands) : List (Int × Bool) :=
  (aparts r (q.va % 8)).zipIdx.map fun e => if q.t || e.2 % 2 = 0 then rcpLane q.k e.1 else (0, false)

theorem rcpValue_eq (r : TvcRegs) (q : VOperands) (hk : q.k ≤ 47) :
    rcpValue r q = (packParts 16 ((rcpLanes r q).map (·.1)), (rcpLanes r q).any (·.2)) := if_pos hk

theorem rcpLane_eq (k : Nat) (d : Int) : rcpLane k d =
    (if d ≤ 0 then 0x7FFF else min 0x7FFF (((2 ^ k / d.toNat : Nat) : Int)),
      Decidable.decide (d ≤ 0) || Decidable.decide (0x7FFF < 2 ^ k / d.toNat)) := by
  unfold rcpLane
  dsimp only
  generalize 2 ^ k / d.toNat = n
  by_cases hd : d ≤ 0
  · simp [hd]
  · by_cases hn : 0x7FFF < n
    · simp only [hd, hn, if_false, if_true, decide_true, Bool.or_true]
      exact Prod.ext (by omega) rfl
    · simp only [hd, hn, if_false, decide_false, Bool.or_false]
      exact Prod.ext (by omega) rfl

/-- A component of VRCP lies within 16 bits. -/
theorem rcpLane_range (k : Nat) (d : Int) : 0 ≤ (rcpLane k d).1 ∧ (rcpLane k d).1 ≤ 32767 := by
  rw [rcpLane_eq]
  dsimp only
  generalize 2 ^ k / d.toNat = n
  split
  · omega
  · omega

/-- A product of VCMUL, by the parity of its component. -/
theorem cmulParts_getD (q : VOperands) (a b : List Int) {j : Nat} (hj : j < 32) : (cmulParts q a b).getD j 0 =
    (let ai := if bitAt q.f 1 then - a.getD (2 * (j / 2) + 1) 0 else a.getD (2 * (j / 2) + 1) 0
      let bi := if bitAt q.f 2 then - b.getD (2 * (j / 2) + 1) 0 else b.getD (2 * (j / 2) + 1) 0
      if q.t then a.getD j 0 * b.getD j 0
      else if j % 2 = 0 then a.getD j 0 * b.getD j 0 - ai * bi
      else a.getD (j - 1) 0 * bi + ai * b.getD (j - 1) 0) := by
  rw [cmulParts, range_map_getD hj, Nat.mul_comm (j / 2) 2]
  dsimp only
  by_cases hpar : j % 2 = 0
  · rw [show 2 * (j / 2) = j by omega, if_pos hpar, if_pos hpar]
  · rw [if_neg hpar, if_neg hpar, show 2 * (j / 2) = j - 1 by omega]

theorem cmulParts_len (q : VOperands) (a b : List Int) : (cmulParts q a b).length = 32 := by simp [cmulParts]

/-- What VCMUL adds up, part by part: the old part if asked, and the product or its negation. -/
theorem cmulSums_getD (q : VOperands) {acc p : List Int} (ha : acc.length = 32) (hp : p.length = 32) {j : Nat} (hj : j < 32) :
    (if bitAt q.f 0 then List.zipWith (· + ·) acc (if bitAt q.f 3 then p.map (- ·) else p)
      else (if bitAt q.f 3 then p.map (- ·) else p)).getD j 0 =
    (if bitAt q.f 0 then acc.getD j 0 else 0) + (if bitAt q.f 3 then - p.getD j 0 else p.getD j 0) := by
  have hlen : (if bitAt q.f 3 then p.map (- ·) else p).length = 32 := by
    split
    · rw [List.length_map, hp]
    · exact hp
  have hsign : (if bitAt q.f 3 then p.map (- ·) else p).getD j 0 = if bitAt q.f 3 then - p.getD j 0 else p.getD j 0 := by
    split
    · exact map_getD p (by rw [hp]; exact hj)
    · rfl
  rw [← hsign]
  split
  · exact zip_getD _ _ _ ha hlen j hj
  · exact (Int.zero_add _).symm

theorem cmulSums_len (q : VOperands) {acc p : List Int} (ha : acc.length = 32) (hp : p.length = 32) :
    (if bitAt q.f 0 then List.zipWith (· + ·) acc (if bitAt q.f 3 then p.map (- ·) else p)
      else (if bitAt q.f 3 then p.map (- ·) else p)).length = 32 := by
  split <;> split <;> simp [ha, hp]

/-- Settles O47: an accumulator by its sums, a store by the parts it packs. -/
theorem accumulatorsMultiplyAndStore : Obligations.AccumulatorsMultiplyAndStore := by
  unfold Obligations.AccumulatorsMultiplyAndStore
  intro s t v x o h c he q wv wa a b acc wrap stands accumulates writes writesSome conjA conjB product old shifted quotient limit
  have hla : (vparts c.old q.va).length = 32 := vparts_len _ _
  have hlb : (vparts c.old q.vb).length = 32 := vparts_len _ _
  have hacc (i : Nat) : (aparts c.old (i % 8)).length = 32 := aparts_len _ _
  have haccumulates {i : Instr} {f : Tvc → Tvc} (hexec : exec i s = done (tvcPure s t v i f)) {l : List Int}
      (hf : f c = putA c (q.vd % 8) l) (hl : l.length = 32) {part : Nat → Int} (hpart : ∀ j, j < 32 → l.getD j 0 = part j) :
      accumulates i part := fun hi => accumulator_writes h he hi wa hexec hf hl hpart
  have hwrites {i : Instr} {f : Tvc → Tvc} (hexec : exec i s = done (tvcPure s t v i f)) {lat word n m : Nat} {sat : Bool}
      (hf : f c = noteSat (putV c q.vd lat word) sat) {part : Nat → Int}
      (hpart : ∀ j, j < m → sext n (word % 2 ^ 512 / 2 ^ (n * j)) = part j) : writes i lat n m part sat :=
    fun hi hw => vector_writes h he hi hw wv hexec hf hpart
  have hsome {i : Instr} {f : Tvc → Tvc} (hexec : exec i s = done (tvcPure s t v i f)) {lat word : Nat} {sat : Bool}
      (hf : f c = noteSat (putV c q.vd lat word) sat) : writesSome i lat :=
    fun hi hw => vector_writesSome h he hi hw hexec hf
  refine ⟨haccumulates rfl rfl (cmulSums_len q (hacc q.vd) (cmulParts_len _ _ _)) fun j hj => ?_,
    haccumulates rfl rfl (by simp) fun j hj => range_map_getD hj, fun hk => ?sta, fun _ => hsome rfl rfl,
    fun _ => hsome rfl rfl, fun hk => ?rcp, ?pack⟩
  · rw [cmulSums_getD q (hacc q.vd) (cmulParts_len _ _ _) hj, cmulParts_getD q _ _ hj]
  case sta =>
    have hlen : ((aparts c.old (q.va % 8)).zipIdx.map fun e => staPart c.old.rmode q.k e.2 e.1).length = 32 := by simp [hacc]
    have hget (j : Nat) (hj : j < 32) :
        ((aparts c.old (q.va % 8)).zipIdx.map fun e => staPart c.old.rmode q.k e.2 e.1).getD j 0 = shifted j :=
      zipIdx_map_getD _ (by rw [hacc]; exact hj)
    refine hwrites (word := packParts 16
      (((aparts c.old (q.va % 8)).zipIdx.map fun e => staPart c.old.rmode q.k e.2 e.1).map (limitTo 16))) rfl ?_ fun j hj => ?_
    · rw [staValue_eq _ _ hk, any_eq_range_any _ 0 _ hlen]
      exact congrArg _ (any_range_congr fun j hj => by rw [hget j hj]; rfl)
    · rw [sext_packLimited (by decide) _ (by rw [hlen]) (by rw [hlen]; exact hj), hget j hj]
      rfl
  case rcp =>
    have hlen : (rcpLanes c.old q).length = 32 := by simp [rcpLanes, hacc]
    have hget (j : Nat) (hj : j < 32) : (rcpLanes c.old q).getD j (0, false) =
        if q.t || j % 2 = 0 then rcpLane q.k (acc q.va j) else (0, false) :=
      zipIdx_map_getD _ (by rw [hacc]; exact hj)
    have hfst (j : Nat) (hj : j < 32) : ((rcpLanes c.old q).map (·.1)).getD j 0 =
        (if q.t || j % 2 = 0 then rcpLane q.k (acc q.va j) else (0, false)).1 := by
      rw [map_getD _ (d := (0, false)) (by rw [hlen]; exact hj), hget j hj]
    refine hwrites (word := packParts 16 ((rcpLanes c.old q).map (·.1))) rfl ?_ fun j hj => ?_
    · rw [rcpValue_eq _ _ hk, any_eq_range_any _ (0, false) _ hlen]
      refine congrArg _ (any_range_congr fun j hj => ?_)
      rw [hget j hj, rcpLane_eq]
      cases hlane : (q.t || Decidable.decide (j % 2 = 0)) with
      | false => rfl
      | true => rfl
    · have hrange (n : Nat) (hn : n < 32) : -32768 ≤ ((rcpLanes c.old q).map (·.1)).getD n 0
          ∧ ((rcpLanes c.old q).map (·.1)).getD n 0 ≤ 32767 := by
        rw [hfst n hn]
        split
        · obtain ⟨h0, h1⟩ := rcpLane_range q.k (acc q.va n)
          omega
        · omega
      rw [lanes_pack _ (by rw [List.length_map, hlen]) hrange j hj, hfst j hj, rcpLane_eq]
      by_cases hlane : q.t = true ∨ j % 2 = 0
      · rw [if_pos (by simpa using hlane)]
        exact (if_pos hlane).symm
      · rw [if_neg (by simpa using hlane)]
        exact (if_neg hlane).symm
  case pack =>
    have hlen : (vparts c.old q.va ++ vparts c.old q.vb).length = 64 := by simp [hla, hlb]
    have hget (j : Nat) (hj : j < 64) : (vparts c.old q.va ++ vparts c.old q.vb).getD j 0 = if j < 32 then a j else b (j - 32) := by
      by_cases hlow : j < 32
      · rw [if_pos hlow]
        exact List.getD_append _ _ _ _ (by rw [hla]; exact hlow)
      · rw [if_neg hlow, List.getD_append_right _ _ _ _ (by rw [hla]; omega), hla]
    refine hwrites (word := packParts 8 ((vparts c.old q.va ++ vparts c.old q.vb).map (limitTo 8))) rfl ?_ fun j hj => ?_
    · dsimp only
      rw [satParts_eq]
      dsimp only
      rw [any_eq_range_any _ 0 _ hlen]
      exact congrArg _ (any_range_congr fun j hj => by rw [hget j hj]; rfl)
    · rw [sext_packLimited (by decide) _ (by rw [hlen]) (by rw [hlen]; exact hj), hget j hj]
      rfl

end Sys2Proof.Proofs
end

section
/-! PROOFS. The confidence selector and the memory slots of the vector core (R277, R278, R295 to R297). -/
namespace Sys2Proof.Proofs
open Sys2Proof.Machine Sys2Proof.Laws

/-! ### The selector -/

/-- An exclusion changes flags and what they request, the lane counts and its run. -/
theorem noteExclusion_frame (s : State) (x : Run) (n m : Nat) (table erase : Bool) :
    (noteExclusion (countLanes s x n m) x table erase).choice = s.choice
    ∧ (noteExclusion (countLanes s x n m) x table erase).mem = s.mem
    ∧ (noteExclusion (countLanes s x n m) x table erase).tile = s.tile := by
  unfold noteExclusion modRun
  dsimp only
  obtain ⟨_, _, _, _, hsecond⟩ := setFlagIf_shape erase 2818 (setFlagIf table 2817 (countLanes s x n m))
  obtain ⟨_, _, _, _, hfirst⟩ := setFlagIf_shape table 2817 (countLanes s x n m)
  obtain ⟨_, hcount⟩ := countLanes_same s x n m
  rw [hsecond, hfirst, hcount]
  exact ⟨rfl, rfl, rfl⟩

theorem takesParts_len (s : State) (q : VOperands) (r : TvcRegs) : (takesParts s q r).length = 32 := by simp [takesParts]

/-- The lanes that take the learned component are at most the lanes there are. -/
theorem learnedLanes_le (s : State) (q : VOperands) (r : TvcRegs) :
    (takesParts s q r).countP id / (if q.t then 1 else 2) ≤ if q.t then 32 else 16 := by
  have hle : (takesParts s q r).countP id ≤ 32 := takesParts_len s q r ▸ List.countP_le_length
  split
  · omega
  · omega

section
variable {s : State} {t v : Nat} {x : Run} {o : ListOp} (h : tvcLive s t v = some (x, o))
  (he : (tvcOf s t v).ending = true → (tvcOf s t v).slot ≠ 0) {q : VOperands}
  (hi : tvcDecode t v (tvcOf s t v).slot (slotWord (tvcOf s t v)) = some (.tvcCsel t v q))
include h he hi

theorem exec_tvcCsel_off (hf : feat s 2 = false) : exec (.tvcCsel t v q) s = .next (endSlot (setTvc s t v
    (putV (tvcOf s t v) q.vd 2 (packParts 16 (vparts (tvcOf s t v).old q.va)))) x o t v) :=
  slot_go h he hi (if_pos (by simp [hf]))

variable (hf : feat s 2 = true)
include hf

theorem exec_tvcCsel_excluded (hx : hasTable x (if q.t then 2 else 1) = false ∨ exclBound s x = true) :
    exec (.tvcCsel t v q) s = .next (endSlot (setTvc
      (noteExclusion (countLanes s x 0 (if q.t then 32 else 16)) x (!hasTable x (if q.t then 2 else 1)) (exclBound s x)) t v
      (putV (tvcOf s t v) q.vd 2 (packParts 16 (vparts (tvcOf s t v).old q.va)))) x o t v) :=
  slot_go h he hi ((if_neg (by simp [hf])).trans (if_pos (by rcases hx with hx | hx <;> simp [hx])))

theorem exec_tvcCsel_selects (ht : hasTable x (if q.t then 2 else 1) = true) (hx : exclBound s x = false) :
    exec (.tvcCsel t v q) s = .next (endSlot (setTvc
      (countLanes s x ((takesParts s q (tvcOf s t v).old).countP id / (if q.t then 1 else 2))
        ((if q.t then 32 else 16) - (takesParts s q (tvcOf s t v).old).countP id / (if q.t then 1 else 2))) t v
      (putV (tvcOf s t v) q.vd 2 (packParts 16 ((List.range 32).map fun j =>
        if (takesParts s q (tvcOf s t v).old).getD j false then (vparts (tvcOf s t v).old q.vb).getD j 0
        else (vparts (tvcOf s t v).old q.va).getD j 0)))) x o t v) :=
  slot_go h he hi ((if_neg (by simp [hf])).trans (if_neg (by simp [ht, hx])))

end

/-! ### Memory slots -/

section
variable {s : State} {t v : Nat} {x : Run} {o : ListOp} (h : tvcLive s t v = some (x, o))
  (he : (tvcOf s t v).ending = true → (tvcOf s t v).slot ≠ 0) {i : Instr}
  (hi : tvcDecode t v (tvcOf s t v).slot (slotWord (tvcOf s t v)) = some i) {m : MOperands}
include h he hi

theorem tvcLoad_bad {n : Nat} (hbad : memAddr (tvcOf s t v).old m % n ≠ 0 ∨ tvcReadable (memAddr (tvcOf s t v).old m) n = false)
    (f : Nat → Nat) : done (tvcLoad s t v m i n f) = .next (tvcFail s x o t v ⟨6, 0x11, false⟩) :=
  slot_fail h he hi (if_pos (by
    rcases hbad with hbad | hbad
    · simp [hbad]
    · simp [hbad]))

theorem tvcLoad_read {n : Nat} (ha : memAddr (tvcOf s t v).old m % n = 0)
    (hr : tvcReadable (memAddr (tvcOf s t v).old m) n = true) {u : State} {b : List Byte}
    (hb : tileFetch s t x.fn (memAddr (tvcOf s t v).old m) n = (u, .ok b)) (f : Nat → Nat) :
    done (tvcLoad s t v m i n f) = .next (endSlot (setTvc u t v (memUpdate
      (putV (tvcOf s t v) m.vr (loadLat v (memAddr (tvcOf s t v).old m)) (f (ofLe b))) m)) x o t v) := by
  refine slot_go h he hi ((if_neg (by simp [ha, hr])).trans ?_)
  rw [hb]

end

section
variable {s : State} {t v : Nat} {x : Run} {o : ListOp} (h : tvcLive s t v = some (x, o))
  (he : (tvcOf s t v).ending = true → (tvcOf s t v).slot ≠ 0) {m : MOperands}
  (hi : tvcDecode t v (tvcOf s t v).slot (slotWord (tvcOf s t v)) = some (.tvcSt t v m))
include h he hi

theorem exec_tvcSt_bad (hbad : memAddr (tvcOf s t v).old m % 64 ≠ 0 ∨ tileWritable (memAddr (tvcOf s t v).old m) 64 = false) :
    exec (.tvcSt t v m) s = .next (tvcFail s x o t v ⟨6, 0x11, false⟩) :=
  slot_fail h he hi (if_pos (by
    rcases hbad with hbad | hbad
    · simp [hbad]
    · simp [hbad]))

theorem exec_tvcSt (ha : memAddr (tvcOf s t v).old m % 64 = 0) (hw : tileWritable (memAddr (tvcOf s t v).old m) 64 = true) :
    exec (.tvcSt t v m) s = .next (endSlot (setTvc s t v (memUpdate
      { tvcOf s t v with stores := (tvcOf s t v).stores ++
        [(memAddr (tvcOf s t v).old m, leBytes 64 (tblGet 0 (tvcOf s t v).old.v m.vr).toNat)] } m)) x o t v) :=
  slot_go h he hi (if_neg (by simp [ha, hw]))

end

/-- A pointer that no slot of the bundle has moved is moved by its mode. -/
theorem memUpdate_unmoved {d : Tvc} {r : TvcRegs} (hr : d.old = r) (hm : d.moved = none) (m : MOperands) :
    (m.mode = 1 → memUpdate d m = { d with new := { d.new with
        p := tblSet 0 d.new.p m.p (nextPtr r m.p (tblGet 0 r.o m.o).toInt) } })
    ∧ (m.mode = 3 → memUpdate d m = { d with new := { d.new with
        p := tblSet 0 d.new.p m.p (nextPtr r m.p (4 * sext 13 m.imm)) } })
    ∧ ((m.mode = 0 ∨ m.mode = 2) → memUpdate d m = d) := by
  subst hr
  unfold memUpdate
  rw [hm]
  refine ⟨fun h => ?_, fun h => ?_, fun h => ?_⟩
  · rw [h]
    exact if_neg (by simp)
  · rw [h]
    exact if_neg (by simp)
  · rcases h with h | h
    · rw [h]
      rfl
    · rw [h]
      rfl

/-- Settles O48: the selector by the feature and the exclusions, a memory slot by its address. -/
theorem selectorAndMemorySlotsAct : Obligations.SelectorAndMemorySlotsAct := by
  unfold Obligations.SelectorAndMemorySlotsAct
  intro s t v x o h c he stands goes
  refine ⟨fun q hi => ?selector, fun m => ?memory⟩
  case selector =>
    intro a b put table lanes
    refine ⟨exec_tvcCsel_off h he hi, fun hf hx => ?_, fun hf ht hx => ?_⟩
    · obtain ⟨hchoice, hmem, htile⟩ := noteExclusion_frame s x 0 lanes (!table) (exclBound s x)
      exact ⟨_, hchoice, hmem, htile, exec_tvcCsel_excluded h he hi hf hx, rfl⟩
    · exact ⟨_, learnedLanes_le s q c.old, exec_tvcCsel_selects h he hi hf ht hx⟩
  case memory =>
    intro a
    refine ⟨fun hi ha hr u b hb => tvcLoad_read h he hi ha hr hb _, fun hi ha hr u b hb => tvcLoad_read h he hi ha hr hb _,
      fun hi ha hw => exec_tvcSt h he hi ha hw,
      ⟨fun hbad hi => tvcLoad_bad h he hi hbad _, fun hbad hi => exec_tvcSt_bad h he hi hbad,
        fun hbad hi => tvcLoad_bad h he hi hbad _⟩, fun d hold hm => memUpdate_unmoved hold hm m⟩

end Sys2Proof.Proofs
end

section
/-! PROOFS. The coding engine (R318 to R335). -/
namespace Sys2Proof.Proofs
open Sys2Proof.Machine Sys2Proof.Laws

/-! ### LDPC decoding -/

section
variable {s : State} {u : Nat} {x : Run} {g : Seg} {o : ListOp}

theorem exec_ldpcDec_ends (h : cdInside s u = some (x, g, o)) {job : CdJob} {e : Option Nat} {flags : Nat} {comb : Bool}
    (hp : g.phase = .decoding job e flags comb) : exec (.ldpcDec u) s = .next (ldpcEnd s x u o job e flags comb) := by
  change execLdpcDec u s = _
  rw [execLdpcDec, h]
  dsimp only
  rw [hp]
  rfl

theorem exec_ldpcDec_outside (h : cdInside s u = none) : exec (.ldpcDec u) s = .next s := by
  change execLdpcDec u s = _
  rw [execLdpcDec, h]
  rfl

theorem exec_ldpcDec_begins (h : atOp s 1 u 0x20 = some (x, g, o)) :
    exec (.ldpcDec u) s = .next (ldpcBegin s x u o) := by
  obtain ⟨hin, hp⟩ := atOp_inside h
  change execLdpcDec u s = _
  rw [execLdpcDec, hin]
  dsimp only
  rw [hp, onOp_eq h]
  rfl

/-! A record that was read: the feature, then the tables, then the weights. -/
section
variable {t : State} {b : List Byte} (hu : u < 24) (hr : cdRecord s x o = (t, .ok b))
include hu hr

theorem ldpcBegin_feature (hn : (parseLdpc b).nw = true) (hf : feat t 3 = false) :
    ldpcBegin s x u o = failOp t x u 6 0xC2 o.idx := by
  rw [ldpcBegin, if_neg (Nat.not_le_of_lt hu), hr]
  exact if_pos (by simp [hn, hf])

variable (hf : (parseLdpc b).nw = true → feat t 3 = true)
include hf

theorem ldpcBegin_tables (hbad : ldpcOk (parseLdpc b) = false ∨ decBoundOk (parseLdpc b) = false) :
    ldpcBegin s x u o = failOp t x u 6 0x20 o.idx := by
  have hfeat : ¬ ((parseLdpc b).nw && !feat t 3) = true := by simpa using hf
  rw [ldpcBegin, if_neg (Nat.not_le_of_lt hu), hr]
  exact (if_neg hfeat).trans (if_pos (by rcases hbad with hbad | hbad <;> simp [hbad]))

variable (hok : ldpcOk (parseLdpc b) = true) (hb : decBoundOk (parseLdpc b) = true) {v w : State} {job : CdJob}
  (hv : v = if (parseLdpc b).et then useVar t x else t) (hw : jobWeights v x (parseLdpc b) b = (w, .ok job))
include hok hb hv hw

/-- The decoding begins: at once, with its entry, or as a waiter for it. -/
theorem ldpcBegin_job : ldpcBegin s x u o =
    if !(parseLdpc b).harq then setPhase w x u (.decoding job none 0 false)
    else if entryFree w x.fn (some (parseLdpc b).key) (w.ce.turns + 1) then takeHarq w x u job
    else setPhase { w with ce := { w.ce with turns := w.ce.turns + 1 } } x u
      (.harq w.ce.turns (some (parseLdpc b).key) job) := by
  have hfeat : ¬ ((parseLdpc b).nw && !feat t 3) = true := by simpa using hf
  subst hv
  rw [ldpcBegin, if_neg (Nat.not_le_of_lt hu), hr]
  dsimp only
  rw [if_neg hfeat, if_neg (by simp [hok, hb]), hw]

end

theorem jobWeights_classical {v : State} {p : LdpcRec} {b : List Byte} (hn : p.nw = false) :
    jobWeights v x p b = (v, .ok { params := b }) := if_pos (by simp [hn])

/-! ### The HARQ pool -/

theorem exec_harqEntryTake_waiting (h : cdInside s u = some (x, g, o)) {n : Nat} {key : Option Nat} {job : CdJob}
    (hp : g.phase = .harq n key job) : exec (.harqEntryTake u) s = .next (
      if !entryFree s x.fn key n then s
      else if o.opc = 0x24 then advance (freeHarqKeys s x.fn key) x u else takeHarq s x u job) := by
  change execHarqEntryTake u s = _
  rw [execHarqEntryTake, h]
  dsimp only
  rw [hp]
  rfl

theorem exec_harqEntryTake_outside (h : cdInside s u = none) : exec (.harqEntryTake u) s = .next s := by
  change execHarqEntryTake u s = _
  rw [execHarqEntryTake, h]
  rfl

theorem exec_harqFree_waits (h : atOp s 1 u 0x24 = some (x, g, o)) {key : Option Nat}
    (hkey : (if bitAt o.imm 0 then none else some (bits (xw o 1) 23 0)) = key)
    (hf : entryFree s x.fn key (s.ce.turns + 1) = false) : exec (.harqFree u) s =
      .next (setPhase { s with ce := { s.ce with turns := s.ce.turns + 1 } } x u (.harq s.ce.turns key {})) := by
  subst hkey
  exact congrArg Host.Outcome.next ((onOp_eq h _).trans (if_neg (Bool.eq_false_iff.1 hf)))

/-! ### Encodes and polar codes -/

section
variable (h : atOp s 1 u 0x21 = some (x, g, o))
include h

theorem exec_ldpcEnc_kind (hu : u < 24 ∨ 32 ≤ u) : exec (.ldpcEnc u) s = .next (failOp s x u 6 0x21 o.idx) :=
  congrArg Host.Outcome.next ((onOp_eq h _).trans (if_pos (by simpa using hu)))

theorem exec_ldpcEnc_record (h24 : 24 ≤ u) (h32 : u < 32) {t : State} {b : List Byte} (hr : cdRecord s x o = (t, .ok b)) :
    exec (.ldpcEnc u) s = .next (
      if !ldpcOk (parseLdpc b) || !encBoundOk (parseLdpc b) then failOp t x u 6 0x20 o.idx
      else ldpcEncode t x u o (parseLdpc b)) := by
  refine congrArg Host.Outcome.next ((onOp_eq h _).trans ((if_neg ?_).trans ?_))
  · simp [Nat.not_lt_of_le h24, h32]
  · rw [hr]
    rfl

end

/-- An encode whose operands read and write. -/
theorem ldpcEncode_completes {t t' t'' w v : State} {p : LdpcRec} {l d : Operand} {raw : List Nat}
    (hl : cdOperand t (agentOf x (some u)) (xw o 2) 2 (p.tbs / 8) false = (t', .ok l))
    (hd : cdOperand t' (agentOf x (some u)) (xw o 3) 2 ((p.g + 7) / 8) true = (t'', .ok d))
    (hraw : readElems t'' (agentOf x (some u)) l (line (p.tbs / 8)) [] = (w, .ok raw))
    (hst : storeLine w (agentOf x (some u)) d
      (packBits (encodeTb p (dimsOf p) (unpackBits (raw.map (BitVec.ofNat 8)))) ((p.g + 7) / 8)) 0 = (v, .ok ())) :
    ldpcEncode t x u o p = advance v x u := by
  rw [ldpcEncode]
  dsimp only
  rw [hl]
  dsimp only
  rw [hd]
  dsimp only
  rw [hraw]
  dsimp only
  rw [hst]

section
variable (h : atOp s 1 u 0x22 = some (x, g, o))
include h

theorem exec_polarDec_kind (hu : u < 32 ∨ 36 ≤ u) : exec (.polarDec u) s = .next (failOp s x u 6 0x21 o.idx) :=
  congrArg Host.Outcome.next ((onOp_eq h _).trans (if_pos (by simpa using hu)))

section
variable (h32 : 32 ≤ u) (h36 : u < 36) {t : State} {b : List Byte} (hr : cdRecord s x o = (t, .ok b))
include h32 h36 hr

theorem exec_polarDec_bad (hb : uciOk (parsePolar b) = false) :
    exec (.polarDec u) s = .next (failOp t x u 6 0x20 o.idx) := by
  refine congrArg Host.Outcome.next ((onOp_eq h _).trans ((if_neg ?_).trans ?_))
  · simp [Nat.not_lt_of_le h32, h36]
  · rw [hr]
    exact if_pos (by simp [hb])

theorem exec_polarDec_completes (hb : uciOk (parsePolar b) = true) {t' t'' w : State} {l : Operand} {raw : List Nat}
    (hl : cdOperand t (agentOf x (some u)) (xw o 2) 1 (parsePolar b).e false = (t', .ok l))
    (hraw : readElems t' (agentOf x) l (line (parsePolar b).e) [] = (t'', .ok raw))
    (hw : writeBytes t'' (agentOf x) (parsePolar b).result
      (uciRecord (parsePolar b) (uciDecode (parsePolar b).a (parsePolar b).e (raw.map (sext 8)))) = (w, .ok ())) :
    exec (.polarDec u) s = .next (advance
      (if (uciDecode (parsePolar b).a (parsePolar b).e (raw.map (sext 8))).1 then w else cdDetail w x 2) x u) := by
  refine congrArg Host.Outcome.next ((onOp_eq h _).trans ((if_neg ?_).trans ?_))
  · simp [Nat.not_lt_of_le h32, h36]
  · rw [hr]
    dsimp only
    rw [if_neg (by simp [hb]), hl]
    dsimp only
    rw [hraw]
    dsimp only
    rw [hw]

end

end

section
variable (h : atOp s 1 u 0x23 = some (x, g, o))
include h

theorem exec_polarEnc_kind (hu : u < 36 ∨ 38 ≤ u) : exec (.polarEnc u) s = .next (failOp s x u 6 0x21 o.idx) :=
  congrArg Host.Outcome.next ((onOp_eq h _).trans (if_pos (by simpa using hu)))

section
variable (h36 : 36 ≤ u) (h38 : u < 38) {t : State} {b : List Byte} (hr : cdRecord s x o = (t, .ok b))
include h36 h38 hr

theorem exec_polarEnc_bad (hb : dlOk (parsePolar b) = false) :
    exec (.polarEnc u) s = .next (failOp t x u 6 0x20 o.idx) := by
  refine congrArg Host.Outcome.next ((onOp_eq h _).trans ((if_neg ?_).trans ?_))
  · simp [Nat.not_lt_of_le h36, h38]
  · rw [hr]
    exact if_pos (by simp [hb])

theorem exec_polarEnc_completes (hb : dlOk (parsePolar b) = true) {t' w : State} {d : Operand}
    (hd : cdOperand t (agentOf x (some u)) (xw o 2) 2 (((parsePolar b).e + 7) / 8) true = (t', .ok d))
    (hst : storeLine t' (agentOf x) d (packBits (dlEncode ((parsePolar b).typ = 1) (parsePolar b).e (parsePolar b).rnti
      ((unpackBits (parsePolar b).payload).take (parsePolar b).a)) (((parsePolar b).e + 7) / 8)) 0 = (w, .ok ())) :
    exec (.polarEnc u) s = .next (advance w x u) := by
  refine congrArg Host.Outcome.next ((onOp_eq h _).trans ((if_neg ?_).trans ?_))
  · simp [Nat.not_lt_of_le h36, h38]
  · rw [hr]
    dsimp only
    rw [if_neg (by simp [hb]), hd]
    dsimp only
    rw [hst]

end

end

end

/-- Settles O49: each operation by its unit, its record and its operands. -/
theorem codingEngineDecodesAndEncodes : Obligations.CodingEngineDecodesAndEncodes := by
  unfold Obligations.CodingEngineDecodesAndEncodes
  intro s u x g o me
  refine ⟨fun job e flags comb h hp => exec_ldpcDec_ends h hp, fun h hu t b hr => ?decode, fun h hu => ?_, fun n key job h hp => ?take,
    fun h => ⟨exec_harqEntryTake_outside h, exec_ldpcDec_outside h⟩, fun h => exec_harqFree_waits h rfl,
    fun h => ⟨exec_ldpcEnc_kind h, fun h24 h32 t b hr => ?encode⟩, fun h => ⟨exec_polarDec_kind h, fun h32 h36 t b hr =>
      ⟨exec_polarDec_bad h h32 h36 hr, fun hb t' l t'' raw w hl hraw hw => exec_polarDec_completes h h32 h36 hr hb hl hraw hw⟩⟩,
    fun h => ⟨exec_polarEnc_kind h, fun h36 h38 t b hr =>
      ⟨exec_polarEnc_bad h h36 h38 hr, fun hb t' d w hd hst => exec_polarEnc_completes h h36 h38 hr hb hd hst⟩⟩,
    fun h => congrArg _ (onOp_none h _), fun h => congrArg _ (onOp_none h _), fun h => congrArg _ (onOp_none h _),
    fun h => congrArg _ (onOp_none h _)⟩
  case decode =>
    intro p v
    rw [exec_ldpcDec_begins h]
    refine ⟨fun hn hf => congrArg _ (ldpcBegin_feature hu hr hn hf), fun hf =>
      ⟨fun hbad => congrArg _ (ldpcBegin_tables hu hr hf hbad), fun hok hb => ⟨jobWeights_classical, fun w job hw => ?_⟩⟩⟩
    rw [ldpcBegin_job hu hr hf hok hb (v := v) rfl hw]
    exact ⟨fun hh => congrArg _ (if_pos (by simp [show (parseLdpc b).harq = false from hh])),
      fun hh he => congrArg _ ((if_neg (by simp [show (parseLdpc b).harq = true from hh])).trans (if_pos he)),
      fun hh he => congrArg _ ((if_neg (by simp [show (parseLdpc b).harq = true from hh])).trans
        (if_neg (Bool.eq_false_iff.1 he)))⟩
  · rw [exec_ldpcDec_begins h]
    exact congrArg Host.Outcome.next (if_pos hu)
  case take =>
    rw [exec_harqEntryTake_waiting h hp]
    exact ⟨fun hf => congrArg _ (if_pos (by simp [hf])), fun hf ho => congrArg _ ((if_neg (by simp [hf])).trans (if_pos ho)),
      fun hf ho => congrArg _ ((if_neg (by simp [hf])).trans (if_neg ho))⟩
  case encode =>
    intro p
    rw [exec_ldpcEnc_record h h24 h32 hr]
    refine ⟨fun hbad => congrArg _ (if_pos ?_), fun hok hb t' l t'' d w raw v hl hd hraw hst => ?_⟩
    · rcases hbad with hbad | hbad
      · simp [show ldpcOk (parseLdpc b) = false from hbad]
      · simp [show encBoundOk (parseLdpc b) = false from hbad]
    · rw [if_neg (by simp [show ldpcOk (parseLdpc b) = true from hok, show encBoundOk (parseLdpc b) = true from hb])]
      exact congrArg _ (ldpcEncode_completes hl hd hraw hst)

end Sys2Proof.Proofs
end

section
/-! PROOFS. Operations of the Plinth arrays (R241 to R255, R264). -/
namespace Sys2Proof.Proofs
open Sys2Proof.Machine Sys2Proof.Laws

/-! ### An operation that passes its checks -/

/-- Where an operation that is about to run its next block stands: under way, or at its first block. -/
def StandsAt (t : State) (a : Nat) (x : Run) (g : Seg) (w : PaWork) (b : Nat) (tile : List (List Nat)) (units : List Nat) : Prop :=
  (∃ n, g.phase = .pa b n tile units)
  ∨ (∀ b n tile units, g.phase ≠ .pa b n tile units) ∧ b = 0 ∧ tile = [] ∧ units = foreignUnits t a x.fn w.row w.rows

section
variable {s t : State} {a k : Nat} {x : Run} {g : Seg} {o : ListOp} {w : PaWork}
  {check : State → Run → ListOp → State × Res PaWork} (h : paReady s a k = some (x, g, o)) (hc : check s x o = (t, .ok w))
  {b : Nat} {tile : List (List Nat)} {units : List Nat} (hat : StandsAt t a x g w b tile units)
include h hc hat

theorem onArray_at : onArray s a k check = withCols (beginPa t x a g w.n units) x a w.n fun s =>
    match w.block s b tile units with
    | (s, .fail f) => failWith s x a o.idx f
    | (s, .ok l) => endBlock s x a w.total b w.n l units := by
  unfold onArray
  rw [h]
  dsimp only
  rw [hc]
  dsimp only
  rcases hat with ⟨n, hp⟩ | ⟨hp, rfl, rfl, rfl⟩
  · rw [hp] <;> rfl
  · cases hg : g.phase
    case pa b n tile units => exact absurd hg (hp b n tile units)
    all_goals rfl

variable {v : State} (hv : v = requestCols (beginPa t x a g w.n units) a w.n (x.prio < 2))
include hv

/-- Without its columns the operation waits; with them it runs its block, which fails, ends it or leaves the next one. -/
theorem onArray_runs :
    (colsReady v a w.n = false → onArray s a k check = v)
    ∧ (colsReady v a w.n = true →
        (∀ y c, w.block v b tile units = (y, .fail c) → onArray s a k check = failWith y x a o.idx c)
        ∧ ∀ y next, w.block v b tile units = (y, .ok next) →
          (w.total ≤ b + 1 → onArray s a k check = advance y x a)
          ∧ (b + 1 < w.total → onArray s a k check = setPhase y x a (.pa (b + 1) w.n next units))) := by
  subst hv
  rw [onArray_at h hc hat]
  refine ⟨fun hr => if_neg (Bool.eq_false_iff.1 hr), fun hr => ?_⟩
  have hgo (f : State → State) : withCols (beginPa t x a g w.n units) x a w.n f =
      f (requestCols (beginPa t x a g w.n units) a w.n (x.prio < 2)) := if_pos hr
  rw [hgo]
  refine ⟨fun y c hy => by rw [hy], fun y next hy => ?_⟩
  rw [hy]
  exact ⟨fun hend => if_pos hend, fun hmore => if_neg (Nat.not_le_of_lt hmore)⟩

end

/-! ### The checks -/

section
variable {s t u : State} {x : Run} {a : Nat} {p : Product}

theorem productWork_partition (h : rowsOk x p.row p.m = false) : productWork s x a p = (s, .fail ⟨4, 0xD7, false⟩) :=
  if_pos (by simp [h])

variable (hr : rowsOk x p.row p.m = true) {oa ob : Operand}
  (ha : operand s (agentOf x (some a)) p.refA false = (t, .ok oa))
  (hb : operand t (agentOf x (some a)) p.refB false = (u, .ok ob))
include hr ha hb

/-- A product whose operands could be described: the pair of formats, then the windows. -/
theorem productWork_described : productWork s x a p =
    if !pairOk oa.lay.fmt ob.lay.fmt then (u, .fail ⟨6, 0x33, false⟩)
    else if !windowOk oa p.orgA p.extA || !windowOk ob p.orgB p.extB then (u, .fail ⟨4, 0xD5, false⟩)
    else (u, .ok { n := p.n, row := p.row, rows := p.m, total := blocksOf oa.lay.fmt ob.lay.fmt p.m p.k
                   block := fun s b t f => productBlock s x a p oa ob b t f }) := by
  unfold productWork
  dsimp only
  rw [if_neg (by simp [hr]), ha]
  dsimp only
  rw [hb]

end

theorem storeChecks_shape {s : State} {x : Run} {a : Nat} {p : StoreOp} (h : shapeOk p.m p.n = false) (fmtOk : Nat → Bool) :
    storeChecks s x a p fmtOk = (s, .fail ⟨6, 0x32, false⟩) := if_pos (by simp [h])

/-- The checks of PA_MATMUL. -/
def matmulCheck (a : Nat) (s : State) (x : Run) (o : ListOp) : State × Res PaWork :=
  if !shapeOk (matmulOf o).m (matmulOf o).n || (matmulOf o).k = 0 then (s, .fail ⟨6, 0x32, false⟩)
  else productWork s x a (matmulOf o)

/-- The checks of PA_CONV. -/
def convCheck (a : Nat) (s : State) (x : Run) (o : ListOp) : State × Res PaWork :=
  if !shapeOk (convOf o).m (convOf o).n || bits (xw o 3) 4 0 = 0 || bits (xw o 3) 9 5 = 0 || bits (xw o 3) 53 38 = 0
  then (s, .fail ⟨6, 0x32, false⟩) else productWork s x a (convOf o)

/-- The checks of PA_STORE. -/
def storeCheck (a : Nat) (s : State) (x : Run) (o : ListOp) : State × Res PaWork :=
  match storeChecks s x a (storeOf o) (fun _ => true) with
  | (s, .fail f) => (s, .fail f)
  | (s, .ok d) =>
    match scaleOperand s (agentOf x (some a)) d (!(storeOf o).fp) with
    | (s, .fail f) => (s, .fail f)
    | (s, .ok q) => (s, .ok (storeWork x a (storeOf o) (putStored (agentOf x (some a)) d q (storeOf o).fp)))

/-- The checks of PA_REDUCE_F. -/
def reduceCheck (a : Nat) (s : State) (x : Run) (o : ListOp) : State × Res PaWork :=
  if !shapeOk (reduceOf o).m (reduceOf o).n || (reduceOf o).count < 2 || 16 < (reduceOf o).count
    || (reduceOf o).step < (reduceOf o).m then (s, .fail ⟨6, 0x32, false⟩)
  else if !(reduceRegions (reduceOf o)).all (fun r => rowsOk x r (reduceOf o).m) then (s, .fail ⟨4, 0xD7, false⟩)
  else (s, .ok { n := (reduceOf o).n, row := (reduceOf o).row
                 rows := ((reduceOf o).count - 1) * (reduceOf o).step + (reduceOf o).m
                 total := divUp (reduceOf o).m (reduceRows (reduceOf o))
                 block := fun s b _ f => reduceBlock s x a (reduceOf o) b f })

/-- The checks of PA_ACCUM_X. -/
def accumCheck (a : Nat) (s : State) (x : Run) (o : ListOp) : State × Res PaWork :=
  match storeChecks s x a (storeOf o) (fun f => f = if (storeOf o).fp then 7 else 4) with
  | (s, .fail f) => (s, .fail f)
  | (s, .ok d) => (useVar s x, .ok (storeWork x a (storeOf o) (accumElems (agentOf x (some a)) d (storeOf o).fp)))

section
variable (s : State) (a : Nat)

theorem exec_paMatmul : exec (.paMatmul a) s = .next (onArray s a 0x30 (matmulCheck a)) := rfl
theorem exec_paConv : exec (.paConv a) s = .next (onArray s a 0x31 (convCheck a)) := rfl
theorem exec_paStore : exec (.paStore a) s = .next (onArray s a 0x32 (storeCheck a)) := rfl
theorem exec_paReduceF : exec (.paReduceF a) s = .next (onArray s a 0x33 (reduceCheck a)) := rfl
theorem exec_paAccumX : exec (.paAccumX a) s = .next (onArray s a 0x34 (accumCheck a)) := rfl

end

/-- Settles O51: each operation by its checks, then by its block. -/
theorem plinthOperationsRun : Obligations.PlinthOperationsRun := by
  unfold Obligations.PlinthOperationsRun
  intro s a opc x g o h me fails runs product
  have hfails {i : Instr} {k : Nat} {check : State → Run → ListOp → State × Res PaWork}
      (hexec : exec i s = .next (onArray s a k check)) (hk : opc = k) {t : State} {status result : Nat}
      (hc : check s x o = (t, .fail ⟨status, result, false⟩)) : fails i t status result := by
    subst hk
    have hfail : exec i s = .next (failOp t x a status result o.idx) := by
      rw [hexec, onArray_fail h hc]
      rfl
    exact hfail
  have hruns {i : Instr} {k : Nat} {check : State → Run → ListOp → State × Res PaWork}
      (hexec : exec i s = .next (onArray s a k check)) (hk : opc = k) {t : State} {w : PaWork}
      (hc : check s x o = (t, .ok w)) : runs i t w := by
    subst hk
    intro b tile units hat v
    obtain ⟨hwait, hrun⟩ := onArray_runs h hc hat (v := v) rfl
    rw [hexec]
    refine ⟨fun hr => congrArg _ (hwait hr), fun hr => ?_⟩
    obtain ⟨hfail, hnext⟩ := hrun hr
    refine ⟨fun y c hy => congrArg _ (hfail y c hy), fun y next hy => ?_⟩
    obtain ⟨hend, hmore⟩ := hnext y next hy
    exact ⟨fun ht => congrArg _ (hend ht), fun ht => congrArg _ (hmore ht)⟩
  have hproduct {i : Instr} {k : Nat} {check : State → Run → ListOp → State × Res PaWork}
      (hexec : exec i s = .next (onArray s a k check)) (hk : opc = k) {p : Product}
      (hc : check s x o = productWork s x a p) : product i p := by
    refine ⟨fun hr => hfails hexec hk (hc.trans (productWork_partition hr)), fun hr t u oa ob ha hb => ?_⟩
    have hwork := hc.trans (productWork_described hr ha hb)
    refine ⟨fun hp => hfails hexec hk (hwork.trans (if_pos (by simp [hp]))), fun hp hw => ?_, fun hp hwa hwb => ?_⟩
    · refine hfails hexec hk (hwork.trans ((if_neg (by simp [hp])).trans (if_pos ?_)))
      rcases hw with hw | hw
      · simp [hw]
      · simp [hw]
    · exact hruns hexec hk (hwork.trans ((if_neg (by simp [hp])).trans (if_neg (by simp [hwa, hwb]))))
  refine ⟨fun hk => ?matmul, fun hk => ?conv, fun hk => ?store, fun hk => ?reduce, fun hk => ?accum⟩
  case matmul =>
    intro p
    refine ⟨fun hbad => hfails (exec_paMatmul s a) hk (if_pos ?_), fun hs hkk => hproduct (exec_paMatmul s a) hk (if_neg ?_)⟩
    · rcases hbad with hbad | hbad
      · simp [show shapeOk (matmulOf o).m (matmulOf o).n = false from hbad]
      · simp [show (matmulOf o).k = 0 from hbad]
    · simp [show shapeOk (matmulOf o).m (matmulOf o).n = true from hs, show (matmulOf o).k ≠ 0 from hkk]
  case conv =>
    intro p kh kw c
    refine ⟨fun hbad => hfails (exec_paConv s a) hk (if_pos ?_), fun hs hh hw hcc => hproduct (exec_paConv s a) hk (if_neg ?_)⟩
    · rcases hbad with hbad | hbad | hbad | hbad
      · simp [show shapeOk (convOf o).m (convOf o).n = false from hbad]
      · simp [show bits (xw o 3) 4 0 = 0 from hbad]
      · simp [show bits (xw o 3) 9 5 = 0 from hbad]
      · simp [show bits (xw o 3) 53 38 = 0 from hbad]
    · simp [show shapeOk (convOf o).m (convOf o).n = true from hs, show bits (xw o 3) 4 0 ≠ 0 from hh,
        show bits (xw o 3) 9 5 ≠ 0 from hw, show bits (xw o 3) 53 38 ≠ 0 from hcc]
  case store =>
    intro p
    refine ⟨fun hs => hfails (exec_paStore s a) hk ?_, fun u f hc => ?_, fun u d v q hc hq => hruns (exec_paStore s a) hk ?_⟩
    · rw [storeCheck, storeChecks_shape hs]
    · subst hk
      rw [exec_paStore, onArray_fail h (f := f) (t := u)]
      rw [storeCheck, hc]
    · rw [storeCheck, hc]
      dsimp only
      rw [hq]
  case reduce =>
    intro p bad
    have hbad : (!shapeOk p.m p.n || p.count < 2 || 16 < p.count || p.step < p.m) = true ↔ bad := by
      simp only [Bool.or_eq_true, Bool.not_eq_true', decide_eq_true_eq, or_assoc]
      exact Iff.rfl
    refine ⟨fun hb => hfails (exec_paReduceF s a) hk (if_pos (hbad.2 hb)), fun hb hr => hfails (exec_paReduceF s a) hk
      ((if_neg (mt hbad.1 hb)).trans (if_pos ?_)), fun hb hr => hruns (exec_paReduceF s a) hk
      ((if_neg (mt hbad.1 hb)).trans (if_neg ?_))⟩
    · obtain ⟨r, hmem, hrow⟩ := hr
      rw [Bool.not_eq_true', List.all_eq_false]
      exact ⟨r, hmem, Bool.eq_false_iff.1 hrow⟩
    · rw [Bool.not_eq_true', Bool.not_eq_false, List.all_eq_true]
      exact hr
  case accum =>
    intro p fmtOk
    refine ⟨fun hs => hfails (exec_paAccumX s a) hk ?_, fun u f hc => ?_, fun u d hc => hruns (exec_paAccumX s a) hk ?_⟩
    · rw [accumCheck, storeChecks_shape hs]
    · subst hk
      rw [exec_paAccumX, onArray_fail h (f := f) (t := u)]
      rw [accumCheck, show storeChecks s x a (storeOf o) _ = (u, .fail f) from hc]
    · rw [accumCheck, show storeChecks s x a (storeOf o) _ = (u, .ok d) from hc]

end Sys2Proof.Proofs
end

section
/-! PROOFS. Planner cores (R389 to R401). -/
namespace Sys2Proof.Proofs
open Sys2Proof.Machine Sys2Proof.Laws

section
variable {s : State} {c upto : Nat} {x : Run} {o : ListOp}

theorem exec_teCycle_noGroups {g : Seg} (h : atOp s 3 c 0x40 = some (x, g, o)) (hg : groups s = 0) :
    exec (.teCycle c) s = .next (failOp s x c 6 0xC5 o.idx) :=
  congrArg Host.Outcome.next ((onOp_eq h _).trans (if_pos hg))

theorem exec_teCycle_waits {g : Seg} (h : atOp s 3 c 0x40 = some (x, g, o)) (hg : groups s ≠ 0) {t : State}
    (ht : t = setCore s c { coreOf s c with phase := 1, rank := 0, func := x.fn }) : exec (.teCycle c) s =
      .next (setPhase { t with ev := { t.ev with fired := t.ev.fired.filter fun e => e.1 ≠ 16 + c } } x c .awaitLine) := by
  subst ht
  exact congrArg Host.Outcome.next ((onOp_eq h _).trans (if_neg hg))

/-! ### The start of a cycle: `t` is the state without the line's firing. -/

/-- Without a firing of the core's line nothing is dropped and nothing starts. -/
theorem exec_planningCycleStart_unfired (h : ∀ e, e ∈ s.ev.fired → e.1 ≠ 16 + c) :
    exec (.planningCycleStart c upto) s = .next s := by
  have hany : s.ev.fired.any (fun e => e.1 = 16 + c) = false := List.any_eq_false.2 fun e he => by simpa using h e he
  have hfilter : s.ev.fired.filter (fun e => e.1 ≠ 16 + c) = s.ev.fired := List.filter_eq_self.2 fun e he => by simpa using h e he
  change execPlanningCycleStart c upto s = _
  rw [execPlanningCycleStart]
  dsimp only
  rw [hfilter, hany]
  change done (match inOp s 3 c with
    | some (x, g, o) => _
    | none => _) = _
  cases inOp s 3 c with
  | none => rfl
  | some z => rfl

theorem exec_planningCycleStart_fired {t : State}
    (ht : t = { s with ev := { s.ev with fired := s.ev.fired.filter fun e => e.1 ≠ 16 + c } })
    (hf : ∃ e, e ∈ s.ev.fired ∧ e.1 = 16 + c) {g : Seg} (hin : inOp t 3 c = some (x, g, o)) (hp : g.phase = .awaitLine)
    (hc : unitClocked t 3 c = true) :
    exec (.planningCycleStart c upto) s = .next (if groups t = 0 then failOp t x c 6 0xC5 o.idx else startCycle t x c o upto) := by
  have hany : s.ev.fired.any (fun e => e.1 = 16 + c) = true := by
    obtain ⟨e, he, hk⟩ := hf
    exact List.any_eq_true.2 ⟨e, he, by simpa using hk⟩
  have hpass : ¬ (!true || g.phase ≠ .awaitLine || !unitClocked t 3 c) = true := by simp [hp, hc]
  subst ht
  change execPlanningCycleStart c upto s = _
  rw [execPlanningCycleStart]
  dsimp only
  rw [hin, hany]
  exact congrArg Host.Outcome.next (if_neg hpass)

/-! ### The search bound -/

theorem exec_searchBound_idle (h : inSearch s c = none) : exec (.searchBound c upto) s = .next s := by
  change execSearchBound c upto s = _
  rw [execSearchBound, h]
  rfl

section
variable (h : inSearch s c = some (x, o)) {b : Robot} (hb : (coreOf s c).robots[(coreOf s c).rank]? = some b) {u : State}
include h hb

theorem exec_searchBound_fails {f : Fail} (hd : decideRobot (takeChoice s) (cycleOf s c x) x.id (coreOf s c).rank b
    (stopVerdict b 2 true (Config.freeNat s.choice)) = (u, .fail f)) :
    exec (.searchBound c upto) s = .next (failWith u x c o.idx f) := by
  change execSearchBound c upto s = _
  rw [execSearchBound, h]
  dsimp only
  rw [hb]
  dsimp only
  rw [hd]
  rfl

/-- The robot in search is decided and the ranks after it follow. -/
theorem exec_searchBound_follows (hd : decideRobot (takeChoice s) (cycleOf s c x) x.id (coreOf s c).rank b
      (stopVerdict b 2 true (Config.freeNat s.choice)) = (u, .ok ()))
    {y : Run} {g : Seg} (hu : current u 3 c = some (y, g)) (hg : g.stop = false) {n : Nat}
    (hn : n = max ((coreOf s c).rank + 1) (min upto (cycleOf s c x).p.nrob)) {z : State × Res Unit}
    (hz : z = planRanks u (cycleOf s c x) x.id ((List.range n).drop ((coreOf s c).rank + 1))) :
    exec (.searchBound c upto) s = .next (afterRanks z.1 x c o.idx n (cycleOf s c x).p.nrob z.2) := by
  subst hn hz
  change execSearchBound c upto s = _
  rw [execSearchBound, h]
  dsimp only
  rw [hb]
  dsimp only
  rw [hd]
  dsimp only
  rw [hu]
  exact congrArg Host.Outcome.next (if_neg (Bool.eq_false_iff.1 hg))

end

end

/-- The standing stop of a robot whose search met its bound. -/
theorem stopVerdict_bound (b : Robot) (nodes : Nat) :
    (stopVerdict b 2 true nodes).emitted = b.stop ∧ (stopVerdict b 2 true nodes).budget = true
    ∧ (b.stopOk = true → (stopVerdict b 2 true nodes).result = 2)
    ∧ (b.stopOk = false → (stopVerdict b 2 true nodes).result = 4 ∧ (stopVerdict b 2 true nodes).cause = 2) :=
  ⟨rfl, rfl, fun h => if_pos h, fun h => ⟨if_neg (Bool.eq_false_iff.1 h), if_neg (Bool.eq_false_iff.1 h)⟩⟩

/-- Settles O53: each row by the core's operation, its line and its robot in search. -/
theorem plannerCoresPlanTheirRanks : Obligations.PlannerCoresPlanTheirRanks := by
  unfold Obligations.PlannerCoresPlanTheirRanks
  intro s c upto x o
  refine ⟨fun h => congrArg _ (onOp_none h _), exec_searchBound_idle,
    fun g h => ⟨exec_teCycle_noGroups h, fun hg => exec_teCycle_waits h hg rfl⟩, ?start, fun h b g hb hcur hstop => ?bound,
    fun n m idx hnm => if_pos hnm⟩
  case start =>
    intro t
    refine ⟨fun h => ?_, fun g hf hin hp hc => ?_⟩
    · have hfilter : s.ev.fired.filter (fun e => e.1 ≠ 16 + c) = s.ev.fired :=
        List.filter_eq_self.2 fun e he => by simpa using h e he
      have ht : t = s := congrArg (fun l => { s with ev := { s.ev with fired := l } }) hfilter
      exact ⟨by rw [exec_planningCycleStart_unfired h, ht], ht⟩
    · rw [exec_planningCycleStart_fired (t := t) rfl hf hin hp hc]
      exact ⟨fun hg => congrArg _ (if_pos hg), fun hg => congrArg _ (if_neg hg)⟩
  case bound =>
    intro y v
    obtain ⟨hemit, hbudget, hsound, hunsound⟩ := stopVerdict_bound b (Config.freeNat s.choice)
    refine ⟨hemit, hbudget, hsound, hunsound, fun u f hd => exec_searchBound_fails h hb hd, fun u hd hu => ?_⟩
    obtain ⟨y', g', hcur', hg'⟩ := hu
    intro n z
    exact exec_searchBound_follows h hb hd hcur' hg' rfl rfl

end Sys2Proof.Proofs
end

section
/-! PROOFS. The data mover, the scrubber, layout invalidation and peer requests (R223 to R226, R233, R234, R238, R239). -/
namespace Sys2Proof.Proofs
open Sys2Proof.Machine Sys2Proof.Laws

/-! ### The data mover -/

theorem mvLengthBad_iff (bases : List Nat) (len : Nat) :
    mvLengthBad bases len = true ↔ len = 0 ∨ ∃ b, b ∈ bases ∧ 2 ^ 48 < b + len := by
  simp [mvLengthBad]

section
variable {s t u : State} {ch n : Nat} {x : Run} {o : ListOp}

theorem exec_mvCopy_at (h : atChunk s ch 0x60 = some (x, o, n)) : exec (.mvCopy ch) s = .next (
    if n = 0 && mvLengthBad [bits (xw o 1) 47 0, bits (xw o 2) 47 0] (bits (xw o 3) 39 0) then failOp s x ch 6 0x70 o.idx
    else copyChunk s x ch o.idx (bits (xw o 1) 47 0) (bits (xw o 2) 47 0) (bits (xw o 3) 39 0) n) := by
  change execMvCopy ch s = _
  rw [execMvCopy, h]
  rfl

theorem exec_mvCopy_idle (h : atChunk s ch 0x60 = none) : exec (.mvCopy ch) s = .next s := by
  change execMvCopy ch s = _
  rw [execMvCopy, h]
  rfl

theorem exec_mvFill_at (h : atChunk s ch 0x61 = some (x, o, n)) : exec (.mvFill ch) s = .next (
    if n = 0 && mvLengthBad [bits (xw o 1) 47 0] (bits (xw o 2) 39 0) then failOp s x ch 6 0x70 o.idx
    else if n = 0 && (bits (xw o 1) 47 0 % 4 ≠ 0 || bits (xw o 2) 39 0 % 4 ≠ 0) then failOp s x ch 6 0x71 o.idx
    else fillChunk s x ch o.idx (bits (xw o 1) 47 0) (bits (xw o 2) 39 0) n o.imm) := by
  change execMvFill ch s = _
  rw [execMvFill, h]
  rfl

theorem exec_mvFill_idle (h : atChunk s ch 0x61 = none) : exec (.mvFill ch) s = .next s := by
  change execMvFill ch s = _
  rw [execMvFill, h]
  rfl

theorem nextChunk_last {len : Nat} (h : len ≤ (n + 1) * 65536) : nextChunk s x ch n len = advance s x ch := if_pos h

theorem nextChunk_more {len : Nat} (h : (n + 1) * 65536 < len) : nextChunk s x ch n len = setPhase s x ch (.chunks (n + 1)) :=
  if_neg (Nat.not_le_of_lt h)

section
variable {idx src dst len : Nat}

theorem copyChunk_fault {f : Fail}
    (h : readDev s (agentOf x) (src + n * 65536) (min 65536 (len - n * 65536)) = (t, .fail f)) :
    copyChunk s x ch idx src dst len n = failWith t x ch idx f := by
  rw [copyChunk]
  dsimp only
  rw [show readDev s (agentOf x) (src + n * chunkBytes) (min chunkBytes (len - n * chunkBytes)) = (t, .fail f) from h]

/-- A chunk that is read and written, with DETAIL bit 0 for poison that was read. -/
theorem copyChunk_moved {d : Data}
    (hr : readDev s (agentOf x) (src + n * 65536) (min 65536 (len - n * 65536)) = (t, .ok d))
    (hw : writeDev t (agentOf x) (dst + n * 65536) d = (u, .ok ())) :
    copyChunk s x ch idx src dst len n = nextChunk
      (if d.poison = [] then u else modRun u x.id fun y => { y with detail := y.detail ||| 1 }) x ch n len := by
  rw [copyChunk]
  dsimp only
  rw [show readDev s (agentOf x) (src + n * chunkBytes) (min chunkBytes (len - n * chunkBytes)) = (t, .ok d) from hr]
  dsimp only
  rw [show writeDev t (agentOf x) (dst + n * chunkBytes) d = (u, .ok ()) from hw]
  simp only [List.isEmpty_iff]

theorem fillChunk_written {pattern : Nat} (h : writeBytes s (agentOf x) (dst + n * 65536)
      (List.replicate (min 65536 (len - n * 65536) / 4) (leBytes 4 pattern)).flatten = (u, .ok ())) :
    fillChunk s x ch idx dst len n pattern = nextChunk u x ch n len := by
  rw [fillChunk]
  rw [show writeBytes s (agentOf x) (dst + n * chunkBytes)
    (List.replicate (min chunkBytes (len - n * chunkBytes) / 4) (leBytes 4 pattern)).flatten = (u, .ok ()) from h]

end

end

/-! ### The scrubber -/

section
variable {s : State} {unit off : Nat}

theorem exec_scrub_idle (h : reg s 0x90008 = 0 ∨ s.power.selfRefresh = true ∨ hbmCap s ≤ off ∨ stackOf s off ≠ unit) :
    exec (.scrub unit off) s = .next s :=
  congrArg Host.Outcome.next (if_pos (by rcases h with h | h | h | h <;> simp [h]))

section
variable (hr : reg s 0x90008 ≠ 0) (hp : s.power.selfRefresh = false) (ho : off < hbmCap s) (hs : stackOf s off = unit)
include hr hp ho hs

theorem exec_scrub_clean (hc : tblGet? s.mem.hbmCell (hbmPlace s off / 32) = none) : exec (.scrub unit off) s = .next s := by
  change execScrub unit off s = _
  rw [execScrub, if_neg (by simp [hr, hp, Nat.not_le_of_lt ho, hs])]
  dsimp only
  rw [hc]
  rfl

theorem exec_scrub_flipped {e : Nat} (hc : tblGet? s.mem.hbmCell (hbmPlace s off / 32) = some e) {t : State}
    (ht : senseCell s 1 (hbmPlace s off / 32, e) = t) : exec (.scrub unit off) s =
      .next (if e = 1 then setCells t 1 (tblDel t.mem.hbmCell (hbmPlace s off / 32)) else t) := by
  change execScrub unit off s = _
  rw [execScrub, if_neg (by simp [hr, hp, Nat.not_le_of_lt ho, hs])]
  dsimp only
  rw [hc]
  dsimp only
  rw [ht]
  rfl

end

end

/-! ### Layout invalidation -/

/-- A write to LAY_INV by the block and by whether an invalidation is in progress. -/
theorem layInvStart_spec (s : State) (c : Nat) (h : Option Nat) :
    (served s = false → layInvStart s c h = s)
    ∧ (served s = true → s.mem.layInv ≠ none → layInvStart s c h = setFlag s 3232)
    ∧ (served s = true → s.mem.layInv = none →
        layInvStart s c h = { s with mem := { s.mem with layInv := some (c, h) } }) :=
  ⟨fun hs => if_pos (by simp [hs]),
    fun hs hb => (if_neg (by simp [hs])).trans (if_pos (Option.isSome_iff_ne_none.2 hb)),
    fun hs hb => (if_neg (by simp [hs])).trans (if_neg (by simp [hb]))⟩

theorem exec_layInv_eq (s : State) (c : Nat) (h : Option Nat) :
    exec (match h with | some k => .layInvHandle c k | none => .layInvAll c) s = .next (layInvStart s c h) := by
  cases h <;> rfl

/-- A cached descriptor that an invalidation of a handle, or of all, covers. -/
def coveredBy (c : Nat) (h : Option Nat) (e : Nat × Nat × List Byte) : Bool :=
  e.1 = c && (match h with
    | some k => e.2.1 = k
    | none => true)

theorem coveredBy_iff (c : Nat) (h : Option Nat) (e : Nat × Nat × List Byte) :
    coveredBy c h e = true ↔ e.1 = c ∧ ∀ k, h = some k → e.2.1 = k := by
  cases h with
  | none => simp [coveredBy]
  | some k => simp [coveredBy]

theorem exec_layInvDone {s : State} {c : Nat} {h : Option Nat} (hi : s.mem.layInv = some (c, h)) : exec .layInvDone s =
    .next { s with mem := { s.mem with layInv := none, lay := s.mem.lay.filter fun e => !coveredBy c h e } } := by
  change execLayInvDone s = _
  rw [execLayInvDone, hi]
  rfl

theorem exec_layInvDone_idle {s : State} (hi : s.mem.layInv = none) : exec .layInvDone s = .next s := by
  change execLayInvDone s = _
  rw [execLayInvDone, hi]
  rfl

/-! ### Peer requests -/

/-- The memory's answer to a peer's request. -/
def peerAnswers (s : State) (a : Option (List Byte × Bool)) : State := { s with mem := { s.mem with peerAnswer := a } }

section
variable {s : State} {die addr len : Nat} (hw : working s 12 die = true)
include hw

/-- A write by a peer, by the place that its address is mapped to. -/
theorem exec_peerInbound_some (b : List Byte) : exec (.peerInbound die addr (some b) len) s = .next (
    match inboundOffset s die addr b.length with
    | none => peerAnswers (setFlag s 2977) none
    | some off =>
      if hbmCap s < off + b.length then peerAnswers s none
      else peerAnswers (hbmWrite s { ctx := 0, cls := 7 } (pieces off b.length) b) (some ([], false))) :=
  congrArg Host.Outcome.next (if_neg (by simp [hw]))

/-- A read by a peer, by the place that its address is mapped to. -/
theorem exec_peerInbound_none : exec (.peerInbound die addr none len) s = .next (
    match inboundOffset s die addr len with
    | none => peerAnswers (setFlag s 2977) none
    | some off =>
      if hbmCap s < off + len then peerAnswers s none
      else
        let (t, d) := hbmRead s { ctx := 0, cls := 7 } (pieces off len) {}
        peerAnswers t (some (d.bytes, !d.poison.isEmpty))) :=
  congrArg Host.Outcome.next (if_neg (by simp [hw]))

end

/-- Settles O54: the mover by its chunk, a scrub by its cell, an invalidation by its progress, a peer by its window. -/
theorem memoryMoversAndInvalidation : Obligations.MemoryMoversAndInvalidation := by
  unfold Obligations.MemoryMoversAndInvalidation
  intro s
  refine ⟨fun ch x o n h => ?copy, fun ch => ⟨exec_mvCopy_idle, exec_mvFill_idle⟩, fun ch x o n h => ?fill,
    fun unit off hr hp ho hs => ?scrub, fun unit off => exec_scrub_idle, fun c h => ?start, exec_layInvDone_idle,
    fun c h hi => ?covered, fun die addr data len hw => ?peer,
    fun die addr data len hw => congrArg Host.Outcome.next (if_pos (by simp [hw]))⟩
  case copy =>
    intro src dst len
    rw [exec_mvCopy_at h]
    have hpass (hl : 0 < len) (hsrc : src + len ≤ 2 ^ 48) (hdst : dst + len ≤ 2 ^ 48) :
        ¬ (n = 0 && mvLengthBad [src, dst] len) = true := by
      have hfit : ¬ mvLengthBad [src, dst] len = true := by
        rw [mvLengthBad_iff]
        rintro (h0 | ⟨b, hb, hbig⟩)
        · omega
        · rcases List.mem_cons.1 hb with rfl | hb
          · omega
          · have := List.mem_singleton.1 hb
            omega
      simp [hfit]
    refine ⟨fun h0 hbad => congrArg Host.Outcome.next (if_pos ?_), fun hl hsrc hdst t f hf => ?_,
      fun hl hsrc hdst t d u hread hwrite => ?_⟩
    · have hlen : mvLengthBad [src, dst] len = true := (mvLengthBad_iff _ _).2 (by
        rcases hbad with hbad | hbad | hbad
        · exact .inl hbad
        · exact .inr ⟨src, by simp, hbad⟩
        · exact .inr ⟨dst, by simp, hbad⟩)
      exact Bool.and_eq_true_iff.2 ⟨decide_eq_true h0, hlen⟩
    · rw [if_neg (hpass hl hsrc hdst), copyChunk_fault hf]
    · intro v
      rw [if_neg (hpass hl hsrc hdst), copyChunk_moved hread hwrite]
      exact ⟨fun hend => congrArg _ (nextChunk_last hend), fun hmore => congrArg _ (nextChunk_more hmore)⟩
  case fill =>
    intro dst len
    rw [exec_mvFill_at h]
    have hlen : mvLengthBad [dst] len = true ↔ len = 0 ∨ 2 ^ 48 < dst + len := by
      rw [mvLengthBad_iff]
      simp
    refine ⟨fun h0 hbad => congrArg Host.Outcome.next (if_pos ?_), fun h0 hl hdst hal => ?_, fun hl hdst ha1 ha2 u hu => ?_⟩
    · exact Bool.and_eq_true_iff.2 ⟨decide_eq_true h0, hlen.2 hbad⟩
    · have hfit : ¬ mvLengthBad [dst] len = true := by rw [hlen]; omega
      refine congrArg Host.Outcome.next ((if_neg fun hb => hfit (Bool.and_eq_true_iff.1 hb).2).trans (if_pos ?_))
      rcases hal with hal | hal
      · simp [h0, show bits (xw o 1) 47 0 % 4 ≠ 0 from hal]
      · simp [h0, show bits (xw o 2) 39 0 % 4 ≠ 0 from hal]
    · have hfit : ¬ mvLengthBad [dst] len = true := by rw [hlen]; omega
      rw [if_neg fun hb => hfit (Bool.and_eq_true_iff.1 hb).2,
        if_neg (by simp [show bits (xw o 1) 47 0 % 4 = 0 from ha1, show bits (xw o 2) 39 0 % 4 = 0 from ha2]),
        fillChunk_written hu]
      exact ⟨fun hend => congrArg _ (nextChunk_last hend), fun hmore => congrArg _ (nextChunk_more hmore)⟩
  case scrub =>
    intro cell
    exact ⟨exec_scrub_clean hr hp ho hs, fun hc => exec_scrub_flipped hr hp ho hs hc rfl,
      fun e he hc => (exec_scrub_flipped hr hp ho hs hc rfl).trans (congrArg _ (if_neg he))⟩
  case start =>
    intro i
    have hexec : exec i s = .next (layInvStart s c h) := exec_layInv_eq s c h
    rw [hexec]
    obtain ⟨hidle, hbusy, hgo⟩ := layInvStart_spec s c h
    exact ⟨fun hs => congrArg _ (hidle hs), fun hs hb => congrArg _ (hbusy hs hb), fun hs hb => congrArg _ (hgo hs hb)⟩
  case covered =>
    refine ⟨_, exec_layInvDone hi, rfl, fun e => ?_⟩
    rw [← coveredBy_iff, List.mem_filter]
    exact and_congr_right fun _ => by simp
  case peer =>
    cases data with
    | some b =>
      intro n me answers
      refine ⟨fun h => (exec_peerInbound_some hw b).trans (by rw [show inboundOffset s die addr b.length = none from h]; rfl),
        fun off h => ?_⟩
      rw [show inboundOffset s die addr n = inboundOffset s die addr b.length from rfl] at h
      refine ⟨fun hc => (exec_peerInbound_some hw b).trans ?_, fun hc b' hb => ?_, fun _ hb => nomatch hb⟩
      · rw [h]
        exact congrArg Host.Outcome.next (if_pos hc)
      · obtain rfl := Option.some.inj hb
        refine (exec_peerInbound_some hw b).trans ?_
        rw [h]
        exact congrArg Host.Outcome.next (if_neg (Nat.not_lt_of_le hc))
    | none =>
      intro n me answers
      refine ⟨fun h => (exec_peerInbound_none hw).trans (by rw [show inboundOffset s die addr len = none from h]; rfl),
        fun off h => ?_⟩
      rw [show inboundOffset s die addr n = inboundOffset s die addr len from rfl] at h
      refine ⟨fun hc => (exec_peerInbound_none hw).trans ?_, fun _ b' hb => (nomatch hb), fun hc _ t d ht => ?_⟩
      · rw [h]
        exact congrArg Host.Outcome.next (if_pos hc)
      · refine (exec_peerInbound_none hw).trans ?_
        rw [h]
        dsimp only
        rw [if_neg (Nat.not_lt_of_le hc), show hbmRead s { ctx := 0, cls := 7 } (pieces off len) {} = (t, d) from ht]
        rfl

end Sys2Proof.Proofs
end

section
/-! PROOFS. Publishing and withdrawing the tables of the learned receiver (R271 to R274). -/
namespace Sys2Proof.Proofs
open Sys2Proof.Machine Sys2Proof.Laws

section
variable {s : State} {func table sfn sf e : Nat}

theorem exec_publish_idle (hl : mqLive s = false) : exec (.publish func table sfn sf) s = .next s :=
  congrArg Host.Outcome.next (if_pos (by simp [hl]))

theorem exec_withdraw_idle (hl : mqLive s = false) : exec (.withdraw e) s = .next s :=
  congrArg Host.Outcome.next (if_pos (by simp [hl]))

section
variable (hl : mqLive s = true)
include hl

/-- A command during a publish is an overrun. -/
theorem exec_publish_overrun (hp : s.mq.pub.isSome = true) :
    exec (.publish func table sfn sf) s = .next (setFlag s 2819) :=
  congrArg Host.Outcome.next ((if_neg (by simp [hl])).trans (if_pos hp))

theorem exec_withdraw_overrun (hp : s.mq.pub.isSome = true) : exec (.withdraw e) s = .next (setFlag s 2819) :=
  congrArg Host.Outcome.next ((if_neg (by simp [hl])).trans (if_pos hp))

section
variable (hp : s.mq.pub = none)
include hp

theorem exec_publish_starts : exec (.publish func table sfn sf) s = .next { s with mq := { s.mq with
    pub := some { func := func, table := table, sfn := sfn, sf := sf, addr := reg64 s 0x120010 % 2 ^ 48 } } } :=
  congrArg Host.Outcome.next ((if_neg (by simp [hl])).trans (if_neg (by simp [hp])))

theorem exec_withdraw_pending (he : e < 256) (hst : (verOf s e).st = 1) :
    exec (.withdraw e) s = .next (postResult (setVer s e {}) 1 (some e)) :=
  congrArg Host.Outcome.next ((if_neg (by simp [hl])).trans ((if_neg (by simp [hp])).trans (if_pos (by simp [he, hst]))))

theorem exec_withdraw_other (h : 256 ≤ e ∨ (verOf s e).st ≠ 1) : exec (.withdraw e) s = .next (postResult s 6 none) :=
  congrArg Host.Outcome.next ((if_neg (by simp [hl])).trans ((if_neg (by simp [hp])).trans (if_neg (by
    rcases h with h | h
    · simp [Nat.not_lt_of_le h]
    · simp [h]))))

end

end

end

/-! ### The end of a publish -/

theorem exec_publishDone_idle {s : State} (hp : s.mq.pub = none) : exec .publishDone s = .next s := by
  change execPublishDone s = _
  rw [execPublishDone, hp]
  rfl

section
variable {s t : State} {j : PubJob} (hp : s.mq.pub = some j)
include hp

theorem exec_publishDone_refused (h : fnExists s j.func = false ∨ (ctxOf s j.func).en = false) :
    exec .publishDone s = .next (postResult s 5 none) := by
  change execPublishDone s = _
  rw [execPublishDone, hp]
  exact congrArg Host.Outcome.next (if_pos (by rcases h with h | h <;> simp [h]))

section
variable (hf : fnExists s j.func = true) (hc : (ctxOf s j.func).en = true)
include hf hc

theorem exec_publishDone_bad {r : Nat} (h : readTable s j = (t, .inr r)) :
    exec .publishDone s = .next (postResult t r none) := by
  change execPublishDone s = _
  rw [execPublishDone, hp]
  dsimp only
  rw [if_neg (by simp [hf, hc]), h]
  rfl

theorem exec_publishDone_good {b : List Byte} (h : readTable s j = (t, .inl b)) :
    exec .publishDone s = .next (publishTable t j b) := by
  change execPublishDone s = _
  rw [execPublishDone, hp]
  dsimp only
  rw [if_neg (by simp [hf, hc]), h]
  rfl

end

end

/-- Settles O56: each command by whether the feature is live, a publish is in progress, and what its end reads. -/
theorem tablesArePublishedAndWithdrawn : Obligations.TablesArePublishedAndWithdrawn := by
  unfold Obligations.TablesArePublishedAndWithdrawn
  intro s
  refine ⟨fun hl hp => ⟨fun func table sfn sf => exec_publish_starts hl hp, fun e => exec_withdraw_pending hl hp,
      fun e => exec_withdraw_other hl hp⟩,
    fun hl j hj func table sfn sf e => ?overrun,
    fun hl func table sfn sf e => ⟨exec_publish_idle hl, exec_withdraw_idle hl⟩,
    exec_publishDone_idle,
    fun j hj => ⟨exec_publishDone_refused hj, fun hf hc t => ⟨fun r => exec_publishDone_bad hj hf hc,
      fun b => exec_publishDone_good hj hf hc⟩⟩⟩
  case overrun =>
    have hp : s.mq.pub.isSome = true := by rw [hj]; rfl
    exact ⟨exec_publish_overrun hl hp, exec_withdraw_overrun hl hp⟩

end Sys2Proof.Proofs
end

section
/-! PROOFS. The replay counter of a die-to-die link (R413). -/
namespace Sys2Proof.Proofs
open Sys2Proof.Machine Sys2Proof.Laws

/-- An assembly of one link that is up and whose replay counter already lies above 0xFFFF, which the type allows. -/
def overfullLink : State := { fuse := { assy := 1 }, err := { d2d := [(0, { retry := 0x10000 })] } }

/-- A replay limits that counter to 0xFFFF, which is no multiple of 256. -/
theorem exec_d2dRetry_overfull : exec (.d2dRetry 0 false) overfullLink =
    .next (setFlag (setD2d overfullLink 0 { retry := 0xFFFF }) 3075) := rfl

/-- Setting a flag leaves the links. -/
theorem d2dOf_setFlag (s : State) (id d : Nat) : d2dOf (setFlag s id) d = d2dOf s d := by
  obtain ⟨f, o, e, l, hshape⟩ := setFlag_shape s id
  rw [hshape]
  rfl

/-- Refutes O55: a replay counter above 0xFFFF, which no invariant of the statement excludes, does not stay but falls to
0xFFFF. -/
theorem not_faultsAreContainedAndArrivalsRouted : ¬ Obligations.FaultsAreContainedAndArrivalsRouted := by
  unfold Obligations.FaultsAreContainedAndArrivalsRouted
  intro h
  obtain ⟨-, -, -, hlinks, -⟩ := h overfullLink
  have hkept : exec (.d2dRetry 0 false) overfullLink =
      .next (setFlag (setD2d overfullLink 0 { retry := 0x10000 }) 3075) := (hlinks 0 (by decide) (by decide)).1 false
  have hsame := Host.Outcome.next.inj (exec_d2dRetry_overfull.symm.trans hkept)
  have hretry : (d2dOf (setFlag (setD2d overfullLink 0 { retry := 0xFFFF }) 3075) 0).retry =
      (d2dOf (setFlag (setD2d overfullLink 0 { retry := 0x10000 }) 3075) 0).retry := by rw [hsame]
  rw [d2dOf_setFlag, d2dOf_setFlag] at hretry
  exact absurd hretry (by decide)

end Sys2Proof.Proofs
end

section
/-! PROOFS. The converter links: synchronisation, start, symbols, stop and loss (R371 to R374, R378, R381, R384, R385). -/
namespace Sys2Proof.Proofs
open Sys2Proof.Machine Sys2Proof.Laws

theorem linkOf_of_cv {s t : State} (h : t.cv = s.cv) (k : Nat) : linkOf t k = linkOf s k := by
  rw [linkOf, h]
  rfl

/-! ### Synchronisation -/

section
variable {s : State} {k : Nat}

theorem exec_linkSync_starts (hk : k < 6) (hst : (linkOf s k).st = 0) (hr : linkMayRun s k = true) :
    exec (.linkSync k) s = .next (setLink s k { linkOf s k with
      st := 1, cfg := BitVec.ofNat 32 (reg s (linkReg k 0)), lat := BitVec.ofNat 32 (reg s (linkReg k 0xC))
      agc := BitVec.ofNat 32 (reg s (linkReg k 0x24)), lanes := false, srefSeen := false }) :=
  congrArg Host.Outcome.next (if_pos (by simp [hk, hst, hr]))

theorem exec_linkSync_idle (h : 6 ≤ k ∨ (linkOf s k).st ≠ 0 ∨ linkMayRun s k = false) :
    exec (.linkSync k) s = .next s :=
  congrArg Host.Outcome.next (if_neg (by
    rcases h with h | h | h
    · simp [Nat.not_lt_of_le h]
    · simp [h]
    · simp [h]))

theorem trySync_ready (h : ((linkOf s k).st = 1 ∧ (linkOf s k).lanes = true) ∧ (linkOf s k).srefSeen = true) :
    trySync s k = endStop (setLink s k { linkOf s k with st := 2 }) k := if_pos (by simp [h])

theorem trySync_waits (h : (linkOf s k).lanes = false ∨ (linkOf s k).srefSeen = false) : trySync s k = s :=
  if_neg (by rcases h with h | h <;> simp [h])

section
variable (hst : (linkOf s k).st = 1)
include hst

theorem exec_laneLock_eq : exec (.laneLock k) s = .next (trySync (setLink s k { linkOf s k with lanes := true }) k) :=
  congrArg Host.Outcome.next (if_pos hst)

/-- The first edge on SYSREF is kept with its time and sends its arrival. -/
theorem exec_sysrefEdge_first (hs : (linkOf s k).srefSeen = false) : exec (.sysrefEdge k) s =
    .next (trySync (arrive (setLink s k { linkOf s k with
      sref := BitVec.ofInt 64 (dieCount s (linkDie k)), srefSeen := true }) (400 + k)) k) :=
  congrArg Host.Outcome.next ((if_neg (by simp [hst])).trans (if_pos (by simp [hs])))

section
variable (w : tblWf s.cv.link = true)
include w

/-- Lock of the lanes waits for the edge, or with it makes the link READY. -/
theorem laneLock_syncs :
    ((linkOf s k).srefSeen = false → exec (.laneLock k) s = .next (setLink s k { linkOf s k with lanes := true }))
    ∧ ((linkOf s k).srefSeen = true → ∃ t, exec (.laneLock k) s = .next (endStop t k)
        ∧ (∀ j, j ≠ k → linkOf t j = linkOf s j) ∧ linkOf t k = { linkOf s k with lanes := true, st := 2 }) := by
  have hlink := link_same s k { linkOf s k with lanes := true } w
  have hwf := link_wf s k { linkOf s k with lanes := true } w
  rw [exec_laneLock_eq hst]
  refine ⟨fun hs => congrArg Host.Outcome.next (trySync_waits (.inr (by rw [hlink]; exact hs))), fun hs => ⟨_,
    congrArg Host.Outcome.next (trySync_ready (by rw [hlink]; exact ⟨⟨hst, rfl⟩, hs⟩)), fun j hj => ?_, ?_⟩⟩
  · rw [link_other _ _ _ _ hwf hj, link_other _ _ _ _ w hj]
  · rw [link_same _ _ _ hwf, hlink]

/-- The first edge waits for the lanes, or with them makes the link READY. -/
theorem sysrefEdge_syncs (hs : (linkOf s k).srefSeen = false) : ∃ t, (∀ j, j ≠ k → linkOf t j = linkOf s j)
    ∧ linkOf t k = { linkOf s k with
        sref := BitVec.ofInt 64 (dieCount s (linkDie k)), srefSeen := true, st := if (linkOf s k).lanes then 2 else 1 }
    ∧ exec (.sysrefEdge k) s = .next (if (linkOf s k).lanes then endStop t k else t)
    ∧ t.ev = { s.ev with inFlight := s.ev.inFlight ++ [{ input := 400 + k }] } := by
  rw [exec_sysrefEdge_first hst hs]
  generalize hx : ({ linkOf s k with sref := BitVec.ofInt 64 (dieCount s (linkDie k)), srefSeen := true } : CvLink) = x
  have hlink : linkOf (arrive (setLink s k x) (400 + k)) k = x := link_same s k x w
  have hwf : tblWf (arrive (setLink s k x) (400 + k)).cv.link = true := link_wf s k x w
  have hother (j : Nat) (hj : j ≠ k) : linkOf (arrive (setLink s k x) (400 + k)) j = linkOf s j := link_other s k j x w hj
  cases hl : (linkOf s k).lanes with
  | false =>
    refine ⟨arrive (setLink s k x) (400 + k), hother, ?_, congrArg Host.Outcome.next (trySync_waits (.inl ?_)), rfl⟩
    · rw [hlink, ← hx, if_neg Bool.false_ne_true, ← hst]
    · rw [hlink, ← hx, hl]
  | true =>
    have hstx : x.st = 1 := by rw [← hx]; exact hst
    have hlx : x.lanes = true := by rw [← hx]; exact hl
    have hsx : x.srefSeen = true := by rw [← hx]
    refine ⟨setLink (arrive (setLink s k x) (400 + k)) k { x with st := 2 }, fun j hj => ?_, ?_,
      congrArg Host.Outcome.next ((trySync_ready (by rw [hlink]; exact ⟨⟨hstx, hlx⟩, hsx⟩)).trans (by rw [hlink]; rfl)), rfl⟩
    · rw [link_other _ _ _ _ hwf hj, hother j hj]
    · rw [link_same _ _ _ hwf, ← hx]
      rfl

end

end

theorem exec_sysrefEdge_later (hst : (linkOf s k).st ≠ 0) (hs : (linkOf s k).srefSeen = true) : exec (.sysrefEdge k) s =
    .next (if misaligned (linkOf s k) (dieCount s (linkDie k)) then setFlag s (2310 + k) else s) :=
  congrArg Host.Outcome.next ((if_neg hst).trans (if_neg (by simp [hs])))

end

/-! ### Loss -/

section
variable {s t : State} (h : RadioMoves s t)
include h

theorem RadioMoves.dieCount (d : Nat) : Machine.dieCount t d = Machine.dieCount s d := by
  obtain ⟨⟨_, _, _, _, _, _, _, _, _, rfl⟩, -⟩ := h; rfl

theorem RadioMoves.cvOfs (k w : Nat) : Machine.cvOfs t k w = Machine.cvOfs s k w := by
  obtain ⟨⟨_, _, _, _, _, _, _, _, _, rfl⟩, -⟩ := h; rfl

theorem RadioMoves.absFrame (sfn : Nat) : Machine.absFrame t sfn = Machine.absFrame s sfn := by
  obtain ⟨⟨_, _, _, _, _, _, _, _, _, rfl⟩, -⟩ := h; rfl

theorem RadioMoves.sfnAt (a : Int) : Machine.sfnAt t a = Machine.sfnAt s a := by
  obtain ⟨⟨_, _, _, _, _, _, _, _, _, rfl⟩, -⟩ := h; rfl

theorem RadioMoves.slotAt (mu : Nat) (a : Int) : Machine.slotAt t mu a = Machine.slotAt s mu a := by
  obtain ⟨⟨_, _, _, _, _, _, _, _, _, rfl⟩, -⟩ := h; rfl

theorem RadioMoves.slotStart (mu sfn slot : Nat) : Machine.slotStart t mu sfn slot = Machine.slotStart s mu sfn slot := by
  obtain ⟨⟨_, _, _, _, _, _, _, _, _, rfl⟩, -⟩ := h; rfl

end

/-- A burst ended on a link changes tiles, arrivals and that link's burst and its counts. -/
theorem truncateBurst_shape (s : State) (k : Nat) : ∃ tile ev b r, truncateBurst s k = { s with
    tile := tile, ev := ev, cv := { s.cv with
      link := tblSet {} s.cv.link k { linkOf s k with burst := {}, bursts := b, records := r } } } := by
  have hstore (u : State) (t a : Nat) (l : List Byte) : ∃ tile, ingressStore u t a l = { u with tile := tile } := by
    unfold ingressStore
    split
    · exact ⟨_, rfl⟩
    · exact ⟨_, rfl⟩
  unfold truncateBurst
  dsimp only
  split
  · unfold writeBurst
    dsimp only
    generalize (List.range 256).map _ ++ _ = bins
    generalize leBytes 4 _ ++ leBytes 4 0 ++ _ ++ _ ++ _ ++ _ ++ _ = record
    obtain ⟨tile₁, h₁⟩ := hstore s (bits (reg s (linkReg k 0xC4)) 5 0) (reg s (linkReg k 0xC8)
      + burstSize (linkOf s k).burst.prof * ((linkOf s k).records % max (bits (reg s (linkReg k 0xC4)) 13 8) 1) + 64) bins
    rw [h₁]
    obtain ⟨tile₂, h₂⟩ := hstore { s with tile := tile₁ } (bits (reg s (linkReg k 0xC4)) 5 0) (reg s (linkReg k 0xC8)
      + burstSize (linkOf s k).burst.prof * ((linkOf s k).records % max (bits (reg s (linkReg k 0xC4)) 13 8) 1)) record
    rw [h₂]
    exact ⟨_, _, _, _, rfl⟩
  · exact ⟨_, _, (linkOf s k).bursts, (linkOf s k).records, rfl⟩

/-- What a link that leaves READY or RUN leaves behind: its flag, and its burst cut. -/
def cutLink (s : State) (k : Nat) : State :=
  let u := setFlagIf (2 ≤ (linkOf s k).st) (2304 + k) s
  if (linkOf s k).st = 3 then truncateBurst u k else u

theorem cutLink_moves (s : State) (k : Nat) : RadioMoves s (cutLink s k) :=
  (RadioMoves.setFlagIf _ _ s).trans (.ite (.truncateBurst _ k) (.refl _))

theorem setFlagIf_fh (c : Bool) (id : Nat) (s : State) : (setFlagIf c id s).fh = s.fh := by
  cases c with
  | false => rfl
  | true =>
    obtain ⟨f, o, e, l, h⟩ := setFlag_shape s id
    change (setFlag s id).fh = s.fh
    rw [h]

theorem cutLink_fh (s : State) (k : Nat) : (cutLink s k).fh = s.fh := by
  unfold cutLink
  dsimp only
  split
  · obtain ⟨tile, ev, b, r, h⟩ := truncateBurst_shape (setFlagIf (2 ≤ (linkOf s k).st) (2304 + k) s) k
    rw [h]
    exact setFlagIf_fh _ _ s
  · exact setFlagIf_fh _ _ s

theorem flag_cutLink {s : State} {k : Nat} (h : 2 ≤ (linkOf s k).st) : flag (cutLink s k) (2304 + k) = true := by
  have hset : flag (setFlagIf (2 ≤ (linkOf s k).st) (2304 + k) s) (2304 + k) = true := by
    rw [setFlagIf, if_pos (decide_eq_true h)]
    exact flag_setFlag_same s _
  exact (RadioMoves.ite (.truncateBurst _ k) (.refl _) :
    RadioMoves (setFlagIf (2 ≤ (linkOf s k).st) (2304 + k) s) (cutLink s k)).2.1 _ hset

theorem cutLink_wf {s : State} (k : Nat) (w : tblWf s.cv.link = true) : LinkOnly k s (cutLink s k) := by
  have hflag : LinkOnly k s (setFlagIf (2 ≤ (linkOf s k).st) (2304 + k) s) := .of_cv w (setFlagIf_cv _ _ s)
  exact .ite (hflag.trans (truncateBurst_only k hflag.1)) hflag

theorem linkOf_truncateBurst {s : State} (k : Nat) (w : tblWf s.cv.link = true) : ∃ b r,
    linkOf (truncateBurst s k) k = { linkOf s k with burst := {}, bursts := b, records := r } := by
  obtain ⟨tile, ev, b, r, h⟩ := truncateBurst_shape s k
  refine ⟨b, r, ?_⟩
  rw [h]
  exact tblGet_set_same w _ _ _

/-- The link after the cut: its burst ended if it was in RUN. -/
theorem linkOf_cutLink {s : State} (k : Nat) (w : tblWf s.cv.link = true) : ∃ y b r,
    linkOf (cutLink s k) k = { linkOf s k with burst := y, bursts := b, records := r }
    ∧ y.st = if (linkOf s k).st = 3 then 0 else (linkOf s k).burst.st := by
  have hcv : (setFlagIf (2 ≤ (linkOf s k).st) (2304 + k) s).cv = s.cv := setFlagIf_cv _ _ s
  have hlink := linkOf_of_cv hcv k
  unfold cutLink
  dsimp only
  split
  next h3 =>
    obtain ⟨b, r, h⟩ := linkOf_truncateBurst k (by rw [hcv]; exact w)
    exact ⟨{}, b, r, by rw [h, hlink], rfl⟩
  next h3 => exact ⟨(linkOf s k).burst, (linkOf s k).bursts, (linkOf s k).records, hlink, rfl⟩

/-- Whether a loss now cuts a slot that the link receives, by the time, the placement and the link. -/
def lossLive (s : State) (x : CvLink) (k : Nat) (p : Placed) : Bool :=
  x.st = 3 && !cvBurst x && bitAt x.dir 0 && plEn p && (x.t0.toNat : Int) ≤ dieCount s (linkDie k)

/-- The symbols of the slot on the air whose air time is still to end, with their slot. -/
def slotLeft (s : State) (p : Placed) (a : Int) : Int × Nat × List Nat :=
  (absFrame s (sfnAt s a), slotAt s (plMu p) a, (List.range 14).drop (((List.range 14).filter fun j =>
    slotStart s (plMu p) (sfnAt s a) (slotAt s (plMu p) a) + symbolOfs (plMu p) (slotAt s (plMu p) a) j ≤ a).length - 1 + 1))

/-- A loss enters RESET with the sides off and keeps the rest of the slot that it cuts. -/
theorem linkReset_eq {s : State} {k : Nat} (h : (linkOf s k).st ≠ 0) {a : Int}
    (ha : a = dieCount s (linkDie k) - cvOfs s k 0x04) {p : Placed} (hp : p = placedNow (carrierOf s (cvCarrier (linkOf s k))) a) :
    ∃ v, RadioMoves (cutLink s k) v ∧ v.cv = (cutLink s k).cv ∧ linkReset s k = setLink v k { linkOf (cutLink s k) k with
      st := 0, dir := 0, lanes := false, srefSeen := false, tx := [], listening := false, spent := false
      lostSlot := if lossLive s (linkOf s k) k p then some (slotLeft s p a) else (linkOf (cutLink s k) k).lostSlot } := by
  have hm := cutLink_moves s k
  have hcarrier (c : Nat) : carrierOf (cutLink s k) c = carrierOf s c := by
    rw [carrierOf, cutLink_fh]
    rfl
  unfold linkReset
  dsimp only
  rw [if_neg h]
  rw [show (if (linkOf s k).st = 3 then truncateBurst (setFlagIf (2 ≤ (linkOf s k).st) (2304 + k) s) k
    else setFlagIf (2 ≤ (linkOf s k).st) (2304 + k) s) = cutLink s k from rfl]
  simp only [hm.dieCount, hm.cvOfs, hm.sfnAt, hm.slotAt, hm.slotStart, hcarrier]
  rw [← ha, ← hp, show a + cvOfs s k 0x04 = dieCount s (linkDie k) by omega]
  generalize hv : (if (_ && _ : Bool) = true then arrive _ _ else cutLink s k) = v
  have hvm : RadioMoves (cutLink s k) v := by
    rw [← hv]
    exact .ite ((RadioMoves.symbolStatus _ _ _ _ _ _ _).trans (.arrive _ _)) (.refl _)
  have hcv : v.cv = (cutLink s k).cv := by
    rw [← hv]
    split
    · exact (arrive_cv _ _).trans (symbolStatus_cv _ _ _ _ _ _ _)
    · rfl
  refine ⟨v, hvm, hcv, ?_⟩
  rw [linkOf_of_cv hcv, hvm.absFrame, hm.absFrame]
  rfl

/-- The link after its loss, with what stays of the slot that was cut. -/
theorem linkOf_linkReset {s : State} {k : Nat} (w : tblWf s.cv.link = true) (h : (linkOf s k).st ≠ 0) {a : Int}
    (ha : a = dieCount s (linkDie k) - cvOfs s k 0x04) {p : Placed} (hp : p = placedNow (carrierOf s (cvCarrier (linkOf s k))) a) :
    ∃ y b r, y.st = (if (linkOf s k).st = 3 then 0 else (linkOf s k).burst.st) ∧ linkOf (linkReset s k) k = { linkOf s k with
      burst := y, bursts := b, records := r, st := 0, dir := 0, lanes := false, srefSeen := false, tx := [], listening := false
      spent := false
      lostSlot := if lossLive s (linkOf s k) k p then some (slotLeft s p a) else (linkOf s k).lostSlot } := by
  obtain ⟨v, -, hcv, hreset⟩ := linkReset_eq h ha hp
  obtain ⟨y, b, r, hcut, hy⟩ := linkOf_cutLink k w
  refine ⟨y, b, r, hy, ?_⟩
  rw [hreset, link_same _ _ _ (by rw [hcv]; exact (cutLink_wf k w).1), hcut]

theorem flag_linkReset {s : State} {k : Nat} (h : 2 ≤ (linkOf s k).st) : flag (linkReset s k) (2304 + k) = true := by
  obtain ⟨v, hm, -, hreset⟩ := linkReset_eq (s := s) (k := k) (by omega) rfl rfl
  rw [hreset]
  exact hm.2.1 _ (flag_cutLink h)

theorem lossLive_iff (s : State) (x : CvLink) (k : Nat) (p : Placed) : lossLive s x k p = true ↔
    x.st = 3 ∧ cvBurst x = false ∧ bitAt x.dir 0 = true ∧ plEn p = true ∧ (x.t0.toNat : Int) ≤ dieCount s (linkDie k) := by
  simp only [lossLive, Bool.and_eq_true, decide_eq_true_eq, Bool.not_eq_true', and_assoc]

/-! ### CV_START and the start -/

section
variable {s : State} {k : Nat} {y : Run} {g : Seg} {o : ListOp}

section
variable (h : atOp s 5 k 0x58 = some (y, g, o))
include h

theorem exec_cvStart_eq : exec (.cvStart k) s = .next (match startBad s k o.imm with
    | some c => failResult s y k o.idx c
    | none =>
      if !bitAt o.imm 0 then setPhase s y k .awaitLine
      else if (linkOf (setPhase s y k .stopping) k).st = 3 && cvBurst (linkOf (setPhase s y k .stopping) k) then
        stopLink (setPhase s y k .stopping) k
      else endStop (setPhase s y k .stopping) k) :=
  congrArg Host.Outcome.next (onOp_eq h _)

theorem exec_cvStart_bad {c : Nat} (hc : startBad s k o.imm = some c) :
    exec (.cvStart k) s = .next (failOp s y k 6 c o.idx) := by
  rw [exec_cvStart_eq h, hc]
  rfl

theorem exec_cvStart_waits (hc : startBad s k o.imm = none) (hb : bitAt o.imm 0 = false) :
    exec (.cvStart k) s = .next (setPhase s y k .awaitLine) := by
  rw [exec_cvStart_eq h, hc]
  exact congrArg Host.Outcome.next (if_pos (by simp [hb]))

theorem exec_cvStart_stops (hc : startBad s k o.imm = none) (hb : bitAt o.imm 0 = true) {t : State}
    (ht : t = setPhase s y k .stopping) :
    ((linkOf t k).st = 3 → cvBurst (linkOf t k) = true → exec (.cvStart k) s = .next (stopLink t k))
    ∧ (((linkOf t k).st ≠ 3 ∨ cvBurst (linkOf t k) = false) → exec (.cvStart k) s = .next (endStop t k)) := by
  subst ht
  rw [exec_cvStart_eq h, hc]
  have hstop : ¬ (!bitAt o.imm 0) = true := by simp [hb]
  exact ⟨fun h3 hv => congrArg Host.Outcome.next ((if_neg hstop).trans (if_pos (by simp [h3, hv]))),
    fun hn => congrArg Host.Outcome.next ((if_neg hstop).trans (if_neg (by rcases hn with hn | hn <;> simp [hn])))⟩

end

/-- The state with the firings of the link's line taken. -/
def firingTaken (s : State) (k : Nat) : State :=
  { s with ev := { s.ev with fired := s.ev.fired.filter fun e => e.1 ≠ k } }

/-- The link of a start in RUN, and the write of its start time and reference to the operation's buffer. -/
def writeStart (s : State) (k : Nat) (y : Run) (o : ListOp) (t0 : Int) : State × Res Unit :=
  writeBytes (setLink (firingTaken s k) k { linkOf s k with
      st := 3, t0 := BitVec.ofInt 64 t0, dir := bits o.imm 3 2, burst := {}, fn := y.fn })
    (agentOf y) (bits (xw o 1) 47 0) (leBytes 8 (trunc 64 t0) ++ leBytes 8 (linkOf s k).sref.toNat)

theorem exec_converterStart_idle (h : (∀ e, e ∈ s.ev.fired → e.1 ≠ k) ∨ inOp s 5 k = none
    ∨ ∃ y g o, inOp s 5 k = some (y, g, o) ∧ g.phase ≠ .awaitLine) :
    exec (.converterStart k) s = .next (firingTaken s k) := by
  change execConverterStart k s = _
  rw [execConverterStart]
  rcases h with h | h | ⟨y, g, o, h, hg⟩
  · rw [List.find?_eq_none.2 fun e he => by simp [h e he]]
    rfl
  · rw [h]
    cases s.ev.fired.find? fun e => e.1 = k <;> rfl
  · rw [h]
    cases s.ev.fired.find? fun e => e.1 = k with
    | none => rfl
    | some e => exact congrArg Host.Outcome.next (if_pos hg)

section
variable {e : Nat × Int} (hf : s.ev.fired.find? (fun e => e.1 = k) = some e) (h : inOp s 5 k = some (y, g, o))
  (hg : g.phase = .awaitLine)
include hf h hg

theorem exec_converterStart_missed (hst : (linkOf s k).st ≠ 2) : exec (.converterStart k) s = .next
    (advance (setFlag (modRun (firingTaken s k) y.id fun z => { z with detail := z.detail ||| 1 }) (2316 + k)) y k) := by
  change execConverterStart k s = _
  rw [execConverterStart, hf, h]
  exact congrArg Host.Outcome.next ((if_neg (not_not.2 hg)).trans (if_pos hst))

theorem exec_converterStart_starts (hst : (linkOf s k).st = 2) :
    (∀ v, writeStart s k y o (startTime (linkOf s k) e.2) = (v, .ok ()) → exec (.converterStart k) s = .next (advance v y k))
    ∧ ∀ v f, writeStart s k y o (startTime (linkOf s k) e.2) = (v, .fail f) →
      exec (.converterStart k) s = .next (failWith v y k o.idx f) := by
  have hrun : exec (.converterStart k) s = .next (match writeStart s k y o (startTime (linkOf s k) e.2) with
      | (v, .ok ()) => advance v y k
      | (v, .fail f) => failWith v y k o.idx f) := by
    change execConverterStart k s = _
    rw [execConverterStart, hf, h]
    exact congrArg Host.Outcome.next ((if_neg (not_not.2 hg)).trans (if_neg (not_not.2 hst)))
  rw [hrun]
  exact ⟨fun v hw => by rw [hw], fun v f hw => by rw [hw]⟩

end

end

/-! ### Symbols -/

section
variable {s : State} {k sfn slot sym : Nat} {l : List (List (Int × Int))}

theorem exec_nrSymbol_idle (h : (linkOf s k).st ≠ 3 ∨ cvBurst (linkOf s k) = true ∨ 14 ≤ sym) :
    exec (.nrSymbol k sfn slot sym l) s = .next s :=
  congrArg Host.Outcome.next (if_neg (by
    rcases h with h | h | h
    · simp [h]
    · simp [h]
    · simp [Nat.not_lt_of_le h]))

theorem exec_txSymbol_idle (h : (linkOf s k).st ≠ 3 ∨ cvBurst (linkOf s k) = true ∨ 14 ≤ sym ∨ bitAt (linkOf s k).dir 1 = false) :
    exec (.txSymbol k sfn slot sym) s = .next s :=
  congrArg Host.Outcome.next (if_neg (by
    rcases h with h | h | h | h
    · simp [h]
    · simp [h]
    · simp [Nat.not_lt_of_le h]
    · simp [h]))

section
variable (h3 : (linkOf s k).st = 3) (hv : cvBurst (linkOf s k) = false) (hs : sym < 14)
include h3 hv hs

theorem exec_nrSymbol_eq : exec (.nrSymbol k sfn slot sym l) s = .next (symbolBoundary
    (if bitAt (linkOf s k).dir 0 && plEn (slotPl s (cvCarrier (linkOf s k)) sfn slot)
        && symWhole (linkOf s k) (slotPl s (cvCarrier (linkOf s k)) sfn slot) slot sym l
      then receiveSymbol s k sfn slot sym l else s) k) :=
  congrArg Host.Outcome.next (if_pos (by simp [h3, hv, hs]))

theorem exec_txSymbol_sends (hd : bitAt (linkOf s k).dir 1 = true) :
    exec (.txSymbol k sfn slot sym) s = .next (symbolBoundary (sendSymbol s k sfn slot sym) k) :=
  congrArg Host.Outcome.next (if_pos (by simp [h3, hv, hs, hd]))

end

/-- A received symbol is the last one, and an erased one is counted with its flag. -/
theorem receiveSymbol_link (w : tblWf s.cv.link = true) {x : CvLink} (hx : x = linkOf s k) {p : Placed}
    (hp : p = slotPl s (cvCarrier x) sfn slot) {clip n : Nat} (hclip : clip = reg s (linkReg k 0x20))
    (hn : n = ((l.take (plStreams p)).map fun m => (m.take (symSamples x p slot sym)).countP (clips (bits clip 15 0))).sum) :
    (∀ j, j ≠ k → linkOf (receiveSymbol s k sfn slot sym l) j = linkOf s j)
    ∧ (linkOf (receiveSymbol s k sfn slot sym l) k).lastSym = some (sfn, slot, sym)
    ∧ (linkOf (receiveSymbol s k sfn slot sym l) k).erased = (if bits clip 31 16 < n then satInc 65535 x.erased else x.erased)
    ∧ (bits clip 31 16 < n → flag (receiveSymbol s k sfn slot sym l) (2336 + k) = true) := by
  subst hx
  subst hp
  subst hclip
  unfold receiveSymbol
  dsimp only
  generalize ht : arrive (symbolStatus _ _ _ _ _ _ _) (384 + k) = t
  have hcv : t.cv = s.cv := by
    rw [← ht, arrive_cv, symbolStatus_cv, foldl_cv fun u a => (ingress_cf _ _ _ _).1, (openSlot_cf _ _ _ _).1]
  simp only [List.map_map, Function.comp_def, ← hn]
  generalize hu : setFlagIf _ (2336 + k) t = u
  have hucv : u.cv = s.cv := by rw [← hu, setFlagIf_cv, hcv]
  have hwf : tblWf u.cv.link = true := by rw [hucv]; exact w
  rw [linkOf_of_cv hucv, link_same _ _ _ hwf]
  refine ⟨fun j hj => ?_, rfl, ?_, fun he => ?_⟩
  · rw [link_other _ _ _ _ hwf hj, linkOf_of_cv hucv]
  · rfl
  · change flag u (2336 + k) = true
    rw [← hu, setFlagIf, if_pos (decide_eq_true he)]
    exact flag_setFlag_same t _

section
variable {p : Placed} (hp : p = slotPl s (cvCarrier (linkOf s k)) sfn slot) {t u : State}
include hp

theorem sendSymbol_late (hr : txReady s k (linkOf s k) p sfn slot sym = (t, false)) : sendSymbol s k sfn slot sym =
    setFlag (setLink t k { linkOf t k with
      tx := List.replicate (plStreams p * (nrNfft (linkOf s k) p + cpSamples (linkOf s k) (plMu p) slot sym)) (0, 0)
      underrun := satInc 65535 (linkOf s k).underrun }) (2328 + k) := by
  subst hp
  rw [sendSymbol]
  dsimp only
  rw [hr]
  rfl

theorem sendSymbol_ready {tx : List (Int × Int)} (hr : txReady s k (linkOf s k) p sfn slot sym = (t, true))
    (hs : txSamples t k (linkOf s k) p slot sym = (u, tx)) :
    sendSymbol s k sfn slot sym = setLink u k { linkOf u k with tx := tx } := by
  subst hp
  rw [sendSymbol]
  dsimp only
  rw [hr]
  dsimp only
  rw [if_pos rfl, hs]

/-! ### The end of a lost symbol's air time -/

theorem exec_airTimeEnd_marks {rest : List Nat} (hl : (linkOf s k).lostSlot = some (absFrame s sfn, slot, rest)) (hm : sym ∈ rest)
    (he : slotStart s (plMu p) sfn slot + symbolOfs (plMu p) slot (sym + 1) ≤ dieCount s (linkDie k)) :
    exec (.airTimeEnd k sfn slot sym) s = .next
      (setLink (arrive (symbolStatus s (cvCarrier (linkOf s k)) p sfn slot sym 0) (384 + k)) k { linkOf s k with
        lostSlot := if rest.erase sym = [] then none else some (absFrame s sfn, slot, rest.erase sym) }) := by
  subst hp
  change execAirTimeEnd k sfn slot sym s = _
  rw [execAirTimeEnd]
  dsimp only
  rw [hl]
  refine congrArg Host.Outcome.next ((if_pos ?_).trans ?_)
  · simp only [Bool.and_eq_true, decide_eq_true_eq, List.contains_iff_mem, true_and]
    exact ⟨hm, he⟩
  · rw [linkOf_of_cv ((arrive_cv _ _).trans (symbolStatus_cv _ _ _ _ _ _ _))]
    simp only [List.isEmpty_iff]

theorem exec_airTimeEnd_idle (h : ¬ slotStart s (plMu p) sfn slot + symbolOfs (plMu p) slot (sym + 1) ≤ dieCount s (linkDie k)
    ∨ ∀ l, (linkOf s k).lostSlot = some (absFrame s sfn, slot, l) → sym ∉ l) :
    exec (.airTimeEnd k sfn slot sym) s = .next s := by
  subst hp
  change execAirTimeEnd k sfn slot sym s = _
  rw [execAirTimeEnd]
  dsimp only
  cases hl : (linkOf s k).lostSlot with
  | none => rfl
  | some e =>
    refine congrArg Host.Outcome.next (if_neg ?_)
    obtain ⟨f, n, syms⟩ := e
    simp only [Bool.and_eq_true, decide_eq_true_eq, List.contains_iff_mem]
    rintro ⟨⟨⟨rfl, rfl⟩, hm⟩, he⟩
    rcases h with h | h
    · exact h he
    · exact h syms hl hm

end

end

/-- Settles O59: each row by the link's state, a loss by the slot that it cuts, a start by its check and its firing. -/
theorem converterLinksRun : Obligations.ConverterLinksRun := by
  unfold Obligations.ConverterLinksRun
  intro s k w x others
  refine ⟨fun hk hst hr => ⟨_, exec_linkSync_starts hk hst hr, fun j hj => link_other _ _ _ _ w hj, link_same _ _ _ w⟩,
    exec_linkSync_idle, fun h => congrArg Host.Outcome.next (if_neg h), fun h => congrArg Host.Outcome.next (if_pos h),
    ?still, fun hst => ⟨(laneLock_syncs hst w).1, (laneLock_syncs hst w).2, sysrefEdge_syncs hst w⟩,
    exec_sysrefEdge_later, ?loss, fun h => congrArg Host.Outcome.next (onOp_none h _),
    fun y g o h => ⟨fun c => exec_cvStart_bad h, exec_cvStart_waits h, fun hc hb => exec_cvStart_stops h hc hb rfl⟩,
    fun e y g o hf h hg => ⟨exec_converterStart_missed hf h hg, ?start⟩, exec_converterStart_idle, ?stopped, ?symbols,
    fun sfn slot sym => ⟨fun l hl hm he => exec_airTimeEnd_marks rfl hl hm he, exec_airTimeEnd_idle rfl⟩⟩
  case still =>
    rintro (hk | hst)
    · exact congrArg Host.Outcome.next (if_neg (Nat.not_lt_of_le hk))
    · exact congrArg Host.Outcome.next ((ite_congr rfl (fun _ => if_pos hst) fun _ => rfl).trans (ite_self s))
  case loss =>
    intro hk hst
    refine ⟨_, congrArg Host.Outcome.next (if_pos hk), (linkReset_only k w).1.2, ?_⟩
    obtain ⟨y, b, r, hy, hlink⟩ := linkOf_linkReset w hst rfl rfl
    rw [hlink]
    refine ⟨rfl, rfl, rfl, rfl, rfl, hy, flag_linkReset, ?_⟩
    intro a p slot sym live
    have hlive : lossLive s x k p = true ↔ live := lossLive_iff s x k p
    exact ⟨fun h => if_pos (hlive.2 h), fun h => if_neg fun hl => h (hlive.1 hl)⟩
  case start =>
    intro hst t0 u v r hw
    obtain ⟨hok, hfail⟩ := exec_converterStart_starts hf h hg hst
    refine ⟨fun hr => hok v ?_, fun f hr => hfail v f ?_⟩
    · rw [← hr]
      exact hw
    · rw [← hr]
      exact hw
  case stopped =>
    intro sfn slot sym l h
    refine ⟨exec_nrSymbol_idle h, exec_txSymbol_idle ?_⟩
    rcases h with h | h | h
    · exact .inl h
    · exact .inr (.inl h)
    · exact .inr (.inr (.inl h))
  case symbols =>
    intro sfn slot sym l h3 hv hs p
    have hnr := exec_nrSymbol_eq (l := l) (sfn := sfn) (slot := slot) h3 hv hs
    refine ⟨fun h => ?_, fun hd he hwhole => ?_, fun hd => exec_txSymbol_idle (.inr (.inr (.inr hd))), fun hd t hr => ?_,
      fun hd t u tx hr hsamples => ?_⟩
    · refine hnr.trans (congrArg (fun u => Host.Outcome.next (symbolBoundary u k)) (if_neg ?_))
      rcases h with h | h | h
      · simp [show bitAt (linkOf s k).dir 0 = false from h]
      · simp [show plEn (slotPl s (cvCarrier (linkOf s k)) sfn slot) = false from h]
      · simp [show symWhole (linkOf s k) (slotPl s (cvCarrier (linkOf s k)) sfn slot) slot sym l = false from h]
    · have hrx : (bitAt (linkOf s k).dir 0 && plEn (slotPl s (cvCarrier (linkOf s k)) sfn slot)
          && symWhole (linkOf s k) (slotPl s (cvCarrier (linkOf s k)) sfn slot) slot sym l) = true := by
        rw [show bitAt (linkOf s k).dir 0 = true from hd, show plEn (slotPl s (cvCarrier (linkOf s k)) sfn slot) = true from he,
          show symWhole (linkOf s k) (slotPl s (cvCarrier (linkOf s k)) sfn slot) slot sym l = true from hwhole]
        rfl
      exact ⟨_, hnr.trans (congrArg (fun u => Host.Outcome.next (symbolBoundary u k)) (if_pos hrx)),
        receiveSymbol_link w rfl rfl rfl rfl⟩
    · rw [exec_txSymbol_sends h3 hv hs hd, sendSymbol_late rfl hr]
    · rw [exec_txSymbol_sends h3 hv hs hd, sendSymbol_ready rfl hr hsamples]

end Sys2Proof.Proofs
end

section
/-! PROOFS. The converters' AGC, bursts and profiles (R376 to R380, R382, R383). -/
namespace Sys2Proof.Proofs
open Sys2Proof.Machine Sys2Proof.Laws

/-! ### CV_AGC -/

section
variable {s t : State} {k : Nat} {y : Run} {g : Seg} {o : ListOp}

theorem walkAgc_late {e : Nat × Nat × Nat} (rest : List (Nat × Nat × Nat)) (h : (e.1 : Int) < dieCount s (linkDie k)) :
    walkAgc s y k (e :: rest) = walkAgc (applyEntry s y k e.2.1 e.2.2 true) y k rest := if_pos h

theorem walkAgc_waits {e : Nat × Nat × Nat} (rest : List (Nat × Nat × Nat)) (h : dieCount s (linkDie k) ≤ (e.1 : Int)) :
    walkAgc s y k (e :: rest) = setPhase s y k (.agc (e :: rest)) := if_neg (not_lt_of_ge h)

section
variable (h : atOp s 5 k 0x59 = some (y, g, o))
include h

theorem exec_cvAgc_count (hn : bits (xw o 1) 56 48 = 0 ∨ 256 < bits (xw o 1) 56 48) :
    exec (.cvAgc k) s = .next (failOp s y k 6 0x50 o.idx) :=
  congrArg Host.Outcome.next ((onOp_eq h _).trans (if_pos (by rcases hn with hn | hn <;> simp [hn])))

section
variable (h1 : 1 ≤ bits (xw o 1) 56 48) (h256 : bits (xw o 1) 56 48 ≤ 256)
include h1 h256

theorem exec_cvAgc_reads :
    (∀ b, readUse s (agentOf y) (bits (xw o 1) 47 0) (16 * bits (xw o 1) 56 48) = (t, .ok b) →
      exec (.cvAgc k) s = .next (walkAgc t y k (agcEntries b (bits (xw o 1) 56 48))))
    ∧ ∀ f, readUse s (agentOf y) (bits (xw o 1) 47 0) (16 * bits (xw o 1) 56 48) = (t, .fail f) →
      exec (.cvAgc k) s = .next (failWith t y k o.idx f) := by
  have hcount : ¬ (Decidable.decide (bits (xw o 1) 56 48 = 0) || Decidable.decide (256 < bits (xw o 1) 56 48)) = true := by
    simp [Nat.not_lt_of_le h256, Nat.pos_iff_ne_zero.1 h1]
  have hrun : exec (.cvAgc k) s = .next (match readUse s (agentOf y) (bits (xw o 1) 47 0) (16 * bits (xw o 1) 56 48) with
      | (t, .ok b) => walkAgc t y k (agcEntries b (bits (xw o 1) 56 48))
      | (t, .fail f) => failWith t y k o.idx f) :=
    congrArg Host.Outcome.next ((onOp_eq h _).trans (if_neg hcount))
  rw [hrun]
  exact ⟨fun b hb => by rw [hb], fun f hf => by rw [hf]⟩

end

end

theorem exec_agcEntry_idle (h : inOp s 5 k = none
    ∨ ∃ y g o, inOp s 5 k = some (y, g, o) ∧ ∀ e l, g.phase ≠ .agc (e :: l)) : exec (.agcEntry k) s = .next s := by
  change execAgcEntry k s = _
  rw [execAgcEntry]
  rcases h with h | ⟨y, g, o, h, hg⟩
  · rw [h]
    rfl
  · rw [h]
    dsimp only
    cases hp : g.phase
    case agc l =>
      cases l with
      | nil => rfl
      | cons e l => exact absurd hp (hg e l)
    all_goals rfl

section
variable {e : Nat × Nat × Nat} {rest : List (Nat × Nat × Nat)} (h : inOp s 5 k = some (y, g, o))
  (hg : g.phase = .agc (e :: rest))
include h hg

theorem exec_agcEntry_eq : exec (.agcEntry k) s = .next (if (e.1 : Int) ≤ dieCount s (linkDie k)
    then walkAgc (applyEntry s y k e.2.1 e.2.2 false) y k rest else s) := by
  change execAgcEntry k s = _
  rw [execAgcEntry, h]
  dsimp only
  rw [hg]
  rfl

end

end

/-! ### Acquisition -/

section
variable {s : State} {k : Nat} {power : Int}

theorem settling_iff (s : State) (k : Nat) (x : CvLink) : settling s k x = true ↔ ∃ q, x.burst.quiet = some q
    ∧ dieCount s (linkDie k) - (profNfft (cvProfile s k).words / 4 * cvTs x : Nat) < q := by
  rw [settling]
  cases x.burst.quiet with
  | none => simp
  | some q => simp

/-- A window of the acquisition that the link does not use. -/
def windowUnused (s : State) (k : Nat) (power : Int) : Bool :=
  !burstRuns (linkOf s k) || (linkOf s k).burst.frozen || bits (linkOf s k).agc.toNat 27 24 ≤ (linkOf s k).burst.moves
    || settling s k (linkOf s k)
    || 2 * absInt (power + 16 * bits (linkOf s k).agc.toNat 11 4) ≤ 8 * bits (linkOf s k).agc.toNat 3 0

theorem windowUnused_iff (s : State) (k : Nat) (power : Int) : windowUnused s k power = true ↔
    burstRuns (linkOf s k) = false ∨ (linkOf s k).burst.frozen = true
      ∨ bits (linkOf s k).agc.toNat 27 24 ≤ (linkOf s k).burst.moves ∨ settling s k (linkOf s k) = true
      ∨ 2 * absInt (power + 16 * bits (linkOf s k).agc.toNat 11 4) ≤ 8 * (bits (linkOf s k).agc.toNat 3 0 : Int) := by
  simp only [windowUnused, Bool.or_eq_true, Bool.not_eq_true', decide_eq_true_eq, or_assoc]

theorem exec_stsWindow_unused (h : windowUnused s k power = true) : exec (.stsWindow k power) s = .next s :=
  congrArg Host.Outcome.next (if_pos h)

/-- A window that is used moves the code of the burst's channel. -/
theorem exec_stsWindow_used (h : windowUnused s k power = false) {x : CvLink} (hx : x = linkOf s k) {ch : Nat}
    (hch : ch = agcChannel s k (burstStream s k)) {b : Burst} (hb : b = { x.burst with
      moves := x.burst.moves + 1, quiet := some (dieCount s (linkDie k) + (bits x.agc.toNat 23 16 * cvTs x : Nat)) }) :
    exec (.stsWindow k power) s = .next (driveCode (takeChoice (setLink s k { x with burst := b })) k ch
      (clampInt 0 15 (((tblGet 0 x.codes ch : Nat) : Int)
        + acqSteps s (power + 16 * bits x.agc.toNat 11 4) (8 * bits x.agc.toNat 3 0))).toNat) := by
  subst hb
  subst hch
  subst hx
  exact congrArg Host.Outcome.next (if_neg (Bool.eq_false_iff.1 h))

theorem clampInt_nonneg {hi : Int} (h : 0 ≤ hi) (x : Int) : 0 ≤ clampInt 0 hi x := by
  unfold clampInt
  split
  · exact le_refl _
  · split
    · exact h
    · omega

theorem acqSteps_exact {dev step : Int} (h0 : step ≠ 0) (h : (2 * dev + step).fmod (2 * step) ≠ 0) :
    acqSteps s dev step = (2 * dev + step).fdiv (2 * step) :=
  (if_neg h0).trans (if_neg (by simp [h]))

/-- Halfway between two steps either is taken. -/
theorem acqSteps_halfway {dev step : Int} (h0 : step ≠ 0) (h : (2 * dev + step).fmod (2 * step) = 0) :
    acqSteps s dev step = (2 * dev + step).fdiv (2 * step) ∨ acqSteps s dev step = (2 * dev + step).fdiv (2 * step) - 1 := by
  rw [acqSteps, if_neg h0]
  dsimp only
  rw [h]
  cases Config.raceWinner s.choice with
  | true => exact .inr rfl
  | false => exact .inl rfl

end

/-! ### Start detection -/

section
variable {s : State} {k : Nat} {power : Int} {syms : Nat}

/-- The link with another overlap counted. -/
def overlapped (x : CvLink) : CvLink := { x with overlap := satInc 255 x.overlap }

theorem exec_startDetection_idle (h : burstRuns (linkOf s k) = false ∨ listens s k = false) :
    exec (.startDetection k power syms) s = .next s :=
  congrArg Host.Outcome.next (if_pos (by rcases h with h | h <;> simp [h]))

section
variable (hr : burstRuns (linkOf s k) = true) (hl : listens s k = true)
include hr hl

/-- A detection that counts, by the state of the burst. -/
theorem exec_startDetection_runs : exec (.startDetection k power syms) s = .next (match (linkOf s k).burst.st with
    | 0 => if (cvProfile s k).valid then newBurst s k power else s
    | 1 => if (linkOf s k).burst.power + 16 * fld s (linkReg k 0xC0) 7 2 ≤ power
        then newBurst (setLink s k (overlapped (linkOf s k))) k power else s
    | _ => if (linkOf s k).burst.power + 16 * fld s (linkReg k 0xC0) 7 2 ≤ power
        then strongerStart s k power (min syms (profData (linkOf s k).burst.prof))
        else setLink s k (overlapped (linkOf s k))) :=
  congrArg Host.Outcome.next (if_neg (by simp [hr, hl]))

theorem exec_startDetection_first (hst : (linkOf s k).burst.st = 0) : exec (.startDetection k power syms) s =
    .next (if (cvProfile s k).valid then newBurst s k power else s) := by
  rw [exec_startDetection_runs hr hl, hst] <;> rfl

theorem exec_startDetection_acquiring (hst : (linkOf s k).burst.st = 1) : exec (.startDetection k power syms) s =
    .next (if (linkOf s k).burst.power + 16 * fld s (linkReg k 0xC0) 7 2 ≤ power
      then newBurst (setLink s k (overlapped (linkOf s k))) k power else s) := by
  rw [exec_startDetection_runs hr hl, hst] <;> rfl

theorem exec_startDetection_capturing (hst : 2 ≤ (linkOf s k).burst.st) : exec (.startDetection k power syms) s =
    .next (if (linkOf s k).burst.power + 16 * fld s (linkReg k 0xC0) 7 2 ≤ power
      then strongerStart s k power (min syms (profData (linkOf s k).burst.prof))
      else setLink s k (overlapped (linkOf s k))) := by
  obtain ⟨n, hn⟩ := Nat.exists_eq_add_of_le hst
  rw [exec_startDetection_runs hr hl, hn, Nat.add_comm] <;> rfl

end

theorem newBurst_idle (h : (linkOf s k).burst.st = 0) : newBurst s k power = setLink s k { linkOf s k with burst :=
    { st := 1, power := power, prof := (cvProfile s k).words, moves := (linkOf s k).burst.moves
      quiet := (linkOf s k).burst.quiet } } := by
  rw [newBurst]
  dsimp only
  rw [h]
  rfl

theorem newBurst_again (h : (linkOf s k).burst.st ≠ 0) : newBurst s k power = setLink s k { linkOf s k with burst :=
    { st := 1, power := power, prof := (cvProfile s k).words } } := by
  rw [newBurst]
  dsimp only
  rw [if_neg h, if_neg h]

/-! A stronger signal during a capture, by POLICY. -/

theorem strongerStart_keeps (h : fld s (linkReg k 0xC0) 1 0 = 0 ∨ fld s (linkReg k 0xC0) 1 0 = 3) (n : Nat) :
    strongerStart s k power n = setFlag (setLink s k (overlapped (linkOf s k))) (2348 + k) := by
  rw [strongerStart]
  dsimp only
  rcases h with h | h <;> rw [h] <;> rfl

theorem strongerStart_two (h : fld s (linkReg k 0xC0) 1 0 = 2) (n : Nat) : strongerStart s k power n =
    setLink (setFlag (countOverlap s k) (2348 + k)) k { linkOf (setFlag (countOverlap s k) (2348 + k)) k with
      burst := { (linkOf (setFlag (countOverlap s k) (2348 + k)) k).burst with stronger := true } } := by
  rw [strongerStart]
  dsimp only
  rw [h] <;> rfl

/-- A burst that is written as aborted, with the flag. -/
def abortBurst (s : State) (k n : Nat) (er cl : List Nat) : State :=
  let u := writeBurst s k 1 n er cl
  setFlag (setLink u k { linkOf u k with aborted := satInc 255 (linkOf u k).aborted }) (2342 + k)

theorem strongerStart_one (h : fld s (linkReg k 0xC0) 1 0 = 1) (n : Nat) : strongerStart s k power n =
    newBurst (abortBurst s k n ((List.range n).filter fun i => Config.burstClip k (linkOf s k).records i = 2)
      ((List.range n).filter fun i => Config.burstClip k (linkOf s k).records i = 1)) k power := by
  rw [strongerStart]
  dsimp only
  rw [h] <;> rfl

section
variable (w : tblWf s.cv.link = true)
include w

/-- POLICY 2 marks the burst that is captured. -/
theorem strongerStart_marks (h : fld s (linkReg k 0xC0) 1 0 = 2) (n : Nat) : ∃ t, strongerStart s k power n = t
    ∧ (∀ j, j ≠ k → linkOf t j = linkOf s j) ∧ flag t (2348 + k) = true
    ∧ linkOf t k = { overlapped (linkOf s k) with burst := { (linkOf s k).burst with stronger := true } } := by
  have hcv := setFlag_cv (countOverlap s k) (2348 + k)
  have hwf : tblWf (setFlag (countOverlap s k) (2348 + k)).cv.link = true := by
    rw [hcv]
    exact link_wf _ _ _ w
  have hlink : linkOf (setFlag (countOverlap s k) (2348 + k)) k = overlapped (linkOf s k) :=
    (linkOf_of_cv hcv k).trans (link_same _ _ _ w)
  rw [strongerStart_two h]
  refine ⟨_, rfl, fun j hj => ?_, flag_setFlag_same _ _, ?_⟩
  · rw [link_other _ _ _ _ hwf hj, linkOf_of_cv hcv]
    exact link_other _ _ _ _ w hj
  · rw [link_same _ _ _ hwf, hlink]
    rfl

/-- POLICY 1 writes the burst that is captured as aborted, and acquires the stronger one. -/
theorem strongerStart_aborts (h : fld s (linkReg k 0xC0) 1 0 = 1) (n : Nat) : ∃ t, strongerStart s k power n = t
    ∧ (∀ j, j ≠ k → linkOf t j = linkOf s j) ∧ flag t (2342 + k) = true
    ∧ (linkOf t k).aborted = satInc 255 (linkOf s k).aborted ∧ (linkOf t k).records = (linkOf s k).records + 1
    ∧ (linkOf t k).burst = { st := 1, power := power, prof := (cvProfile t k).words } := by
  rw [strongerStart_one h]
  generalize (List.range n).filter (fun i => Config.burstClip k (linkOf s k).records i = 2) = er
  generalize (List.range n).filter (fun i => Config.burstClip k (linkOf s k).records i = 1) = cl
  unfold abortBurst
  obtain ⟨hwf, hothers, hburst, -⟩ := writeBurst_link s k 1 n er cl w
  obtain ⟨-, hrec, hab, -⟩ := writeBurst_more s k 1 n er cl w
  generalize writeBurst s k 1 n er cl = u at hwf hothers hburst hrec hab ⊢
  generalize hv : setFlag (setLink u k { linkOf u k with aborted := satInc 255 (linkOf u k).aborted }) (2342 + k) = v
  have hcv : v.cv = (setLink u k { linkOf u k with aborted := satInc 255 (linkOf u k).aborted }).cv := by
    rw [← hv, setFlag_cv]
  have hlink : linkOf v k = { linkOf u k with aborted := satInc 255 (linkOf u k).aborted } := by
    rw [linkOf_of_cv hcv, link_same _ _ _ hwf]
  have hvwf : tblWf v.cv.link = true := by
    rw [hcv]
    exact link_wf _ _ _ hwf
  have hidle : (linkOf v k).burst = {} := by rw [hlink, hburst]
  rw [newBurst_idle (by rw [hidle])]
  refine ⟨_, rfl, fun j hj => ?_, ?_, ?_, ?_, ?_⟩
  · rw [link_other _ _ _ _ hvwf hj, linkOf_of_cv hcv, link_other _ _ _ _ hwf hj, hothers j hj]
  · change flag v (2342 + k) = true
    rw [← hv]
    exact flag_setFlag_same _ _
  · rw [link_same _ _ _ hvwf, hlink, hab]
  · rw [link_same _ _ _ hvwf, hlink, hrec]
  · rw [link_same _ _ _ hvwf, hidle]
    rfl

end

end

/-! ### Detection and the end of a burst -/

section
variable {s : State} {k : Nat}

theorem exec_burstDetected_idle (h : burstRuns (linkOf s k) = false ∨ (linkOf s k).burst.st ≠ 1) (power cfo : Int) :
    exec (.burstDetected k power cfo) s = .next s :=
  congrArg Host.Outcome.next (if_neg (by rcases h with h | h <;> simp [h]))

theorem exec_burstDetected_freezes (hr : burstRuns (linkOf s k) = true) (hst : (linkOf s k).burst.st = 1) (power cfo : Int) :
    exec (.burstDetected k power cfo) s = .next (setLink s k { linkOf s k with burst := { (linkOf s k).burst with
      st := 2, frozen := true, power := power, cfo := cfo, time := BitVec.ofInt 64 (dieCount s (linkDie k))
      code := tblGet 0 (linkOf s k).codes (agcChannel s k (burstStream s k)) } }) :=
  congrArg Host.Outcome.next (if_pos (by simp [hr, hst]))

variable {er cl : List Nat} {syms : Nat}

theorem exec_burstEnd_idle (h : burstRuns (linkOf s k) = false ∨ (linkOf s k).burst.st ≠ 2) :
    exec (.burstEnd k er cl syms) s = .next s :=
  congrArg Host.Outcome.next (if_neg (by rcases h with h | h <;> simp [h]))

theorem exec_burstEnd_writes (hr : burstRuns (linkOf s k) = true) (hst : (linkOf s k).burst.st = 2) :
    exec (.burstEnd k er cl syms) s = .next (writeBurst s k 0 (min syms (profData (linkOf s k).burst.prof)) er cl) :=
  congrArg Host.Outcome.next (if_pos (by simp [hr, hst]))

end

/-! ### Profiles -/

/-- A profile that does not load is left empty, with the flag. -/
def profFailed (s : State) (p : Nat) : State :=
  setFlag { takeChoice s with cv := { s.cv with
    prof := tblSet {} s.cv.prof p {}, lastValid := false, cause := Config.freeNat s.choice % 16 } } 2354

theorem profFailed_spec (s : State) (p : Nat) : flag (profFailed s p) 2354 = true ∧ (profFailed s p).cv.lastValid = false
    ∧ (profFailed s p).cv.prof = tblSet {} s.cv.prof p {} ∧ (profFailed s p).cv.link = s.cv.link := by
  refine ⟨flag_setFlag_same _ _, ?_⟩
  rw [profFailed, setFlag_cv]
  exact ⟨rfl, rfl, rfl⟩

section
variable {s t : State} {p : Nat}

theorem exec_cvProfLoad_idle (h : 4 ≤ p ∨ served s = false) : exec (.cvProfLoad p) s = .next s :=
  congrArg Host.Outcome.next (if_pos (by rcases h with h | h <;> simp [h]))

section
variable (hp : p < 4) (hs : served s = true) {w : List W32}
  (hw : w = (List.range 5).map fun i => BitVec.ofNat 32 (reg s (0x101000 + 0x20 * p + 4 * i)))
include hp hs hw

theorem exec_cvProfLoad_bad (h : profOk w = false) : exec (.cvProfLoad p) s = .next (profFailed s p) := by
  subst hw
  exact congrArg Host.Outcome.next ((if_neg (by simp [Nat.not_le_of_lt hp, hs])).trans (if_pos (by simp [h])))

/-- A good profile by the read of its sequence. -/
theorem exec_cvProfLoad_reads (h : profOk w = true) :
    (∀ f, readUse s { ctx := 0, cls := 7 } (reg s (0x101000 + 0x20 * p + 8) + reg s (0x101000 + 0x20 * p + 12) % 65536 * 2 ^ 32)
        (8 * profNumSc w) = (t, .fail f) → exec (.cvProfLoad p) s = .next (profFailed t p))
    ∧ ∀ d, readUse s { ctx := 0, cls := 7 } (reg s (0x101000 + 0x20 * p + 8) + reg s (0x101000 + 0x20 * p + 12) % 65536 * 2 ^ 32)
        (8 * profNumSc w) = (t, .ok d) → exec (.cvProfLoad p) s = .next { t with cv := { t.cv with
          prof := tblSet {} t.cv.prof p { valid := true, words := w, seq := d }, lastValid := true, cause := 0 } } := by
  have hrun : exec (.cvProfLoad p) s = .next (match readUse s { ctx := 0, cls := 7 }
        (reg s (0x101000 + 0x20 * p + 8) + reg s (0x101000 + 0x20 * p + 12) % 65536 * 2 ^ 32) (8 * profNumSc w) with
      | (t, .fail _) => profFailed t p
      | (t, .ok d) => { t with cv := { t.cv with
          prof := tblSet {} t.cv.prof p { valid := true, words := w, seq := d }, lastValid := true, cause := 0 } }) := by
    subst hw
    exact congrArg Host.Outcome.next ((if_neg (by simp [Nat.not_le_of_lt hp, hs])).trans (if_neg (by simp [h])))
  rw [hrun]
  exact ⟨fun f hf => by rw [hf], fun d hd => by rw [hd]⟩

end

end

/-- Settles O60: an entry by its time, a burst by its state and POLICY, a profile by its words and its read. -/
theorem agcBurstsAndProfiles : Obligations.AgcBurstsAndProfiles := by
  unfold Obligations.AgcBurstsAndProfiles
  intro s k w x b others
  refine ⟨fun h => congrArg Host.Outcome.next (onOp_none h _), exec_agcEntry_idle, fun y g o h => ?entries,
    fun y g o e rest h hg => ?entry, fun power => ?window, fun power syms hr hl => ?detection,
    fun power cfo hr hst => exec_burstDetected_freezes hr hst power cfo, fun er cl syms hr hst => ?done,
    fun power cfo er cl syms => ⟨exec_startDetection_idle, fun h => exec_burstDetected_idle h power cfo, exec_burstEnd_idle⟩,
    rfl, fun p => exec_cvProfLoad_idle, fun p hp hs => ?profile⟩
  case entries =>
    intro n
    refine ⟨exec_cvAgc_count h, fun h1 h256 t f hf => (exec_cvAgc_reads h h1 h256).2 f hf, fun h1 h256 t d hd e rest he => ?_⟩
    rw [(exec_cvAgc_reads h h1 h256).1 d hd, show agcEntries d (bits (xw o 1) 56 48) = e :: rest from he]
    exact ⟨fun hw => congrArg Host.Outcome.next (walkAgc_waits rest hw), fun hl => congrArg Host.Outcome.next (walkAgc_late rest hl)⟩
  case entry =>
    rw [exec_agcEntry_eq h hg]
    exact ⟨fun ht => congrArg Host.Outcome.next (if_pos ht), fun ht => congrArg Host.Outcome.next (if_neg (not_le_of_gt ht))⟩
  case window =>
    intro dev step ch window settles
    have hsettles : settling s k x = true ↔ settles := settling_iff s k x
    refine ⟨fun h => exec_stsWindow_unused ((windowUnused_iff s k power).2 (by rwa [hsettles])),
      fun hr hf hm hs hd hc => ?_⟩
    have hused : windowUnused s k power = false := by
      rw [Bool.eq_false_iff, Ne, windowUnused_iff, hsettles]
      rintro (h | h | h | h | h)
      · exact nomatch hr.symm.trans h
      · exact nomatch hf.symm.trans h
      · exact Nat.not_le_of_lt hm h
      · exact hs h
      · exact not_le_of_gt hd h
    generalize hb : ({ b with moves := b.moves + 1, quiet := some (dieCount s (linkDie k) + (bits x.agc.toNat 23 16 * cvTs x : Nat)) } : Burst) = b'
    refine ⟨_, acqSteps s dev step, exec_stsWindow_used hused rfl rfl hb.symm, ?_⟩
    have hlink : linkOf (takeChoice (setLink s k { x with burst := b' })) k = { x with burst := b' } := link_same s k _ w
    have hwf : tblWf (takeChoice (setLink s k { x with burst := b' })).cv.link = true := link_wf s k _ w
    obtain ⟨hothers, hburst, hcode, hcodes⟩ := driveCode_link (takeChoice (setLink s k { x with burst := b' })) k ch
      (clampInt 0 15 (((tblGet 0 x.codes ch : Nat) : Int) + acqSteps s dev step)).toNat hwf (by rw [hlink]; exact hc)
    refine ⟨fun j hj => (hothers j hj).trans (link_other s k j _ w hj), hburst.trans (by rw [hlink]), ?_, acqSteps_exact,
      acqSteps_halfway, fun c hne => (hcodes c hne).trans (by rw [hlink])⟩
    exact (congrArg Nat.cast hcode).trans (Int.toNat_of_nonneg (clampInt_nonneg (by decide) _))
  case detection =>
    intro stronger more
    refine ⟨fun hst hv => ?_, fun hst hv => ?_, fun hst hn => ?_, fun hst hp => ?_, fun hst hn => ?_, fun hst hp hpol => ?_,
      fun hst hp hpol => ?_, fun hst hp hpol => ?_⟩
    · rw [exec_startDetection_first hr hl hst, if_pos hv, newBurst_idle hst]
    · rw [exec_startDetection_first hr hl hst, if_neg (by simp [hv])]
    · rw [exec_startDetection_acquiring hr hl hst, if_neg hn]
    · have hlink : linkOf (setLink s k (more x)) k = more x := link_same s k _ w
      have hwf := link_wf s k (more x) w
      rw [exec_startDetection_acquiring hr hl hst, if_pos hp]
      have hst1 : (linkOf (setLink s k (more x)) k).burst.st = 1 := by rw [hlink]; exact hst
      refine ⟨_, congrArg Host.Outcome.next (newBurst_again (s := setLink s k (more x)) (by rw [hst1]; decide)), fun j hj => ?_, ?_⟩
      · rw [link_other _ _ _ _ hwf hj]
        exact link_other _ _ _ _ w hj
      · rw [link_same _ _ _ hwf, hlink]
        rfl
    · rw [exec_startDetection_capturing hr hl hst, if_neg hn]
      rfl
    · rw [exec_startDetection_capturing hr hl hst, if_pos hp, strongerStart_keeps hpol]
      rfl
    · rw [exec_startDetection_capturing hr hl hst, if_pos hp]
      obtain ⟨t, ht, hrest⟩ := strongerStart_aborts (power := power) w hpol (min syms (profData (linkOf s k).burst.prof))
      exact ⟨t, congrArg Host.Outcome.next ht, hrest⟩
    · rw [exec_startDetection_capturing hr hl hst, if_pos hp]
      obtain ⟨t, ht, hrest⟩ := strongerStart_marks (power := power) w hpol (min syms (profData (linkOf s k).burst.prof))
      exact ⟨t, congrArg Host.Outcome.next ht, hrest⟩
  case done =>
    obtain ⟨-, hothers, hburst, -⟩ := writeBurst_link s k 0 (min syms (profData (linkOf s k).burst.prof)) er cl w
    obtain ⟨hbursts, hrec, -, harrive⟩ := writeBurst_more s k 0 (min syms (profData (linkOf s k).burst.prof)) er cl w
    exact ⟨_, exec_burstEnd_writes hr hst, hothers, hburst, hbursts, hrec, harrive⟩
  case profile =>
    intro base words
    refine ⟨fun h => ⟨_, exec_cvProfLoad_bad hp hs rfl h, profFailed_spec s p⟩, fun h t f hf =>
      ⟨_, (exec_cvProfLoad_reads hp hs rfl h).1 f hf, profFailed_spec t p⟩, fun h t d hd => (exec_cvProfLoad_reads hp hs rfl h).2 d hd⟩

end Sys2Proof.Proofs
end

section
/-! PROOFS. Fronthaul ingress: ports, frame classes, receive windows and admission (R343, R345, R349 to R352, R358, R362). -/
namespace Sys2Proof.Proofs
open Sys2Proof.Machine Sys2Proof.Laws

/-! ### The ports -/

section
variable {s : State} {p : Nat}

theorem port_same (x : Port) (w : tblWf s.fh.port = true) : portOf (setPort s p x) p = x := tblGet_set_same w _ _ _

theorem port_other {q : Nat} (x : Port) (w : tblWf s.fh.port = true) (h : q ≠ p) : portOf (setPort s p x) q = portOf s q :=
  tblGet_set_other w _ _ h

theorem exec_portUp_idle (h : s.boot.fwUp = false ∨ s.boot.recovery = true ∨ portState s p ≠ 1
    ∨ tblGet false s.power.outputs p = false) : exec (.portUp p) s = .next s :=
  congrArg Host.Outcome.next (if_pos (by rcases h with h | h | h | h <;> simp [h]))

/-- The expectation of an eAxC after a port has come up. -/
def seqRestarted (s : State) (p e : Nat) (q : EaxcSeq) : EaxcSeq :=
  if plPort (carrierOf s (eaxcCarrier s e)).now = p then { q with rxKnown := false } else q

theorem exec_portUp_comes (hf : s.boot.fwUp = true) (hr : s.boot.recovery = false) (hst : portState s p = 1)
    (ho : tblGet false s.power.outputs p = true) : exec (.portUp p) s =
      .next (arrive { s with fh := { s.fh with
        port := tblSet {} s.fh.port p { portOf s p with lock := true, up := true }
        seq := s.fh.seq.map fun e => (e.1, seqRestarted s p e.1 e.2) } } (464 + p)) := by
  refine congrArg Host.Outcome.next ((if_neg (by simp [hf, hr, hst, ho])).trans ?_)
  have hmap (e : Nat × EaxcSeq) : (if plPort (carrierOf s (eaxcCarrier s e.1)).now = p
      then (e.1, { e.2 with rxKnown := false }) else e) = (e.1, seqRestarted s p e.1 e.2) := by
    unfold seqRestarted
    split <;> rfl
  exact congrArg (fun seq => arrive { s with fh := { s.fh with
    port := tblSet {} s.fh.port p { portOf s p with lock := true, up := true }, seq := seq } } (464 + p))
    (List.map_congr_left fun e _ => hmap e)

end

/-- What decides a port's state besides its UP bit is no part of the radio. -/
theorem RadioMoves.portState {s t : State} (h : RadioMoves s t) (p : Nat) (hup : (portOf t p).up = (portOf s p).up) :
    Machine.portState t p = Machine.portState s p := by
  have hw : working t 10 p = working s 10 p := by
    obtain ⟨⟨_, _, _, _, _, _, _, _, _, rfl⟩, -⟩ := h; rfl
  have hc : portCfg t p = portCfg s p := by
    obtain ⟨⟨_, _, _, _, _, _, _, _, _, rfl⟩, -⟩ := h; rfl
  rw [Machine.portState, hw, hc, hup]
  rfl

/-- A dropped message leaves what is on the ports' wires: it is counted. -/
theorem dropNote_up (s : State) (p k r j q : Nat) (w : tblWf s.fh.port = true) :
    (portOf (noteMsg (dropTx s p k) r j false) q).up = (portOf s q).up := by
  have hfh : (noteMsg (dropTx s p k) r j false).fh = (countPort s p k).fh := setFlagIf_fh _ _ _
  have hport : (noteMsg (dropTx s p k) r j false).fh.port = tblSet {} s.fh.port p
      { portOf s p with cnt := tblMod 0 (portOf s p).cnt k (satInc 0xFFFFFFFF) } := by rw [hfh]; rfl
  unfold portOf
  rw [hport]
  by_cases h : q = p
  · rw [h, tblGet_set_same w]
    rfl
  · rw [tblGet_set_other w _ _ h]

theorem discardFrames_up (s : State) (p k q : Nat) (g : EgFrame → Bool) (w : tblWf s.fh.port = true) :
    (portOf (discardFrames s p k g) q).up = (portOf s q).up := by
  have hfold (l : List EgFrame) (u : State) (wu : tblWf u.fh.port = true) :
      (portOf (l.foldl (fun s f => noteMsg (dropTx s p k) f.ring f.k false) u) q).up = (portOf u q).up := by
    induction l generalizing u with
    | nil => rfl
    | cons f l ih =>
      rw [List.foldl_cons, ih _ (dropNote_queue u p k f.ring f.k q wu).2, dropNote_up u p k f.ring f.k q wu]
  unfold discardFrames
  dsimp only
  rw [hfold _ _ (tblWf_set w _ _ _)]
  by_cases h : q = p
  · rw [h, port_same _ w]
  · rw [port_other _ w h]

section
variable {s : State} {p : Nat} (hup : portState s p = 2)
include hup

/-- A port that leaves takes lock away, drops its queue, flags and sends its arrival. -/
theorem portLeave_up (w : tblWf s.fh.port = true) {t : State}
    (ht : t = discardFrames (setPort s p { portOf s p with lock := false, up := false, frag := none }) p 16 (fun _ => true)) :
    portLeave s p = settleFx (settleRadio (arrive (setFlag t (2048 + p)) (464 + p))) p := by
  have hdown (x : Port) (hx : x.up = false) : portState (setPort s p x) p = 1 := by
    have hbit : (portOf (setPort s p x) p).up = false := by rw [port_same x w, hx]
    have hworks : ¬ (!working s 10 p || Decidable.decide (bits (portCfg s p) 1 0 = 0)) = true := by
      intro h
      rw [portState, if_pos h] at hup
      exact absurd hup (by decide)
    exact (if_neg hworks).trans (if_neg (by rw [hbit]; decide))
  have hst : portState t p = 1 := by
    rw [ht, (RadioMoves.discardFrames _ p 16 _).portState p (discardFrames_up _ _ _ _ _ (tblWf_set w _ _ _)), hdown _ rfl]
  unfold portLeave
  dsimp only
  rw [← ht, if_pos (by simp [portUp_of hup, hst])]

/-! ### Frames -/

variable {b : List Byte}

theorem exec_frameReceive_whole (full : Bool) : exec (.frameReceive p 0 full b) s = .next (takeFrame s p full b) :=
  congrArg Host.Outcome.next ((if_neg (not_not.2 hup)).trans (if_pos rfl))

theorem exec_frameReceive_fragment {check : Nat} (hc : 3 ≤ check) (hp : preempts s p = true) (full : Bool) :
    exec (.frameReceive p check full b) s = .next (mergeFragment s p check full b) :=
  congrArg Host.Outcome.next ((if_neg (not_not.2 hup)).trans ((if_neg (by omega)).trans (if_pos (by simp [hc, hp]))))

theorem exec_frameReceive_bad {check : Nat} (h0 : check ≠ 0) (h : check < 3 ∨ preempts s p = false) (full : Bool) :
    exec (.frameReceive p check full b) s = .next (setFlagIf (check = 2) (2060 + p) (dropRx s p 9)) :=
  congrArg Host.Outcome.next ((if_neg (not_not.2 hup)).trans ((if_neg h0).trans (if_neg (by
    rcases h with h | h
    · simp [Nat.not_le_of_lt h]
    · simp [h]))))

end

section
variable {s : State} {p : Nat} {full : Bool} {b : List Byte}

theorem mergeFragment_none {check : Nat} (hc : 4 < check) (h : (portOf s p).frag = none) :
    mergeFragment s p check full b = dropRx s p 9 := by
  obtain ⟨n, rfl⟩ := Nat.exists_eq_add_of_le' hc
  unfold mergeFragment
  dsimp only
  rw [h]
  cases n <;> rfl

theorem mergeFragment_more {a : List Byte} (h : (portOf s p).frag = some a) :
    mergeFragment s p 5 full b = setPort s p { portOf s p with frag := some (a ++ b) } := by
  unfold mergeFragment
  dsimp only
  rw [h] <;> rfl

theorem mergeFragment_last {check : Nat} {a : List Byte} (hc : 5 < check) (h : (portOf s p).frag = some a) :
    mergeFragment s p check full b = takeFrame (setPort s p { portOf s p with frag := none }) p full (a ++ b) := by
  obtain ⟨n, rfl⟩ := Nat.exists_eq_add_of_le' hc
  unfold mergeFragment
  dsimp only
  rw [h] <;> rfl

/-! ### Classes -/

theorem policed_passes {k : Nat} (h : (police s p k).2 = true) (f : State → State) : policed s p k f = f (police s p k).1 := by
  unfold policed byVerdict
  rw [h]
  rfl

theorem policed_drops {k : Nat} (h : (police s p k).2 = false) (f : State → State) :
    policed s p k f = dropRx (police s p k).1 p 2 := by
  unfold policed byVerdict
  rw [h]
  rfl

/-- What a frame of each class does. -/
def receiveAs (s : State) (p : Nat) (b : List Byte) : RxClass → State
  | .ptp => policed s p 0 fun s => toHostQueue s p (rxStamp s p) b
  | .esmc => policed s p 1 fun s =>
    if rxEnabled (consumeEsmc s p (parseFrame b).body) then
      toHostQueue (consumeEsmc s p (parseFrame b).body) p (rxStamp (consumeEsmc s p (parseFrame b).body) p) b
    else consumeEsmc s p (parseFrame b).body
  | .delay => policed s p 2 fun s => answerDelay s p (parseFrame b)
  | .uplane => receiveUplane s p (parseFrame b)
  | .unsup => dropRx s p 1
  | .other => dropRx s p 0

theorem receiveFrame_of {c : RxClass} (h : classify s p (parseFrame b) = c) : receiveFrame s p b = receiveAs s p b c := by
  subst h
  rfl

theorem toHostQueue_refused {stamp : Int} (h : rxEnabled s = false ∨ 112 < b.length) :
    toHostQueue s p stamp b = dropRx s p 12 :=
  if_pos (by rcases h with h | h <;> simp [h])

section
variable {stamp : Int} (he : rxEnabled s = true) (hb : b.length ≤ 112)
include he hb

theorem toHostQueue_full (h : (s.fh.rxProd % tqSize s false + 1) % tqSize s false = reg s 0xF0418 % tqSize s false) :
    toHostQueue s p stamp b = setFlag (dropRx s p 12) 2072 :=
  (if_neg (by simp [he, Nat.not_lt_of_le hb])).trans (if_pos h)

theorem toHostQueue_copies (h : (s.fh.rxProd % tqSize s false + 1) % tqSize s false ≠ reg s 0xF0418 % tqSize s false) {u : State}
    (hu : u = (writeBytes s { ctx := 0, cls := 7 } (reg64 s 0xF0400 % 2 ^ 48 + 128 * (s.fh.rxProd % tqSize s false))
      ((leBytes 8 (trunc 64 stamp) ++ leBytes 8 (p + b.length * 2 ^ 16)) ++ b)).1) :
    toHostQueue s p stamp b =
      { u with fh := { u.fh with rxProd := (s.fh.rxProd % tqSize s false + 1) % tqSize s false } } := by
  subst hu
  exact (if_neg (by simp [he, Nat.not_lt_of_le hb])).trans (if_neg h)

end

end

/-! ### Windows and admission -/

section
variable {s : State} {c sfn slot sym : Nat} {p : Placed} (hp : p = slotPl s c sfn slot) {close : Int}
  (hclose : close = slotStart s (plMu p) sfn slot + symbolOfs (plMu p) slot sym + carWin s c 7)
include hp hclose

theorem exec_rxWindowClose_idle (h : plEn p = false ∨ rxStamp s (plPort p) < close
    ∨ ∀ r, r ∈ (carrierOf s c).requested → ¬ (r.frame = absFrame s sfn ∧ r.slot = slot)) :
    exec (.rxWindowClose c sfn slot sym) s = .next s := by
  subst hclose
  subst hp
  refine congrArg Host.Outcome.next (if_neg ?_)
  simp only [Bool.and_eq_true, decide_eq_true_eq, List.any_eq_true]
  rintro ⟨⟨hen, hle⟩, r, hr, hfs⟩
  rcases h with h | h | h
  · exact nomatch h.symm.trans hen
  · exact not_le_of_gt h hle
  · exact h r hr hfs

theorem exec_rxWindowClose_announces (hen : plEn p = true) (hle : close ≤ rxStamp s (plPort p))
    (hr : ∃ r, r ∈ (carrierOf s c).requested ∧ r.frame = absFrame s sfn ∧ r.slot = slot) :
    exec (.rxWindowClose c sfn slot sym) s = .next (announce s c p (absFrame s sfn) slot sym 0) := by
  subst hclose
  subst hp
  refine congrArg Host.Outcome.next (if_pos ?_)
  simp only [Bool.and_eq_true, decide_eq_true_eq, List.any_eq_true]
  exact ⟨⟨hen, hle⟩, hr⟩

end

section
variable {s : State} {c : Nat}

theorem announce_known {p : Placed} {frame : Int} {slot sym : Nat} (h : (frame, slot, sym) ∈ (carrierOf s c).announced) (v : Nat) :
    announce s c p frame slot sym v = s := if_pos (List.contains_iff_mem.2 h)

theorem announce_new {p : Placed} {frame : Int} {slot sym : Nat} (h : (frame, slot, sym) ∉ (carrierOf s c).announced) {v : Nat}
    {t : State} (ht : t = symbolStatus s c p (frame.emod 1024).toNat slot sym v) :
    announce s c p frame slot sym v = arrive (setCarrier t c { carrierOf t c with
      announced := (carrierOf t c).announced ++ [(frame, slot, sym)] }) (256 + c) := by
  subst ht
  exact if_neg fun hc => h (List.contains_iff_mem.1 hc)

end

/-- Settles O58: a port by its state, a frame by its check, class and policer, a window and a boundary by their time. -/
theorem fronthaulIngressAndAdmission : Obligations.FronthaulIngressAndAdmission := by
  unfold Obligations.FronthaulIngressAndAdmission
  intro s
  refine ⟨fun p hf hr hst ho w => ?comes, fun p => exec_portUp_idle, fun p hup w => ?leaves,
    fun hs p => congrArg Host.Outcome.next (if_neg (by simp [hs])), fun p h => ?down, fun p full b hup => ?frames,
    fun c sfn slot sym => ?window, fun c sfn slot sym => exec_rxWindowClose_idle rfl rfl, fun c => ?opens, fun c => ?moves⟩
  case comes =>
    refine ⟨_, s.fh.seq.map fun e => (e.1, seqRestarted s p e.1 e.2), exec_portUp_comes hf hr hst ho, rfl,
      port_same _ w, fun q hq => port_other _ w hq, fun e q => ?_⟩
    rw [List.mem_map]
    constructor
    · rintro ⟨⟨e', q'⟩, hmem, heq⟩
      obtain ⟨rfl, rfl⟩ := Prod.mk.inj heq
      exact ⟨q', hmem, rfl⟩
    · rintro ⟨q', hmem, rfl⟩
      exact ⟨(e, q'), hmem, rfl⟩
  case leaves =>
    intro t u
    have hleave : portLeave s p = u := portLeave_up hup w rfl
    exact ⟨congrArg Host.Outcome.next ((if_pos hup).trans hleave),
      fun hs => congrArg Host.Outcome.next ((if_pos (by simp [hs, hup])).trans hleave)⟩
  case down =>
    exact ⟨congrArg Host.Outcome.next (if_neg h), congrArg Host.Outcome.next (if_neg (by simp [h])),
      fun check full b => congrArg Host.Outcome.next (if_pos h)⟩
  case frames =>
    intro x takes
    have hwhole := exec_frameReceive_whole (b := b) hup false
    refine ⟨exec_frameReceive_bad hup (by decide) (.inl (by decide)) full, exec_frameReceive_bad hup (by decide) (.inl (by decide)) full,
      fun check hc => ⟨fun hp => ?_, fun hp => ⟨?_, ?_, fun h4 hn => ?_, fun a h5 ha => ?_, fun a h5 ha w => ?_⟩⟩,
      exec_frameReceive_whole hup true, fun h => ?_, fun h => ?_, fun h => ?_, fun h hpol => ?_, fun k c hk h hpol => ?_,
      fun h hpol => ?_, fun h t ht hn => ?_, fun h t ht he hb => ?_⟩
    · exact (exec_frameReceive_bad hup (by omega) (.inr hp) full).trans
        (congrArg Host.Outcome.next (if_neg (by simp; omega)))
    · rintro rfl
      exact exec_frameReceive_fragment hup hc hp full
    · rintro rfl
      exact exec_frameReceive_fragment hup hc hp full
    · rw [exec_frameReceive_fragment hup hc hp full, mergeFragment_none h4 hn]
    · subst h5
      rw [exec_frameReceive_fragment hup hc hp full, mergeFragment_more ha]
    · rw [exec_frameReceive_fragment hup hc hp full, mergeFragment_last h5 ha]
      have hup' : portState (setPort s p { x with frag := none }) p = 2 := by
        rw [← hup]
        exact RadioMoves.portState (t := setPort s p { x with frag := none }) (.of_update s _ _ _ _ _ _) p (by rw [port_same _ w])
      exact (exec_frameReceive_whole hup' full).symm
    · exact hwhole.trans (congrArg Host.Outcome.next (receiveFrame_of h))
    · exact hwhole.trans (congrArg Host.Outcome.next (receiveFrame_of h))
    · exact hwhole.trans (congrArg Host.Outcome.next (receiveFrame_of h))
    · exact hwhole.trans (congrArg Host.Outcome.next ((receiveFrame_of h).trans (policed_passes hpol _)))
    · refine hwhole.trans (congrArg Host.Outcome.next ((receiveFrame_of h).trans ?_))
      rcases hk with ⟨rfl, rfl⟩ | ⟨rfl, rfl⟩ | ⟨rfl, rfl⟩ <;> exact policed_drops hpol _
    · exact hwhole.trans (congrArg Host.Outcome.next ((receiveFrame_of h).trans (policed_passes hpol _)))
    · have hpass := (receiveFrame_of h).trans (policed_passes (by rw [ht]) _)
      rw [ht] at hpass
      exact hwhole.trans (congrArg Host.Outcome.next (hpass.trans (toHostQueue_refused hn)))
    · have hpass := (receiveFrame_of h).trans (policed_passes (by rw [ht]) _)
      rw [ht] at hpass
      exact ⟨fun hfull => hwhole.trans (congrArg Host.Outcome.next (hpass.trans (toHostQueue_full he hb hfull))),
        fun hroom => hwhole.trans (congrArg Host.Outcome.next (hpass.trans (toHostQueue_copies he hb hroom rfl)))⟩
  case window =>
    intro x p close frame hen hle hr
    have hrun := exec_rxWindowClose_announces (s := s) (c := c) (sfn := sfn) (slot := slot) (sym := sym) rfl rfl hen hle hr
    exact ⟨fun hm => hrun.trans (congrArg Host.Outcome.next (announce_known hm 0)),
      fun hm => hrun.trans (congrArg Host.Outcome.next (announce_new hm rfl))⟩
  case opens =>
    intro x boundary
    refine ⟨fun hen ha hb ho => congrArg Host.Outcome.next (if_pos ?_), fun h => congrArg Host.Outcome.next (if_neg ?_)⟩
    · rw [Bool.and_eq_true, Bool.and_eq_true, placeAdmits, Bool.and_eq_true]
      exact ⟨⟨⟨hen, ha⟩, hb⟩, by simp [show (carrierOf s c).open_ = false from ho]⟩
    · rw [Bool.and_eq_true, Bool.and_eq_true, placeAdmits, Bool.and_eq_true, Bool.not_eq_true']
      rintro ⟨⟨⟨hen, ha⟩, hb⟩, ho⟩
      rcases h with h | h | h | h
      · exact nomatch h.symm.trans hen
      · exact nomatch h.symm.trans ha
      · exact nomatch h.symm.trans hb
      · exact nomatch h.symm.trans ho
  case moves =>
    intro x count boundary
    refine ⟨fun h => congrArg Host.Outcome.next (if_pos ?_), fun hp hb => congrArg Host.Outcome.next (if_neg ?_)⟩
    · rw [Bool.or_eq_true, Bool.not_eq_true', Bool.not_eq_true']
      exact h
    · rw [Bool.or_eq_true, Bool.not_eq_true', Bool.not_eq_true']
      rintro (h | h)
      · exact nomatch h.symm.trans hp
      · exact nomatch h.symm.trans hb

end Sys2Proof.Proofs
end

section
/-! PROOFS. Fronthaul egress: FX operations, windows, the arbiter, cancels and the host PTP queue (R352, R354 to R359,
R363, R366, R367). -/
namespace Sys2Proof.Proofs
open Sys2Proof.Machine Sys2Proof.Laws

/-! ### FX_SECTIONS and FX_UPLANE -/

section
variable {s t u : State} {p : Nat} {x : Run} {g : Seg} {o : ListOp}

section
variable (h : atOp s 4 p 0x50 = some (x, g, o))
include h

theorem exec_fxSections_unplaced (hp : fxPlaced s (fxCarrier o) p = false) :
    exec (.fxSections p) s = .next (failOp s x p 6 0x42 o.idx) :=
  congrArg Host.Outcome.next ((onOp_eq h _).trans (if_pos (by simp [hp])))

section
variable (hp : fxPlaced s (fxCarrier o) p = true)
include hp

theorem exec_fxSections_count (hn : bits (xw o 1) 56 48 = 0 ∨ 256 < bits (xw o 1) 56 48) :
    exec (.fxSections p) s = .next (failOp s x p 6 0x40 o.idx) :=
  congrArg Host.Outcome.next ((onOp_eq h _).trans ((if_neg (by simp [hp])).trans (if_pos (by
    rcases hn with hn | hn <;> simp [hn]))))

/-- The sections of a list that was read: their entries are checked, then their extensions read. -/
def sectionsRead (t : State) (x : Run) (p : Nat) (o : ListOp) (raw : List (List Byte)) : State :=
  match entriesBad t (fxCarrier o) (fxSfn o) (fxSlot o) (raw.map parseEntrySec) with
  | some r => failResult t x p o.idx r
  | none =>
    match readExts t (agentOf x) (bits (xw o 2) 47 0) (raw.map parseEntrySec) [] with
    | (u, .fail f) => failWith u x p o.idx f
    | (u, .ok exts) => startSections u x p o ((raw.map parseEntrySec).zip (raw.zip exts))

theorem exec_fxSections_reads (h1 : 1 ≤ bits (xw o 1) 56 48) (h256 : bits (xw o 1) 56 48 ≤ 256) {b : List Byte}
    (hb : readUse s (agentOf x) (bits (xw o 1) 47 0) (32 * bits (xw o 1) 56 48) = (t, .ok b)) :
    exec (.fxSections p) s = .next (sectionsRead t x p o (cutEntries b (bits (xw o 1) 56 48))) := by
  have hcount : ¬ (Decidable.decide (bits (xw o 1) 56 48 = 0) || Decidable.decide (256 < bits (xw o 1) 56 48)) = true := by
    simp [Nat.not_lt_of_le h256, Nat.pos_iff_ne_zero.1 h1]
  have hrun : exec (.fxSections p) s = .next (match readUse s (agentOf x) (bits (xw o 1) 47 0) (32 * bits (xw o 1) 56 48) with
      | (t, .fail f) => failWith t x p o.idx f
      | (t, .ok b) => sectionsRead t x p o (cutEntries b (bits (xw o 1) 56 48))) :=
    congrArg Host.Outcome.next ((onOp_eq h _).trans ((if_neg (by simp [hp])).trans (if_neg hcount)))
  rw [hrun, hb]

end

end

section
variable {raw : List (List Byte)}

theorem sectionsRead_bad {r : Nat} (h : entriesBad t (fxCarrier o) (fxSfn o) (fxSlot o) (raw.map parseEntrySec) = some r) :
    sectionsRead t x p o raw = failOp t x p 6 r o.idx := by
  rw [sectionsRead, h]
  rfl

theorem sectionsRead_good (h : entriesBad t (fxCarrier o) (fxSfn o) (fxSlot o) (raw.map parseEntrySec) = none)
    {exts : List (List Byte)}
    (he : readExts t (agentOf x) (bits (xw o 2) 47 0) (raw.map parseEntrySec) [] = (u, .ok exts)) :
    sectionsRead t x p o raw = startSections u x p o ((raw.map parseEntrySec).zip (raw.zip exts)) := by
  rw [sectionsRead, h]
  dsimp only
  rw [he]

end

section
variable {l : List (SecEntry × List Byte × List Byte)}

theorem startSections_long (h : ∃ z, z ∈ l ∧ portMtu u p < cplaneSize z.1.typ (secSize z.1 z.2.2)) :
    startSections u x p o l = failOp u x p 6 0x43 o.idx :=
  if_pos (List.any_eq_true.2 (by simpa only [decide_eq_true_eq] using h))

section
variable (h : ∀ z, z ∈ l → cplaneSize z.1.typ (secSize z.1 z.2.2) ≤ portMtu u p)
include h

theorem startSections_fits : startSections u x p o l =
    (fun v => beginFx v x p (cplaneMsgs v p o l)) (if !bitAt o.imm 24 then
      requestSections (resolveBindings u (fxCarrier o) (fxSfn o) (fxSlot o) (l.map (·.2.1))) o (l.map (·.1)) else u) :=
  if_neg (by
    rw [List.any_eq_true]
    rintro ⟨z, hz, hlong⟩
    exact Nat.not_lt_of_le (h z hz) (of_decide_eq_true hlong))

theorem startSections_downlink (hd : bitAt o.imm 24 = true) :
    startSections u x p o l = beginFx u x p (cplaneMsgs u p o l) := by
  rw [startSections_fits h, if_neg (by simp [hd])]

theorem startSections_uplink (hd : bitAt o.imm 24 = false) {v : State} (hv : v =
      requestSections (resolveBindings u (fxCarrier o) (fxSfn o) (fxSlot o) (l.map (·.2.1))) o (l.map (·.1))) :
    startSections u x p o l = beginFx v x p (cplaneMsgs v p o l) := by
  rw [startSections_fits h, if_pos (by simp [hd]), ← hv]

end

end

/-- What is wrong with an entry of FX_UPLANE. -/
def uentryBad (t : State) (o : ListOp) (e : UEntry) : Option Nat :=
  if !uentryFits (slotPl t (fxCarrier o) (fxSfn o) (fxSlot o)) e then some 0x40
  else if (eaxcOn t (fxCarrier o) e.eaxc).isNone then some 0x41 else none

theorem uentryBad_none {e : UEntry} (hf : uentryFits (slotPl t (fxCarrier o) (fxSfn o) (fxSlot o)) e = true)
    (he : (eaxcOn t (fxCarrier o) e.eaxc).isSome = true) : uentryBad t o e = none :=
  (if_neg (by simp [hf])).trans (if_neg (by simp [Option.isSome_iff_ne_none.1 he]))

theorem uentryBad_shape {e : UEntry} (hf : uentryFits (slotPl t (fxCarrier o) (fxSfn o) (fxSlot o)) e = false) :
    uentryBad t o e = some 0x40 := if_pos (by simp [hf])

theorem uentryBad_eaxc {e : UEntry} (hf : uentryFits (slotPl t (fxCarrier o) (fxSfn o) (fxSlot o)) e = true)
    (he : eaxcOn t (fxCarrier o) e.eaxc = none) : uentryBad t o e = some 0x41 :=
  (if_neg (by simp [hf])).trans (if_pos (by simp [he]))

section
variable (h : atOp s 4 p 0x51 = some (x, g, o))
include h

theorem exec_fxUplane_unplaced (hp : fxPlaced s (fxCarrier o) p = false) :
    exec (.fxUplane p) s = .next (failOp s x p 6 0x42 o.idx) :=
  congrArg Host.Outcome.next ((onOp_eq h _).trans (if_pos (by simp [hp])))

section
variable (hp : fxPlaced s (fxCarrier o) p = true)
include hp

theorem exec_fxUplane_count (hn : bits (xw o 1) 56 48 = 0 ∨ 256 < bits (xw o 1) 56 48) :
    exec (.fxUplane p) s = .next (failOp s x p 6 0x40 o.idx) :=
  congrArg Host.Outcome.next ((onOp_eq h _).trans ((if_neg (by simp [hp])).trans (if_pos (by
    rcases hn with hn | hn <;> simp [hn]))))

/-- A list that was read: the first entry that is wrong, or the messages of all. -/
def uplaneRead (t : State) (x : Run) (p : Nat) (o : ListOp) (es : List UEntry) : State :=
  match es.findSome? (uentryBad t o) with
  | some r => failResult t x p o.idx r
  | none => beginFx t x p (es.flatMap (uplaneMsgs t p o))

theorem exec_fxUplane_reads (h1 : 1 ≤ bits (xw o 1) 56 48) (h256 : bits (xw o 1) 56 48 ≤ 256) {b : List Byte}
    (hb : readUse s (agentOf x) (bits (xw o 1) 47 0) (16 * bits (xw o 1) 56 48) = (t, .ok b)) :
    exec (.fxUplane p) s = .next (uplaneRead t x p o (cutUEntries b (bits (xw o 1) 56 48))) := by
  have hcount : ¬ (Decidable.decide (bits (xw o 1) 56 48 = 0) || Decidable.decide (256 < bits (xw o 1) 56 48)) = true := by
    simp [Nat.not_lt_of_le h256, Nat.pos_iff_ne_zero.1 h1]
  have hrun : exec (.fxUplane p) s = .next (match readUse s (agentOf x) (bits (xw o 1) 47 0) (16 * bits (xw o 1) 56 48) with
      | (t, .fail f) => failWith t x p o.idx f
      | (t, .ok b) => uplaneRead t x p o (cutUEntries b (bits (xw o 1) 56 48))) :=
    congrArg Host.Outcome.next ((onOp_eq h _).trans ((if_neg (by simp [hp])).trans (if_neg hcount)))
  rw [hrun, hb]

end

end

theorem uplaneRead_good {es : List UEntry} (h : ∀ e, e ∈ es → uentryBad t o e = none) :
    uplaneRead t x p o es = beginFx t x p (es.flatMap (uplaneMsgs t p o)) := by
  rw [uplaneRead, List.findSome?_eq_none_iff.2 h]

theorem uplaneRead_bad {l rest : List UEntry} {e : UEntry} {r : Nat} (h : ∀ e, e ∈ l → uentryBad t o e = none)
    (he : uentryBad t o e = some r) : uplaneRead t x p o (l ++ e :: rest) = failOp t x p 6 r o.idx := by
  have hfind : (l ++ e :: rest).findSome? (uentryBad t o) = some r := by
    rw [List.findSome?_append, List.findSome?_eq_none_iff.2 h, Option.none_or, List.findSome?_cons, he]
  rw [uplaneRead, hfind]
  rfl

/-! ### WINDOW_OPEN -/

theorem exec_windowOpen_idle (h : inOp s 4 p = none) : exec (.windowOpen p) s = .next s := by
  change execWindowOpen p s = _
  rw [execWindowOpen, h]
  rfl

section
variable (h : inOp s 4 p = some (x, g, o))
include h

theorem exec_windowOpen_other (hg : ∀ l, g.phase ≠ .fx l) : exec (.windowOpen p) s = .next s := by
  change execWindowOpen p s = _
  rw [execWindowOpen, h]
  dsimp only
  cases hp : g.phase
  case fx l => exact absurd hp (hg l)
  all_goals rfl

theorem exec_windowOpen_last (hg : g.phase = .fx []) : exec (.windowOpen p) s = .next (settleFx s p) := by
  change execWindowOpen p s = _
  rw [execWindowOpen, h]
  dsimp only
  rw [hg]
  rfl

theorem exec_windowOpen_next {m : FxMsg} {rest : List FxMsg} (hg : g.phase = .fx (m :: rest)) :
    exec (.windowOpen p) s = .next (if winOpen s m ≤ txStamp s p then reachMsg s x p o.idx m rest else s) := by
  change execWindowOpen p s = _
  rw [execWindowOpen, h]
  dsimp only
  rw [hg]
  rfl

end

section
variable {idx : Nat} {m : FxMsg} {rest : List FxMsg} (ht : t = setPhase (takeSeq s m).1 x p (.fx rest))
include ht

theorem reachMsg_closed (hm : mayTransmit s m.carrier m = false) :
    reachMsg s x p idx m rest = settleFx (noteMsg (dropTx t p 16) x.ring x.k false) p := by
  subst ht
  exact if_pos (by simp [hm])

section
variable (hm : mayTransmit s m.carrier m = true)
include hm

theorem reachMsg_late (hl : winClose s m < txStamp s p) : reachMsg s x p idx m rest =
    settleFx (noteMsg (dropTx t p (if m.plane = 0 then 14 else 13)) x.ring x.k false) p := by
  subst ht
  exact (if_neg (by simp [hm])).trans (if_pos hl)

/-- A message in its window is queued with its bytes, or fails with what building it met. -/
theorem reachMsg_queues (hl : txStamp s p ≤ winClose s m) :
    (∀ f, buildMsg t x m = (u, .fail f) → reachMsg s x p idx m rest = failWith u x p idx f)
    ∧ ∀ b, buildMsg t x m = (u, .ok b) → reachMsg s x p idx m rest = queueFrame u p {
        kind := m.plane, close := winClose s m, carrier := m.carrier, sfn := m.sfn, slot := m.slot, sections := m.sections
        ring := x.ring, k := x.k
        bytes := messageFrame u p m.carrier
          (if m.plane = 0 then bits (reg u (portReg p 0xC)) 14 12 else bits (reg u (portReg p 0xC)) 18 16)
          (ecpri (if m.plane = 0 then 2 else 0) (bits (eaxcReg u m.eaxc) 15 0) (takeSeq s m).2 b) } := by
  have hgo : ¬ (!mayTransmit s m.carrier m) = true := by simp [hm]
  subst ht
  unfold reachMsg
  generalize takeSeq s m = z
  obtain ⟨v, id⟩ := z
  dsimp only
  rw [if_neg hgo, if_neg (not_lt_of_ge hl)]
  exact ⟨fun f hb => by rw [hb], fun b hb => by rw [hb]⟩

end

end

end

/-! ### The arbiter -/

section
variable {s : State} {p : Nat}

theorem egBefore_rank {a b : EgFrame} (h : egBefore s p a b = true) : egRank s p a ≤ egRank s p b := by
  unfold egBefore at h
  split at h
  · exact Nat.le_of_lt (of_decide_eq_true h)
  next he => exact Nat.le_of_eq (not_not.1 he)

theorem egBefore_rank_of_not {a b : EgFrame} (h : egBefore s p a b = false) : egRank s p b ≤ egRank s p a := by
  unfold egBefore at h
  split at h
  · exact Nat.le_of_not_lt (of_decide_eq_false h)
  next he => exact Nat.le_of_eq (not_not.1 he).symm

/-- The frame that is granted may leave, and none that may leave has a lower rank. -/
theorem egPick_least (l : List EgFrame) {i : Nat} {f : EgFrame} (h : egPick s p l = some (i, f)) {g : EgFrame} (hg : g ∈ l)
    (hm : mayLeave s p g = true) : egRank s p f ≤ egRank s p g := by
  induction l generalizing i f with
  | nil => exact nomatch hg
  | cons a l ih =>
    have ha : (!(isSync a && syncStopped s p)) = mayLeave s p a := rfl
    rw [egPick] at h
    cases hr : egPick s p l with
    | none =>
      rw [hr] at h
      dsimp only at h
      split at h
      · exact nomatch h
      · obtain ⟨-, rfl⟩ := Prod.mk.inj (Option.some.inj h)
        rcases List.mem_cons.1 hg with rfl | hg
        · exact le_refl _
        · obtain ⟨_, _, -, -, hsome⟩ := egPick_some s p l ⟨g, hg, hm⟩
          exact nomatch hr.symm.trans hsome
    | some z =>
      obtain ⟨j, b⟩ := z
      rw [hr] at h
      dsimp only at h
      rw [ha] at h
      cases hb : mayLeave s p a && egBefore s p a b with
      | true =>
        rw [hb, if_pos rfl] at h
        obtain ⟨-, rfl⟩ := Prod.mk.inj (Option.some.inj h)
        rcases List.mem_cons.1 hg with rfl | hg
        · exact le_refl _
        · exact (egBefore_rank (Bool.and_eq_true_iff.1 hb).2).trans (ih hr hg)
      | false =>
        rw [hb, if_neg Bool.false_ne_true] at h
        obtain ⟨-, rfl⟩ := Prod.mk.inj (Option.some.inj h)
        rcases List.mem_cons.1 hg with rfl | hg
        · rw [hm, Bool.true_and] at hb
          exact egBefore_rank_of_not hb
        · exact ih hr hg

theorem exec_egressGrant_up (h : portState s p = 2) {t : State} (ht : t = dropLate s p) : exec (.egressGrant p) s =
    .next (settleFx (match egPick t p (portOf t p).queue with
      | some (i, f) => sendFrame t p i f
      | none => t) p) := by
  subst ht
  exact congrArg Host.Outcome.next (if_neg (not_not.2 h))

end

/-! ### Cancels -/

section
variable {s : State} {c sfn slot : Nat} {who : Option Nat}

/-- The queue's frame that leaves in the very cycle of a cancel that names it. -/
def CancelMissed (t : State) (c sfn slot : Nat) (who : Option Nat) (race : Bool) (p i : Nat) (f : EgFrame) : Prop :=
  egPick t p (portOf t p).queue = some (i, f) ∧ cancelsFrame c sfn slot who f = true ∧ race = true ∧ portState t p = 2
  ∧ txStamp t p ≤ f.close

theorem exec_cpCancelSection_served (hs : served s = true) (sec : Nat) :
    exec (.cpCancelSection c sfn slot sec) s = .next (cancelCp s c sfn slot (some sec)) := congrArg Host.Outcome.next (if_pos hs)

theorem exec_cpCancelAll_served (hs : served s = true) :
    exec (.cpCancelAll c sfn slot) s = .next (cancelCp s c sfn slot none) := congrArg Host.Outcome.next (if_pos hs)

/-- The state after the arbiter's grant in the cycle of a cancel. -/
def cancelGrant (t : State) (c sfn slot : Nat) (who : Option Nat) (race : Bool) (p : Nat) : State :=
  match egPick t p (portOf t p).queue with
  | some (i, f) =>
    if cancelsFrame c sfn slot who f && race && portState t p = 2 && txStamp t p ≤ f.close
    then setFlag (sendFrame t p i f) 2073 else t
  | none => t

/-- The state with a cancel kept and the queued messages that it names discarded. -/
def cancelKept (base : State) (c sfn slot : Nat) (who : Option Nat) (p : Nat) : State :=
  discardFrames { base with fh := { base.fh with
    cancels := insertNew (c, absFrame base sfn, slot, who) base.fh.cancels } } p 15 (cancelsFrame c sfn slot who)

theorem cancelCp_eq {p : Nat} (hp : p = plPort (carrierOf s c).now) : cancelCp s c sfn slot who =
    settleFx (withdrawAhead (cancelKept (cancelGrant (takeChoice s) c sfn slot who (Config.raceWinner s.choice) p)
      c sfn slot who p) p) p := by
  subst hp
  rfl

variable {t base : State} {race : Bool} {p : Nat}

theorem cancelCp_base (hp : p = plPort (carrierOf s c).now)
    (hb : cancelGrant (takeChoice s) c sfn slot who (Config.raceWinner s.choice) p = base) :
    cancelCp s c sfn slot who = settleFx (withdrawAhead (cancelKept base c sfn slot who p) p) p := by
  rw [cancelCp_eq hp, hb]

theorem cancelMissed_iff {i : Nat} {f : EgFrame} (he : egPick t p (portOf t p).queue = some (i, f)) :
    (cancelsFrame c sfn slot who f && race && portState t p = 2 && txStamp t p ≤ f.close) = true
      ↔ CancelMissed t c sfn slot who race p i f := by
  simp only [CancelMissed, he, Bool.and_eq_true, decide_eq_true_eq, and_assoc, true_and]

theorem cancelGrant_of (h : (base = t ∧ ∀ i f, ¬ CancelMissed t c sfn slot who race p i f)
    ∨ ∃ i f, CancelMissed t c sfn slot who race p i f ∧ base = setFlag (sendFrame t p i f) 2073) :
    cancelGrant t c sfn slot who race p = base := by
  unfold cancelGrant
  rcases h with ⟨rfl, hno⟩ | ⟨i, f, hmiss, rfl⟩
  · cases he : egPick base p (portOf base p).queue with
    | none => rfl
    | some z => exact if_neg fun hc => hno z.1 z.2 ((cancelMissed_iff he).1 hc)
  · rw [hmiss.1]
    exact if_pos ((cancelMissed_iff hmiss.1).2 hmiss)

/-- A cancel discards the queued messages that it names and no other frame. -/
theorem mem_cancelKept (w : tblWf base.fh.port = true) (f : EgFrame) :
    f ∈ (portOf (cancelKept base c sfn slot who p) p).queue
      ↔ f ∈ (portOf base p).queue ∧ cancelsFrame c sfn slot who f = false := by
  have hqueue := discard_queue { base with fh := { base.fh with
    cancels := insertNew (c, absFrame base sfn, slot, who) base.fh.cancels } } p 15 (cancelsFrame c sfn slot who) w
  rw [cancelKept, hqueue, List.mem_filter]
  exact and_congr_right fun _ => Iff.of_eq (Bool.not_eq_true' _)

end

/-! ### The host PTP queue -/

section
variable {s t : State}

theorem exec_tqTransmit_idle (h : served s = false ∨ bitAt (reg s 0xF0410) 9 = false
    ∨ s.fh.txCons % tqSize s true = reg s 0xF041C % tqSize s true) : exec .tqTransmit s = .next s :=
  congrArg Host.Outcome.next (if_pos (by rcases h with h | h | h <;> simp [h]))

/-- The state with the transmit queue's consumer index past entry `i` of `n`. -/
def entryTaken (t : State) (i n : Nat) : State := { t with fh := { t.fh with txCons := (i + 1) % n } }

theorem exec_tqTransmit_takes (hs : served s = true) (he : bitAt (reg s 0xF0410) 9 = true) {n i : Nat} (hn : n = tqSize s true)
    (hi : i = s.fh.txCons % n) (hne : i ≠ reg s 0xF041C % n) : exec .tqTransmit s =
      .next (afterRes (readUse s { ctx := 0, cls := 7 } (reg64 s 0xF0408 % 2 ^ 48 + 128 * i) 128)
        (fun t b => sendEntry (entryTaken t i n) b) fun t _ => entryTaken t i n) := by
  subst hi
  subst hn
  exact congrArg Host.Outcome.next (if_neg (by simp [hs, he, hne]))

end

/-- Settles O57: a list by its checks, a message by its window, a grant by rank, a cancel by the frame that wins. -/
theorem fronthaulEgressSendsInItsWindows : Obligations.FronthaulEgressSendsInItsWindows := by
  unfold Obligations.FronthaulEgressSendsInItsWindows
  intro s
  refine ⟨fun p x g o h => ?sections, fun p x g o h => ?uplane, fun p => ⟨fun h => congrArg Host.Outcome.next (onOp_none h _),
      fun h => congrArg Host.Outcome.next (onOp_none h _), exec_windowOpen_idle⟩,
    fun p x g o h => ⟨exec_windowOpen_last h, exec_windowOpen_other h⟩, fun p x g o m rest h hg => ?window,
    fun p h => congrArg Host.Outcome.next (if_pos h), fun p h => ?grant, fun c sfn slot sec => ⟨fun hs => ⟨?_, ?_⟩, fun hs => ?cancel⟩,
    ?queue⟩
  case sections =>
    intro n
    refine ⟨exec_fxSections_unplaced h, exec_fxSections_count h, fun hp h1 h256 t b hb => ?_⟩
    intro raw es
    have hrun := exec_fxSections_reads h hp h1 h256 hb
    refine ⟨fun r hr => hrun.trans (congrArg Host.Outcome.next (sectionsRead_bad hr)), fun hgood u exts he => ?_⟩
    intro l
    have hstart := hrun.trans (congrArg Host.Outcome.next (sectionsRead_good hgood he))
    exact ⟨fun hl => hstart.trans (congrArg Host.Outcome.next (startSections_long hl)),
      fun hl hd => hstart.trans (congrArg Host.Outcome.next (startSections_downlink hl hd)),
      fun hl hd => hstart.trans (congrArg Host.Outcome.next (startSections_uplink hl hd rfl))⟩
  case uplane =>
    intro n
    refine ⟨exec_fxUplane_unplaced h, exec_fxUplane_count h, fun hp h1 h256 t b hb => ?_⟩
    intro pl
    have hrun := exec_fxUplane_reads h hp h1 h256 hb
    refine ⟨fun hall => hrun.trans (congrArg Host.Outcome.next (uplaneRead_good fun e he =>
      uentryBad_none (hall e he).1 (hall e he).2)), fun l e rest hcut hall => ?_⟩
    have hl : ∀ e, e ∈ l → uentryBad t o e = none := fun e he => uentryBad_none (hall e he).1 (hall e he).2
    rw [show cutUEntries b (bits (xw o 1) 56 48) = l ++ e :: rest from hcut] at hrun
    exact ⟨fun hf => hrun.trans (congrArg Host.Outcome.next (uplaneRead_bad hl (uentryBad_shape hf))),
      fun hf he => hrun.trans (congrArg Host.Outcome.next (uplaneRead_bad hl (uentryBad_eaxc hf he)))⟩
  case window =>
    have hrun := exec_windowOpen_next h hg
    refine ⟨fun hw => hrun.trans (congrArg Host.Outcome.next (if_neg (not_le_of_gt hw))), fun hw => ?_⟩
    intro z t
    have hreach := hrun.trans (congrArg Host.Outcome.next (if_pos hw))
    exact ⟨fun hm => hreach.trans (congrArg Host.Outcome.next (reachMsg_closed rfl hm)),
      fun hm hl => hreach.trans (congrArg Host.Outcome.next (reachMsg_late rfl hm hl)),
      fun hm hl u f hb => hreach.trans (congrArg Host.Outcome.next ((reachMsg_queues rfl hm hl).1 f hb)),
      fun hm hl u b hb => hreach.trans (congrArg Host.Outcome.next ((reachMsg_queues rfl hm hl).2 b hb))⟩
  case grant =>
    intro t stays
    have hrun := exec_egressGrant_up h (t := t) rfl
    have hmay (f : EgFrame) : stays f = false ↔ mayLeave t p f = true :=
      (Iff.of_eq (Bool.not_eq_true' (stays f))).symm
    refine ⟨fun hall => ?_, fun ⟨f, hf, hs⟩ => ?_⟩
    · rw [hrun, egPick_none t p _ fun f hf => by rw [mayLeave]; simp [show (isSync f && syncStopped t p) = true from hall f hf]]
    · obtain ⟨i, f', hi, hm, hpick⟩ := egPick_some t p _ ⟨f, hf, (hmay f).1 hs⟩
      refine ⟨i, f', hi, (hmay f').2 hm, fun g hg hgs => egPick_least _ hpick hg ((hmay g).1 hgs), ?_⟩
      rw [hrun, hpick]
  · exact congrArg Host.Outcome.next (if_neg (by simp [hs]))
  · exact congrArg Host.Outcome.next (if_neg (by simp [hs]))
  case cancel =>
    intro p t wins after
    refine ⟨fun base hb => ?_, fun base hb => ?_, fun who w f => mem_cancelKept (base := t) w f⟩
    · have hbase : cancelGrant t c sfn slot (some sec) (Config.raceWinner s.choice) p = base := cancelGrant_of hb
      exact (exec_cpCancelSection_served hs sec).trans (congrArg Host.Outcome.next (cancelCp_base rfl hbase))
    · have hbase : cancelGrant t c sfn slot none (Config.raceWinner s.choice) p = base := cancelGrant_of hb
      exact (exec_cpCancelAll_served hs).trans (congrArg Host.Outcome.next (cancelCp_base rfl hbase))
  case queue =>
    intro n i consumed
    refine ⟨exec_tqTransmit_idle, fun hs he hne t r hr => ?_⟩
    have hrun := exec_tqTransmit_takes hs he (n := n) (i := i) rfl rfl hne
    refine ⟨fun b hb => ?_, fun f hf => ?_⟩
    · rw [hb] at hr
      exact hrun.trans (congrArg Host.Outcome.next (afterRes_ok hr))
    · rw [hf] at hr
      exact hrun.trans (congrArg Host.Outcome.next (afterRes_fail hr))

end Sys2Proof.Proofs
end

section
/-! PROOFS. What a read of device memory leaves of the batches in service: whatever it sets off, a unit retired, a run
failed or ended, the references judged anew, keeps the W of every batch that is still there. -/
namespace Sys2Proof.Proofs
open Sys2Proof.Machine Sys2Proof.Laws

/-! ### Flags, requests and the log -/

namespace BatchesStay

variable {s t u : State}

theorem before (h : BatchesStay t u) (e : t.runs = s.runs) : BatchesStay s u := trans (of_runs e) h

theorem after (h : BatchesStay s t) (e : u.runs = t.runs) : BatchesStay s u := trans h (of_runs e)

end BatchesStay

theorem setFlag_batches (s : State) (id : Nat) : BatchesStay s (setFlag s id) := (RadioMoves.setFlag s id).batches

theorem setFlagIf_batches (c : Bool) (id : Nat) (s : State) : BatchesStay s (setFlagIf c id s) :=
  (RadioMoves.setFlagIf c id s).batches

theorem collect_batches (s : State) (v : Nat) : BatchesStay s (collect s v) := .of_runs rfl

theorem requestVec_batches (s : State) (fn v : Nat) : BatchesStay s (requestVec s fn v) := by
  have hmis : BatchesStay s (misrouted s) := by
    obtain ⟨_, _, _, _, h⟩ := misrouted_shape s
    exact .of_runs (by rw [h])
  exact .ite (.ite (collect_batches s _) hmis) (collect_batches s _)

theorem logEvent_batches (s : State) (code i a b : Nat) : BatchesStay s (logEvent s code i a b) := .of_runs rfl

theorem corrected_batches (s : State) (typ i n : Nat) : BatchesStay s (corrected s typ i n) :=
  .ite (logEvent_batches s _ _ _ _) (.refl s)

theorem evcAdd_batches (s : State) (n : Nat) (v : W32) : BatchesStay s (evcAdd s n v) := by
  obtain ⟨e, h⟩ := reg_evcAdd s n v
  exact .of_runs (by rw [h])

theorem updateFloor_batches (s : State) : BatchesStay s (updateFloor s) := by
  obtain ⟨_, _, _, _, _, h⟩ := updateFloor_shape s
  exact .of_runs (by rw [h])

theorem recap_batches (s : State) : BatchesStay s (recap s) := by
  unfold recap
  split
  · exact (updateFloor_batches _).before rfl
  · exact .refl s

theorem watchCols_batches (s t : State) : BatchesStay t (watchCols s t) :=
  .foldl (fun u _ => setFlagIf_batches _ _ u) _ t

/-! ### The references -/

theorem setSel_batches (s : State) (role n : Nat) : BatchesStay s (setSel s role n) := by
  unfold setSel
  dsimp only
  refine .ite (.refl s) (.trans (t := if _ then _ else _) ?_ (.of_runs rfl))
  exact .ite (.of_runs rfl) (.of_runs rfl)

theorem clearDrift_batches (s : State) (n : Nat) : BatchesStay s (clearDrift s n) := .ite (.of_runs rfl) (.refl s)

theorem selectRefs_batches (s : State) : BatchesStay s (selectRefs s) :=
  (setSel_batches s _ _).trans ((setSel_batches _ _ _).trans ((clearDrift_batches _ _).trans (clearDrift_batches _ _)))

theorem countLoad_batches (s : State) : BatchesStay s (countLoad s) := (setFlag_batches _ _).before rfl

theorem enterHoldover_batches (s : State) : BatchesStay s (enterHoldover s) := ((setFlag_batches _ _).after rfl).before rfl

theorem judgeStep_batches (s : State) : BatchesStay s (judgeStep s) :=
  .ite (.refl s) (.ite (.of_runs rfl) ((setFlag_batches _ _).before rfl))

theorem settleEtu_batches (s : State) : BatchesStay s (settleEtu s) := by
  unfold settleEtu
  split
  · refine (selectRefs_batches s).trans ?_
    generalize selectRefs s = u
    refine .trans ?_ ((RadioMoves.settleRadio _).batches.trans (updateFloor_batches _))
    split
    · exact (countLoad_batches _).before rfl
    · exact .of_runs rfl
    · exact enterHoldover_batches _
    · exact judgeStep_batches _
    · exact .of_runs rfl
    · exact .refl _
  · exact .refl s

theorem refsRecheck_batches (s : State) : BatchesStay s (refsRecheck s) := by
  have fail (u : State) (n : Nat) : BatchesStay u (failRef u n) := (setFlag_batches _ _).before rfl
  exact .ite (.trans (.foldl (fun u n => .ite (fail u n) (.refl u)) _ s) (settleEtu_batches _)) (.refl s)

/-! ### The step ledger and the columns -/

theorem requestStep_batches (s : State) (x : LedgerStep) : BatchesStay s (requestStep s x) := by
  have happly (u : State) : BatchesStay u (applyStep u x.kind) := by
    cases x.kind with
    | start n => exact .ite (.refl u) (.of_runs rfl)
    | stop n => exact .of_runs rfl
    | cols a n => exact .of_runs rfl
    | fabric on => exact .of_runs rfl
  exact .ite ((happly _).before rfl) ((setFlag_batches _ _).before rfl)

theorem askCols_batches (s : State) (a n : Nat) (radio : Bool) : BatchesStay s (askCols s a n radio) :=
  .ite (.refl s) ((requestStep_batches _ _).before rfl)

theorem settleRamp_batches (s : State) (a : Nat) : BatchesStay s (settleRamp s a) := by
  unfold settleRamp
  dsimp only
  split
  · exact .refl s
  · refine .ite (.refl s) ?_
    split
    · exact (askCols_batches _ _ _ _).before rfl
    · exact .of_runs rfl

theorem requestCols_batches (s : State) (a n : Nat) (radio : Bool) : BatchesStay s (requestCols s a n radio) :=
  .ite (.refl s) ((settleRamp_batches s a).trans (.ite (.of_runs rfl) ((askCols_batches _ _ _ _).before rfl)))

theorem rampFor_batches (s : State) (a : Nat) (x : Run) (g : Seg) (was : Bool) : BatchesStay s (rampFor s a x g was) := by
  unfold rampFor
  split
  · exact requestCols_batches s _ _ _
  · exact .refl s

/-! ### Runs -/

theorem modRun_batches (s : State) (id : Nat) {f : Run → Run} (hid : ∀ x, (f x).id = x.id) (hw : ∀ x, batchW (f x) = batchW x) :
    BatchesStay s (modRun s id f) :=
  .of_map (fun x => by split; exacts [hid x, rfl]) (fun x => by split; exacts [hw x, rfl]) rfl

theorem modSeg_batches (s : State) (id u : Nat) (f : Seg → Seg) : BatchesStay s (modSeg s id u f) :=
  modRun_batches s id (fun _ => rfl) fun _ => rfl

theorem markStop_batches (s : State) (id : Nat) (c : StopCause) : BatchesStay s (markStop s id c) :=
  modRun_batches s id (fun _ => rfl) fun _ => rfl

theorem haltRing_batches (s : State) (r k : Nat) : BatchesStay s (haltRing s r k) := by
  have hreq (u : State) : BatchesStay u (requestVec (setFlag u (1024 + r)) (ringOf s r).fn (ringOf s r).vector) :=
    (setFlag_batches u _).trans (requestVec_batches _ _ _)
  unfold haltRing
  exact ((hreq _).trans (.foldl (fun u id => markStop_batches u id _) _ _)).before rfl

theorem decideSlot_batches (s : State) (r k unit : Nat) (o : Outcome) : BatchesStay s (Machine.decide s r k unit o) := by
  unfold Machine.decide
  dsimp only
  split
  · exact .refl s
  · refine .ite (.ite ?_ (.of_runs rfl)) (.of_runs rfl)
    exact (haltRing_batches _ _ _).before rfl

theorem undefineUnits_batches (s : State) (l : List Nat) : BatchesStay s (undefineUnits s l) := by
  unfold undefineUnits
  refine .foldl (fun u v => ?_) l s
  exact .of_runs rfl

/-- The state with the staging of a run's binding cleared, unless it is confirmed. -/
def unstaged (s : State) (x : Run) : State :=
  match x.bind with
  | some b => if b.confirmed then s else clearStaging s b
  | none => s

theorem unstaged_batches (s : State) (x : Run) : BatchesStay s (unstaged s x) := by
  unfold unstaged
  split
  · exact .ite (.refl s) (.of_runs rfl)
  · exact .refl s

theorem takeBack_batches (s : State) (x : Run) : BatchesStay s (takeBack s x) := by
  have back (u : State) (e : Nat × Nat) : BatchesStay u (evcAdd u e.1 (-BitVec.ofNat 32 e.2)) := evcAdd_batches u _ _
  have hlocals := BatchesStay.foldl back x.locals s
  unfold takeBack
  split
  · exact .refl s
  · exact (unstaged_batches s x).trans (.ite (undefineUnits_batches _ _) (.refl _))
  · next c _ _ =>
    refine (hlocals.trans (unstaged_batches _ x)).trans ?_
    cases c with
    | squashed c => exact undefineUnits_batches _ _
    | failed _ _ _ _ => exact .refl _
    | flushed => exact .refl _
    | powerShed => exact .refl _
    | discarded => exact .refl _

theorem finishRun_batches (s : State) (id : Nat) : BatchesStay s (finishRun s id) := by
  unfold finishRun
  split
  · exact .refl s
  · next x hx =>
    have htaken : BatchesStay s { takeBack s x with runs := (takeBack s x).runs.filter fun y => y.id ≠ id } :=
      (takeBack_batches s x).trans (.of_filter id rfl)
    dsimp only
    generalize ({ takeBack s x with runs := _ } : State) = u at htaken ⊢
    have hrelease : BatchesStay u (if releasesNow x then (x.tables.filterMap (·.entry)).foldl releaseVer u else u) := by
      refine .ite (.foldl (fun v e => ?_) _ u) (.refl u)
      exact .of_runs rfl
    refine (htaken.trans hrelease).trans (.ite (.refl _) (.foldl (fun v k => ?_) _ _))
    exact (decideSlot_batches _ _ _ _ _).before rfl

theorem finishIfEnded_batches (s : State) (id : Nat) : BatchesStay s (finishIfEnded s id) := by
  unfold finishIfEnded
  split
  · exact .ite (finishRun_batches s id) (.refl s)
  · exact .refl s

theorem stopRun_batches (s : State) (id : Nat) (c : StopCause) : BatchesStay s (stopRun s id c) :=
  (markStop_batches s id c).trans (finishIfEnded_batches _ id)

theorem squash_batches (s : State) (id c : Nat) : BatchesStay s (squash s id c) := by
  unfold squash
  split
  · exact .ite (.trans (.of_runs rfl) ((markStop_batches _ id _).trans (modRun_batches _ id (fun _ => rfl) fun _ => rfl))) (.refl s)
  · exact .refl s

/-! ### Segments and units -/

theorem giveArray_batches (s : State) (a : Nat) (x : Run) (g : Seg) : BatchesStay s (giveArray s a x g) :=
  .trans (.of_runs rfl) (rampFor_batches _ a x g _)

theorem leaveArray_batches (s : State) (a : Nat) : BatchesStay s (leaveArray s a) := by
  unfold leaveArray
  split
  · exact giveArray_batches s a _ _
  · refine .trans (t := setArr s a { arrOf s a with occupant := 0, holder := none }) (.of_runs rfl) ?_
    dsimp only
    split
    · exact rampFor_batches _ _ _ _ _
    · exact requestCols_batches _ _ _ _

theorem freeUnit_batches (s : State) (cls u : Nat) : BatchesStay s (freeUnit s cls u) := by
  unfold freeUnit
  split
  · exact .ite (.of_runs rfl) (.ite (.of_runs rfl) (.refl s))
  · exact .of_runs rfl
  · exact .of_runs rfl
  · exact .refl s

theorem endSeg_batches (s : State) (x : Run) (u : Nat) : BatchesStay s (endSeg s x u) := by
  have drop (v : State) : BatchesStay v (dropPreempted v u) :=
    .trans (.of_runs rfl) (.ite (leaveArray_batches _ u) (.refl _))
  exact (modSeg_batches s x.id u _).trans (.ite ((freeUnit_batches _ _ _).trans (.ite (leaveArray_batches _ u) (.refl _)))
    (.ite (drop _) (.refl _)))

theorem failSeg_batches (s : State) (x : Run) (u st r d : Nat) : BatchesStay s (failSeg s x u st r d) :=
  (endSeg_batches s x u).trans (.ite (modRun_batches _ _ (fun _ => rfl) fun _ => rfl) (stopRun_batches _ _ _))

theorem reachOp_batches (s : State) (x : Run) (g : Seg) : BatchesStay s (reachOp s x g) := by
  unfold reachOp
  split
  · exact endSeg_batches s x _
  · exact .ite (failSeg_batches s x _ _ _ _) (.ite (failSeg_batches s x _ _ _ _) (.refl s))

theorem settleUnitAux_batches (n : Nat) (s : State) (cls u : Nat) : BatchesStay s (settleUnitAux n s cls u) := by
  induction n generalizing s with
  | zero => exact .refl s
  | succ n ih =>
    rw [settleUnitAux]
    split
    · exact .refl s
    · exact .ite (.refl s) (.ite ((reachOp_batches s _ _).trans (ih _)) (reachOp_batches s _ _))

theorem settleUnit_batches (s : State) (cls u : Nat) : BatchesStay s (settleUnit s cls u) :=
  .trans (.ite (leaveArray_batches s u) (.refl s)) (settleUnitAux_batches _ _ cls u)

theorem advance_batches (s : State) (x : Run) (u : Nat) : BatchesStay s (advance s x u) :=
  (modSeg_batches s x.id u _).trans (settleUnit_batches _ _ _)

theorem settleFx_batches (s : State) (p : Nat) : BatchesStay s (settleFx s p) := by
  unfold settleFx
  split
  · exact .ite (advance_batches s _ p) (.refl s)
  · exact .refl s

/-! ### Retirement -/

theorem faultSegs_batches (s : State) (cls : Nat) (units : List Nat) : BatchesStay s (faultSegs s cls units) := by
  refine .foldl (fun t x => ?_) _ s
  split
  · exact .ite ((markStop_batches t _ _).trans (.foldl (fun v u => .ite (endSeg_batches v x u) (.refl v)) _ _)) (.refl t)
  · exact .refl t

theorem faultAll_batches (s : State) : BatchesStay s (faultAll s) := by
  refine .foldl (fun t x => ?_) _ s
  split
  · exact markStop_batches t _ _
  · exact .refl t

theorem portLeave_batches (s : State) (p : Nat) : BatchesStay s (portLeave s p) := by
  have hdrop : BatchesStay s (discardFrames (setPort s p { portOf s p with lock := false, up := false, frag := none }) p 16
      fun _ => true) := (RadioMoves.discardFrames _ _ _ _).batches.before rfl
  unfold portLeave
  dsimp only
  generalize discardFrames _ _ _ _ = u at hdrop ⊢
  refine (hdrop.trans ?_).trans ((RadioMoves.settleRadio _).batches.trans (settleFx_batches _ p))
  exact .ite ((setFlag_batches u _).after rfl) (.refl u)

theorem retireEffects_batches (s : State) (typ i : Nat) : BatchesStay s (retireEffects s typ i) := by
  unfold retireEffects
  split
  · refine .foldl (fun t x => ?_) _ s
    split
    · exact .ite (squash_batches t _ _) (.refl t)
    · exact .refl t
  · exact (setFlag_batches _ _).before rfl
  · exact (portLeave_batches s i).trans (refsRecheck_batches _)
  · exact (RadioMoves.settleRadio s).batches
  · exact .refl s

theorem retireUnit_batches {s t : State} {typ i : Nat} (h : retireUnit s typ i = some t) : BatchesStay s t := by
  unfold retireUnit at h
  split at h
  · generalize unitSegs typ i = segs at h
    obtain ⟨cls, units⟩ := segs
    have hsegs := faultSegs_batches s cls units
    dsimp only at h
    generalize faultSegs s cls units = u at hsegs h
    have hall : BatchesStay u (if typ = 9 then faultAll u else u) := .ite (faultAll_batches u) (.refl u)
    generalize (if typ = 9 then faultAll u else u) = v at hall h
    have hmark : BatchesStay v { v with retired := tblSet false v.retired (typ * 256 + i) true } := .of_runs rfl
    generalize ({ v with retired := tblSet false v.retired (typ * 256 + i) true } : State) = z at hmark h
    have hstart := hsegs.trans (hall.trans hmark)
    have hend (y : State) : BatchesStay y (setFlag (watchCols v (recap (retireEffects y typ i))) 3072) :=
      (retireEffects_batches y typ i).trans ((recap_batches _).trans ((watchCols_batches v _).trans (setFlag_batches _ _)))
    cases hi : retireInst z typ i with
    | none =>
      rw [hi] at h
      rw [← Option.some.inj h]
      exact hstart.trans (hend z)
    | some n =>
      rw [hi] at h
      rw [← Option.some.inj h]
      exact (hstart.trans (.ite (requestStep_batches z (stopStep n)) (.refl z))).trans (hend _)
  · exact nomatch h

theorem retire_batches (s : State) (typ i code a : Nat) : BatchesStay s (retire s typ i code a) := by
  have sweep (u : State) : BatchesStay u (sweepRuns u) := .foldl (fun v id => finishIfEnded_batches v id) _ u
  have after (u : State) : BatchesStay u (afterRetire u) :=
    (sweep u).trans (.foldl (fun v x => .foldl (fun w g => .ite (.refl w) (settleUnit_batches w _ _)) _ v) _ _)
  unfold retire
  split
  · exact .refl s
  · next h => exact (retireUnit_batches h).trans ((logEvent_batches _ _ _ _ _).trans (after _))

/-! ### Reads -/

theorem countUe_batches (s : State) (typ i : Nat) : BatchesStay s (countUe s typ i) := by
  unfold countUe
  exact .ite ((retire_batches _ _ _ _ _).before rfl) (.of_runs rfl)

theorem countCe_batches (s : State) (tgt off : Nat) : BatchesStay s (countCe s tgt off) := by
  unfold countCe
  obtain ⟨n, typ, i⟩ := eccUnit tgt off
  exact .ite ((setFlag_batches _ _).before rfl) (((setFlag_batches _ _).trans (corrected_batches _ _ _ _)).before rfl)

theorem countMemUe_batches (s : State) (tgt off : Nat) : BatchesStay s (countMemUe s tgt off) := by
  unfold countMemUe
  obtain ⟨n, typ, i⟩ := eccUnit tgt off
  exact ((setFlag_batches _ _).trans (countUe_batches _ _ _)).before rfl

theorem setCells_runs (s : State) (tgt : Nat) (c : Tbl Nat) : (setCells s tgt c).runs = s.runs := by
  unfold setCells
  split <;> rfl

theorem senseCell_batches (s : State) (tgt : Nat) (e : Nat × Nat) : BatchesStay s (senseCell s tgt e) := by
  unfold senseCell
  dsimp only
  split
  · exact countCe_batches s _ _
  · exact (countMemUe_batches _ _ _).before (setCells_runs _ _ _)
  · exact .refl s

theorem findLeaf_batches (s : State) (c va : Nat) (wr : Bool) : BatchesStay s (findLeaf s c va wr).1 := by
  unfold findLeaf
  dsimp only
  split
  · exact .of_runs rfl
  · exact .of_runs rfl

theorem recordFault_batches (s : State) (c va cause : Nat) (wr : Bool) : BatchesStay s (recordFault s c va cause wr) := by
  have hflags := (setFlag_batches s 2976).trans (setFlagIf_batches (cause = 0xDF) 2978 _)
  unfold recordFault
  exact .ite hflags (hflags.after rfl)

theorem xlate_batches (s : State) (g : Agent) (va : Nat) (wr : Bool) : BatchesStay s (xlate s g va wr).1 := by
  have hleaf := findLeaf_batches s g.ctx va wr
  unfold xlate
  generalize findLeaf s g.ctx va wr = z at hleaf ⊢
  obtain ⟨t, r⟩ := z
  split
  · exact recordFault_batches s _ _ _ _
  · split
    · split
      · exact .refl s
      · exact recordFault_batches s _ _ _ _
    · cases r with
      | fail f => exact hleaf.trans (recordFault_batches t _ _ _ _)
      | ok l =>
        dsimp only
        split
        · exact hleaf
        · exact hleaf.trans (recordFault_batches t _ _ _ _)

theorem readHost_batches (s : State) (a n d : Nat) : BatchesStay s (readHost s a n d).1 := by
  unfold readHost
  split
  · exact (setFlag_batches _ _).before rfl
  · split
    · exact .refl s
    · exact setFlag_batches s _
    · exact .refl s

theorem readPlace_batches (s : State) (g : Agent) (p : Place) (n d : Nat) : BatchesStay s (readPlace s g p n d).1 := by
  have sense (tgt : Nat) (c : List (Nat × Nat)) : BatchesStay s (c.foldl (fun u e => senseCell u tgt e) s) :=
    .foldl (fun u e => senseCell_batches u tgt e) c s
  unfold readPlace
  split
  · exact (readHost_batches _ _ _ _).before rfl
  · exact sense 1 _
  · split
    · exact .of_runs rfl
    · exact sense 2 _
  · exact .refl s

theorem readPieces_batches (g : Agent) (l : List (Nat × Nat)) (s : State) (acc : Data) : BatchesStay s (readPieces s g l acc).1 := by
  induction l generalizing s acc with
  | nil => exact .refl s
  | cons e l ih =>
    obtain ⟨va, n⟩ := e
    have hx := xlate_batches s g va false
    rw [readPieces]
    generalize xlate s g va false = z at hx ⊢
    obtain ⟨t, r⟩ := z
    cases r with
    | fail f => exact hx
    | ok p =>
      have hp := readPlace_batches t g p n acc.bytes.length
      dsimp only
      generalize readPlace t g p n acc.bytes.length = z at hp ⊢
      obtain ⟨u, r⟩ := z
      cases r with
      | fail f => exact hx.trans hp
      | ok x => exact (hx.trans hp).trans (ih u _)

theorem readUse_batches (s : State) (g : Agent) (va n : Nat) : BatchesStay s (readUse s g va n).1 := by
  have hr : BatchesStay s (readDev s g va n).1 := readPieces_batches g _ s {}
  have hconsumed (u : State) (p : Poison) : BatchesStay u (consumed u g p) := (setFlag_batches u 3073).after rfl
  unfold readUse
  generalize readDev s g va n = z at hr ⊢
  obtain ⟨t, r⟩ := z
  cases r with
  | fail f => exact hr
  | ok x =>
    dsimp only
    split
    · exact hr
    · exact hr.trans (hconsumed t _)

/-! ### Layout descriptors -/

theorem afterRes_batches {α β : Type} {s : State} {z : State × Res α} (h : BatchesStay s z.1) {f : State → α → State × β}
    {g : State → Fail → State × β} (hf : ∀ t a, BatchesStay t (f t a).1) (hg : ∀ t e, BatchesStay t (g t e).1) :
    BatchesStay s (afterRes z f g).1 := by
  obtain ⟨t, r⟩ := z
  cases r with
  | ok a => exact h.trans (hf t a)
  | fail e => exact h.trans (hg t e)

theorem freshDescriptor_batches (s : State) (g : Agent) (h : Nat) : BatchesStay s (freshDescriptor s g h).1 :=
  afterRes_batches (readUse_batches s g _ 64) (fun t _ => .refl t) fun t _ => .refl t

theorem firstCopy_batches (s : State) (g : Agent) (h : Nat) : BatchesStay s (firstCopy s g h).1 := by
  have hfresh := freshDescriptor_batches s g h
  unfold firstCopy
  split
  · exact .refl s
  · dsimp only
    split
    · split
      · exact .of_runs rfl
      · exact afterRes_batches hfresh (fun t _ => .of_runs rfl) fun t _ => .of_runs rfl
    · exact afterRes_batches hfresh (fun t _ => .of_runs rfl) fun t _ => .refl t

theorem useCopy_batches (s : State) (g : Agent) (h : Nat) (b : List Byte) : BatchesStay s (useCopy s g h b) := by
  unfold useCopy
  split
  · exact modSeg_batches s _ _ _
  · exact .refl s

theorem descriptor_batches (s : State) (g : Agent) (h : Nat) : BatchesStay s (descriptor s g h).1 := by
  unfold descriptor
  split
  · exact .refl s
  · exact afterRes_batches (firstCopy_batches s g h) (fun t b => useCopy_batches t g h b) fun t _ => .refl t

theorem operand_batches (s : State) (g : Agent) (ref : Nat) (store : Bool) : BatchesStay s (operand s g ref store).1 := by
  have hd := descriptor_batches s g (bits ref 15 0)
  unfold operand
  generalize descriptor s g (bits ref 15 0) = z at hd ⊢
  obtain ⟨t, r⟩ := z
  cases r with
  | fail f => exact hd
  | ok b =>
    dsimp only
    split
    · exact hd
    · exact hd

theorem scaleOperand_batches (s : State) (g : Agent) (o : Operand) (real : Bool) :
    BatchesStay s (scaleOperand s g o real).1 := by
  have ho := operand_batches s g (bits o.lay.xform 47 32) false
  unfold scaleOperand
  dsimp only
  generalize operand s g (bits o.lay.xform 47 32) false = z at ho ⊢
  obtain ⟨t, r⟩ := z
  split
  · exact .refl s
  · split
    · exact .refl s
    · cases r with
      | fail f => exact ho
      | ok q =>
        dsimp only
        rw [apply_ite Prod.fst, ite_self]
        exact ho

/-! ### The requests of a batch -/

theorem checkRequest_batches (s : State) (x : Run) (a : Nat) (e : Nat × Nat × Nat) :
    BatchesStay s (checkRequest s x a e).1 := by
  have hox := operand_batches s (agentOf x (some a)) e.2.1 false
  unfold checkRequest
  split
  · exact .refl s
  · dsimp only
    generalize operand s (agentOf x (some a)) e.2.1 false = z at hox ⊢
    obtain ⟨t, r⟩ := z
    split
    · exact .refl s
    · cases r with
      | fail f => exact hox
      | ok ox =>
        have hoy := operand_batches t (agentOf x (some a)) e.2.2 true
        dsimp only
        generalize operand t (agentOf x (some a)) e.2.2 true = z at hoy ⊢
        obtain ⟨u, r⟩ := z
        cases r with
        | fail f => exact hox.trans hoy
        | ok oy =>
          dsimp only
          split
          · exact hox.trans hoy
          · split
            · exact hox.trans hoy
            · next w _ _ _ _ =>
              have hq := scaleOperand_batches u (agentOf x (some a)) oy (!floatPair w.lay.fmt)
              generalize scaleOperand u (agentOf x (some a)) oy (!floatPair w.lay.fmt) = z at hq ⊢
              obtain ⟨v, r⟩ := z
              cases r with
              | fail f => exact (hox.trans hoy).trans hq
              | ok q => exact (hox.trans hoy).trans hq

theorem checkRequests_batches (x : Run) (a : Nat) (l : List (Nat × Nat × Nat)) (s : State) (acc : List Request) :
    BatchesStay s (checkRequests s x a l acc).1 := by
  induction l generalizing s acc with
  | nil => exact .refl s
  | cons e l ih =>
    have hr := checkRequest_batches s x a e
    rw [checkRequests]
    generalize checkRequest s x a e = z at hr ⊢
    obtain ⟨t, r⟩ := z
    cases r with
    | ok q => exact hr.trans (ih t _)
    | fail f => exact hr

theorem cutBatch_batches (s : State) (x : Run) (j : Nat) (f : Fail) : BatchesStay s (cutBatch s x j f) :=
  modRun_batches s x.id (fun _ => rfl) fun _ => rfl

end Sys2Proof.Proofs
end

section
/-! PROOFS. Batches, hold timers and preemption on a Plinth array (R251, R256 to R263). -/
namespace Sys2Proof.Proofs
open Sys2Proof.Machine Sys2Proof.Laws

/-! ### The run that an array executes -/

section
variable {s : State} {cls u opc a : Nat} {x : Run} {g : Seg} {o : ListOp}

theorem current_of_atOp (h : atOp s cls u opc = some (x, g, o)) : current s cls u = some (x, g) := by
  unfold atOp at h
  cases hc : current s cls u with
  | none => rw [hc] at h; exact nomatch h
  | some z =>
    rw [hc] at h
    dsimp only at h
    cases ho : z.2.ops with
    | nil => rw [ho] at h; exact nomatch h
    | cons p l =>
      rw [ho] at h
      dsimp only at h
      split at h
      · cases h
        rfl
      · exact nomatch h

theorem current_of_inOp (h : inOp s cls u = some (x, g, o)) : current s cls u = some (x, g) := by
  unfold inOp at h
  cases hc : current s cls u with
  | none => rw [hc] at h; exact nomatch h
  | some z =>
    rw [hc] at h
    dsimp only at h
    cases ho : z.2.ops with
    | nil => rw [ho] at h; exact nomatch h
    | cons p l =>
      rw [ho] at h
      dsimp only at h
      split at h
      · exact nomatch h
      · cases h
        rfl

theorem findRun_of_holding (h : holding s a = some (x, g)) : findRun s x.id = some x := by
  unfold holding at h
  split at h
  · exact nomatch h
  next id _ =>
    split at h
    · exact nomatch h
    next y hy =>
      obtain ⟨z, -, hz⟩ := Option.map_eq_some_iff.1 h
      obtain ⟨rfl, rfl⟩ := Prod.mk.inj hz
      have hid : y.id = id := by simpa using List.find?_some (show s.runs.find? (fun x => x.id = id) = some y from hy)
      rw [hid]
      exact hy

/-- The run whose operation an array executes is the one of its identity. -/
theorem findRun_of_paReady (h : paReady s a opc = some (x, g, o)) : findRun s x.id = some x := by
  unfold paReady at h
  split at h
  · exact nomatch h
  next ha =>
    have hcur : current s 2 a = holding s a := if_pos (by simp [Nat.lt_of_not_le ha])
    suffices hx : current s 2 a = some (x, g) from findRun_of_holding (hcur.symm.trans hx)
    split at h
    next z hat =>
      obtain rfl := Option.some.inj h
      exact current_of_atOp hat
    next =>
      split at h
      next y k p hin =>
        split at h
        · split at h
          · obtain ⟨rfl, hrest⟩ := Prod.mk.inj (Option.some.inj h)
            obtain ⟨rfl, -⟩ := Prod.mk.inj hrest
            exact current_of_inOp hin
          · exact nomatch h
        · exact nomatch h
      · exact nomatch h

end

/-! ### PA_COLLECT -/

section
variable {s t c : State} {a : Nat} {x y : Run} {g : Seg} {o : ListOp}

/-- A batch after its checks: cut where a request failed. -/
def batchCut (t : State) (x : Run) (n : Nat) : Option Fail → State
  | some f => cutBatch t x n f
  | none => t

theorem batchCut_batches (t : State) (x : Run) (n : Nat) (bad : Option Fail) : BatchesStay t (batchCut t x n bad) := by
  cases bad with
  | none => exact .refl t
  | some f => exact cutBatch_batches t x n f

section
variable {reqs : List Request} {bad : Option Fail} (hc : checkRequests s x a x.batch [] = (t, reqs, bad))
  (hcut : c = batchCut t x reqs.length bad) (hy : findRun c x.id = some y)
include hc hcut hy

/-- The W of a batch is found as it was before its requests were checked. -/
theorem batchW_checked (hx : findRun s x.id = some x) : batchW y = batchW x := by
  have hchecks := checkRequests_batches x a x.batch s []
  rw [hc] at hchecks
  obtain ⟨z, hz, hw⟩ := hchecks.trans (batchCut_batches t x reqs.length bad) x.id y (hcut ▸ hy)
  rw [← hw, ← Option.some.inj (hx.symm.trans hz)]

theorem stepBatch_runs {w : Operand} (hw : batchW x = .ok w) :
    stepBatch s x a g = if reqs.isEmpty then advance c y a else runBatch c y a g w reqs := by
  subst hcut
  unfold stepBatch
  rw [hc]
  dsimp only
  cases bad with
  | none =>
    rw [show findRun t x.id = some y from hy, hw] <;> rfl
  | some f =>
    dsimp only
    rw [show findRun (cutBatch t x reqs.length f) x.id = some y from hy, hw] <;> rfl

theorem stepBatch_fails {f : Fail} (hw : batchW x = .fail f) : stepBatch s x a g = advance c y a := by
  subst hcut
  unfold stepBatch
  rw [hc]
  dsimp only
  cases bad with
  | none => rw [show findRun t x.id = some y from hy, hw] <;> rfl
  | some f =>
    dsimp only
    rw [show findRun (cutBatch t x reqs.length f) x.id = some y from hy, hw] <;> rfl

end

theorem exec_paCollect_ready (h : paReady s a 0x35 = some (x, g, o)) : exec (.paCollect a) s = .next (stepBatch s x a g) := by
  change execPaCollect a s = _
  rw [execPaCollect, h]
  rfl

theorem exec_paCollect_alone (h : paReady s a 0x35 = none) : exec (.paCollect a) s = .next (collectAlone s) := by
  change execPaCollect a s = _
  rw [execPaCollect, h]
  rfl

/-- A PA_COLLECT outside a batch fails the list that it stands in. -/
theorem collectAlone_fails
    (hx : (s.runs.find? fun x => x.cls = 2 && x.cause.isNone && x.loose.any fun l => l.opc = 0x35) = some x)
    (ho : (x.loose.find? fun l => l.opc = 0x35) = some o) : collectAlone s =
      stopRun (modRun s x.id fun y => { y with loose := [] }) x.id (.failed 6 0x30 o.idx 0) := by
  rw [collectAlone, hx]
  dsimp only
  rw [ho]

theorem collectAlone_idle (h : ∀ x, x ∈ s.runs → ∀ o, o ∈ x.loose → o.opc ≠ 0x35) : collectAlone s = s := by
  have hnone : (s.runs.find? fun x => x.cls = 2 && x.cause.isNone && x.loose.any fun l => l.opc = 0x35) = none := by
    rw [List.find?_eq_none]
    intro x hx
    simp only [Bool.and_eq_true, List.any_eq_true, decide_eq_true_eq, not_and, not_exists]
    exact fun _ o ho => h x hx o ho
  rw [collectAlone, hnone]

theorem onArray_none {k : Nat} (h : paReady s a k = none) (check : State → Run → ListOp → State × Res PaWork) :
    onArray s a k check = s := by
  rw [onArray, h]

end

/-! ### Hold timers -/

section
variable {s : State} {c : Nat}

theorem holdOver_iff (s : State) (c : Nat) : holdOver s c = true ↔ ∃ t, (colOf s c).timing = some t ∧ c < 64
    ∧ t + holdCycles s c ≤ s.hclk ∧ waitingSlots (ringOf s (colRing s c)) ≠ [] := by
  unfold holdOver
  cases (colOf s c).timing with
  | none => simp
  | some t => simp [and_assoc]

theorem exec_holdExpire_over (h : holdOver s c = true) :
    exec (.holdExpire c) s = .next (setCol s c { colOf s c with timing := none, expired := true }) :=
  congrArg Host.Outcome.next (if_pos h)

theorem exec_holdExpire_idle (h : ¬ holdOver s c = true) : exec (.holdExpire c) s = .next s :=
  congrArg Host.Outcome.next (if_neg h)

end

/-! ### Preemption -/

section
variable {s : State} {a : Nat} {x y : Run} {g h : Seg}

theorem rampFor_some {n : Nat} (hn : opColumns y h = some n) (was : Bool) : rampFor s a y h was =
    requestCols s a n (y.prio < 2 || (was && Decidable.decide (n < (arrOf s a).cols))) := by
  rw [rampFor, hn]

theorem rampFor_none (hn : opColumns y h = none) (was : Bool) : rampFor s a y h was = s := by
  rw [rampFor, hn]

/-- An array in the hands of the radio segment that takes it: counted, flagged, and with its ramps withdrawn. -/
def handedOver (s : State) (a : Nat) (x y : Run) : State :=
  let t := modSeg s x.id a fun g => { g with preempted := true }
  let u := setArr t a { arrOf t a with
    preempted := true, handovers := satInc 0xFFFFFFFF (arrOf t a).handovers, occupant := 2, func := y.fn, holder := some y.id }
  requestCols (withdrawCols (arrive (setFlag u (3200 + a)) (480 + a)) a) a 0 true

/-- The array given back to the segment that was preempted on it. -/
def handedBack (s : State) (a : Nat) (x : Run) : State :=
  let t := modSeg s x.id a fun g => { g with preempted := false }
  setArr t a { arrOf t a with preempted := false, occupant := 1, func := x.fn, holder := some x.id }

section
variable (ha : a < 8) (hs : s.power.shed = 0)
include ha hs

theorem exec_preemptHandover_eq (hx : holding s a = some (x, g)) (hy : radioNext s a = some (y, h)) :
    exec (.preemptHandover a) s = .next (if x.prio < 2 || rampRuns s a then s
      else settleUnit (rampFor (handedOver s a x y) a y h true) 2 a) := by
  change execPreemptHandover a s = _
  rw [execPreemptHandover, if_pos (by simp [ha, hs]), hx, hy]
  rfl

theorem exec_preemptResume_eq (hx : holding s a = none) (hy : radioNext s a = none) (hp : preemptedOn s a = some (x, g)) :
    exec (.preemptResume a) s = .next (match holding (handedBack s a x) a with
      | some (y, h) => settleUnit (rampFor (handedBack s a x) a y h false) 2 a
      | none => handedBack s a x) := by
  change execPreemptResume a s = _
  rw [execPreemptResume, if_pos (by simp [ha, hs, hx, hy]), hp]
  rfl

end

theorem exec_preemptHandover_idle (hn : 8 ≤ a ∨ s.power.shed ≠ 0 ∨ holding s a = none ∨ radioNext s a = none) :
    exec (.preemptHandover a) s = .next s := by
  change execPreemptHandover a s = _
  rw [execPreemptHandover]
  have hcases : (if (a < 8 && s.power.shed = 0 : Bool) = true then holding s a else none) = none ∨ radioNext s a = none := by
    rcases hn with hn | hn | hn | hn
    · exact .inl (if_neg (by simp [Nat.not_lt_of_le hn]))
    · exact .inl (if_neg (by simp [hn]))
    · exact .inl ((ite_congr rfl (fun _ => hn) fun _ => rfl).trans (ite_self none))
    · exact .inr hn
  rcases hcases with hc | hc
  · rw [hc]
    rfl
  · rw [hc]
    cases (if (a < 8 && s.power.shed = 0 : Bool) = true then holding s a else none) <;> rfl

theorem exec_preemptResume_idle
    (hn : 8 ≤ a ∨ s.power.shed ≠ 0 ∨ holding s a ≠ none ∨ radioNext s a ≠ none ∨ preemptedOn s a = none) :
    exec (.preemptResume a) s = .next s := by
  change execPreemptResume a s = _
  rw [execPreemptResume]
  rcases hn with hn | hn | hn | hn | hn
  · exact congrArg Host.Outcome.next (if_neg (by simp [Nat.not_lt_of_le hn]))
  · exact congrArg Host.Outcome.next (if_neg (by simp [hn]))
  · exact congrArg Host.Outcome.next (if_neg (by simp [hn]))
  · exact congrArg Host.Outcome.next (if_neg (by simp [hn]))
  · rw [hn]
    exact congrArg Host.Outcome.next (ite_self s)

end

/-- Settles O52: a batch by its checks and its W, which the checks leave; a timer by its time; an array by who holds it and
who waits. -/
theorem batchesHoldAndPreemption : Obligations.BatchesHoldAndPreemption := by
  unfold Obligations.BatchesHoldAndPreemption
  intro s a
  refine ⟨fun x g o h t reqs bad hc => ?batch, fun h x o hx ho => ?alone, ⟨fun h => ?_, fun h => ?_, fun h => ?_, fun h => ?_,
    fun h => ?_, fun h hl => ?_⟩, fun c t hc ht hle hw => ?expires, fun c h => ?waits, fun ha hs x g y h hx hy => ⟨fun hp hr => ?hands, fun hn => ?keeps⟩,
    exec_preemptHandover_idle, fun ha hs hx hy x g hp => ?back, exec_preemptResume_idle⟩
  case batch =>
    intro c y hy
    have hcut : c = batchCut t x reqs.length bad := by cases bad <;> rfl
    have hw := batchW_checked hc hcut hy (findRun_of_paReady h)
    rw [hw, exec_paCollect_ready h]
    refine ⟨fun w hok he => ?_, fun w hok he => ?_, fun f hf => congrArg Host.Outcome.next (stepBatch_fails hc hcut hy hf)⟩
    · rw [stepBatch_runs hc hcut hy hok, if_pos (List.isEmpty_iff.2 he)]
    · rw [stepBatch_runs hc hcut hy hok, if_neg (mt List.isEmpty_iff.1 he)]
  case alone => rw [exec_paCollect_alone h, collectAlone_fails hx ho]
  · exact congrArg Host.Outcome.next (onArray_none h _)
  · exact congrArg Host.Outcome.next (onArray_none h _)
  · exact congrArg Host.Outcome.next (onArray_none h _)
  · exact congrArg Host.Outcome.next (onArray_none h _)
  · exact congrArg Host.Outcome.next (onArray_none h _)
  · rw [exec_paCollect_alone h, collectAlone_idle hl]
  case expires => exact exec_holdExpire_over ((holdOver_iff s c).2 ⟨t, ht, hc, hle, hw⟩)
  case waits =>
    refine exec_holdExpire_idle fun hover => ?_
    obtain ⟨t, ht, hc, hle, hw⟩ := (holdOver_iff s c).1 hover
    rcases h with h | h | h
    · exact Nat.not_lt_of_le h hc
    · exact Nat.not_le_of_lt (h t ht) hle
    · exact hw h
  case hands =>
    intro t u v
    have hrun := (exec_preemptHandover_eq ha hs hx hy).trans (congrArg Host.Outcome.next (if_neg (by simp [Nat.not_lt_of_le hp, hr])))
    exact ⟨fun n hn => hrun.trans (congrArg (fun w => Host.Outcome.next (settleUnit w 2 a)) (rampFor_some hn true)),
      fun hn => hrun.trans (congrArg (fun w => Host.Outcome.next (settleUnit w 2 a)) (rampFor_none hn true))⟩
  case keeps =>
    refine (exec_preemptHandover_eq ha hs hx hy).trans (congrArg Host.Outcome.next (if_pos ?_))
    rcases hn with hn | hn
    · simp [hn]
    · simp [hn]
  case back =>
    intro t u y h hy'
    have hrun := exec_preemptResume_eq ha hs hx hy hp
    rw [show holding (handedBack s a x) a = some (y, h) from hy'] at hrun
    refine ⟨fun n hn => hrun.trans (congrArg (fun w => Host.Outcome.next (settleUnit w 2 a)) ?_),
      fun hn => hrun.trans (congrArg (fun w => Host.Outcome.next (settleUnit w 2 a)) (rampFor_none hn false))⟩
    rw [rampFor_some hn, Bool.false_and, Bool.or_false]
    rfl

end Sys2Proof.Proofs
end
